-- ==== Sys2Proof/Word.lean ====
section
/-! DEFINITION. The word types of the FA8 (R6): bytes are 8 bits, registers and instruction words 64 bits. -/

namespace Sys2Proof

/-- A byte of a memory or a buffer (R6). -/
abbrev Byte := BitVec 8

/-- A 64-bit scalar register or instruction word (R27, R49). -/
abbrev W64 := BitVec 64

/-- An MRF slot (R22). -/
abbrev W36 := BitVec 36

end Sys2Proof
end

