-- ==== Sys2Proof/Syntax.lean ====
section
/-! DEFINITION. The syntax of the FA8: the operand forms of the 186 instruction words (R49 to R65) and the machine's
events, one constructor of `Instr` per row of spec/opcode_table.json. Register numbers are `Fin`, enumerated fields are
inductive types; what a format reserves beyond that is refused by `WellFormed`. -/

namespace Sys2Proof

/-- The eight engines in the order of their codes 0 to 7 (R13). -/
inductive Eng where
  | S | Y | M | V | L | W | X | G
  deriving DecidableEq, Repr

/-- The part of the word frame that every word has besides engine and opcode: wait count and predicate (R49). -/
structure Frame where
  wait : Fin 16
  pred : Fin 16
  deriving DecidableEq, Repr

/-- Vector types in the order of their codes 0 to 7 (R52). -/
inductive VTy where
  | s36 | f32 | x72 | f64 | s64 | bf16 | f16 | s16
  deriving DecidableEq, Repr

/-- Line directions in the order of their codes 0 to 3 (R23, R51). -/
inductive Dir where
  | r | c | d | a
  deriving DecidableEq, Repr

/-- The index of a line operand: immediate, or an address register, perhaps post-incremented (R51). -/
inductive LineIx where
  | imm (i : Fin 256)
  | reg (a : Fin 16) (post : Bool)
  deriving DecidableEq, Repr

/-- A line operand (R51); tile 7 is reserved. -/
structure Line where
  tile : Fin 7
  dir : Dir
  ix : LineIx
  deriving DecidableEq, Repr

/-- Condition codes 0 to 6 of compares (R56). -/
inductive Cc where
  | eq | ne | lt | ge | ltu | geu | uo
  deriving DecidableEq, Repr

/-- Narrow formats 0 to 4 (R53). -/
inductive NFmt where
  | s9 | s5 | e4m3 | e5m2 | e2m1
  deriving DecidableEq, Repr

/-- Rounding choices: codes 0 to 5, and 7 `dyn`, as `ctl.round` (R53). -/
inductive Rnd where
  | rne | rtz | rup | rdn | rmm | sr | dyn
  deriving DecidableEq, Repr

/-- Rotation block codes 0 to 2: 16, 64 and 256 elements (R30, R58). -/
inductive Blk where
  | b16 | b64 | b256
  deriving DecidableEq, Repr

/-- The control registers in the order of their codes 0 to 11 (R55). -/
inductive CtlReg where
  | fflags | ftrap | round | mode | cadence | shape | core | tick | phase | inflect | size | sel
  deriving DecidableEq, Repr

/-- The fields of an address register in the order of the f codes of `s.rda` (R122). -/
inductive AField where
  | base | off | stride | wrap
  deriving DecidableEq, Repr

/-- Access sizes 1, 2, 4 and 8 bytes (R54). -/
inductive Sz where
  | b | h | w | d
  deriving DecidableEq, Repr

/-- What `s.wrctl` does with sA: write, OR in, or clear the bits set in it (R122). -/
inductive WrMode where
  | write | set | clr
  deriving DecidableEq, Repr

/-- What `s.rdctl` reads (R122). -/
inductive RdSrc where
  | ctl (r : CtlReg)
  | lc (n : Fin 4)
  deriving DecidableEq, Repr

/-- The count of a hardware loop: count minus 1, or the index of a phase constant (R54, R120). -/
inductive Trip where
  | imm (n : Fin 1048576)
  | const (i : Fin 64)
  deriving DecidableEq, Repr

/-- The token bits of L, M and W words: bits 45, 44, 43 and 42 (R40). -/
structure Tok where
  pop1 : Bool
  pop2 : Bool
  push1 : Bool
  push2 : Bool
  deriving DecidableEq, Repr

/-- Drain modes 0 to 3 (R59, R140). -/
inductive Drain where
  | s36 | x72 | f32 | nd
  deriving DecidableEq, Repr

/-- The source of `m.feed` (R154). -/
inductive FeedSrc where
  | imm (i : BitVec 14)
  | reg (a : Fin 16) (post : Bool)
  deriving DecidableEq, Repr

/-- What `y.gateclr` withdraws (R126). -/
inductive GateSel where
  | signal (g : Fin 64)
  | sem (n : Fin 32)
  | all
  deriving DecidableEq, Repr

/-- Scopes 0 to 3 (R60). -/
inductive Scope where
  | core | part | dev | sys
  deriving DecidableEq, Repr

/-- What `y.export` exports (R126). -/
inductive ExportOp where
  | size (a : Fin 32)
  | sel (b : Fin 32)
  | both (a b : Fin 32)
  deriving DecidableEq, Repr

/-- A buffer address operand: an address register, perhaps post-incremented (R69). -/
structure BufAddr where
  a : Fin 16
  post : Bool
  deriving DecidableEq, Repr

/-- Patterns of `v.perm` in the order of their codes (R194); only `.xor` reads sS. -/
inductive Perm where
  | rev | xor (s : Fin 32) | zip | unzip
  deriving DecidableEq, Repr

/-- Padding of `l.halo` (R208). -/
inductive Pad where
  | zero | const | edge
  deriving DecidableEq, Repr

/-- The source of `w.tile` and `x.send`: AB or a ring (R216, R223). -/
inductive CopySrc where
  | ab (x : BufAddr)
  | ring (q : Fin 32)
  deriving DecidableEq, Repr

/-- The destination of `x.recv` (R223). -/
inductive RecvDst where
  | ab (x : BufAddr)
  | wb (x : BufAddr)
  | ring (q : Fin 32)
  deriving DecidableEq, Repr

/-- Accumulate operations k = 0 to 7 of `w.acc` (R218). -/
inductive AccOp where
  | addS32 | addS64 | addF32 | addF64 | maxF32 | minF32 | maxS32 | minS32
  deriving DecidableEq, Repr

/-- Atomic operations 0 to 7 (R219). -/
inductive AmoOp where
  | add | min | max | and | or | xor | swap | cas
  deriving DecidableEq, Repr

/-- Atomic operand types 0 to 3 (R60). -/
inductive AmoTy where
  | s32 | s64 | f32 | f64
  deriving DecidableEq, Repr

/-- Signal operations 0 to 3 (R220, R223). -/
inductive SigOp where
  | set | add | or | max
  deriving DecidableEq, Repr

/-- Timetabled link paths 0 to 7 (R222). -/
inductive Path where
  | mesh | die | px | nx | py | ny | pz | nz
  deriving DecidableEq, Repr

/-- Link reductions 0 to 6 (R226). -/
inductive RedOp where
  | addF32 | addF64 | addS32 | addS64 | maxF32 | minF32 | addBf16
  deriving DecidableEq, Repr

/-- Where `g.step` takes its token (R237). -/
inductive TokSrc where
  | ab (x : BufAddr)
  | reg (s : Fin 32)
  deriving DecidableEq, Repr

/-! ### What the machine's events carry -/

/-- The source of an inbound access (R267): a PCIe function, a peer module, or a partition of this module. -/
inductive Source where
  | fn (f : Fin 5)
  | peer (m : Nat)
  | part (p : Fin 4)
  deriving DecidableEq, Repr

/-- What an inbound write from outside the module carries: bytes, or the operation of a peer's `x.sig` (R220, R228); `mate` says that
a core of the system phase that runs here made it, on another module of its group (R9, R267). -/
inductive Inbound where
  | bytes (data : List Byte) (mate : Bool)
  | signal (op : SigOp) (v : W64) (mate : Bool)
  deriving DecidableEq, Repr

/-- The home of a device address (R252, R351): HBM of this module, host memory, or a peer module. -/
inductive Home where
  | hbm (pa : Nat)
  | host (ba : Nat)
  | peer (x y z : Nat) (pa : Nat)
  deriving DecidableEq, Repr

/-- One beat arriving over a link (R224): the phase tick it is due, the incoming path, the sending core, the size its
sender declared, its bytes (none: poisoned), whether it is empty, the sending ring's tag, and whether its block could not be
corrected on the way. -/
structure LinkBeat where
  due : Nat
  path : Path
  peer : Nat
  rows : Nat
  rbytes : Nat
  index : Nat
  data : List (Option Byte)
  empty : Bool
  tag : BitVec 16
  bad : Bool
  deriving DecidableEq, Repr

/-- Units whose errors ECC reports, in the order of the sediment record's unit codes 0 to 9 (R381). -/
inductive EccUnit where
  | mrf | ab | wb | sdm | gm | im | hbm | hub | pool | reg
  deriving DecidableEq, Repr

/-- Life-cycle states in their fused order (R364). -/
inductive LifeCycle where
  | manufacture | provisioned | field | returned
  deriving DecidableEq, Repr

/-- One batch position that the decode service serves (R321, R337): the sequence slot, and the device address of its slot object. -/
structure ServiceItem where
  slot : Nat
  slotAddr : Nat
  deriving DecidableEq, Repr

/-- A request of the PLDM base type (R7): its command, and what follows it. -/
structure PldmBase where
  cmd : Nat
  data : List Byte
  deriving DecidableEq, Repr

/-- One constructor per row of spec/opcode_table.json: first the 186 words in the table's order, then the 106 events. -/
inductive Instr where
  -- scalar words (R107 to R125)
  | sNop (w : Fin 16) (idle : Fin 1048576)
  | sAdd (fr : Frame) (d a b : Fin 32)
  | sSub (fr : Frame) (d a b : Fin 32)
  | sMul (fr : Frame) (d a b : Fin 32)
  | sMulh (fr : Frame) (d a b : Fin 32)
  | sMulhu (fr : Frame) (d a b : Fin 32)
  | sDiv (fr : Frame) (d a b : Fin 32)
  | sDivu (fr : Frame) (d a b : Fin 32)
  | sRem (fr : Frame) (d a b : Fin 32)
  | sRemu (fr : Frame) (d a b : Fin 32)
  | sAnd (fr : Frame) (d a b : Fin 32)
  | sOr (fr : Frame) (d a b : Fin 32)
  | sXor (fr : Frame) (d a b : Fin 32)
  | sShl (fr : Frame) (d a b : Fin 32)
  | sShr (fr : Frame) (d a b : Fin 32)
  | sSar (fr : Frame) (d a b : Fin 32)
  | sMin (fr : Frame) (d a b : Fin 32)
  | sMax (fr : Frame) (d a b : Fin 32)
  | sMinu (fr : Frame) (d a b : Fin 32)
  | sMaxu (fr : Frame) (d a b : Fin 32)
  | sClz (fr : Frame) (d a : Fin 32)
  | sPopc (fr : Frame) (d a : Fin 32)
  | sAddi (fr : Frame) (d a : Fin 32) (imm : BitVec 36)
  | sAndi (fr : Frame) (d a : Fin 32) (imm : BitVec 36)
  | sOri (fr : Frame) (d a : Fin 32) (imm : BitVec 36)
  | sXori (fr : Frame) (d a : Fin 32) (imm : BitVec 36)
  | sShli (fr : Frame) (d a : Fin 32) (imm : Fin 64)
  | sShri (fr : Frame) (d a : Fin 32) (imm : Fin 64)
  | sSari (fr : Frame) (d a : Fin 32) (imm : Fin 64)
  | sMuli (fr : Frame) (d a : Fin 32) (imm : BitVec 36)
  | sLi (fr : Frame) (d : Fin 32) (imm : BitVec 32)
  | sLih (fr : Frame) (d : Fin 32) (imm : BitVec 32)
  | sCmp (fr : Frame) (pd : Fin 16) (cc : Cc) (a b : Fin 32)
  | sCmpi (fr : Frame) (pd : Fin 16) (cc : Cc) (a : Fin 32) (imm : BitVec 29)
  | sPand (fr : Frame) (pd pa pb : Fin 16)
  | sPor (fr : Frame) (pd pa pb : Fin 16)
  | sPxor (fr : Frame) (pd pa pb : Fin 16)
  | sPnot (fr : Frame) (pd pa : Fin 16)
  | sAddF64 (fr : Frame) (d a b : Fin 32)
  | sSubF64 (fr : Frame) (d a b : Fin 32)
  | sMulF64 (fr : Frame) (d a b : Fin 32)
  | sDivF64 (fr : Frame) (d a b : Fin 32)
  | sFmaF64 (fr : Frame) (d a b : Fin 32)
  | sSqrtF64 (fr : Frame) (d a : Fin 32)
  | sMinF64 (fr : Frame) (d a b : Fin 32)
  | sMaxF64 (fr : Frame) (d a b : Fin 32)
  | sCmpF64 (fr : Frame) (pd : Fin 16) (cc : Cc) (a b : Fin 32)
  | sCvtF64S64 (fr : Frame) (d a : Fin 32)
  | sCvtS64F64 (fr : Frame) (d a : Fin 32)
  | sClassF64 (fr : Frame) (d a : Fin 32)
  | sLd (fr : Frame) (d : Fin 32) (a : Fin 16) (off : BitVec 20) (sz : Sz) (sx : Bool)
  | sSt (fr : Frame) (d : Fin 32) (a : Fin 16) (off : BitVec 20) (sz : Sz)
  | sLdm (fr : Frame) (d a : Fin 32) (off : BitVec 20) (sz : Sz) (sx : Bool) (land : Fin 8192)
  | sStm (fr : Frame) (d a : Fin 32) (off : BitVec 20) (sz : Sz) (land : Fin 8192)
  | sLoop (w : Fin 16) (depth : Fin 4) (trip : Trip) (words : Fin 32768)
  | sRdctl (fr : Frame) (d : Fin 32) (src : RdSrc)
  | sWrctl (fr : Frame) (r : CtlReg) (m : WrMode) (a : Fin 32)
  | sRda (fr : Frame) (d : Fin 32) (n : Fin 16) (f : AField)
  | sWra (fr : Frame) (n : Fin 16) (f : AField) (a : Fin 32)
  | sRdq (fr : Frame) (d n : Fin 32) (hi : Bool)
  | sWrq (fr : Frame) (n : Fin 32) (hi : Bool) (a : Fin 32)
  | sRdk (fr : Frame) (d : Fin 32) (n : Fin 8) (gen : Bool)
  | sWrk (fr : Frame) (n : Fin 8) (a : Fin 32)
  | sRnd (fr : Frame) (d q : Fin 32) (pair : Bool)
  -- sync words (R126 to R136)
  | yNop (w : Fin 16) (idle : Fin 1048576)
  | yRdv (w : Fin 16)
  | ySeminit (fr : Frame) (n : Fin 32) (v : BitVec 16)
  | ySemclr (fr : Frame) (a : Fin 32)
  | yTokpush (fr : Frame) (f : Fin 6) (c : Fin 9)
  | yTokpop (fr : Frame) (f : Fin 6) (c : Fin 9)
  | yGate (fr : Frame) (g : Fin 64) (src : Option (Fin 32))
  | yGatesem (fr : Frame) (n : Fin 32) (v : BitVec 16)
  | yGateclr (fr : Frame) (g : GateSel)
  | yFence (w : Fin 16) (sc : Scope)
  | yExport (fr : Frame) (e : ExportOp)
  | yTrap (fr : Frame) (v : BitVec 24)
  | yBrk (fr : Frame) (v : BitVec 24)
  | yStamp (fr : Frame) (v : BitVec 24)
  -- matrix words (R137 to R155)
  | mNop (w : Fin 16) (tok : Tok) (idle : Fin 1048576)
  | mWld (fr : Frame) (tok : Tok) (qa qb : Fin 32) (s5 : Bool)
  | mSwap (fr : Frame) (tok : Tok)
  | mMacS9 (fr : Frame) (tok : Tok) (qa qb : Fin 32) (l : Line) (rows : Fin 256) (dm : Drain) (init peek : Bool)
  | mMacS5 (fr : Frame) (tok : Tok) (qa qb : Fin 32) (l : Line) (rows : Fin 256) (dm : Drain) (init peek : Bool)
  | mSpmacS9 (fr : Frame) (tok : Tok) (qa qb : Fin 32) (l : Line) (rows : Fin 256) (dm : Drain) (init : Bool)
  | mShape (fr : Frame) (tok : Tok) (mask : Fin 16)
  | mWake (fr : Frame) (tok : Tok) (mask : Fin 16)
  | mSleep (fr : Frame) (tok : Tok) (mask : Fin 16)
  | mFeed (fr : Frame) (tok : Tok) (src : FeedSrc)
  | mXbase (fr : Frame) (tok : Tok) (imm : BitVec 10)
  -- vector compute words (R156 to R185)
  | vNop (w : Fin 16) (idle : Fin 1048576)
  | vAdd (fr : Frame) (ty : VTy) (d a b : Line)
  | vSub (fr : Frame) (ty : VTy) (d a b : Line)
  | vMul (fr : Frame) (ty : VTy) (d a b : Line)
  | vFma (fr : Frame) (ty : VTy) (d a b : Line)
  | vFms (fr : Frame) (ty : VTy) (d a b : Line)
  | vMin (fr : Frame) (ty : VTy) (d a b : Line)
  | vMax (fr : Frame) (ty : VTy) (d a b : Line)
  | vAnd (fr : Frame) (ty : VTy) (d a b : Line)
  | vOr (fr : Frame) (ty : VTy) (d a b : Line)
  | vXor (fr : Frame) (ty : VTy) (d a b : Line)
  | vDiv (fr : Frame) (ty : VTy) (d a b : Line)
  | vAbs (fr : Frame) (ty : VTy) (d a : Line) (mk : Option (Fin 8))
  | vNeg (fr : Frame) (ty : VTy) (d a : Line) (mk : Option (Fin 8))
  | vNot (fr : Frame) (ty : VTy) (d a : Line) (mk : Option (Fin 8))
  | vMov (fr : Frame) (ty : VTy) (d a : Line) (mk : Option (Fin 8))
  | vShl (fr : Frame) (ty : VTy) (d a : Line) (s : Fin 32) (n : Fin 64) (mk : Option (Fin 8))
  | vShr (fr : Frame) (ty : VTy) (d a : Line) (s : Fin 32) (n : Fin 64) (mk : Option (Fin 8))
  | vSar (fr : Frame) (ty : VTy) (d a : Line) (s : Fin 32) (n : Fin 64) (mk : Option (Fin 8))
  | vRshr (fr : Frame) (ty : VTy) (d a : Line) (s : Fin 32) (n : Fin 64) (mk : Option (Fin 8))
  | vCmp (fr : Frame) (ty : VTy) (cc : Cc) (vmE : Fin 8) (a b : Line) (mk : Option (Fin 8))
  | vSel (fr : Frame) (ty : VTy) (d a : Line) (s : Fin 32) (vm : Fin 8)
  | vBcast (fr : Frame) (ty : VTy) (d a : Line) (s : Fin 32) (k : BitVec 6) (mk : Option (Fin 8))
  | vCvt (fr : Frame) (dt st : VTy) (d a : Line) (mk : Option (Fin 8))
  | vCvte (fr : Frame) (ty h16 : VTy) (toH16 hi : Bool) (d a : Line) (mk : Option (Fin 8))
  | vSliceF64 (fr : Frame) (q : Fin 32) (a : Line) (s : Fin 32)
  | vScale (fr : Frame) (ty : VTy) (d a : Line) (s : Fin 32) (n : BitVec 6) (mk : Option (Fin 8))
  | vCvtx (fr : Frame) (ty : VTy) (toX : Bool) (d a : Line) (s : Fin 32) (mk : Option (Fin 8))
  | vNarrow (fr : Frame) (ty : VTy) (l : Line) (q : Fin 32) (fmt : NFmt) (k : Fin 8) (blk : Blk) (free : Bool) (rnd : Rnd) (mk : Option (Fin 8))
  | vRot (fr : Frame) (ty : VTy) (l : Line) (tagq : Option (Fin 32)) (k : Fin 8) (blk : Blk) (inv : Bool) (rnd : Rnd)
  | vPop (fr : Frame) (ty : VTy) (l : Line) (q : Fin 32) (mk : Option (Fin 8))
  | vPush (fr : Frame) (ty : VTy) (l : Line) (q : Fin 32) (mk : Option (Fin 8))
  | vExp2 (fr : Frame) (d a : Line) (mk : Option (Fin 8))
  | vLog2 (fr : Frame) (d a : Line) (mk : Option (Fin 8))
  | vRecip (fr : Frame) (d a : Line) (mk : Option (Fin 8))
  | vRsqrt (fr : Frame) (d a : Line) (mk : Option (Fin 8))
  | vSqrt (fr : Frame) (ty : VTy) (d a : Line) (mk : Option (Fin 8))
  | vSinpi (fr : Frame) (d a : Line) (mk : Option (Fin 8))
  | vCospi (fr : Frame) (d a : Line) (mk : Option (Fin 8))
  -- vector data words (R186 to R201)
  | vLd (fr : Frame) (ty : VTy) (l : Line) (x : BufAddr) (off : BitVec 16) (mk : Option (Fin 8))
  | vSt (fr : Frame) (ty : VTy) (l : Line) (x : BufAddr) (off : BitVec 16) (mk : Option (Fin 8))
  | vGather (fr : Frame) (ty : VTy) (l : Line) (x : BufAddr) (off : BitVec 16) (mk : Option (Fin 8))
  | vScatter (fr : Frame) (ty : VTy) (l : Line) (x : BufAddr) (off : BitVec 16) (mk : Option (Fin 8))
  | vBset (fr : Frame) (ty : VTy) (l : Line) (x : BufAddr) (off : BitVec 16) (mk : Option (Fin 8))
  | vBtest (fr : Frame) (ty : VTy) (l : Line) (x : BufAddr) (off : BitVec 16) (mk : Option (Fin 8))
  | vPerm (fr : Frame) (ty : VTy) (p : Perm) (d a : Line) (mk : Option (Fin 8))
  | vLshift (fr : Frame) (ty : VTy) (d a : Line) (s : Fin 32) (k : BitVec 6) (mk : Option (Fin 8))
  | vLrot (fr : Frame) (ty : VTy) (d a : Line) (s : Fin 32) (k : BitVec 6) (mk : Option (Fin 8))
  | vMatch (fr : Frame) (pe : Fin 16) (part : Bool) (pat win : Line) (s : Fin 32) (mk : Option (Fin 8))
  | vRndfill (fr : Frame) (ty : VTy) (d : Line) (q : Fin 32) (mk : Option (Fin 8))
  | vRsum (fr : Frame) (ty : VTy) (d a : Line) (g : Fin 16) (mk : Option (Fin 8))
  | vRmax (fr : Frame) (ty : VTy) (d a : Line) (g : Fin 16) (mk : Option (Fin 8))
  | vRmin (fr : Frame) (ty : VTy) (d a : Line) (g : Fin 16) (mk : Option (Fin 8))
  | vScan (fr : Frame) (ty : VTy) (d a : Line) (g : Fin 16) (mk : Option (Fin 8))
  | vArgmax (fr : Frame) (ty : VTy) (d a : Line) (g : Fin 16) (mk : Option (Fin 8))
  | vArgmin (fr : Frame) (ty : VTy) (d a : Line) (g : Fin 16) (mk : Option (Fin 8))
  | vMand (fr : Frame) (d a b : Fin 8)
  | vMor (fr : Frame) (d a b : Fin 8)
  | vMxor (fr : Frame) (d a b : Fin 8)
  | vMnot (fr : Frame) (d a : Fin 8)
  | vMset (fr : Frame) (d : Fin 8) (s : Fin 32)
  | vMcount (fr : Frame) (pd : Fin 8) (a : Fin 8) (cc : Cc) (s : Fin 32)
  -- load-copy words (R202 to R215)
  | lNop (w : Fin 16) (tok : Tok) (idle : Fin 1048576)
  | lTile (fr : Frame) (tok : Tok) (wb : Bool) (x : BufAddr) (s : Fin 32) (desc : Fin 2048) (land : Fin 8192)
  | lHalo (fr : Frame) (tok : Tok) (pad : Pad) (x : BufAddr) (s : Fin 32) (desc : Fin 2048) (land : Fin 8192)
  | lNarrow (fr : Frame) (tok : Tok) (k : Fin 8) (q : Fin 32) (s : Fin 32) (desc : Fin 2048) (land : Fin 8192)
  | lCsr (fr : Frame) (tok : Tok) (q : Fin 32) (x : BufAddr) (s : Fin 32) (desc : Fin 2048) (land : Fin 8192)
  | lGather (fr : Frame) (tok : Tok) (x : BufAddr) (s : Fin 32) (desc : Fin 2048) (land : Fin 8192)
  | lRow (fr : Frame) (tok : Tok) (ty : VTy) (tile : Fin 7) (x : BufAddr) (s : Fin 32) (desc : Fin 2048) (land : Fin 8192)
  | lRing (fr : Frame) (tok : Tok) (q : Fin 32) (s : Fin 32) (desc : Fin 2048) (land : Fin 8192)
  -- store-copy words (R216 to R221)
  | wNop (w : Fin 16) (tok : Tok) (idle : Fin 1048576)
  | wTile (fr : Frame) (tok : Tok) (src : CopySrc) (s : Fin 32) (desc : Fin 2048) (land : Fin 8192)
  | wAcc (fr : Frame) (tok : Tok) (op : AccOp) (x : BufAddr) (s : Fin 32) (desc : Fin 2048) (land : Fin 8192)
  | wAmo (fr : Frame) (tok : Tok) (op : AmoOp) (ty : AmoTy) (sc : Scope) (rel : Bool) (s v c : Fin 32)
  | wSig (fr : Frame) (tok : Tok) (op : SigOp) (sc : Scope) (rel : Bool) (s v : Fin 32)
  | wFilt (fr : Frame) (tok : Tok) (bf16 : Bool) (x : BufAddr) (s : Fin 32) (desc : Fin 2048) (land : Fin 8192)
  | wRow (fr : Frame) (tok : Tok) (ty : VTy) (tile : Fin 7) (x : BufAddr) (s : Fin 32) (desc : Fin 2048) (land : Fin 8192)
  -- link words (R222 to R229)
  | xNop (w : Fin 16) (idle : Fin 1048576)
  | xSend (fr : Frame) (path : Path) (src : CopySrc) (desc : Fin 2048) (land : Fin 8192)
  | xRecv (fr : Frame) (path : Path) (dst : RecvDst) (desc : Fin 2048)
  | xRed (fr : Frame) (path : Path) (op : RedOp) (x : BufAddr) (desc : Fin 2048)
  | xPut (fr : Frame) (sem : Fin 32) (x : BufAddr) (s : Fin 32) (desc : Fin 2048)
  | xSig (fr : Frame) (op : SigOp) (s : Fin 32) (desc : Fin 2048)
  | xAlign (fr : Frame) (path : Path) (x : BufAddr)
  | xFwd (fr : Frame) (path : Path) (desc : Fin 2048) (land : Fin 8192)
  -- grammar words (R230 to R245)
  | gNop (w : Fin 16) (idle : Fin 1048576)
  | gBind (fr : Frame) (c : Fin 64) (s : Fin 32)
  | gStep (fr : Frame) (c : Fin 64) (src : TokSrc) (ls : Fin 8192)
  | gMask (fr : Frame) (c : Fin 64) (x : BufAddr) (v : Fin 512) (lm : Fin 8192)
  | gFork (fr : Frame) (e c : Fin 64)
  | gMark (fr : Frame) (c : Fin 64)
  | gRollback (fr : Frame) (c : Fin 64)
  | gCommit (fr : Frame) (c : Fin 64)
  | gFree (fr : Frame) (c : Fin 64)
  | gSave (fr : Frame) (c : Fin 64) (x : BufAddr) (move : Bool)
  | gRestore (fr : Frame) (c : Fin 64) (x : BufAddr) (copy : Bool)
  | gState (fr : Frame) (c : Fin 64) (x : BufAddr)
  -- events of a core: they take what is due at the core of the issue slot
  | resultLand
  | elasticStall
  | macRowEntry
  | drainWrite
  | bandWakeComplete
  | lBeatLand
  | wBeatHomeWrite
  | linkBeatDelivery
  | filterRecordLanding
  | loopExit
  -- the outbound path and inbound accesses
  | untimetabledWritePerformed (core : Fin 96) (op : Nat)
  | acknowledgement (core : Fin 96) (op : Nat)
  | putCompletion (core : Fin 96) (op : Nat)
  | xsigTranslation (core : Fin 96) (op : Nat)
  | inboundWrite (src : Source) (pa : Nat) (data : Inbound) (poisoned : Bool)
  | inboundRead (src : Source) (pa n : Nat)
  | writeNotification (home : Home)
  -- the phase sequencer
  | lastSignOff (p : Fin 4)
  | replayMarkExchange (p : Fin 4) (marked : Bool)
  | gateEvaluation (p : Fin 4)
  | alignmentReadiness (p : Fin 4) (rank pidx infl cadence : Nat)
  | startWave (p : Fin 4) (cadence hops : Nat)
  | phaseStart (p : Fin 4)
  | refreshSlot (p : Fin 4)
  | gateWatchdogExpiry (p : Fin 4)
  | sequencerProgress (p : Fin 4)
  | heartbeatCheck (p : Fin 4)
  | abortMessage (p : Fin 4)
  | faultCapture (p : Fin 4)
  | uncorrectableError (u : EccUnit) (core : Fin 96) (addr : Nat)
  | correctedError (u : EccUnit) (core : Fin 96) (addr : Nat)
  | abandon (p : Fin 4)
  | retry (p : Fin 4)
  | replay (p : Fin 4)
  -- start-up of a die, a debug stop, the arrival of a link beat: named here since the model itself makes them due
  | dieWake (die : Fin 8) (test : Fin 12 × Bool)
  | debugStop (p : Fin 4)
  | landingBufferArrival (core : Fin 96) (beat : LinkBeat)
  -- the host port
  | registerWrite (fn : Fin 5) (off : Nat) (v : W64)
  | modeWrite (v : W64)
  | rngKeyWrite (p : Fin 4) (word : Fin 4) (v : W64)
  | tktValWrite (p : Fin 4) (v : W64)
  | winErrClear (p : Fin 4)
  | hostApertureWrite (fn : Fin 5) (off : Nat) (data : List Byte) (poisoned : Bool)
  | hostApertureRead (fn : Fin 5) (off n : Nat)
  | hostAbWrite (fn : Fin 5) (off : Nat) (data : List Byte) (poisoned : Bool)
  | hostAbRead (fn : Fin 5) (off n : Nat)
  | doorbell (p : Fin 4) (q : Fin 64) (tail : BitVec 32)
  | queueEnable (p : Fin 4) (q : Fin 64) (on : Bool)
  | queueResume (p : Fin 4) (q : Fin 64) (on : Bool)
  | queueSkip (p : Fin 4) (q : Fin 64) (on : Bool)
  | recordFetch (p : Fin 4) (q : Fin 64)
  | launchGateEvaluation (p : Fin 4) (q : Fin 64)
  | launchStart (p : Fin 4)
  | jobCompletion (p : Fin 4) (job : Nat)
  | completionSignalPerformed (p : Fin 4) (job : Nat)
  | preemptRequest (p : Fin 4)
  | preemptResume (p : Fin 4)
  | dumpComplete (p : Fin 4)
  | decodeService (p : Fin 4) (items : List ServiceItem) (svo vb : Nat)
  | ccntClear (p : Fin 4)
  | invalidateOne (p : Fin 4)
  | invalidateAll (p : Fin 4)
  | dumpStart (p : Fin 4)
  -- start-up, trust and debug
  | powerGood
  | startupDone
  | recGo
  | getVersion
  | getCapabilities
  | negotiateAlgorithms
  | getDigests
  | getCertificate (req : List Byte)
  | challenge (req : List Byte)
  | getMeasurements (index : Nat) (sign : Option (List Byte))
  | spdmUnsupportedRequest (code : Nat)
  | dbgGo
  | dstop (p : Fin 4)
  | dcont (p : Fin 4)
  | bypass
  | idcode
  | sample
  | preload
  | extest
  | clamp
  | highz
  -- the fleet
  | getpdr (record : Nat)
  | getsensorreading (id : Nat)
  | getnumericeffectervalue (id : Nat)
  | setnumericeffectervalue (id v : Nat)
  | pollforplatformeventmessage
  | powerSample (watts : Nat) (milli : Fin 1000)
  | thermalPoll (core base : List Nat)
  | hbmTempRead (codes : List Nat)
  | undervoltStep
  | uvEnWrite (v : W64)
  | firmwareHeartbeat
  | heartbeatLoss
  | flashCopy
  | sedimentSelect (v : W64)
  | telemetrySelect (v : W64)
  | pcieConfigRequest
  | pldmBaseRequest (req : PldmBase)
  | pldmUnsupportedRequest (ty cmd : Nat)
  | mctpControlMessage (req : List Byte)
  | lifeCycleFuse (state : LifeCycle) (token : Bool)
  | linkRetrain (port : Nat)
  | linkCorrectedBlocks (port count : Nat)
  deriving DecidableEq, Repr

end Sys2Proof
end

