-- ==== Sys2Proof/WellFormed.lean ====
section
/-! DEFINITION. Which instructions are well formed: the values that the formats and the instruction chapters reserve
(R50, R52, R56 and the tables of each chapter) are not. A word whose fields are reserved is an unassigned encoding,
code 0x01 (R50, R65). -/

namespace Sys2Proof

/-- The float types of R52. -/
def VTy.isFloat : VTy → Bool
  | .f32 | .f64 | .bf16 | .f16 => true
  | _ => false

/-- The integer types that saturate at their width (R166). -/
def VTy.isInt : VTy → Bool
  | .s36 | .s64 | .s16 => true
  | _ => false

/-- The types two of whose elements share a slot (R25). -/
def VTy.isH16 : VTy → Bool
  | .bf16 | .f16 | .s16 => true
  | _ => false

/-- The types `v.cvt` converts among one another (R174). -/
def VTy.cvtPair (dt st : VTy) : Bool :=
  dt != st && ((!dt.isH16 && !st.isH16 && dt != .x72 && st != .x72) || (dt.isH16 && st.isH16))

/-- The condition codes that integer compares take (R56). -/
def Cc.forInt : Cc → Bool
  | .uo => false
  | _ => true

/-- The condition codes that float and X72 compares take (R115, R172). -/
def Cc.forFloat : Cc → Bool
  | .ltu | .geu => false
  | _ => true

/-- The L field of a mac word: directions 2 and 3 are reserved, and direction 0 with `.x72` (R140). -/
def macLineOk (l : Line) (dm : Drain) (rows : Fin 256) : Bool :=
  match l.dir, dm with
  | .r, .x72 => false
  | .c, .x72 => rows.val < 128
  | .r, _ | .c, _ => true
  | _, _ => false

/-- Torus paths 2 to 7 (R222). -/
def Path.isTorus : Path → Bool
  | .mesh | .die => false
  | _ => true

/-- Operations that `w.amo` takes on float types (R219). -/
def AmoOp.forFloat : AmoOp → Bool
  | .add | .min | .max | .swap => true
  | _ => false

/-- No field holds a value that its format or its instruction reserves; for an event, its data have the sizes that the
spec gives them. -/
def Instr.wf : Instr → Bool
  | .sCmp _ _ cc _ _ | .sCmpi _ _ cc _ _ => cc.forInt
  | .sCmpF64 _ _ cc _ _ => cc.forFloat
  | .sLd _ _ _ _ sz sx => !(sx && sz == .d)
  | .sLdm _ _ _ _ sz sx land => !(sx && sz == .d) && land != 0
  | .sStm _ _ _ _ _ land => land != 0
  | .sLoop _ _ _ words => words != 0
  | .yTokpush _ _ c | .yTokpop _ _ c => c != 0
  | .mMacS9 _ _ _ _ l rows dm _ _ | .mMacS5 _ _ _ _ l rows dm _ _ | .mSpmacS9 _ _ _ _ l rows dm _ => macLineOk l dm rows
  | .mWake _ _ mask | .mSleep _ _ mask => mask != 0
  | .vMul _ ty _ _ _ | .vFma _ ty _ _ _ | .vFms _ ty _ _ _ | .vAnd _ ty _ _ _ | .vOr _ ty _ _ _ | .vXor _ ty _ _ _ => ty != .x72
  | .vDiv _ ty _ _ _ | .vSqrt _ ty _ _ _ => ty == .f32 || ty == .f64
  | .vNot _ ty _ _ _ | .vShl _ ty _ _ _ _ _ | .vShr _ ty _ _ _ _ _ | .vSar _ ty _ _ _ _ _ | .vRshr _ ty _ _ _ _ _ => ty.isInt
  | .vCmp _ ty cc _ _ _ _ => if ty.isInt then cc.forInt else cc.forFloat
  | .vCvt _ dt st _ _ _ => dt.cvtPair st
  | .vCvte _ ty h16 _ _ _ _ _ => (ty == .s36 || ty == .f32) && h16.isH16
  | .vScale _ ty _ _ _ _ _ => ty.isFloat
  | .vCvtx _ ty _ _ _ _ _ => !ty.isH16 && ty != .x72
  | .vNarrow _ ty _ _ _ _ _ _ _ _ => ty.isFloat
  | .vRot _ ty _ _ _ _ _ rnd => ty.isFloat && rnd != .sr
  | .vGather _ _ l _ _ _ | .vScatter _ _ l _ _ _ => l.tile != 6
  | .vBset _ ty _ _ _ _ | .vBtest _ ty _ _ _ _ => ty == .s36 || ty == .s16
  | .vRndfill _ ty _ _ _ => ty == .s36 || ty == .f32 || ty == .f64
  | .vMcount _ _ _ cc _ => cc.forInt
  | .lTile _ _ _ _ _ _ land | .lHalo _ _ _ _ _ _ land | .lNarrow _ _ _ _ _ _ land | .lGather _ _ _ _ _ land
  | .lRow _ _ _ _ _ _ _ land | .lRing _ _ _ _ _ land => land != 0
  | .lCsr _ _ q _ _ _ land => land != 0 && q != 31
  | .wTile _ _ _ _ _ land | .wAcc _ _ _ _ _ _ land | .wFilt _ _ _ _ _ _ land | .wRow _ _ _ _ _ _ _ land => land != 0
  | .wAmo _ _ op ty _ _ _ _ c => (op.forFloat || ty == .s32 || ty == .s64) && (op == .cas || c == 0)
  | .xSend _ _ _ _ land | .xFwd _ _ _ land => land != 0
  | .xAlign _ path _ => path.isTorus
  | .gStep _ _ _ ls => ls != 0
  | .gFork _ e c => e != c
  | .thermalPoll core base => core.length == 96 && base.length == 48
  | .hbmTempRead codes => codes.length == 12 && codes.all (· ≤ 2)
  | .registerWrite _ off _ => off % 8 == 0
  | .hostApertureWrite _ _ data _ | .hostAbWrite _ _ data _ => !data.isEmpty
  | .getsensorreading id => id < 256
  | .linkBeatDelivery | .resultLand => true
  | .landingBufferArrival _ b => b.data.length ≤ 256
  | _ => true

/-- Well-formedness as a proposition. -/
abbrev Instr.WellFormed (i : Instr) : Prop := i.wf = true

end Sys2Proof
end

