-- ==== Sys2Proof/Decode.lean ====
section
/-! DEFINITION. The decoder and the encoder of the 64-bit instruction words: the frame (R49), the body formats (R54 to
R62), the enumerated fields (R51 to R56, R60) and the opcode map (R65). A word that no row of the map gives, or that
holds a reserved value or a non-zero zero field, decodes to nothing: it is an unassigned encoding, code 0x01 (R50). -/

namespace Sys2Proof

/-! ### Fields -/

/-- The fields of `w` of the given widths, least significant first. -/
def unpack : List Nat → Nat → List Nat
  | [], _ => []
  | n :: ns, w => w % 2 ^ n :: unpack ns (w / 2 ^ n)

/-- The number whose fields, least significant first, are the given (width, value) pairs. -/
def pack : List (Nat × Nat) → Nat
  | [] => 0
  | (n, v) :: fs => v % 2 ^ n + 2 ^ n * pack fs

/-- A one-bit field. -/
def bit (x : Nat) : Bool := x == 1

/-! ### Enumerated fields: codes and their inverses -/

def Eng.code : Eng → Nat
  | .S => 0 | .Y => 1 | .M => 2 | .V => 3 | .L => 4 | .W => 5 | .X => 6 | .G => 7
/-- R13: the engine of a 3-bit code. -/
def Eng.ofCode : Nat → Option Eng
  | 0 => some .S | 1 => some .Y | 2 => some .M | 3 => some .V
  | 4 => some .L | 5 => some .W | 6 => some .X | 7 => some .G | _ => none

def VTy.code : VTy → Nat
  | .s36 => 0 | .f32 => 1 | .x72 => 2 | .f64 => 3 | .s64 => 4 | .bf16 => 5 | .f16 => 6 | .s16 => 7
/-- R52. -/
def VTy.ofCode : Nat → Option VTy
  | 0 => some .s36 | 1 => some .f32 | 2 => some .x72 | 3 => some .f64
  | 4 => some .s64 | 5 => some .bf16 | 6 => some .f16 | 7 => some .s16 | _ => none

def Dir.code : Dir → Nat
  | .r => 0 | .c => 1 | .d => 2 | .a => 3
/-- R23. -/
def Dir.ofCode : Nat → Option Dir
  | 0 => some .r | 1 => some .c | 2 => some .d | 3 => some .a | _ => none

def Cc.code : Cc → Nat
  | .eq => 0 | .ne => 1 | .lt => 2 | .ge => 3 | .ltu => 4 | .geu => 5 | .uo => 6
/-- R56; 7 is reserved. -/
def Cc.ofCode : Nat → Option Cc
  | 0 => some .eq | 1 => some .ne | 2 => some .lt | 3 => some .ge | 4 => some .ltu | 5 => some .geu | 6 => some .uo
  | _ => none

def NFmt.code : NFmt → Nat
  | .s9 => 0 | .s5 => 1 | .e4m3 => 2 | .e5m2 => 3 | .e2m1 => 4
/-- R53; 5 to 15 are reserved. -/
def NFmt.ofCode : Nat → Option NFmt
  | 0 => some .s9 | 1 => some .s5 | 2 => some .e4m3 | 3 => some .e5m2 | 4 => some .e2m1 | _ => none

def Rnd.code : Rnd → Nat
  | .rne => 0 | .rtz => 1 | .rup => 2 | .rdn => 3 | .rmm => 4 | .sr => 5 | .dyn => 7
/-- R53; 6 is reserved. -/
def Rnd.ofCode : Nat → Option Rnd
  | 0 => some .rne | 1 => some .rtz | 2 => some .rup | 3 => some .rdn | 4 => some .rmm | 5 => some .sr | 7 => some .dyn
  | _ => none

def Blk.code : Blk → Nat
  | .b16 => 0 | .b64 => 1 | .b256 => 2
/-- R30, R58; 3 is reserved. -/
def Blk.ofCode : Nat → Option Blk
  | 0 => some .b16 | 1 => some .b64 | 2 => some .b256 | _ => none

def CtlReg.code : CtlReg → Nat
  | .fflags => 0 | .ftrap => 1 | .round => 2 | .mode => 3 | .cadence => 4 | .shape => 5 | .core => 6 | .tick => 7
  | .phase => 8 | .inflect => 9 | .size => 10 | .sel => 11
/-- R55; 12 to 31 are reserved. -/
def CtlReg.ofCode : Nat → Option CtlReg
  | 0 => some .fflags | 1 => some .ftrap | 2 => some .round | 3 => some .mode | 4 => some .cadence | 5 => some .shape
  | 6 => some .core | 7 => some .tick | 8 => some .phase | 9 => some .inflect | 10 => some .size | 11 => some .sel
  | _ => none

def AField.code : AField → Nat
  | .base => 0 | .off => 1 | .stride => 2 | .wrap => 3
/-- R122. -/
def AField.ofCode : Nat → Option AField
  | 0 => some .base | 1 => some .off | 2 => some .stride | 3 => some .wrap | _ => none

def Sz.code : Sz → Nat
  | .b => 0 | .h => 1 | .w => 2 | .d => 3
/-- R54. -/
def Sz.ofCode : Nat → Option Sz
  | 0 => some .b | 1 => some .h | 2 => some .w | 3 => some .d | _ => none

def WrMode.code : WrMode → Nat
  | .write => 0 | .set => 1 | .clr => 2
/-- R122; 3 is reserved. -/
def WrMode.ofCode : Nat → Option WrMode
  | 0 => some .write | 1 => some .set | 2 => some .clr | _ => none

/-- The n field of `s.rdctl` (R122). -/
def RdSrc.n : RdSrc → Nat
  | .ctl r => r.code
  | .lc n => n
/-- The f field of `s.rdctl` (R122): 1 for a loop counter. -/
def RdSrc.f : RdSrc → Nat
  | .ctl _ => 0
  | .lc _ => 1
/-- R122: f 0 reads a control register, f 1 one of lc0 to lc3. -/
def RdSrc.ofFields (n f : Nat) : Option RdSrc :=
  match f with
  | 0 => (CtlReg.ofCode n).map .ctl
  | 1 => if n < 4 then some (.lc (Fin.ofNat 4 n)) else none
  | _ => none

def Drain.code : Drain → Nat
  | .s36 => 0 | .x72 => 1 | .f32 => 2 | .nd => 3
/-- R59. -/
def Drain.ofCode : Nat → Option Drain
  | 0 => some .s36 | 1 => some .x72 | 2 => some .f32 | 3 => some .nd | _ => none

def Scope.code : Scope → Nat
  | .core => 0 | .part => 1 | .dev => 2 | .sys => 3
/-- R60. -/
def Scope.ofCode : Nat → Option Scope
  | 0 => some .core | 1 => some .part | 2 => some .dev | 3 => some .sys | _ => none

def Perm.code : Perm → Nat
  | .rev => 0 | .xor _ => 1 | .zip => 2 | .unzip => 3
/-- The s field of `v.perm` (R194): used by `.xor` alone. -/
def Perm.sreg : Perm → Nat
  | .xor s => s
  | _ => 0
/-- R194; codes from 4 up are reserved. -/
def Perm.ofFields (c s : Nat) : Option Perm :=
  match c, s with
  | 0, 0 => some .rev
  | 1, s => some (.xor (Fin.ofNat 32 s))
  | 2, 0 => some .zip
  | 3, 0 => some .unzip
  | _, _ => none

def Pad.code : Pad → Nat
  | .zero => 0 | .const => 1 | .edge => 2
/-- R208. -/
def Pad.ofCode : Nat → Option Pad
  | 0 => some .zero | 1 => some .const | 2 => some .edge | _ => none

def AccOp.code : AccOp → Nat
  | .addS32 => 0 | .addS64 => 1 | .addF32 => 2 | .addF64 => 3 | .maxF32 => 4 | .minF32 => 5 | .maxS32 => 6 | .minS32 => 7
/-- R218. -/
def AccOp.ofCode : Nat → Option AccOp
  | 0 => some .addS32 | 1 => some .addS64 | 2 => some .addF32 | 3 => some .addF64
  | 4 => some .maxF32 | 5 => some .minF32 | 6 => some .maxS32 | 7 => some .minS32 | _ => none

def AmoOp.code : AmoOp → Nat
  | .add => 0 | .min => 1 | .max => 2 | .and => 3 | .or => 4 | .xor => 5 | .swap => 6 | .cas => 7
/-- R219. -/
def AmoOp.ofCode : Nat → Option AmoOp
  | 0 => some .add | 1 => some .min | 2 => some .max | 3 => some .and
  | 4 => some .or | 5 => some .xor | 6 => some .swap | 7 => some .cas | _ => none

def AmoTy.code : AmoTy → Nat
  | .s32 => 0 | .s64 => 1 | .f32 => 2 | .f64 => 3
/-- R60. -/
def AmoTy.ofCode : Nat → Option AmoTy
  | 0 => some .s32 | 1 => some .s64 | 2 => some .f32 | 3 => some .f64 | _ => none

def SigOp.code : SigOp → Nat
  | .set => 0 | .add => 1 | .or => 2 | .max => 3
/-- R220, R223. -/
def SigOp.ofCode : Nat → Option SigOp
  | 0 => some .set | 1 => some .add | 2 => some .or | 3 => some .max | _ => none

def Path.code : Path → Nat
  | .mesh => 0 | .die => 1 | .px => 2 | .nx => 3 | .py => 4 | .ny => 5 | .pz => 6 | .nz => 7
/-- R222: timetabled paths. -/
def Path.ofCode : Nat → Option Path
  | 0 => some .mesh | 1 => some .die | 2 => some .px | 3 => some .nx
  | 4 => some .py | 5 => some .ny | 6 => some .pz | 7 => some .nz | _ => none

def RedOp.code : RedOp → Nat
  | .addF32 => 0 | .addF64 => 1 | .addS32 => 2 | .addS64 => 3 | .maxF32 => 4 | .minF32 => 5 | .addBf16 => 6
/-- R226; 7 is reserved. -/
def RedOp.ofCode : Nat → Option RedOp
  | 0 => some .addF32 | 1 => some .addF64 | 2 => some .addS32 | 3 => some .addS64
  | 4 => some .maxF32 | 5 => some .minF32 | 6 => some .addBf16 | _ => none

/-- The 4-bit token field (R40): bit 45 of the word is its most significant bit. -/
def Tok.code (t : Tok) : Nat := t.push2.toNat + 2 * t.push1.toNat + 4 * t.pop2.toNat + 8 * t.pop1.toNat
/-- R40. -/
def Tok.ofCode (n : Nat) : Tok := ⟨n.testBit 3, n.testBit 2, n.testBit 1, n.testBit 0⟩

/-- The 8-bit index field of a line operand (R51). -/
def LineIx.code : LineIx → Nat
  | .imm i => i
  | .reg a post => a + 16 * post.toNat
/-- The ind bit of a line operand (R51). -/
def LineIx.ind : LineIx → Nat
  | .imm _ => 0
  | .reg _ _ => 1
/-- R51: with ind 1, bits 3:0 name the address register, bit 4 is post-increment and bits 7:5 are zero. -/
def LineIx.ofFields (ind index : Nat) : Option LineIx :=
  match ind with
  | 0 => some (.imm (Fin.ofNat 256 index))
  | _ =>
    match unpack [4, 1, 3] index with
    | [a, post, 0] => some (.reg (Fin.ofNat 16 a) (bit post))
    | _ => none

/-- The 14-bit field of a line operand (R51). -/
def Line.code (l : Line) : Nat := pack [(1, l.ix.ind), (8, l.ix.code), (2, l.dir.code), (3, l.tile)]
/-- R51; tile 7 is reserved. -/
def Line.ofCode (w : Nat) : Option Line :=
  match unpack [1, 8, 2, 3] w with
  | [ind, index, dir, tile] => do
    let ix ← LineIx.ofFields ind index
    let d ← Dir.ofCode dir
    if tile < 7 then some ⟨Fin.ofNat 7 tile, d, ix⟩ else none
  | _ => none

/-- A buffer address field pair a, pi (R69). -/
def bufAddr (a pi : Nat) : BufAddr := ⟨Fin.ofNat 16 a, bit pi⟩

/-- The fields of an instruction that has no buffer address operand. -/
def BufAddr.none : BufAddr := ⟨0, false⟩

/-- The vm and mk fields of a masked vector word (R58). -/
def maskVm : Option (Fin 8) → Nat
  | .none => 0
  | some v => v
/-- R58: mk. -/
def maskMk : Option (Fin 8) → Nat
  | .none => 0
  | some _ => 1
/-- R58: when mk is 0, vm must be zero. -/
def maskOf (mk vm : Nat) : Option (Option (Fin 8)) :=
  match mk, vm with
  | 0, 0 => some none
  | 0, _ => none
  | _, v => some (some (Fin.ofNat 8 v))

/-! ### Words and bodies, written -/

/-- The frame of R49 around a body. -/
def wordOf (e : Eng) (op : Nat) (w p : Fin 16) (body : Nat) : Nat :=
  pack [(46, body), (4, p), (7, op), (4, w), (3, e.code)]

def nopBody (idle : Fin 1048576) : Nat := pack [(26, 0), (20, idle)]
def tokNopBody (tok : Tok) (idle : Fin 1048576) : Nat := pack [(22, 0), (20, idle), (4, tok.code)]
def srBody (d a b : Fin 32) : Nat := pack [(31, 0), (5, b), (5, a), (5, d)]
def siBody (d a : Fin 32) (imm : Nat) : Nat := pack [(36, imm), (5, a), (5, d)]
def slBody (d : Fin 32) (imm : BitVec 32) : Nat := pack [(9, 0), (32, imm.toNat), (5, d)]
def spBody (pd : Fin 16) (cc : Cc) (a b : Fin 32) (imm : Nat) : Nat :=
  pack [(29, imm), (5, b), (5, a), (3, cc.code), (4, pd)]
def sqBody (pd pa pb : Fin 16) : Nat := pack [(34, 0), (4, pb), (4, pa), (4, pd)]
def smBody (d : Fin 32) (a : Nat) (off : BitVec 20) (sz : Sz) (sx : Bool) (land : Fin 8192) : Nat :=
  pack [(13, land), (1, sx.toNat), (2, sz.code), (20, off.toNat), (5, a), (5, d)]
def loopBody (depth : Fin 4) (trip : Trip) (words : Fin 32768) : Nat :=
  match trip with
  | .imm n => pack [(8, 0), (1, 0), (15, words), (20, n), (2, depth)]
  | .const i => pack [(8, 0), (1, 1), (15, words), (20, i), (2, depth)]
def scBody (d a : Fin 32) (n f : Nat) : Nat := pack [(29, 0), (2, f), (5, n), (5, a), (5, d)]
def yaBody (n : Nat) (a b : Fin 32) (imm f : Nat) : Nat := pack [(6, f), (24, imm), (5, b), (5, a), (6, n)]
def mBody (tok : Tok) (qa qb l rows mode f : Nat) : Nat :=
  pack [(8, f), (2, mode), (8, rows), (14, l), (5, qb), (5, qa), (4, tok.code)]
def vaBody (ty : VTy) (d a b : Line) : Nat := pack [(1, 0), (14, b.code), (14, a.code), (14, d.code), (3, ty.code)]
def vbBody (ty d a s : Nat) (mk : Option (Fin 8)) (imm : Nat) : Nat :=
  pack [(6, imm), (1, maskMk mk), (3, maskVm mk), (5, s), (14, a), (14, d), (3, ty)]
def vcBody (ty : VTy) (l : Line) (q fmt k blk axis inv rnd : Nat) (mk : Option (Fin 8)) : Nat :=
  pack [(5, 0), (1, maskMk mk), (3, maskVm mk), (3, rnd), (1, inv), (2, axis), (2, blk), (3, k), (4, fmt), (5, q),
    (14, l.code), (3, ty.code)]
def vdBody (ty : VTy) (l : Line) (x : BufAddr) (off : BitVec 16) (mk : Option (Fin 8)) : Nat :=
  pack [(4, 0), (1, maskMk mk), (3, maskVm mk), (16, off.toNat), (1, x.post.toNat), (4, x.a), (14, l.code),
    (3, ty.code)]
def vmBody (d a : Fin 8) (b : Nat) (s : Fin 32) : Nat := pack [(32, 0), (5, s), (3, b), (3, a), (3, d)]
def lwBody (tok : Tok) (k : Nat) (x : BufAddr) (s : Fin 32) (q : Nat) (desc : Fin 2048) (land : Fin 8192) : Nat :=
  pack [(13, land), (11, desc), (5, q), (5, s), (1, x.post.toNat), (4, x.a), (3, k), (4, tok.code)]
def waBody (tok : Tok) (op ty : Nat) (sc : Scope) (rel : Bool) (s v c : Fin 32) : Nat :=
  pack [(13, 0), (5, 0), (5, c), (5, v), (5, s), (1, rel.toNat), (2, sc.code), (2, ty), (4, op), (4, tok.code)]
def xBody (q s : Fin 32) (path : Nat) (x : BufAddr) (desc : Fin 2048) (land : Fin 8192) (op : Nat) : Nat :=
  pack [(3, op), (13, land), (11, desc), (1, x.post.toNat), (4, x.a), (4, path), (5, s), (5, q)]
def gBody (c e : Fin 64) (s : Fin 32) (x : BufAddr) (imm : Nat) : Nat :=
  pack [(24, imm), (1, x.post.toNat), (4, x.a), (5, s), (6, e), (6, c)]

/-! ### Bodies, read: engine S -/

/-- Format N of engines S, Y, V, X and G (R62): the predicate is zero. -/
def decNop (mk : Fin 16 → Fin 1048576 → Instr) (w p : Fin 16) (b : Nat) : Option Instr :=
  match p.val, unpack [26, 20] b with
  | 0, [0, idle] => some (mk w (Fin.ofNat 1048576 idle))
  | _, _ => none

/-- Format SR (R54). -/
def decSR (mk : Frame → Fin 32 → Fin 32 → Fin 32 → Instr) (fr : Frame) (b : Nat) : Option Instr :=
  match unpack [31, 5, 5, 5] b with
  | [0, rb, ra, rd] => some (mk fr (Fin.ofNat 32 rd) (Fin.ofNat 32 ra) (Fin.ofNat 32 rb))
  | _ => none

/-- Format SR with one source: b is zero. -/
def decSU (mk : Frame → Fin 32 → Fin 32 → Instr) (fr : Frame) (b : Nat) : Option Instr :=
  match unpack [31, 5, 5, 5] b with
  | [0, 0, ra, rd] => some (mk fr (Fin.ofNat 32 rd) (Fin.ofNat 32 ra))
  | _ => none

/-- Format SI (R54). -/
def decSI (mk : Frame → Fin 32 → Fin 32 → BitVec 36 → Instr) (fr : Frame) (b : Nat) : Option Instr :=
  match unpack [36, 5, 5] b with
  | [imm, ra, rd] => some (mk fr (Fin.ofNat 32 rd) (Fin.ofNat 32 ra) (BitVec.ofNat 36 imm))
  | _ => none

/-- Format SI of a shift: the immediate is a count 0 to 63 (R110). -/
def decSH (mk : Frame → Fin 32 → Fin 32 → Fin 64 → Instr) (fr : Frame) (b : Nat) : Option Instr :=
  match unpack [6, 30, 5, 5] b with
  | [imm, 0, ra, rd] => some (mk fr (Fin.ofNat 32 rd) (Fin.ofNat 32 ra) (Fin.ofNat 64 imm))
  | _ => none

/-- Format SL (R54). -/
def decSL (mk : Frame → Fin 32 → BitVec 32 → Instr) (fr : Frame) (b : Nat) : Option Instr :=
  match unpack [9, 32, 5] b with
  | [0, imm, rd] => some (mk fr (Fin.ofNat 32 rd) (BitVec.ofNat 32 imm))
  | _ => none

/-- Format SP, register form: imm is zero (R54). -/
def decSP (mk : Frame → Fin 16 → Cc → Fin 32 → Fin 32 → Instr) (fr : Frame) (b : Nat) : Option Instr :=
  match unpack [29, 5, 5, 3, 4] b with
  | [0, rb, ra, cc, pd] =>
    (Cc.ofCode cc).map fun cc => mk fr (Fin.ofNat 16 pd) cc (Fin.ofNat 32 ra) (Fin.ofNat 32 rb)
  | _ => none

/-- Format SP, immediate form: b is zero (R54). -/
def decSPI (fr : Frame) (b : Nat) : Option Instr :=
  match unpack [29, 5, 5, 3, 4] b with
  | [imm, 0, ra, cc, pd] =>
    (Cc.ofCode cc).map fun cc => .sCmpi fr (Fin.ofNat 16 pd) cc (Fin.ofNat 32 ra) (BitVec.ofNat 29 imm)
  | _ => none

/-- Format SQ (R54). -/
def decSQ (mk : Frame → Fin 16 → Fin 16 → Fin 16 → Instr) (fr : Frame) (b : Nat) : Option Instr :=
  match unpack [34, 4, 4, 4] b with
  | [0, pb, pa, pd] => some (mk fr (Fin.ofNat 16 pd) (Fin.ofNat 16 pa) (Fin.ofNat 16 pb))
  | _ => none

/-- Format SQ with one source. -/
def decSQ1 (fr : Frame) (b : Nat) : Option Instr :=
  match unpack [34, 4, 4, 4] b with
  | [0, 0, pa, pd] => some (.sPnot fr (Fin.ofNat 16 pd) (Fin.ofNat 16 pa))
  | _ => none

/-- `s.ld` (R116): format SM, the a field an address register, land zero. -/
def decLd (fr : Frame) (b : Nat) : Option Instr :=
  match unpack [13, 1, 2, 20, 5, 5] b with
  | [0, x, sz, off, a, d] =>
    if a < 16 then
      (Sz.ofCode sz).map fun sz => .sLd fr (Fin.ofNat 32 d) (Fin.ofNat 16 a) (BitVec.ofNat 20 off) sz (bit x)
    else none
  | _ => none

/-- `s.st` (R116): x and land zero. -/
def decSt (fr : Frame) (b : Nat) : Option Instr :=
  match unpack [13, 1, 2, 20, 5, 5] b with
  | [0, 0, sz, off, a, d] =>
    if a < 16 then
      (Sz.ofCode sz).map fun sz => .sSt fr (Fin.ofNat 32 d) (Fin.ofNat 16 a) (BitVec.ofNat 20 off) sz
    else none
  | _ => none

/-- `s.ldm` (R117). -/
def decLdm (fr : Frame) (b : Nat) : Option Instr :=
  match unpack [13, 1, 2, 20, 5, 5] b with
  | [land, x, sz, off, a, d] =>
    (Sz.ofCode sz).map fun sz =>
      .sLdm fr (Fin.ofNat 32 d) (Fin.ofNat 32 a) (BitVec.ofNat 20 off) sz (bit x) (Fin.ofNat 8192 land)
  | _ => none

/-- `s.stm` (R117): x zero. -/
def decStm (fr : Frame) (b : Nat) : Option Instr :=
  match unpack [13, 1, 2, 20, 5, 5] b with
  | [land, 0, sz, off, a, d] =>
    (Sz.ofCode sz).map fun sz =>
      .sStm fr (Fin.ofNat 32 d) (Fin.ofNat 32 a) (BitVec.ofNat 20 off) sz (Fin.ofNat 8192 land)
  | _ => none

/-- Format SLP (R54); with c set, trip<19:6> is zero. -/
def decLoop (w p : Fin 16) (b : Nat) : Option Instr :=
  match p.val, unpack [8, 1, 15, 20, 2] b with
  | 0, [0, 0, words, trip, depth] =>
    some (.sLoop w (Fin.ofNat 4 depth) (.imm (Fin.ofNat 1048576 trip)) (Fin.ofNat 32768 words))
  | 0, [0, 1, words, trip, depth] =>
    if trip < 64 then some (.sLoop w (Fin.ofNat 4 depth) (.const (Fin.ofNat 64 trip)) (Fin.ofNat 32768 words))
    else none
  | _, _ => none

/-- Format SC (R54): d, a, n and f; 28:0 zero. -/
def scFields (b : Nat) : Option (Nat × Nat × Nat × Nat) :=
  match unpack [29, 2, 5, 5, 5] b with
  | [0, f, n, a, d] => some (d, a, n, f)
  | _ => none

def decRdctl (fr : Frame) (b : Nat) : Option Instr :=
  match scFields b with
  | some (d, 0, n, f) => (RdSrc.ofFields n f).map fun s => .sRdctl fr (Fin.ofNat 32 d) s
  | _ => none

def decWrctl (fr : Frame) (b : Nat) : Option Instr :=
  match scFields b with
  | some (0, a, n, f) => do
    let r ← CtlReg.ofCode n
    let m ← WrMode.ofCode f
    some (.sWrctl fr r m (Fin.ofNat 32 a))
  | _ => none

def decRda (fr : Frame) (b : Nat) : Option Instr :=
  match scFields b with
  | some (d, 0, n, f) =>
    if n < 16 then (AField.ofCode f).map fun f => .sRda fr (Fin.ofNat 32 d) (Fin.ofNat 16 n) f else none
  | _ => none

def decWra (fr : Frame) (b : Nat) : Option Instr :=
  match scFields b with
  | some (0, a, n, f) =>
    if n < 16 then (AField.ofCode f).map fun f => .sWra fr (Fin.ofNat 16 n) f (Fin.ofNat 32 a) else none
  | _ => none

def decRdq (fr : Frame) (b : Nat) : Option Instr :=
  match scFields b with
  | some (d, 0, n, f) => if f < 2 then some (.sRdq fr (Fin.ofNat 32 d) (Fin.ofNat 32 n) (bit f)) else none
  | _ => none

def decWrq (fr : Frame) (b : Nat) : Option Instr :=
  match scFields b with
  | some (0, a, n, f) => if f < 2 then some (.sWrq fr (Fin.ofNat 32 n) (bit f) (Fin.ofNat 32 a)) else none
  | _ => none

def decRdk (fr : Frame) (b : Nat) : Option Instr :=
  match scFields b with
  | some (d, 0, n, f) =>
    if n < 8 then if f < 2 then some (.sRdk fr (Fin.ofNat 32 d) (Fin.ofNat 8 n) (bit f)) else none else none
  | _ => none

def decWrk (fr : Frame) (b : Nat) : Option Instr :=
  match scFields b with
  | some (0, a, n, 0) => if n < 8 then some (.sWrk fr (Fin.ofNat 8 n) (Fin.ofNat 32 a)) else none
  | _ => none

def decRnd (fr : Frame) (b : Nat) : Option Instr :=
  match scFields b with
  | some (d, 0, n, f) => if f < 2 then some (.sRnd fr (Fin.ofNat 32 d) (Fin.ofNat 32 n) (bit f)) else none
  | _ => none

/-! ### Engine Y: format YA (R57) -/

/-- Format YA: n, a, b, imm and f. -/
def yaFields (b : Nat) : Option (Nat × Nat × Nat × Nat × Nat) :=
  match unpack [6, 24, 5, 5, 6] b with
  | [f, imm, rb, ra, n] => some (n, ra, rb, imm, f)
  | _ => none

/-- `y.rdv` (R127): every field zero, the predicate too. -/
def decRdv (w p : Fin 16) (b : Nat) : Option Instr :=
  match p.val, b with
  | 0, 0 => some (.yRdv w)
  | _, _ => none

/-- A semaphore number and a 16-bit value. -/
def decSemV (mk : Frame → Fin 32 → BitVec 16 → Instr) (fr : Frame) (b : Nat) : Option Instr :=
  match yaFields b with
  | some (n, 0, 0, imm, 0) =>
    if n < 32 then if imm < 65536 then some (mk fr (Fin.ofNat 32 n) (BitVec.ofNat 16 imm)) else none else none
  | _ => none

def decSemclr (fr : Frame) (b : Nat) : Option Instr :=
  match yaFields b with
  | some (0, a, 0, 0, 0) => some (.ySemclr fr (Fin.ofNat 32 a))
  | _ => none

/-- A FIFO 0 to 5 and a count 1 to 8 (R126). -/
def decTokOp (mk : Frame → Fin 6 → Fin 9 → Instr) (fr : Frame) (b : Nat) : Option Instr :=
  match yaFields b with
  | some (n, 0, 0, 0, f) =>
    if n < 6 then if f < 9 then some (mk fr (Fin.ofNat 6 n) (Fin.ofNat 9 f)) else none else none
  | _ => none

def decGate (fr : Frame) (b : Nat) : Option Instr :=
  match yaFields b with
  | some (n, 0, 0, 0, 0) => some (.yGate fr (Fin.ofNat 64 n) none)
  | some (n, a, 0, 0, 1) => some (.yGate fr (Fin.ofNat 64 n) (some (Fin.ofNat 32 a)))
  | _ => none

def decGateclr (fr : Frame) (b : Nat) : Option Instr :=
  match yaFields b with
  | some (n, 0, 0, 0, 0) => some (.yGateclr fr (.signal (Fin.ofNat 64 n)))
  | some (n, 0, 0, 0, 1) => if n < 32 then some (.yGateclr fr (.sem (Fin.ofNat 32 n))) else none
  | some (0, 0, 0, 0, 2) => some (.yGateclr fr .all)
  | _ => none

def decFence (w p : Fin 16) (b : Nat) : Option Instr :=
  match p.val, yaFields b with
  | 0, some (0, 0, 0, 0, f) => (Scope.ofCode f).map fun sc => .yFence w sc
  | _, _ => none

def decExport (fr : Frame) (b : Nat) : Option Instr :=
  match yaFields b with
  | some (0, a, 0, 0, 1) => some (.yExport fr (.size (Fin.ofNat 32 a)))
  | some (0, 0, b, 0, 2) => some (.yExport fr (.sel (Fin.ofNat 32 b)))
  | some (0, a, b, 0, 3) => some (.yExport fr (.both (Fin.ofNat 32 a) (Fin.ofNat 32 b)))
  | _ => none

def decYv (mk : Frame → BitVec 24 → Instr) (fr : Frame) (b : Nat) : Option Instr :=
  match yaFields b with
  | some (0, 0, 0, imm, 0) => some (mk fr (BitVec.ofNat 24 imm))
  | _ => none

/-! ### Engine M: format M (R59) -/

/-- Format N of engines L, M and W (R62). -/
def decTokNop (mk : Fin 16 → Tok → Fin 1048576 → Instr) (w p : Fin 16) (b : Nat) : Option Instr :=
  match p.val, unpack [22, 20, 4] b with
  | 0, [0, idle, tok] => some (mk w (Tok.ofCode tok) (Fin.ofNat 1048576 idle))
  | _, _ => none

/-- The fields of format M. -/
structure MFields where
  tok : Tok
  qa : Nat
  qb : Nat
  l : Nat
  rows : Nat
  mode : Nat
  f : Nat

def mFields (b : Nat) : Option MFields :=
  match unpack [8, 2, 8, 14, 5, 5, 4] b with
  | [f, mode, rows, l, qb, qa, tok] => some ⟨Tok.ofCode tok, qa, qb, l, rows, mode, f⟩
  | _ => none

def decWld (fr : Frame) (b : Nat) : Option Instr :=
  match mFields b with
  | some ⟨tok, qa, qb, 0, 0, 0, f⟩ =>
    if f < 2 then some (.mWld fr tok (Fin.ofNat 32 qa) (Fin.ofNat 32 qb) (bit f)) else none
  | _ => none

def decSwap (fr : Frame) (b : Nat) : Option Instr :=
  match mFields b with
  | some ⟨tok, 0, 0, 0, 0, 0, 0⟩ => some (.mSwap fr tok)
  | _ => none

/-- A mac word: f bit 0 is init and bit 1 peek; bits 7:2 are zero (R137). -/
def decMac (mk : Frame → Tok → Fin 32 → Fin 32 → Line → Fin 256 → Drain → Bool → Bool → Instr) (fr : Frame)
    (b : Nat) : Option Instr :=
  match mFields b with
  | some ⟨tok, qa, qb, l, rows, mode, f⟩ =>
    if f < 4 then do
      let l ← Line.ofCode l
      let dm ← Drain.ofCode mode
      some (mk fr tok (Fin.ofNat 32 qa) (Fin.ofNat 32 qb) l (Fin.ofNat 256 rows) dm (f.testBit 0) (f.testBit 1))
    else none
  | none => none

/-- `m.spmac.s9`: only f bit 0, init, is assigned. -/
def decSpmac (fr : Frame) (b : Nat) : Option Instr :=
  match mFields b with
  | some ⟨tok, qa, qb, l, rows, mode, f⟩ =>
    if f < 2 then do
      let l ← Line.ofCode l
      let dm ← Drain.ofCode mode
      some (.mSpmacS9 fr tok (Fin.ofNat 32 qa) (Fin.ofNat 32 qb) l (Fin.ofNat 256 rows) dm (f.testBit 0))
    else none
  | none => none

/-- A band mask in f bits 3:0. -/
def decMask (mk : Frame → Tok → Fin 16 → Instr) (fr : Frame) (b : Nat) : Option Instr :=
  match mFields b with
  | some ⟨tok, 0, 0, 0, 0, 0, f⟩ => if f < 16 then some (mk fr tok (Fin.ofNat 16 f)) else none
  | _ => none

/-- `m.feed` (R154): f 0 takes L as the index; f 1 names an address register in qa<3:0>, qa<4> post-increments. -/
def decFeed (fr : Frame) (b : Nat) : Option Instr :=
  match mFields b with
  | some ⟨tok, 0, 0, l, 0, 0, 0⟩ => some (.mFeed fr tok (.imm (BitVec.ofNat 14 l)))
  | some ⟨tok, qa, 0, 0, 0, 0, 1⟩ => some (.mFeed fr tok (.reg (Fin.ofNat 16 (qa % 16)) (bit (qa / 16))))
  | _ => none

/-- `m.xbase` (R143): a 10-bit immediate in bits 17:8. -/
def decXbase (fr : Frame) (b : Nat) : Option Instr :=
  match mFields b with
  | some ⟨tok, 0, 0, 0, rows, mode, 0⟩ => some (.mXbase fr tok (BitVec.ofNat 10 (mode + 4 * rows)))
  | _ => none

/-! ### Engine V: formats VA, VB, VC, VD and VM (R58) -/

/-- Format VA. -/
def decVA (mk : Frame → VTy → Line → Line → Line → Instr) (fr : Frame) (b : Nat) : Option Instr :=
  match unpack [1, 14, 14, 14, 3] b with
  | [0, lb, la, ld, ty] => do
    let ty ← VTy.ofCode ty
    let d ← Line.ofCode ld
    let a ← Line.ofCode la
    let b ← Line.ofCode lb
    some (mk fr ty d a b)
  | _ => none

/-- The fields of format VB, lines and type still as codes. -/
structure VBFields where
  ty : Nat
  d : Nat
  a : Nat
  s : Nat
  m : Option (Fin 8)
  imm : Nat

def vbFields (b : Nat) : Option VBFields :=
  match unpack [6, 1, 3, 5, 14, 14, 3] b with
  | [imm, mk, vm, s, a, d, ty] => (maskOf mk vm).map fun m => ⟨ty, d, a, s, m, imm⟩
  | _ => none

/-- VB with one source: s and imm zero. -/
def decVB1 (mk : Frame → VTy → Line → Line → Option (Fin 8) → Instr) (fr : Frame) (b : Nat) : Option Instr :=
  match vbFields b with
  | some ⟨ty, d, a, 0, m, 0⟩ => do
    let ty ← VTy.ofCode ty
    let d ← Line.ofCode d
    let a ← Line.ofCode a
    some (mk fr ty d a m)
  | _ => none

/-- VB of a shift: s and a 6-bit count (R171). -/
def decVBs (mk : Frame → VTy → Line → Line → Fin 32 → Fin 64 → Option (Fin 8) → Instr) (fr : Frame) (b : Nat) :
    Option Instr :=
  match vbFields b with
  | some ⟨ty, d, a, s, m, imm⟩ => do
    let ty ← VTy.ofCode ty
    let d ← Line.ofCode d
    let a ← Line.ofCode a
    some (mk fr ty d a (Fin.ofNat 32 s) (Fin.ofNat 64 imm) m)
  | none => none

/-- VB with s and a 6-bit immediate. -/
def decVBk (mk : Frame → VTy → Line → Line → Fin 32 → BitVec 6 → Option (Fin 8) → Instr) (fr : Frame) (b : Nat) :
    Option Instr :=
  match vbFields b with
  | some ⟨ty, d, a, s, m, imm⟩ => do
    let ty ← VTy.ofCode ty
    let d ← Line.ofCode d
    let a ← Line.ofCode a
    some (mk fr ty d a (Fin.ofNat 32 s) (BitVec.ofNat 6 imm) m)
  | none => none

/-- `v.cmp` (R172): D is the second source, imm<2:0> the condition and imm<5:3> the mask written. -/
def decVcmp (fr : Frame) (b : Nat) : Option Instr :=
  match vbFields b with
  | some ⟨ty, d, a, 0, m, imm⟩ => do
    let ty ← VTy.ofCode ty
    let cc ← Cc.ofCode (imm % 8)
    let b ← Line.ofCode d
    let a ← Line.ofCode a
    some (.vCmp fr ty cc (Fin.ofNat 8 (imm / 8)) a b m)
  | _ => none

/-- `v.sel` (R173): mk is 1 and vm selects; imm zero. -/
def decVsel (fr : Frame) (b : Nat) : Option Instr :=
  match vbFields b with
  | some ⟨ty, d, a, s, some vm, 0⟩ => do
    let ty ← VTy.ofCode ty
    let d ← Line.ofCode d
    let a ← Line.ofCode a
    some (.vSel fr ty d a (Fin.ofNat 32 s) vm)
  | _ => none

/-- `v.cvt` (R174): imm is the source type. -/
def decVcvt (fr : Frame) (b : Nat) : Option Instr :=
  match vbFields b with
  | some ⟨ty, d, a, 0, m, imm⟩ => do
    let dt ← VTy.ofCode ty
    let st ← VTy.ofCode imm
    let d ← Line.ofCode d
    let a ← Line.ofCode a
    some (.vCvt fr dt st d a m)
  | _ => none

/-- `v.cvte` (R175): imm<2:0> the H16 type, imm<3> the direction, imm<4> the half, imm<5> zero. -/
def decVcvte (fr : Frame) (b : Nat) : Option Instr :=
  match vbFields b with
  | some ⟨ty, d, a, 0, m, imm⟩ =>
    match unpack [3, 1, 1, 1] imm with
    | [h, dirn, half, 0] => do
      let ty ← VTy.ofCode ty
      let h16 ← VTy.ofCode h
      let d ← Line.ofCode d
      let a ← Line.ofCode a
      some (.vCvte fr ty h16 (bit dirn) (bit half) d a m)
    | _ => none
  | _ => none

/-- `v.slice.f64` (R177): type F64, D zero, unmasked, imm<4:0> the ring. -/
def decVslice (fr : Frame) (b : Nat) : Option Instr :=
  match vbFields b with
  | some ⟨3, 0, a, s, none, imm⟩ =>
    if imm < 32 then (Line.ofCode a).map fun a => .vSliceF64 fr (Fin.ofNat 32 imm) a (Fin.ofNat 32 s) else none
  | _ => none

/-- `v.cvtx` (R176): imm<0> the direction. -/
def decVcvtx (fr : Frame) (b : Nat) : Option Instr :=
  match vbFields b with
  | some ⟨ty, d, a, s, m, imm⟩ =>
    if imm < 2 then do
      let ty ← VTy.ofCode ty
      let d ← Line.ofCode d
      let a ← Line.ofCode a
      some (.vCvtx fr ty (bit imm) d a (Fin.ofNat 32 s) m)
    else none
  | none => none

/-- VB special functions: type F32, s and imm zero (R184). -/
def decVsp (mk : Frame → Line → Line → Option (Fin 8) → Instr) (fr : Frame) (b : Nat) : Option Instr :=
  match vbFields b with
  | some ⟨1, d, a, 0, m, 0⟩ => do
    let d ← Line.ofCode d
    let a ← Line.ofCode a
    some (mk fr d a m)
  | _ => none

def decVperm (fr : Frame) (b : Nat) : Option Instr :=
  match vbFields b with
  | some ⟨ty, d, a, s, m, imm⟩ => do
    let ty ← VTy.ofCode ty
    let p ← Perm.ofFields imm s
    let d ← Line.ofCode d
    let a ← Line.ofCode a
    some (.vPerm fr ty p d a m)
  | none => none

/-- `v.match` (R196): imm<3:0> the predicate pE, imm<4> partial; type S16. -/
def decVmatch (fr : Frame) (b : Nat) : Option Instr :=
  match vbFields b with
  | some ⟨7, d, a, s, m, imm⟩ =>
    match unpack [4, 1, 1] imm with
    | [pe, part, 0] => do
      let d ← Line.ofCode d
      let a ← Line.ofCode a
      some (.vMatch fr (Fin.ofNat 16 pe) (bit part) d a (Fin.ofNat 32 s) m)
    | _ => none
  | _ => none

def decVrnd (fr : Frame) (b : Nat) : Option Instr :=
  match vbFields b with
  | some ⟨ty, d, 0, 0, m, imm⟩ =>
    if imm < 32 then do
      let ty ← VTy.ofCode ty
      let d ← Line.ofCode d
      some (.vRndfill fr ty d (Fin.ofNat 32 imm) m)
    else none
  | _ => none

/-- Reductions and scans: imm<3:0> is the group code (R198). -/
def decVred (mk : Frame → VTy → Line → Line → Fin 16 → Option (Fin 8) → Instr) (fr : Frame) (b : Nat) : Option Instr :=
  match vbFields b with
  | some ⟨ty, d, a, 0, m, imm⟩ =>
    if imm < 16 then do
      let ty ← VTy.ofCode ty
      let d ← Line.ofCode d
      let a ← Line.ofCode a
      some (mk fr ty d a (Fin.ofNat 16 imm) m)
    else none
  | _ => none

/-- The fields of format VC. -/
structure VCFields where
  ty : VTy
  l : Line
  q : Nat
  fmt : Nat
  k : Nat
  blk : Nat
  axis : Nat
  inv : Nat
  rnd : Nat
  m : Option (Fin 8)

def vcFields (b : Nat) : Option VCFields :=
  match unpack [5, 1, 3, 3, 1, 2, 2, 3, 4, 5, 14, 3] b with
  | [0, mk, vm, rnd, inv, axis, blk, k, fmt, q, l, ty] => do
    let ty ← VTy.ofCode ty
    let l ← Line.ofCode l
    let m ← maskOf mk vm
    some ⟨ty, l, q, fmt, k, blk, axis, inv, rnd, m⟩
  | _ => none

def decVnarrow (fr : Frame) (b : Nat) : Option Instr :=
  match vcFields b with
  | some ⟨ty, l, q, fmt, k, blk, axis, 0, rnd, m⟩ =>
    if axis < 2 then do
      let fmt ← NFmt.ofCode fmt
      let blk ← Blk.ofCode blk
      let rnd ← Rnd.ofCode rnd
      some (.vNarrow fr ty l (Fin.ofNat 32 q) fmt (Fin.ofNat 8 k) blk (bit axis) rnd m)
    else none
  | _ => none

/-- `v.rot` (R182): fmt 1 names a tag ring in q; axis zero, unmasked. -/
def decVrot (fr : Frame) (b : Nat) : Option Instr :=
  match vcFields b with
  | some ⟨ty, l, 0, 0, k, blk, 0, inv, rnd, none⟩ => do
    let blk ← Blk.ofCode blk
    let rnd ← Rnd.ofCode rnd
    some (.vRot fr ty l none (Fin.ofNat 8 k) blk (bit inv) rnd)
  | some ⟨ty, l, q, 1, k, blk, 0, inv, rnd, none⟩ => do
    let blk ← Blk.ofCode blk
    let rnd ← Rnd.ofCode rnd
    some (.vRot fr ty l (some (Fin.ofNat 32 q)) (Fin.ofNat 8 k) blk (bit inv) rnd)
  | _ => none

def decVring (mk : Frame → VTy → Line → Fin 32 → Option (Fin 8) → Instr) (fr : Frame) (b : Nat) : Option Instr :=
  match vcFields b with
  | some ⟨ty, l, q, 0, 0, 0, 0, 0, 0, m⟩ => some (mk fr ty l (Fin.ofNat 32 q) m)
  | _ => none

/-- Format VD. -/
def decVD (mk : Frame → VTy → Line → BufAddr → BitVec 16 → Option (Fin 8) → Instr) (fr : Frame) (b : Nat) :
    Option Instr :=
  match unpack [4, 1, 3, 16, 1, 4, 14, 3] b with
  | [0, mk', vm, off, pi, a, l, ty] => do
    let ty ← VTy.ofCode ty
    let l ← Line.ofCode l
    let m ← maskOf mk' vm
    some (mk fr ty l (bufAddr a pi) (BitVec.ofNat 16 off) m)
  | _ => none

/-- Format VM: md, ma, mb, s; 31:0 zero. -/
def vmFields (b : Nat) : Option (Nat × Nat × Nat × Nat) :=
  match unpack [32, 5, 3, 3, 3] b with
  | [0, s, mb, ma, md] => some (md, ma, mb, s)
  | _ => none

def decVM (mk : Frame → Fin 8 → Fin 8 → Fin 8 → Instr) (fr : Frame) (b : Nat) : Option Instr :=
  match vmFields b with
  | some (d, a, b, 0) => some (mk fr (Fin.ofNat 8 d) (Fin.ofNat 8 a) (Fin.ofNat 8 b))
  | _ => none

def decVmnot (fr : Frame) (b : Nat) : Option Instr :=
  match vmFields b with
  | some (d, a, 0, 0) => some (.vMnot fr (Fin.ofNat 8 d) (Fin.ofNat 8 a))
  | _ => none

def decVmset (fr : Frame) (b : Nat) : Option Instr :=
  match vmFields b with
  | some (d, 0, 0, s) => some (.vMset fr (Fin.ofNat 8 d) (Fin.ofNat 32 s))
  | _ => none

def decVmcount (fr : Frame) (b : Nat) : Option Instr :=
  match vmFields b with
  | some (d, a, cc, s) =>
    (Cc.ofCode cc).map fun cc => .vMcount fr (Fin.ofNat 8 d) (Fin.ofNat 8 a) cc (Fin.ofNat 32 s)
  | none => none

/-! ### Engines L and W: formats LW and WA (R60) -/

/-- The fields of format LW. -/
structure LwFields where
  tok : Tok
  k : Nat
  x : BufAddr
  s : Fin 32
  q : Nat
  desc : Fin 2048
  land : Fin 8192

def lwFields (b : Nat) : Option LwFields :=
  match unpack [13, 11, 5, 5, 1, 4, 3, 4] b with
  | [land, desc, q, s, pi, a, k, tok] =>
    some ⟨Tok.ofCode tok, k, bufAddr a pi, Fin.ofNat 32 s, q, Fin.ofNat 2048 desc, Fin.ofNat 8192 land⟩
  | _ => none

def decLtile (fr : Frame) (b : Nat) : Option Instr :=
  match lwFields b with
  | some ⟨tok, k, x, s, 0, desc, land⟩ => if k < 2 then some (.lTile fr tok (bit k) x s desc land) else none
  | _ => none

def decLhalo (fr : Frame) (b : Nat) : Option Instr :=
  match lwFields b with
  | some ⟨tok, k, x, s, 0, desc, land⟩ => (Pad.ofCode k).map fun pad => .lHalo fr tok pad x s desc land
  | _ => none

def decLnarrow (fr : Frame) (b : Nat) : Option Instr :=
  match lwFields b with
  | some ⟨tok, k, ⟨0, false⟩, s, q, desc, land⟩ => some (.lNarrow fr tok (Fin.ofNat 8 k) (Fin.ofNat 32 q) s desc land)
  | _ => none

def decLcsr (fr : Frame) (b : Nat) : Option Instr :=
  match lwFields b with
  | some ⟨tok, 0, x, s, q, desc, land⟩ => some (.lCsr fr tok (Fin.ofNat 32 q) x s desc land)
  | _ => none

def decLgather (fr : Frame) (b : Nat) : Option Instr :=
  match lwFields b with
  | some ⟨tok, 0, x, s, 0, desc, land⟩ => some (.lGather fr tok x s desc land)
  | _ => none

/-- `l.row` and `w.row` (R212, R217): k is the type and q the tile, 0 to 6. -/
def decRow (mk : Frame → Tok → VTy → Fin 7 → BufAddr → Fin 32 → Fin 2048 → Fin 8192 → Instr) (fr : Frame) (b : Nat) :
    Option Instr :=
  match lwFields b with
  | some ⟨tok, k, x, s, q, desc, land⟩ =>
    if q < 7 then (VTy.ofCode k).map fun ty => mk fr tok ty (Fin.ofNat 7 q) x s desc land else none
  | none => none

def decLring (fr : Frame) (b : Nat) : Option Instr :=
  match lwFields b with
  | some ⟨tok, 0, ⟨0, false⟩, s, q, desc, land⟩ => some (.lRing fr tok (Fin.ofNat 32 q) s desc land)
  | _ => none

def decWtile (fr : Frame) (b : Nat) : Option Instr :=
  match lwFields b with
  | some ⟨tok, 0, x, s, 0, desc, land⟩ => some (.wTile fr tok (.ab x) s desc land)
  | some ⟨tok, 1, ⟨0, false⟩, s, q, desc, land⟩ => some (.wTile fr tok (.ring (Fin.ofNat 32 q)) s desc land)
  | _ => none

def decWacc (fr : Frame) (b : Nat) : Option Instr :=
  match lwFields b with
  | some ⟨tok, k, x, s, 0, desc, land⟩ => (AccOp.ofCode k).map fun op => .wAcc fr tok op x s desc land
  | _ => none

def decWfilt (fr : Frame) (b : Nat) : Option Instr :=
  match lwFields b with
  | some ⟨tok, k, x, s, 0, desc, land⟩ => if k < 2 then some (.wFilt fr tok (bit k) x s desc land) else none
  | _ => none

/-- The fields of format WA; 17:13 and land zero for both words that use it (R219, R220). -/
structure WaFields where
  tok : Tok
  op : Nat
  ty : Nat
  sc : Scope
  rel : Bool
  s : Fin 32
  v : Fin 32
  c : Fin 32

def waFields (b : Nat) : Option WaFields :=
  match unpack [13, 5, 5, 5, 5, 1, 2, 2, 4, 4] b with
  | [0, 0, c, v, s, rel, sc, ty, op, tok] =>
    (Scope.ofCode sc).map fun sc =>
      ⟨Tok.ofCode tok, op, ty, sc, bit rel, Fin.ofNat 32 s, Fin.ofNat 32 v, Fin.ofNat 32 c⟩
  | _ => none

def decWamo (fr : Frame) (b : Nat) : Option Instr :=
  match waFields b with
  | some ⟨tok, op, ty, sc, rel, s, v, c⟩ => do
    let op ← AmoOp.ofCode op
    let ty ← AmoTy.ofCode ty
    some (.wAmo fr tok op ty sc rel s v c)
  | none => none

def decWsig (fr : Frame) (b : Nat) : Option Instr :=
  match waFields b with
  | some ⟨tok, op, 1, sc, rel, s, v, 0⟩ => (SigOp.ofCode op).map fun op => .wSig fr tok op sc rel s v
  | _ => none

/-! ### Engines X and G: formats X and G (R61) -/

/-- The fields of format X. -/
structure XFields where
  q : Nat
  s : Nat
  path : Nat
  x : BufAddr
  desc : Nat
  land : Nat
  op : Nat

def xFields (b : Nat) : Option XFields :=
  match unpack [3, 13, 11, 1, 4, 4, 5, 5] b with
  | [op, land, desc, pi, a, path, s, q] => some ⟨q, s, path, bufAddr a pi, desc, land, op⟩
  | _ => none

/-- `x.send` (R223): a field that its form does not use must be zero (assumption 132). -/
def decXsend (fr : Frame) (b : Nat) : Option Instr :=
  match xFields b with
  | some ⟨0, 0, path, x, desc, land, 0⟩ =>
    (Path.ofCode path).map fun p => .xSend fr p (.ab x) (Fin.ofNat 2048 desc) (Fin.ofNat 8192 land)
  | some ⟨q, 0, path, ⟨0, false⟩, desc, land, 1⟩ =>
    (Path.ofCode path).map fun p => .xSend fr p (.ring (Fin.ofNat 32 q)) (Fin.ofNat 2048 desc) (Fin.ofNat 8192 land)
  | _ => none

/-- `x.recv` (R223), on the same terms. -/
def decXrecv (fr : Frame) (b : Nat) : Option Instr :=
  match xFields b with
  | some ⟨0, 0, path, x, desc, 0, 0⟩ => (Path.ofCode path).map fun p => .xRecv fr p (.ab x) (Fin.ofNat 2048 desc)
  | some ⟨0, 0, path, x, desc, 0, 1⟩ => (Path.ofCode path).map fun p => .xRecv fr p (.wb x) (Fin.ofNat 2048 desc)
  | some ⟨q, 0, path, ⟨0, false⟩, desc, 0, 2⟩ =>
    (Path.ofCode path).map fun p => .xRecv fr p (.ring (Fin.ofNat 32 q)) (Fin.ofNat 2048 desc)
  | _ => none

def decXred (fr : Frame) (b : Nat) : Option Instr :=
  match xFields b with
  | some ⟨0, 0, path, x, desc, 0, op⟩ => do
    let p ← Path.ofCode path
    let op ← RedOp.ofCode op
    some (.xRed fr p op x (Fin.ofNat 2048 desc))
  | _ => none

/-- `x.put` (R227): path 8, q the semaphore. -/
def decXput (fr : Frame) (b : Nat) : Option Instr :=
  match xFields b with
  | some ⟨q, s, 8, x, desc, 0, 0⟩ => some (.xPut fr (Fin.ofNat 32 q) x (Fin.ofNat 32 s) (Fin.ofNat 2048 desc))
  | _ => none

/-- `x.sig` (R228): path 8. -/
def decXsig (fr : Frame) (b : Nat) : Option Instr :=
  match xFields b with
  | some ⟨0, s, 8, ⟨0, false⟩, desc, 0, op⟩ =>
    (SigOp.ofCode op).map fun op => .xSig fr op (Fin.ofNat 32 s) (Fin.ofNat 2048 desc)
  | _ => none

def decXalign (fr : Frame) (b : Nat) : Option Instr :=
  match xFields b with
  | some ⟨0, 0, path, x, 0, 0, 0⟩ => (Path.ofCode path).map fun p => .xAlign fr p x
  | _ => none

def decXfwd (fr : Frame) (b : Nat) : Option Instr :=
  match xFields b with
  | some ⟨0, 0, path, ⟨0, false⟩, desc, land, 0⟩ =>
    (Path.ofCode path).map fun p => .xFwd fr p (Fin.ofNat 2048 desc) (Fin.ofNat 8192 land)
  | _ => none

/-- The fields of format G. -/
structure GFields where
  c : Nat
  e : Nat
  s : Nat
  x : BufAddr
  imm : Nat

def gFields (b : Nat) : Option GFields :=
  match unpack [24, 1, 4, 5, 6, 6] b with
  | [imm, pi, a, s, e, c] => some ⟨c, e, s, bufAddr a pi, imm⟩
  | _ => none

def decGbind (fr : Frame) (b : Nat) : Option Instr :=
  match gFields b with
  | some ⟨c, 0, s, ⟨0, false⟩, 0⟩ => some (.gBind fr (Fin.ofNat 64 c) (Fin.ofNat 32 s))
  | _ => none

/-- `g.step` (R237): imm<23> takes the token from sA; imm<12:0> is the latency; 22:13 zero. -/
def decGstep (fr : Frame) (b : Nat) : Option Instr :=
  match gFields b with
  | some ⟨c, 0, s, x, imm⟩ =>
    match unpack [13, 10, 1] imm with
    | [ls, 0, 0] => if s = 0 then some (.gStep fr (Fin.ofNat 64 c) (.ab x) (Fin.ofNat 8192 ls)) else none
    | [ls, 0, 1] =>
      if x = BufAddr.none then some (.gStep fr (Fin.ofNat 64 c) (.reg (Fin.ofNat 32 s)) (Fin.ofNat 8192 ls)) else none
    | _ => none
  | _ => none

/-- `g.mask` (R238): imm<12:0> the latency, imm<21:13> the granule count minus 1, 23:22 zero. -/
def decGmask (fr : Frame) (b : Nat) : Option Instr :=
  match gFields b with
  | some ⟨c, 0, 0, x, imm⟩ =>
    match unpack [13, 9, 2] imm with
    | [lm, v, 0] => some (.gMask fr (Fin.ofNat 64 c) x (Fin.ofNat 512 v) (Fin.ofNat 8192 lm))
    | _ => none
  | _ => none

def decGfork (fr : Frame) (b : Nat) : Option Instr :=
  match gFields b with
  | some ⟨c, e, 0, ⟨0, false⟩, 0⟩ => some (.gFork fr (Fin.ofNat 64 e) (Fin.ofNat 64 c))
  | _ => none

def decGc (mk : Frame → Fin 64 → Instr) (fr : Frame) (b : Nat) : Option Instr :=
  match gFields b with
  | some ⟨c, 0, 0, ⟨0, false⟩, 0⟩ => some (mk fr (Fin.ofNat 64 c))
  | _ => none

/-- `g.save` and `g.restore` (R242): imm<0> moves or copies. -/
def decGrec (mk : Frame → Fin 64 → BufAddr → Bool → Instr) (fr : Frame) (b : Nat) : Option Instr :=
  match gFields b with
  | some ⟨c, 0, 0, x, imm⟩ => if imm < 2 then some (mk fr (Fin.ofNat 64 c) x (bit imm)) else none
  | _ => none

def decGstate (fr : Frame) (b : Nat) : Option Instr :=
  match gFields b with
  | some ⟨c, 0, 0, x, 0⟩ => some (.gState fr (Fin.ofNat 64 c) x)
  | _ => none

/-! ### The opcode map (R65) -/

/-- The opcodes of engine S (R65); every other code is unassigned. -/
def decScalar (op : Nat) (w p : Fin 16) (b : Nat) : Option Instr :=
  let fr : Frame := ⟨w, p⟩
  match op with
  | 0x00 => decNop .sNop w p b
  | 0x01 => decSR .sAdd fr b
  | 0x02 => decSR .sSub fr b
  | 0x03 => decSR .sMul fr b
  | 0x04 => decSR .sMulh fr b
  | 0x05 => decSR .sMulhu fr b
  | 0x06 => decSR .sDiv fr b
  | 0x07 => decSR .sDivu fr b
  | 0x08 => decSR .sRem fr b
  | 0x09 => decSR .sRemu fr b
  | 0x0A => decSR .sAnd fr b
  | 0x0B => decSR .sOr fr b
  | 0x0C => decSR .sXor fr b
  | 0x0D => decSR .sShl fr b
  | 0x0E => decSR .sShr fr b
  | 0x0F => decSR .sSar fr b
  | 0x10 => decSR .sMin fr b
  | 0x11 => decSR .sMax fr b
  | 0x12 => decSR .sMinu fr b
  | 0x13 => decSR .sMaxu fr b
  | 0x14 => decSU .sClz fr b
  | 0x15 => decSU .sPopc fr b
  | 0x18 => decSI .sAddi fr b
  | 0x19 => decSI .sAndi fr b
  | 0x1A => decSI .sOri fr b
  | 0x1B => decSI .sXori fr b
  | 0x1C => decSH .sShli fr b
  | 0x1D => decSH .sShri fr b
  | 0x1E => decSH .sSari fr b
  | 0x1F => decSI .sMuli fr b
  | 0x20 => decSL .sLi fr b
  | 0x21 => decSL .sLih fr b
  | 0x22 => decSP .sCmp fr b
  | 0x23 => decSPI fr b
  | 0x24 => decSQ .sPand fr b
  | 0x25 => decSQ .sPor fr b
  | 0x26 => decSQ .sPxor fr b
  | 0x27 => decSQ1 fr b
  | 0x28 => decSR .sAddF64 fr b
  | 0x29 => decSR .sSubF64 fr b
  | 0x2A => decSR .sMulF64 fr b
  | 0x2B => decSR .sDivF64 fr b
  | 0x2C => decSR .sFmaF64 fr b
  | 0x2D => decSU .sSqrtF64 fr b
  | 0x2E => decSR .sMinF64 fr b
  | 0x2F => decSR .sMaxF64 fr b
  | 0x30 => decSP .sCmpF64 fr b
  | 0x31 => decSU .sCvtF64S64 fr b
  | 0x32 => decSU .sCvtS64F64 fr b
  | 0x33 => decSU .sClassF64 fr b
  | 0x38 => decLd fr b
  | 0x39 => decSt fr b
  | 0x3A => decLdm fr b
  | 0x3B => decStm fr b
  | 0x40 => decLoop w p b
  | 0x48 => decRdctl fr b
  | 0x49 => decWrctl fr b
  | 0x4A => decRda fr b
  | 0x4B => decWra fr b
  | 0x4C => decRdq fr b
  | 0x4D => decWrq fr b
  | 0x4E => decRdk fr b
  | 0x4F => decWrk fr b
  | 0x50 => decRnd fr b
  | _ => none

/-- The opcodes of engine Y (R65); every other code is unassigned. -/
def decSync (op : Nat) (w p : Fin 16) (b : Nat) : Option Instr :=
  let fr : Frame := ⟨w, p⟩
  match op with
  | 0x00 => decNop .yNop w p b
  | 0x01 => decRdv w p b
  | 0x02 => decSemV .ySeminit fr b
  | 0x03 => decSemclr fr b
  | 0x04 => decTokOp .yTokpush fr b
  | 0x05 => decTokOp .yTokpop fr b
  | 0x06 => decGate fr b
  | 0x07 => decSemV .yGatesem fr b
  | 0x08 => decGateclr fr b
  | 0x09 => decFence w p b
  | 0x0A => decExport fr b
  | 0x0B => decYv .yTrap fr b
  | 0x0C => decYv .yBrk fr b
  | 0x0D => decYv .yStamp fr b
  | _ => none

/-- The opcodes of engine M (R65); every other code is unassigned. -/
def decMatrix (op : Nat) (w p : Fin 16) (b : Nat) : Option Instr :=
  let fr : Frame := ⟨w, p⟩
  match op with
  | 0x00 => decTokNop .mNop w p b
  | 0x01 => decWld fr b
  | 0x02 => decSwap fr b
  | 0x03 => decMac .mMacS9 fr b
  | 0x04 => decMac .mMacS5 fr b
  | 0x05 => decSpmac fr b
  | 0x06 => decMask .mShape fr b
  | 0x07 => decMask .mWake fr b
  | 0x08 => decMask .mSleep fr b
  | 0x09 => decFeed fr b
  | 0x0A => decXbase fr b
  | _ => none

/-- The opcodes of engine V (R65); every other code is unassigned. -/
def decVector (op : Nat) (w p : Fin 16) (b : Nat) : Option Instr :=
  let fr : Frame := ⟨w, p⟩
  match op with
  | 0x00 => decNop .vNop w p b
  | 0x01 => decVA .vAdd fr b
  | 0x02 => decVA .vSub fr b
  | 0x03 => decVA .vMul fr b
  | 0x04 => decVA .vFma fr b
  | 0x05 => decVA .vFms fr b
  | 0x06 => decVA .vMin fr b
  | 0x07 => decVA .vMax fr b
  | 0x08 => decVA .vAnd fr b
  | 0x09 => decVA .vOr fr b
  | 0x0A => decVA .vXor fr b
  | 0x0B => decVA .vDiv fr b
  | 0x10 => decVB1 .vAbs fr b
  | 0x11 => decVB1 .vNeg fr b
  | 0x12 => decVB1 .vNot fr b
  | 0x13 => decVB1 .vMov fr b
  | 0x14 => decVBs .vShl fr b
  | 0x15 => decVBs .vShr fr b
  | 0x16 => decVBs .vSar fr b
  | 0x17 => decVBs .vRshr fr b
  | 0x18 => decVcmp fr b
  | 0x19 => decVsel fr b
  | 0x1A => decVBk .vBcast fr b
  | 0x20 => decVcvt fr b
  | 0x21 => decVcvte fr b
  | 0x22 => decVslice fr b
  | 0x23 => decVBk .vScale fr b
  | 0x24 => decVcvtx fr b
  | 0x28 => decVnarrow fr b
  | 0x29 => decVrot fr b
  | 0x2A => decVring .vPop fr b
  | 0x2B => decVring .vPush fr b
  | 0x30 => decVsp .vExp2 fr b
  | 0x31 => decVsp .vLog2 fr b
  | 0x32 => decVsp .vRecip fr b
  | 0x33 => decVsp .vRsqrt fr b
  | 0x34 => decVB1 .vSqrt fr b
  | 0x35 => decVsp .vSinpi fr b
  | 0x36 => decVsp .vCospi fr b
  | 0x38 => decVD .vLd fr b
  | 0x39 => decVD .vSt fr b
  | 0x3A => decVD .vGather fr b
  | 0x3B => decVD .vScatter fr b
  | 0x3C => decVD .vBset fr b
  | 0x3D => decVD .vBtest fr b
  | 0x40 => decVperm fr b
  | 0x41 => decVBk .vLshift fr b
  | 0x42 => decVBk .vLrot fr b
  | 0x43 => decVmatch fr b
  | 0x44 => decVrnd fr b
  | 0x48 => decVred .vRsum fr b
  | 0x49 => decVred .vRmax fr b
  | 0x4A => decVred .vRmin fr b
  | 0x4B => decVred .vScan fr b
  | 0x4C => decVred .vArgmax fr b
  | 0x4D => decVred .vArgmin fr b
  | 0x50 => decVM .vMand fr b
  | 0x51 => decVM .vMor fr b
  | 0x52 => decVM .vMxor fr b
  | 0x53 => decVmnot fr b
  | 0x54 => decVmset fr b
  | 0x55 => decVmcount fr b
  | _ => none

/-- The opcodes of engine L (R65); every other code is unassigned. -/
def decLoadCopy (op : Nat) (w p : Fin 16) (b : Nat) : Option Instr :=
  let fr : Frame := ⟨w, p⟩
  match op with
  | 0x00 => decTokNop .lNop w p b
  | 0x01 => decLtile fr b
  | 0x02 => decLhalo fr b
  | 0x03 => decLnarrow fr b
  | 0x04 => decLcsr fr b
  | 0x05 => decLgather fr b
  | 0x06 => decRow .lRow fr b
  | 0x07 => decLring fr b
  | _ => none

/-- The opcodes of engine W (R65); every other code is unassigned. -/
def decStoreCopy (op : Nat) (w p : Fin 16) (b : Nat) : Option Instr :=
  let fr : Frame := ⟨w, p⟩
  match op with
  | 0x00 => decTokNop .wNop w p b
  | 0x01 => decWtile fr b
  | 0x02 => decWacc fr b
  | 0x03 => decWamo fr b
  | 0x04 => decWsig fr b
  | 0x05 => decWfilt fr b
  | 0x06 => decRow .wRow fr b
  | _ => none

/-- The opcodes of engine X (R65); every other code is unassigned. -/
def decLink (op : Nat) (w p : Fin 16) (b : Nat) : Option Instr :=
  let fr : Frame := ⟨w, p⟩
  match op with
  | 0x00 => decNop .xNop w p b
  | 0x01 => decXsend fr b
  | 0x02 => decXrecv fr b
  | 0x03 => decXred fr b
  | 0x04 => decXput fr b
  | 0x05 => decXsig fr b
  | 0x06 => decXalign fr b
  | 0x07 => decXfwd fr b
  | _ => none

/-- The opcodes of engine G (R65); every other code is unassigned. -/
def decGrammar (op : Nat) (w p : Fin 16) (b : Nat) : Option Instr :=
  let fr : Frame := ⟨w, p⟩
  match op with
  | 0x00 => decNop .gNop w p b
  | 0x01 => decGbind fr b
  | 0x02 => decGstep fr b
  | 0x03 => decGmask fr b
  | 0x04 => decGfork fr b
  | 0x05 => decGc .gMark fr b
  | 0x06 => decGc .gRollback fr b
  | 0x07 => decGc .gCommit fr b
  | 0x08 => decGc .gFree fr b
  | 0x09 => decGrec .gSave fr b
  | 0x0A => decGrec .gRestore fr b
  | 0x0B => decGstate fr b
  | _ => none

/-- The instruction of an engine's opcode and body, before the checks of reserved values. -/
def decEngine (e : Eng) (op : Nat) (w p : Fin 16) (b : Nat) : Option Instr :=
  match e with
  | .S => decScalar op w p b
  | .Y => decSync op w p b
  | .M => decMatrix op w p b
  | .V => decVector op w p b
  | .L => decLoadCopy op w p b
  | .W => decStoreCopy op w p b
  | .X => decLink op w p b
  | .G => decGrammar op w p b

/-- The decoder: the instruction of a 64-bit word, or nothing where the word is an unassigned encoding (R49, R50,
R65). -/
def decodeWord (w : Nat) : Option Instr :=
  match unpack [46, 4, 7, 4, 3] w with
  | [b, p, op, wait, e] => do
    let e ← Eng.ofCode e
    let i ← decEngine e op (Fin.ofNat 16 wait) (Fin.ofNat 16 p) b
    if i.wf then some i else none
  | _ => none

/-- The 64-bit word in eight bytes in ascending address order, little-endian (the chapter's first paragraph). -/
def wordOfBytes : List Byte → Nat
  | [] => 0
  | b :: bs => b.toNat + 256 * wordOfBytes bs

/-- The eight bytes of a word as the image stores them. -/
def bytesOfWord : Nat → Nat → List Byte
  | 0, _ => []
  | n + 1, w => BitVec.ofNat 8 w :: bytesOfWord n (w / 256)

/-- The engine whose queue the splitter puts a word into: its bits 63:61 (R14). -/
def engOfWord (w : W64) : Eng := (Eng.ofCode (w.toNat / 2 ^ 61)).getD .S

/-- What the decoder reads from the first `nbits` bits of `w`, the bits above them zero: the words of this hardware are
64 bits, so the eight bytes are laid out little-endian and read back. -/
def decodeTableWord (nbits w : Nat) : Option Instr :=
  decodeWord (wordOfBytes (bytesOfWord 8 (w % 2 ^ nbits)))

/-- The word of an instruction, by the formats of R54 to R62 and the opcode map of R65; events have none. -/
def encode (i : Instr) : Option Nat :=
  match i with
  | .sNop w i => some (wordOf .S 0x00 w 0 (nopBody i))
  | .sAdd fr d a b => some (wordOf .S 0x01 fr.wait fr.pred (srBody d a b))
  | .sSub fr d a b => some (wordOf .S 0x02 fr.wait fr.pred (srBody d a b))
  | .sMul fr d a b => some (wordOf .S 0x03 fr.wait fr.pred (srBody d a b))
  | .sMulh fr d a b => some (wordOf .S 0x04 fr.wait fr.pred (srBody d a b))
  | .sMulhu fr d a b => some (wordOf .S 0x05 fr.wait fr.pred (srBody d a b))
  | .sDiv fr d a b => some (wordOf .S 0x06 fr.wait fr.pred (srBody d a b))
  | .sDivu fr d a b => some (wordOf .S 0x07 fr.wait fr.pred (srBody d a b))
  | .sRem fr d a b => some (wordOf .S 0x08 fr.wait fr.pred (srBody d a b))
  | .sRemu fr d a b => some (wordOf .S 0x09 fr.wait fr.pred (srBody d a b))
  | .sAnd fr d a b => some (wordOf .S 0x0A fr.wait fr.pred (srBody d a b))
  | .sOr fr d a b => some (wordOf .S 0x0B fr.wait fr.pred (srBody d a b))
  | .sXor fr d a b => some (wordOf .S 0x0C fr.wait fr.pred (srBody d a b))
  | .sShl fr d a b => some (wordOf .S 0x0D fr.wait fr.pred (srBody d a b))
  | .sShr fr d a b => some (wordOf .S 0x0E fr.wait fr.pred (srBody d a b))
  | .sSar fr d a b => some (wordOf .S 0x0F fr.wait fr.pred (srBody d a b))
  | .sMin fr d a b => some (wordOf .S 0x10 fr.wait fr.pred (srBody d a b))
  | .sMax fr d a b => some (wordOf .S 0x11 fr.wait fr.pred (srBody d a b))
  | .sMinu fr d a b => some (wordOf .S 0x12 fr.wait fr.pred (srBody d a b))
  | .sMaxu fr d a b => some (wordOf .S 0x13 fr.wait fr.pred (srBody d a b))
  | .sAddF64 fr d a b => some (wordOf .S 0x28 fr.wait fr.pred (srBody d a b))
  | .sSubF64 fr d a b => some (wordOf .S 0x29 fr.wait fr.pred (srBody d a b))
  | .sMulF64 fr d a b => some (wordOf .S 0x2A fr.wait fr.pred (srBody d a b))
  | .sDivF64 fr d a b => some (wordOf .S 0x2B fr.wait fr.pred (srBody d a b))
  | .sFmaF64 fr d a b => some (wordOf .S 0x2C fr.wait fr.pred (srBody d a b))
  | .sMinF64 fr d a b => some (wordOf .S 0x2E fr.wait fr.pred (srBody d a b))
  | .sMaxF64 fr d a b => some (wordOf .S 0x2F fr.wait fr.pred (srBody d a b))
  | .sClz fr d a => some (wordOf .S 0x14 fr.wait fr.pred (srBody d a 0))
  | .sPopc fr d a => some (wordOf .S 0x15 fr.wait fr.pred (srBody d a 0))
  | .sSqrtF64 fr d a => some (wordOf .S 0x2D fr.wait fr.pred (srBody d a 0))
  | .sCvtF64S64 fr d a => some (wordOf .S 0x31 fr.wait fr.pred (srBody d a 0))
  | .sCvtS64F64 fr d a => some (wordOf .S 0x32 fr.wait fr.pred (srBody d a 0))
  | .sClassF64 fr d a => some (wordOf .S 0x33 fr.wait fr.pred (srBody d a 0))
  | .sAddi fr d a imm => some (wordOf .S 0x18 fr.wait fr.pred (siBody d a imm.toNat))
  | .sAndi fr d a imm => some (wordOf .S 0x19 fr.wait fr.pred (siBody d a imm.toNat))
  | .sOri fr d a imm => some (wordOf .S 0x1A fr.wait fr.pred (siBody d a imm.toNat))
  | .sXori fr d a imm => some (wordOf .S 0x1B fr.wait fr.pred (siBody d a imm.toNat))
  | .sMuli fr d a imm => some (wordOf .S 0x1F fr.wait fr.pred (siBody d a imm.toNat))
  | .sShli fr d a imm => some (wordOf .S 0x1C fr.wait fr.pred (siBody d a imm))
  | .sShri fr d a imm => some (wordOf .S 0x1D fr.wait fr.pred (siBody d a imm))
  | .sSari fr d a imm => some (wordOf .S 0x1E fr.wait fr.pred (siBody d a imm))
  | .sLi fr d imm => some (wordOf .S 0x20 fr.wait fr.pred (slBody d imm))
  | .sLih fr d imm => some (wordOf .S 0x21 fr.wait fr.pred (slBody d imm))
  | .sCmp fr pd cc a b => some (wordOf .S 0x22 fr.wait fr.pred (spBody pd cc a b 0))
  | .sCmpi fr pd cc a imm => some (wordOf .S 0x23 fr.wait fr.pred (spBody pd cc a 0 imm.toNat))
  | .sPand fr pd pa pb => some (wordOf .S 0x24 fr.wait fr.pred (sqBody pd pa pb))
  | .sPor fr pd pa pb => some (wordOf .S 0x25 fr.wait fr.pred (sqBody pd pa pb))
  | .sPxor fr pd pa pb => some (wordOf .S 0x26 fr.wait fr.pred (sqBody pd pa pb))
  | .sPnot fr pd pa => some (wordOf .S 0x27 fr.wait fr.pred (sqBody pd pa 0))
  | .sCmpF64 fr pd cc a b => some (wordOf .S 0x30 fr.wait fr.pred (spBody pd cc a b 0))
  | .sLd fr d a off sz sx => some (wordOf .S 0x38 fr.wait fr.pred (smBody d a off sz sx 0))
  | .sSt fr d a off sz => some (wordOf .S 0x39 fr.wait fr.pred (smBody d a off sz false 0))
  | .sLdm fr d a off sz sx land => some (wordOf .S 0x3A fr.wait fr.pred (smBody d a off sz sx land))
  | .sStm fr d a off sz land => some (wordOf .S 0x3B fr.wait fr.pred (smBody d a off sz false land))
  | .sLoop w depth trip words => some (wordOf .S 0x40 w 0 (loopBody depth trip words))
  | .sRdctl fr d src => some (wordOf .S 0x48 fr.wait fr.pred (scBody d 0 src.n src.f))
  | .sWrctl fr r m a => some (wordOf .S 0x49 fr.wait fr.pred (scBody 0 a r.code m.code))
  | .sRda fr d n f => some (wordOf .S 0x4A fr.wait fr.pred (scBody d 0 n f.code))
  | .sWra fr n f a => some (wordOf .S 0x4B fr.wait fr.pred (scBody 0 a n f.code))
  | .sRdq fr d n hi => some (wordOf .S 0x4C fr.wait fr.pred (scBody d 0 n hi.toNat))
  | .sWrq fr n hi a => some (wordOf .S 0x4D fr.wait fr.pred (scBody 0 a n hi.toNat))
  | .sRdk fr d n gen => some (wordOf .S 0x4E fr.wait fr.pred (scBody d 0 n gen.toNat))
  | .sWrk fr n a => some (wordOf .S 0x4F fr.wait fr.pred (scBody 0 a n 0))
  | .sRnd fr d q pair => some (wordOf .S 0x50 fr.wait fr.pred (scBody d 0 q pair.toNat))
  | .yNop w i => some (wordOf .Y 0x00 w 0 (nopBody i))
  | .yRdv w => some (wordOf .Y 0x01 w 0 (yaBody 0 0 0 0 0))
  | .ySeminit fr n v => some (wordOf .Y 0x02 fr.wait fr.pred (yaBody n 0 0 v.toNat 0))
  | .ySemclr fr a => some (wordOf .Y 0x03 fr.wait fr.pred (yaBody 0 a 0 0 0))
  | .yTokpush fr f c => some (wordOf .Y 0x04 fr.wait fr.pred (yaBody f 0 0 0 c))
  | .yTokpop fr f c => some (wordOf .Y 0x05 fr.wait fr.pred (yaBody f 0 0 0 c))
  | .yGate fr g none => some (wordOf .Y 0x06 fr.wait fr.pred (yaBody g 0 0 0 0))
  | .yGate fr g (some a) => some (wordOf .Y 0x06 fr.wait fr.pred (yaBody g a 0 0 1))
  | .yGatesem fr n v => some (wordOf .Y 0x07 fr.wait fr.pred (yaBody n 0 0 v.toNat 0))
  | .yGateclr fr (.signal g) => some (wordOf .Y 0x08 fr.wait fr.pred (yaBody g 0 0 0 0))
  | .yGateclr fr (.sem n) => some (wordOf .Y 0x08 fr.wait fr.pred (yaBody n 0 0 0 1))
  | .yGateclr fr .all => some (wordOf .Y 0x08 fr.wait fr.pred (yaBody 0 0 0 0 2))
  | .yFence w sc => some (wordOf .Y 0x09 w 0 (yaBody 0 0 0 0 sc.code))
  | .yExport fr (.size a) => some (wordOf .Y 0x0A fr.wait fr.pred (yaBody 0 a 0 0 1))
  | .yExport fr (.sel b) => some (wordOf .Y 0x0A fr.wait fr.pred (yaBody 0 0 b 0 2))
  | .yExport fr (.both a b) => some (wordOf .Y 0x0A fr.wait fr.pred (yaBody 0 a b 0 3))
  | .yTrap fr v => some (wordOf .Y 0x0B fr.wait fr.pred (yaBody 0 0 0 v.toNat 0))
  | .yBrk fr v => some (wordOf .Y 0x0C fr.wait fr.pred (yaBody 0 0 0 v.toNat 0))
  | .yStamp fr v => some (wordOf .Y 0x0D fr.wait fr.pred (yaBody 0 0 0 v.toNat 0))
  | .mNop w tok i => some (wordOf .M 0x00 w 0 (tokNopBody tok i))
  | .mWld fr tok qa qb s5 => some (wordOf .M 0x01 fr.wait fr.pred (mBody tok qa qb 0 0 0 s5.toNat))
  | .mSwap fr tok => some (wordOf .M 0x02 fr.wait fr.pred (mBody tok 0 0 0 0 0 0))
  | .mMacS9 fr tok qa qb l rows dm init peek => some (wordOf .M 0x03 fr.wait fr.pred (mBody tok qa qb l.code rows dm.code (init.toNat + 2 * peek.toNat)))
  | .mMacS5 fr tok qa qb l rows dm init peek => some (wordOf .M 0x04 fr.wait fr.pred (mBody tok qa qb l.code rows dm.code (init.toNat + 2 * peek.toNat)))
  | .mSpmacS9 fr tok qa qb l rows dm init => some (wordOf .M 0x05 fr.wait fr.pred (mBody tok qa qb l.code rows dm.code init.toNat))
  | .mShape fr tok mask => some (wordOf .M 0x06 fr.wait fr.pred (mBody tok 0 0 0 0 0 mask))
  | .mWake fr tok mask => some (wordOf .M 0x07 fr.wait fr.pred (mBody tok 0 0 0 0 0 mask))
  | .mSleep fr tok mask => some (wordOf .M 0x08 fr.wait fr.pred (mBody tok 0 0 0 0 0 mask))
  | .mFeed fr tok (.imm i) => some (wordOf .M 0x09 fr.wait fr.pred (mBody tok 0 0 i.toNat 0 0 0))
  | .mFeed fr tok (.reg a post) => some (wordOf .M 0x09 fr.wait fr.pred (mBody tok (a + 16 * post.toNat) 0 0 0 0 1))
  | .mXbase fr tok imm => some (wordOf .M 0x0A fr.wait fr.pred (mBody tok 0 0 0 (imm.toNat / 4) (imm.toNat % 4) 0))
  | .vNop w i => some (wordOf .V 0x00 w 0 (nopBody i))
  | .vAdd fr ty d a b => some (wordOf .V 0x01 fr.wait fr.pred (vaBody ty d a b))
  | .vSub fr ty d a b => some (wordOf .V 0x02 fr.wait fr.pred (vaBody ty d a b))
  | .vMul fr ty d a b => some (wordOf .V 0x03 fr.wait fr.pred (vaBody ty d a b))
  | .vFma fr ty d a b => some (wordOf .V 0x04 fr.wait fr.pred (vaBody ty d a b))
  | .vFms fr ty d a b => some (wordOf .V 0x05 fr.wait fr.pred (vaBody ty d a b))
  | .vMin fr ty d a b => some (wordOf .V 0x06 fr.wait fr.pred (vaBody ty d a b))
  | .vMax fr ty d a b => some (wordOf .V 0x07 fr.wait fr.pred (vaBody ty d a b))
  | .vAnd fr ty d a b => some (wordOf .V 0x08 fr.wait fr.pred (vaBody ty d a b))
  | .vOr fr ty d a b => some (wordOf .V 0x09 fr.wait fr.pred (vaBody ty d a b))
  | .vXor fr ty d a b => some (wordOf .V 0x0A fr.wait fr.pred (vaBody ty d a b))
  | .vDiv fr ty d a b => some (wordOf .V 0x0B fr.wait fr.pred (vaBody ty d a b))
  | .vAbs fr ty d a mk => some (wordOf .V 0x10 fr.wait fr.pred (vbBody ty.code d.code a.code 0 mk 0))
  | .vNeg fr ty d a mk => some (wordOf .V 0x11 fr.wait fr.pred (vbBody ty.code d.code a.code 0 mk 0))
  | .vNot fr ty d a mk => some (wordOf .V 0x12 fr.wait fr.pred (vbBody ty.code d.code a.code 0 mk 0))
  | .vMov fr ty d a mk => some (wordOf .V 0x13 fr.wait fr.pred (vbBody ty.code d.code a.code 0 mk 0))
  | .vSqrt fr ty d a mk => some (wordOf .V 0x34 fr.wait fr.pred (vbBody ty.code d.code a.code 0 mk 0))
  | .vShl fr ty d a s n mk => some (wordOf .V 0x14 fr.wait fr.pred (vbBody ty.code d.code a.code s mk n))
  | .vShr fr ty d a s n mk => some (wordOf .V 0x15 fr.wait fr.pred (vbBody ty.code d.code a.code s mk n))
  | .vSar fr ty d a s n mk => some (wordOf .V 0x16 fr.wait fr.pred (vbBody ty.code d.code a.code s mk n))
  | .vRshr fr ty d a s n mk => some (wordOf .V 0x17 fr.wait fr.pred (vbBody ty.code d.code a.code s mk n))
  | .vCmp fr ty cc vmE a b mk => some (wordOf .V 0x18 fr.wait fr.pred (vbBody ty.code b.code a.code 0 mk (cc.code + 8 * vmE)))
  | .vSel fr ty d a s vm => some (wordOf .V 0x19 fr.wait fr.pred (vbBody ty.code d.code a.code s (some vm) 0))
  | .vBcast fr ty d a s k mk => some (wordOf .V 0x1A fr.wait fr.pred (vbBody ty.code d.code a.code s mk k.toNat))
  | .vScale fr ty d a s k mk => some (wordOf .V 0x23 fr.wait fr.pred (vbBody ty.code d.code a.code s mk k.toNat))
  | .vLshift fr ty d a s k mk => some (wordOf .V 0x41 fr.wait fr.pred (vbBody ty.code d.code a.code s mk k.toNat))
  | .vLrot fr ty d a s k mk => some (wordOf .V 0x42 fr.wait fr.pred (vbBody ty.code d.code a.code s mk k.toNat))
  | .vCvt fr dt st d a mk => some (wordOf .V 0x20 fr.wait fr.pred (vbBody dt.code d.code a.code 0 mk st.code))
  | .vCvte fr ty h16 toH16 hi d a mk => some (wordOf .V 0x21 fr.wait fr.pred (vbBody ty.code d.code a.code 0 mk (h16.code + 8 * toH16.toNat + 16 * hi.toNat)))
  | .vSliceF64 fr q a s => some (wordOf .V 0x22 fr.wait fr.pred (vbBody 3 0 a.code s none q))
  | .vCvtx fr ty toX d a s mk => some (wordOf .V 0x24 fr.wait fr.pred (vbBody ty.code d.code a.code s mk toX.toNat))
  | .vNarrow fr ty l q fmt k blk free rnd mk => some (wordOf .V 0x28 fr.wait fr.pred (vcBody ty l q fmt.code k blk.code free.toNat 0 rnd.code mk))
  | .vRot fr ty l none k blk inv rnd => some (wordOf .V 0x29 fr.wait fr.pred (vcBody ty l 0 0 k blk.code 0 inv.toNat rnd.code none))
  | .vRot fr ty l (some q) k blk inv rnd => some (wordOf .V 0x29 fr.wait fr.pred (vcBody ty l q 1 k blk.code 0 inv.toNat rnd.code none))
  | .vPop fr ty l q mk => some (wordOf .V 0x2A fr.wait fr.pred (vcBody ty l q 0 0 0 0 0 0 mk))
  | .vPush fr ty l q mk => some (wordOf .V 0x2B fr.wait fr.pred (vcBody ty l q 0 0 0 0 0 0 mk))
  | .vExp2 fr d a mk => some (wordOf .V 0x30 fr.wait fr.pred (vbBody 1 d.code a.code 0 mk 0))
  | .vLog2 fr d a mk => some (wordOf .V 0x31 fr.wait fr.pred (vbBody 1 d.code a.code 0 mk 0))
  | .vRecip fr d a mk => some (wordOf .V 0x32 fr.wait fr.pred (vbBody 1 d.code a.code 0 mk 0))
  | .vRsqrt fr d a mk => some (wordOf .V 0x33 fr.wait fr.pred (vbBody 1 d.code a.code 0 mk 0))
  | .vSinpi fr d a mk => some (wordOf .V 0x35 fr.wait fr.pred (vbBody 1 d.code a.code 0 mk 0))
  | .vCospi fr d a mk => some (wordOf .V 0x36 fr.wait fr.pred (vbBody 1 d.code a.code 0 mk 0))
  | .vLd fr ty l x off mk => some (wordOf .V 0x38 fr.wait fr.pred (vdBody ty l x off mk))
  | .vSt fr ty l x off mk => some (wordOf .V 0x39 fr.wait fr.pred (vdBody ty l x off mk))
  | .vGather fr ty l x off mk => some (wordOf .V 0x3A fr.wait fr.pred (vdBody ty l x off mk))
  | .vScatter fr ty l x off mk => some (wordOf .V 0x3B fr.wait fr.pred (vdBody ty l x off mk))
  | .vBset fr ty l x off mk => some (wordOf .V 0x3C fr.wait fr.pred (vdBody ty l x off mk))
  | .vBtest fr ty l x off mk => some (wordOf .V 0x3D fr.wait fr.pred (vdBody ty l x off mk))
  | .vPerm fr ty p d a mk => some (wordOf .V 0x40 fr.wait fr.pred (vbBody ty.code d.code a.code p.sreg mk p.code))
  | .vMatch fr pe part pat win s mk => some (wordOf .V 0x43 fr.wait fr.pred (vbBody 7 pat.code win.code s mk (pe + 16 * part.toNat)))
  | .vRndfill fr ty d q mk => some (wordOf .V 0x44 fr.wait fr.pred (vbBody ty.code d.code 0 0 mk q))
  | .vRsum fr ty d a g mk => some (wordOf .V 0x48 fr.wait fr.pred (vbBody ty.code d.code a.code 0 mk g))
  | .vRmax fr ty d a g mk => some (wordOf .V 0x49 fr.wait fr.pred (vbBody ty.code d.code a.code 0 mk g))
  | .vRmin fr ty d a g mk => some (wordOf .V 0x4A fr.wait fr.pred (vbBody ty.code d.code a.code 0 mk g))
  | .vScan fr ty d a g mk => some (wordOf .V 0x4B fr.wait fr.pred (vbBody ty.code d.code a.code 0 mk g))
  | .vArgmax fr ty d a g mk => some (wordOf .V 0x4C fr.wait fr.pred (vbBody ty.code d.code a.code 0 mk g))
  | .vArgmin fr ty d a g mk => some (wordOf .V 0x4D fr.wait fr.pred (vbBody ty.code d.code a.code 0 mk g))
  | .vMand fr d a b => some (wordOf .V 0x50 fr.wait fr.pred (vmBody d a b 0))
  | .vMor fr d a b => some (wordOf .V 0x51 fr.wait fr.pred (vmBody d a b 0))
  | .vMxor fr d a b => some (wordOf .V 0x52 fr.wait fr.pred (vmBody d a b 0))
  | .vMnot fr d a => some (wordOf .V 0x53 fr.wait fr.pred (vmBody d a 0 0))
  | .vMset fr d s => some (wordOf .V 0x54 fr.wait fr.pred (vmBody d 0 0 s))
  | .vMcount fr pd a cc s => some (wordOf .V 0x55 fr.wait fr.pred (vmBody pd a cc.code s))
  | .lNop w tok i => some (wordOf .L 0x00 w 0 (tokNopBody tok i))
  | .lTile fr tok wb x s desc land => some (wordOf .L 0x01 fr.wait fr.pred (lwBody tok wb.toNat x s 0 desc land))
  | .lHalo fr tok pad x s desc land => some (wordOf .L 0x02 fr.wait fr.pred (lwBody tok pad.code x s 0 desc land))
  | .lNarrow fr tok k q s desc land => some (wordOf .L 0x03 fr.wait fr.pred (lwBody tok k BufAddr.none s q desc land))
  | .lCsr fr tok q x s desc land => some (wordOf .L 0x04 fr.wait fr.pred (lwBody tok 0 x s q desc land))
  | .lGather fr tok x s desc land => some (wordOf .L 0x05 fr.wait fr.pred (lwBody tok 0 x s 0 desc land))
  | .lRow fr tok ty tile x s desc land => some (wordOf .L 0x06 fr.wait fr.pred (lwBody tok ty.code x s tile desc land))
  | .lRing fr tok q s desc land => some (wordOf .L 0x07 fr.wait fr.pred (lwBody tok 0 BufAddr.none s q desc land))
  | .wNop w tok i => some (wordOf .W 0x00 w 0 (tokNopBody tok i))
  | .wTile fr tok (.ab x) s desc land => some (wordOf .W 0x01 fr.wait fr.pred (lwBody tok 0 x s 0 desc land))
  | .wTile fr tok (.ring q) s desc land => some (wordOf .W 0x01 fr.wait fr.pred (lwBody tok 1 BufAddr.none s q desc land))
  | .wAcc fr tok op x s desc land => some (wordOf .W 0x02 fr.wait fr.pred (lwBody tok op.code x s 0 desc land))
  | .wAmo fr tok op ty sc rel s v c => some (wordOf .W 0x03 fr.wait fr.pred (waBody tok op.code ty.code sc rel s v c))
  | .wSig fr tok op sc rel s v => some (wordOf .W 0x04 fr.wait fr.pred (waBody tok op.code 1 sc rel s v 0))
  | .wFilt fr tok bf16 x s desc land => some (wordOf .W 0x05 fr.wait fr.pred (lwBody tok bf16.toNat x s 0 desc land))
  | .wRow fr tok ty tile x s desc land => some (wordOf .W 0x06 fr.wait fr.pred (lwBody tok ty.code x s tile desc land))
  | .xNop w i => some (wordOf .X 0x00 w 0 (nopBody i))
  | .xSend fr path (.ab x) desc land => some (wordOf .X 0x01 fr.wait fr.pred (xBody 0 0 path.code x desc land 0))
  | .xSend fr path (.ring q) desc land => some (wordOf .X 0x01 fr.wait fr.pred (xBody q 0 path.code BufAddr.none desc land 1))
  | .xRecv fr path (.ab x) desc => some (wordOf .X 0x02 fr.wait fr.pred (xBody 0 0 path.code x desc 0 0))
  | .xRecv fr path (.wb x) desc => some (wordOf .X 0x02 fr.wait fr.pred (xBody 0 0 path.code x desc 0 1))
  | .xRecv fr path (.ring q) desc => some (wordOf .X 0x02 fr.wait fr.pred (xBody q 0 path.code BufAddr.none desc 0 2))
  | .xRed fr path op x desc => some (wordOf .X 0x03 fr.wait fr.pred (xBody 0 0 path.code x desc 0 op.code))
  | .xPut fr sem x s desc => some (wordOf .X 0x04 fr.wait fr.pred (xBody sem s 8 x desc 0 0))
  | .xSig fr op s desc => some (wordOf .X 0x05 fr.wait fr.pred (xBody 0 s 8 BufAddr.none desc 0 op.code))
  | .xAlign fr path x => some (wordOf .X 0x06 fr.wait fr.pred (xBody 0 0 path.code x 0 0 0))
  | .xFwd fr path desc land => some (wordOf .X 0x07 fr.wait fr.pred (xBody 0 0 path.code BufAddr.none desc land 0))
  | .gNop w i => some (wordOf .G 0x00 w 0 (nopBody i))
  | .gBind fr c s => some (wordOf .G 0x01 fr.wait fr.pred (gBody c 0 s BufAddr.none 0))
  | .gStep fr c (.ab x) ls => some (wordOf .G 0x02 fr.wait fr.pred (gBody c 0 0 x ls))
  | .gStep fr c (.reg s) ls => some (wordOf .G 0x02 fr.wait fr.pred (gBody c 0 s BufAddr.none (ls + 8388608)))
  | .gMask fr c x v lm => some (wordOf .G 0x03 fr.wait fr.pred (gBody c 0 0 x (lm + 8192 * v)))
  | .gFork fr e c => some (wordOf .G 0x04 fr.wait fr.pred (gBody c e 0 BufAddr.none 0))
  | .gMark fr c => some (wordOf .G 0x05 fr.wait fr.pred (gBody c 0 0 BufAddr.none 0))
  | .gRollback fr c => some (wordOf .G 0x06 fr.wait fr.pred (gBody c 0 0 BufAddr.none 0))
  | .gCommit fr c => some (wordOf .G 0x07 fr.wait fr.pred (gBody c 0 0 BufAddr.none 0))
  | .gFree fr c => some (wordOf .G 0x08 fr.wait fr.pred (gBody c 0 0 BufAddr.none 0))
  | .gSave fr c x move => some (wordOf .G 0x09 fr.wait fr.pred (gBody c 0 0 x move.toNat))
  | .gRestore fr c x copy => some (wordOf .G 0x0A fr.wait fr.pred (gBody c 0 0 x copy.toNat))
  | .gState fr c x => some (wordOf .G 0x0B fr.wait fr.pred (gBody c 0 0 x 0))
  | _ => none

end Sys2Proof
end

