-- ==== Sys2Proof/Config.lean ====
section
/-! DEFINITION. What the spec fixes for no program to see (free values, without a body: nothing can be proved of them
but that they are what they are), and the constants of the module (R1, R5, R17). -/

namespace Sys2Proof.Config

/-! ### Free values -/

/-- A bit string standing under a poison mark, where something outside can see it (assumption 1). -/
opaque underPoison : Nat → BitVec 64

/-- What host memory holds at a bus address nothing has written (R21; assumption 3). -/
opaque hostByte : Nat → Byte

/-- What the host itself has stored at a bus address by a cycle, and nothing of this module has written since; none where it has
stored nothing since (assumption 3). -/
opaque hostStore : Nat → Nat → Option Byte

/-- Whether PCIe completes a read of a bus address at a cycle (R331, R367; assumption 107). -/
opaque hostCompletes : Nat → Nat → Bool

/-- What a peer module's HBM holds: coordinates x, y, z and physical address (assumption 3). -/
opaque peerByte : Nat → Nat → Nat → Nat → Byte

/-- How many cycles after its issue an untimetabled operation is performed (R252: at a tick no program names;
assumption 4). -/
opaque opDelay : Nat → Nat

/-- Whether a timetabled beat of a path without a guarantee is late (R287; assumption 4). -/
opaque beatLate : Nat → Bool

/-- How many granules of a stack the beats of peer modules take in a home tick of a system phase (R288; assumption 94). -/
opaque peerGranules : Nat → Nat → Nat

/-- How many cycles an acknowledgement travels (assumption 4). -/
opaque ackDelay : Nat → Nat

/-- How many cycles a sign-off travels to the barrier root; the model uses it modulo 97 (R48: within 96 cycles;
assumption 4). -/
opaque signOffDelay : Nat → Nat

/-- How many cycles the fetch of a launch record, of a token, or another access of the hub takes (assumption 4). -/
opaque hubDelay : Nat → Nat

/-- Whether a core fails its start-up test, at the n-th test of the module (R3, R360; assumption 5). -/
opaque failsTest : Nat → Nat → Bool

/-- Which of two codes a module records whose group another module has stopped at the opening alignment: 0x28 or 0x2A
(R315; assumption 41). -/
opaque groupStop : Nat → Bool

/-- A fresh random bit string of the random engine (R366; assumption 5). -/
opaque random : Nat → BitVec 256

/-- The public keys that verify firmware and debug tokens (R362, R365; assumption 5). -/
opaque publicKey : Bool → List Byte

/-- The 256-bit unique secret in fuses (R363; assumption 5). -/
opaque uds : List Byte

/-- The firmware images in flash at manufacture, by kind 0 to 3 and copy A or B: header, body, signature (R360, R362;
assumption 5). -/
opaque firmware : Nat → Bool → List Byte

/-- The fused minimum security versions, 16 bytes (R362; assumption 5). -/
opaque minVersions : List Byte

/-- Gratacel's certificate chain for the identity key (R363; assumption 5). -/
opaque certificate : List Byte

/-- The key digests in fuses: of the firmware key and of the debug authority's key (R362, R365; assumption 5). -/
opaque keyDigest : Bool → List Byte

/-- The length of an image, as its header gives it (R362: the manual does not say where; assumption 109). -/
opaque imageLength : List Byte → Nat

/-- What a requester sends with GET_CAPABILITIES and with NEGOTIATE_ALGORITHMS (R363; assumption 108). -/
opaque spdmRequest : Nat → List Byte

/-- What the firmware appends to its trace sink at a heartbeat (R366; assumption 110). -/
opaque firmwareTrace : Nat → List Byte

/-- The MCTP message that reads the trace sink (R366; assumption 110). -/
opaque sinkCommand : Nat

/-- Whether the firmware goes on to its next heartbeat (R383; assumption 111). -/
opaque firmwareRuns : Nat → Bool

/-- The security version in an image's header (R362: the manual does not say where it stands; assumption 5). -/
opaque imageVersion : List Byte → Nat

/-- The privileged register at an offset of the module block that sets a queue's minimum, or its cap: the core, the engine, and
whether the cap (R15: the manual gives it no address; assumption 123). -/
opaque queueRegister : Nat → Option (Nat × Nat × Bool)

/-- What a DMTF, PCIe or IEEE 1149.1 message says beyond what the spec says of it: the reply of the standard to the
request numbered n (R7; assumption 6). -/
opaque standardReply : Nat → List Byte

/-- What `x.align` finds of a torus neighbour: the offset in ticks of its phase tick counter, and whether it issued its beat
(R229; assumption 7). -/
opaque alignment : Nat → Int × Bool

/-- Hops of the torus to a peer from this module, which the environment knows (assumption 11). -/
opaque torusHops : Nat → Nat → Nat → Nat

/-! ### The module (R1, R5) -/

/-- Cores (R1). -/
def cores : Nat := 96

/-- The bytes of one HBM stack (R1, R351). -/
def stackBytes : Nat := 0xC00000000

/-- The bytes of HBM: twelve stacks (R1). -/
def hbmBytes : Nat := 12 * stackBytes

/-- AB: 6 MiB (R17). -/
def abBytes : Nat := 0x600000

/-- WB: 0x0 to 0x5F_FE7F (R17). -/
def wbBytes : Nat := 0x5FFE80

/-- SDM: 64 KiB (R17). -/
def sdmBytes : Nat := 0x10000

/-- GM: 256 KiB (R17). -/
def gmBytes : Nat := 0x40000

/-- The unit of poison of AB, SDM, GM and device memory (R21). -/
def granule : Nat := 64

/-- The bank word of WB (R17, R21). -/
def wbWord : Nat := 72

end Sys2Proof.Config
end

