-- ==== Sys2Proof/Machine/State.lean ====
section
/-! DEFINITION. The state of the FA8 as plain data: the 96 cores, the four quarter blocks of which the lowest of a
partition is the partition's, the module, and the model's own agenda, outputs, issue slot and counter of free values.
INVENTORY.md lists each piece with its rule. -/

namespace Sys2Proof.Machine

/-! ### Memories -/

/-- A sparse map: keys strictly rising. -/
abbrev SMap (α : Type) := List (Nat × α)

/-- A memory of bytes: the bytes that are not zero, addresses strictly rising, and the units of poison whose mark
differs from what an unlisted unit has: unpoisoned in HBM (R21, R360), poisoned in AB, WB, SDM and GM at the start of a
job (R21). `marks` is strictly rising too. -/
structure Mem where
  cells : List Host.Cell
  marks : List Nat
  deriving DecidableEq, Repr

/-- A memory in which nothing is listed. -/
def Mem.empty : Mem := ⟨[], []⟩

/-- The typed buffers (R17). -/
inductive Buf where
  | ab | wb | sdm | gm
  deriving DecidableEq, Repr

/-! ### Registers of a core (R27) -/

/-- A predicate register with its poison mark (R27, R108). -/
structure PReg where
  val : Bool
  mark : Bool
  deriving DecidableEq, Repr

/-- An address register (R28). -/
structure AReg where
  base : BitVec 32
  off : BitVec 32
  stride : BitVec 32
  wrap : BitVec 32
  deriving DecidableEq, Repr

/-- A seed register (R29). -/
structure KReg where
  seed : W64
  gen : BitVec 8
  deriving DecidableEq, Repr

/-- The control registers that are stored (R32); `ctl.core` and `ctl.tick` follow from where and when they are read.
`expSize` and `expSel` say whether a write of that register landed in the clause (R133). -/
structure Ctl where
  fflags : BitVec 5
  ftrap : BitVec 6
  round : BitVec 3
  elastic : Bool
  detect : Bool
  cadence : BitVec 2
  shape : BitVec 4
  phase : BitVec 32
  inflect : BitVec 3
  size : BitVec 32
  sel : BitVec 2
  expSize : Bool
  expSel : Bool
  deriving DecidableEq, Repr

/-- A gate registration (R130): a gate index or a semaphore number, and the value that replaces the declared one. -/
structure GateReg where
  sem : Bool
  n : Nat
  value : Option W64
  deriving DecidableEq, Repr

/-- The registers a context holds (R27, R40, R137, R350). `s`: none is a poisoned register (R108). -/
structure Regs where
  s : Vector (Option W64) 32
  p : Vector PReg 16
  a : Vector AReg 16
  k : Vector KReg 8
  q : Vector (BitVec 128) 32
  vm : Vector (BitVec 512) 8
  sem : Vector (BitVec 16) 32
  ctl : Ctl
  tok : Vector Nat 6
  gates : List GateReg
  feed : BitVec 16
  beta : BitVec 10
  bands : BitVec 4
  deriving DecidableEq, Repr

/-! ### Matrix and grammar engines -/

/-- A weight set (R137, R138): its format (none: empty), cell rows as 288 bytes (an absent row or byte is poisoned),
column exponents and class bytes (none is poisoned), weight tag and ring index. -/
structure WSet where
  fmt : Option Bool
  rows : SMap (List (Option Byte))
  exps : List (Option (Byte × Byte))
  tag : BitVec 16
  ring : Option (Fin 32)
  deriving DecidableEq, Repr

/-- A grammar context (R234), or a record of one. -/
structure GCtx where
  image : Nat
  bound : Bool
  dead : Bool
  mark : Bool
  state : Nat
  top : Nat
  depth : Nat
  mstate : Nat
  mtop : Nat
  mdepth : Nat
  steps : Nat
  vcode : Nat
  dmax : Nat
  pmax : Nat
  umax : Nat
  /-- The check field as last written: zero in a fresh record (R234). -/
  check : Nat
  deriving DecidableEq, Repr

/-- GM as the grammar engine uses it (R232, R233, R236): the node words and reference counts that differ from those of
a fresh pool, the contexts, the control area and the drop queue. `marks` lists the poisoned granules. -/
structure GM where
  nodes : SMap Nat
  counts : SMap Nat
  ctx : Vector GCtx 64
  head : Nat
  free : Nat
  queue : List Nat
  qhead : Nat
  marks : List Nat
  deriving DecidableEq, Repr

/-! ### What is in flight in a core -/

/-- Where an effect comes from, for the fault record: engine, word index, word, issue tick, words retired before it, and
whether `ctl.mode` had its core elastic at its issue, which governs all that the word does (R123). -/
structure Src where
  eng : Eng
  widx : Nat
  word : W64
  tick : Nat
  retired : Nat
  elastic : Bool
  deriving DecidableEq, Repr

/-- The write of one MRF slot, key tile × 65,536 + row × 256 + column (R22): its bits under `mask` are replaced; the
slot is poisoned if `poison`, or if `keep` and it was poisoned before (R175). -/
structure SlotWrite where
  key : Nat
  mask : W36
  bits : W36
  poison : Bool
  keep : Bool
  deriving DecidableEq, Repr

/-- What a grammar word writes into its context: all of it; all of it once the old references are dropped (R239); or the
fields of a step, the dead flag, a mark, a rollback, a commit (R240, R242). -/
inductive CtxUpd where
  | whole (v : GCtx)
  | bind (v : GCtx)
  | step (state top depth steps : Nat)
  | dead
  | mark (state top depth : Nat)
  | rollback (state top depth : Nat)
  | commit
  deriving DecidableEq, Repr

/-- A byte of a buffer or of device memory to be written; none is poisoned (R188, R206). -/
abbrev BW := Nat × Option Byte

/-- What lands at a tick. -/
inductive Effect where
  /-- sN, none poisoned (R107, R108). -/
  | setS (n : Fin 32) (v : Option W64)
  | setP (n : Fin 16) (v : PReg)
  | setA (n : Fin 16) (f : AField) (v : BitVec 32)
  /-- A post-increment: the offset after it (R28). -/
  | incA (n : Fin 16) (off : BitVec 32)
  /-- R29: the seed; the generation advances by 1. -/
  | setK (n : Fin 8) (v : W64)
  | setQ (n : Fin 32) (hi : Bool) (v : W64)
  /-- A pushed entry; none leaves its previous contents and its tag (R39, R42, R95). -/
  | push (q : Fin 32) (entry : Option (List (Option Byte))) (tag : BitVec 16)
  /-- Head and count after n pops at the previous tick (R39). -/
  | popped (q : Fin 32) (n : Nat)
  | setCtl (r : CtlReg) (m : WrMode) (v : W64)
  /-- R89. -/
  | orFlags (f : BitVec 5)
  | semInit (n : Fin 32) (v : BitVec 16)
  | semClr (m : BitVec 32)
  | tokens (f : Fin 6) (n : Nat)
  | slots (ws : List SlotWrite)
  | setVm (n : Fin 8) (v : BitVec 512)
  | store (b : Buf) (ws : List BW)
  /-- `v.bset` (R193): bits to set, by byte address. -/
  | setBits (ws : List (Nat × Byte))
  | setFeed (v : BitVec 16)
  | setBeta (v : BitVec 10)
  | sleep (m : BitVec 4)
  /-- A write of a scalar store at its home (R118): translated address, bytes. -/
  | home (h : Home) (bs : List (Option Byte))
  /-- The write of a context (R238). -/
  | ctx (c : Fin 64) (u : CtxUpd)
  /-- Nodes that return to the free list, in the order given (R240). -/
  | nodesBack (ns : List Nat)
  /-- A fault found after issue and due at this tick (R150, R245, R214). -/
  | raise (code : Nat) (detail addr : Nat)
  /-- A device beat that is not there by its landing (R287, R288): the number and landing of a beat that its stack has still to serve,
  the value of the phase tick counter from which it is there, whether a free value says that it is late. -/
  | late (beat : Option (Nat × Nat)) (ready : Nat) (free : Bool)
  /-- Bank requests at a later tick of a vector or matrix word (R187): resources of R340's code 0x07. -/
  | banks (e : Eng) (rs : List Nat)
  /-- The alignment record of `x.align` is due: what the partner sent is judged (R229). -/
  | alignCheck (path : Path) (addr : Nat)
  deriving DecidableEq, Repr

/-- A row of a mac word (R146, R147, R151). -/
structure RowJob where
  s5 : Bool
  sparse : Bool
  qa : Fin 32
  qb : Fin 32
  peek : Bool
  init : Bool
  dm : Drain
  tile : Nat
  col : Bool
  idx : Nat
  i : Nat
  n : Nat
  set : Bool
  shape : BitVec 4
  beta : Int
  feed : Int
  rnd : BitVec 3
  ftrap : BitVec 6
  on : Bool
  deriving DecidableEq, Repr

/-- The drain of a row: lane `c` next, and per lane its sum, exponent, and whether it is poisoned, non-finite or
records a reserved code (R147, R148). -/
structure DrainJob where
  row : RowJob
  pos : Nat
  c : Nat
  lanes : List (Int × Int × Bool × Bool × Bool)
  deriving DecidableEq, Repr

/-- A weight line or exponent entry of `m.wld` due at its tick (R143). -/
structure WldJob where
  qa : Fin 32
  j : Nat
  set : Bool
  on : Bool
  deriving DecidableEq, Repr

/-- How a beat of a store-copy word acts at its home (R217, R218, R221). -/
inductive HomeOp where
  | write
  | acc (op : AccOp) (rnd : BitVec 3)
  deriving DecidableEq, Repr

/-- A filter record under construction (R221): its place and parameters, the bitmap as read, the normaliser, the number
of kept logits, the shortlist (token id and F32 bits, best first), and whether a NaN or +∞, and poison, was seen. -/
structure FiltJob where
  bitmap : Nat
  logits : Nat
  record : Nat
  homes : List (Home × Nat)
  bf16 : Bool
  v : Nat
  len : Nat
  land : Nat
  bits : List (Option Byte)
  m : Nat
  s : Nat
  count : Nat
  short : List (Nat × Nat)
  nan : Bool
  bad : Bool
  deriving DecidableEq, Repr

/-- What a word still reads after its issue tick (R187, R205, R214, R217, R224, R227). -/
inductive ReadJob where
  /-- A beat of AB to its homes, and the clause tick at which it lands there. -/
  | ab (addr n : Nat) (homes : List (Home × Nat)) (land : Nat) (op : HomeOp)
  /-- A row of `w.tile` from a ring: its entry is found and popped, and its beats follow from this tick on. -/
  | ring (q : Fin 32) (n : Nat) (homes : List (Home × Nat)) (land : Nat)
  /-- A row of `w.row` through the row port. -/
  | row (ty : VTy) (tile row : Nat) (homes : List (Home × Nat)) (land : Nat)
  /-- A beat of `x.send` from AB: path, receiver, land, the size declared, its index, tag, whether it carries data. -/
  | send (addr n : Nat) (path : Path) (peer land rows rbytes j : Nat) (tag : BitVec 16) (on : Bool)
  /-- A row of `x.send` from a ring. -/
  | sendRing (q : Fin 32) (path : Path) (peer land rows rbytes j : Nat) (tag : BitVec 16) (on : Bool)
  /-- A beat of `x.put` for the outbound operation with this number. -/
  | put (op addr n : Nat) (homes : List (Home × Nat))
  /-- A group of eight granules of the index list of `l.gather`, the k-th, read for the rows from 128 k on: list, rows,
  limit, home of row 0, dstride, rbytes, buffer address, bstride, land; device memory as it stood at the issue tick; what takes back
the word's own writes. -/
  | index (k list rows limit : Nat) (a0 : Nat) (dstride : Int) (rbytes : Nat) (b0 : Nat) (bstride : Int) (land : Nat)
    (hbm : Mem) (host : SMap Byte) (peer : SMap (Option Byte)) (now : Nat) (undo : List Effect)
  /-- Beat j of `w.filt`: first the bitmap, then the logits (R221). -/
  | filt (f : FiltJob) (j : Nat)
  /-- A beat that `x.fwd` sends on leaves on its path for a core (R225). -/
  | leave (path : Path) (core : Nat) (b : LinkBeat)
  deriving DecidableEq, Repr

/-- What is done with a beat of a receiving word at D + j (R224 to R226). -/
inductive RecvJob where
  | ab (addr : Nat)
  /-- WB, with the bytes of this row before the beat that share its first bank word. -/
  | wb (addr before : Nat)
  /-- The last beat of a row into a ring: the beats of the row. -/
  | ring (q : Fin 32) (beats : Nat)
  /-- Another beat of a row into a ring: it waits for the last. -/
  | wait
  | red (op : RedOp) (addr : Nat) (localLeft : Bool) (rnd : BitVec 3)
  | fwd (path : Path) (core : Nat) (land : Nat)
  deriving DecidableEq, Repr

/-- What is due at a tick of a core; the constructors are the rows of the table that take it. -/
inductive Act where
  /-- RESULT_LAND. -/
  | land (es : List Effect)
  /-- LOOP_EXIT: depth, word index. -/
  | loopExit (depth widx : Nat)
  /-- BAND_WAKE_COMPLETE. -/
  | wake (m : BitVec 4)
  /-- MAC_ROW_ENTRY. -/
  | row (r : RowJob)
  /-- DRAIN_WRITE. -/
  | drain (d : DrainJob)
  /-- A weight line (within M_WLD's span; taken by RESULT_LAND). -/
  | wld (w : WldJob)
  /-- L_BEAT_LAND: AB, WB, MRF row or ring entry, and what else lands with it. -/
  | lBeat (es : List Effect)
  /-- The read of a beat (taken by RESULT_LAND). -/
  | read (r : ReadJob)
  /-- W_BEAT_HOME_WRITE. -/
  | home (h : Home) (bs : List (Option Byte)) (op : HomeOp)
  /-- LINK_BEAT_DELIVERY: delivery tick, path, peer, beat, what it does, whether the word is predicated on, and the
  rows and rbytes expected. -/
  | link (d : Nat) (path : Path) (peer : Nat) (j : Nat) (r : RecvJob) (on : Bool)
  /-- FILTER_RECORD_LANDING. -/
  | filt (f : FiltJob)
  deriving DecidableEq, Repr

/-- Something pending in a core: the clause tick it is due, its place within that tick (0 heads of rings, 1
writes, 2 flag ORs, 3 reads), its number, and the word it belongs to. -/
structure Pend where
  tick : Nat
  ord : Nat
  seq : Nat
  src : Src
  act : Act
  deriving DecidableEq, Repr

/-- A request of a bank or port in the current tick (R19, R284, R297): resource, engine, word. -/
structure Claim where
  res : Nat
  eng : Option Eng
  src : Option Src
  deriving DecidableEq, Repr

/-- What an untimetabled operation does at its home (R219, R220, R227, R228). -/
inductive OpKind where
  | amo (op : AmoOp) (ty : AmoTy) (v c : W64)
  | sig (op : SigOp) (v : W64)
  /-- A put: its semaphore, the beats read and not yet performed, and how many beats are still to be read. -/
  | put (sem : Fin 32) (ready : List (List (Home × Nat) × List (Option Byte))) (unread : Nat)
  deriving DecidableEq, Repr

/-- How far an untimetabled operation has come. -/
inductive OpState where
  | translating | held | sent | performed | acked
  deriving DecidableEq, Repr

/-- An untimetabled operation in the outbound path (R132, R219, R227, R228, R263): its number, its word, the phase and
job that issued it, what it does, its virtual address, the home (none before translation), scope and release marker.
`fences` lists operations whose acknowledgement it awaits, with the scope; `homes` is every home it writes. -/
structure OutOp where
  id : Nat
  src : Src
  phase : Nat
  job : Nat
  homes : List Home
  kind : OpKind
  va : Nat
  home : Option Home
  scope : Scope
  rel : Bool
  fences : List (Nat × Scope)
  /-- Issued in a re-execution: what it does outside the module is not repeated (R369). -/
  again : Bool
  st : OpState
  deriving DecidableEq, Repr

/-- An entry of an engine queue: word index, word, issue tick (R14). -/
structure QEntry where
  widx : Nat
  word : W64
  tick : Nat
  deriving DecidableEq, Repr

/-- A time loop of the clause, from the image alone (R121): the word index of its `s.loop`, its depth, body words,
iteration-0 issue tick, period and count. -/
structure LoopPlan where
  widx : Nat
  depth : Nat
  words : Nat
  t0 : Nat
  period : Nat
  count : Nat
  deriving DecidableEq, Repr

/-- A loop that runs: depth, issue tick of its `s.loop` in this pass, period and count (R121). -/
structure LoopRun where
  depth : Nat
  t0 : Nat
  period : Nat
  count : Nat
  deriving DecidableEq, Repr

/-- A device-memory or buffer region as one core holds it in a phase (R256, R305). -/
structure Region where
  space : Nat
  mode : Nat
  op : Nat
  base : Nat
  size : Nat
  deriving DecidableEq, Repr

/-- A tick that a core stays frozen for (R297, R298): the engine and column charged, and the resources in use in it. -/
structure Owed where
  eng : Eng
  col : Nat
  res : List Nat
  deriving DecidableEq, Repr

/-- A beat in flight of a device word (R292): its word, whether it goes out, the clause ticks of its source and of its
landing, its bytes. -/
structure Flying where
  src : Src
  out : Bool
  source : Nat
  landing : Nat
  bytes : Nat
  deriving DecidableEq, Repr

/-- A stall-matrix snapshot with the core's count of frozen ticks (R297, R298). -/
structure Snapshot where
  phase : Nat
  widx : Nat
  tick : Nat
  exits : Nat
  frozen : Nat
  counters : SMap Nat
  deriving DecidableEq, Repr

/-- A core's context in its subsoil bank (R350). -/
structure Ctx where
  regs : Regs
  mrf : SMap W36
  gctx : Vector GCtx 64
  ghead : Nat
  gfree : Nat
  gqhead : Nat
  gqcount : Nat
  frozen : Nat
  lc : List Nat
  deriving DecidableEq, Repr

/-- One core. -/
structure Core where
  regs : Regs
  /-- MRF slots that are not poisoned, by key (R22, R26). -/
  mrf : SMap W36
  ab : Mem
  wb : Mem
  sdm : Mem
  /-- SDM as the slack window left it, from which descriptors are read (R203). -/
  sdm0 : Mem
  gm : GM
  /-- The weight sets W0 and W1, and whether W1 is the active one (R137, R138). -/
  w0 : WSet
  w1 : WSet
  wact : Bool
  /-- Bands woken less than 96 ticks ago (R153). -/
  waking : BitVec 4
  /-- What rows in the array hold (R145): the last clause tick, and the bands of the row's shape. -/
  holds : List (Nat × BitVec 4)
  /-- Instruction memory halves, which is active, and the image that each was loaded with: its phase table's address and its number
  there (R17, R20, R309). -/
  im0 : List W64
  im1 : List W64
  half : Bool
  image0 : Option (Nat × Nat)
  image1 : Option (Nat × Nat)
  /-- The plan of the clause: issue ticks of its words in iteration 0, and its loops (R34, R121). -/
  plan : List Nat
  loops : List LoopPlan
  /-- The fetch cursor: next word index, and the iterations of the loops it is in, innermost first (R293). -/
  pos : Nat
  iters : List (Nat × Nat)
  queues : Vector (List QEntry) 8
  qmin : Vector Nat 8
  qcap : Vector Nat 8
  retired : Vector Nat 8
  /-- Loops that run (R121). -/
  running : List LoopRun
  /-- Whether the core has a clause in the phase, its rendezvous tick, and whether it has signed off (R9, R46, R47). -/
  takes : Bool
  rdv : Nat
  signed : Bool
  /-- It issues no more words after a fault or abort (R341). -/
  halted : Bool
  /-- Ticks frozen in this phase and since job start (R297). -/
  lag : Nat
  frozen : Nat
  /-- The failed check that freezes the current tick (R297, R298). -/
  stalled : Option Owed
  /-- Further ticks the core stays frozen for serialised requesters (R192, R297). -/
  owed : List Owed
  /-- Frozen in the current phase tick (R297). -/
  froze : Bool
  pend : List Pend
  seq : Nat
  /-- The bank and port requests, and the writes landed, in the current tick (R19, R36). -/
  claims : List Claim
  landed : List Nat
  /-- The resources in use in the tick that ended last: a host access waits for them (R286). -/
  used : List Nat
  /-- The beats of device words in flight (R292). -/
  flying : List Flying
  outb : List OutOp
  /-- Operations that later ones of this core wait for (R132): number and scope. -/
  fences : List (Nat × Scope)
  /-- The link landing buffer (R224, R292): arrivals, and whether a receiving word has taken each up. -/
  arrivals : List (Bool × LinkBeat)
  regions : List Region
  /-- Phase digest values h_0 to h_7 (R371). -/
  digest : Vector W64 8
  stalls : SMap Nat
  profile : List Snapshot
  exits : Nat
  /-- Stamp records, newest first, 32 bytes each, and how many were overwritten (R136). -/
  stamps : List (List Byte)
  stampOver : Nat
  /-- The subsoil bank's context (R312, R347). -/
  bank : Option Ctx
  /-- Bank words of WB that were poisoned when the core's live-in bytes were spilled (R348). -/
  wbSpill : List Nat
  /-- The value that the last `y.brk` that stopped the partition recorded (R135). -/
  brk : Option Nat
  deriving DecidableEq, Repr

/-! ### Phase tables (R299 to R308) -/

/-- A gate declaration (R307). -/
structure GateDecl where
  addr : Nat
  value : W64
  cond : Nat
  idle : Bool
  deriving DecidableEq, Repr

/-- A mirror ring declaration (R308). -/
structure Mirror where
  ring : Nat
  fill : Nat
  slot : Nat
  deriving DecidableEq, Repr

/-- A region list entry (R305). -/
structure RegionEnt where
  base : Nat
  size : Nat
  step : Int
  space : Nat
  mode : Nat
  op : Nat
  deriving DecidableEq, Repr

/-- An inflection entry with its tables (R301, R302, R306). -/
structure Infl where
  bound : Nat
  consts : List Nat
  coreMap : List (Nat × Nat × Nat)
  regions : List RegionEnt
  liveIns : List (Nat × Nat × Nat)
  deriving DecidableEq, Repr

/-- A phase entry (R300). -/
structure PhaseEnt where
  replayable : Bool
  preemptible : Bool
  system : Bool
  succ : List Nat
  hint : Nat
  span : Nat
  infls : List Infl
  gates : List GateDecl
  mirrors : List Mirror
  deriving DecidableEq, Repr

/-- A clause image with its loop table (R303, R304). -/
structure Image where
  words : List W64
  rdv : Nat
  loops : List (Nat × Nat × Bool × Nat × Nat × Nat)
  deriving DecidableEq, Repr

/-- A phase table with its images, as the loader read them (R299; assumption 8). -/
structure PTable where
  phases : List PhaseEnt
  first : Nat
  quarters : Nat
  images : List Image
  deriving DecidableEq, Repr

/-- A launch record (R330). -/
structure Launch where
  seq : Nat
  barrier : Bool
  prio : Nat
  detect : Bool
  ftz : Bool
  gated : Bool
  msix : Bool
  system : Bool
  vec : Nat
  ptab : Nat
  args : Nat
  cseg : Nat
  clen : Nat
  csig : Nat
  gsig : Nat
  gval : W64
  gcond : Nat
  grp : Nat
  tag : W64
  deriving DecidableEq, Repr

/-- A job (R332): its launch, its table, where it stands, its selection values, and its replays. -/
structure Job where
  id : Nat
  queue : Nat
  ridx : Nat
  launch : Launch
  table : PTable
  pidx : Nat
  infl : Nat
  phase : Nat
  z : Nat
  q : Nat
  marked : Bool
  replays : Nat
  start : Nat
  rank : Nat
  members : Nat
  hops : Nat
  /-- Complete: its csig is being decremented, at this home (R334). -/
  done : Bool
  csigHome : Option Home
  deriving DecidableEq, Repr

/-- What the slack window prepares (R310): the phase's number, its index, its inflection, the combined size and selection,
and whether it is a run of the phase just ended again. -/
structure Sel where
  phase : Nat
  pidx : Nat
  infl : Nat
  z : Nat
  q : Nat
  rerun : Bool
  deriving DecidableEq, Repr

/-! ### A partition -/

/-- A launch queue (R328); `hub` is what the hub holds of its head record: fetches made and the record accepted, and
`held` that the job of its last started record is held. -/
structure Queue where
  loc : Bool
  base : Nat
  lsize : Nat
  tail : Nat
  head : Nat
  fidx : Nat
  err : Nat
  qstate : Nat
  enable : Bool
  fetches : Nat
  head1 : Option Launch
  gateOk : Bool
  /-- The gate of the head record: its home once translated, the count of its watchdog in cycles, and since when it
  counts (R333, R345). -/
  gateHome : Option Home
  gateFrom : Option Nat
  /-- Records started and not yet completed or abandoned (R332). -/
  open_ : List Nat
  deriving DecidableEq, Repr

/-- A fault as it arises (R338, R340). -/
structure FaultInfo where
  code : Nat
  cls : Nat
  core : Option Nat
  src : Option Src
  detail : Nat
  addr : Nat
  ext : List Byte
  deriving DecidableEq, Repr

/-- The fault record (R338). -/
structure FaultRec where
  rseq : Nat
  info : FaultInfo
  replayable : Bool
  system : Bool
  banked : Bool
  phase : Nat
  pidx : Nat
  infl : Nat
  tag : W64
  queue : Nat
  ridx : Nat
  cycles : Nat
  frozen : Nat
  more : Nat
  /-- The slack-window step that faulted, for a retry (R343). -/
  step : Nat
  /-- The widx field where no word is named (R338). -/
  place : Nat
  /-- The record of a launch that has not started (R331, R333). -/
  launch : Bool
  deriving DecidableEq, Repr

/-- A cached translation (R352): virtual base, page bytes, home of the base, permissions (A, W, R), pinned. -/
structure TEntry where
  va : Nat
  size : Nat
  home : Home
  r : Bool
  w : Bool
  a : Bool
  pinned : Bool
  deriving DecidableEq, Repr

/-- What an inbound write does, and where: bytes, a signal operation of a peer's core, an accumulation of another partition's core,
an untimetabled operation of one, or a beat of its put (R267); or bytes in a core's AB through a host window (R326). -/
inductive InAct where
  | write (home : Home) (data : List (Option Byte))
  | signal (home : Home) (op : SigOp) (v : W64)
  | acc (core : Fin 96) (home : Home) (op : AccOp) (rnd : BitVec 3) (data : List (Option Byte))
  | op (core : Fin 96) (home : Home) (id : Nat)
  | beat (core : Fin 96) (id : Nat) (pieces : List (Home × Nat)) (data : List (Option Byte))
  | ab (core addr : Nat) (data : List (Option Byte))
  deriving DecidableEq, Repr

/-- Which word of this module made a write: its core, and the job, phase and clause tick of its issue. -/
structure Issued where
  core : Fin 96
  job : Nat
  phase : Nat
  tick : Nat
  deriving DecidableEq, Repr

/-- An inbound write (R267): its source, what it does, the word that made it where a core of this module did, and whether a core of
the running system phase on another module made it. -/
structure InWrite where
  src : Source
  act : InAct
  issued : Option Issued := none
  mate : Bool := false
  deriving DecidableEq, Repr

/-- Where the sequencer of a partition stands (R309). -/
inductive Seq where
  | idle
  /-- A phase runs, or drains after an abort (R341, R342). -/
  | phase
  /-- Waiting for the root to register the last sign-off (R48). -/
  | signing
  /-- Slack-window step 1 to 10 under way or awaited. -/
  | slack (step : Nat)
  /-- Stopped by a fault (R326 state 2). -/
  | stopped
  /-- Stopped by debug; precise or not (R369). -/
  | debug (precise : Bool)
  deriving DecidableEq, Repr

/-- The abort of a phase (R341): the fault, the phase tick counter at which it arose, the cycle, the first tick
counter at which the other cores issue nothing, and whether it is a debug stop. -/
structure Abort where
  info : FaultInfo
  k : Nat
  cycle : Nat
  limit : Nat
  debug : Bool
  deriving DecidableEq, Repr

/-- A beat of timetabled traffic at its stack, or a hold of an image port (R288): stack, home tick counter, core, word,
number, granules not yet served, slack and path latency in ticks, clause tick of its landing, whether it is a write, and whether it is a hold. -/
structure Beat where
  stack : Nat
  home : Nat
  core : Nat
  src : Src
  seq : Nat
  left : Nat
  slack : Nat
  path : Nat
  land : Nat
  write : Bool
  hold : Bool
  deriving DecidableEq, Repr

/-- A beat on a die's mesh (R290): its sender and word, the directed hops it has still to take, the tick counter of the
next, and the receiver, due tick and number of the beat. -/
structure MeshBeat where
  core : Nat
  src : Src
  route : List Nat
  next : Nat
  dst : Nat
  due : Nat
  index : Nat
  deriving DecidableEq, Repr

/-- What the module keeps of a journal entry beside its bytes in HBM (R370): the granule, whether it was poisoned, and the
bytes of it that atomics have written since, whose first performance stands (R369). -/
structure JEntry where
  granule : Nat
  poisoned : Bool
  kept : List Nat
  deriving DecidableEq, Repr

/-- A breakpoint register (R367). -/
abbrev Bp := W64

/-- One quarter's block; the block of a partition's lowest quarter is the partition's. -/
structure Part where
  queues : Vector Queue 64
  rngKey : Vector W64 4
  rngStage : Vector W64 4
  tktSel : BitVec 13
  /-- Key and ticket writes held while a job is started (R327): (register offset, value, selected slot). -/
  heldWrites : List (Nat × W64 × Nat)
  win : Vector W64 64
  winErr : BitVec 32
  frec : Option FaultRec
  rseq : Nat
  auto : Bool
  pend : Bool
  held : Nat
  heldJob : Option Job
  heldSel : Option Sel
  wdlim : BitVec 16
  pcap : BitVec 21
  root : Nat
  pten : Bool
  iva : Nat
  inval : List (Option Nat)
  sbase : Nat
  sval : Bool
  pbase : Nat
  pval : Bool
  dbase : Nat
  dsrc : Bool
  dbusy : Bool
  ccnt : BitVec 32
  cache : List TEntry
  /-- Deferred inbound writes in arrival order, and those that wait on their links or credits since the 256 KiB are full (R267). -/
  deferred : List InWrite
  waiting : List InWrite
  /-- Physical intervals of the running phase's R, W, RW and ACC regions (R267). -/
  guarded : List (Nat × Nat)
  seq : Seq
  job : Option Job
  /-- Jobs that ended and await their acknowledgements (R334). -/
  ended : List Job
  aging : Vector Nat 4
  served : Vector Nat 4
  /-- The selection made at step 4, none for the job's end (R310). -/
  next : Option Sel
  /-- The earliest cycle of phase tick 0: 384 after the root registered the last sign-off (R48, R311), or 240 after the
  accepting fetch (R333). -/
  soff : Nat
  /-- Gate watchdog count in cycles, cycle of its last update, and whether it counts (R345). -/
  wd : Nat
  wdFrom : Option Nat
  /-- The watchdog has expired, and a pre-empted job's contexts leave the bank first (R349). -/
  expired : Bool
  /-- Step 5 (R265): the cycle at which it began, the homes of its signal objects by gate index, and whether a write
  notification came while an evaluation was under way. -/
  from5 : Nat
  gateHomes : SMap Home
  evalAgain : Bool
  /-- Whether the evaluation under way is one of those made every 256 cycles, and the registrations on objects of the host or of
  peers that the last such one found satisfied. -/
  evalFull : Bool
  remoteOk : List (Nat × GateReg)
  /-- The cycle before which step 7 does not end (R348). -/
  least7 : Nat
  /-- Readiness of step 9: rank, phase index, inflection, cadence (R315); this module's own once it is sent. -/
  readyRanks : List (Nat × Nat × Nat × Nat)
  /-- The cadence of the start wave (R315). -/
  wave : Option Nat
  /-- Cycle at which the standby halves hold what they are being loaded with (R309). -/
  loadedAt : Nat
  progress : BitVec 32
  lastProg : Option (BitVec 32)
  stale : Nat
  /-- The phase tick machine: the tick counter k, which is the phase tick plus 16, the cycle of that tick, the cadence. -/
  base : Nat
  k : Nat
  cad : Nat
  /-- Timetabled beats at stacks, not yet served (R288), beats on the mesh (R290), and beats of torus ports: port, tick
  counter, core and word (R291). -/
  beats : List Beat
  mesh : List MeshBeat
  ports : List (Nat × Nat × Nat × Src)
  /-- The module's link counts at the start of the partition's phase (R229). -/
  blocks0 : Vector Nat 6
  bad0 : Vector Nat 6
  /-- The thermal request c_therm, its last change and the last clearing of a throttle threshold (R377). -/
  ctherm : Nat
  cthermAt : Nat
  throtClear : Nat
  abort : Option Abort
  /-- Faults met after the first in one cycle or later (R338). -/
  more : Nat
  dmode : BitVec 2
  dmodeOn : BitVec 2
  bps : Vector Bp 4
  jbase : Nat
  jsize : Nat
  dlog : Nat
  divPh : Nat
  divCore : Nat
  divEng : Nat
  jfull : Bool
  div : Bool
  journal : List JEntry
  dlogAt : Nat
  /-- Open debug features of the partition domain that are in effect (R366). -/
  dbgOn : BitVec 4
  /-- Re-execution up to this tick counter (R369). -/
  reexec : Option Nat
  skipBrk : Option (Nat × Eng × Nat)
  dstopReq : Bool
  /-- Every core of this quarter has run its start-up test since the partition's last machine check (R346). -/
  tested : Bool
  /-- A fault has stopped the job, and no phase has started since: the state register reads 2 (R357). -/
  failed : Bool
  /-- The banks hold the snapshot of the phase that runs or is about to (R312, R369). -/
  snap : Bool
  /-- Another module has stopped the group before this one came to step 9 (R315). -/
  groupStopped : Bool
  deriving DecidableEq, Repr

/-! ### The module -/

/-- An entry of the sediment record: 32 bytes (R381). -/
abbrev SedEntry := List Byte

/-- What the port's configuration space says (R7, R323): how many virtual functions, the MSI-X vectors of a function with the offsets
of its table and PBA in BAR0, the sizes of BAR0, BAR2 and BAR4 of the PF and of a VF (none: 0), and whether ATS and PASID are there. -/
structure PortCaps where
  vfs : Nat
  vectors : Nat
  table : Nat
  pba : Nat
  pfBars : List Nat
  vfBars : List Nat
  ats : Bool
  pasid : Bool
  deriving DecidableEq, Repr

/-- What the module sends to the outside. -/
inductive Output where
  /-- An MSI-X message of a function: vector, and the address and data of its table entry (R323). -/
  | msix (fn vec addr data : Nat)
  /-- A completion of a read: bytes, and whether it is marked poisoned (R268). -/
  | completion (data : List Byte) (poisoned : Bool)
  /-- Unsupported Request (R325), Request Retry Status (R360), and other answers of the standards (R7). -/
  | unsupportedRequest
  | requestRetry
  | configDone (caps : PortCaps)
  /-- The trace sink of the firmware-core debug domain, read over MCTP (R366). -/
  | traceSink (data : List Byte)
  /-- SPDM: the request's code, ERROR with UnsupportedRequest or a reply with this content (R363, R364). -/
  | spdm (code : Nat) (reply : List Byte)
  | spdmUnsupported (code : Nat)
  /-- PLDM: type, command, completion code, content (R384). -/
  | pldm (ty cmd cc : Nat) (data : List Byte)
  | mctp (cmd : Nat) (reply : List Byte)
  /-- A beat or an operation that leaves over the torus (R222, R227, R228). -/
  | torusBeat (core : Nat) (path : Path) (beat : LinkBeat)
  | peerWrite (home : Home) (data : List (Option Byte))
  | peerSignal (home : Home) (op : SigOp) (v : W64)
  | hostWrite (ba : Nat) (data : List (Option Byte))
  | readiness (p rank pidx infl cadence : Nat)
  | replayMark (p : Nat) (marked : Bool)
  | startWave (p cadence hops : Nat)
  | abortTorus (p : Nat)
  | alignBeat (core : Nat) (path : Path)
  /-- The host sees the link go down (R378). -/
  | linkDown
  deriving DecidableEq, Repr

/-- Life-cycle-dependent state of boundary scan (R7): the instruction selected. -/
inductive Jtag where
  | bypass | idcode | sample | preload | extest | clamp | highz
  deriving DecidableEq, Repr

/-- An event of the agenda: the cycle it is due, its number, and what it is. -/
structure Ev where
  cycle : Nat
  seq : Nat
  ev : Instr
  deriving DecidableEq, Repr

/-- The module's own registers and units (R326, R360 to R384). -/
structure Module where
  /-- Partitioning code of `mode` (R326). -/
  qpp : Nat
  stage : Nat
  fenced : Vector Bool 96
  qavail : Vector Bool 4
  powered : Vector Bool 8
  hubPower : Bool
  recovery : Bool
  bsel : BitVec 2
  mr : Vector (List Byte) 8
  life : LifeCycle
  nonce : BitVec 256
  dbgTok : W64
  dbgRes : BitVec 8
  openPart : BitVec 4
  openFw : BitVec 4
  recImage : SMap Byte
  /-- The trace sink of the firmware-core domain, oldest byte first (R366). -/
  sink : List Byte
  /-- SPDM messages of this connection (R363): of version, capabilities and algorithms; of digests and certificates; of
  measurements since the last signature. -/
  spdmVca : List Byte
  spdmCerts : List Byte
  spdmMeas : List Byte
  /-- The PLDM terminus ID, and the MCTP endpoint ID (R7). -/
  tid : Byte
  eid : Byte
  /-- Writes of PCIe functions into AB that wait for a bank, and what their functions have sent after them (R266, R286). -/
  posted : List InWrite
  /-- MSI-X tables and pending bits of the functions (R323). -/
  msixTable : Vector (Vector (BitVec 128) 16) 5
  msixPend : Vector (BitVec 16) 5
  /-- Images written to both flash copies by a recovery, by kind (R362). -/
  rescued : SMap (List Byte)
  jtag : Jtag
  pwrLim : BitVec 12
  cmin : BitVec 8
  p100 : BitVec 16
  p1ms : BitVec 16
  /-- The samples of the last 1 ms in thousandths of a watt, newest first (R373). -/
  samples : List Nat
  cpow : Nat
  /-- Cycles of its last change and of its last rise (R373). -/
  cpowAt : Option Nat
  riseAt : Option Nat
  lowFrom : Option Nat
  overFrom : Option Nat
  tsrc : Bool
  coreThr : W64
  baseThr : W64
  coreTemp : List Nat
  baseTemp : List Nat
  /-- Thresholds set, per diode: warn, throttle, trip (R375). -/
  coreSet : Vector (Bool × Bool × Bool) 96
  baseSet : Vector (Bool × Bool × Bool) 48
  hbmCode : Vector Nat 12
  /-- Refresh rate of each stack, 1, 2 or 4 times, and how many refresh slots it has taken (R289, R376). -/
  refresh : Vector Nat 12
  slots : Vector Nat 12
  uvEn : BitVec 16
  uvDis : BitVec 16
  uvLim : BitVec 4
  uvOff : Vector Nat 16
  /-- Corrected errors of each domain in the last 10 s (R379). -/
  uvErr : Vector Nat 16
  /-- Sediment ring: entries with the newest first, at most 4,096, and the next sequence number (R381). -/
  sed : List SedEntry
  sedHead : Nat
  sedSel : W64
  sedData : List Byte
  /-- Copies in flash by slot, how many were made, and the copy under way: its snapshot, and the fatal events that wait for
  it (R382). -/
  flash : SMap (List SedEntry)
  flashed : Nat
  flashBusy : Bool
  flashSnap : List SedEntry
  flashWait : Nat
  /-- A thermal trip has shut the module down but for its hub (R378). -/
  tripped : Bool
  /-- The cycle at which dies and stacks lose power after it. -/
  offAt : Option Nat
  telSel : W64
  telData : List Byte
  hbCnt : BitVec 32
  /-- Cycle of the last increment (R383). -/
  hbAt : Nat
  pldmEvents : List (Nat × Nat)
  tickets : SMap W64
  jobSeq : Nat
  opSeq : Nat
  /-- Corrected blocks, and blocks not correctable, per torus port since power good (R229). -/
  linkBlocks : Vector Nat 6
  linkBad : Vector Nat 6
  deriving DecidableEq, Repr

/-- The issue slot: the core, engine, word index, word and clause tick that `exec` acts for. -/
structure Slot where
  core : Fin 96
  eng : Eng
  widx : Nat
  word : W64
  tick : Nat
  deriving DecidableEq, Repr

/-- The whole machine. -/
structure State where
  cores : Vector Core 96
  parts : Vector Part 4
  mod : Module
  /-- HBM of the module, physical addresses (R1, R21, R351). -/
  hbm : Mem
  /-- What has been written to host memory, and to peer modules' HBM by key. -/
  host : SMap Byte
  peer : SMap (Option Byte)
  /-- Cycles of the 800 MHz clock, and the cycle of the last power good (R4, R381). -/
  now : Nat
  pgood : Nat
  /-- The model's own: future events, what left the module, the issue slot, each core as it stood before its first word
  of the tick (R341), the counter of free values. -/
  agenda : List Ev
  evSeq : Nat
  outputs : List Output
  slot : Slot
  undo : List (Nat × Core)
  fresh : Nat
  deriving DecidableEq, Repr

/-- Why a step can stop the model. -/
inductive Fault where
  /-- Raised by `step` when the module has no power (R378) and nothing is due that could restore it: nothing of the
  machine can take a step. Safe: no claim about a running module follows from it. -/
  | noPower
  deriving DecidableEq, Repr

/-- Why an instruction has no meaning in the model. -/
inductive Refusal where
  /-- Raised by an arm of `exec` whose instruction the model does not give a meaning. Safe: it allows nothing. -/
  | notModelled (mnemonic : String)
  deriving DecidableEq, Repr

/-! ### Reset -/

/-- The control registers at the start of a job (R32, R137, R310). -/
def Ctl.reset : Ctl :=
  { fflags := 0, ftrap := 0, round := 0, elastic := false, detect := false, cadence := 0, shape := 15, phase := 0,
    inflect := 0, size := 0, sel := 0, expSize := false, expSel := false }

/-- The registers of a core at the start of a job, and in this model after power on (R27 to R30, R137; assumption 2). -/
def Regs.reset : Regs :=
  { s := Vector.replicate 32 (some 0), p := (Vector.replicate 16 ⟨false, false⟩).set 0 ⟨true, false⟩,
    a := Vector.replicate 16 ⟨0, 0, 0, 0⟩, k := Vector.replicate 8 ⟨0, 0⟩, q := Vector.replicate 32 0,
    vm := Vector.replicate 8 0, sem := Vector.replicate 32 0, ctl := Ctl.reset, tok := Vector.replicate 6 0,
    gates := [], feed := 0, beta := 0, bands := 15 }

/-- The reset values of a context record (R234). -/
def GCtx.reset : GCtx :=
  { image := 0, bound := false, dead := false, mark := false, state := 0, top := 0x4000, depth := 0, mstate := 0,
    mtop := 0x4000, mdepth := 0, steps := 0, vcode := 0, dmax := 0, pmax := 0, umax := 0, check := 0 }

/-- GM at the start of a job (R236). -/
def GM.reset : GM :=
  { nodes := [], counts := [], ctx := Vector.replicate 64 GCtx.reset, head := 0, free := 16384, queue := [],
    qhead := 0, marks := [] }

/-- An empty weight set (R138). -/
def WSet.empty : WSet := { fmt := none, rows := [], exps := [], tag := 0, ring := none }

/-- A core at power on: buffers and MRF poisoned, nothing in flight. -/
def Core.reset : Core :=
  { regs := Regs.reset, mrf := [], ab := Mem.empty, wb := Mem.empty, sdm := Mem.empty, sdm0 := Mem.empty,
    gm := GM.reset, w0 := WSet.empty, w1 := WSet.empty, wact := false, waking := 0, holds := [], im0 := [], im1 := [],
    half := false, image0 := none, image1 := none, plan := [], loops := [], pos := 0, iters := [],
    queues := Vector.replicate 8 [], qmin := Vector.replicate 8 8, qcap := Vector.replicate 8 48,
    retired := Vector.replicate 8 0, running := [], takes := false, rdv := 0, signed := false, halted := false,
    lag := 0, frozen := 0, stalled := none, owed := [], froze := false, pend := [], seq := 0, claims := [], landed := []
    used := [], flying := [], outb := [], fences := [],
    arrivals := [], regions := [], digest := Vector.replicate 8 0, stalls := [], profile := [], exits := 0,
    stamps := [], stampOver := 0, bank := none, wbSpill := [], brk := none }

/-- A launch queue at reset (R328). -/
def Queue.reset : Queue :=
  { loc := false, base := 0, lsize := 4, tail := 0, head := 0, fidx := 0, err := 0, qstate := 0, enable := false,
    fetches := 0, head1 := none, gateOk := false, gateHome := none, gateFrom := none, open_ := [] }

/-- A quarter's block at reset (R326, R328, R344, R367). -/
def Part.reset : Part :=
  { queues := Vector.replicate 64 Queue.reset, rngKey := Vector.replicate 4 0, rngStage := Vector.replicate 4 0,
    tktSel := 0, heldWrites := [], win := Vector.replicate 64 0, winErr := 0, frec := none, rseq := 0, auto := false,
    pend := false, held := 0, heldJob := none, heldSel := none, wdlim := 1000, pcap := 0x100000, root := 0,
    pten := false, iva := 0, inval := [], sbase := 0, sval := false, pbase := 0, pval := false, dbase := 0,
    dsrc := false, dbusy := false, ccnt := 0, cache := [], deferred := [], waiting := [], guarded := [], seq := .idle, job := none
    ended := []
    aging := Vector.replicate 4 0, served := Vector.replicate 4 63, next := none, soff := 0, wd := 0,
    wdFrom := none, expired := false, from5 := 0, gateHomes := [], evalAgain := false, evalFull := true, remoteOk := []
    least7 := 0, readyRanks := [], wave := none, loadedAt := 0, progress := 0, lastProg := none, stale := 0, base := 0,
    k := 0, cad := 1, beats := [], mesh := [], ports := []
    blocks0 := Vector.replicate 6 0, bad0 := Vector.replicate 6 0, ctherm := 1, cthermAt := 0, throtClear := 0, abort := none, more := 0,
    dmode := 0, dmodeOn := 0, bps := Vector.replicate 4 0, jbase := 0, jsize := 0, dlog := 0,
    divPh := 0, divCore := 0, divEng := 0, jfull := false, div := false, journal := [], dlogAt := 0, dbgOn := 0,
    reexec := none, skipBrk := none, dstopReq := false, tested := true, failed := false, snap := false
    groupStopped := false }

/-- The module's registers at power good (R326, R360, R367, R372). -/
def Module.reset : Module :=
  { qpp := 0, stage := 0, fenced := Vector.replicate 96 false, qavail := Vector.replicate 4 false,
    powered := Vector.replicate 8 false, hubPower := true, recovery := false, bsel := 0,
    mr := Vector.replicate 8 (List.replicate 64 0), life := .field, nonce := Config.random 0, dbgTok := 0, dbgRes := 0,
    openPart := 0, openFw := 0, recImage := [], sink := [], spdmVca := [], spdmCerts := [], spdmMeas := [], tid := 0, eid := 0
    posted := []
    msixTable := Vector.replicate 5 (Vector.replicate 16 (BitVec.ofNat 128 (2 ^ 96))), msixPend := Vector.replicate 5 0
    rescued := [], jtag := .idcode, pwrLim := 2200, cmin := 0, p100 := 0, p1ms := 0, samples := [],
    cpow := 1, cpowAt := none, riseAt := none, lowFrom := none, overFrom := none, tsrc := true, coreThr := 0x506E645F,
    baseThr := 0x50695F55, coreTemp := List.replicate 96 0, baseTemp := List.replicate 48 0,
    coreSet := Vector.replicate 96 (false, false, false), baseSet := Vector.replicate 48 (false, false, false),
    hbmCode := Vector.replicate 12 0, refresh := Vector.replicate 12 1, slots := Vector.replicate 12 0
    uvEn := 0, uvDis := 0, uvLim := 8, uvOff := Vector.replicate 16 0,
    uvErr := Vector.replicate 16 0, sed := [], sedHead := 0, sedSel := 0, sedData := List.replicate 32 0, flash := [],
    flashed := 0, flashBusy := false, flashSnap := [], flashWait := 0, tripped := false, offAt := none
    telSel := 0, telData := List.replicate 2048 0, hbCnt := 0,
    hbAt := 0, pldmEvents := [], tickets := [], jobSeq := 0, opSeq := 0,
    linkBlocks := Vector.replicate 6 0, linkBad := Vector.replicate 6 0 }

/-- The machine right after reset: power is good at cycle 0, and start-up has not begun (R360). -/
def State.reset : State :=
  { cores := Vector.replicate 96 Core.reset, parts := Vector.replicate 4 Part.reset, mod := Module.reset,
    hbm := Mem.empty, host := [], peer := [], now := 0, pgood := 0, agenda := [⟨0, 0, .powerGood⟩], evSeq := 1,
    outputs := [], slot := ⟨0, .S, 0, 0, 0⟩, undo := [], fresh := 1 }

end Sys2Proof.Machine
end

