-- ==== Sys2Proof/Machine/Bits.lean ====
section
/-! DEFINITION. Bits, bytes and byte order (R6), sparse maps in one canonical form, CRC-32C (R7) and the ChaCha20 block
function (R7, R246). -/

namespace Sys2Proof.Machine

/-! ### Integers and bit strings -/

/-- `w` read as two's complement of `n` bits. -/
def sint (n w : Nat) : Int := if w % 2 ^ n < 2 ^ (n - 1) then (w % 2 ^ n : Nat) else (w % 2 ^ n : Nat) - (2 ^ n : Nat)

/-- `bits(n, v)` of R75: v modulo 2^n. -/
def ubits (n : Nat) (v : Int) : Nat := (v % (2 ^ n : Nat)).toNat

/-- Saturation to the range of an n-bit two's complement number. -/
def satS (n : Nat) (v : Int) : Int := max (-(2 ^ (n - 1) : Nat)) (min ((2 ^ (n - 1) : Nat) - 1) v)

/-- Bits hi to lo of a number. -/
def fld (w hi lo : Nat) : Nat := w / 2 ^ lo % 2 ^ (hi + 1 - lo)

/-- Floor of log2; 0 for 0. -/
def ilog2 (n : Nat) : Nat := Nat.log2 n

/-- Number of one bits among the low `n`. -/
def popCount : Nat → Nat → Nat
  | 0, _ => 0
  | n + 1, w => w % 2 + popCount n (w / 2)

/-- Ceiling division. -/
def cdiv (a b : Nat) : Nat := (a + b - 1) / b

/-! ### Bytes (little-endian, R6) -/

/-- The n low bytes of a number. -/
def leBytes : Nat → Nat → List Byte
  | 0, _ => []
  | n + 1, w => BitVec.ofNat 8 w :: leBytes n (w / 256)

/-- The number of little-endian bytes. -/
def leNat : List Byte → Nat
  | [] => 0
  | b :: bs => b.toNat + 256 * leNat bs

/-- The number of bytes of which none may be poisoned. -/
def leNat? : List (Option Byte) → Option Nat
  | [] => some 0
  | none :: _ => none
  | some b :: bs => (leNat? bs).map fun n => b.toNat + 256 * n

/-- Consecutive addresses given to bytes. -/
def place {α : Type} : Nat → List α → List (Nat × α)
  | _, [] => []
  | a, b :: bs => (a, b) :: place (a + 1) bs

/-- Bytes `lo` to `lo + n − 1` of a list. -/
def slice {α : Type} (bs : List α) (lo n : Nat) : List α := (bs.drop lo).take n

/-- A list cut into pieces of n, `k` of them. -/
def chunks {α : Type} (n : Nat) : Nat → List α → List (List α)
  | 0, _ => []
  | k + 1, bs => bs.take n :: chunks n k (bs.drop n)

/-! ### Sparse maps: keys strictly rising -/

/-- What a map holds at a key. -/
def mapGet {α : Type} : SMap α → Nat → Option α
  | [], _ => none
  | (k, v) :: m, x => if x < k then none else if x = k then some v else mapGet m x

/-- A map with a key set. -/
def mapSet {α : Type} : SMap α → Nat → α → SMap α
  | [], x, v => [(x, v)]
  | (k, w) :: m, x, v =>
    if x < k then (x, v) :: (k, w) :: m else if x = k then (x, v) :: m else (k, w) :: mapSet m x v

/-- A map with a key removed. -/
def mapDel {α : Type} : SMap α → Nat → SMap α
  | [], _ => []
  | (k, w) :: m, x => if x < k then (k, w) :: m else if x = k then m else (k, w) :: mapDel m x

/-- A map in which a key holds `v`, or is absent where that is what absent keys read as. -/
def mapPut {α : Type} [DecidableEq α] (dflt : α) (m : SMap α) (x : Nat) (v : α) : SMap α :=
  if v = dflt then mapDel m x else mapSet m x v

/-- Whether a rising list holds a number. -/
def setHas : List Nat → Nat → Bool
  | [], _ => false
  | k :: s, x => if x < k then false else if x = k then true else setHas s x

/-- A rising list with a number added. -/
def setAdd : List Nat → Nat → List Nat
  | [], x => [x]
  | k :: s, x => if x < k then x :: k :: s else if x = k then k :: s else k :: setAdd s x

/-- A rising list with a number removed. -/
def setDel : List Nat → Nat → List Nat
  | [], _ => []
  | k :: s, x => if x < k then k :: s else if x = k then s else k :: setDel s x

/-- Keys strictly rising. -/
def mapSorted {α : Type} : SMap α → Bool
  | [] => true
  | [_] => true
  | (a, _) :: (b, v) :: m => decide (a < b) && mapSorted ((b, v) :: m)

/-- Numbers strictly rising. -/
def setSorted : List Nat → Bool
  | [] => true
  | [_] => true
  | a :: b :: s => decide (a < b) && setSorted (b :: s)

/-- The form of a memory: addresses strictly rising, no byte listed that an unlisted one reads as, marks rising. -/
def Mem.wf (m : Mem) : Bool := mapSorted m.cells && m.cells.all (fun c => c.2 != 0) && setSorted m.marks

/-- The n numbers from `a`. -/
def range' : Nat → Nat → List Nat
  | _, 0 => []
  | a, n + 1 => a :: range' (a + 1) n

/-- The n-th element, or a default. -/
def nth {α : Type} (l : List α) (n : Nat) (d : α) : α := (l[n]?).getD d

/-! ### CRC-32C (R7): polynomial 0x1EDC6F41 reflected, initial value and final XOR all ones -/

/-- Eight steps of the reflected shift register. -/
def crcByte : Nat → Nat → Nat
  | 0, c => c
  | n + 1, c => crcByte n (if c % 2 = 1 then (c / 2) ^^^ 0x82F63B78 else c / 2)

/-- The register after the bytes. -/
def crcRun : List Byte → Nat → Nat
  | [], c => c
  | b :: bs, c => crcRun bs (crcByte 8 (c ^^^ b.toNat))

/-- CRC-32C of a byte string. -/
def crc32c (bs : List Byte) : Nat := crcRun bs 0xFFFFFFFF ^^^ 0xFFFFFFFF

/-! ### ChaCha20 block function (R7, R246; the block function itself is RFC 8439's, assumption 9) -/

/-- Rotate a 32-bit word left. -/
def rotl32 (x n : Nat) : Nat := (x * 2 ^ n % 2 ^ 32) ||| (x / 2 ^ (32 - n))

/-- A quarter round on four words. -/
def chachaQuarter (a b c d : Nat) : Nat × Nat × Nat × Nat :=
  let a := (a + b) % 2 ^ 32
  let d := rotl32 (d ^^^ a) 16
  let c := (c + d) % 2 ^ 32
  let b := rotl32 (b ^^^ c) 12
  let a := (a + b) % 2 ^ 32
  let d := rotl32 (d ^^^ a) 8
  let c := (c + d) % 2 ^ 32
  let b := rotl32 (b ^^^ c) 7
  (a, b, c, d)

/-- A quarter round on the words at four places of the state. -/
def chachaAt (s : List Nat) (i j k l : Nat) : List Nat :=
  let (a, b, c, d) := chachaQuarter (nth s i 0) (nth s j 0) (nth s k 0) (nth s l 0)
  (((s.set i a).set j b).set k c).set l d

/-- A column round and a diagonal round. -/
def chachaDouble (s : List Nat) : List Nat :=
  let s := chachaAt (chachaAt (chachaAt (chachaAt s 0 4 8 12) 1 5 9 13) 2 6 10 14) 3 7 11 15
  chachaAt (chachaAt (chachaAt (chachaAt s 0 5 10 15) 1 6 11 12) 2 7 8 13) 3 4 9 14

/-- Ten double rounds are the 20 rounds. -/
def chachaRounds : Nat → List Nat → List Nat
  | 0, s => s
  | n + 1, s => chachaRounds n (chachaDouble s)

/-- The 16 words of a block, in serial order. -/
def chachaBlock (key : List Nat) (counter : Nat) (nonce : List Nat) : List Nat :=
  let s := [0x61707865, 0x3320646E, 0x79622D32, 0x6B206574] ++ key ++ [counter % 2 ^ 32] ++ nonce
  List.zipWith (fun a b => (a + b) % 2 ^ 32) (chachaRounds 10 s) s

/-- The random word of a slot and ticket under a key of eight 32-bit words (R246). -/
def randomWord (key : List Nat) (slot ticket : Nat) : Nat :=
  let nonce := [slot % 65536, (ticket / 2 ^ 36) % 2 ^ 32, (ticket / 2 ^ 36) / 2 ^ 32]
  nth (chachaBlock key (ticket / 16 % 2 ^ 32) nonce) (ticket % 16) 0

end Sys2Proof.Machine
end

