-- ==== Sys2Proof/Machine/Float.lean ====
section
/-! DEFINITION. The IEEE formats and their arithmetic, exactly (R76 to R78, R86 to R91): values are unpacked to exact
dyadic numbers, computed without error and rounded once. Bit patterns are natural numbers. -/

namespace Sys2Proof.Machine

/-- The five flags in the order of `ctl.fflags` (R32): invalid 16, divide-by-zero 8, overflow 4, underflow 2,
inexact 1. -/
abbrev Flags := BitVec 5

def fInvalid : Flags := 16
def fDivZero : Flags := 8
def fOverflow : Flags := 4
def fUnderflow : Flags := 2
def fInexact : Flags := 1

/-- A rounding mode of R86, stochastic with its random word (R87). -/
inductive RMode where
  | rne | rtz | rup | rdn | rmm
  | sr (w : Nat)
  deriving DecidableEq, Repr

/-- The mode of `ctl.round` where the instruction is no narrowing conversion: 5 acts as RNE (R86, R109). -/
def modeOfCtl (r : Nat) : RMode :=
  match r with
  | 1 => .rtz | 2 => .rup | 3 => .rdn | 4 => .rmm | _ => .rne

/-- An IEEE format: exponent bits and fraction bits (R76). -/
structure FFmt where
  eb : Nat
  fb : Nat
  deriving DecidableEq, Repr

def FFmt.f16 : FFmt := ⟨5, 10⟩
def FFmt.bf16 : FFmt := ⟨8, 7⟩
def FFmt.f32 : FFmt := ⟨8, 23⟩
def FFmt.f64 : FFmt := ⟨11, 52⟩

def FFmt.bias (F : FFmt) : Nat := 2 ^ (F.eb - 1) - 1
/-- Exponent of the least normal number. -/
def FFmt.emin (F : FFmt) : Int := 1 - (F.bias : Int)
/-- Exponent of the last place of a subnormal. -/
def FFmt.qmin (F : FFmt) : Int := F.emin - F.fb
/-- +∞, the largest finite magnitude, and the default NaN (R76). -/
def FFmt.inf (F : FFmt) : Nat := (2 ^ F.eb - 1) * 2 ^ F.fb
def FFmt.huge (F : FFmt) : Nat := F.inf - 1
def FFmt.dnan (F : FFmt) : Nat := F.inf + 2 ^ (F.fb - 1)
def FFmt.signBit (F : FFmt) : Nat := 2 ^ (F.eb + F.fb)
/-- A pattern with its sign. -/
def FFmt.withSign (F : FFmt) (s : Bool) (b : Nat) : Nat := if s then b + F.signBit else b

/-- An unpacked value: NaN with sign, quiet bit and payload (the fraction without the quiet bit), infinity, or the
finite number ±m × 2^e. -/
inductive FVal where
  | nan (s quiet : Bool) (payload : Nat)
  | inf (s : Bool)
  | fin (s : Bool) (m : Nat) (e : Int)
  deriving DecidableEq, Repr

/-- R76: the value of a pattern. -/
def FFmt.unpack (F : FFmt) (b : Nat) : FVal :=
  let s := b / F.signBit % 2 == 1
  let x := b / 2 ^ F.fb % 2 ^ F.eb
  let f := b % 2 ^ F.fb
  if x = 2 ^ F.eb - 1 then
    if f = 0 then .inf s else .nan s (decide (2 ^ (F.fb - 1) ≤ f)) (f % 2 ^ (F.fb - 1))
  else if x = 0 then .fin s f F.qmin
  else .fin s (f + 2 ^ F.fb) ((x : Int) - F.bias - F.fb)

def FVal.isNan : FVal → Bool
  | .nan .. => true
  | _ => false
def FVal.isSnan : FVal → Bool
  | .nan _ q _ => !q
  | _ => false
def FVal.isZero : FVal → Bool
  | .fin _ 0 _ => true
  | _ => false
def FVal.sign : FVal → Bool
  | .nan s .. => s
  | .inf s => s
  | .fin s .. => s
def FVal.neg : FVal → FVal
  | .nan s q p => .nan (!s) q p
  | .inf s => .inf (!s)
  | .fin s m e => .fin (!s) m e

/-- Whether a pattern is subnormal. -/
def FFmt.isSub (F : FFmt) (b : Nat) : Bool := b / 2 ^ F.fb % 2 ^ F.eb == 0 && b % 2 ^ F.fb != 0

/-! ### Rounding (R86 to R88) -/

/-- Whether to round the magnitude N/D with quotient q and remainder r up, for a number of sign s. -/
def roundUp (md : RMode) (s : Bool) (q r D : Nat) : Bool :=
  if r = 0 then false
  else match md with
    | .rne => decide (D < 2 * r) || (2 * r == D && q % 2 == 1)
    | .rtz => false
    | .rup => !s
    | .rdn => s
    | .rmm => decide (D ≤ 2 * r)
    | .sr w => if s then decide ((D - r) * 2 ^ 32 ≤ w * D) else decide (w * D < r * 2 ^ 32)

/-- The magnitude N/D rounded to an integer, and whether it was inexact. -/
def roundQuot (md : RMode) (s : Bool) (N D : Nat) : Nat × Bool :=
  let q := N / D
  let r := N % D
  (if roundUp md s q r D then q + 1 else q, r != 0)

/-- floor(log2(n/d)) for positive n and d. -/
def flog2 (n d : Nat) : Int :=
  let l : Int := (ilog2 n : Int) - ilog2 d
  if 0 ≤ l then (if n < d * 2 ^ l.toNat then l - 1 else l)
  else (if n * 2 ^ (-l).toNat < d then l - 1 else l)

/-- n/d × 2^e as a quotient of naturals. -/
def scaleQ (n d : Nat) (e : Int) : Nat × Nat :=
  if 0 ≤ e then (n * 2 ^ e.toNat, d) else (n, d * 2 ^ (-e).toNat)

/-- R88: what an overflow rounds to. -/
def FFmt.overflow (F : FFmt) (md : RMode) (s : Bool) : Nat :=
  F.withSign s (match md with
    | .rtz => F.huge
    | .rup => if s then F.huge else F.inf
    | .rdn => if s then F.inf else F.huge
    | _ => F.inf)

/-- RoundToFormat of the number ±(n/d) × 2^e (n positive) into an IEEE format, with its flags; tininess is detected
after rounding (R88). -/
def FFmt.round (F : FFmt) (md : RMode) (s : Bool) (n d : Nat) (e : Int) : Nat × Flags :=
  let l := flog2 n d + e
  let q := max (l - F.fb) F.qmin
  let (N, D) := scaleQ n d (e - q)
  let (m, inexact) := roundQuot md s N D
  let nx : Flags := if inexact then fInexact else 0
  let (U, V) := scaleQ n d (e - (l - F.fb))
  let tiny := decide (l < F.emin) && !((roundQuot md s U V).1 == 2 ^ (F.fb + 1) && l + 1 == F.emin)
  let uf : Flags := if tiny && inexact then fUnderflow else 0
  if m = 0 then (F.withSign s 0, nx ||| uf)
  else
    let m' := if m = 2 ^ (F.fb + 1) then 2 ^ F.fb else m
    let q' := if m = 2 ^ (F.fb + 1) then q + 1 else q
    if m' < 2 ^ F.fb then (F.withSign s m', nx ||| uf)
    else
      let x := q' + F.fb + F.bias
      if x ≥ (2 ^ F.eb - 1 : Nat) then (F.overflow md s, fOverflow ||| fInexact)
      else (F.withSign s (x.toNat * 2 ^ F.fb + (m' - 2 ^ F.fb)), nx ||| uf)

/-- The exact integer v × 2^e rounded; `sz` is the sign of an exact zero. -/
def FFmt.roundInt (F : FFmt) (md : RMode) (v : Int) (e : Int) (sz : Bool) : Nat × Flags :=
  if v = 0 then (F.withSign sz 0, 0) else F.round md (decide (v < 0)) v.natAbs 1 e

/-- The signed integer of a finite value at a common exponent `e0`. -/
def alignTo (s : Bool) (m : Nat) (e e0 : Int) : Int :=
  let v : Int := ((m * 2 ^ (e - e0).toNat : Nat) : Int)
  if s then -v else v

/-! ### NaNs (R77) -/

/-- A NaN quieted and fitted to the result format: the payload keeps its most significant bits. -/
def FFmt.fitNan (F : FFmt) (srcFb : Nat) (s : Bool) (payload : Nat) : Nat :=
  let p := if srcFb ≤ F.fb then payload * 2 ^ (F.fb - srcFb) else payload / 2 ^ (srcFb - F.fb)
  F.withSign s (F.inf + 2 ^ (F.fb - 1) + p % 2 ^ (F.fb - 1))

/-- R77: the first NaN operand in order, else the default NaN; `srcFb` is the fraction width of the operands. -/
def FFmt.nanOf (F : FFmt) (srcFb : Nat) : List FVal → Nat
  | [] => F.dnan
  | .nan s _ p :: _ => F.fitNan srcFb s p
  | _ :: vs => FFmt.nanOf F srcFb vs

/-- Invalid for a signalling NaN among the operands. -/
def snanFlag (vs : List FVal) : Flags := if vs.any FVal.isSnan then fInvalid else 0

/-! ### Flush-to-zero (R78) -/

/-- A subnormal operand as a zero of its sign, where flushing applies. -/
def FFmt.flushIn (F : FFmt) (ftz : Bool) (b : Nat) : Nat :=
  if ftz && F.eb + F.fb == 15 && F.isSub b then F.withSign (b / F.signBit % 2 == 1) 0 else b

/-- A subnormal result as a zero of its sign, raising underflow and inexact. -/
def FFmt.flushOut (F : FFmt) (ftz : Bool) (r : Nat × Flags) : Nat × Flags :=
  if ftz && F.eb + F.fb == 15 && F.isSub r.1 then
    (F.withSign (r.1 / F.signBit % 2 == 1) 0, r.2 ||| fUnderflow ||| fInexact)
  else r

/-! ### Operations on patterns, one rounding each (R91, R114, R165) -/

/-- A × B + C, all exact, rounded once. With `C` none it is A × B. A zero times an infinity is invalid beside a quiet NaN too
(assumption 121). -/
def FFmt.fmaVal (F : FFmt) (md : RMode) (a b : FVal) (c : Option FVal) : Nat × Flags :=
  let ops := a :: b :: c.toList
  let inv := match a, b with
    | .inf _, .fin _ 0 _ | .fin _ 0 _, .inf _ => true
    | _, _ => false
  if ops.any FVal.isNan then (F.nanOf F.fb ops, snanFlag ops ||| (if inv then fInvalid else 0))
  else if inv then (F.dnan, fInvalid)
  else
    let s := a.sign != b.sign
    match a, b, c with
    | .fin _ ma ea, .fin _ mb eb, none =>
      if ma * mb = 0 then (F.withSign s 0, 0) else F.round md s (ma * mb) 1 (ea + eb)
    | .fin _ ma ea, .fin _ mb eb, some (.fin sc mc ec) =>
      let e := ea + eb
      let e0 := min e ec
      let v := alignTo s (ma * mb) e e0 + alignTo sc mc ec e0
      let sz := if ma * mb = 0 ∧ mc = 0 then (if s == sc then s else md == .rdn) else md == .rdn
      F.roundInt md v e0 sz
    | _, _, none => (F.withSign s F.inf, 0)
    | _, _, some (.inf sc) =>
      match a, b with
      | .fin .., .fin .. => (F.withSign sc F.inf, 0)
      | _, _ => if s == sc then (F.withSign s F.inf, 0) else (F.dnan, fInvalid)
    | _, _, some _ => (F.withSign s F.inf, 0)

/-- A + B. -/
def FFmt.addVal (F : FFmt) (md : RMode) (a b : FVal) : Nat × Flags :=
  if a.isNan || b.isNan then (F.nanOf F.fb [a, b], snanFlag [a, b])
  else match a, b with
    | .fin sa ma ea, .fin sb mb eb =>
      let e0 := min ea eb
      let v := alignTo sa ma ea e0 + alignTo sb mb eb e0
      let sz := if ma = 0 ∧ mb = 0 then (if sa == sb then sa else md == .rdn) else md == .rdn
      F.roundInt md v e0 sz
    | .inf sa, .inf sb => if sa == sb then (F.withSign sa F.inf, 0) else (F.dnan, fInvalid)
    | .inf s, _ | _, .inf s => (F.withSign s F.inf, 0)
    | _, _ => (F.dnan, 0)

/-- A ÷ B (R114). -/
def FFmt.divVal (F : FFmt) (md : RMode) (a b : FVal) : Nat × Flags :=
  let s := a.sign != b.sign
  if a.isNan || b.isNan then (F.nanOf F.fb [a, b], snanFlag [a, b])
  else match a, b with
    | .inf _, .inf _ => (F.dnan, fInvalid)
    | .inf _, _ => (F.withSign s F.inf, 0)
    | _, .inf _ => (F.withSign s 0, 0)
    | .fin _ ma ea, .fin _ mb eb =>
      if mb = 0 then (if ma = 0 then (F.dnan, fInvalid) else (F.withSign s F.inf, fDivZero))
      else if ma = 0 then (F.withSign s 0, 0)
      else F.round md s ma mb (ea - eb)
    | _, _ => (F.dnan, 0)

/-- Floor of the square root, by bisection on the bits from the top. -/
def isqrtGo : Nat → Nat → Nat → Nat
  | 0, _, r => r
  | k + 1, n, r => isqrtGo k n (if (r + 2 ^ k) * (r + 2 ^ k) ≤ n then r + 2 ^ k else r)

def isqrt (n : Nat) : Nat := isqrtGo (ilog2 n / 2 + 1) n 0

/-- m × 2^e (e even) as a root with 2·fb + 8 spare bits and a sticky bit below: a number that rounds as the root. -/
def sqrtSticky (F : FFmt) (m : Nat) (e : Int) : Nat × Int :=
  let (m, e) := if e % 2 = 0 then (m, e) else (2 * m, e - 1)
  let k := 2 * F.fb + 8
  let n := m * 2 ^ (2 * k)
  let r := isqrt n
  (2 * r + (if r * r = n then 0 else 1), e / 2 - k - 1)

/-- √A (R114, R185). -/
def FFmt.sqrtVal (F : FFmt) (md : RMode) (a : FVal) : Nat × Flags :=
  match a with
  | .nan .. => (F.nanOf F.fb [a], snanFlag [a])
  | .inf false => (F.inf, 0)
  | .inf true => (F.dnan, fInvalid)
  | .fin s 0 _ => (F.withSign s 0, 0)
  | .fin true _ _ => (F.dnan, fInvalid)
  | .fin false m e =>
    let (r, x) := sqrtSticky F m e
    F.round md false r 1 x

/-- How two values that are not NaN compare, as the sign of A − B. -/
def cmpVal : FVal → FVal → Int
  | .inf sa, .inf sb => if sa == sb then 0 else if sa then -1 else 1
  | .inf s, _ => if s then -1 else 1
  | _, .inf s => if s then 1 else -1
  | .fin sa ma ea, .fin sb mb eb =>
    let e0 := min ea eb
    let v := alignTo sa ma ea e0 - alignTo sb mb eb e0
    if v < 0 then -1 else if v = 0 then 0 else 1
  | _, _ => 0

/-- Minimum and maximum of IEEE 754-2019 on patterns (R77): −0 is less than +0, a NaN gives a NaN. -/
def FFmt.minMax (F : FFmt) (isMax : Bool) (a b : Nat) : Nat × Flags :=
  let va := F.unpack a
  let vb := F.unpack b
  if va.isNan || vb.isNan then (F.nanOf F.fb [va, vb], snanFlag [va, vb])
  else
    let c := if va.isZero && vb.isZero then (if va.sign == vb.sign then 0 else if va.sign then -1 else 1)
      else cmpVal va vb
    (if (if isMax then decide (0 ≤ c) else decide (c ≤ 0)) then a else b, 0)

/-- A compare of R115: the relation, and its flags. -/
def FFmt.compare (F : FFmt) (cc : Cc) (a b : Nat) : Bool × Flags :=
  let va := F.unpack a
  let vb := F.unpack b
  if va.isNan || vb.isNan then
    let sig : Flags := match cc with
      | .lt | .ge => fInvalid
      | _ => snanFlag [va, vb]
    (match cc with | .ne | .uo => true | _ => false, sig)
  else
    let c := cmpVal va vb
    (match cc with
      | .eq => c == 0 | .ne => c != 0 | .lt => decide (c < 0) | .ge => decide (0 ≤ c) | _ => false, 0)

/-! ### Operations with flushing, on patterns -/

def FFmt.add (F : FFmt) (md : RMode) (ftz : Bool) (a b : Nat) : Nat × Flags :=
  F.flushOut ftz (F.addVal md (F.unpack (F.flushIn ftz a)) (F.unpack (F.flushIn ftz b)))
/-- A − B: B's sign is inverted, but a NaN keeps its own (R77). -/
def FFmt.sub (F : FFmt) (md : RMode) (ftz : Bool) (a b : Nat) : Nat × Flags :=
  let vb := F.unpack (F.flushIn ftz b)
  F.flushOut ftz (F.addVal md (F.unpack (F.flushIn ftz a)) (if vb.isNan then vb else vb.neg))
def FFmt.mul (F : FFmt) (md : RMode) (ftz : Bool) (a b : Nat) : Nat × Flags :=
  F.flushOut ftz (F.fmaVal md (F.unpack (F.flushIn ftz a)) (F.unpack (F.flushIn ftz b)) none)
def FFmt.fma (F : FFmt) (md : RMode) (ftz : Bool) (a b c : Nat) : Nat × Flags :=
  F.flushOut ftz (F.fmaVal md (F.unpack (F.flushIn ftz a)) (F.unpack (F.flushIn ftz b))
    (some (F.unpack (F.flushIn ftz c))))
/-- A × B − C: fused, on −C, a NaN C too (R165). -/
def FFmt.fms (F : FFmt) (md : RMode) (ftz : Bool) (a b c : Nat) : Nat × Flags :=
  F.flushOut ftz (F.fmaVal md (F.unpack (F.flushIn ftz a)) (F.unpack (F.flushIn ftz b))
    (some (F.unpack (F.flushIn ftz c)).neg))
def FFmt.div (F : FFmt) (md : RMode) (ftz : Bool) (a b : Nat) : Nat × Flags :=
  F.flushOut ftz (F.divVal md (F.unpack (F.flushIn ftz a)) (F.unpack (F.flushIn ftz b)))
def FFmt.sqrt (F : FFmt) (md : RMode) (a : Nat) : Nat × Flags := F.sqrtVal md (F.unpack a)
def FFmt.minimum (F : FFmt) (ftz : Bool) (a b : Nat) : Nat × Flags :=
  F.minMax false (F.flushIn ftz a) (F.flushIn ftz b)
def FFmt.maximum (F : FFmt) (ftz : Bool) (a b : Nat) : Nat × Flags :=
  F.minMax true (F.flushIn ftz a) (F.flushIn ftz b)

/-! ### Conversions (R88, R114, R174 to R177) -/

/-- A value rounded to an n-bit integer: NaN gives 0, out of range saturates, both with invalid. -/
def toInt (n : Nat) (md : RMode) (v : FVal) : Int × Flags :=
  match v with
  | .nan .. => (0, fInvalid)
  | .inf s => (if s then -(2 ^ (n - 1) : Nat) else (2 ^ (n - 1) : Nat) - 1, fInvalid)
  | .fin s m e =>
    let (N, D) := scaleQ m 1 e
    let (q, inexact) := roundQuot md s N D
    let x : Int := if s then -(q : Int) else q
    if satS n x = x then (x, if inexact then fInexact else 0) else (satS n x, fInvalid)

/-- A value of format `S` rounded to format `F`; NaNs by R77. -/
def FFmt.convert (F S : FFmt) (md : RMode) (v : FVal) : Nat × Flags :=
  match v with
  | .nan .. => (F.nanOf S.fb [v], snanFlag [v])
  | .inf s => (F.withSign s F.inf, 0)
  | .fin s 0 _ => (F.withSign s 0, 0)
  | .fin s m e => F.round md s m 1 e

/-- A × 2^k (R177). -/
def FFmt.scaleB (F : FFmt) (md : RMode) (ftz : Bool) (a : Nat) (k : Int) : Nat × Flags :=
  F.flushOut ftz (match F.unpack (F.flushIn ftz a) with
    | .fin s m e => if m = 0 then (F.withSign s 0, 0) else F.round md s m 1 (e + k)
    | v => F.convert F md v)

/-- The ten classes of `s.class.f64` (R114), as the bit number. -/
def FFmt.classOf (F : FFmt) (b : Nat) : Nat :=
  match F.unpack b with
  | .nan _ q _ => if q then 1 else 0
  | .inf s => if s then 2 else 9
  | .fin s m _ =>
    if m = 0 then (if s then 5 else 6)
    else if F.isSub b then (if s then 4 else 7)
    else (if s then 3 else 8)

/-! ### The F32 special functions (R91, R185), by fixed-point arithmetic of `prec` bits with a sticky bit

Outside the exact cases, which are taken apart, the results are irrational, and no F32 argument brings one within
2^−600 of a number at which rounding changes (assumption 10). -/

/-- Fraction bits of the fixed-point arithmetic. -/
def prec : Nat := 640

/-- Σ x^k / (k × ...) helper: the terms t, t·x/1, … of e^x, `fuel` of them. -/
def expSeries : Nat → Nat → Nat → Nat → Nat
  | 0, _, _, _ => 0
  | n + 1, k, x, t => t + expSeries n (k + 1) x (t * x / 2 ^ prec / k)

/-- e^x for 0 ≤ x < 1 in fixed point. -/
def expFix (x : Nat) : Nat := expSeries 160 1 x (2 ^ prec)

/-- ln 2 = Σ 1 / (k 2^k). -/
def ln2Series : Nat → Nat → Nat
  | 0, _ => 0
  | n + 1, k => 2 ^ prec / (k * 2 ^ k) + ln2Series n (k + 1)

def ln2Fix : Nat := ln2Series prec 1

/-- atan(1/x) = Σ ± 1 / ((2k+1) x^(2k+1)). -/
def atanInv (x : Nat) : Nat → Nat → Nat → Int
  | 0, _, _ => 0
  | n + 1, k, p =>
    let t : Int := ((2 ^ prec / (p * (2 * k + 1)) : Nat) : Int)
    (if k % 2 = 0 then t else -t) + atanInv x n (k + 1) (p * x * x)

/-- π by Machin's formula. -/
def piFix : Nat := (16 * atanInv 5 150 0 5 - 4 * atanInv 239 45 0 239).toNat

/-- sin x for 0 ≤ x ≤ 1 in fixed point. -/
def sinSeries : Nat → Nat → Nat → Int → Int
  | 0, _, _, _ => 0
  | n + 1, k, x2, t => t + sinSeries n (k + 2) x2 (-(t * x2 / (2 ^ prec : Nat)) / ((k + 1) * (k + 2) : Nat))

def sinFix (x : Nat) : Nat := (sinSeries 80 1 (x * x / 2 ^ prec) x).toNat
def cosFix (x : Nat) : Nat := (sinSeries 80 0 (x * x / 2 ^ prec) (2 ^ prec : Nat)).toNat

/-- log2 of a number in [1, 2) in fixed point, by squaring: one fraction bit a step. -/
def log2Bits : Nat → Nat → Nat → Nat
  | 0, _, acc => acc
  | n + 1, x, acc =>
    let y := x * x / 2 ^ (2 * prec)
    if y ≥ 2 ^ (2 * prec + 1) then log2Bits n (y / 2) (2 * acc + 1) else log2Bits n y (2 * acc)

/-- A fixed-point approximation as a number that rounds as the irrational it stands for. -/
def roundFix (F : FFmt) (md : RMode) (s : Bool) (x : Nat) (p : Nat) (e : Int) : Nat × Flags :=
  F.round md s (2 * x + 1) 1 (e - p - 1)

/-- e^y rounded, y = −m × 2^e or m × 2^e (used by R221 with y ≤ 0). -/
def expRound (F : FFmt) (md : RMode) (s : Bool) (m : Nat) (e : Int) : Nat × Flags :=
  if m = 0 then (F.bias * 2 ^ F.fb, 0)
  else if flog2 m 1 + e ≥ 12 then
    (if s then F.round md false 1 1 (F.qmin - 64) else (F.overflow md false, fOverflow ||| fInexact))
  else
    let (N, D) := scaleQ m 1 (e + prec)
    let x := N / D
    let n := x / ln2Fix
    let r := x % ln2Fix
    if s then
      (if r = 0 then roundFix F md false (2 ^ prec - 1) prec (-(n : Int))
      else roundFix F md false (expFix (ln2Fix - r)) prec (-(n : Int) - 1))
    else roundFix F md false (if r = 0 then 2 ^ prec else expFix r) prec n

/-- exp2. -/
def exp2F (F : FFmt) (md : RMode) (a : Nat) : Nat × Flags :=
  match F.unpack a with
  | .nan s q p => (F.nanOf F.fb [.nan s q p], snanFlag [.nan s q p])
  | .inf s => (if s then 0 else F.inf, 0)
  | .fin s m e =>
    if m = 0 then (F.bias * 2 ^ F.fb, 0)
    else if flog2 m 1 + e ≥ 12 then
      (if s then F.round md false 1 1 (F.qmin - 64) else (F.overflow md false, fOverflow ||| fInexact))
    else
      let (N, D) := scaleQ m 1 e
      let n := N / D
      let r := N % D
      if r = 0 then F.round md false 1 1 (if s then -(n : Int) else n)
      else if s then roundFix F md false (expFix ((D - r) * 2 ^ prec / D * ln2Fix / 2 ^ prec)) prec (-(n : Int) - 1)
      else roundFix F md false (expFix (r * 2 ^ prec / D * ln2Fix / 2 ^ prec)) prec n

/-- log2. -/
def log2F (F : FFmt) (md : RMode) (a : Nat) : Nat × Flags :=
  match F.unpack a with
  | .nan s q p => (F.nanOf F.fb [.nan s q p], snanFlag [.nan s q p])
  | .inf s => if s then (F.dnan, fInvalid) else (F.inf, 0)
  | .fin s m e =>
    if m = 0 then (F.withSign true F.inf, fDivZero)
    else if s then (F.dnan, fInvalid)
    else
      let l := ilog2 m
      let k : Int := e + l
      if m = 2 ^ l then F.roundInt md k 0 false
      else
        let f := log2Bits prec (m * 2 ^ (2 * prec) / 2 ^ l) 0
        let v : Int := k * (2 ^ prec : Nat) + f
        if v ≥ 0 then roundFix F md false v.toNat prec 0 else roundFix F md true (-v - 1).toNat prec 0

/-- recip: 1/x. -/
def recipF (F : FFmt) (md : RMode) (a : Nat) : Nat × Flags :=
  match F.unpack a with
  | .nan s q p => (F.nanOf F.fb [.nan s q p], snanFlag [.nan s q p])
  | v => F.divVal md (.fin false 1 0) v

/-- rSqrt. -/
def rsqrtF (F : FFmt) (md : RMode) (a : Nat) : Nat × Flags :=
  match F.unpack a with
  | .nan s q p => (F.nanOf F.fb [.nan s q p], snanFlag [.nan s q p])
  | .inf s => if s then (F.dnan, fInvalid) else (0, 0)
  | .fin s m e =>
    if m = 0 then (F.withSign s F.inf, fDivZero)
    else if s then (F.dnan, fInvalid)
    else
      let (m, e) := if e % 2 = 0 then (m, e) else (2 * m, e - 1)
      let r := isqrt (m * 2 ^ (2 * prec))
      if r * r = m * 2 ^ (2 * prec) then F.round md false (2 ^ prec) r (-(e / 2))
      else F.round md false (2 ^ (prec + 1)) (2 * r + 1) (-(e / 2))

/-- |x| mod 2 as a fraction N/D, for sinPi and cosPi. -/
def mod2 (m : Nat) (e : Int) : Nat × Nat :=
  let (N, D) := scaleQ m 1 e
  (N % (2 * D), D)

/-- The magnitude of sin(π N/D) for 0 < N/D < 1/2, or cos(π N/D), rounded with sign s. -/
def trigRound (F : FFmt) (md : RMode) (s : Bool) (isCos : Bool) (N D : Nat) : Nat × Flags :=
  let x := N * piFix / D
  if isCos then
    (if 4 * N ≤ D then roundFix F md s (cosFix x - 1) prec 0
    else roundFix F md s (sinFix (piFix / 2 - x)) prec 0)
  else if 4 * N ≤ D then
    (if x < 2 ^ (prec / 2) then F.round md s (2 * (N * piFix) - 1) (2 * D * 2 ^ prec) 0
    else roundFix F md s (sinFix x) prec 0)
  else roundFix F md s (cosFix (piFix / 2 - x)) prec 0

/-- sinPi. -/
def sinpiF (F : FFmt) (md : RMode) (a : Nat) : Nat × Flags :=
  match F.unpack a with
  | .nan s q p => (F.nanOf F.fb [.nan s q p], snanFlag [.nan s q p])
  | .inf _ => (F.dnan, fInvalid)
  | .fin s m e =>
    if m = 0 then (F.withSign s 0, 0)
    else
      let (N, D) := mod2 m e
      if N % D = 0 then (F.withSign s 0, 0)
      else
        let t := s != decide (D < N)
        let N := N % D
        if 2 * N = D then (F.withSign t (F.bias * 2 ^ F.fb), 0)
        else trigRound F md t false (if 2 * N < D then N else D - N) D

/-- cosPi. -/
def cospiF (F : FFmt) (md : RMode) (a : Nat) : Nat × Flags :=
  match F.unpack a with
  | .nan s q p => (F.nanOf F.fb [.nan s q p], snanFlag [.nan s q p])
  | .inf _ => (F.dnan, fInvalid)
  | .fin _ m e =>
    let (N, D) := mod2 m e
    let N := if D < N then 2 * D - N else N
    if N = 0 then (F.bias * 2 ^ F.fb, 0)
    else if N = D then (F.withSign true (F.bias * 2 ^ F.fb), 0)
    else if 2 * N = D then (0, 0)
    else if 2 * N < D then trigRound F md false true N D
    else trigRound F md true true (D - N) D

end Sys2Proof.Machine
end

