-- ==== Sys2Proof/Machine/Rotate.lean ====
section
/-! DEFINITION. Blocks, rotation, narrowing, rotation tags, FP64 slices, and the drains of the matrix engine (R79 to
R85, R92 to R102). -/

namespace Sys2Proof.Machine

/-- An exact real: v × 2^e. -/
structure Dy where
  v : Int
  e : Int
  deriving DecidableEq, Repr

def FVal.toDy : FVal → Dy
  | .fin s m e => ⟨if s then -(m : Int) else m, e⟩
  | _ => ⟨0, 0⟩

/-! ### The rotation (R93) -/

/-- Mix64 of R93. -/
def mix64 (z : W64) : W64 :=
  let z := (z ^^^ (z >>> 30)) * 0xBF58476D1CE4E5B9
  let z := (z ^^^ (z >>> 27)) * 0x94D049BB133111EB
  z ^^^ (z >>> 31)

/-- SignOf(seed, j) = −1 (R93). -/
def signNeg (seed : W64) (j : Nat) : Bool :=
  (mix64 (seed + BitVec.ofNat 64 (j + 1) * 0x9E3779B97F4A7C15)).msb

/-- emax of BlockAlign: the greatest floor(log2) of the non-zero elements; none if all are zero. -/
def maxExp : List Dy → Option Int
  | [] => none
  | x :: xs =>
    match maxExp xs with
    | none => if x.v = 0 then none else some (flog2 x.v.natAbs 1 + x.e)
    | some m => if x.v = 0 then some m else some (max m (flog2 x.v.natAbs 1 + x.e))

/-- One element aligned to 24 bits below 2^(emax+1), and whether bits were lost. -/
def alignOne (emax : Int) (x : Dy) : Int × Bool :=
  let (N, D) := scaleQ x.v.natAbs 1 (x.e + 23 - emax)
  let a : Int := (N / D : Nat)
  (if x.v < 0 then -a else a, N % D != 0)

/-- BlockAlign: integers, emax, and whether inexact is raised. -/
def blockAlign (xs : List Dy) : List Int × Int × Bool :=
  match maxExp xs with
  | none => (xs.map fun _ => 0, 0, false)
  | some m =>
    let as_ := xs.map (alignOne m)
    (as_.map Prod.fst, m, as_.any Prod.snd)

/-- Signs along the block from position j. -/
def applySigns (seed : W64) : Nat → List Int → List Int
  | _, [] => []
  | j, a :: as_ => (if signNeg seed j then -a else a) :: applySigns seed (j + 1) as_

/-- One stage of the butterfly: k pairs of runs of h. -/
def butterfly (h : Nat) : Nat → List Int → List Int
  | 0, _ => []
  | k + 1, xs =>
    let l := xs.take h
    let r := (xs.drop h).take h
    List.zipWith (· + ·) l r ++ List.zipWith (· - ·) l r ++ butterfly h k (xs.drop (2 * h))

/-- The stages h = 1, 2, … of a block of 2^(stages so far and left) elements. -/
def stages (n : Nat) : Nat → Nat → List Int → List Int
  | 0, _, xs => xs
  | k + 1, h, xs => stages n k (2 * h) (butterfly h (n / (2 * h)) xs)

/-- Rotate of R93: exact reals, and whether BlockAlign was inexact. -/
def rotate (xs : List Dy) (n : Nat) (seed : W64) (j0 : Nat) (inv : Bool) : List Dy × Bool :=
  let (a, emax, nx) := blockAlign xs
  let a := if inv then a else applySigns seed j0 a
  let a := stages n (ilog2 n) 1 a
  let a := if inv then applySigns seed j0 a else a
  (a.map fun v => ⟨v, emax - 23 - (ilog2 n / 2 : Nat)⟩, nx)

/-- Elements of a rotation block (R30, R58). -/
def blkN : Blk → Nat
  | .b16 => 16 | .b64 => 64 | .b256 => 256

/-! ### Narrow formats (R79, R81) and blocks (R82) -/

/-- A small float format of R79: exponent bits, fraction bits, bias, and its largest finite code. -/
def miniOf : NFmt → Nat × Nat × Nat × Nat
  | .e4m3 => (4, 3, 7, 0x7E)
  | .e5m2 => (5, 2, 15, 0x7B)
  | _ => (2, 1, 1, 7)

/-- bias_fmt and Mx of R94. -/
def nfmtBias : NFmt → Int
  | .s9 => 134 | .s5 => 130 | _ => 127
def nfmtMx : NFmt → Nat
  | .s9 => 255 | .s5 => 10 | .e4m3 => 448 | .e5m2 => 57344 | .e2m1 => 6

/-- The scale bias of a block (R83). -/
def blockBias (s5 : Bool) : Int := if s5 then 130 else 134

/-- RoundToFormat of x into an S9 or S5 mantissa, saturating, with underflow where a non-zero value becomes zero. -/
def roundMant (mx : Nat) (md : RMode) (x : Dy) : Int × Flags :=
  if x.v = 0 then (0, 0)
  else
    let s := decide (x.v < 0)
    let (N, D) := scaleQ x.v.natAbs 1 x.e
    let (q, nx) := roundQuot md s N D
    if q > mx then (if s then -(mx : Int) else mx, fOverflow ||| fInexact)
    else (if s then -(q : Int) else q,
      (if nx then fInexact else 0) ||| (if q = 0 then fUnderflow else 0))

/-- RoundToFormat of x into an MX element code (R79, R88): saturates to the largest finite magnitude. -/
def roundMini (f : NFmt) (md : RMode) (x : Dy) : Nat × Flags :=
  let (eb, fb, bias, top) := miniOf f
  if x.v = 0 then (0, 0)
  else
    let s := decide (x.v < 0)
    let n := x.v.natAbs
    let l := flog2 n 1 + x.e
    let emin : Int := 1 - (bias : Int)
    let q := max (l - fb) (emin - fb)
    let (N, D) := scaleQ n 1 (x.e - q)
    let (m, nx) := roundQuot md s N D
    let code := ((q - (emin - fb)).toNat) * 2 ^ fb + m
    let sg := if s then 2 ^ (eb + fb) else 0
    let (U, V) := scaleQ n 1 (x.e - (l - fb))
    let tiny := decide (l < emin) && !((roundQuot md s U V).1 == 2 ^ (fb + 1) && l + 1 == emin)
    if code > top then (top + sg, fOverflow ||| fInexact)
    else (code + sg, (if nx then fInexact else 0) ||| (if (nx && tiny) || m = 0 then fUnderflow else 0))

/-- The exact value of an MX element code times its scale 2^(E − 127), or a NaN or infinity (R79). A NaN by its scale, and one of
E4M3, is quiet (assumption 125). -/
def miniVal (f : NFmt) (code e : Nat) : FVal :=
  let (eb, fb, bias, _) := miniOf f
  let s := code / 2 ^ (eb + fb) % 2 == 1
  let x := code / 2 ^ fb % 2 ^ eb
  let m := code % 2 ^ fb
  if e = 0xFF then .nan false true 0
  else
    match f, x, m with
    | .e4m3, 15, 7 => .nan s true 0
    | .e5m2, 31, 0 => .inf s
    | .e5m2, 31, p => .nan s (p ≥ 2) (p % 2)
    | _, 0, m => .fin s m (1 - (bias : Int) - fb + (e : Int) - 127)
    | _, x, m => .fin s (m + 2 ^ fb) ((x : Int) - bias - fb + (e : Int) - 127)

/-- ChooseExp of R94 for the greatest magnitude of a group. -/
def chooseExp (f : NFmt) (x : Dy) : Nat :=
  if x.v = 0 then 0
  else
    let n := x.v.natAbs
    let c := flog2 n (nfmtMx f) + x.e + nfmtBias f
    let (N, D) := scaleQ n (nfmtMx f) (x.e + nfmtBias f - c)
    let e := if N = D then c else c + 1
    (max 0 (min 254 e)).toNat

/-- The element of greatest magnitude. -/
def maxMag : List Dy → Dy
  | [] => ⟨0, 0⟩
  | x :: xs =>
    let y := maxMag xs
    if y.v = 0 then x
    else if x.v = 0 then y
    else
      let e0 := min x.e y.e
      if y.v.natAbs * 2 ^ (y.e - e0).toNat ≤ x.v.natAbs * 2 ^ (x.e - e0).toNat then x else y

/-- The number whose k-th field of w bits is the k-th of the codes. -/
def packCodes (w : Nat) : List Nat → Nat
  | [] => 0
  | c :: cs => c % 2 ^ w + 2 ^ w * packCodes w cs

/-- The nine-bit field k of a string of bytes, or nothing if a byte of it is poisoned. -/
def code9 (bs : List (Option Byte)) (k : Nat) : Option Nat :=
  (leNat? (slice bs (9 * k / 8) (if 9 * k % 8 = 0 then 2 else (9 * k % 8 + 9 + 7) / 8))).map
    fun n => n / 2 ^ (9 * k % 8) % 512

/-- Pair codes of S5 mantissas (R81). -/
def s5Pairs : List Int → List Nat
  | a :: b :: xs => (21 * (a + 10) + (b + 10)).toNat :: s5Pairs xs
  | _ => []

/-- The elements of a pair code; a reserved code is (0, 0) (R81). -/
def s5Pair (p : Nat) : Int × Int :=
  if p ≤ 440 then ((p / 21 : Nat) - 10, (p % 21 : Nat) - 10) else (0, 0)

/-- A block of 320 bytes (R82). -/
def blockBytes (codes : List Nat) (e cls : Nat) : List Byte :=
  leBytes 288 (packCodes 9 codes) ++ [BitVec.ofNat 8 e, BitVec.ofNat 8 cls] ++ List.replicate 30 0

/-- The class bits of R84. -/
def classBit : FVal → Nat
  | .nan _ q _ => if q then 1 else 2
  | .inf s => if s then 8 else 4
  | _ => 0

def classOr : List FVal → Nat
  | [] => 0
  | v :: vs => classBit v ||| classOr vs

def FVal.isFin : FVal → Bool
  | .fin .. => true
  | _ => false

/-! ### Narrow (R94) -/

/-- A rotation block: its rotated reals, or nothing where it is not finite, BlockAlign's inexact, and whether it holds
a signalling NaN. -/
structure RBlock where
  zs : Option (List Dy)
  nx : Bool
  snan : Bool

def rotBlocks (n : Nat) (seed : W64) : Nat → Nat → List FVal → List RBlock
  | 0, _, _ => []
  | k + 1, j0, vs =>
    let b := vs.take n
    (if b.all FVal.isFin then
      let (zs, nx) := rotate (b.map FVal.toDy) n seed j0 false
      ⟨some zs, nx, false⟩
    else ⟨none, false, b.any FVal.isSnan⟩) :: rotBlocks n seed k (j0 + n) (vs.drop n)

/-- Elements rounded from the k-th on, each with the mode for its place; one that is not enabled raises no flag. -/
def roundEach {α : Type} (f : RMode → Dy → α × Flags) (md : Nat → RMode) (en : Nat → Bool) :
    Nat → List Dy → List α × Flags
  | _, [] => ([], 0)
  | k, z :: zs =>
    let (a, fl) := f (md k) z
    let (as_, fls) := roundEach f md en (k + 1) zs
    (a :: as_, (if en k then fl else 0) ||| fls)

/-- A narrowed group: codes, exponent, class byte, flags. -/
structure NGroup where
  codes : List Nat
  e : Nat
  cls : Nat
  fl : Flags

/-- The codes of g zero mantissas (R81, R84). -/
def zeroCodes (f : NFmt) (g : Nat) : List Nat :=
  match f with
  | .s5 => s5Pairs (List.replicate g 0)
  | _ => List.replicate g 0

/-- A group of G elements from its rotation blocks; `k0` is the place of its first element in the line, `whole` whether
one rotation block covers several groups (n > G). -/
def narrowGroup (f : NFmt) (md : Nat → RMode) (en : Nat → Bool) (g : Nat) (k0 : Nat) (src : List FVal) (blocks : List RBlock)
    (off : Nat) : NGroup :=
  let nfl : Flags := if blocks.any (·.nx) then fInexact else 0
  if blocks.any (fun b => b.zs.isNone) then
    ⟨zeroCodes f g, 0xFF, classOr src, nfl ||| (if blocks.any (·.snan) then fInvalid else 0)⟩
  else
    let zs := slice ((blocks.map fun b => b.zs.getD []).flatten) off g
    let e := chooseExp f (maxMag zs)
    let ys := zs.map fun z => Dy.mk z.v (z.e + nfmtBias f - e)
    match f with
    | .s9 =>
      let (ms, fl) := roundEach (roundMant 255) md en k0 ys
      ⟨ms.map (ubits 9), e, 0, fl ||| nfl⟩
    | .s5 =>
      let (ms, fl) := roundEach (roundMant 10) md en k0 ys
      ⟨s5Pairs ms, e, 0, fl ||| nfl⟩
    | f =>
      let (ms, fl) := roundEach (roundMini f) md en k0 ys
      ⟨ms, e, 0, fl ||| nfl⟩

/-- The groups of a line, `k` of them. -/
def narrowGroups (f : NFmt) (md : Nat → RMode) (en : Nat → Bool) (g n : Nat) (src : List FVal) (blocks : List RBlock) :
    Nat → Nat → List NGroup
  | 0, _ => []
  | k + 1, k0 =>
    let b0 := k0 / n
    let bs := slice blocks b0 (max 1 (g / n))
    narrowGroup f md en g k0 (slice src k0 g) bs (k0 - b0 * n) :: narrowGroups f md en g n src blocks k (k0 + g)

/-- Even codes in the low nibbles (R80, R179). -/
def nibbles : List Nat → List Byte
  | a :: b :: xs => BitVec.ofNat 8 (a + 16 * b) :: nibbles xs
  | _ => []

/-- An MX entry of eight groups (R179): a non-finite group has scale 0xFF and zero elements. -/
def mxEntry (f : NFmt) (gs : List NGroup) : List Byte :=
  let els := (gs.map (·.codes)).flatten
  let bytes := match f with
    | .e2m1 => nibbles els ++ List.replicate 128 0
    | _ => els.map (BitVec.ofNat 8)
  bytes ++ gs.map (fun g => BitVec.ofNat 8 g.e) ++ List.replicate 56 0

def orAll : List Flags → Flags
  | [] => 0
  | f :: fs => f ||| orAll fs

/-- MX groups gathered into entries of eight. -/
def mxEntries (f : NFmt) : Nat → List NGroup → List (List Byte × Flags)
  | 0, _ => []
  | k + 1, gs => (mxEntry f (gs.take 8), orAll ((gs.take 8).map (·.fl))) :: mxEntries f k (gs.drop 8)

/-- Narrow of R94 over a line: the entries of R179 with the flags of each. -/
def narrowLine (f : NFmt) (n : Nat) (seed : W64) (md : Nat → RMode) (en : Nat → Bool) (src : List FVal) : List (List Byte × Flags) :=
  let len := src.length
  let blocks := rotBlocks n seed (len / n) 0 src
  match f with
  | .s9 => (narrowGroups f md en 256 n src blocks (len / 256) 0).map fun g => (blockBytes g.codes g.e g.cls, g.fl)
  | .s5 => (narrowGroups f md en 512 n src blocks (len / 512) 0).map fun g => (blockBytes g.codes g.e g.cls, g.fl)
  | f => mxEntries f (len / 256) (narrowGroups f md en 32 n src blocks (len / 32) 0)

/-! ### Rotation tags (R30, R95, R96) -/

/-- The tag of a narrowing: valid, axis, block code, seed index, generation. -/
def tagOf (free : Bool) (blk : Blk) (k : Fin 8) (gen : BitVec 8) : BitVec 16 :=
  BitVec.ofNat 16 (0x8000 + free.toNat * 0x2000 + (match blk with | .b16 => 0 | .b64 => 1 | .b256 => 2) * 0x800
    + k.val * 0x100 + gen.toNat)

/-- TagMatch of R96. -/
def tagMatch (a b : BitVec 16) : Bool :=
  let va := a.msb
  let vb := b.msb
  let xa := fld a.toNat 14 13
  let xb := fld b.toNat 14 13
  if !va && !vb then true
  else if va && vb then xa == 0 && xb == 0 && a.toNat % 0x2000 == b.toNat % 0x2000
  else (if va then xa else xb) == 1

/-! ### FP64 slices (R102) -/

/-- Slice i of an alignment group with count s and reference exponent ρ: the block and its flags. A block that is
non-finite by its exponent alone has the class byte 0 (assumption 120). -/
def sliceBlock (src : List FVal) (s i : Nat) (rho : Int) : List Byte × Flags :=
  let zero := blockBytes [] 0 0
  if src.all FVal.isFin then
    let xs := src.map FVal.toDy
    match maxExp xs with
    | none => (zero, 0)
    | some e =>
      let ei : Int := 134 - 8 * (i : Int) + (e + 1 - rho)
      let digit (k : Nat) (x : Dy) : Nat :=
        let (N, D) := scaleQ x.v.natAbs 1 (x.e - (e + 1) + 8 * k)
        N / D % 256
      let lost (x : Dy) : Bool :=
        let (N, D) := scaleQ x.v.natAbs 1 (x.e - (e + 1) + 8 * s)
        N % D != 0
      let nx : Flags := if i = s ∧ xs.any lost then fInexact else 0
      let ds := xs.map fun x => (if x.v < 0 then -(digit i x : Int) else (digit i x : Int))
      if ei < 0 then (zero, nx ||| (if ds.any (· != 0) then fUnderflow else 0))
      else if ei > 254 then (blockBytes [] 0xFF 0, nx ||| fOverflow)
      else (blockBytes (ds.map (ubits 9)) ei.toNat 0, nx)
  else (blockBytes [] 0xFF (classOr src), if src.any FVal.isSnan then fInvalid else 0)

/-! ### Drains (R99) -/

/-- The X72 NaN (R81). -/
def x72Nan : Nat := 2 ^ 71

/-- The X72 range limit. -/
def x72Max : Int := (2 ^ 71 : Nat) - 1

/-- DrainS36. -/
def drainS36 (slot : Nat) (S : Int) : Nat × Flags :=
  let t := sint 36 slot + S
  (ubits 36 (satS 36 t), if satS 36 t = t then 0 else fOverflow)

/-- DrainX72 of a finite product. -/
def drainX72 (pair : Nat) (S P beta : Int) : Nat × Flags :=
  if pair = x72Nan then (pair, 0)
  else
    let d := P - beta
    let v := if 0 ≤ d then S * 2 ^ d.toNat else S / (2 ^ (-d).toNat : Nat)
    let nx : Flags := if d < 0 ∧ S % (2 ^ (-d).toNat : Nat) ≠ 0 then fInexact else 0
    let t := sint 72 pair + v
    if t > x72Max then (ubits 72 x72Max, nx ||| fOverflow)
    else if t < -x72Max then (ubits 72 (-x72Max), nx ||| fOverflow)
    else (ubits 72 t, nx)

/-- DrainF32 of a finite product; one that is zero is added as +0 (R99; assumption 118). -/
def drainF32 (md : RMode) (slot : Nat) (S P : Int) : Nat × Flags :=
  FFmt.f32.addVal md (FFmt.f32.unpack slot) (.fin (decide (S < 0)) S.natAbs P)

end Sys2Proof.Machine
end

