-- ==== Sys2Proof/Machine/Ops.lean ====
section
/-! DEFINITION. The named operations over registers, buffers, device memory, partitions, the agenda and the records;
taking a fault, freezing a core, and acting on a fault are here once (R338 to R343), for all instructions. -/

namespace Sys2Proof.Machine

abbrev Result := Host.Outcome State Fault Refusal

/-! ### Memories with poison (R21, R119, R188, R206): `dp` is the mark of an unlisted unit, `u` the unit's bytes -/

/-- Whether the unit of an address is poisoned. -/
def Mem.poisoned (dp : Bool) (u : Nat) (m : Mem) (a : Nat) : Bool := setHas m.marks (a / u) != dp

/-- The byte at an address, whatever its mark. -/
def Mem.byte (m : Mem) (a : Nat) : Byte := (mapGet m.cells a).getD 0

/-- The byte at an address; none where its unit is poisoned. -/
def Mem.get (dp : Bool) (u : Nat) (m : Mem) (a : Nat) : Option Byte :=
  if m.poisoned dp u a then none else some (m.byte a)

/-- n bytes from an address. -/
def Mem.read (dp : Bool) (u : Nat) (m : Mem) (a n : Nat) : List (Option Byte) := (range' a n).map (m.get dp u)

/-- One byte set; its mark stays. -/
def Mem.put (m : Mem) (a : Nat) (b : Byte) : Mem := { m with cells := mapPut 0 m.cells a b }

/-- A unit's mark set. -/
def Mem.mark (dp : Bool) (m : Mem) (unit : Nat) (p : Bool) : Mem :=
  { m with marks := if p = dp then setDel m.marks unit else setAdd m.marks unit }

/-- A unit's bytes all zero. -/
def Mem.zeroUnit (u : Nat) (m : Mem) (unit : Nat) : Mem := { m with cells := m.cells.filter fun c => c.1 / u ≠ unit }

/-- The bytes of a store that are not poisoned, one after another. -/
def Mem.putAll (m : Mem) : List BW → Mem
  | [] => m
  | (a, some b) :: ws => Mem.putAll (m.put a b) ws
  | (_, none) :: ws => Mem.putAll m ws

/-- What a store does to one unit: a poisoned byte poisons it; an unpoisoned store into a poisoned unit writes zero
into the bytes it does not write and clears the mark (R119, R188). -/
def Mem.storeUnit (dp : Bool) (u : Nat) (ws : List BW) (m : Mem) (unit : Nat) : Mem :=
  let mine := ws.filter fun w => w.1 / u = unit
  if mine.any (fun w => w.2.isNone) then (m.zeroUnit u unit).mark dp unit true
  else
    let m' := if m.poisoned dp u (unit * u) then m.zeroUnit u unit else m
    (m'.putAll mine).mark dp unit false

/-- The units a store touches. -/
def unitsOf (u : Nat) : List BW → List Nat
  | [] => []
  | (a, _) :: ws => setAdd (unitsOf u ws) (a / u)

/-- A store, unit by unit. -/
def Mem.store (dp : Bool) (u : Nat) (m : Mem) (ws : List BW) : Mem := (unitsOf u ws).foldl (Mem.storeUnit dp u ws) m

/-! ### Buffers of a core (R17) -/

/-- Bytes of a buffer (R17). -/
def Buf.size : Buf → Nat
  | .ab => Config.abBytes | .wb => Config.wbBytes | .sdm => Config.sdmBytes | .gm => Config.gmBytes

/-- The unit of poison of a buffer (R21). -/
def Buf.unit : Buf → Nat
  | .wb => Config.wbWord
  | _ => Config.granule

/-- The buffer's contents. -/
def Core.buf (c : Core) : Buf → Mem
  | .ab => c.ab | .wb => c.wb | .sdm => c.sdm | .gm => ⟨[], c.gm.marks⟩

/-- Bytes of a buffer; poisoned units read as none (R21: poisoned until written). -/
def Core.bufRead (c : Core) (b : Buf) (a n : Nat) : List (Option Byte) := (c.buf b).read true b.unit a n

/-- A store into a buffer (R188). -/
def Core.bufStore (c : Core) (b : Buf) (ws : List BW) : Core :=
  match b with
  | .ab => { c with ab := c.ab.store true 64 ws }
  | .wb => { c with wb := c.wb.store true 72 ws }
  | .sdm => { c with sdm := c.sdm.store true 64 ws }
  | .gm => c

/-! ### Registers: the only ways in and out -/

/-- sN: s0 reads zero (R27); none is poisoned. -/
def Regs.getS (r : Regs) (n : Fin 32) : Option W64 := if n = 0 then some 0 else r.s[n]

/-- Writes of s0 are discarded (R27). -/
def Regs.setS (r : Regs) (n : Fin 32) (v : Option W64) : Regs :=
  if n = 0 then r else { r with s := r.s.set n v }

/-- pN: p0 reads true (R27). -/
def Regs.getP (r : Regs) (n : Fin 16) : PReg := if n = 0 then ⟨true, false⟩ else r.p[n]

/-- Writes of p0 are discarded (R27). -/
def Regs.setP (r : Regs) (n : Fin 16) (v : PReg) : Regs := if n = 0 then r else { r with p := r.p.set n v }

/-- The effective address of an address register (R28). -/
def AReg.ea (a : AReg) : Nat := (a.base + a.off).toNat

/-- The offset after a post-increment (R28). -/
def AReg.bump (a : AReg) : BitVec 32 :=
  let o : Int := a.off.toNat + a.stride.toInt
  BitVec.ofInt 32 (if a.wrap = 0 then o else o % (a.wrap.toNat : Int))

def AReg.field (a : AReg) : AField → BitVec 32
  | .base => a.base | .off => a.off | .stride => a.stride | .wrap => a.wrap

def AReg.setField (a : AReg) (f : AField) (v : BitVec 32) : AReg :=
  match f with
  | .base => { a with base := v }
  | .off => { a with off := v }
  | .stride => { a with stride := v }
  | .wrap => { a with wrap := v }

/-! ### Control registers (R32, R122, R123) -/

/-- The value of a control register, as `s.rdctl` reads it; core and tick are given (R32). -/
def Ctl.read (c : Ctl) (core tick : Nat) : CtlReg → Nat
  | .fflags => c.fflags.toNat
  | .ftrap => c.ftrap.toNat
  | .round => c.round.toNat
  | .mode => (if c.elastic then 1 else 0) + (if c.detect then 2 else 0)
  | .cadence => c.cadence.toNat
  | .shape => c.shape.toNat
  | .core => core
  | .tick => tick
  | .phase => c.phase.toNat
  | .inflect => c.inflect.toNat
  | .size => c.size.toNat
  | .sel => c.sel.toNat

/-- The value that a write leaves: written, ORed in, or with bits cleared (R122). -/
def wrValue (m : WrMode) (old v : W64) : W64 :=
  match m with
  | .write => v
  | .set => old ||| v
  | .clr => old &&& ~~~v

/-- A write of a control register: the low bits, in its width (R123). Writes of size and sel are exports (R133). -/
def Ctl.write (c : Ctl) (r : CtlReg) (m : WrMode) (v : W64) : Ctl :=
  let n := (wrValue m (BitVec.ofNat 64 (c.read 0 0 r)) v).toNat
  match r with
  | .fflags => { c with fflags := BitVec.ofNat 5 n }
  | .ftrap => { c with ftrap := BitVec.ofNat 6 n }
  | .round => { c with round := BitVec.ofNat 3 n }
  | .mode => { c with elastic := n % 2 = 1 }
  | .shape => { c with shape := BitVec.ofNat 4 n }
  | .size => { c with size := BitVec.ofNat 32 n, expSize := true }
  | .sel => { c with sel := BitVec.ofNat 2 n, expSel := true }
  | _ => c

/-! ### Queue control words (R30) -/

/-- The fields of a queue control word. -/
structure Ring where
  rtag : BitVec 16
  count : Nat
  tail : Nat
  head : Nat
  depth : Nat
  esize : Nat
  buf : Nat
  base : Nat
  deriving DecidableEq, Repr

/-- R30. -/
def ringOf (w : BitVec 128) : Ring :=
  let n := w.toNat
  ⟨BitVec.ofNat 16 (fld n 127 112), fld n 111 96, fld n 95 80, fld n 79 64, fld n 63 48, fld n 45 32, fld n 25 23,
    fld n 22 0⟩

/-- The word with its tag, count, tail and head replaced. -/
def ringPut (w : BitVec 128) (r : Ring) : BitVec 128 :=
  BitVec.ofNat 128 (w.toNat % 2 ^ 64 + 2 ^ 64 * (r.head % 65536) + 2 ^ 80 * (r.tail % 65536)
    + 2 ^ 96 * (r.count % 65536) + 2 ^ 112 * r.rtag.toNat)

/-- A control word after n pops. -/
def ringPopped (w : BitVec 128) (n : Nat) : BitVec 128 :=
  let g := ringOf w
  ringPut w { g with head := (g.head + n) % max 1 g.depth, count := g.count - n }

/-- A control word after a push; the tag is set where the word was predicated on (R95). -/
def ringPushed (w : BitVec 128) (tag : Option (BitVec 16)) : BitVec 128 :=
  let g := ringOf w
  ringPut w { g with tail := (g.tail + 1) % max 1 g.depth, count := g.count + 1, rtag := tag.getD g.rtag }

/-- One half of a queue control word; bits 47:46 and 31:26 are read-only and stay 0 (R30). -/
def setHalf (w : BitVec 128) (hi : Bool) (v : W64) : BitVec 128 :=
  if hi then BitVec.ofNat 128 (w.toNat % 2 ^ 64 + v.toNat * 2 ^ 64)
  else BitVec.ofNat 128 (w.toNat / 2 ^ 64 * 2 ^ 64 + (v &&& 0xFFFF3FFF03FFFFFF).toNat)

/-- The ring of a register. -/
def Regs.ring (r : Regs) (q : Fin 32) : Ring := ringOf r.q[q]

/-- The buffer a ring lies in; none for code 0. -/
def Ring.buffer (r : Ring) : Option Buf :=
  match r.buf with
  | 1 => some .ab | 2 => some .wb | 3 => some .sdm | _ => none

/-- Bytes of an entry. -/
def Ring.ebytes (r : Ring) : Nat := r.esize * 8

/-- Byte address of entry i. -/
def Ring.addr (r : Ring) (i : Nat) : Nat := r.base + i * r.ebytes

/-- Entry i of a ring. -/
def Core.entry (c : Core) (r : Ring) (i : Nat) : List (Option Byte) :=
  match r.buffer with
  | some b => c.bufRead b (r.addr i) r.ebytes
  | none => []

/-- The check of R31 on a queue control word as it will stand: the code that fails, if any. -/
def ringFault (w : BitVec 128) : Option Nat :=
  let r := ringOf w
  if 4 ≤ r.buf then some 0x01
  else if r.depth = 0 then none
  else if r.buf = 0 ∨ r.esize = 0 then some 0x01
  else
    let (al, sz) := if r.buf = 1 then (64, Config.abBytes) else if r.buf = 2 then (1152, Config.wbBytes)
      else (8, Config.sdmBytes)
    if r.base % al ≠ 0 then some 0x02
    else if r.base + r.depth * r.esize * 8 > sz then some 0x20
    else if r.head ≥ r.depth ∨ r.tail ≥ r.depth ∨ r.count > r.depth then some 0x02
    else none

/-! ### Places: cores, quarters, partitions, time -/

/-- Quarters of a partition in the mode in force (R5, R326). -/
def Module.quarters (m : Module) : Nat := if m.qpp = 0 then 1 else if m.qpp = 1 then 2 else 4

/-- The partition of quarter q: its lowest quarter (R5). -/
def Module.partOf (m : Module) (q : Nat) : Nat := q / m.quarters * m.quarters

/-- The quarter of a core (R5). -/
def quarterOf (c : Nat) : Nat := c / 24

/-- The partition of a core. -/
def State.partOf (s : State) (c : Nat) : Nat := s.mod.partOf (quarterOf c)

/-- The lowest core of a partition and how many it has. -/
def State.coresOf (s : State) (p : Nat) : List Nat := range' (24 * p) (24 * s.mod.quarters)

/-- R11. -/
def stagger (c : Nat) : Nat := 8 * (c % 12) + 100 * (c / 12)

def State.part (s : State) (p : Nat) : Part := s.parts[(Fin.ofNat 4 p)]
def State.setPart (s : State) (p : Nat) (v : Part) : State := { s with parts := s.parts.set (Fin.ofNat 4 p) v }
def State.core (s : State) (c : Nat) : Core := s.cores[(Fin.ofNat 96 c)]
def State.setCore (s : State) (c : Nat) (v : Core) : State := { s with cores := s.cores.set (Fin.ofNat 96 c) v }

/-- The clause tick plus 16 of a core, once its fetch has begun (R11, R293, R297). -/
def State.ctick16 (s : State) (c : Nat) : Option Nat :=
  let d := stagger c + (s.core c).lag
  let k := (s.part (s.partOf c)).k
  if d ≤ k then some (k - d) else none

/-- The clause tick of a core, once it has begun. -/
def State.ctick (s : State) (c : Nat) : Option Nat :=
  match s.ctick16 c with
  | some t => if 16 ≤ t then some (t - 16) else none
  | none => none

/-- The phase tick of the partition (0 before tick 0). -/
def State.ptick (s : State) (p : Nat) : Nat := (s.part p).k - 16

/-- The job of the partition of a core, and its phase entry. -/
def Job.entry (j : Job) : Option PhaseEnt := j.table.phases[j.pidx]?
def Job.inflection (j : Job) : Option Infl := j.entry.bind fun e => e.infls[j.infl]?

/-- Whether the phase that runs on partition p is a system phase. -/
def State.sysPhase (s : State) (p : Nat) : Bool :=
  match (s.part p).job.bind Job.entry with
  | some e => e.system
  | none => false

/-- Whether every quarter of partition p has run its start-up test since its last machine check (R346). -/
def State.tested (s : State) (p : Nat) : Bool := (range' p s.mod.quarters).all fun q => (s.part q).tested

/-- After a machine check each of them has to (R346). -/
def State.untest (s : State) (p : Nat) : State :=
  (range' p s.mod.quarters).foldl (fun (s : State) q => s.setPart q { s.part q with tested := false }) s

/-- Whether the job of partition p flushes (R78). -/
def State.ftz (s : State) (p : Nat) : Bool :=
  match (s.part p).job with
  | some j => j.launch.ftz
  | none => false

/-! ### Free values, agenda and outputs -/

/-- The next number of the counter of free values. -/
def State.tick (s : State) : State := { s with fresh := s.fresh + 1 }

/-- The place of an event within its cycle (R254): untimetabled writes by core and in issue order, then inbound writes, then the
rest. -/
def evPrio : Instr → Nat × Nat
  | .untimetabledWritePerformed c op => (c.val, op)
  | .inboundWrite .. | .hostApertureWrite .. => (100, 0)
  | _ => (200, 0)

/-- Whether event a comes before event b. -/
def Ev.before (a b : Ev) : Bool :=
  let (x, y) := (evPrio a.ev, evPrio b.ev)
  decide (a.cycle < b.cycle) || (a.cycle == b.cycle && (decide (x.1 < y.1) || (x.1 == y.1 && decide (x.2 < y.2))))

/-- An event into the agenda, in order of cycle, place and number. -/
def insertEv (e : Ev) : List Ev → List Ev
  | [] => [e]
  | x :: xs => if e.before x then e :: x :: xs else x :: insertEv e xs

/-- An event due at a cycle. -/
def State.schedule (s : State) (cycle : Nat) (e : Instr) : State :=
  { s with agenda := insertEv ⟨max cycle s.now, s.evSeq, e⟩ s.agenda, evSeq := s.evSeq + 1 }

/-- Events of a kind withdrawn. -/
def State.cancel (s : State) (f : Instr → Bool) : State :=
  { s with agenda := s.agenda.filter fun e => !f e.ev }

/-- Something leaves the module. -/
def State.emit (s : State) (o : Output) : State := { s with outputs := s.outputs ++ [o] }

/-- The entry of an MSI-X table (R323): address, data and control as PCIe lays them out. -/
def Module.msixEntry (m : Module) (fn v : Nat) : Nat := (m.msixTable[(Fin.ofNat 5 fn)])[(Fin.ofNat 16 v)].toNat

/-- The message of an MSI-X vector leaves, or the vector is pending while its table entry is masked (R323; assumption 112). -/
def State.msix (s : State) (fn v : Nat) : State :=
  let e := s.mod.msixEntry fn v
  if fld e 96 96 = 1 then
    let i := Fin.ofNat 5 fn
    { s with mod := { s.mod with msixPend := s.mod.msixPend.set i (s.mod.msixPend[i] ||| BitVec.ofNat 16 (2 ^ (v % 16))) } }
  else s.emit (.msix fn v (fld e 63 0) (fld e 95 64))

/-- MSI-X vector v of the primary function of partition p (R323, R338). -/
def State.interrupt (s : State) (p v : Nat) : State := s.msix (p + 1) v

/-! ### The sediment record (R381) -/

/-- Bytes padded with zeros to a length. -/
def padTo (n : Nat) (bs : List Byte) : List Byte := bs ++ List.replicate (n - bs.length) 0

/-- An entry: kind, partition or 0xFF, core or 0xFF, fatal, and the bytes from 16 on. -/
def State.sediment (s : State) (kind part core : Nat) (fatal : Bool) (bytes : List Byte) : State :=
  let e := leBytes 8 (s.now - s.pgood) ++ leBytes 4 s.mod.sedHead ++
    [BitVec.ofNat 8 kind, BitVec.ofNat 8 part, BitVec.ofNat 8 core, if fatal then 1 else 0] ++ (padTo 16 bytes).take 16
  { s with mod := { s.mod with sed := (e :: s.mod.sed).take 4096, sedHead := (s.mod.sedHead + 1) % 2 ^ 32 } }

/-- A fatal event takes a snapshot of the ring, which ends with the entry of the copy, and copies it to flash within 150 ms;
during a copy the next one waits (R382). -/
def State.flashCopy (s : State) : State :=
  if s.mod.flashBusy then { s with mod := { s.mod with flashWait := s.mod.flashWait + 1 } }
  else
    let s := s.sediment 0x0D 0xFF 0xFF false [4]
    ({ s with mod := { s.mod with flashBusy := true, flashSnap := s.mod.sed.reverse } }).schedule (s.now + 120000000) .flashCopy

/-! ### Faults (R338 to R342) -/

/-- A fault of a word: code, class, detail, address, and the ext bytes. -/
structure Trap where
  code : Nat
  detail : Nat := 0
  addr : Nat := 0
  cls : Nat := 0
  deriving DecidableEq, Repr

/-- The word of the issue slot, for the record. -/
def State.src (s : State) : Src :=
  ⟨s.slot.eng, s.slot.widx, s.slot.word, s.slot.tick,
    (s.core s.slot.core).retired[(Fin.ofNat 8 (match s.slot.eng with
      | .S => 0 | .Y => 1 | .M => 2 | .V => 3 | .L => 4 | .W => 5 | .X => 6 | .G => 7))],
    (s.core s.slot.core).regs.ctl.elastic⟩

def engNo : Eng → Nat
  | .S => 0 | .Y => 1 | .M => 2 | .V => 3 | .L => 4 | .W => 5 | .X => 6 | .G => 7

/-- Whether fault a comes before fault b of the same cycle: lower core, then lower engine (R338). -/
def FaultInfo.before (a b : FaultInfo) : Bool :=
  let ka := (a.core.getD 255) * 16 + (match a.src with | some x => engNo x.eng | none => 15)
  let kb := (b.core.getD 255) * 16 + (match b.src with | some x => engNo x.eng | none => 15)
  decide (ka < kb)

/-- The sediment entry of a fault (kind 0x02), with the number of its record; a machine check and a gate watchdog's expiry are
fatal (R382). -/
def State.sedFault (s : State) (p : Nat) (f : FaultInfo) (rseq : Nat) : State :=
  let (t, e) := match f.src with
    | some x => (x.tick, engNo x.eng)
    | none => (0, 0xFF)
  s.sediment 0x02 p (f.core.getD 0xFF) (f.cls == 4 || f.code == 0x2A)
    ([BitVec.ofNat 8 f.code, BitVec.ofNat 8 f.cls] ++ leBytes 4 rseq ++ leBytes 4 t ++ [BitVec.ofNat 8 e])

/-- The other modules of the group of a system phase hear that partition p stops (R341). -/
def State.tellGroup (s : State) (p : Nat) : State := if s.sysPhase p then s.emit (.abortTorus p) else s

/-- A fault in the sediment record at its moment, a machine check with its copy to flash (R381, R382). While a record waits for the
driver the fault counts there (R338). The entry's record number is that of the record which it makes or counts in. -/
def State.noteFault (s : State) (p : Nat) (f : FaultInfo) : State :=
  let part := s.part p
  let t := match part.frec with
    | some old => (s.setPart p { part with frec := some { old with more := min 255 (old.more + 1) } }).sedFault p f part.rseq
    | none => s.sedFault p f (part.rseq + 1)
  if f.cls = 4 then t.flashCopy else t

/-- The abort that begins at tick counter k: the other cores issue words whose ticks begin less than 24 cycles later (R341). -/
def Part.abortAt (x : Part) (k now : Nat) (f : FaultInfo) (debug : Bool) : Abort := ⟨f, k, now, k + cdiv 24 (max 1 x.cad), debug⟩

/-- Taking a fault in a phase at a tick (R341): the first one begins the abort; of several in one cycle the one that comes first
is kept; the others count in the record to come, unless one stands (R338). -/
def State.takeFault (s : State) (p k : Nat) (f : FaultInfo) : State :=
  let s := s.noteFault p f
  let part := s.part p
  match part.abort with
  | none => s.setPart p { part with abort := some (part.abortAt k s.now f false), more := 0 }
  | some a =>
    s.setPart p { part with
      abort := some (if a.cycle = s.now && f.before a.info && !a.debug then { a with info := f } else a)
      more := if part.frec.isSome then part.more else min 255 (part.more + 1) }

/-- The same at the tick that runs. In a system phase the group's other modules are told when the abort begins. -/
def State.beginAbort (s : State) (p : Nat) (f : FaultInfo) : State :=
  let t := s.takeFault p (s.part p).k f
  if (s.part p).abort.isNone then t.tellGroup p else t

/-- The phase tick in which an event of this cycle falls, as a tick counter: the one that has just run, where the cycle is its
start. -/
def State.eventTick (s : State) (p : Nat) : Nat :=
  let x := s.part p
  if s.now + max 1 x.cad = x.base then x.k - 1 else x.k

/-- A core as it stood before its first word of clause tick t, the tick that runs, halted (R341: no word of the core at the
fault's tick issues). -/
def State.undoCore (s : State) (c : Fin 96) (t : Nat) : State :=
  let base := (mapGet s.undo c.val).getD (s.core c)
  let p := s.partOf c
  let part := s.part p
  let s := s.setPart p { part with beats := part.beats.filter fun b => !(b.core == c.val && b.src.tick == t) }
  { s.setCore c { base with halted := true } with undo := mapDel s.undo c.val }

/-- A core whose words of clause tick t are taken back after the tick has ended: what they did at their issue is gone (`base`: the
core before the first of them), and what events of the cycle have done since stays. -/
def Core.without (c base : Core) (t : Nat) : Core :=
  { base with
    halted := true
    pend := c.pend.filter fun p => p.src.tick ≠ t, flying := c.flying.filter fun f => f.src.tick ≠ t, seq := c.seq
    outb := c.outb.filter fun o => base.outb.any fun b => b.id == o.id
    arrivals := base.arrivals ++ c.arrivals.filter fun a => !base.arrivals.any fun b => b.2 == a.2
    regs := { base.regs with sem := c.regs.sem }
    mrf := c.mrf, ab := c.ab, wb := c.wb, sdm := c.sdm, gm := { base.gm with marks := c.gm.marks }
    stalls := c.stalls, claims := [], landed := [] }

/-- A fault that an event finds halts core c (R341): the words of the tick in which it falls are taken back, if that tick has just
run. -/
def State.haltCore (s : State) (c : Fin 96) : State :=
  match mapGet s.undo c.val with
  | some base =>
    if s.eventTick (s.partOf c) < (s.part (s.partOf c)).k then
      let t := (s.ctick c).getD 1 - 1
      (s.undoCore c t).setCore c ((s.core c).without base t)
    else s.setCore c { s.core c with halted := true }
  | none => s.setCore c { s.core c with halted := true }

/-- The same for the core and tick of the issue slot. -/
def State.undoTick (s : State) (c : Fin 96) : State := s.undoCore c s.slot.tick

/-- What an abort for a debug stop or a shutdown carries in place of a fault: no record is written of it (R369, R378). -/
def noFault : FaultInfo := ⟨0, 1, none, none, 0, 0, []⟩

/-- A debug stop at a word of core c's engine e (R369): the partition freezes on the terms of R341, and no record is written.
The position does not stop the partition again (R369). Once an abort is under way no position stops it (assumption 56). -/
def State.debugFreeze (s : State) (c : Fin 96) (e : Eng) : State :=
  let p := s.partOf c
  let s := s.undoTick c
  let part := s.part p
  if part.abort.isSome then s
  else
    (s.setPart p { part with
      skipBrk := some (c.val, e, (s.core c).retired[(Fin.ofNat 8 (engNo e))])
      abort := some (part.abortAt part.k s.now noFault true) }).tellGroup p

/-- The words left in a core's queues S to G, 16 bits each, for bytes 88 to 103 of the record of code 0x0A (R340). -/
def Core.wordsLeft (c : Core) : List Byte := c.queues.toList.flatMap fun q => leBytes 2 (min 65535 q.length)

/-- A precise trap at the word of the issue slot (R38, R64, R341): nothing of the word is written. -/
def State.trap (s : State) (t : Trap) : State :=
  let c := s.slot.core
  (s.undoTick c).beginAbort (s.partOf c)
    ⟨t.code, t.cls, some c, some s.src, t.detail, t.addr, if t.code = 0x0A then (s.core c).wordsLeft else []⟩

/-- Whether two places name one word of a core. -/
def Src.sameWord (x y : Src) : Bool := x.eng == y.eng && x.widx == y.widx && x.tick == y.tick

/-- Landings that a word still has are withdrawn, and its beats in flight with them (R150, R245, R292). -/
def Core.dropWord (c : Core) (x : Src) : Core :=
  { c with pend := c.pend.filter (fun p => !p.src.sameWord x), flying := c.flying.filter fun f => !f.src.sameWord x }

/-- The class of a fault that is found after the issue of its word: 1 where R340's row has that class, else 0. -/
def lateClass (code : Nat) : Nat := if [0x07, 0x09, 0x10, 0x18, 0x20, 0x22, 0x23, 0x31].contains code then 1 else 0

/-- The core stops at this tick with a fault of word x in a class, and the landings that the word still has are withdrawn,
with its beats at stacks. -/
def State.stopWord (s : State) (c : Fin 96) (x : Src) (t : Trap) (cls : Nat) : State :=
  let s := s.setCore c (let d := (s.core c).dropWord x; { d with halted := true })
  let p := s.partOf c
  let part := s.part p
  (s.setPart p { part with beats := part.beats.filter fun b => !(b.core == c.val && b.src.sameWord x) }).beginAbort p
    ⟨t.code, cls, some c, some x, t.detail, t.addr, []⟩

/-- A fault found when something of a word lands or is read (R150). -/
def State.lateFault (s : State) (c : Fin 96) (x : Src) (t : Trap) : State := s.stopWord c x t (lateClass t.code)

/-- A fault that no word of a core causes at a tick (a home, an outbound translation): class 1 (R220, R228). -/
def State.remoteFault (s : State) (c : Fin 96) (x : Src) (t : Trap) : State :=
  s.beginAbort (s.partOf c) ⟨t.code, t.cls, some c, some x, t.detail, t.addr, []⟩

/-- The fault record of a fault and a job, which for a refused or gated launch has not started (R338). A class 2 record names
the phase being prepared. -/
def State.recordFor (s : State) (p : Nat) (j : Option Job) (f : FaultInfo) (step place : Nat) (banked launch : Bool) : FaultRec :=
  let part := s.part p
  let sel := if f.cls = 2 ∧ 5 ≤ step then part.next else none
  let pidx := match sel with | some x => x.pidx | none => (j.map (·.pidx)).getD 0
  let ent := j.bind fun j => j.table.phases[pidx]?
  { rseq := part.rseq + 1, info := f, replayable := (ent.map (·.replayable)).getD false,
    system := (ent.map (·.system)).getD false, banked := banked,
    phase := match sel with | some x => x.phase | none => (j.map (·.phase)).getD 0
    pidx := pidx
    infl := match sel with | some x => x.infl | none => (j.map (·.infl)).getD 0
    tag := (j.map (·.launch.tag)).getD 0, queue := (j.map (·.queue)).getD 0, ridx := (j.map (·.ridx)).getD 0,
    cycles := s.now - (j.map (·.start)).getD s.now,
    frozen := (f.core.map fun c => (s.core c).frozen).getD 0, more := part.more, step := step, place := place, launch := launch }

/-- A fault record is made, unless one waits for the driver (R338). -/
def State.putRecord (s : State) (p : Nat) (r : FaultRec) : State :=
  let part := s.part p
  match part.frec with
  | some _ => s
  | none => (s.setPart p { part with frec := some r, rseq := part.rseq + 1, more := 0 }).interrupt p 0

/-- What the sequencer of partition p has under way is withdrawn. -/
def State.cancelSequencer (s : State) (p : Nat) : State :=
  let q := Fin.ofNat 4 p
  s.cancel fun i => i == .gateEvaluation q || i == .phaseStart q || i == .lastSignOff q
    || i == .sequencerProgress q || i == .refreshSlot q || i == .preemptResume q

/-- A fault that stops the partition: its job's record is written (R309, R338). -/
def State.recordFault (s : State) (p : Nat) (f : FaultInfo) (step : Nat) (banked : Bool) : State :=
  let t := (s.cancelSequencer p).putRecord p (s.recordFor p (s.part p).job f step 0 banked false)
  t.setPart p { t.part p with seq := .stopped, failed := true }

/-- The job's queue stops with err 5 (R335). -/
def State.stopQueue (s : State) (p q err fidx : Nat) : State :=
  let part := s.part p
  let qu : Queue := { part.queues[(Fin.ofNat 64 q)] with qstate := 2, err := err, fidx := fidx % 65536 }
  (s.setPart p { part with queues := part.queues.set (Fin.ofNat 64 q) qu }).interrupt p 0

/-- A fault stops the job: the record, and the job's queue stops with err 5 (R309, R335). -/
def State.stopJob (s : State) (p step : Nat) (f : FaultInfo) (banked : Bool) : State :=
  let s := s.recordFault p f step banked
  match (s.part p).job with
  | some j => s.stopQueue p j.queue 5 j.ridx
  | none => s

/-- A fault outside a phase. -/
def State.slackFault (s : State) (p step : Nat) (f : FaultInfo) (banked : Bool) : State := (s.noteFault p f).stopJob p step f banked

/-- A fault that an event finds, of core c or of none: an abort while a phase runs, else the partition stops. -/
def State.eventFault (s : State) (p : Nat) (c : Option (Fin 96)) (f : FaultInfo) : State :=
  match (s.part p).seq with
  | .phase | .signing =>
    let t := (match c with | some c => s.haltCore c | none => s).takeFault p (s.eventTick p) f
    if (s.part p).abort.isNone then t.tellGroup p else t
  | .slack n => s.slackFault p n f false
  | _ => s.slackFault p 0 f false

/-! ### What is pending in a core -/

/-- Whether pending item a comes before b: by tick, place within the tick, then issue order (R254). -/
def Pend.before (a b : Pend) : Bool :=
  if a.tick ≠ b.tick then decide (a.tick < b.tick)
  else if a.ord ≠ b.ord then decide (a.ord < b.ord)
  else if a.src.tick ≠ b.src.tick then decide (a.src.tick < b.src.tick)
  else decide (a.seq < b.seq)

/-- An item put in its place. -/
def insertPend (p : Pend) : List Pend → List Pend
  | [] => [p]
  | x :: xs => if p.before x then p :: x :: xs else x :: insertPend p xs

/-- Something of a word becomes due: tick, place within the tick, act. -/
def Core.due (c : Core) (x : Src) (tick ord : Nat) (a : Act) : Core :=
  { c with pend := insertPend ⟨tick, ord, c.seq, x, a⟩ c.pend, seq := c.seq + 1 }

/-- What a word leaves pending: offset from its issue tick, place within the tick, act. -/
abbrev Due := Nat × Nat × Act

/-- All of it. -/
def Core.dueAll (c : Core) (x : Src) (t : Nat) : List Due → Core
  | [] => c
  | (o, r, a) :: ds => Core.dueAll (c.due x (t + o) r a) x t ds

/-- Writes that land at an offset. -/
def landAt (o : Nat) (es : List Effect) : Due := (o, 1, .land es)

/-- Flags that are ORed in at an offset; nothing for no flag (R89). -/
def flagsAt (o : Nat) (f : Flags) : List Due := if f = 0 then [] else [(o, 2, .land [.orFlags f])]

/-! ### Phase digests (R371) -/

/-- The 64-bit chunks of bytes; a poisoned chunk is all ones. -/
def byteChunks : Nat → List (Option Byte) → List W64
  | 0, _ => []
  | n + 1, bs =>
    (match leNat? (bs.take 8) with
      | some v => BitVec.ofNat 64 v
      | none => BitVec.allOnes 64) :: byteChunks n (bs.drop 8)

/-- A word of engine e folds chunks into its value. -/
def Core.digestChunks (c : Core) (e : Eng) (vs : List W64) : Core :=
  let i := Fin.ofNat 8 (engNo e)
  { c with digest := c.digest.set i (vs.foldl (fun h v => mix64 (h ^^^ v)) c.digest[i]) }

/-- An issued word at clause tick t. -/
def Core.digestWord (c : Core) (e : Eng) (w : W64) (t : Nat) : Core :=
  let i := Fin.ofNat 8 (engNo e)
  { c with digest := c.digest.set i (mix64 (mix64 (c.digest[i] ^^^ w) ^^^ BitVec.ofNat 64 t)) }

/-- D of R371. -/
def Core.digestD (c : Core) : W64 :=
  (range' 0 8).foldl (fun d i => d ^^^ mix64 (c.digest[(Fin.ofNat 8 i)] + BitVec.ofNat 64 i)) 0

/-! ### Device addresses: homes, page walks, regions -/

/-- A home n bytes on. -/
def homePlus (h : Home) (n : Nat) : Home :=
  match h with
  | .hbm pa => .hbm (pa + n)
  | .host ba => .host (ba + n)
  | .peer x y z pa => .peer x y z (pa + n)

/-- The key of a peer byte in `State.peer`. -/
def peerKey (x y z pa : Nat) : Nat := ((x * 32 + y) * 32 + z) * 2 ^ 52 + pa

/-- One byte at a home; none is poisoned. Host memory carries no mark (R21), and what the host has stored there itself since
the module wrote the byte is a free value (assumption 3). Beyond HBM there is nothing: it reads as poison, and writes there
are discarded (assumption 40). -/
def State.homeByte (s : State) (h : Home) : Option Byte :=
  match h with
  | .hbm pa => if pa < Config.hbmBytes then s.hbm.get false 64 pa else none
  | .host ba => some ((Config.hostStore s.now ba).getD ((mapGet s.host ba).getD (Config.hostByte ba)))
  | .peer x y z pa => (mapGet s.peer (peerKey x y z pa)).getD (some (Config.peerByte x y z pa))

/-- n bytes at a home. -/
def State.homeRead (s : State) (h : Home) (n : Nat) : List (Option Byte) :=
  (range' 0 n).map fun i => s.homeByte (homePlus h i)

/-- Two homes are the same agent (R252, R263): the stack, of this module or of a peer, or the host port. -/
def sameHome : Home → Home → Bool
  | .hbm a, .hbm b => a / Config.stackBytes == b / Config.stackBytes
  | .host _, .host _ => true
  | .peer x y z a, .peer x' y' z' b =>
    x == x' && y == y' && z == z' && a / Config.stackBytes == b / Config.stackBytes
  | _, _ => false

/-- A translation, or the code, level and address at which the walk fails (R351, R352). -/
inductive Walk where
  | ok (e : TEntry)
  | fail (code level addr : Nat)
  deriving DecidableEq, Repr

/-- A 64-bit entry of a page table; none in a poisoned granule. -/
def State.pte (s : State) (pa : Nat) : Option Nat := leNat? (s.hbm.read false 64 pa 8)

/-- The walk from a table on (R351): level, its table, and the levels left as fuel. -/
def State.walkFrom (s : State) (va : Nat) : Nat → Nat → Nat → Walk
  | 0, level, _ => .fail 0x22 level 0
  | fuel + 1, level, tab =>
    let idx := match level with
      | 0 => fld va 51 39
      | 1 => fld va 38 30
      | 2 => fld va 29 21
      | _ => fld va 20 16
    match s.pte (tab + 8 * idx) with
    | none => .fail 0x18 0 ((tab + 8 * idx) / 64 * 64)
    | some e =>
      let tgt := fld e 7 6
      let leaf := fld e 1 1 == 1
      let psize := match level with | 1 => 2 ^ 30 | 2 => 2 ^ 21 | _ => 2 ^ 16
      let base := fld e 47 12 * 4096
      let reserved := fld e 63 61 != 0 || fld e 11 8 != 0 || fld e 5 5 != 0 || tgt == 3
        || (tgt != 2 && fld e 60 48 != 0)
      if e % 2 = 0 || reserved || (leaf && level == 0) || (!leaf && level == 3) then .fail 0x22 level va
      else if leaf then
        if base % psize ≠ 0 then .fail 0x22 level va
        else .ok ⟨va / psize * psize, psize,
          (match tgt with
            | 0 => .hbm base
            | 1 => .host base
            | _ => .peer (fld e 51 48) (fld e 55 52) (fld e 60 56) base),
          fld e 2 2 == 1, fld e 3 3 == 1, fld e 4 4 == 1, false⟩
      else if tgt ≠ 0 then .fail 0x22 level va
      else State.walkFrom s va fuel (level + 1) base

/-- Whether a physical address lies in HBM (R1): the tables and pages of target 0 do. -/
def homeExists : Home → Bool
  | .hbm pa => decide (pa < Config.hbmBytes)
  | _ => true

/-- A walk of partition p's tables (R344: with pten 0 it fails at level 0). -/
def State.walk (s : State) (p va : Nat) : Walk :=
  if (s.part p).pten then
    match s.walkFrom va 4 0 (s.part p).root with
    | .ok e => if homeExists e.home then .ok e else .fail 0x22 3 va
    | f => f
  else .fail 0x22 0 va

/-- A cached translation of an address (R352). -/
def Part.cached (p : Part) (va : Nat) : Option TEntry :=
  p.cache.find? fun e => decide (e.va ≤ va) && decide (va < e.va + e.size)

/-- A translation: cached, else walked. -/
def State.translate (s : State) (p va : Nat) : Walk :=
  match (s.part p).cached va with
  | some e => .ok e
  | none => s.walk p va

/-- A translation loaded into the cache: 8,192 entries, oldest unpinned replaced first; where all are pinned it is not kept (R352). -/
def dropOldest : List TEntry → List TEntry
  | [] => []
  | e :: es => if e.pinned then e :: dropOldest es else es

def Part.load (p : Part) (e : TEntry) (pin : Bool) : Part :=
  if p.cache.any (fun x => x.va == e.va && x.size == e.size) then
    { p with cache := p.cache.map fun x => if x.va == e.va && x.size == e.size then { x with pinned := x.pinned || pin } else x }
  else
    let c := if p.cache.length ≥ 8192 then dropOldest p.cache else p.cache
    if 8192 ≤ c.length then p else { p with cache := c ++ [{ e with pinned := pin }] }

/-- The home of an address under an entry. -/
def TEntry.at' (e : TEntry) (va : Nat) : Home := homePlus e.home (va - e.va)

/-- Region modes (R305). -/
def modeR : Nat := 0
def modeW : Nat := 1
def modeRW : Nat := 2
def modeACC : Nat := 3
def modeSHR : Nat := 4

/-- Kinds of access (R256). -/
inductive Access where
  | load | store | acc (op : Nat) | amo | sig | image
  deriving DecidableEq, Repr

/-- The table of R256. -/
def Region.permits (r : Region) (a : Access) : Bool :=
  match a with
  | .load => r.mode == modeR || r.mode == modeRW || r.mode == modeSHR
  | .store => r.mode == modeW || r.mode == modeRW || r.mode == modeSHR
  | .acc op => r.mode == modeRW || (r.mode == modeACC && r.op == op)
  | .amo => r.mode == modeRW || r.mode == modeSHR
  | .sig => r.mode == modeSHR
  | .image => r.mode == modeR || r.mode == modeRW

/-- An interval of device addresses inside one region that permits the access. -/
def Core.inRegion (c : Core) (space va n : Nat) (a : Access) : Bool :=
  c.regions.any fun r => r.space == space && r.permits a && decide (r.base ≤ va) && decide (va + n ≤ r.base + r.size)

/-- The permission bits of a page entry that an access needs (R352), as bits 4:0 of R340's 0x23. -/
def Access.lacks (a : Access) (e : TEntry) : Nat :=
  match a with
  | .load | .image => if e.r then 0 else 4
  | .store => if e.w then 0 else 8
  | .acc _ => (if e.r then 0 else 4) + (if e.w then 0 else 8)
  | .amo | .sig => (if e.r then 0 else 4) + (if e.w then 0 else 8) + (if e.a then 0 else 16)

/-- Pages that an interval touches: the homes of its pieces, each with its length; fuel bounds the pages. -/
def State.pieces (s : State) (p : Nat) (a : Access) : Nat → Nat → Nat → Except Trap (List (Home × Nat))
  | 0, _, _ => .ok []
  | fuel + 1, va, n =>
    if n = 0 then .ok []
    else match s.translate p va with
      | .fail code level addr => .error ⟨code, level, addr, 0⟩
      | .ok e =>
        if a.lacks e ≠ 0 then .error ⟨0x23, a.lacks e, va, 0⟩
        else
          let k := min n (e.va + e.size - va)
          match State.pieces s p a fuel (va + k) (n - k) with
          | .ok r => .ok ((e.at' va, k) :: r)
          | .error t => .error t

/-- The checks of a device interval at issue (R117, R204): bits 63:52, region, page. -/
def State.devCheck (s : State) (c : Fin 96) (a : Access) (va n : Nat) : Except Trap (List (Home × Nat)) :=
  if va ≥ 2 ^ 52 ∨ !((s.core c).inRegion 0 va n a) then .error ⟨0x20, 0, va, 0⟩
  else s.pieces (s.partOf c) a 4 va n

/-- The stack of an HBM address. -/
def stackOf (pa : Nat) : Nat := pa / Config.stackBytes

/-- The path latency of a home (R287), for a load or a store of nb beats by core c. -/
def State.pathLatency (s : State) (c : Fin 96) (isLoad : Bool) (nb : Nat) (h : Home) : Nat :=
  match h with
  | .hbm pa => if stackOf pa / 3 = quarterOf c then 120 else 184
  | .peer x y z _ => 120 + (if isLoad then 672 else 336) * Config.torusHops x y z
  | .host _ => (if isLoad then 2048 else 64) + 4 * (nb - 1)

/-! ### Writing at a home -/

/-- Partitions that wait at step 5, or that have a gated head record, hear of writes (R265, R333). -/
def State.gateWaits (s : State) : Bool :=
  (range' 0 4).any fun p =>
    (s.part p).seq == .slack 5 || ((s.part p).queues.toList.any fun q =>
      match q.head1 with
      | some l => l.gated && !q.gateOk
      | none => false)

/-- The physical or bus address of a home. -/
def homeAddr : Home → Nat
  | .hbm pa => pa
  | .host ba => ba
  | .peer _ _ _ pa => pa

/-- The homes of the 64-byte lines that n bytes from a home on touch: the first where the bytes begin (R262). -/
def homeLines (h : Home) (n : Nat) : List Home :=
  if n = 0 then []
  else h :: (range' 1 ((homeAddr h % 64 + n - 1) / 64)).map fun i => homePlus h (64 * i - homeAddr h % 64)

/-- R262: a write notifies the gates on every line that it touches. -/
def State.notify (s : State) (h : Home) (n : Nat) : State :=
  if s.gateWaits then (homeLines h n).foldl (fun s l => s.schedule s.now (.writeNotification l)) s else s

/-- On whose behalf a home is written: for a word of a phase that runs, its partition, whose journal takes the write up (R370);
and whether the word was issued in a re-execution, so that what it does outside the module stands already (R369). -/
structure Writer where
  phase : Option Nat
  again : Bool
  deriving DecidableEq, Repr

/-- The hub, or an agent outside this module's running phases. -/
def Writer.hub : Writer := ⟨none, false⟩

/-- A timetabled write of a core in its partition's running phase. -/
def State.timed (s : State) (c : Nat) : Writer := ⟨some (s.partOf c), (s.part (s.partOf c)).reexec.isSome⟩

/-- Whether partition p's phase keeps a journal (R370): in debug record and replay mode, until the journal is full. -/
def Part.journals (x : Part) : Bool :=
  (x.dmodeOn == 1 || x.dmodeOn == 2) && (x.seq == .phase || x.seq == .signing) && !x.jfull

/-- The address of entry n of partition p's journal: 72 bytes each from its base on (assumption 12). -/
def Part.journalAt (x : Part) (n : Nat) : Nat := x.jbase + 72 * n

/-- The first write of a granule in a phase appends its 64 old bytes and its address to the journal in HBM (R370). -/
def State.journalOne (s : State) (p g : Nat) : State :=
  let x := s.part p
  if !x.journals || x.journal.any (·.granule == g) then s
  else
    let n := x.journal.length
    if (n + 1) * 72 > x.jsize * 65536 then s.setPart p { x with jfull := true }
    else
      let entry := (range' (64 * g) 64).map s.hbm.byte ++ leBytes 8 (64 * g)
      let ws := (place (x.journalAt n) (entry.map some)).filter fun w => decide (w.1 < Config.hbmBytes)
      { s.setPart p { x with journal := ⟨g, s.hbm.poisoned false 64 (64 * g), []⟩ :: x.journal } with hbm := s.hbm.store false 64 ws }

/-- The same for the granules of a write. -/
def State.journalise (s : State) (p : Nat) (granules : List Nat) : State :=
  granules.foldl (fun s g => s.journalOne p g) s

/-- The bytes that an atomic has written keep their values when the journal is undone: its first performance stands (R369). -/
def State.journalKeep (s : State) (p pa n : Nat) : State :=
  let x := s.part p
  s.setPart p { x with journal := x.journal.map fun e =>
    { e with kept := (range' pa n).foldl (fun k a => if a / 64 = e.granule then setAdd k a else k) e.kept } }

/-- The bytes of a granule of a peer's memory after a store (R119, R206): poisoned whole by a poisoned byte; else, where it was
poisoned, zero in the bytes not written. -/
def peerGranule (old : List (Option Byte)) (g : Nat) (ws : List BW) : List BW :=
  let mine := ws.filter fun w => decide (w.1 / 64 = g / 64)
  let bad := mine.any fun w => w.2.isNone
  let was := old.any (·.isNone)
  (place g old).map fun b =>
    if bad then (b.1, none)
    else match mine.reverse.find? fun w => w.1 == b.1 with
      | some w => w
      | none => if was then (b.1, some 0) else b

/-- Bytes written at a home: poison by granule (R206), the journal, the notification. Writes to the outside leave the module,
but for those of a re-execution, which stand already (R369). -/
def State.homeWrite (s : State) (w : Writer) (h : Home) (bs : List (Option Byte)) : State :=
  match h with
  | .hbm pa =>
    let ws := (place pa bs).filter fun w => decide (w.1 < Config.hbmBytes)
    let s := match w.phase with
      | some p => s.journalise p (unitsOf 64 ws)
      | none => s
    ({ s with hbm := s.hbm.store false 64 ws }).notify h bs.length
  | .host ba =>
    if w.again then s else
    let m := (place ba bs).foldl (fun (m : SMap Byte) w => mapSet m w.1 (w.2.getD (Config.hostByte (s.fresh + w.1)))) s.host
    (({ s with host := m, fresh := s.fresh + 1 }).emit (.hostWrite ba bs)).notify h bs.length
  | .peer x y z pa =>
    if w.again then s else
    let ws := place pa bs
    let m := (unitsOf 64 ws).foldl (fun (m : SMap (Option Byte)) g =>
      (peerGranule (s.homeRead (.peer x y z (64 * g)) 64) (64 * g) ws).foldl
        (fun (m : SMap (Option Byte)) w => mapSet m (peerKey x y z w.1) w.2) m) s.peer
    (({ s with peer := m }).emit (.peerWrite h bs)).notify h bs.length

/-- A write over several pieces of pages. -/
def State.homeWrites (s : State) (w : Writer) : List (Home × Nat) → List (Option Byte) → State
  | [], _ => s
  | (h, n) :: hs, bs => State.homeWrites (s.homeWrite w h (bs.take n)) w hs (bs.drop n)

/-- A read over several pieces of pages. -/
def State.homeReads (s : State) : List (Home × Nat) → List (Option Byte)
  | [] => []
  | (h, n) :: hs => s.homeRead h n ++ State.homeReads s hs

/-! ### Elastic mode: a core freezes (R38, R297, R298) -/

/-- The word of the slot goes back to the head of its queue; the core's tick counter stops for this tick, charged to
the engine and bank column. -/
def State.freeze (s : State) (col : Nat) : State :=
  let c := s.slot.core
  let co := s.core c
  let i := Fin.ofNat 8 (engNo s.slot.eng)
  s.setCore c { co with
    queues := co.queues.set i (⟨s.slot.widx, s.slot.word, s.slot.tick⟩ :: co.queues[i])
    stalled := some ⟨s.slot.eng, col, []⟩ }

/-- A timing deviation at the word of the slot (R38): a trap in strict mode, a frozen tick in elastic mode where the
table of R296 lets the core wait. -/
def State.deviate (s : State) (t : Trap) (waits : Bool) : State :=
  if waits && (s.core s.slot.core).regs.ctl.elastic then s.freeze 48 else s.trap t

/-- Counter of the stall matrix: requester row and column (R298). -/
def stallKey (row col : Nat) : Nat := row * 49 + col

/-- One more stalled tick, saturating. -/
def Core.countStall (c : Core) (row col : Nat) : Core :=
  let k := stallKey row col
  { c with stalls := mapSet c.stalls k (min 0xFFFFFFFF ((mapGet c.stalls k).getD 0 + 1)) }

end Sys2Proof.Machine
end

