-- ==== Sys2Proof/Machine/Flags.lean ====
section
/-! DEFINITION. IEEE flags and traps of a word (R89, R90), and the element formats of the float types. -/

namespace Sys2Proof.Machine

/-- The IEEE traps of R90: a signalling NaN before an enabled flag. -/
def ieeeTrap (ft : BitVec 6) (f : Flags) (snan : Bool) : Option Trap :=
  if ft.getLsbD 5 && snan then some ⟨0x11, 0, 0, 0⟩
  else if f &&& ft.setWidth 5 ≠ 0 then some ⟨0x10, (f &&& ft.setWidth 5).toNat, 0, 0⟩
  else none

/-- The format of a float type (R76). -/
def fmtOf : VTy → FFmt
  | .f64 => FFmt.f64
  | .bf16 => FFmt.bf16
  | .f16 => FFmt.f16
  | _ => FFmt.f32

/-- Whether a bit pattern of a format is a signalling NaN. -/
def FFmt.snan (F : FFmt) (b : Nat) : Bool := (F.unpack b).isSnan

/-- Whether flushing acts on a type (R78): F16 and BF16 only. -/
def flushes (ftz : Bool) (ty : VTy) : Bool := ftz && (ty == .f16 || ty == .bf16)

/-- What an element comes to: its bits, its flags, and whether a signalling NaN was among its operands. -/
structure Elem where
  val : Nat
  flags : Flags := 0
  snan : Bool := false
  deriving DecidableEq, Repr

/-- An element with a pattern and flags. -/
def elemOf (r : Nat × Flags) (snan : Bool) : Elem := ⟨r.1, r.2, snan⟩

/-- The flags of the elements that are not poisoned and are enabled (R89). -/
def elemFlags : List (Option (Option Elem)) → Flags
  | [] => 0
  | some (some e) :: es => e.flags ||| elemFlags es
  | _ :: es => elemFlags es

/-- Whether one of them had a signalling NaN operand (R90). -/
def elemSnan : List (Option (Option Elem)) → Bool
  | [] => false
  | some (some e) :: es => e.snan || elemSnan es
  | _ :: es => elemSnan es

end Sys2Proof.Machine
end

