-- ==== Sys2Proof/Machine/Operands.lean ====
section
/-! DEFINITION. What every word shares: its checks in the order of R64 and R38, predication (R42), bank claims (R19,
R297), token and ring operands (R39 to R41, R95), line operands (R23 to R25), lane masks (R157), AB forms (R186). -/

namespace Sys2Proof.Machine

/-! ### The plan of a word at its issue tick -/

/-- What a word comes to: its predicate; the first decode check that fails; the offset of its last landing where R46
judges it; the scoreboard check that fails, and whether elastic mode waits; the banks it takes at its issue tick; the
tokens it pops; what it leaves pending in any case, when predicated off, and when on. -/
structure Plan where
  pred : Fin 16 := 0
  dec : Option Trap := none
  span : Nat := 0
  dev : Option (Trap × Bool) := none
  banks : List Nat := []
  toks : List (Fin 6 × Nat) := []
  books : List Due := []
  off : List Due := []
  on : Except Trap (List Due) := .ok []

/-- The first of several checks that fails. -/
def firstOf {α : Type} : List (Option α) → Option α
  | [] => none
  | some t :: _ => some t
  | none :: ts => firstOf ts

/-- A check that fails with a trap. -/
def failIf (b : Bool) (t : Trap) : Option Trap := if b then some t else none

/-- Data checks: the first that fails, else the effects. -/
def guardAll {α : Type} (ts : List (Option Trap)) (v : α) : Except Trap α :=
  match firstOf ts with
  | some t => .error t
  | none => .ok v

/-- A token leaves its FIFO (R41). -/
def Regs.takeTok (r : Regs) (f : Fin 6) (n : Nat) : Regs := { r with tok := r.tok.set f (r.tok[f] - n) }

/-- A word issues (R35, R41, R371): its tokens are popped, it is retired and digested, and its effects become due. -/
def State.commit (s : State) (p : Plan) (ds : List Due) : State :=
  let c := s.slot.core
  let co := s.core c
  let e := Fin.ofNat 8 (engNo s.slot.eng)
  let co := { co with
    regs := p.toks.foldl (fun (r : Regs) (t : Fin 6 × Nat) => r.takeTok t.1 t.2) co.regs
    retired := co.retired.set e (co.retired[e] + 1)
    claims := co.claims ++ p.banks.map fun b => (⟨b, some s.slot.eng, some s.src⟩ : Claim) }
  s.setCore c ((co.digestWord s.slot.eng s.slot.word s.slot.tick).dueAll s.src s.slot.tick (p.books ++ ds))

/-- Whether word x, which asks second, gives way to word y: the later in engine order (R297), but the later-issued at the
row port (R285), and an L word to a filter record (R221). -/
def givesWay (res : Nat) (x y : Src) : Bool :=
  if res = 48 then decide (y.tick ≤ x.tick)
  else if res = 52 ∧ x.eng ≠ y.eng then x.eng == .L
  else if x.eng = y.eng then decide (y.tick ≤ x.tick)
  else decide (engNo y.eng ≤ engNo x.eng)

/-- Of word x and an earlier claim of the same bank or port in this tick, the word that deviates: the one served later
(R297), if it was issued in strict mode (R123); none where the two are one word, or where the later waits. -/
def loserOf (x : Src) (k : Claim) : Option Src :=
  match k.src with
  | none => none
  | some y =>
    let z := if givesWay k.res x y then x else y
    if y == x || z.elastic then none else some z

/-- The resource that the word of the slot wants and an earlier requester of this tick has, with the word that deviates
(R19, R297). -/
def State.busy (s : State) (p : Plan) : Option (Nat × Src) :=
  (s.core s.slot.core).claims.findSome? fun k =>
    if p.banks.contains k.res then (loserOf s.src k).map fun y => (k.res, y) else none

/-- A bank conflict found at issue: the word of the slot traps, or a landing of the other word is reported (R297). -/
def State.bankTrap (s : State) (r : Nat) (y : Src) : State :=
  if y == s.src then s.trap ⟨0x07, r % 256, 0, 0⟩
  else (s.undoTick s.slot.core).lateFault s.slot.core y ⟨0x07, r % 256, 0, 1⟩

/-- What the word does once its checks up to the scoreboard have passed: the poison of its predicate (R108; judged here by
assumption 17), then on or off (R42). -/
def State.predicated (s : State) (p : Plan) : State :=
  let pr := (s.core s.slot.core).regs.getP p.pred
  if pr.mark then s.trap ⟨0x18, 0, 0, 0⟩
  else if pr.val then
    match p.on with
    | .error t => s.trap t
    | .ok ds => s.commit p ds
  else s.commit p p.off

/-- The issue of a word: decode checks, R46, scoreboard, then the rest (R64). -/
def State.issue (s : State) (p : Plan) : State :=
  match p.dec with
  | some t => s.trap t
  | none =>
    if p.span ≠ 0 ∧ s.slot.tick + p.span > (s.core s.slot.core).rdv then s.trap ⟨0x0A, 0, 0, 0⟩
    else match p.dev with
      | some (t, w) => s.deviate t w
      | none =>
        match s.busy p with
        | some (r, y) => s.bankTrap r y
        | none => s.predicated p

/-- Whether the word of a plan is predicated on, and passes all its checks: what else it does happens only then. -/
def State.runs (s : State) (p : Plan) : Bool :=
  let pr := (s.core s.slot.core).regs.getP p.pred
  p.dec.isNone && !(decide (p.span ≠ 0 ∧ s.slot.tick + p.span > (s.core s.slot.core).rdv)) && p.dev.isNone
    && (s.busy p).isNone && !pr.mark && pr.val && (match p.on with | .ok _ => true | .error _ => false)

/-- The registers of the core of the slot. -/
def State.regs (s : State) : Regs := (s.core s.slot.core).regs

/-! ### Tokens (R40, R41) -/

/-- FIFO codes (R126) of an engine: popped from the first and second neighbour, pushed to the first and second. -/
def tokFifos : Eng → Fin 6 × Fin 6 × Fin 6 × Fin 6
  | .L => (1, 5, 0, 4)
  | .M => (0, 3, 1, 2)
  | .W => (4, 2, 5, 3)
  | _ => (0, 0, 0, 0)

/-- What the token bits pop. -/
def tokPops (e : Eng) (t : Tok) : List (Fin 6 × Nat) :=
  (if t.pop1 then [((tokFifos e).1, 1)] else []) ++ (if t.pop2 then [((tokFifos e).2.1, 1)] else [])

/-- The pushes of the token bits, landing at an offset. -/
def tokPushes (e : Eng) (t : Tok) (o : Nat) : List Due :=
  (if t.push1 then [landAt o [.tokens (tokFifos e).2.2.1 1]] else [])
    ++ (if t.push2 then [landAt o [.tokens (tokFifos e).2.2.2 1]] else [])

/-- A FIFO that holds too few tokens: code 0x06. -/
def Regs.tokDev (r : Regs) (ps : List (Fin 6 × Nat)) : Option (Trap × Bool) :=
  (ps.find? fun p => decide (r.tok[p.1] < p.2)).map fun p => (⟨0x06, p.1.val, 0, 0⟩, true)

/-! ### Ring operands (R31, R39, R95) -/

/-- A ring use of a ring with depth 0, or of one that does not lie in the buffer with the entry size asked for. -/
def Regs.ringCheck (r : Regs) (q : Fin 32) (ok : Ring → Bool) : Option Trap :=
  failIf ((r.ring q).depth == 0 || !ok (r.ring q)) ⟨0x03, 0x100 + q.val, 0, 0⟩

/-- Too few entries to pop: code 0x05. -/
def Regs.popDev (r : Regs) (q : Fin 32) (n : Nat) : Option (Trap × Bool) :=
  if (r.ring q).count < n then some (⟨0x05, q.val, 0, 0⟩, true) else none

/-- The entries that a pop or peek of n reads, from head on. -/
def Core.entries (c : Core) (q : Fin 32) (n : Nat) : List (List (Option Byte)) :=
  let r := c.regs.ring q
  (range' 0 n).map fun i => c.entry r ((r.head + i) % max 1 r.depth)

/-- The head moves one tick after the pop. -/
def popDue (q : Fin 32) (n : Nat) : Due := (1, 0, .land [.popped q n])

/-- What changes a queue control word. -/
inductive RingEv where
  | pop (n : Nat)
  | push (tag : Option (BitVec 16))
  | set (hi : Bool) (v : W64)
  deriving DecidableEq, Repr

/-- A control word after it. -/
def RingEv.apply (w : BitVec 128) : RingEv → BitVec 128
  | .pop n => ringPopped w n
  | .push tag => ringPushed w tag
  | .set hi v => setHalf w hi v

/-- The tag that a row pushed by a receiving word carries, once its transfer has begun to arrive; none where it pushes
no data (R95, R224). -/
def Core.linkTag (c : Core) (d : Nat) (path : Path) (peer : Nat) (on : Bool) : Option (BitVec 16) :=
  (c.arrivals.find? fun a => a.2.due == d && a.2.path == path && a.2.peer == peer && a.2.index == 0).bind fun a =>
    if on && !a.2.empty then some a.2.tag else none

/-- What something pending does to a ring, each with its tick. -/
def Core.ringEvs (c : Core) (q : Fin 32) (p : Pend) : List (Nat × RingEv) :=
  match p.act with
  | .land es | .lBeat es => es.filterMap fun e =>
    match e with
    | .popped x n => if x = q then some (p.tick, .pop n) else none
    | .push x e t => if x = q then some (p.tick, .push (e.map fun _ => t)) else none
    | .setQ x hi v => if x = q then some (p.tick, .set hi v) else none
    | _ => none
  | .row j => (if j.qa = q ∧ !j.peek then [(p.tick + 1, .pop 1)] else []) ++ (if j.qb = q ∧ j.sparse then [(p.tick + 1, .pop 1)] else [])
  | .wld w => if w.qa = q then [(p.tick + 1, .pop 1)] else []
  | .read (.ring x _ _ _) => if x = q then [(p.tick + 1, .pop 1)] else []
  | .read (.sendRing x _ _ _ _ _ _ _ _) => if x = q then [(p.tick + 1, .pop 1)] else []
  | .link d path peer _ (.ring x _) on => if x = q then [(p.tick, .push (c.linkTag d path peer on))] else []
  | _ => []

/-- A ring as the words issued so far leave it at a tick. -/
def Core.ringAt (c : Core) (q : Fin 32) (by_ : Nat) : Ring :=
  let evs := ((c.pend.flatMap (c.ringEvs q)).filter fun e => decide (e.1 ≤ by_)).mergeSort fun a b => decide (a.1 ≤ b.1)
  ringOf (evs.foldl (fun w e => e.2.apply w) c.regs.q[q])

/-- Byte address at which the r-th entry pushed by a word will lie. -/
def Core.pushAddr (c : Core) (q : Fin 32) (land r : Nat) : Nat :=
  let g := c.ringAt q land
  g.addr ((g.tail + r) % max 1 g.depth)

/-- The check of R95 and R180: the tag and count that the ring will hold at the landing tick. -/
def Core.tagCheck (c : Core) (q : Fin 32) (tag : BitVec 16) (land : Nat) : Option Trap :=
  let r := c.ringAt q land
  failIf (decide (0 < r.count) && r.rtag != tag) ⟨0x04, tag.toNat + 65536 * r.rtag.toNat, 0, 0⟩

/-! ### Address registers -/

/-- A post-increment lands one tick after issue (R28). -/
def Regs.postInc (r : Regs) (x : BufAddr) : List Due :=
  if x.post then [landAt 1 [.incA x.a (r.a[x.a]).bump]] else []

/-- The effective address of a buffer operand. -/
def Regs.ea (r : Regs) (x : BufAddr) : Nat := (r.a[x.a]).ea

/-- The address of a VD word (R189). -/
def Regs.vdAddr (r : Regs) (x : BufAddr) (off : BitVec 16) : Nat :=
  ubits 32 (((r.ea x : Nat) : Int) + off.toInt * 64)

/-! ### Lines (R23 to R25) -/

/-- Types of two slots. -/
def isTwo : VTy → Bool
  | .x72 | .f64 | .s64 => true
  | _ => false

/-- Elements of a line (R24). -/
def lineCount (ty : VTy) (d : Dir) : Nat :=
  if ty.isH16 then 512 else if isTwo ty && d == .r then 128 else 256

/-- The index of a line operand at issue (R23, R28). -/
def Regs.lineIdx (r : Regs) (l : Line) : Nat :=
  match l.ix with
  | .imm i => i.val
  | .reg a _ => (r.a[a]).ea % 256

/-- The post-increment of a line operand. -/
def Regs.lineInc (r : Regs) (l : Line) : List Due :=
  match l.ix with
  | .reg a true => [landAt 1 [.incA a (r.a[a]).bump]]
  | _ => []

/-- The same register post-incremented by several operands of one word lands once. -/
def Regs.lineIncs (r : Regs) (ls : List Line) : List Due :=
  (ls.map r.lineInc).flatten.eraseDups

/-- An odd index of a two-slot column or diagonal (R24), and m6 in full-correction mode (R22). -/
def Regs.lineOdd (r : Regs) (ty : VTy) (l : Line) : Option Trap :=
  failIf (isTwo ty && l.dir != .r && r.lineIdx l % 2 == 1) ⟨0x02, 0, 0, 0⟩
def Regs.lineTile (r : Regs) (l : Line) : Option Trap :=
  failIf (l.tile.val == 6 && !r.ctl.detect) ⟨0x03, 6, 0, 0⟩

/-- The decode checks of the line operands of a word: first every alignment, then every allocation (R64). -/
def Regs.linesCheck (r : Regs) (ls : List (VTy × Line)) : Option Trap :=
  firstOf (ls.map (fun x => r.lineOdd x.1 x.2) ++ ls.map fun x => r.lineTile x.2)

/-- Row and column of the slot, or left slot, at place j of a line with index x. -/
def slotAt (d : Dir) (x j : Nat) (two : Bool) : Nat × Nat :=
  let k := if two then 2 * j else j
  match d with
  | .r => (x, k)
  | .c => (j, x)
  | .d => (j, (k + x) % 256)
  | .a => (j, (x + 512 - k) % 256)

/-- The key of a slot. -/
def slotKey (tile row col : Nat) : Nat := tile * 65536 + row * 256 + col % 256

/-- A line as its tile, direction, index. -/
structure LineAt where
  tile : Nat
  dir : Dir
  x : Nat
  deriving DecidableEq, Repr

def Regs.lineAt (r : Regs) (l : Line) : LineAt := ⟨l.tile.val, l.dir, r.lineIdx l⟩

/-- The key of the slot at place j, and of the slot to its right. -/
def LineAt.key (l : LineAt) (j : Nat) (two : Bool) : Nat × Nat :=
  let (r, c) := slotAt l.dir l.x j two
  (slotKey l.tile r c, slotKey l.tile r (c + 1))

/-- Element i of a line: its bits, none where a slot of it is poisoned (R25, R26). -/
def lineElem (m : SMap W36) (ty : VTy) (l : LineAt) (i : Nat) : Option Nat :=
  if ty.isH16 then
    (mapGet m (l.key (i / 2) false).1).map fun (w : W36) => w.toNat / 2 ^ (16 * (i % 2)) % 65536
  else if isTwo ty then
    let (a, b) := l.key i true
    match mapGet m a, mapGet m b with
    | some x, some y => some (x.toNat + 2 ^ 36 * (if ty = .x72 then y.toNat else y.toNat % 2 ^ 28))
    | _, _ => none
  else
    (mapGet m (l.key i false).1).map fun (w : W36) => if ty = .f32 then w.toNat % 2 ^ 32 else w.toNat

/-- All elements of a line operand, as the core stands. -/
def Core.line (c : Core) (ty : VTy) (l : Line) : List (Option Nat) :=
  (range' 0 (lineCount ty l.dir)).map (lineElem c.mrf ty (c.regs.lineAt l))

/-- The write of one whole slot; none poisons it. -/
def slotPut (key : Nat) (v : Option Nat) : SlotWrite :=
  ⟨key, BitVec.allOnes 36, BitVec.ofNat 36 (v.getD 0), v.isNone, false⟩

/-- The write of half-slots of one slot (R25: bits 35:32 zero): low and high half, each perhaps not written. -/
def halfPut (key : Nat) (lo hi : Option (Option Nat)) (keep : Bool) : List SlotWrite :=
  let m := (if lo.isSome then 0xFFFF else 0) + (if hi.isSome then 0xFFFF0000 else 0)
  let b := ((lo.getD none).getD 0) + 65536 * ((hi.getD none).getD 0)
  let bad := lo == some none || hi == some none
  if m = 0 then [] else [⟨key, BitVec.ofNat 36 (m + 0xF00000000), BitVec.ofNat 36 b, bad, keep⟩]

/-- Pairs of consecutive elements. -/
def pairUp {α : Type} : List α → List (α × α)
  | a :: b :: xs => (a, b) :: pairUp xs
  | _ => []

/-- The writes of a line from element i on (R25, R157, R158): an element is absent where it is disabled. -/
def lineWrites (ty : VTy) (l : LineAt) : Nat → List (Option (Option Nat)) → List SlotWrite
  | _, [] => []
  | i, v :: vs =>
    (match v with
      | none => []
      | some v =>
        if isTwo ty then
          let (a, b) := l.key i true
          [slotPut a (v.map (· % 2 ^ 36)), slotPut b (v.map fun x => x / 2 ^ 36 % (if ty = .x72 then 2 ^ 36 else 2 ^ 28))]
        else [slotPut (l.key i false).1 (v.map (· % (if ty = .f32 then 2 ^ 32 else 2 ^ 36)))])
    ++ lineWrites ty l (i + 1) vs

/-- The writes of an H16 line, slot j on. -/
def halfWrites (l : LineAt) (keep : Bool) : Nat → List (Option (Option Nat) × Option (Option Nat)) → List SlotWrite
  | _, [] => []
  | j, (a, b) :: vs => halfPut (l.key j false).1 a b keep ++ halfWrites l keep (j + 1) vs

/-- The write of a line. -/
def lineEffect (ty : VTy) (l : LineAt) (vs : List (Option (Option Nat))) : Effect :=
  .slots (if ty.isH16 then halfWrites l false 0 (pairUp vs) else lineWrites ty l 0 vs)

/-- Which elements are enabled (R157). -/
def Regs.enabled (r : Regs) (mk : Option (Fin 8)) (i : Nat) : Bool :=
  match mk with
  | none => true
  | some m => (r.vm[m]).getLsbD i

/-! ### AB forms (R186) -/

/-- Bytes of an element in AB. -/
def abSize : VTy → Nat
  | .s36 | .f64 | .s64 => 8
  | .f32 => 4
  | .x72 => 16
  | _ => 2

/-- An element as bytes. -/
def toAb (ty : VTy) (v : Option Nat) : List (Option Byte) :=
  match v with
  | none => List.replicate (abSize ty) none
  | some v =>
    let w := match ty with
      | .s36 => ubits 64 (sint 36 v)
      | .x72 => ubits 128 (sint 72 v)
      | _ => v
    (leBytes (abSize ty) w).map some

/-- Bytes as an element. -/
def fromAb (ty : VTy) (bs : List (Option Byte)) : Option Nat :=
  (leNat? bs).map fun v =>
    match ty with
    | .s36 => ubits 36 (satS 36 (sint 64 v))
    | .x72 => v % 2 ^ 72
    | _ => v

/-- Granule banks of a line access of B bytes at x: those of the first tick, and of the second (R187). -/
def lineBanks (x b : Nat) : List Nat × List Nat :=
  let g := b / 64
  ((range' 0 (min 32 g)).map fun j => (x / 64 + j) % 32, (range' 32 (g - 32)).map fun j => (x / 64 + j) % 32)

/-- Bank requests of a later tick. -/
def banksAt (o : Nat) (e : Eng) (rs : List Nat) : List Due := if rs.isEmpty then [] else [landAt o [.banks e rs]]

/-- Poison of an s operand that gives an address, or of one that R108 names. -/
def needS (v : Option W64) : Option Trap := failIf v.isNone ⟨0x18, 0, 0, 0⟩

/-! ### Timetabled beats at their homes (R287, R288) -/

/-- Whether the path to a home delivers every beat by its land tick (R287). -/
def State.guaranteed (s : State) (c : Fin 96) (h : Home) : Bool :=
  match h with
  | .hbm pa => s.mod.partOf (stackOf pa / 3) == s.partOf c
  | .peer _ _ _ _ => s.sysPhase (s.partOf c)
  | .host _ => false

/-- The number of a home's stack: 0 to 11 in this module, from 12 on in a peer module, by its coordinates (R288). -/
def stackNo : Home → Option Nat
  | .hbm pa => some (stackOf pa)
  | .peer x y z pa => some (12 + (((x * 32 + y) * 32 + z) * 12 + stackOf pa))
  | .host _ => none

/-- A beat of the word of the slot counts against its stack, where that is a stack of the partition or, in a system phase, of a
peer module (R287, R288): n bytes at a home, whose home tick and landing are at offsets from the issue tick. A read is late by
what it is carried beyond `slack`, a write by all. -/
def State.chargeBeat (s : State) (write : Bool) (h : Home) (n homeOff slack landOff : Nat) : State :=
  let c := s.slot.core
  let p := s.partOf c
  let part := s.part p
  let t := s.slot.tick
  match stackNo h with
  | some st =>
    if s.guaranteed c h then
      s.setPart p { part with beats := part.beats ++ [⟨st, part.k + (t + homeOff - (s.ctick c).getD t), c, s.src,
        (s.core c).seq, (homeAddr h % 64 + n + 63) / 64, slack, landOff - homeOff - slack, t + landOff, write, false⟩] }
    else s
  | none => s

/-- A beat of the word of the slot, n bytes at a home, is in flight from the tick at one offset from its issue to the
landing at another (R292); and it counts against its stack at its home tick: the source of a read, the landing of a
write. -/
def State.addBeat (s : State) (out : Bool) (h : Home) (n srcOff slack landOff : Nat) : State :=
  let c := s.slot.core
  let t := s.slot.tick
  let s := s.setCore c (let co := s.core c; { co with flying := ⟨s.src, out, t + srcOff, t + landOff, n⟩ :: co.flying })
  s.chargeBeat out h n (if out then landOff else srcOff) slack landOff

/-- What a beat of a path without a guarantee leaves pending: a deviation at its landing where it is late. -/
def State.lateDue (s : State) (h : Home) (j landOff : Nat) : List Due :=
  if !s.guaranteed s.slot.core h && Config.beatLate (s.fresh + j) then [(landOff, 0, .land [.late none 0 true])] else []

/-- Whether an earlier word of engine e takes a beat slot in one of n ticks from `lo` on (R205, R222). -/
def Core.slotTaken (c : Core) (e : Eng) (res lo n : Nat) : Bool :=
  c.pend.any fun p => p.src.eng == e && decide (lo ≤ p.tick) && decide (p.tick < lo + n) && (match p.act with
    | .land es | .lBeat es => es.any fun e => match e with | .banks _ rs => rs.contains res | _ => false
    | _ => false)

/-- What a word does besides what its plan says, when it runs. -/
def State.issueThen (s : State) (p : Plan) (f : State → State) : State :=
  if s.runs p then f (s.issue p) else s.issue p

end Sys2Proof.Machine
end

