-- ==== Sys2Proof/Machine/Fetch.lean ====
section
/-! DEFINITION. The timetable of a clause image (R34, R62, R121) and fetch (R15, R293). -/

namespace Sys2Proof.Machine

/-! ### Words as the timetable sees them -/

/-- The wait count (R34, R49). -/
def wordWait (w : W64) : Nat := fld w.toNat 60 57

/-- Whether a word is a no-operation word, and its idle count (R62). -/
def wordIdle (w : W64) : Nat :=
  let n := w.toNat
  if fld n 56 50 ≠ 0 then 0
  else
    let e := fld n 63 61
    if e = 2 ∨ e = 4 ∨ e = 5 then fld n 41 22 else fld n 45 26

/-- The fields of an `s.loop` word: depth, whether the count is a constant, count field, body words (R54, R120). -/
def wordLoop (w : W64) : Option (Nat × Bool × Nat × Nat) :=
  match decodeWord w.toNat with
  | some (.sLoop _ d t words) =>
    (match t with
      | .imm n => some (d.val, false, n.val, words.val)
      | .const i => some (d.val, true, i.val, words.val))
  | _ => none

/-- The count of a loop with the constants of an inflection. -/
def loopCount (consts : List Nat) (isConst : Bool) (n : Nat) : Nat :=
  if isConst then nth consts n 0 else n + 1

/-! ### The plan of a clause -/

/-- A loop that is open while the plan is built. -/
structure OpenLoop where
  widx : Nat
  until_ : Nat
  depth : Nat
  t0 : Nat
  count : Nat
  most : Nat
  touched : List Nat
  deriving DecidableEq, Repr

/-- The building of a plan: the last issue tick plus 1 of each engine (0: none), open loops (innermost first), issue
ticks so far (last first), closed loops. -/
structure Planner where
  last : List Nat
  opens : List OpenLoop
  ticks : List Nat
  done : List LoopPlan
  deriving DecidableEq, Repr

/-- Engine e's stream continues at tick t. -/
def setLast (l : List Nat) (e v : Nat) : List Nat := l.set e v

/-- Loops whose body ends before word i are closed: each engine of the body goes on after the last iteration (R121). -/
def Planner.close (p : Planner) (i : Nat) : Nat → Planner
  | 0 => p
  | fuel + 1 =>
    match p.opens with
    | [] => p
    | o :: os =>
      if o.until_ > i then p
      else
        let period := o.most - o.t0
        let more := period * (o.count - 1)
        let last := o.touched.foldl (fun l e => setLast l e (nth l e 0 + more)) p.last
        let os' := match os with
          | [] => []
          | q :: qs => { q with most := max q.most (o.most + more), touched := (o.touched ++ q.touched).eraseDups } :: qs
        Planner.close
          { p with last := last, opens := os', done := ⟨o.widx, o.depth, o.until_ - o.widx - 1, o.t0, period, o.count⟩ :: p.done }
          i fuel

/-- One word of the plan. -/
def Planner.word (consts : List Nat) (p : Planner) (i : Nat) (w : W64) : Planner :=
  let p := p.close i 5
  let e := fld w.toNat 63 61
  let t := nth p.last e 0 + wordWait w
  let issued := t + wordIdle w
  let opens := match p.opens with
    | [] => []
    | o :: os => { o with most := max o.most issued, touched := if o.touched.contains e then o.touched else e :: o.touched } :: os
  let opens := match wordLoop w with
    | some (d, c, n, words) => ⟨i, i + 1 + words, d, t, loopCount consts c n, t, []⟩ :: opens
    | none => opens
  { p with last := setLast p.last e (issued + 1), opens := opens, ticks := t :: p.ticks }

/-- All words from word i on. -/
def Planner.words (consts : List Nat) (p : Planner) : Nat → List W64 → Planner
  | i, [] => p.close i 5
  | i, w :: ws => Planner.words consts (p.word consts i w) (i + 1) ws

/-- The plan of a clause image: the iteration-0 tick of every word, and its loops in image order (R34, R121). -/
def planOf (consts : List Nat) (ws : List W64) : List Nat × List LoopPlan :=
  let p := Planner.words consts ⟨List.replicate 8 0, [], [], []⟩ 0 ws
  (p.ticks.reverse, p.done.mergeSort fun a b => decide (a.widx ≤ b.widx))

/-! ### The fetch cursor (R293) -/

/-- The loop of a word index. -/
def loopAt (loops : List LoopPlan) (widx : Nat) : Option LoopPlan := loops.find? fun l => l.widx == widx

/-- The tick of the word at the cursor: its iteration-0 tick plus P × j of every loop it is in (R121). -/
def cursorTick (plan : List Nat) (loops : List LoopPlan) (pos : Nat) (iters : List (Nat × Nat)) : Nat :=
  nth plan pos 0 + (iters.map fun i => match loopAt loops i.1 with | some l => l.period * i.2 | none => 0).sum

/-- After word pos − 1: at the end of a body the next iteration begins, or the loop is left. -/
def cursorWrap (loops : List LoopPlan) : Nat → List (Nat × Nat) → Nat → Nat × List (Nat × Nat)
  | pos, [], _ => (pos, [])
  | pos, i :: is, 0 => (pos, i :: is)
  | pos, (w, j) :: is, fuel + 1 =>
    match loopAt loops w with
    | none => (pos, (w, j) :: is)
    | some l =>
      if pos ≤ l.widx + l.words then (pos, (w, j) :: is)
      else if j + 1 < l.count then (l.widx + 1, (w, j + 1) :: is)
      else cursorWrap loops pos is fuel

/-- The cursor after the word at `pos`. -/
def cursorNext (loops : List LoopPlan) (pos : Nat) (iters : List (Nat × Nat)) : Nat × List (Nat × Nat) :=
  match loopAt loops pos with
  | some _ => (pos + 1, (pos, 0) :: iters)
  | none => cursorWrap loops (pos + 1) iters 5

/-! ### Queues (R15) -/

/-- Entries of the pool that the other engines' unused minima reserve. -/
def reserved (queues : Vector (List QEntry) 8) (qmin : Vector Nat 8) (e : Fin 8) : Nat :=
  ((range' 0 8).map fun i =>
    let i := Fin.ofNat 8 i
    if i = e then 0 else qmin[i] - queues[i].length).sum

/-- Whether queue e takes one more word: below its cap, and the pool of 128 has a free entry beyond the others' unused
minima (R15). -/
def queueTakes (queues : Vector (List QEntry) 8) (qmin qcap : Vector Nat 8) (e : Fin 8) : Bool :=
  let used := (queues.toList.map List.length).sum
  decide (queues[e].length < qcap[e]) && decide (used + reserved queues qmin e < 128)

/-- Words of the active half of instruction memory. -/
def Core.im (c : Core) : List W64 := if c.half then c.im1 else c.im0

/-- One tick of fetch: up to n more words. -/
def Core.fetch (c : Core) : Nat → Core
  | 0 => c
  | n + 1 =>
    match c.im[c.pos]? with
    | none => c
    | some w =>
      let e := Fin.ofNat 8 (fld w.toNat 63 61)
      if queueTakes c.queues c.qmin c.qcap e then
        let ent : QEntry := ⟨c.pos, w, cursorTick c.plan c.loops c.pos c.iters⟩
        let (pos, iters) := cursorNext c.loops c.pos c.iters
        Core.fetch { c with
          queues := c.queues.set e (c.queues[e] ++ [ent])
          pos := pos
          iters := iters } n
      else c

/-- A word that has not been delivered by its issue tick (R15): looked for from the cursor on. -/
def starving (c : Core) (tick : Nat) : Nat → Nat → List (Nat × Nat) → Option Nat
  | 0, _, _ => none
  | fuel + 1, pos, iters =>
    if pos < c.plan.length then
      if cursorTick c.plan c.loops pos iters ≤ tick then some pos
      else
        let (p, i) := cursorNext c.loops pos iters
        starving c tick fuel p i
    else none

end Sys2Proof.Machine
end

