-- ==== Sys2Proof/Machine/Tick.lean ====
section
/-! DEFINITION. What the machine does next: the order of work within a phase tick (R254, R297, R341), the end of a tick
(fetch R293, stack budget R288, buffers R292, sign-off R47), and the agenda. -/

namespace Sys2Proof.Machine

/-! ### Elastic mode: what a tick of serialised requesters costs (R297) -/

/-- Whether claim a is served before claim b: ascending engine code, the host last. -/
def claimNo (k : Claim) : Nat := match k.eng with | some e => engNo e | none => 8

/-- A claim's place in the order of service: engine code, then the word. -/
def claimPlace (k : Claim) : Nat :=
  claimNo k * 2 ^ 60 + (match k.src with | some x => x.tick * 2 ^ 20 + x.widx | none => 0)

/-- How many requesters of the same resource are served before this claim. -/
def claimRank (cs : List Claim) (k : Claim) : Nat :=
  ((cs.filter fun x => x.res == k.res && decide (claimPlace x < claimPlace k)).map claimPlace).eraseDups.length

/-- Column of a resource in the stall matrix (R298): AB and WB banks, else none. -/
def resCol (r : Nat) : Nat := if r < 48 then r else 48

/-- The claim that the n-th frozen tick is charged to: served n places late, lowest engine, lowest bank; with what all
claims served n places late use. -/
def chargeOf (cs : List Claim) (n : Nat) : Option Owed :=
  let late := (cs.filter fun k => claimRank cs k == n).mergeSort fun a b => decide (claimNo a * 64 + a.res ≤ claimNo b * 64 + b.res)
  match late with
  | k :: _ => k.eng.map fun e => ⟨e, resCol k.res, late.map (·.res)⟩
  | [] => none

/-- The frozen ticks that a tick's conflicts cost, each with the counter it is charged to. -/
def owedOf (cs : List Claim) : List Owed :=
  let n := (cs.map (claimRank cs)).foldl max 0
  (range' 1 n).filterMap (chargeOf cs)

/-- Two costs of one tick together: the busiest resource sets the count (R297), and a tick that both need is charged to the
lower engine. -/
def mergeOwed : List Owed → List Owed → List Owed
  | [], ys => ys
  | xs, [] => xs
  | x :: xs, y :: ys =>
    { (if engNo x.eng ≤ engNo y.eng then x else y) with res := x.res ++ y.res } :: mergeOwed xs ys

/-! ### The stack budget (R288) -/

/-- Granules of a tick served in order: what is left, and the beats not served whole. -/
def serveBeats : Nat → List Beat → List Beat
  | _, [] => []
  | n, b :: bs =>
    let g := min n b.left
    if g = b.left then serveBeats (n - g) bs else { b with left := b.left - g } :: serveBeats (n - g) bs

/-- Whether beat a is served before beat b: carried beats first, then ascending core, then issue order. -/
def Beat.before (k : Nat) (a b : Beat) : Bool :=
  if a.home < k ∧ b.home < k then (if a.home = b.home then decide (a.core * 2 ^ 40 + a.seq ≤ b.core * 2 ^ 40 + b.seq)
    else decide (a.home < b.home))
  else if a.home < k then true
  else if b.home < k then false
  else decide (a.core * 2 ^ 40 + a.seq ≤ b.core * 2 ^ 40 + b.seq)

/-- What a stack has for partition p's beats in a home tick: 24 granules less those that the beats of other modules take in a
system phase, a free value (R288; assumption 94). -/
def State.stackRoom (s : State) (p st : Nat) : Nat :=
  if s.sysPhase p && (match (s.part p).job with | some j => decide (1 < j.members) | none => false) then
    24 - Config.peerGranules s.fresh st else 24

/-- A beat that its tick k has left unserved for longer than its slack, or a hold of an image port (R288). In strict mode the
deviation is due at the landing of a read, and at this tick for a carried write and for a hold: no word of the core at this
tick issues (R341). In elastic mode the core will wait (R296). -/
def State.lateBeat (s : State) (p k : Nat) (b : Beat) : State :=
  let c := Fin.ofNat 96 b.core
  if k ≠ b.home + b.slack then s
  else if b.src.elastic || !(b.hold || b.write) then
    s.setCore c ((s.core c).due b.src b.land 0 (.land [.late (some (b.seq, b.land)) 0 false]))
  else if (s.core c).halted then s
  else (s.undoCore c ((s.ctick c).getD 0)).lateFault c b.src ⟨0x09, 5, 0, 1⟩

/-- A read beat of elastic mode that is served beyond its slack is there when it has travelled its path latency (R287;
assumption 122). -/
def State.servedLate (s : State) (k : Nat) (b : Beat) : State :=
  if b.src.elastic && decide (b.home + b.slack < k) && !b.hold && !b.write then
    let c := Fin.ofNat 96 b.core
    s.setCore c ((s.core c).due b.src b.land 0 (.land [.late none (k + b.path) false]))
  else s

/-- The service of one home tick on partition p: what is left over is carried, but for holds of an image port of a core in
strict mode. -/
def State.serveStacks (s : State) (p : Nat) : State :=
  let part := s.part p
  let k := part.k
  let now := part.beats.filter fun b => b.home ≤ k
  let later := part.beats.filter fun b => k < b.home
  let left := (now.foldl (fun (m : List Nat) b => setAdd m b.stack) []).flatMap fun st =>
    serveBeats (s.stackRoom p st) ((now.filter fun b => b.stack == st).mergeSort (Beat.before k))
  let done := now.filter fun b => !(left.any fun x => x.core == b.core && x.seq == b.seq && x.land == b.land && x.stack == b.stack)
  let s := { s.setPart p { part with beats := left.filter (fun b => !b.hold || b.src.elastic) ++ later } with fresh := s.fresh + 1 }
  left.foldl (fun s b => s.lateBeat p k b) (done.foldl (fun s b => s.servedLate k b) s)

/-! ### The buffers of data in flight (R292) -/

/-- Bytes in the device landing buffer, the outbound buffer and the link landing buffer of a core at clause tick t, which
is phase tick `now` of its timetable: of every beat whose source tick is earlier and whose landing is later. -/
def Core.inFlight (c : Core) (t now : Nat) : Nat × Nat × Nat :=
  let fly (out : Bool) := ((c.flying.filter fun f => f.out == out && decide (f.source < t) && decide (t < f.landing)).map (·.bytes)).sum
  (fly false, fly true, (c.arrivals.map fun a => if now < a.2.due then a.2.data.length else 0).sum)

/-- Whether one of them exceeds its capacity. -/
def Core.overflows (c : Core) (t now : Nat) : Bool :=
  let (l, w, x) := c.inFlight t now
  decide (131072 < l) || decide (131072 < w) || decide (131072 < x)

/-! ### The end of a phase tick -/

/-- Whether words that issue at clause tick t are governed by elastic mode: `ctl.mode` as the writes that land by then
leave it (R123). -/
def Core.elasticAt (c : Core) (t : Nat) : Bool :=
  (c.pend.foldl (fun (ctl : Ctl) p =>
    match p.act with
    | .land es => if p.tick ≤ t then es.foldl (fun (ctl : Ctl) e =>
        match e with
        | .setCtl .mode m v => ctl.write .mode m v
        | _ => ctl) ctl else ctl
    | _ => ctl) c.regs.ctl).elastic

/-- A word's place for a record. -/
def srcOf (c : Core) (pos tick : Nat) : Src :=
  let w := nth c.im pos 0
  let e := fld w.toNat 63 61
  ⟨engOfWord w, pos, w, tick, c.retired[(Fin.ofNat 8 e)], c.elasticAt tick⟩

/-- A frozen tick of a core ends: the next one may be owed, and a word that was starving waits until fetch has delivered it
(R15, R297). Fetch goes on (assumption 49). -/
def Core.endFrozen (co : Core) (t16 : Nat) : Core :=
  let late := if t16 < 15 ∨ co.signed ∨ co.halted then none else starving co (t16 - 15) 2048 co.pos co.iters
  let more := match co.owed, late with
    | [], some pos => [(⟨engOfWord (nth co.im pos 0), 48, []⟩ : Owed)]
    | os, _ => os
  let co := if co.signed then co else co.fetch 4
  { co with froze := false, stalled := more.head?, owed := more.tail }

/-- The end of a tick that was not frozen: the claims of the tick are settled (R297), and fetch works for the tick that
follows, so that an entry freed in this tick is filled again in the next (R293); a word of the next tick that is not delivered by
now is starving (R15): a deviation at that tick, or a wait; where an abort lets no word issue then (R341), none is. -/
def Core.endTick (co : Core) (t16 : Nat) (last : Bool) : Core :=
  let next := t16 - 15
  let owed := mergeOwed co.owed (owedOf co.claims)
  let late := if t16 < 15 ∨ co.signed ∨ co.halted ∨ last then none else starving co next 2048 co.pos co.iters
  let owed := match late with
    | some pos =>
      let x := srcOf co pos next
      if x.elastic && owed.isEmpty then [(⟨x.eng, 48, []⟩ : Owed)] else owed
    | none => owed
  let co := match late with
    | some pos =>
      let x := srcOf co pos next
      if x.elastic then co else co.due x next 0 (.land [.raise 0x08 (engNo x.eng) 0])
    | none => co
  let co := { co with
    claims := []
    landed := []
    used := co.claims.map (·.res)
    flying := co.flying.filter fun f => decide (next < f.landing)
    stalled := owed.head?
    owed := owed.tail }
  if co.signed then co else co.fetch 4

/-- The end of a tick for core c of partition p: a core without a clause signs off at its clause tick 0 (R9); fetch begins 16
ticks before the clause tick 0 of the core (R20, R293). -/
def State.endCore (s : State) (p : Nat) (c : Nat) : State :=
  let co := s.core c
  match s.ctick16 c with
  | none => if co.takes && (s.part p).k + 1 == stagger c then s.setCore c (co.fetch 4) else s
  | some t16 =>
    if !co.takes then (if t16 = 16 then s.setCore c { co with signed := true } else s)
    else if co.froze then s.setCore c (co.endFrozen t16)
    else s.setCore c (co.endTick t16 (match (s.part p).abort with | some a => decide (a.limit ≤ (s.part p).k + 1) | none => false))

/-- Whether an item is no word's effect that a drain waits for: the end of a wake, which completes in the slack window
(R137), and after an abort the end of a loop. -/
def Act.idle (aborted : Bool) : Act → Bool
  | .wake _ => true
  | .loopExit _ _ => aborted
  | _ => false

/-- Whether every word that issued has completed. -/
def State.drained (s : State) (p : Nat) : Bool :=
  (s.coresOf p).all fun c => (s.core c).pend.all fun x => x.act.idle (s.part p).abort.isSome

/-- Whether an agenda event is the arrival of a mesh beat. -/
def MeshBeat.isArrival (b : MeshBeat) (i : Instr) : Bool :=
  match i with
  | .landingBufferArrival c x => c.val == b.dst && x.peer == b.core && x.due == b.due && x.index == b.index
  | _ => false

/-- The arrival of a mesh beat is put off by a tick. -/
def State.postpone (s : State) (b : MeshBeat) (cycles : Nat) : State :=
  match s.agenda.find? fun e => b.isArrival e.ev with
  | some e => (s.cancel b.isArrival).schedule (e.cycle + cycles) e.ev
  | none => s

/-- A mesh beat that another keeps from its hop: a deviation on the sender's word at that tick, or, in elastic mode, a tick
of waiting (R290, R296). -/
def State.meshLoser (s : State) (p : Nat) (b : MeshBeat) : State :=
  let co := s.core b.core
  let part := s.part p
  if b.src.elastic then
    (s.setPart p { part with mesh := { b with next := b.next + 1 } :: part.mesh }).postpone b (max 1 part.cad)
  else s.setCore b.core (co.due b.src (part.k - 16 - stagger b.core - co.lag) 0 (.land [.raise 0x07 55 0]))

/-- The beats that take a hop at one tick, in ascending order of their senders: the first of each hop goes on. -/
def State.meshHops (s : State) (p : Nat) : List Nat → List MeshBeat → State
  | _, [] => s
  | taken, b :: bs =>
    let h := b.route.headD 0
    if taken.contains h then State.meshHops (s.meshLoser p b) p taken bs
    else
      let part := s.part p
      let rest := match b.route.tail with
        | [] => part.mesh
        | r => { b with route := r, next := b.next + 2 } :: part.mesh
      State.meshHops (s.setPart p { part with mesh := rest }) p (h :: taken) bs

/-- The mesh at the tick that begins (R290). -/
def State.meshTick (s : State) (p : Nat) : State :=
  let part := s.part p
  let now := (part.mesh.filter fun b => b.next == part.k).mergeSort fun a b => decide (a.core ≤ b.core)
  (s.setPart p { part with mesh := part.mesh.filter fun b => b.next != part.k }).meshHops p [] now

/-- The counter of partition p's phase ticks moves on. -/
def State.nextTick (s : State) (p : Nat) : State :=
  let part := s.part p
  (s.setPart p { part with k := part.k + 1, base := part.base + max 1 part.cad }).meshTick p

/-- The end of a phase tick of partition p: cores, stacks, then the counter; when the last core has signed off the root
hears of it within 96 cycles (R48); after an abort the capture follows the drain (R342). -/
def State.endTick (s : State) (p : Nat) : State :=
  let s := ((s.coresOf p).foldl (fun s c => s.endCore p c) s).serveStacks p
  let part := s.part p
  let part := { part with ports := part.ports.filter fun h => part.k ≤ h.2.1 }
  let s := s.setPart p part
  match part.abort with
  | none =>
    if part.seq == .phase && (s.coresOf p).all fun c => (s.core c).signed then
      ((({ s with fresh := s.fresh + 1 }).setPart p { part with seq := .signing }).schedule
        (part.base + Config.signOffDelay s.fresh % 97) (.lastSignOff (Fin.ofNat 4 p))).nextTick p
    else s.nextTick p
  | some a =>
    if a.limit ≤ part.k + 1 ∧ s.drained p then
      ((s.cancel fun i => i == .lastSignOff (Fin.ofNat 4 p)).setPart p { part with seq := .signing }).schedule
        (part.base + max 1 part.cad) (if a.debug then .debugStop (Fin.ofNat 4 p) else .faultCapture (Fin.ofNat 4 p))
    else s.nextTick p

/-! ### What is next -/

/-- The event that takes an act. -/
def actEvent : Act → Instr
  | .land _ | .wld _ | .read _ => .resultLand
  | .loopExit _ _ => .loopExit
  | .wake _ => .bandWakeComplete
  | .row _ => .macRowEntry
  | .drain _ => .drainWrite
  | .lBeat _ => .lBeatLand
  | .home _ _ _ => .wBeatHomeWrite
  | .link _ _ _ _ _ _ => .linkBeatDelivery
  | .filt _ => .filterRecordLanding

/-- What a step does: run an instruction in a state, pass to a state, or nothing, for want of power. -/
inductive Todo where
  | run (i : Instr) (s : State)
  | go (s : State)
  | dead
  deriving DecidableEq, Repr

/-- The item of core c that is due. -/
def State.dueItem (s : State) (c : Nat) : Option Pend :=
  let co := s.core c
  if co.stalled.isSome then none
  else match co.pend, s.ctick16 c with
    | x :: _, some t => if x.tick + 16 ≤ t then some x else none
    | _, _ => none

/-- The first core of partition p with something due. -/
def State.dueCore (s : State) (p : Nat) : Option (Nat × Pend) :=
  (s.coresOf p).findSome? fun c => (s.dueItem c).map fun x => (c, x)

/-- Whether a word is a receiving word: `x.recv`, `x.red` or `x.fwd`. -/
def isReceive (w : W64) : Bool :=
  let o := fld w.toNat 56 50
  fld w.toNat 63 61 == 6 && (o == 2 || o == 3 || o == 7)

/-- The head of an engine's queue, if it is due. -/
def dueHead (co : Core) (t : Nat) (e : Fin 8) : Option (Fin 8 × QEntry) :=
  match co.queues[e] with
  | x :: _ => if x.tick + 16 ≤ t then some (e, x) else none
  | [] => none

/-- A receiving word that is due: its first beat lands at its issue tick, before any word of the tick reads (R187, R224). -/
def dueReceive (co : Core) (t : Nat) : Option (Fin 8 × QEntry) :=
  (dueHead co t 6).filter fun x => isReceive x.2.word

/-- The first engine of core c with a word due. -/
def State.dueEngine (s : State) (c : Nat) : Option (Fin 8 × QEntry) :=
  let co := s.core c
  if co.stalled.isSome || co.halted || !co.takes then none
  else match s.ctick16 c with
    | none => none
    | some t => (dueReceive co t).orElse fun _ => (List.finRange 8).findSome? (dueHead co t)

/-- The first core of partition p at which a transfer is due now that no receiving word takes up (R224), with its beat. -/
def State.unmatched (s : State) (p : Nat) : Option (Nat × LinkBeat) :=
  if (s.part p).abort.isSome then none
  else (s.coresOf p).findSome? fun c =>
    let co := s.core c
    match s.ctick16 c with
    | none => none
    | some t =>
      if t < 16 || co.stalled.isSome || co.halted || (dueReceive co t).isSome then none
      else (co.arrivals.find? fun a => !a.1 && a.2.index == 0 && decide (a.2.due ≤ t - 16 + stagger c)).map fun a => (c, a.2)

/-- R340 0x09: kind, path and peer. -/
def linkDetail (kind path peer : Nat) : Nat := kind + 256 * path + 65536 * peer

/-- The code of a path (R222). -/
def pathNo : Path → Nat
  | .mesh => 0 | .die => 1 | .px => 2 | .nx => 3 | .py => 4 | .ny => 5 | .pz => 6 | .nz => 7

/-- An arrival without a receiving word: no word of the core at this tick issues, class 1 (R224, R341). -/
def State.unmatchedFault (s : State) (c : Nat) (b : LinkBeat) : State :=
  let s := s.undoTick (Fin.ofNat 96 c)
  s.beginAbort (s.partOf c) ⟨0x09, 1, some c, none, linkDetail 0 (pathNo b.path) b.peer, 0, []⟩

/-- The phase tick that runs in the timetable of core c, which its frozen ticks move (R297). -/
def State.ownTick (s : State) (c : Nat) : Nat := (s.part (s.partOf c)).k - 16 - (s.core c).lag

/-- The first core of partition p whose buffers exceed their capacity at the tick that runs, be the core frozen or not yet at its
clause tick 0 (R292, R296). -/
def State.overfull (s : State) (p : Nat) : Option Nat :=
  if (s.part p).abort.isSome then none
  else (s.coresOf p).find? fun c =>
    let co := s.core c
    co.takes && !co.halted && co.overflows (s.ownTick c - stagger c) (s.ownTick c)

/-- A buffer that would exceed its capacity (R292), in either mode: the beat last begun is named (assumption 20); where none is in
flight, no word is, and no word of the core at this tick issues. -/
def State.overflowFault (s : State) (c : Nat) : State :=
  match (s.core c).flying.head? with
  | some f => s.lateFault (Fin.ofNat 96 c) f.src ⟨0x09, 4, 0, 1⟩
  | none => (s.setCore c { s.core c with halted := true }).beginAbort (s.partOf c) ⟨0x09, 1, some c, none, 4, 0, []⟩

/-- The first word due on partition p; after the abort's limit none is (R341). -/
def State.dueWord (s : State) (p : Nat) : Option (Nat × Fin 8 × QEntry) :=
  let part := s.part p
  if (match part.abort with | some a => decide (a.limit ≤ part.k) | none => false) then none
  else (s.coresOf p).findSome? fun c => (s.dueEngine c).map fun x => (c, x.1, x.2)

/-- The engine of a code. -/
def engOf (e : Fin 8) : Eng :=
  match e.val with
  | 0 => .S | 1 => .Y | 2 => .M | 3 => .V | 4 => .L | 5 => .W | 6 => .X | _ => .G

/-- The state in which a word is executed: it has left its queue, the slot names it, and the core as it stood before the
tick's first word is kept (R341). -/
def State.atWord (s : State) (c : Nat) (e : Fin 8) (x : QEntry) : State :=
  let co := s.core c
  let undo := if (mapGet s.undo c).isSome then s.undo else mapSet s.undo c co
  { s.setCore c { co with queues := co.queues.set e (co.queues[e].tail) } with
    undo := undo
    slot := ⟨Fin.ofNat 96 c, engOf e, x.widx, x.word, x.tick⟩ }

/-- The state in which a due item is taken. -/
def State.atItem (s : State) (c : Nat) (x : Pend) : State :=
  { s with slot := ⟨Fin.ofNat 96 c, x.src.eng, x.src.widx, x.src.word, x.src.tick⟩ }

/-- Whether an enabled breakpoint names the word that core c's engine e issues next (R367, R368). -/
def State.bpHit (s : State) (p c : Nat) (e : Fin 8) : Bool :=
  let part := s.part p
  let co := s.core c
  let ph := co.regs.ctl.phase.toNat
  part.dbgOn.getLsbD 0 && part.skipBrk != some (c, engOf e, co.retired[e]) && part.reexec.isNone
    && part.abort.isNone && part.bps.toList.any fun b =>
      let n := b.toNat
      fld n 63 63 == 1 && fld n 62 60 == e.val && fld n 59 53 == c && fld n 52 32 == co.retired[e] && fld n 31 0 == ph

/-- The work of a phase tick of partition p: due items, then words, then frozen cores, then the end of the tick. -/
def State.tickTodo (s : State) (p : Nat) : Todo :=
  if (match (s.part p).reexec with | some k => decide (k ≤ (s.part p).k) | none => false) then
    .go (s.setPart p { s.part p with seq := .debug true, reexec := none })
  else match s.dueCore p with
  | some (c, x) => .run (actEvent x.act) (s.atItem c x)
  | none =>
    match s.unmatched p with
    | some (c, b) => .go (s.unmatchedFault c b)
    | none =>
    match s.overfull p with
    | some c => .go (s.overflowFault c)
    | none =>
    match s.dueWord p with
    | some (c, e, x) =>
      if s.bpHit p c e then .go (s.debugFreeze (Fin.ofNat 96 c) (engOf e))
      else (match decodeWord x.word.toNat with
        | some i => .run i (s.atWord c e x)
        | none => .go ((s.atWord c e x).trap ⟨0x01, 0, 0, 0⟩))
    | none =>
      match (s.coresOf p).find? fun c => (s.core c).stalled.isSome with
      | some c => .run .elasticStall { s with slot := { s.slot with core := Fin.ofNat 96 c } }
      | none => .go (s.endTick p)

/-- Whether partition p counts phase ticks: a phase runs, or words of it are not complete after its last sign-off. -/
def State.ticking (s : State) (p : Nat) : Bool :=
  (s.part p).seq == .phase || ((s.part p).seq == .signing && !s.drained p)

/-- The running partition whose tick comes first. -/
def State.firstTick (s : State) : Option (Nat × Nat) :=
  ((range' 0 4).filter s.ticking).foldl (fun b p =>
    match b with
    | none => some (p, (s.part p).base)
    | some (q, c) => if (s.part p).base < c then some (p, (s.part p).base) else some (q, c)) none

/-- Time passes to a cycle. The tick that has run can no longer be taken back. -/
def State.advance (s : State) (cycle : Nat) : State := { s with now := max s.now cycle, undo := [] }

/-- Whether the port leads to the blocks of the quarters, the apertures and the AB windows: from step 5 on, and not in recovery,
where the PF has BAR0 alone (R360, R362). -/
def Module.presents (m : Module) : Bool := m.stage == 5 && !m.recovery

/-- Whether the module takes up an event. Without power only power good reaches it (R378); a driver's register write reaches
nothing that the port does not present: a quarter's registers in recovery and before step 5, the module's before step 5 alone
(R324, R360, R362). -/
def State.takesUp (s : State) (i : Instr) : Bool :=
  if !s.mod.hubPower then i == .powerGood
  else match i with
  | .doorbell .. | .queueEnable .. | .queueResume .. | .queueSkip .. | .rngKeyWrite .. | .tktValWrite .. | .winErrClear _
  | .abandon _ | .retry _ | .replay _ | .preemptRequest _ | .invalidateOne _ | .invalidateAll _ | .ccntClear _ | .dumpStart _
  | .dstop _ | .dcont _ => s.mod.presents
  | .modeWrite _ | .dbgGo | .uvEnWrite _ | .sedimentSelect _ | .telemetrySelect _ => s.mod.stage == 5 || s.mod.recovery
  | _ => true

/-- An event that is due: run, or without effect where the module does not take it up. -/
def State.takeEvent (s : State) (i : Instr) : Todo := if s.takesUp i then .run i s else .go s

/-- What the machine does next: of the phase ticks and the agenda, what is due first, phase ticks before events of the
same cycle; where nothing is due, time passes. -/
def State.todo (s : State) : Todo :=
  match s.firstTick, s.agenda with
  | some (p, c), [] => if c ≤ s.now then s.tickTodo p else .go (s.advance c)
  | some (p, c), e :: es =>
    if c ≤ e.cycle then (if c ≤ s.now then s.tickTodo p else .go (s.advance c))
    else if e.cycle ≤ s.now then { s with agenda := es }.takeEvent e.ev else .go (s.advance e.cycle)
  | none, e :: es =>
    if s.now < e.cycle then .go (s.advance e.cycle) else { s with agenda := es }.takeEvent e.ev
  | none, [] => if s.mod.hubPower then .go (s.advance (s.now + 1)) else .dead

/-- ELASTIC_STALL (R297, R298): the clause tick counter of the core of the slot stays for this tick, and one counter of
the stall matrix advances. What the core times by its clause ticks at its stacks moves with the counter. -/
def execElasticStall (s : State) : Result :=
  let c := s.slot.core
  let co := s.core c
  match co.stalled with
  | none => .next s
  | some o =>
    let p := s.partOf c
    let part := s.part p
    let s := s.setPart p { part with beats := part.beats.map fun b =>
      if b.core = c.val ∧ part.k ≤ b.home then { b with home := b.home + 1 } else b }
    .next (s.setCore c { (co.countStall (engNo o.eng) o.col) with
      stalled := none, froze := true, lag := co.lag + 1, frozen := co.frozen + 1
      used := co.claims.map (·.res) ++ o.res })

end Sys2Proof.Machine
end

