-- ==== Sys2Proof/Machine/Land.lean ====
section
/-! DEFINITION. What lands in a core, and how: the clash of two writes (R36), room in rings and FIFOs (R39, R41), and the
effect of each landing. -/

namespace Sys2Proof.Machine

/-! ### Clashes (R36) -/

/-- The number of a thing of a class. -/
def clashKey (cls id : Nat) : Nat := cls * 2 ^ 32 + id

/-- The class of a buffer's granules. -/
def bufClass : Buf → Nat
  | .ab => 11 | .wb => 13 | .sdm => 14 | .gm => 19

/-- The granules of bytes in a buffer. -/
def granuleKeys (b : Buf) (ws : List BW) : List Nat := (unitsOf b.unit ws).map (clashKey (bufClass b))

/-- The code of a control register (R55). -/
def ctlNo : CtlReg → Nat
  | .fflags => 0 | .ftrap => 1 | .round => 2 | .mode => 3 | .cadence => 4 | .shape => 5 | .core => 6 | .tick => 7
  | .phase => 8 | .inflect => 9 | .size => 10 | .sel => 11

/-- The writes of a pushed entry (R39). -/
def pushWrites (r : Ring) (bs : List (Option Byte)) : List BW := place (r.addr r.tail) bs

/-- What an effect writes, as numbers that clash when equal in one tick: a register, an MRF slot, a granule. -/
def Core.effectKeys (c : Core) : Effect → List Nat
  | .setS n _ => if n = 0 then [] else [clashKey 1 n.val]
  | .setP n _ => if n = 0 then [] else [clashKey 2 n.val]
  | .setA n _ _ | .incA n _ => [clashKey 3 n.val]
  | .setK n _ => [clashKey 4 n.val]
  | .setQ n _ _ => [clashKey 5 n.val, clashKey 6 n.val]
  | .push q entry _ =>
    clashKey 5 q.val :: (match entry, (c.regs.ring q).buffer with
      | some bs, some b => granuleKeys b (pushWrites (c.regs.ring q) bs)
      | _, _ => [])
  | .popped q _ => [clashKey 6 q.val]
  | .setCtl r _ _ => [clashKey 9 (ctlNo r)]
  | .semInit n _ => [clashKey 12 n.val]
  | .semClr m => ((range' 0 32).filter m.getLsbD).map (clashKey 12)
  | .slots ws => ws.map fun w => clashKey 10 w.key
  | .setVm n _ => [clashKey 8 n.val]
  | .store b ws => granuleKeys b ws
  | .setBits ws => granuleKeys .ab (ws.map fun w => (w.1, some w.2))
  | .setFeed _ => [clashKey 15 0]
  | .setBeta _ => [clashKey 16 0]
  | .sleep _ => [clashKey 17 0]
  | .ctx n _ => [clashKey 18 n.val]
  | .alignCheck _ addr => granuleKeys .ab [(addr, none)]
  | _ => []

/-- The same for several effects of one word that land together. -/
def Core.effectsKeys (c : Core) (es : List Effect) : List Nat := (es.flatMap c.effectKeys).eraseDups

/-! ### Room (R39, R41) -/

/-- The check of an effect that needs room: code and detail where it finds none. -/
def Core.roomDev (c : Core) : Effect → Option Trap
  | .push q _ _ => failIf (decide ((c.regs.ring q).count + 1 > (c.regs.ring q).depth)) ⟨0x05, 0x100 + q.val, 0, 0⟩
  | .tokens f n => failIf (decide (c.regs.tok[f] + n > 8)) ⟨0x06, f.val, 0, 0⟩
  | _ => none

/-- The check of an effect at its landing: room, and that a device beat is there (R287). A beat that its stack had to carry
is there once it is served and has travelled. -/
def State.landDev (s : State) (c : Fin 96) (x : Src) : Effect → Option Trap
  | .late beat ready free =>
    let part := s.part (s.partOf c)
    failIf (!x.elastic || (free && Config.beatLate s.fresh) || decide (part.k < ready)
      || (match beat with | some n => part.beats.any fun b => b.core == c.val && (b.seq, b.land) == n | none => false)) ⟨0x09, 5, 0, 1⟩
  | e => (s.core c).roomDev e

/-! ### Registers -/

/-- A ring's register after n pops. -/
def Regs.ringPop (r : Regs) (q : Fin 32) (n : Nat) : Regs := { r with q := r.q.set q (ringPopped r.q[q] n) }

/-- A ring's register after a push; the tag is set where the word was predicated on (R95). -/
def Regs.ringPush (r : Regs) (q : Fin 32) (tag : Option (BitVec 16)) : Regs :=
  { r with q := r.q.set q (ringPushed r.q[q] tag) }

/-! ### MRF slots -/

/-- One slot written; the bits of a poisoned slot that stay are a free value (R158, R175; assumption 1). -/
def putSlot (fresh : Nat) (m : SMap W36) (w : SlotWrite) : SMap W36 :=
  match mapGet m w.key with
  | none =>
    if w.poison || w.keep then m
    else mapSet m w.key (((Config.underPoison (fresh + w.key)).setWidth 36 &&& ~~~w.mask) ||| (w.bits &&& w.mask))
  | some old =>
    if w.poison then mapDel m w.key else mapSet m w.key ((old &&& ~~~w.mask) ||| (w.bits &&& w.mask))

/-- The bits of `v.bset` (R193): ORed into bytes of AB; a poisoned granule stays as it is. -/
def orBits (m : Mem) : List (Nat × Byte) → Mem
  | [] => m
  | (a, b) :: ws => orBits (if m.poisoned true 64 a then m else m.put a (m.byte a ||| b)) ws

/-! ### GM (R232 to R235, R239 to R242) -/

/-- The word of a node; a fresh pool links n to n + 1, and its last node is marked (R233, R236). -/
def GM.node (g : GM) (n : Nat) : Nat := (mapGet g.nodes n).getD (if n = 16383 then 0x4000 else n + 1)

/-- The reference count of a node. -/
def GM.count (g : GM) (n : Nat) : Nat := (mapGet g.counts n).getD 0

def GM.setNode (g : GM) (n w : Nat) : GM := { g with nodes := mapPut (if n = 16383 then 0x4000 else n + 1) g.nodes n w }
def GM.setCount (g : GM) (n c : Nat) : GM := { g with counts := mapPut 0 g.counts n c }

/-- Whether a stack pointer is the empty one. -/
def isEmptyPtr (p : Nat) : Bool := p / 0x4000 % 2 == 1

/-- A node goes to the head of the free list (R233). -/
def GM.giveNode (g : GM) (n : Nat) : GM :=
  { g.setNode n (if g.free = 0 then 0x4000 else g.head) with head := n, free := g.free + 1 }

/-- The references that a context or a record holds (R235). -/
def GCtx.ptrs (x : GCtx) : List Nat := (x.top :: (if x.mark then [x.mtop] else [])).filter fun p => !isEmptyPtr p

/-- Drops are queued (R235). -/
def GM.dropAll (g : GM) (ns : List Nat) : GM := { g with queue := g.queue ++ ns }

/-- The flags byte of a record; `refs` is bit 3. -/
def GCtx.flags (x : GCtx) (refs : Bool) : Nat :=
  x.bound.toNat + 2 * x.dead.toNat + 4 * x.mark.toNat + 8 * refs.toNat

/-- Bytes 0 to 29 of a record (R234). -/
def GCtx.head (x : GCtx) (refs : Bool) : List Byte :=
  leBytes 7 x.image ++ leBytes 1 (x.flags refs) ++ leBytes 2 x.state ++ leBytes 2 x.top ++ leBytes 2 x.depth
    ++ leBytes 2 x.mstate ++ leBytes 2 x.mtop ++ leBytes 2 x.mdepth ++ leBytes 2 x.steps ++ leBytes 2 x.vcode
    ++ leBytes 2 x.dmax ++ leBytes 1 x.pmax ++ leBytes 1 x.umax ++ [0, 0]

/-- The check of bytes 0 to 29 (R234). -/
def GCtx.crc (x : GCtx) (refs : Bool) : Nat := crc32c (x.head refs) % 65536

/-- A context with its check made good: a word that writes a context's fields writes its check too (R234; assumption 103). -/
def GCtx.sealed (x : GCtx) : GCtx := { x with check := x.crc false }

/-- The record of 32 bytes: the context table's with the check it holds, a saved one with its check computed (R243). -/
def GCtx.record (x : GCtx) (refs : Bool) : List Byte := x.head refs ++ leBytes 2 (if refs then x.crc true else x.check)

/-- What a word writes into a context. -/
def GM.landCtx (g : GM) (n : Fin 64) (u : CtxUpd) : GM :=
  let x := g.ctx[n]
  let put (v : GCtx) : GM := { g with ctx := g.ctx.set n v }
  match u with
  | .whole v => put v
  | .bind v => { (if x.bound then g.dropAll x.ptrs else g) with ctx := g.ctx.set n v.sealed }
  | .step st top depth steps => put { x with state := st, top := top, depth := depth, steps := steps }.sealed
  | .dead => put { x with dead := true }.sealed
  | .mark st top depth => put { x with mstate := st, mtop := top, mdepth := depth, mark := true, steps := 0 }.sealed
  | .rollback st top depth => put { x with state := st, top := top, depth := depth, dead := false, steps := 0 }.sealed
  | .commit => put { x with mark := false, steps := 0 }.sealed

/-- The detail of code 0x30: free count and drop-queue count (R340). -/
def GM.poolDetail (g : GM) : Nat := g.free % 65536 + 65536 * g.queue.length

/-! ### One effect -/

/-- What an effect does to its core. The effects on the rest of the machine are below. -/
def Core.land (c : Core) (fresh : Nat) : Effect → Core
  | .setS n v => { c with regs := c.regs.setS n v }
  | .setP n v => { c with regs := c.regs.setP n v }
  | .setA n f v => { c with regs := { c.regs with a := c.regs.a.set n ((c.regs.a[n]).setField f v) } }
  | .incA n off => { c with regs := { c.regs with a := c.regs.a.set n { c.regs.a[n] with off := off } } }
  | .setK n v => { c with regs := { c.regs with k := c.regs.k.set n ⟨v, (c.regs.k[n]).gen + 1⟩ } }
  | .setQ n hi v => { c with regs := { c.regs with q := c.regs.q.set n (setHalf c.regs.q[n] hi v) } }
  | .push q entry tag =>
    let r := c.regs.ring q
    let c' := match entry, r.buffer with
      | some bs, some b => c.bufStore b (pushWrites r bs)
      | _, _ => c
    { c' with regs := c.regs.ringPush q (entry.map fun _ => tag) }
  | .popped q n => { c with regs := c.regs.ringPop q n }
  | .setCtl r m v => { c with regs := { c.regs with ctl := c.regs.ctl.write r m v } }
  | .orFlags f => { c with regs := { c.regs with ctl := { c.regs.ctl with fflags := c.regs.ctl.fflags ||| f } } }
  | .semInit n v => { c with regs := { c.regs with sem := c.regs.sem.set n v } }
  | .semClr m => { c with regs := { c.regs with sem := Vector.ofFn fun i => if m.getLsbD i.val then 0 else c.regs.sem[i] } }
  | .tokens f n => { c with regs := { c.regs with tok := c.regs.tok.set f (c.regs.tok[f] + n) } }
  | .slots ws => { c with mrf := ws.foldl (putSlot fresh) c.mrf }
  | .setVm n v => { c with regs := { c.regs with vm := c.regs.vm.set n v } }
  | .store b ws => c.bufStore b ws
  | .setBits ws => { c with ab := orBits c.ab ws }
  | .setFeed v => { c with regs := { c.regs with feed := v } }
  | .setBeta v => { c with regs := { c.regs with beta := v } }
  | .sleep m =>
    let keep (w : WSet) : WSet := { w with rows := w.rows.filter fun r => !m.getLsbD (r.1 / 64) }
    { c with
      regs := { c.regs with bands := c.regs.bands &&& ~~~m }
      w0 := keep c.w0
      w1 := keep c.w1
      waking := c.waking &&& ~~~m
      pend := c.pend.map fun p => match p.act with
        | .wake b => { p with act := .wake (b &&& ~~~m) }
        | _ => p }
  | .ctx n u => { c with gm := c.gm.landCtx n u }
  | .nodesBack ns => { c with gm := ns.foldl GM.giveNode c.gm }
  | _ => c

/-- The chunks that a landed write contributes to the phase digest (R371), of the core as the write leaves it: an MRF slot whole,
a context as its record, and nothing for ring heads, tokens and flags, which are no writes of the word's results. -/
def Core.chunksOf (c : Core) : Effect → List W64
  | .setS _ v => [v.getD (BitVec.allOnes 64)]
  | .setP _ v => [if v.mark then BitVec.allOnes 64 else BitVec.ofNat 64 v.val.toNat]
  | .setA _ _ v => [BitVec.ofNat 64 v.toNat]
  | .incA _ v => [BitVec.ofNat 64 v.toNat]
  | .setK _ v => [v]
  | .setQ n hi _ => [BitVec.ofNat 64 ((c.regs.q[n]).toNat / (if hi then 2 ^ 64 else 1))]
  | .push _ (some bs) _ => byteChunks (cdiv bs.length 8) bs
  | .setCtl r _ _ => [BitVec.ofNat 64 (c.regs.ctl.read 0 0 r)]
  | .semInit _ v => [BitVec.ofNat 64 v.toNat]
  | .semClr m => ((range' 0 32).filter m.getLsbD).map fun _ => 0
  | .slots ws => (ws.mergeSort fun a b => decide (a.key ≤ b.key)).map fun w =>
      match mapGet c.mrf w.key with
      | some v => BitVec.ofNat 64 v.toNat
      | none => BitVec.allOnes 64
  | .setVm _ v => (range' 0 8).map fun i => BitVec.ofNat 64 (v.toNat / 2 ^ (64 * i))
  | .store _ ws => byteChunks (cdiv ws.length 8) ((ws.mergeSort fun a b => decide (a.1 ≤ b.1)).map Prod.snd)
  | .setBits ws =>
    let as_ := ws.foldl (fun (m : List Nat) w => setAdd m w.1) []
    byteChunks (cdiv as_.length 8) (as_.map (c.ab.get true 64))
  | .setFeed v => [BitVec.ofNat 64 v.toNat]
  | .setBeta v => [BitVec.ofNat 64 v.toNat]
  | .sleep _ => [BitVec.ofNat 64 c.regs.bands.toNat]
  | .home _ bs => byteChunks (cdiv bs.length 8) bs
  | .ctx n _ => byteChunks 4 ((c.gm.ctx[n].record false).map some)
  | .nodesBack ns => ns.map fun n => BitVec.ofNat 64 (c.gm.node n)
  | _ => []

/-- The chunks of effects that land one after another. -/
def Core.landChunks (c : Core) (fresh : Nat) : List Effect → List W64
  | [] => []
  | e :: es => (c.land fresh e).chunksOf e ++ Core.landChunks (c.land fresh e) (fresh + 1) es

/-- A bank or port asked for by word x at the current tick, not at its issue: in strict mode one of two deviates, not
precisely; a word issued in elastic mode is served late instead (R123, R297). -/
def State.claimNow (s : State) (c : Fin 96) (x : Src) (rs : List Nat) : State :=
  let co := s.core c
  match co.claims.findSome? fun k => if rs.contains k.res then (loserOf x k).map fun y => (k.res, y) else none with
  | none => s.setCore c { co with claims := co.claims ++ rs.map fun r => (⟨r, some x.eng, some x⟩ : Claim) }
  | some (r, y) => s.lateFault c y ⟨0x07, r % 256, 0, 1⟩

/-- One effect of word x on core c. -/
def State.landOne (s : State) (c : Fin 96) (x : Src) (e : Effect) : State :=
  match e with
  | .home h bs => s.homeWrite (s.timed c) h bs
  | .banks eng rs => s.claimNow c { x with eng := eng } rs
  | .raise code detail addr => s.lateFault c x ⟨code, detail, addr, lateClass code⟩
  | .alignCheck path addr =>
    let (off, present) := Config.alignment s.fresh
    if !present || off.natAbs > 16 then s.lateFault c x ⟨0x09, linkDetail 6 (pathNo path) 0, 0, 1⟩
    else
      let part := s.part (s.partOf c)
      let i := Fin.ofNat 6 (pathNo path - 2)
      let bs := leBytes 2 (ubits 16 off) ++ [0, 0] ++ leBytes 4 (s.mod.linkBlocks[i] - part.blocks0[i])
        ++ leBytes 4 (s.mod.linkBad[i] - part.bad0[i])
      let rec_ := (padTo 64 bs).map some
      { s.setCore c (((s.core c).bufStore .ab (place addr rec_)).digestChunks x.eng (byteChunks 8 rec_)) with fresh := s.fresh + 1 }
  | .ctx n (.bind v) =>
    let co := s.core c
    let g := co.gm.ctx[n]
    if g.bound && decide (4096 < co.gm.queue.length + g.ptrs.length) then s.lateFault c x ⟨0x30, co.gm.poolDetail, 0, 0⟩
    else s.setCore c (co.land s.fresh (.ctx n (.bind v)))
  | e => { s.setCore c ((s.core c).land s.fresh e) with fresh := s.fresh + 1 }

/-- Several effects of word x, one after another; a fault among them ends them. -/
def State.landAll (s : State) (c : Fin 96) (x : Src) : List Effect → State
  | [] => s
  | e :: es =>
    let t := s.landOne c x e
    if (t.core c).halted && !(s.core c).halted then t else State.landAll t c x es

/-- The landing of several effects of word x that come together: a clash with an earlier write of the tick (R36; a trap in
either mode, assumption 93), room for pushes and the presence of a beat (a word issued in elastic mode waits, R38, R123),
then the effects, which the word's digest takes up (R371). The item has
left the pending list in `s`; `back` is it, should the core have to wait. -/
def State.landEffects (s : State) (c : Fin 96) (x : Src) (back : Pend) (es : List Effect) : State :=
  let co := s.core c
  let keys := co.effectsKeys es
  if keys.any fun k => co.landed.contains k then s.lateFault c x ⟨0x07, 57, 0, 1⟩
  else match firstOf (es.map (s.landDev c x)) with
    | some t =>
      if x.elastic then
        { s.setCore c { co with pend := back :: co.pend, stalled := some ⟨x.eng, 48, []⟩ } with fresh := s.fresh + 1 }
      else s.lateFault c x t
    | none =>
      let co := { co with landed := keys ++ co.landed }
      (s.setCore c (co.digestChunks x.eng (co.landChunks s.fresh es))).landAll c x es

/-- The first item of the core of the slot leaves its list. -/
def State.takeItem (s : State) : Option (Pend × State) :=
  let c := s.slot.core
  let co := s.core c
  match co.pend with
  | [] => none
  | x :: xs => some (x, s.setCore c { co with pend := xs })

end Sys2Proof.Machine
end

