-- ==== Sys2Proof/Machine/Vector.lean ====
section
/-! DEFINITION. The vector compute words (R156 to R185). -/

namespace Sys2Proof.Machine

/-! ### Elements as integers and patterns -/

/-- Width of an integer type, and of X72 (R81). -/
def intBits : VTy → Nat
  | .s36 => 36 | .s64 => 64 | .s16 => 16 | .x72 => 72
  | .f32 => 32 | .f64 => 64 | _ => 16

/-- A saturated result of an integer type (R166): no flag. -/
def intElem (ty : VTy) (v : Int) : Elem := ⟨ubits (intBits ty) (satS (intBits ty) v), 0, false⟩

/-- The X72 value of a pattern; none for the X72 NaN (R81). -/
def x72Val (b : Nat) : Option Int := if b = x72Nan then none else some (sint 72 b)

/-- A sum held in the X72 window (R167). -/
def x72Elem (t : Int) : Elem :=
  if t > x72Max then ⟨ubits 72 x72Max, fOverflow, false⟩
  else if t < -x72Max then ⟨ubits 72 (-x72Max), fOverflow, false⟩
  else ⟨ubits 72 t, 0, false⟩

/-- Two-source operations (R164). -/
inductive VOp where
  | add | sub | mul | fma | fms | min | max | and | or | xor | div
  deriving DecidableEq, Repr

/-- The exact result of an integer operation. -/
def intOp (op : VOp) (a b d : Int) : Int :=
  match op with
  | .add => a + b
  | .sub => a - b
  | .mul => a * b
  | .fma => a * b + d
  | .fms => a * b - d
  | .min => if b < a then b else a
  | .max => if a < b then b else a
  | _ => 0

/-- A two-source operation on X72 (R167). -/
def x72Op (op : VOp) (a b : Nat) : Elem :=
  match x72Val a, x72Val b with
  | some x, some y => x72Elem (intOp op x y 0)
  | _, _ => ⟨x72Nan, 0, false⟩

/-- A float operation (R165). -/
def floatOp (op : VOp) (F : FFmt) (md : RMode) (ftz : Bool) (a b d : Nat) : Elem :=
  let sn := F.snan a || F.snan b
  match op with
  | .add => elemOf (F.add md ftz a b) sn
  | .sub => elemOf (F.sub md ftz a b) sn
  | .mul => elemOf (F.mul md ftz a b) sn
  | .fma => elemOf (F.fma md ftz a b d) (sn || F.snan d)
  | .fms => elemOf (F.fms md ftz a b d) (sn || F.snan d)
  | .min => elemOf (F.minimum ftz a b) sn
  | .max => elemOf (F.maximum ftz a b) sn
  | .div => elemOf (F.div md ftz a b) sn
  | _ => ⟨0, 0, false⟩

/-- A two-source operation on patterns of a type; the bitwise ones move bits and raise nothing (R162). -/
def twoOp (op : VOp) (ty : VTy) (md : RMode) (ftz : Bool) (a b d : Nat) : Elem :=
  match op with
  | .and => ⟨a &&& b, 0, false⟩
  | .or => ⟨a ||| b, 0, false⟩
  | .xor => ⟨a ^^^ b, 0, false⟩
  | op =>
    if ty.isFloat then floatOp op (fmtOf ty) md (flushes ftz ty) a b d
    else if ty = .x72 then x72Op op a b
    else intElem ty (intOp op (sint (intBits ty) a) (sint (intBits ty) b) (sint (intBits ty) d))

/-- The rounding mode of a word at issue (R161), and the flush bit of its job (R78). -/
def State.rmodeV (s : State) : RMode := modeOfCtl s.regs.ctl.round.toNat
def State.ftzV (s : State) : Bool := s.ftz (s.partOf s.slot.core)

/-! ### Words that write a line -/

/-- The elements of a result: a disabled element is absent, a poisoned one is none (R157, R158). -/
def State.elems (s : State) (mk : Option (Fin 8)) (n : Nat) (f : Nat → Option Elem) : List (Option (Option Elem)) :=
  (range' 0 n).map fun i => if s.regs.enabled mk i then some (f i) else none

/-- The effects of elements: the effect lands at an offset with its flags, or the word traps (R89, R90, R159). -/
def State.vecDue (s : State) (lat : Nat) (vs : List (Option (Option Elem))) (e : Effect) : Except Trap (List Due) :=
  let f := elemFlags vs
  guardAll [ieeeTrap s.regs.ctl.ftrap f (elemSnan vs)] (landAt lat [e] :: flagsAt lat f)

/-- The values of elements. -/
def elemVals (vs : List (Option (Option Elem))) : List (Option (Option Nat)) := vs.map fun v => v.map fun e => e.map (·.val)

/-- The same for the elements of a line. -/
def State.lineDue (s : State) (ty : VTy) (d : Line) (lat : Nat) (vs : List (Option (Option Elem))) :
    Except Trap (List Due) := s.vecDue lat vs (lineEffect ty (s.regs.lineAt d) (elemVals vs))

/-- The line write of the landing tick takes the engine's one write port of the MRF, on or off (R159, R42). -/
def portDue (lat : Nat) : List Due := banksAt lat .V [49]

/-- A vector word: its decode checks and post-increments are those of its lines. -/
def State.vecPlan (s : State) (fr : Frame) (ls : List (VTy × Line)) (books : List Due) (on : Except Trap (List Due)) :
    Plan := {
  pred := fr.pred
  dec := s.regs.linesCheck ls
  books := s.regs.lineIncs (ls.map Prod.snd) ++ books
  on := on }

/-- Element i of a list of elements. -/
def at1 (xs : List (Option Nat)) (i : Nat) : Option Nat := nth xs i none

/-- F64 arithmetic on a line of 256 elements takes the F64 pipeline for two ticks, and one tick more (R160). -/
def wide64 (ty : VTy) (d : Line) : Bool := ty == .f64 && d.dir != .r

/-- The F64 pipeline as a resource of the tick (R160). -/
def pipe64 (ty : VTy) (d : Line) (p : Plan) : Plan :=
  if ty = .f64 then
    { p with banks := p.banks ++ [50], books := p.books ++ (if wide64 ty d then banksAt 1 .V [50] else []) }
  else p

/-- Latencies of the two-source words (R161). -/
def latTwo (op : VOp) (ty : VTy) : Nat :=
  match op with
  | .and | .or | .xor | .min | .max => 2
  | .add | .sub =>
    (match ty with
      | .s36 | .s64 | .s16 | .x72 => 2
      | .f64 => 6
      | _ => 4)
  | .div => if ty = .f64 then 24 else 12
  | _ =>
    (match ty with
      | .s36 | .s16 => 3
      | .f64 => 6
      | _ => 4)

/-- Whether an operation is F64 arithmetic in the sense of R160. -/
def VOp.arith : VOp → Bool
  | .add | .sub | .mul | .fma | .fms | .div => true
  | _ => false

/-- A VA word (R164). -/
def State.vaWord (s : State) (op : VOp) (fr : Frame) (ty : VTy) (d a b : Line) : Result :=
  let c := s.core s.slot.core
  let xs := c.line ty a
  let ys := c.line ty b
  let fused := op == .fma || op == .fms
  let zs := if fused then c.line ty d else []
  let f (i : Nat) : Option Elem :=
    match at1 xs i, at1 ys i, (if fused then at1 zs i else some 0) with
    | some x, some y, some z => some (twoOp op ty s.rmodeV s.ftzV x y z)
    | _, _, _ => none
  let lat := latTwo op ty + (if op.arith && wide64 ty d then 1 else 0)
  let p := s.vecPlan fr [(ty, d), (ty, a), (ty, b)] (portDue lat) (s.lineDue ty d lat (s.elems none (lineCount ty d.dir) f))
  .next (s.issue (if op.arith then pipe64 ty d p else p))

def execVNop (_w : Fin 16) (_idle : Fin 1048576) (s : State) : Result := .next (s.issue {})
def execVAdd (fr : Frame) (ty : VTy) (d a b : Line) (s : State) : Result := s.vaWord .add fr ty d a b
def execVSub (fr : Frame) (ty : VTy) (d a b : Line) (s : State) : Result := s.vaWord .sub fr ty d a b
def execVMul (fr : Frame) (ty : VTy) (d a b : Line) (s : State) : Result := s.vaWord .mul fr ty d a b
def execVFma (fr : Frame) (ty : VTy) (d a b : Line) (s : State) : Result := s.vaWord .fma fr ty d a b
def execVFms (fr : Frame) (ty : VTy) (d a b : Line) (s : State) : Result := s.vaWord .fms fr ty d a b
def execVMin (fr : Frame) (ty : VTy) (d a b : Line) (s : State) : Result := s.vaWord .min fr ty d a b
def execVMax (fr : Frame) (ty : VTy) (d a b : Line) (s : State) : Result := s.vaWord .max fr ty d a b
def execVAnd (fr : Frame) (ty : VTy) (d a b : Line) (s : State) : Result := s.vaWord .and fr ty d a b
def execVOr (fr : Frame) (ty : VTy) (d a b : Line) (s : State) : Result := s.vaWord .or fr ty d a b
def execVXor (fr : Frame) (ty : VTy) (d a b : Line) (s : State) : Result := s.vaWord .xor fr ty d a b
def execVDiv (fr : Frame) (ty : VTy) (d a b : Line) (s : State) : Result := s.vaWord .div fr ty d a b

/-! ### One-source words, shifts, requantisation (R168 to R171) -/

/-- A word with one source line: `bad` where its scalar operand is poisoned (R158). -/
def State.vbWord (s : State) (fr : Frame) (dt st : VTy) (d a : Line) (mk : Option (Fin 8)) (lat : Nat) (bad : Bool)
    (f : Nat → Elem) : Plan :=
  let xs := (s.core s.slot.core).line st a
  s.vecPlan fr [(dt, d), (st, a)] (portDue lat) (s.lineDue dt d lat (s.elems mk (lineCount dt d.dir) fun i =>
    if bad then none else (at1 xs i).map f))

/-- `v.abs` and `v.neg` on a pattern (R169). -/
def absElem (ty : VTy) (a : Nat) : Elem :=
  if ty.isFloat then ⟨a % (fmtOf ty).signBit, 0, false⟩
  else if ty = .x72 then (match x72Val a with | some x => x72Elem x.natAbs | none => ⟨a, 0, false⟩)
  else intElem ty (sint (intBits ty) a).natAbs
def negElem (ty : VTy) (a : Nat) : Elem :=
  if ty.isFloat then ⟨a ^^^ (fmtOf ty).signBit, 0, false⟩
  else if ty = .x72 then (match x72Val a with | some x => x72Elem (-x) | none => ⟨a, 0, false⟩)
  else intElem ty (-(sint (intBits ty) a))

def execVAbs (fr : Frame) (ty : VTy) (d a : Line) (mk : Option (Fin 8)) (s : State) : Result :=
  .next (s.issue (s.vbWord fr ty ty d a mk 2 false (absElem ty)))
def execVNeg (fr : Frame) (ty : VTy) (d a : Line) (mk : Option (Fin 8)) (s : State) : Result :=
  .next (s.issue (s.vbWord fr ty ty d a mk 2 false (negElem ty)))
def execVNot (fr : Frame) (ty : VTy) (d a : Line) (mk : Option (Fin 8)) (s : State) : Result :=
  .next (s.issue (s.vbWord fr ty ty d a mk 2 false fun x => ⟨2 ^ intBits ty - 1 - x, 0, false⟩))
def execVMov (fr : Frame) (ty : VTy) (d a : Line) (mk : Option (Fin 8)) (s : State) : Result :=
  .next (s.issue (s.vbWord fr ty ty d a mk 2 false fun x => ⟨x, 0, false⟩))

/-- The places of a shift (R170). -/
def shiftPlaces (v : Option W64) (n : Fin 64) : Nat := n.val + (v.getD 0).toNat % 128

/-- Whether a scalar operand is poisoned. -/
def bad (v : Option W64) : Bool := v.isNone

/-- R170; the element has w bits. -/
def shlElem (w k a : Nat) : Elem := ⟨if w ≤ k then 0 else a * 2 ^ k % 2 ^ w, 0, false⟩
def shrElem (w k a : Nat) : Elem := ⟨if w ≤ k then 0 else a / 2 ^ k, 0, false⟩
def sarElem (w k a : Nat) : Elem := ⟨ubits w (sint w a / (2 ^ min k w : Nat)), 0, false⟩

/-- RoundInt of v / 2^sh (R86, R171). -/
def roundShift (md : RMode) (v : Int) (sh : Nat) : Int :=
  let q := (roundQuot md (decide (v < 0)) v.natAbs (2 ^ sh)).1
  if v < 0 then -(q : Int) else q

/-- R171. -/
def rshrElem (w : Nat) (md : RMode) (sc : W64) (sh a : Nat) : Elem :=
  let x := sc.toNat
  let ow := if 2 ≤ fld x 53 48 ∧ fld x 53 48 ≤ w then fld x 53 48 else w
  let q := roundShift md (sint w a * sint 32 (fld x 31 0)) sh
  ⟨ubits w (satS ow (q + sint 16 (fld x 47 32))), 0, false⟩

def execVShl (fr : Frame) (ty : VTy) (d a : Line) (sc : Fin 32) (n : Fin 64) (mk : Option (Fin 8)) (s : State) : Result :=
  let v := s.regs.getS sc
  .next (s.issue (s.vbWord fr ty ty d a mk 2 (bad v) (shlElem (intBits ty) (shiftPlaces v n))))
def execVShr (fr : Frame) (ty : VTy) (d a : Line) (sc : Fin 32) (n : Fin 64) (mk : Option (Fin 8)) (s : State) : Result :=
  let v := s.regs.getS sc
  .next (s.issue (s.vbWord fr ty ty d a mk 2 (bad v) (shrElem (intBits ty) (shiftPlaces v n))))
def execVSar (fr : Frame) (ty : VTy) (d a : Line) (sc : Fin 32) (n : Fin 64) (mk : Option (Fin 8)) (s : State) : Result :=
  let v := s.regs.getS sc
  .next (s.issue (s.vbWord fr ty ty d a mk 2 (bad v) (sarElem (intBits ty) (shiftPlaces v n))))
def execVRshr (fr : Frame) (ty : VTy) (d a : Line) (sc : Fin 32) (n : Fin 64) (mk : Option (Fin 8)) (s : State) : Result :=
  let v := s.regs.getS sc
  .next (s.issue (s.vbWord fr ty ty d a mk 3 (bad v) (rshrElem (intBits ty) s.rmodeV (v.getD 0) n.val)))

/-! ### Compare and select (R172, R173) -/

/-- An integer relation on w bits (R56). -/
def intRel (cc : Cc) (w a b : Nat) : Bool :=
  match cc with
  | .eq => a == b
  | .ne => a != b
  | .lt => decide (sint w a < sint w b)
  | .ge => decide (sint w b ≤ sint w a)
  | .ltu => decide (a < b)
  | .geu => decide (b ≤ a)
  | .uo => false

/-- The relation of two elements: 1 or 0, with its flags. -/
def cmpElem (ty : VTy) (cc : Cc) (ftz : Bool) (a b : Nat) : Elem :=
  if ty.isFloat then
    let F := fmtOf ty
    let r := F.compare cc (F.flushIn (flushes ftz ty) a) (F.flushIn (flushes ftz ty) b)
    ⟨r.1.toNat, r.2, F.snan a || F.snan b⟩
  else if ty = .x72 ∧ (a = x72Nan ∨ b = x72Nan) then ⟨(cc == .ne || cc == .uo).toNat, 0, false⟩
  else ⟨(intRel cc (intBits ty) a b).toNat, 0, false⟩

/-- The mask whose bit i is the i-th element; absent and poisoned elements give 0. -/
def maskNat : List (Option (Option Nat)) → Nat
  | [] => 0
  | some (some n) :: vs => n % 2 + 2 * maskNat vs
  | _ :: vs => 2 * maskNat vs

def execVCmp (fr : Frame) (ty : VTy) (cc : Cc) (vmE : Fin 8) (a b : Line) (mk : Option (Fin 8)) (s : State) : Result :=
  let c := s.core s.slot.core
  let xs := c.line ty a
  let ys := c.line ty b
  let vs := s.elems mk (lineCount ty a.dir) fun i =>
    match at1 xs i, at1 ys i with
    | some x, some y => some (cmpElem ty cc s.ftzV x y)
    | _, _ => none
  .next (s.issue (s.vecPlan fr [(ty, a), (ty, b)] []
    (s.vecDue 2 vs (.setVm vmE (BitVec.ofNat 512 (maskNat (elemVals vs)))))))

/-- ScalarElem (R173); none for a poisoned register. -/
def scalarElem (ty : VTy) (v : Option W64) : Option Nat :=
  v.map fun w =>
    match ty with
    | .x72 => ubits 72 w.toInt
    | ty => w.toNat % 2 ^ intBits ty

def execVSel (fr : Frame) (ty : VTy) (d a : Line) (sc : Fin 32) (vm : Fin 8) (s : State) : Result :=
  let xs := (s.core s.slot.core).line ty a
  let v := scalarElem ty (s.regs.getS sc)
  .next (s.issue (s.vecPlan fr [(ty, d), (ty, a)] (portDue 2) (s.lineDue ty d 2 (s.elems none (lineCount ty d.dir) fun i =>
    (if (s.regs.vm[vm]).getLsbD i then at1 xs i else v).map fun x => ⟨x, 0, false⟩))))

/-! ### Conversions and scaling (R174 to R177) -/

/-- An integer rounded to an n-bit integer: it saturates with invalid (R88). -/
def satFlag (n : Nat) (v : Int) : Elem := ⟨ubits n (satS n v), if satS n v = v then 0 else fInvalid, false⟩

/-- R174: from type st to type dt. -/
def cvtElem (dt st : VTy) (md : RMode) (ftz : Bool) (a : Nat) : Elem :=
  if st.isFloat then
    let S := fmtOf st
    let v := S.unpack (S.flushIn (flushes ftz st) a)
    if dt.isFloat then elemOf ((fmtOf dt).flushOut (flushes ftz dt) ((fmtOf dt).convert S md v)) v.isSnan
    else
      let r := toInt (intBits dt) md v
      ⟨ubits (intBits dt) r.1, r.2, v.isSnan⟩
  else
    let x := sint (intBits st) a
    if dt.isFloat then elemOf ((fmtOf dt).flushOut (flushes ftz dt) ((fmtOf dt).roundInt md x 0 false)) false
    else satFlag (intBits dt) x

def execVCvt (fr : Frame) (dt st : VTy) (d a : Line) (mk : Option (Fin 8)) (s : State) : Result :=
  .next (s.issue (s.vbWord fr dt st d a mk 4 false (cvtElem dt st s.rmodeV s.ftzV)))

/-- The half of slot i of a line addressed by slot (R175). -/
def halfElem (m : SMap W36) (l : LineAt) (hi : Bool) (i : Nat) : Option Nat :=
  (mapGet m (l.key i false).1).map fun (w : W36) => w.toNat / 2 ^ (if hi then 16 else 0) % 65536

/-- V_CVTE (R175): a write into H16 keeps the other half and the slot's poison. -/
def execVCvte (fr : Frame) (ty h16 : VTy) (toH16 hi : Bool) (d a : Line) (mk : Option (Fin 8)) (s : State) : Result :=
  let c := s.core s.slot.core
  let la := s.regs.lineAt a
  let ld := s.regs.lineAt d
  if toH16 then
    let vs := s.elems mk 256 fun i => (lineElem c.mrf ty la i).map (cvtElem h16 ty s.rmodeV s.ftzV)
    let hs := (elemVals vs).map fun v => if hi then (none, v) else (v, none)
    .next (s.issue (s.vecPlan fr [(ty, d), (ty, a)] (portDue 4) (s.vecDue 4 vs (.slots (halfWrites ld true 0 hs)))))
  else
    let vs := s.elems mk 256 fun i => (halfElem c.mrf la hi i).map (cvtElem ty h16 s.rmodeV s.ftzV)
    .next (s.issue (s.vecPlan fr [(ty, d), (ty, a)] (portDue 4) (s.lineDue ty d 4 vs)))

/-- R176 from X72: x × 2^σ rounded to the type. -/
def fromX72 (ty : VTy) (md : RMode) (sigma : Int) (a : Nat) : Elem :=
  match x72Val a with
  | none => if ty.isFloat then ⟨(fmtOf ty).dnan, 0, false⟩ else ⟨0, fInvalid, false⟩
  | some x =>
    if ty.isFloat then elemOf ((fmtOf ty).roundInt md x sigma false) false
    else
      let r := toInt (intBits ty) md (.fin (decide (x < 0)) x.natAbs sigma)
      ⟨ubits (intBits ty) r.1, r.2, false⟩

/-- R176 to X72: y × 2^−σ rounded to an integer. -/
def toX72 (md : RMode) (sigma : Int) (v : FVal) : Elem :=
  match v with
  | .fin s m e =>
    let (N, D) := scaleQ m 1 (e - sigma)
    let (q, nx) := roundQuot md s N D
    let t : Int := if s then -(q : Int) else q
    if (q : Int) > x72Max then ⟨ubits 72 (if s then -x72Max else x72Max), fInvalid, false⟩
    else ⟨ubits 72 t, if nx then fInexact else 0, false⟩
  | v => ⟨x72Nan, fInvalid, v.isSnan⟩

/-- The value of an element of a float or integer type. -/
def valOf (ty : VTy) (a : Nat) : FVal :=
  if ty.isFloat then (fmtOf ty).unpack a
  else .fin (decide (sint (intBits ty) a < 0)) (sint (intBits ty) a).natAbs 0

def execVCvtx (fr : Frame) (ty : VTy) (toX : Bool) (d a : Line) (sc : Fin 32) (mk : Option (Fin 8)) (s : State) : Result :=
  let v := s.regs.getS sc
  let sigma := sint 16 (v.getD 0).toNat
  .next (s.issue (if toX then s.vbWord fr .x72 ty d a mk 4 (bad v) fun x => toX72 s.rmodeV sigma (valOf ty x)
    else s.vbWord fr ty .x72 d a mk 4 (bad v) (fromX72 ty s.rmodeV sigma)))

def execVScale (fr : Frame) (ty : VTy) (d a : Line) (sc : Fin 32) (n : BitVec 6) (mk : Option (Fin 8)) (s : State) : Result :=
  let v := s.regs.getS sc
  let k : Int := max (-65536) (min 65536 (v.getD 0).toInt) + n.toInt
  .next (s.issue (s.vbWord fr ty ty d a mk 4 (bad v) fun x =>
    elemOf ((fmtOf ty).scaleB s.rmodeV (flushes s.ftzV ty) x k) ((fmtOf ty).snan x)))

/-! ### Narrowing, rotation, slices (R178 to R184) -/

/-- The rounding mode that a choice names; none is stochastic (R53, R86). -/
def rndMode (r : Rnd) (ctl : Nat) : Option RMode :=
  match r with
  | .rne => some .rne
  | .rtz => some .rtz
  | .rup => some .rup
  | .rdn => some .rdn
  | .rmm => some .rmm
  | .sr => none
  | .dyn => if ctl = 5 then none else some (modeOfCtl ctl)

/-- Elements of an entry (R179). -/
def entryElems : NFmt → Nat
  | .s5 => 512
  | _ => 256

/-- An element as it enters a narrowing: +0 where it is disabled (R179). -/
def State.narrowSrc (s : State) (ty : VTy) (xs : List (Option Nat)) (mk : Option (Fin 8)) (i : Nat) : Option FVal :=
  if s.regs.enabled mk i then (at1 xs i).map fun x => (fmtOf ty).unpack ((fmtOf ty).flushIn (flushes s.ftzV ty) x)
  else some (.fin false 0 0)

/-- The elements of an entry with a poisoned source element as zeros: it raises nothing (R89, R179). -/
def cleanSrc (en : Nat) (vs : List (Option FVal)) : List (List FVal × Bool) :=
  (chunks en (vs.length / en) vs).map fun e =>
    if e.any (·.isNone) then (e.map fun _ => .fin false 0 0, true) else (e.map fun v => v.getD (.fin false 0 0), false)

/-- A NaN that raises nothing. -/
def FVal.quieted : FVal → FVal
  | .nan s _ p => .nan s true p
  | v => v

/-- The entries that a narrowing pushes: bytes, none where poisoned, and the flags of all. A poisoned random word poisons the
element it feeds, enabled or not, and with it the entry; that element is not rounded and raises nothing (R181). -/
def State.narrowed (s : State) (ty : VTy) (l : Line) (fmt : NFmt) (n : Nat) (seed : W64) (md : Option RMode)
    (ws : List (Option Nat)) (mk : Option (Fin 8)) : List (List (Option Byte)) × Flags × Bool :=
  let xs := (s.core s.slot.core).line ty l
  let lost (i : Nat) : Bool := md.isNone && (nth ws i none).isNone
  let src := (range' 0 (lineCount ty l.dir)).map fun i =>
    let v := s.narrowSrc ty xs mk i
    if lost i then v.map FVal.quieted else v
  let en := entryElems fmt
  let es := cleanSrc en src
  let out := narrowLine fmt n seed (fun i => md.getD (.sr ((nth ws i none).getD 0))) (fun i => s.regs.enabled mk i && !lost i)
    (es.map Prod.fst).flatten
  (List.zipWith (fun o (e : Nat × List FVal × Bool) =>
      if e.2.2 || (range' (en * e.1) en).any lost then List.replicate o.1.length none else o.1.map some) out (place 0 es),
    orAll (out.map Prod.snd), es.any fun e => e.1.any FVal.isSnan)

/-- The pushes of consecutive entries from an offset on. -/
def pushesFrom (q : Fin 32) (tag : BitVec 16) : Nat → List (Option (List (Option Byte))) → List Due
  | _, [] => []
  | o, e :: es => landAt o [.push q e tag] :: pushesFrom q tag (o + 1) es

/-- V_NARROW (R94, R180, R181). The flags of both entries of a line are raised at t + 8 (assumption 116). A tag that does not match
comes before an IEEE trap of the word (assumption 128). -/
def execVNarrow (fr : Frame) (ty : VTy) (l : Line) (q : Fin 32) (fmt : NFmt) (k : Fin 8) (blk : Blk) (free : Bool) (rnd : Rnd)
    (mk : Option (Fin 8)) (s : State) : Result :=
  let c := s.core s.slot.core
  let md := rndMode rnd s.regs.ctl.round.toNat
  let n := lineCount ty l.dir
  let key := s.regs.k[k]
  let tag := tagOf free blk k key.gen
  let ws := if md.isNone then (c.entries 31 n).map fun e => (leNat? e).map (· % 2 ^ 32) else []
  let (es, fl, sn) := s.narrowed ty l fmt (blkN blk) key.seed md ws mk
  let plan := s.vecPlan fr [(ty, l)] (if md.isNone then [popDue 31 n] else [])
    (guardAll [c.tagCheck q tag (s.slot.tick + 8), ieeeTrap s.regs.ctl.ftrap fl sn]
      (pushesFrom q tag 8 (es.map some) ++ flagsAt 8 fl))
  .next (s.issue { plan with
    dec := firstOf [plan.dec, s.regs.ringCheck q fun r => r.buf == 1 && r.esize == 40,
      if md.isNone then s.regs.ringCheck 31 fun r => r.buf == 3 && r.esize == 1 else none]
    dev := if md.isNone then s.regs.popDev 31 n else none
    off := pushesFrom q tag 8 (List.replicate (n / entryElems fmt) none) })

/-- One rotation block of `v.rot`: none for each element of a poisoned block; NaN or infinity gives the default NaN. An exact
zero is written as +0 in every mode (R93; assumption 119). -/
def rotBlock (F : FFmt) (md : RMode) (ftz : Bool) (n : Nat) (seed : W64) (j0 : Nat) (inv : Bool) (xs : List (Option Nat)) :
    List (Option Elem) :=
  if xs.any (·.isNone) then xs.map fun _ => none
  else
    let vs := xs.map fun x => F.unpack (F.flushIn ftz (x.getD 0))
    if vs.all FVal.isFin then
      let (zs, nx) := rotate (vs.map FVal.toDy) n seed j0 inv
      zs.map fun z =>
        let r := F.flushOut ftz (F.roundInt md z.v z.e false)
        some ⟨r.1, r.2 ||| (if nx then fInexact else 0), false⟩
    else vs.map fun v => some ⟨F.dnan, fInvalid, v.isSnan⟩

/-- The blocks of a line, `k` of them. -/
def rotLine (F : FFmt) (md : RMode) (ftz : Bool) (n : Nat) (seed : W64) (inv : Bool) :
    Nat → Nat → List (Option Nat) → List (Option Elem)
  | 0, _, _ => []
  | k + 1, j0, xs => rotBlock F md ftz n seed j0 inv (xs.take n) ++ rotLine F md ftz n seed inv k (j0 + n) (xs.drop n)

def execVRot (fr : Frame) (ty : VTy) (l : Line) (tagq : Option (Fin 32)) (k : Fin 8) (blk : Blk) (inv : Bool) (rnd : Rnd)
    (s : State) : Result :=
  let key := s.regs.k[k]
  let want := tagOf true blk k key.gen
  let bad := tagq.bind fun q =>
    let met := (s.regs.ring q).rtag
    failIf (met != want) ⟨0x04, want.toNat + 65536 * met.toNat, 0, 0⟩
  let n := blkN blk
  let xs := (s.core s.slot.core).line ty l
  let vs := (rotLine (fmtOf ty) ((rndMode rnd s.regs.ctl.round.toNat).getD .rne) (flushes s.ftzV ty) n key.seed inv
    (xs.length / n) 0 xs).map some
  .next (s.issue (s.vecPlan fr [(ty, l)] (portDue 10)
    (match bad with
      | some t => .error t
      | none => s.lineDue ty l 10 vs)))

def execVSliceF64 (fr : Frame) (q : Fin 32) (a : Line) (sc : Fin 32) (s : State) : Result :=
  let c := s.core s.slot.core
  let v := s.regs.getS sc
  let x := (v.getD 0).toNat
  let n := fld x 23 20
  let i := fld x 19 16
  let xs := c.line .f64 a
  let ok := v.isSome && decide (3 ≤ n ∧ n ≤ 8 ∧ 1 ≤ i ∧ i ≤ n) && xs.all (·.isSome)
  let src := xs.map fun x => FFmt.f64.unpack (x.getD 0)
  let pad := List.replicate (256 - src.length) (FVal.fin false 0 0)
  let (bs, fl) := sliceBlock (src ++ pad) n i (sint 16 x)
  let fl := if ok then fl else 0
  let plan := s.vecPlan fr [(.f64, a)] []
    (guardAll [c.tagCheck q 0 (s.slot.tick + 6), ieeeTrap s.regs.ctl.ftrap fl (ok && src.any FVal.isSnan)]
      (landAt 6 [.push q (some (if ok then bs.map some else List.replicate 320 none)) 0] :: flagsAt 6 fl))
  .next (s.issue { plan with
    dec := firstOf [plan.dec, s.regs.ringCheck q fun r => r.buf == 1 && r.esize == 40]
    off := [landAt 6 [.push q none 0]] })

/-! ### Special functions (R185) -/

/-- A special function on a line. -/
def State.specWord (s : State) (fr : Frame) (ty : VTy) (d a : Line) (mk : Option (Fin 8)) (lat : Nat)
    (f : RMode → Nat → Nat × Flags) : Plan :=
  s.vbWord fr ty ty d a mk lat false fun x => elemOf (f s.rmodeV x) ((fmtOf ty).snan x)

def execVExp2 (fr : Frame) (d a : Line) (mk : Option (Fin 8)) (s : State) : Result :=
  .next (s.issue (s.specWord fr .f32 d a mk 10 (exp2F FFmt.f32)))
def execVLog2 (fr : Frame) (d a : Line) (mk : Option (Fin 8)) (s : State) : Result :=
  .next (s.issue (s.specWord fr .f32 d a mk 10 (log2F FFmt.f32)))
def execVRecip (fr : Frame) (d a : Line) (mk : Option (Fin 8)) (s : State) : Result :=
  .next (s.issue (s.specWord fr .f32 d a mk 10 (recipF FFmt.f32)))
def execVRsqrt (fr : Frame) (d a : Line) (mk : Option (Fin 8)) (s : State) : Result :=
  .next (s.issue (s.specWord fr .f32 d a mk 10 (rsqrtF FFmt.f32)))
def execVSqrt (fr : Frame) (ty : VTy) (d a : Line) (mk : Option (Fin 8)) (s : State) : Result :=
  let lat := if ty = .f64 then (if wide64 ty d then 29 else 28) else 12
  .next (s.issue (pipe64 ty d (s.specWord fr ty d a mk lat (FFmt.sqrt (fmtOf ty)))))
def execVSinpi (fr : Frame) (d a : Line) (mk : Option (Fin 8)) (s : State) : Result :=
  .next (s.issue (s.specWord fr .f32 d a mk 10 (sinpiF FFmt.f32)))
def execVCospi (fr : Frame) (d a : Line) (mk : Option (Fin 8)) (s : State) : Result :=
  .next (s.issue (s.specWord fr .f32 d a mk 10 (cospiF FFmt.f32)))

end Sys2Proof.Machine
end

