-- ==== Sys2Proof/Machine/VectorData.lean ====
section
/-! DEFINITION. The vector words that move data between the MRF, AB and rings, permute lanes, reduce and scan lines, match
strings, draw random words and work on masks (R186 to R201). -/

namespace Sys2Proof.Machine

/-! ### Line accesses of AB (R186 to R190) -/

/-- Bytes of a line in AB. -/
def lineBytes (ty : VTy) (d : Dir) : Nat := lineCount ty d * abSize ty

/-- The mask of a word as bits (R157). -/
def Regs.maskBits (r : Regs) (mk : Option (Fin 8)) : BitVec 512 :=
  match mk with
  | none => BitVec.allOnes 512
  | some m => r.vm[m]

/-- The write of a line from its bytes in AB; a disabled element keeps its value. -/
def loadEffect (ty : VTy) (l : LineAt) (bs : List (Option Byte)) (en : BitVec 512) : Effect :=
  lineEffect ty l ((place 0 (chunks (abSize ty) (lineCount ty l.dir) bs)).map fun e =>
    if en.getLsbD e.1 then some (fromAb ty e.2) else none)

/-- What a load of a line from address x leaves due: the landing at t + 4 of what stands there at the issue tick, also in
granules whose banks are taken a tick later (R187). -/
def State.loadDue (s : State) (ty : VTy) (l : Line) (x : Nat) (mk : Option (Fin 8)) : List Due :=
  let c := s.core s.slot.core
  [landAt 4 [loadEffect ty (c.regs.lineAt l) (c.bufRead .ab x (lineBytes ty l.dir)) (c.regs.maskBits mk)]]

/-- The bytes that a line stores, element by element; `dis` for a disabled one. -/
def storeLine (ty : VTy) (en : BitVec 512) (dis : List (Option Byte)) : Nat → List (Option Nat) → List (List (Option Byte))
  | _, [] => []
  | i, v :: vs => (if en.getLsbD i then toAb ty v else dis) :: storeLine ty en dis (i + 1) vs

/-- A VD word or a ring word on a line: its lines' and its buffer address's checks, the post-increments (one for a
register named twice), and its banks at t and later. -/
def State.vdPlan (s : State) (fr : Frame) (ls : List (VTy × Line)) (x : List BufAddr) (align : Option Trap)
    (banks : List Nat) (books : List Due) (on : Except Trap (List Due)) : Plan := {
  pred := fr.pred
  dec := firstOf (align :: [s.regs.linesCheck ls])
  banks := banks
  books := ((ls.map Prod.snd).map s.regs.lineInc ++ x.map s.regs.postInc).flatten.eraseDups ++ books
  on := on }

/-- A line that lies outside AB (R189). -/
def abRange (x n : Nat) : Option Trap := failIf (decide (x + n > Config.abBytes)) ⟨0x20, 0, x, 0⟩

def execVLd (fr : Frame) (ty : VTy) (l : Line) (x : BufAddr) (off : BitVec 16) (mk : Option (Fin 8)) (s : State) : Result :=
  let a := s.regs.vdAddr x off
  let n := lineBytes ty l.dir
  let (b0, b1) := lineBanks a n
  .next (s.issue (s.vdPlan fr [(ty, l)] [x] (failIf (a % 64 != 0) ⟨0x02, 0, a, 0⟩) b0 (banksAt 1 .V b1 ++ portDue 4)
    (guardAll [abRange a n] (s.loadDue ty l a mk))))

/-- The landing offset of a line store (R187). -/
def storeLat (n : Nat) : Nat := if n = 4096 then 2 else 1

def execVSt (fr : Frame) (ty : VTy) (l : Line) (x : BufAddr) (off : BitVec 16) (mk : Option (Fin 8)) (s : State) : Result :=
  let a := s.regs.vdAddr x off
  let n := lineBytes ty l.dir
  let (b0, b1) := lineBanks a n
  let es := storeLine ty (BitVec.allOnes 512) [] 0 ((s.core s.slot.core).line ty l)
  let ws := ((place 0 es).filter fun e => s.regs.enabled mk e.1).flatMap fun e => place (a + e.1 * abSize ty) e.2
  .next (s.issue (s.vdPlan fr [(ty, l)] [x] (failIf (a % 64 != 0) ⟨0x02, 0, a, 0⟩) b0 (banksAt 1 .V b1)
    (guardAll [abRange a n] [landAt (storeLat n) [.store .ab ws]])))

/-- The check of a ring that a line moves to or from (R190). -/
def Regs.lineRing (r : Regs) (q : Fin 32) (n : Nat) : Option Trap := r.ringCheck q fun g => g.buf == 1 && g.ebytes == n

def execVPop (fr : Frame) (ty : VTy) (l : Line) (q : Fin 32) (mk : Option (Fin 8)) (s : State) : Result :=
  let n := lineBytes ty l.dir
  let r := s.regs.ring q
  let x := r.addr r.head
  let (b0, b1) := lineBanks x n
  let plan := s.vdPlan fr [(ty, l)] [] none b0 (banksAt 1 .V b1 ++ portDue 4 ++ [popDue q 1]) (.ok (s.loadDue ty l x mk))
  .next (s.issue { plan with
    dec := firstOf [plan.dec, s.regs.lineRing q n]
    dev := s.regs.popDev q 1 })

def execVPush (fr : Frame) (ty : VTy) (l : Line) (q : Fin 32) (mk : Option (Fin 8)) (s : State) : Result :=
  let c := s.core s.slot.core
  let n := lineBytes ty l.dir
  let lat := storeLat n
  let x := c.pushAddr q (s.slot.tick + lat) 0
  let (b0, b1) := lineBanks x n
  let bs := (storeLine ty (c.regs.maskBits mk) (List.replicate (abSize ty) (some 0)) 0 (c.line ty l)).flatten
  let plan := s.vdPlan fr [(ty, l)] [] none b0 (banksAt 1 .V b1)
    (guardAll [c.tagCheck q 0 (s.slot.tick + lat)] [landAt lat [.push q (some bs) 0]])
  .next (s.issue { plan with
    dec := firstOf [plan.dec, s.regs.lineRing q n]
    off := [landAt lat [.push q none 0]] })

/-! ### Gather, scatter and bitmaps (R191 to R193) -/

/-- All 32 banks for n ticks from the issue tick on: those of the later ticks (R187). -/
def allBanks (n : Nat) : List Due := (range' 1 (n - 1)).flatMap fun o => banksAt o .V (range' 0 32)

/-- The distinct granules of addresses in each bank. -/
def bankLoad (addrs : List Int) : List Nat :=
  let gs : List Int := (addrs.map fun a => a / 64).eraseDups
  (range' 0 32).map fun (b : Nat) => (gs.filter fun g => decide (g % 32 = (b : Int))).length

/-- The lowest bank with more than n. -/
def bankOver (load : List Nat) (n : Nat) : Option Nat := (range' 0 32).find? fun b => decide (n < nth load b 0)

/-- The deviation of R192 in strict mode. -/
def State.loadDev (s : State) (load : List Nat) : Option (Trap × Bool) :=
  if s.regs.ctl.elastic then none else (bankOver load 8).map fun b => (⟨0x07, b, 0, 0⟩, false)

/-- The frozen ticks of R192 in elastic mode: eight for each further group of eight granules in the worst bank. -/
def loadOwed (load : List Nat) : List Owed :=
  (range' 1 63).flatMap fun k =>
    match bankOver load (8 * k) with
    | some b => List.replicate 8 ⟨.V, b, [b]⟩
    | none => []

/-- Issue of a word that may freeze its core in elastic mode. -/
def State.issueLoaded (s : State) (p : Plan) (load : List Nat) : State :=
  let t := s.issue p
  let c := s.slot.core
  if s.regs.ctl.elastic && (t.core c).retired != (s.core c).retired then
    t.setCore c (let co := t.core c; { co with owed := co.owed ++ loadOwed load })
  else t

/-- Which elements count: the enabled ones, or all for a word that is predicated off (R192). -/
def State.counts (s : State) (fr : Frame) (mk : Option (Fin 8)) (i : Nat) : Bool :=
  !(s.regs.getP fr.pred).val || s.regs.enabled mk i

/-- Addresses of elements, none for a poisoned index or an id that makes no access; those that count. -/
def State.liveAddrs (s : State) (fr : Frame) (mk : Option (Fin 8)) (as_ : List (Option Int)) : List Int :=
  (place 0 as_).filterMap fun e => if s.counts fr mk e.1 then e.2 else none

/-- The checks of enabled elements in ascending order: a poisoned index where `needs`, and the range (R191; for the ids of R193 in
the same order, assumption 129). -/
def gatherTrap (en : Nat → Bool) (needs : Bool) (size : Nat) : Nat → List (Option Nat) → List (Option Int) → Option Trap
  | i, v :: vs, a :: as_ =>
    if !en i then gatherTrap en needs size (i + 1) vs as_
    else if v.isNone then (if needs then some ⟨0x18, 0, 0, 0⟩ else gatherTrap en needs size (i + 1) vs as_)
    else match a with
      | some x => if x < 0 ∨ x + size > (Config.abBytes : Nat) then some ⟨0x20, 0, ubits 32 x, 0⟩
        else gatherTrap en needs size (i + 1) vs as_
      | none => gatherTrap en needs size (i + 1) vs as_
  | _, _, _ => none

/-- The index line of a gather or scatter (R191). -/
def idxLine (l : Line) : Line := { l with tile := Fin.ofNat 7 (l.tile.val ^^^ 1) }
def idxType (ty : VTy) : VTy := if ty.isH16 then .s16 else .s36

/-- Indices and addresses of a gather or scatter. -/
def State.gsAddrs (s : State) (ty : VTy) (l : Line) (x0 : Nat) : List (Option Nat) × List (Option Int) :=
  let xs := ((s.core s.slot.core).line (idxType ty) (idxLine l)).take (lineCount ty l.dir)
  (xs, xs.map fun v => v.map fun n => (x0 : Int) + sint (intBits (idxType ty)) n * abSize ty)

def execVGather (fr : Frame) (ty : VTy) (l : Line) (x : BufAddr) (off : BitVec 16) (mk : Option (Fin 8)) (s : State) : Result :=
  let c := s.core s.slot.core
  let x0 := c.regs.vdAddr x off
  let (vs, as_) := s.gsAddrs ty l x0
  let load := bankLoad (s.liveAddrs fr mk as_)
  let out := (place 0 as_).map fun e =>
    if c.regs.enabled mk e.1 then some (e.2.bind fun a => fromAb ty (c.bufRead .ab a.toNat (abSize ty))) else none
  let plan := s.vdPlan fr [(ty, l), (idxType ty, idxLine l)] [x] (failIf (x0 % abSize ty != 0) ⟨0x02, 0, x0, 0⟩) (range' 0 32)
    (allBanks 8 ++ portDue 12)
    (guardAll [gatherTrap (c.regs.enabled mk) false (abSize ty) 0 vs as_] [landAt 12 [lineEffect ty (c.regs.lineAt l) out]])
  .next (s.issueLoaded { plan with dev := s.loadDev load } load)

/-- Writes of a scatter in ascending order: a later one of the same address replaces the earlier, but for a poisoned byte,
which poisons its granule whatever comes after it (R188). -/
def scatterWrites (ws : List BW) : SMap (Option Byte) :=
  ws.foldl (fun m w => mapSet m w.1 (if mapGet m w.1 = some none then none else w.2)) []

def execVScatter (fr : Frame) (ty : VTy) (l : Line) (x : BufAddr) (off : BitVec 16) (mk : Option (Fin 8)) (s : State) : Result :=
  let c := s.core s.slot.core
  let x0 := c.regs.vdAddr x off
  let (vs, as_) := s.gsAddrs ty l x0
  let load := bankLoad (s.liveAddrs fr mk as_)
  let ls := c.line ty l
  let ws := (place 0 as_).flatMap fun e =>
    match e.2 with
    | some a => if c.regs.enabled mk e.1 then place a.toNat (toAb ty (at1 ls e.1)) else []
    | none => []
  let plan := s.vdPlan fr [(ty, l), (idxType ty, idxLine l)] [x] (failIf (x0 % abSize ty != 0) ⟨0x02, 0, x0, 0⟩) (range' 0 32)
    (allBanks 9)
    (guardAll [gatherTrap (c.regs.enabled mk) true (abSize ty) 0 vs as_] [landAt 8 [.store .ab (scatterWrites ws)]])
  .next (s.issueLoaded { plan with dev := s.loadDev load } load)

/-- The bytes that ids select; none for a poisoned or negative id (R193). -/
def idAddrs (ty : VTy) (x0 : Nat) (ids : List (Option Nat)) : List (Option Int) :=
  ids.map fun v => v.bind fun n =>
    if sint (intBits ty) n < 0 then none else some ((x0 : Int) + (n / 8 : Nat))

def execVBset (fr : Frame) (ty : VTy) (l : Line) (x : BufAddr) (off : BitVec 16) (mk : Option (Fin 8)) (s : State) : Result :=
  let c := s.core s.slot.core
  let x0 := c.regs.vdAddr x off
  let ids := c.line ty l
  let as_ := idAddrs ty x0 ids
  let load := bankLoad (s.liveAddrs fr mk as_)
  let bits := (place 0 as_).filterMap fun e =>
    match e.2, at1 ids e.1 with
    | some a, some k => if c.regs.enabled mk e.1 then some (a.toNat, BitVec.ofNat 8 (2 ^ (k % 8))) else none
    | _, _ => none
  let plan := s.vdPlan fr [(ty, l)] [x] (failIf (x0 % 64 != 0) ⟨0x02, 0, x0, 0⟩) (range' 0 32) (allBanks 9)
    (guardAll [gatherTrap (c.regs.enabled mk) true 1 0 ids as_] [landAt 8 [.setBits bits]])
  .next (s.issueLoaded { plan with dev := s.loadDev load } load)

def execVBtest (fr : Frame) (ty : VTy) (l : Line) (x : BufAddr) (off : BitVec 16) (mk : Option (Fin 8)) (s : State) : Result :=
  let c := s.core s.slot.core
  let x0 := c.regs.vdAddr x off
  let ids := c.line ty l
  let as_ := idAddrs ty x0 ids
  let load := bankLoad (s.liveAddrs fr mk as_)
  let out := (place 0 as_).map fun e =>
    if !c.regs.enabled mk e.1 then none
    else some (match at1 ids e.1, e.2 with
      | some k, some a => ((c.bufRead .ab a.toNat 1).headD none).map fun b => b.toNat / 2 ^ (k % 8) % 2
      | some _, none => some 0
      | none, _ => none)
  let plan := s.vdPlan fr [(ty, l)] [x] (failIf (x0 % 64 != 0) ⟨0x02, 0, x0, 0⟩) (range' 0 32) (allBanks 8 ++ portDue 12)
    (guardAll [gatherTrap (c.regs.enabled mk) false 1 0 ids as_] [landAt 12 [lineEffect ty (c.regs.lineAt l) out]])
  .next (s.issueLoaded { plan with dev := s.loadDev load } load)

/-! ### Lane words (R194) -/

/-- A word that takes element `j i` of A for element i of D; a place outside the line is filled with zero bits. -/
def State.laneWord (s : State) (fr : Frame) (ty : VTy) (d a : Line) (mk : Option (Fin 8)) (lat : Nat) (bad : Bool)
    (j : Nat → Int) : Result :=
  let xs := (s.core s.slot.core).line ty a
  let n := lineCount ty a.dir
  .next (s.issue (s.vecPlan fr [(ty, d), (ty, a)] (portDue lat) (s.lineDue ty d lat (s.elems mk n fun i =>
    if bad then none
    else if j i < 0 ∨ (n : Int) ≤ j i then some ⟨0, 0, false⟩
    else (at1 xs (j i).toNat).map fun x => ⟨x, 0, false⟩))))

/-- The shift of a lane word (R194). -/
def laneShift (v : Option W64) (k : BitVec 6) : Int := k.toInt + sint 16 (v.getD 0).toNat

def execVBcast (fr : Frame) (ty : VTy) (d a : Line) (sc : Fin 32) (k : BitVec 6) (mk : Option (Fin 8)) (s : State) : Result :=
  let v := s.regs.getS sc
  s.laneWord fr ty d a mk 2 (bad v) fun _ => laneShift v k % (lineCount ty a.dir : Int)

def execVLshift (fr : Frame) (ty : VTy) (d a : Line) (sc : Fin 32) (k : BitVec 6) (mk : Option (Fin 8)) (s : State) : Result :=
  let v := s.regs.getS sc
  s.laneWord fr ty d a mk 2 (bad v) fun i => (i : Int) - laneShift v k

def execVLrot (fr : Frame) (ty : VTy) (d a : Line) (sc : Fin 32) (k : BitVec 6) (mk : Option (Fin 8)) (s : State) : Result :=
  let v := s.regs.getS sc
  s.laneWord fr ty d a mk 2 (bad v) fun i => ((i : Int) - laneShift v k) % (lineCount ty a.dir : Int)

/-- The source of element i under a pattern. -/
def permSrc (p : Perm) (v : Option W64) (n i : Nat) : Nat :=
  match p with
  | .rev => n - 1 - i
  | .xor _ => i ^^^ ((v.getD 0).toNat % 512 % n)
  | .zip => if i % 2 = 0 then i / 2 else n / 2 + i / 2
  | .unzip => if i < n / 2 then 2 * i else 2 * (i - n / 2) + 1

/-- The scalar operand of a pattern: only `.xor` has one. -/
def Regs.permScalar (r : Regs) : Perm → Option W64
  | .xor n => r.getS n
  | _ => some 0

def execVPerm (fr : Frame) (ty : VTy) (p : Perm) (d a : Line) (mk : Option (Fin 8)) (s : State) : Result :=
  let v := s.regs.permScalar p
  s.laneWord fr ty d a mk 3 (bad v) fun i => (permSrc p v (lineCount ty a.dir) i : Nat)

/-! ### Reductions and scans (R195 to R198, R100) -/

/-- A node of the tree: its value (a pattern of a float type, else an integer), whether it is the X72 NaN, the flags of
the nodes it is made of, and whether a signalling NaN is among its elements. -/
structure RNode where
  v : Int
  nan : Bool
  fl : Flags
  sn : Bool
  deriving DecidableEq, Repr

/-- What a reduction does. -/
inductive RedFn where
  | sum | max | min
  deriving DecidableEq, Repr

/-- An element as a leaf: a subnormal operand of F16 or BF16 is a zero of its sign where the job flushes (R78; assumption 115). -/
def leafOf (ty : VTy) (ftz : Bool) (a : Nat) : RNode :=
  if ty.isFloat then ⟨(fmtOf ty).flushIn (flushes ftz ty) a, false, 0, (fmtOf ty).snan a⟩
  else if ty = .x72 ∧ a = x72Nan then ⟨0, true, 0, false⟩
  else ⟨sint (intBits ty) a, false, 0, false⟩

/-- Two present nodes combined. -/
def combine (f : RedFn) (ty : VTy) (md : RMode) (ftz : Bool) (a b : RNode) : RNode :=
  if ty.isFloat then
    let F := fmtOf ty
    let z := flushes ftz ty
    let r := match f with
      | .sum => F.add md z a.v.toNat b.v.toNat
      | .max => F.maximum z a.v.toNat b.v.toNat
      | .min => F.minimum z a.v.toNat b.v.toNat
    ⟨r.1, false, a.fl ||| b.fl ||| r.2, a.sn || b.sn⟩
  else if a.nan || b.nan then ⟨0, true, 0, false⟩
  else ⟨(match f with | .sum => a.v + b.v | .max => max a.v b.v | .min => min a.v b.v), false, 0, false⟩

/-- A place of the tree: absent, or present and perhaps poisoned. -/
abbrev RPlace := Option (Option RNode)

/-- A node from its two children (R100). -/
def joinPlaces (f : RedFn) (ty : VTy) (md : RMode) (ftz : Bool) (a b : RPlace) : RPlace :=
  match a, b with
  | none, b => b
  | a, none => a
  | some (some x), some (some y) => some (some (combine f ty md ftz x y))
  | _, _ => some none

/-- One level of the tree. -/
def level (j : RPlace → RPlace → RPlace) : List RPlace → List RPlace
  | a :: b :: xs => j a b :: level j xs
  | xs => xs

/-- The levels of the tree above the leaves: g of them, the leaves first. -/
def treeLevels (j : RPlace → RPlace → RPlace) : Nat → List RPlace → List (List RPlace)
  | 0, xs => [xs]
  | g + 1, xs => xs :: treeLevels j g (level j xs)

/-- The root. -/
def treeRoot (j : RPlace → RPlace → RPlace) : Nat → List RPlace → RPlace
  | 0, xs => xs.headD none
  | g + 1, xs => treeRoot j g (level j xs)

/-- The identity of an absent root (R100, R196). -/
def identElem (f : RedFn) (ty : VTy) : Nat :=
  if ty.isFloat then
    (match f with
      | .sum => 0
      | .max => (fmtOf ty).withSign true (fmtOf ty).inf
      | .min => (fmtOf ty).inf)
  else
    let w := intBits ty
    match f with
    | .sum => 0
    | .max => if ty = .x72 then ubits 72 (-x72Max) else 2 ^ (w - 1)
    | .min => if ty = .x72 then ubits 72 x72Max else 2 ^ (w - 1) - 1

/-- A root as an element: integers and X72 saturate once (R196). A signalling NaN that meets no partner is passed on unchanged and
raises no invalid, and counts as an operand of the word (R90, R100; assumption 126). -/
def rootElem (f : RedFn) (ty : VTy) (p : RPlace) : Option Elem :=
  match p with
  | none => some ⟨identElem f ty, 0, false⟩
  | some none => none
  | some (some x) =>
    some (if ty.isFloat then ⟨x.v.toNat, x.fl, x.sn⟩
      else if x.nan then ⟨x72Nan, 0, false⟩
      else if ty = .x72 then x72Elem x.v
      else intElem ty x.v)

/-- The leaves of a line: a disabled element is absent (R195). -/
def State.leaves (s : State) (ty : VTy) (a : Line) (mk : Option (Fin 8)) : List RPlace :=
  (place 0 ((s.core s.slot.core).line ty a)).map fun e =>
    if s.regs.enabled mk e.1 then some (e.2.map (leafOf ty s.ftzV)) else none

/-- The groups of 2^g elements. -/
def groupsOf {α : Type} (g : Nat) (xs : List α) : List (List α) := chunks (2 ^ g) (xs.length / 2 ^ g) xs

/-- A word that writes one element for each group; the other elements stay (R196, R198). -/
def State.groupWord (s : State) (fr : Frame) (ty wty : VTy) (d a : Line) (g : Fin 16) (lat : Nat) (mk : Option (Fin 8))
    (f : List RPlace → Option Elem) : Result :=
  let vs := (groupsOf g.val (s.leaves ty a mk)).map fun x => some (f x)
  .next (s.issue (s.vecPlan fr [(ty, d), (ty, a)] (portDue lat) (s.lineDue wty d lat
    (vs ++ List.replicate (lineCount ty d.dir - vs.length) none))))

def execVRsum (fr : Frame) (ty : VTy) (d a : Line) (g : Fin 16) (mk : Option (Fin 8)) (s : State) : Result :=
  s.groupWord fr ty ty d a g (if ty.isFloat then 12 else 6) mk fun xs =>
    rootElem .sum ty (treeRoot (joinPlaces .sum ty s.rmodeV s.ftzV) g.val xs)
def execVRmax (fr : Frame) (ty : VTy) (d a : Line) (g : Fin 16) (mk : Option (Fin 8)) (s : State) : Result :=
  s.groupWord fr ty ty d a g 6 mk fun xs => rootElem .max ty (treeRoot (joinPlaces .max ty s.rmodeV s.ftzV) g.val xs)
def execVRmin (fr : Frame) (ty : VTy) (d a : Line) (g : Fin 16) (mk : Option (Fin 8)) (s : State) : Result :=
  s.groupWord fr ty ty d a g 6 mk fun xs => rootElem .min ty (treeRoot (joinPlaces .min ty s.rmodeV s.ftzV) g.val xs)

/-- P(p) of R197: the nodes that cover the places 0 to p, from the level l − 1 down; `st` is the first place left. -/
def prefixAt (j : RPlace → RPlace → RPlace) (levels : List (List RPlace)) (n : Nat) : Nat → Nat → RPlace → RPlace
  | 0, _, acc => acc
  | l + 1, st, acc =>
    if n / 2 ^ l % 2 = 1 then prefixAt j levels n l (st + 2 ^ l) (j acc (nth (nth levels l []) (st / 2 ^ l) none))
    else prefixAt j levels n l st acc

/-- The scan of one group. -/
def scanGroup (j : RPlace → RPlace → RPlace) (ty : VTy) (g : Nat) (xs : List RPlace) : List (Option (Option Elem)) :=
  let levels := treeLevels j g xs
  (place 0 xs).map fun e =>
    match e.2 with
    | none => none
    | some _ => some (rootElem .sum ty (prefixAt j levels (e.1 + 1) (g + 1) 0 none))

def execVScan (fr : Frame) (ty : VTy) (d a : Line) (g : Fin 16) (mk : Option (Fin 8)) (s : State) : Result :=
  let lat := if ty.isFloat then 16 else 8
  let vs := (groupsOf g.val (s.leaves ty a mk)).flatMap (scanGroup (joinPlaces .sum ty s.rmodeV s.ftzV) ty g.val)
  .next (s.issue (s.vecPlan fr [(ty, d), (ty, a)] (portDue lat) (s.lineDue ty d lat vs)))

/-- Whether a leaf is a NaN. -/
def RNode.isNan (ty : VTy) (x : RNode) : Bool := if ty.isFloat then ((fmtOf ty).unpack x.v.toNat).isNan else x.nan

/-- Whether x ranks above y (R198: −0 below +0). -/
def ranksAbove (ty : VTy) (ftz : Bool) (x y : RNode) : Bool :=
  if ty.isFloat then
    let F := fmtOf ty
    let a := F.unpack (F.flushIn (flushes ftz ty) x.v.toNat)
    let b := F.unpack (F.flushIn (flushes ftz ty) y.v.toNat)
    if a.isZero && b.isZero then b.sign && !a.sign else decide (0 < cmpVal a b)
  else decide (y.v < x.v)

/-- The index and leaf that ranks first among those present: the best so far, the place. -/
def bestAt (better : RNode → RNode → Bool) : Nat → Option (Nat × RNode) → List RPlace → Option (Nat × RNode)
  | _, acc, [] => acc
  | i, none, some (some x) :: xs => bestAt better (i + 1) (some (i, x)) xs
  | i, some (k, y), some (some x) :: xs => bestAt better (i + 1) (if better x y then some (i, x) else some (k, y)) xs
  | i, acc, _ :: xs => bestAt better (i + 1) acc xs

/-- The lowest place of a NaN. -/
def nanAt (ty : VTy) : Nat → List RPlace → Option Nat
  | _, [] => none
  | i, some (some x) :: xs => if x.isNan ty then some i else nanAt ty (i + 1) xs
  | i, _ :: xs => nanAt ty (i + 1) xs

/-- The type in which an index is written (R198). -/
def idxWrite (ty : VTy) : VTy := if ty.isH16 then .s16 else if isTwo ty then .s64 else .s36

/-- R198 on one group. -/
def argGroup (ty : VTy) (better : RNode → RNode → Bool) (xs : List RPlace) : Option Elem :=
  if xs.any (· == some none) then none
  else
    let sn := xs.any fun x => match x with | some (some y) => y.sn | _ => false
    let k : Int := match nanAt ty 0 xs with
      | some i => i
      | none =>
        match bestAt better 0 none xs with
        | some (i, _) => i
        | none => -1
    some ⟨ubits (intBits (idxWrite ty)) k, if sn then fInvalid else 0, sn⟩

def execVArgmax (fr : Frame) (ty : VTy) (d a : Line) (g : Fin 16) (mk : Option (Fin 8)) (s : State) : Result :=
  s.groupWord fr ty (idxWrite ty) d a g 8 mk (argGroup ty fun x y => ranksAbove ty s.ftzV x y)
def execVArgmin (fr : Frame) (ty : VTy) (d a : Line) (g : Fin 16) (mk : Option (Fin 8)) (s : State) : Result :=
  s.groupWord fr ty (idxWrite ty) d a g 8 mk (argGroup ty fun x y => ranksAbove ty s.ftzV y x)

/-! ### Stop strings (R199) and random fill (R200) -/

/-- Whether the last m bytes of the text up to place e are the first m of pattern k. -/
def patMatch (p w : List Nat) (e k m : Nat) : Bool :=
  (range' 1 m).all fun j =>
    let x := nth w (e + j - m) 0
    decide (x < 256) && x == nth p (32 * k + j) 0

/-- Whether pattern k hits. -/
def patHit (p w : List Nat) (e k : Nat) (part : Bool) : Bool :=
  let len := nth p (32 * k) 0
  if len = 0 ∨ 31 < len then false
  else if part then (range' 1 (min (len - 1) (e + 1))).any fun m => patMatch p w e k m
  else decide (len ≤ e + 1) && patMatch p w e k len

def execVMatch (fr : Frame) (pe : Fin 16) (part : Bool) (pat win : Line) (sc : Fin 32) (mk : Option (Fin 8)) (s : State) :
    Result :=
  let c := s.core s.slot.core
  let v := s.regs.getS sc
  let e := (v.getD 0).toNat % 512
  let ps := c.line .s16 pat
  let ws := c.line .s16 win
  let hit := (range' 0 16).any fun k => s.regs.enabled mk k && patHit (ps.map (·.getD 0)) (ws.map (·.getD 0)) e k part
  let poison := bad v || ps.any (·.isNone) || (ws.take (e + 1)).any (·.isNone)
  .next (s.issue (s.vecPlan fr [(.s16, pat), (.s16, win)] []
    (.ok [landAt 4 [.setP pe ⟨hit && !poison, poison⟩]])))

/-- The words of an element, and the element made of them (R200). -/
def fillElem (ty : VTy) (ws : List (Option Nat)) (i : Nat) : Option Elem :=
  match ty with
  | .f64 =>
    (match nth ws (2 * i) none, nth ws (2 * i + 1) none with
      | some a, some b => some (elemOf ((FFmt.f64.roundInt .rne ((a * 2 ^ 21 + b / 2 ^ 11 : Nat) : Int) (-53) false).1, 0) false)
      | _, _ => none)
  | .f32 => (nth ws i none).map fun a => elemOf ((FFmt.f32.roundInt .rne ((a / 2 ^ 8 : Nat) : Int) (-24) false).1, 0) false
  | _ => (nth ws i none).map fun a => ⟨a, 0, false⟩

def execVRndfill (fr : Frame) (ty : VTy) (d : Line) (q : Fin 32) (mk : Option (Fin 8)) (s : State) : Result :=
  let c := s.core s.slot.core
  let n := lineCount ty d.dir
  let k := if ty = .f64 then 2 * n else n
  let ws := (c.entries q k).map fun e => (leNat? e).map (· % 2 ^ 32)
  let plan := s.vecPlan fr [(ty, d)] (portDue 6 ++ [popDue q k]) (s.lineDue ty d 6 (s.elems mk n (fillElem ty ws)))
  .next (s.issue { plan with
    dec := firstOf [plan.dec, s.regs.ringCheck q fun r => r.buf == 3 && r.esize == 1]
    dev := s.regs.popDev q k })

/-! ### Mask words (R201) -/

/-- A word that writes a mask. -/
def State.maskWord (s : State) (fr : Frame) (d : Fin 8) (v : BitVec 512) : Result :=
  .next (s.issue { pred := fr.pred, on := .ok [landAt 1 [.setVm d v]] })

def execVMand (fr : Frame) (d a b : Fin 8) (s : State) : Result := s.maskWord fr d (s.regs.vm[a] &&& s.regs.vm[b])
def execVMor (fr : Frame) (d a b : Fin 8) (s : State) : Result := s.maskWord fr d (s.regs.vm[a] ||| s.regs.vm[b])
def execVMxor (fr : Frame) (d a b : Fin 8) (s : State) : Result := s.maskWord fr d (s.regs.vm[a] ^^^ s.regs.vm[b])
def execVMnot (fr : Frame) (d a : Fin 8) (s : State) : Result := s.maskWord fr d (~~~s.regs.vm[a])

def execVMset (fr : Frame) (d : Fin 8) (sc : Fin 32) (s : State) : Result :=
  let v := s.regs.getS sc
  .next (s.issue {
    pred := fr.pred,
    on := guardAll [needS v] [landAt 1 [.setVm d (BitVec.ofNat 512 (2 ^ min (v.getD 0).toNat 512 - 1))]] })

def execVMcount (fr : Frame) (pd : Fin 8) (a : Fin 8) (cc : Cc) (sc : Fin 32) (s : State) : Result :=
  let n := popCount 512 (s.regs.vm[a]).toNat
  let r : PReg := match s.regs.getS sc with
    | some v => ⟨intRel cc 64 n v.toNat, false⟩
    | none => ⟨false, true⟩
  .next (s.issue { pred := fr.pred, on := .ok [landAt 2 [.setP (Fin.ofNat 16 pd.val) r]] })

end Sys2Proof.Machine
end

