-- ==== Sys2Proof/Machine/Copy.lean ====
section
/-! DEFINITION. Transfer descriptors (R202, R203), rows and beats (R204 to R206), and the load-copy words (R208 to R215). -/

namespace Sys2Proof.Machine

/-! ### Descriptors -/

/-- A transfer descriptor (R202); `rows` is the row count minus 1. -/
structure Desc where
  aux : Nat
  bstride : Int
  par : Nat
  conv : Nat
  zero : Nat
  peer : Nat
  dstride : Int
  rows : Nat
  rbytes : Nat
  doff : Int
  deriving DecidableEq, Repr

/-- The fields of the 256-bit string. -/
def descOf (n : Nat) : Desc :=
  { aux := fld n 255 192, bstride := sint 32 (fld n 191 160), par := fld n 159 144, conv := fld n 143 140,
    zero := fld n 139 136, peer := fld n 135 128, dstride := sint 32 (fld n 127 96), rows := fld n 95 80,
    rbytes := fld n 79 64, doff := sint 64 (fld n 63 0) }

/-- The descriptor at an index, as the slack window left SDM; none where its granule is poisoned (R203). -/
def Core.desc (c : Core) (d : Fin 2048) : Option Desc := (leNat? (c.sdm0.read true 64 (32 * d.val) 32)).map descOf

/-- A descriptor whose fields do not matter, for a word that traps. -/
def Desc.none : Desc := descOf 0

/-- The fields that a word may use; the others must be zero. -/
inductive DField where
  | aux | bstride | par | conv | peer | dstride | rows | rbytes | doff
  deriving DecidableEq, Repr

/-- The fields that a word does not use are zero, and the bytes of a row are in range (R202). -/
def Desc.fits (d : Desc) (us : List DField) : Bool :=
  let z (f : DField) (v : Bool) : Bool := us.contains f || v
  d.zero == 0 && z .aux (d.aux == 0) && z .bstride (d.bstride == 0) && z .par (d.par == 0) && z .conv (d.conv == 0)
    && z .peer (d.peer == 0) && z .dstride (d.dstride == 0) && z .rows (d.rows == 0) && z .doff (d.doff == 0)
    && (if us.contains .rbytes then d.rbytes != 0 && d.rbytes % 8 == 0 else d.rbytes == 0)

/-- The decode checks of a descriptor (R203): poisoned, or reserved for the word. -/
def descTrap (i : Fin 2048) (d : Option Desc) (ok : Desc → Bool) : Option Trap :=
  match d with
  | some x => failIf (!ok x) ⟨0x01, 0, 0, 0⟩
  | .none => some ⟨0x18, 0, i.val / 2 * 64, 0⟩

/-- A_r (R204). -/
def Desc.va (d : Desc) (v : Option W64) (r : Nat) : Nat := ubits 64 (((v.getD 0).toNat : Int) + d.doff + r * d.dstride)

/-- B_r (R204). -/
def Desc.ba (d : Desc) (ea r : Nat) : Nat := ubits 32 ((ea : Int) + r * d.bstride)

/-! ### Beats -/

/-- A beat of a transfer: its row, its first byte within the row, its bytes, its number. -/
structure RowBeat where
  row : Nat
  lo : Nat
  n : Nat
  j : Nat
  deriving DecidableEq, Repr

/-- The beats of rows of `rb` bytes, `size` bytes each at most, in row order (R205). -/
def beatsOf (rows rb size : Nat) : List RowBeat :=
  let b := cdiv rb size
  (range' 0 (rows * b)).map fun j => ⟨j / b, j % b * size, min size (rb - j % b * size), j⟩

/-- The part of a row's pieces that a beat covers. -/
def cutPieces : List (Home × Nat) → Nat → Nat → List (Home × Nat)
  | [], _, _ => []
  | (h, m) :: ps, lo, n =>
    if n = 0 then []
    else if m ≤ lo then cutPieces ps (lo - m) n
    else (homePlus h lo, min n (m - lo)) :: cutPieces ps 0 (n - min n (m - lo))

/-- Banks of bytes of a buffer (R17): AB granules are resources 0 to 31, WB bank words 32 to 47. -/
def bufBanks (b : Buf) (x n : Nat) : List Nat :=
  match b with
  | .wb => ((range' (x / 72) ((x + n - 1) / 72 + 1 - x / 72)).map fun g => 32 + g % 16).eraseDups
  | _ => ((range' (x / 64) ((x + n - 1) / 64 + 1 - x / 64)).map fun g => g % 32).eraseDups

/-- Bytes of a beat in a buffer (R205). -/
def beatSize : Buf → Nat
  | .wb => 576
  | _ => 512

/-- The alignment and range of buffer rows (R204). -/
def bufAlign (b : Buf) (rb x : Nat) : Option Trap := failIf (x % b.unit != 0 || rb % b.unit != 0) ⟨0x02, 0, x, 0⟩
def bufRange (b : Buf) (rb x : Nat) : Option Trap := failIf (decide (x + rb > b.size)) ⟨0x20, 0, x, 0⟩

/-- Homes in HBM of this module, which `w.acc` and `w.filt` need (R218, R221). -/
def isHbm : Home → Bool
  | .hbm _ => true
  | _ => false

/-- A device interval of several pages: its pieces (R204); `hbm` for words that act on HBM of this module only. -/
def State.devPieces (s : State) (a : Access) (hbm : Bool) (va n : Nat) : Except Trap (List (Home × Nat)) :=
  let c := s.slot.core
  if va ≥ 2 ^ 52 ∨ !((s.core c).inRegion 0 va n a) then .error ⟨0x20, 0, va, 0⟩
  else match s.pieces (s.partOf c) a (n / 65536 + 2) va n with
    | .error t => .error t
    | .ok ps => if hbm && ps.any (fun p => !isHbm p.1) then .error ⟨0x20, 0, va, 0⟩ else .ok ps

/-- Several intervals, in order. -/
def State.devRows (s : State) (a : Access) (hbm : Bool) : List (Nat × Nat) → Except Trap (List (List (Home × Nat)))
  | [] => .ok []
  | (va, n) :: rs =>
    match (if n = 0 then .ok [] else s.devPieces a hbm va n), State.devRows s a hbm rs with
    | .error t, _ => .error t
    | .ok _, .error t => .error t
    | .ok p, .ok ps => .ok (p :: ps)

/-- The homes of the pages of a device interval, as far as translations can be had; the checks of data are not made. -/
def State.homesOf (s : State) : Nat → Nat → Nat → List Home
  | 0, _, _ => []
  | fuel + 1, va, n =>
    if n = 0 ∨ va ≥ 2 ^ 52 then []
    else match s.translate (s.partOf s.slot.core) va with
      | .fail _ _ _ => []
      | .ok e =>
        let k := min n (e.va + e.size - va)
        e.at' va :: State.homesOf s fuel (va + k) (n - k)

/-- The land of a word against the path latencies of its homes (R205, R287): a deviation, which comes before the faults of
its data (R64), for every row whose home can be formed. -/
def State.landTrap (s : State) (isLoad : Bool) (land nb : Nat) (rows : List (Nat × Nat)) : Option Trap :=
  failIf (rows.any fun r => (s.homesOf (r.2 / 65536 + 2) r.1 r.2).any fun h =>
    decide (land < s.pathLatency s.slot.core isLoad nb h)) ⟨0x09, 3, 0, 0⟩

/-- The checks of a word on rows, when it is on (R64, R204, R205): the poison of sS, which leaves no home to judge; the land;
alignments; then for every row its region and page and its buffer range. -/
def State.rowChecks (s : State) (a : Access) (v : Option W64) (aligns ranges : List (Option Trap)) (rows : List (Nat × Nat))
    (isLoad : Bool) (land nb : Nat) : Except Trap (List (List (Home × Nat))) :=
  match firstOf (needS v :: s.landTrap isLoad land nb rows :: aligns) with
  | some t => .error t
  | none =>
    match s.devRows a (match a with | .acc _ => true | _ => false) rows with
    | .error t => .error t
    | .ok ps => guardAll ranges ps

/-- Beats that read or write pieces at their homes are in flight, and count against their stacks (R288, R292): offsets of
source and landing, and pieces. -/
def State.addBeats (s : State) (out : Bool) (slack : Home → Nat) : List (Nat × Nat × List (Home × Nat)) → State
  | [] => s
  | (srcOff, landOff, ps) :: bs =>
    State.addBeats (ps.foldl (fun s p => s.addBeat out p.1 p.2 srcOff (slack p.1) landOff) s) out slack bs

/-- The slack of a read beat: what its land holds beyond the path latency (R288). -/
def State.readSlack (s : State) (land : Nat) (h : Home) : Nat := land - s.pathLatency s.slot.core true 1 h

/-- The lateness of beats on paths without a guarantee (R287). -/
def State.lateBeats (s : State) (bs : List (Nat × List (Home × Nat))) : List Due :=
  bs.flatMap fun b => b.2.flatMap fun p => s.lateDue p.1 b.1 b.1

/-! ### Load-copy words -/

/-- A beat of a load: its number, the banks it takes, the pieces it reads, what lands, and the flags it raises. -/
structure LBeat where
  j : Nat
  banks : List Nat
  homes : List (Home × Nat)
  es : List Effect
  fl : Flags := 0
  deriving DecidableEq, Repr

/-- What lands with the beats of a load. -/
def State.lDues (s : State) (land : Nat) (bs : List LBeat) : List Due :=
  s.lateBeats (bs.map fun b => (land + b.j, b.homes))
    ++ bs.flatMap fun b => (land + b.j, 1, .lBeat b.es) :: flagsAt (land + b.j) b.fl

/-- The beat slots and banks of a load, on or off (R42, R205, R286). -/
def lSlots (land : Nat) (bs : List (Nat × List Nat)) : List Due :=
  bs.map fun b => (land + b.1, 1, .lBeat [.banks .L (52 :: b.2)])

/-- The deviation of two L words that land beats in one tick, on the later-issued (R205). -/
def State.lSlotDev (s : State) (land nb : Nat) : Option (Trap × Bool) :=
  let c := s.core s.slot.core
  if !c.regs.ctl.elastic && c.slotTaken .L 52 (s.slot.tick + land) nb then some (⟨0x07, 52, 0, 0⟩, false) else none

/-- A load-copy word: nb beats with their banks, what its rings do when it is off, its beats or the check that fails, and
what else it reads at its issue tick. -/
def State.loadWord (s : State) (fr : Frame) (tok : Tok) (land nb : Nat) (dec : List (Option Trap)) (dev : List (Option (Trap × Bool)))
    (inc : List Due) (banks : List (Nat × List Nat)) (off : List Due) (on : Except Trap (List LBeat))
    (reads : List (Home × Nat) := []) : Result :=
  let plan : Plan := {
    pred := fr.pred
    dec := firstOf dec
    span := land + nb - 1
    dev := firstOf (s.regs.tokDev (tokPops .L tok) :: s.lSlotDev land nb :: dev)
    toks := tokPops .L tok
    books := inc ++ lSlots land banks
    off := off ++ tokPushes .L tok 1
    on := on.map fun bs => s.lDues land bs ++ tokPushes .L tok (land + nb - 1) }
  .next (match on with
    | .error _ => s.issue plan
    | .ok bs => s.issueThen plan fun t =>
      let t := reads.foldl (fun t p => t.chargeBeat false p.1 p.2 0 (t.readSlack land p.1) land) t
      t.addBeats false (t.readSlack land) (bs.map fun b => (b.j, land + b.j, b.homes)))

/-- The post-increment of a buffer address. -/
def State.incs (s : State) (x : BufAddr) : List Due := s.regs.postInc x

/-- L_NOP (R62): its pushes land after its idle time. -/
def execLNop (_w : Fin 16) (tok : Tok) (idle : Fin 1048576) (s : State) : Result :=
  .next (s.issue {
    dev := s.regs.tokDev (tokPops .L tok)
    toks := tokPops .L tok
    on := .ok (tokPushes .L tok (idle.val + 1)) })

/-- L_TILE (R209). -/
def execLTile (fr : Frame) (tok : Tok) (wb : Bool) (x : BufAddr) (sc : Fin 32) (desc : Fin 2048) (land : Fin 8192) (s : State) :
    Result :=
  let c := s.core s.slot.core
  let de := c.desc desc
  let d := de.getD Desc.none
  let v := c.regs.getS sc
  let b : Buf := if wb then .wb else .ab
  let ea := c.regs.ea x
  let rs := range' 0 (d.rows + 1)
  let bs := beatsOf (d.rows + 1) d.rbytes (beatSize b)
  let ps := s.rowChecks .load v (rs.flatMap fun r => [failIf (d.va v r % 8 != 0) ⟨0x02, 0, d.va v r, 0⟩, bufAlign b d.rbytes (d.ba ea r)])
    (rs.map fun r => bufRange b d.rbytes (d.ba ea r)) (rs.map fun r => (d.va v r, d.rbytes)) true land.val bs.length
  s.loadWord fr tok land.val bs.length [descTrap desc de fun d => d.fits [.bstride, .dstride, .rows, .rbytes, .doff]] []
    (s.incs x) (bs.map fun k => (k.j, bufBanks b (d.ba ea k.row + k.lo) k.n)) []
    (ps.map fun ps => bs.map fun k =>
      let hs := cutPieces (nth ps k.row []) k.lo k.n
      { j := k.j, banks := [], homes := hs, es := [.store b (place (d.ba ea k.row + k.lo) (s.homeReads hs))] })

/-- A B9 block of 256 S8 bytes (R210). -/
def s8Block (bs : List (Option Byte)) : List (Option Byte) :=
  if bs.any (·.isNone) then List.replicate 320 none
  else (blockBytes (bs.map fun b => ubits 9 (sint 8 (b.getD 0).toNat)) 134 0).map some

/-- L_RING (R210): one entry per row, which lands with its last beat. -/
def execLRing (fr : Frame) (tok : Tok) (q : Fin 32) (sc : Fin 32) (desc : Fin 2048) (land : Fin 8192) (s : State) : Result :=
  let c := s.core s.slot.core
  let de := c.desc desc
  let d := de.getD Desc.none
  let v := c.regs.getS sc
  let g := c.regs.ring q
  let b : Buf := (g.buffer).getD .ab
  let conv := d.conv == 1
  let size := beatSize b
  let bs := beatsOf (d.rows + 1) d.rbytes size
  let k := cdiv d.rbytes size
  let rs := range' 0 (d.rows + 1)
  let last (e : RowBeat) : Bool := e.lo + e.n == d.rbytes
  let ps := s.rowChecks .load v (rs.map fun r => failIf (d.va v r % 8 != 0) ⟨0x02, 0, d.va v r, 0⟩) []
    (rs.map fun r => (d.va v r, d.rbytes)) true land.val bs.length
  s.loadWord fr tok land.val bs.length
    [descTrap desc de fun d => d.fits [.conv, .dstride, .rows, .rbytes, .doff] && decide (d.conv ≤ 1) && (d.conv == 0 || d.rbytes == 256),
      c.regs.ringCheck q fun g => if conv then g.buf == 1 && g.esize == 40 else (g.buf == 1 || g.buf == 2) && g.ebytes == d.rbytes]
    [] [] (bs.map fun e => (e.j, bufBanks b (c.pushAddr q (s.slot.tick + land.val + e.j) e.row + e.lo) (if conv then 320 else e.n)))
    (bs.flatMap fun e => if last e then [(land.val + e.j, 1, Act.lBeat [.push q none 0])] else [])
    (match ps, c.tagCheck q 0 (s.slot.tick + land.val + k - 1) with
      | .error t, _ => .error t
      | .ok _, some t => .error t
      | .ok ps, none => .ok (bs.map fun e =>
        let row := nth ps e.row []
        { j := e.j, banks := [], homes := cutPieces row e.lo e.n,
          es := if last e then
              [.push q (some (if conv then s8Block (s.homeReads row) else s.homeReads row)) 0]
            else [] }))

/-- L_ROW (R215): each row lands whole through the row port with its last beat. -/
def execLRow (fr : Frame) (tok : Tok) (ty : VTy) (tile : Fin 7) (x : BufAddr) (sc : Fin 32) (desc : Fin 2048) (land : Fin 8192)
    (s : State) : Result :=
  let c := s.core s.slot.core
  let de := c.desc desc
  let d := de.getD Desc.none
  let v := c.regs.getS sc
  let n := lineBytes ty .r
  let start := c.regs.ea x % 256
  let bs := beatsOf (d.rows + 1) n 1024
  let rs := range' 0 (d.rows + 1)
  let last (e : RowBeat) : Bool := e.lo + e.n == n
  let ps := s.rowChecks .load v (rs.map fun r => failIf (d.va v r % 8 != 0) ⟨0x02, 0, d.va v r, 0⟩) []
    (rs.map fun r => (d.va v r, n)) true land.val bs.length
  s.loadWord fr tok land.val bs.length
    [descTrap desc de fun d => d.fits [.dstride, .rows, .rbytes, .doff] && d.rbytes == n,
      c.regs.lineTile ⟨tile, .r, .imm 0⟩]
    [] (s.incs x) (bs.map fun e => (e.j, if last e then [48] else [])) []
    (ps.map fun ps => bs.map fun e =>
      let row := nth ps e.row []
      { j := e.j, banks := [], homes := cutPieces row e.lo e.n,
        es := if last e then [loadEffect ty ⟨tile.val, .r, (start + e.row) % 256⟩ (s.homeReads row) (BitVec.allOnes 512)]
          else [] })

/-! ### L_HALO (R211) -/

/-- A number brought into 0 to n − 1. -/
def clampTo (n : Nat) (x : Int) : Nat := (max 0 (min ((n : Int) - 1) x)).toNat

/-- The image row and the columns that a run of columns of a tile row reads, if any: y, first x, last x. -/
def haloSpan (pad : Pad) (h w : Nat) (y x n : Int) : Option (Nat × Nat × Nat) :=
  match pad with
  | .edge => some (clampTo h y, clampTo w x, clampTo w (x + n - 1))
  | _ =>
    if 0 ≤ y ∧ y < h ∧ max 0 x ≤ min ((w : Int) - 1) (x + n - 1) then
      some (y.toNat, (max 0 x).toNat, (min ((w : Int) - 1) (x + n - 1)).toNat)
    else none

/-- The bytes of one tile element: from the row read, or padding (R211). Padding by an edge element that is poisoned hands its poison
on (assumption 130). -/
def haloElem (pad : Pad) (z w par : Nat) (lo : Nat) (row : List (Option Byte)) (inRow : Bool) (x : Int) : List (Option Byte) :=
  match pad with
  | .edge => slice row ((clampTo w x - lo) * z) z
  | _ =>
    if inRow ∧ 0 ≤ x ∧ x < w then slice row ((x.toNat - lo) * z) z
    else (leBytes z (if pad = .const then par else 0)).map some

/-- The device interval of a span. -/
def Desc.haloRow (d : Desc) (z : Nat) (sp : Option (Nat × Nat × Nat)) : Nat × Nat :=
  match sp with
  | some (y, a, b) => (ubits 64 (d.doff + y * d.dstride + (a * z : Nat)), (b + 1 - a) * z)
  | none => (0, 0)

/-- L_HALO (R211). -/
def execLHalo (fr : Frame) (tok : Tok) (pad : Pad) (x : BufAddr) (sc : Fin 32) (desc : Fin 2048) (land : Fin 8192) (s : State) :
    Result :=
  let c := s.core s.slot.core
  let de := c.desc desc
  let d := de.getD Desc.none
  let v := c.regs.getS sc
  let oy := sint 32 ((v.getD 0).toNat / 2 ^ 32)
  let ox := sint 32 (v.getD 0).toNat
  let z := 2 ^ d.conv
  let h := d.aux / 2 ^ 32
  let w := d.aux % 2 ^ 32
  let ea := c.regs.ea x
  let rs := range' 0 (d.rows + 1)
  let cols := d.rbytes / z
  let bs := beatsOf (d.rows + 1) d.rbytes 512
  let span (r : Nat) := haloSpan pad h w (oy + r) ox cols
  let rows := rs.map fun r => d.haloRow z (span r)
  let ps := s.rowChecks .load v
    (failIf (d.doff % (z : Int) != 0) ⟨0x02, 0, ubits 64 d.doff, 0⟩ :: rs.map fun r => bufAlign .ab d.rbytes (d.ba ea r))
    (rs.map fun r => bufRange .ab d.rbytes (d.ba ea r)) rows true land.val bs.length
  s.loadWord fr tok land.val bs.length
    [descTrap desc de fun d => d.fits ([.aux, .bstride, .conv, .dstride, .rows, .rbytes, .doff] ++ if pad = .const then [.par] else [])
      && decide (d.conv ≤ 3) && d.dstride % (2 ^ d.conv : Nat) == 0 && decide (1 ≤ d.aux / 2 ^ 32 ∧ 1 ≤ d.aux % 2 ^ 32)]
    [] (s.incs x) (bs.map fun e => (e.j, bufBanks .ab (d.ba ea e.row + e.lo) e.n)) []
    (ps.map fun ps => bs.map fun (e : RowBeat) =>
      let pieces := nth ps e.row []
      let row := s.homeReads pieces
      let lo := match span e.row with | some (_, a, _) => a | none => 0
      let data := (range' (e.lo / z) (e.n / z)).flatMap fun (k : Nat) => haloElem pad z w d.par lo row (span e.row).isSome (ox + k)
      let part := match haloSpan pad h w (oy + e.row) (ox + (e.lo / z : Nat)) (e.n / z : Nat) with
        | some (_, a, b) => cutPieces pieces ((a - lo) * z) ((b + 1 - a) * z)
        | none => []
      { j := e.j, banks := [], homes := part, es := [.store .ab (place (d.ba ea e.row + e.lo) data)] })

/-! ### L_NARROW (R212) -/

/-- The source of `l.narrow`: a float type or an MX format. -/
inductive NSrc where
  | ty (t : VTy)
  | mx (f : NFmt)
  deriving DecidableEq, Repr

/-- par<3:0>. -/
def nsrcOf (n : Nat) : Option NSrc :=
  match n with
  | 1 => some (.ty .f32) | 3 => some (.ty .f64) | 5 => some (.ty .bf16) | 6 => some (.ty .f16)
  | 8 => some (.mx .e4m3) | 9 => some (.mx .e5m2) | 10 => some (.mx .e2m1)
  | _ => none

/-- par<6:4>: the rounding; stochastic is reserved, for 7 with `ctl.round` 5 too. -/
def nrndOf (n ctl : Nat) : Option RMode :=
  match n with
  | 0 => some .rne | 1 => some .rtz | 2 => some .rup | 3 => some .rdn | 4 => some .rmm
  | 7 => if ctl = 5 then none else some (modeOfCtl ctl)
  | _ => none

/-- conv as a narrow format (R53), and a rotation block code. -/
def nfmtOf (n : Nat) : Option NFmt :=
  match n with
  | 0 => some .s9 | 1 => some .s5 | 2 => some .e4m3 | 3 => some .e5m2 | 4 => some .e2m1
  | _ => none
def blkOf (n : Nat) : Option Blk :=
  match n with
  | 0 => some .b16 | 1 => some .b64 | 2 => some .b256
  | _ => none

/-- Elements of a row of `rb` bytes. -/
def NSrc.count (k : NSrc) (rb : Nat) : Nat :=
  match k with
  | .ty t => rb / abSize t
  | .mx .e2m1 => 2 * rb
  | .mx _ => rb

/-- Bytes of the row that n elements take. -/
def NSrc.bytes (k : NSrc) (n : Nat) : Nat :=
  match k with
  | .ty t => n * abSize t
  | .mx .e2m1 => n / 2
  | .mx _ => n

/-- Whether a descriptor is one of `l.narrow` (R212). -/
def Desc.narrowOk (d : Desc) (ctl : Nat) : Bool :=
  match nsrcOf (d.par % 16), nrndOf (fld d.par 6 4) ctl, nfmtOf d.conv, blkOf (fld d.par 8 7) with
  | some k, some _, some f, some _ =>
    let n := k.count d.rbytes
    d.fits ([.par, .conv, .dstride, .rows, .rbytes, .doff] ++ (match k with | .mx _ => [.aux] | _ => [])) && decide (d.par < 1024)
      && (match f with | .s5 => n == 512 | _ => n == 256 || n == 512)
  | _, _, _, _ => false

/-- An element of a row: none where a byte of it, or its scale, is poisoned. -/
def NSrc.elem (k : NSrc) (ftz : Bool) (row scales : List (Option Byte)) (i : Nat) : Option FVal :=
  match k with
  | .ty t => (leNat? (slice row (i * abSize t) (abSize t))).map fun b => (fmtOf t).unpack ((fmtOf t).flushIn (flushes ftz t) b)
  | .mx f =>
    let code := match f with
      | .e2m1 => (nth row (i / 2) none).map fun b => if i % 2 = 0 then b.toNat % 16 else b.toNat / 16
      | _ => (nth row i none).map (·.toNat)
    match code, nth scales (i / 32) none with
    | some x, some e => some (miniVal f x e.toNat)
    | _, _ => none

/-- L_NARROW (R212). -/
def execLNarrow (fr : Frame) (tok : Tok) (k : Fin 8) (q : Fin 32) (sc : Fin 32) (desc : Fin 2048) (land : Fin 8192) (s : State) :
    Result :=
  let c := s.core s.slot.core
  let de := c.desc desc
  let d := de.getD Desc.none
  let v := c.regs.getS sc
  let ctl := c.regs.ctl.round.toNat
  let src := (nsrcOf (d.par % 16)).getD (.ty .f32)
  let md := (nrndOf (fld d.par 6 4) ctl).getD .rne
  let fmt := (nfmtOf d.conv).getD .s9
  let blk := (blkOf (fld d.par 8 7)).getD .b16
  let n := src.count d.rbytes
  let en := entryElems fmt
  let per := n / en
  let nb := (d.rows + 1) * per
  let key := c.regs.k[k]
  let tag := tagOf (d.par / 512 % 2 == 1) blk k key.gen
  let aux := sint 64 d.aux
  let isMx := match src with | .mx _ => true | _ => false
  let rs := range' 0 (d.rows + 1)
  let ps := s.rowChecks .load v (rs.map fun r => failIf (d.va v r % 8 != 0) ⟨0x02, 0, d.va v r, 0⟩) []
    (rs.flatMap fun r => [(d.va v r, d.rbytes), (ubits 64 ((d.va v r : Nat) + aux), if isMx then n / 32 else 0)]) true land.val nb
  s.loadWord fr tok land.val nb
    [descTrap desc de fun d => d.narrowOk ctl, c.regs.ringCheck q fun g => g.buf == 1 && g.esize == 40]
    [] [] ((range' 0 nb).map fun j => (j, bufBanks .ab (c.pushAddr q (s.slot.tick + land.val + j) j) 320))
    ((range' 0 nb).map fun j => (land.val + j, 1, Act.lBeat [.push q none tag]))
    (match ps, c.tagCheck q tag (s.slot.tick + land.val) with
      | .error t, _ => .error t
      | .ok _, some t => .error t
      | .ok ps, none => .ok (rs.flatMap fun r =>
        let row := nth ps (2 * r) []
        let scl := nth ps (2 * r + 1) []
        let bytes := s.homeReads row
        let scales := s.homeReads scl
        let es := cleanSrc en ((range' 0 n).map (src.elem s.ftzV bytes scales))
        let out := narrowLine fmt (blkN blk) key.seed (fun _ => md) (fun _ => true) (es.map Prod.fst).flatten
        (place 0 (List.zip out es)).map fun x =>
          let j := r * per + x.1
          let entry := if x.2.2.2 then List.replicate x.2.1.1.length none else x.2.1.1.map some
          { j := j, banks := [],
            homes := cutPieces row (src.bytes (x.1 * en)) (src.bytes en) ++ cutPieces scl (x.1 * en / 32) (if isMx then en / 32 else 0),
            es := [.push q (some entry) tag], fl := x.2.1.2 }))

/-! ### L_CSR (R213) -/

/-- The fields of 0x28: z and q of the job (R340). -/
def State.zq (s : State) : Nat :=
  match (s.part (s.partOf s.slot.core)).job with
  | some j => j.z % 2 ^ 32 + 2 ^ 32 * (j.q % 4)
  | none => 0

/-- Where the blocks of a segment and their row offsets lie (R213). -/
def Desc.csrRows (d : Desc) (a : Int) (es : List Nat) : List (Nat × Nat) × List (Nat × Nat) :=
  (es.map fun e => (ubits 64 (a + (d.aux / 2 ^ 32 * 64 : Nat) + (320 * e : Nat)), 320),
    es.map fun e => (ubits 64 (a + sint 32 d.aux + (e : Nat)), 1))

/-- The segment of `l.csr`: pieces of its pointers, and of each block and offset of entries 0 to c − 1, or the check that
fails: the land first (R64). -/
def State.csrSegment (s : State) (d : Desc) (v : Option W64) (j n land : Nat) :
    Except Trap (List (Home × Nat) × List (List (Home × Nat) × List (Home × Nat))) :=
  let a : Int := d.va v 0
  let pa := ubits 64 (a + 4 * j)
  match firstOf [s.landTrap true land n [(pa, 8)], failIf (d.va v 0 % 8 != 0) ⟨0x02, 0, d.va v 0, 0⟩] with
  | some t => .error t
  | none =>
    match s.devPieces .load false pa 8 with
    | .error t => .error t
    | .ok pp =>
      let bs := s.homeReads pp
      match leNat? (bs.take 4), leNat? (bs.drop 4) with
      | some p0, some p1 =>
        if p1 < p0 then .error ⟨0x20, 0, pa, 0⟩
        else
          let (rb, ro) := d.csrRows a (range' p0 (p1 - p0))
          match s.landTrap true land n (rb ++ ro) with
          | some t => .error t
          | none =>
            match s.devRows .load false rb, s.devRows .load false ro with
            | .error t, _ => .error t
            | _, .error t => .error t
            | .ok b, .ok o => guardAll [failIf (decide (n < p1 - p0)) ⟨0x28, s.zq, 0, 0⟩] (pp, List.zip b o)
      | _, _ => .error ⟨0x18, 0, pa / 64 * 64, 0⟩

/-- L_CSR (R213). -/
def execLCsr (fr : Frame) (tok : Tok) (q : Fin 32) (x : BufAddr) (sc : Fin 32) (desc : Fin 2048) (land : Fin 8192) (s : State) :
    Result :=
  let c := s.core s.slot.core
  let de := c.desc desc
  let d := de.getD Desc.none
  let v := c.regs.getS sc
  let q1 : Fin 32 := Fin.ofNat 32 (q.val + 1)
  let n := d.rows + 1
  let seg : Except Trap (List (Home × Nat) × List (List (Home × Nat) × List (Home × Nat))) := match needS v with
    | some t => Except.error t
    | none => s.csrSegment d v (c.regs.ea x) n land.val
  let tags := firstOf [c.tagCheck q 0 (s.slot.tick + land.val), c.tagCheck q1 0 (s.slot.tick + land.val)]
  s.loadWord fr tok land.val n
    [descTrap desc de fun d => d.fits [.aux, .rows, .doff], c.regs.ringCheck q fun g => g.buf == 1 && g.esize == 40,
      c.regs.ringCheck q1 fun g => g.buf == 1 && g.esize == 1]
    [] (s.incs x)
    ((range' 0 n).map fun e =>
      let u := s.slot.tick + land.val + e
      (e, (bufBanks .ab (c.pushAddr q u e) 320 ++ bufBanks .ab (c.pushAddr q1 u e) 8).eraseDups))
    ((range' 0 n).map fun e => (land.val + e, 1, Act.lBeat [.push q none 0, .push q1 none 0]))
    (match seg, tags with
      | .error t, _ => .error t
      | .ok _, some t => .error t
      | .ok ps, none => .ok ((range' 0 n).map fun e =>
        match ps.2[e]? with
        | some (b, o) =>
          { j := e, banks := [], homes := b ++ o,
            es := [.push q (some (s.homeReads b)) 0, .push q1 (some (s.homeReads o ++ List.replicate 7 (some 0))) 0] }
        | none =>
          { j := e, banks := [], homes := [],
            es := [.push q (some (List.replicate 320 (some 0))) 0, .push q1 (some (List.replicate 8 (some 0))) 0] }))
    (match seg with
      | .ok ps => ps.1
      | .error _ => [])

/-! ### L_GATHER (R214) -/

/-- What `l.gather` needs of its descriptor and operands. -/
structure Gather where
  list : Nat
  rows : Nat
  limit : Nat
  a0 : Nat
  dstride : Int
  rbytes : Nat
  b0 : Nat
  bstride : Int
  land : Nat
  deriving DecidableEq, Repr

/-- The source of row i: none for a negative index. -/
def Gather.source (g : Gather) (x : Int) : Nat × Nat :=
  if x < 0 then (0, 0) else (ubits 64 ((g.a0 : Int) + x * g.dstride), g.rbytes)

/-- The beats of the rows whose indices lie in group k of the list, read from memory `m`; or the check that fails. -/
def State.gatherGroup (s : State) (g : Gather) (m : State) (k : Nat) : Except Trap (List LBeat) :=
  let c := s.core s.slot.core
  let i0 := 128 * k
  let n := min 128 (g.rows - i0)
  let ids := (range' i0 n).map fun i => (leNat? (c.bufRead .ab (g.list + 4 * i) 4)).map (sint 32)
  match s.landTrap true g.land (g.rows * cdiv g.rbytes 512) (ids.filterMap fun x => x.map g.source), ids.findIdx? (·.isNone) with
  | some t, _ => .error t
  | none, some i => .error ⟨0x18, 0, (g.list + 4 * (i0 + i)) / 64 * 64, 0⟩
  | none, none =>
    let xs := ids.map (·.getD 0)
    let rows := xs.map g.source
    match firstOf (List.zipWith (fun x r => firstOf [failIf (decide ((g.limit : Int) ≤ x)) ⟨0x20, 0, r.1, 0⟩,
        failIf (decide (0 ≤ x) && r.1 % 8 != 0) ⟨0x02, 0, r.1, 0⟩]) xs rows) with
    | some t => .error t
    | none =>
      match s.devRows .load false rows with
      | .error t => .error t
      | .ok ps =>
        .ok ((beatsOf n g.rbytes 512).map fun e =>
          let i := i0 + e.row
          let hs := cutPieces (nth ps e.row []) e.lo e.n
          let data := if nth xs e.row 0 < 0 then List.replicate e.n (some 0) else m.homeReads hs
          { j := i0 * cdiv g.rbytes 512 + e.j, banks := [], homes := hs,
            es := [.store .ab (place (ubits 32 ((g.b0 : Int) + i * g.bstride) + e.lo) data)] })

/-- The writes of a word that its precise trap takes back: a post-increment, where the register has not been written since, and
token pops. -/
def Core.takeBack (c : Core) (es : List Effect) : Core :=
  es.foldl (fun (c : Core) e =>
    match e with
    | .incA n off =>
      let a := c.regs.a[n]
      if a.off = ({ a with off := off } : AReg).bump then c.land 0 e else c
    | _ => c.land 0 e) c

/-- A later group of the list is read: its rows' beats become due, or the word traps, precisely (R214). -/
def State.readIndex (s : State) (x : Pend) (g : Gather) (m : State) (k : Nat) (undo : List Effect) : State :=
  let c := s.slot.core
  match s.gatherGroup g m k with
  | .error t => (s.setCore c ((s.core c).takeBack undo)).stopWord c x.src t 0
  | .ok bs =>
    let s := s.setCore c ((s.core c).dueAll x.src x.src.tick (s.lDues g.land bs))
    s.addBeats false (s.readSlack g.land) (bs.map fun b => (b.j, g.land + b.j, b.homes))

/-- What takes back the writes of an `l.gather`: of its address register and its tokens. -/
def Regs.gatherUndo (r : Regs) (tok : Tok) (x : BufAddr) : List Effect :=
  (if x.post then [.incA x.a (r.a[x.a]).off] else []) ++ (tokPops .L tok).map fun f => .tokens f.1 f.2

/-- The reads of the groups of the list after the first, one a tick, with memory as it stands now. -/
def State.laterGroups (s : State) (g : Gather) (groups : Nat) (undo : List Effect) : List Due :=
  (range' 1 (groups - 1)).map fun k =>
    (k, 3, .read (.index k g.list g.rows g.limit g.a0 g.dstride g.rbytes g.b0 g.bstride g.land s.hbm s.host s.peer s.now undo))

def execLGather (fr : Frame) (tok : Tok) (x : BufAddr) (sc : Fin 32) (desc : Fin 2048) (land : Fin 8192) (s : State) : Result :=
  let c := s.core s.slot.core
  let de := c.desc desc
  let d := de.getD Desc.none
  let v := c.regs.getS sc
  let ea := c.regs.ea x
  let n := d.rows + 1
  let rs := range' 0 n
  let g : Gather := ⟨d.aux % 2 ^ 32, n, d.aux / 2 ^ 32, d.va v 0, d.dstride, d.rbytes, ea, d.bstride, land.val⟩
  let grans := cdiv n 16
  let groups := cdiv grans 8
  let banks (k : Nat) := (range' (8 * k) (min 8 (grans - 8 * k))).map fun i => (g.list / 64 + i) % 32
  let nb := n * cdiv d.rbytes 512
  let plan : Plan := {
    pred := fr.pred
    dec := firstOf [descTrap desc de fun d => d.fits [.aux, .bstride, .dstride, .rows, .rbytes, .doff] && decide (d.rows < 1024)
      && d.aux % 64 == 0]
    span := land.val + nb - 1
    dev := firstOf [s.regs.tokDev (tokPops .L tok), s.lSlotDev land.val nb,
      if land.val ≤ groups then some (⟨0x09, 3, 0, 0⟩, false) else none]
    banks := banks 0
    toks := tokPops .L tok
    books := s.incs x ++ ((range' 1 (groups - 1)).flatMap fun k => banksAt k .L (banks k))
      ++ lSlots land.val ((beatsOf n d.rbytes 512).map fun e => (e.j, bufBanks .ab (d.ba ea e.row + e.lo) e.n))
    off := tokPushes .L tok 1 }
  let ok := firstOf ((rs.map fun r => bufAlign .ab d.rbytes (d.ba ea r))
    ++ (rs.map fun r => bufRange .ab d.rbytes (d.ba ea r)) ++ [bufRange .ab (4 * n) g.list])
  let on : Except Trap (List LBeat) := match needS v, s.gatherGroup g s 0, ok with
    | some t, _, _ => Except.error t
    | none, .error t, some u => Except.error (if t.code = 0x09 then t else u)
    | none, .error t, none => Except.error t
    | none, .ok _, some u => Except.error u
    | none, .ok bs, none => Except.ok bs
  .next (match on with
    | .error t => s.issue { plan with on := .error t }
    | .ok bs =>
      let later := s.laterGroups g groups (c.regs.gatherUndo tok x)
      s.issueThen { plan with on := .ok (s.lDues land.val bs ++ later ++ tokPushes .L tok (land.val + nb - 1)) } fun t =>
        t.addBeats false (t.readSlack land.val) (bs.map fun b => (b.j, land.val + b.j, b.homes)))

/-- L_BEAT_LAND. -/
def execLBeatLand (s : State) : Result :=
  match s.takeItem with
  | some (p, t) => (match p.act with
    | .lBeat es => .next (t.landEffects t.slot.core p.src p es)
    | _ => .next s)
  | none => .next s

end Sys2Proof.Machine
end

