-- ==== Sys2Proof/Machine/Store.lean ====
section
/-! DEFINITION. The timetabled store-copy words (R216 to R218, R221): their reads, their writes at the homes, and the
filter record. The atomics and signals are in Outbound. -/

namespace Sys2Proof.Machine

/-! ### Shared form -/

/-- A store-copy word: its offsets of beat reads with the banks each takes, its land and landing offsets, the offset of its last
write, and what it leaves with the beats at their homes (landing offset and pieces), or the check that fails; `source` is
the offset at which a beat of a number is read. -/
structure StoreForm where
  fr : Frame
  tok : Tok
  dec : List (Option Trap)
  dev : List (Option (Trap × Bool)) := []
  reads : List (Nat × List Nat)
  land : Nat
  lands : List Nat
  source : Nat → Nat := id
  last : Nat
  books : List Due
  off : List Due := []
  on : Except Trap (List Due × List (Nat × List (Home × Nat)))

/-- A beat slot of a store that an earlier word has (R205): the later-issued word deviates. -/
def State.wSlotDev (s : State) (res : Nat) (os : List Nat) : Option (Trap × Bool) :=
  let c := s.core s.slot.core
  if !c.regs.ctl.elastic && os.any fun o => c.slotTaken .W res (s.slot.tick + o) 1 then some (⟨0x07, 53, 0, 0⟩, false) else none

/-- The banks of the first beat, taken at issue. -/
def firstBanks : List (Nat × List Nat) → List Nat
  | [] => []
  | b :: _ => 53 :: b.2

/-- The beat slots: 53 is the read, 309 the landing. -/
def wSlots (reads : List (Nat × List Nat)) (lands : List Nat) : List Due :=
  reads.tail.flatMap (fun b => banksAt b.1 .W (53 :: b.2)) ++ lands.flatMap (fun o => banksAt o .W [309])

def State.storeWord (s : State) (w : StoreForm) : Result :=
  let plan : Plan := {
    pred := w.fr.pred
    dec := firstOf w.dec
    span := w.last
    dev := firstOf (s.regs.tokDev (tokPops .W w.tok) :: s.wSlotDev 53 (w.reads.map Prod.fst) :: s.wSlotDev 309 w.lands :: w.dev)
    banks := firstBanks w.reads
    toks := tokPops .W w.tok
    books := w.books ++ wSlots w.reads w.lands
    off := w.off ++ tokPushes .W w.tok 1
    on := w.on.map fun x => s.lateBeats x.2 ++ x.1 ++ tokPushes .W w.tok w.last }
  .next (match w.on with
    | .error _ => s.issue plan
    | .ok x => s.issueThen plan fun t => t.addBeats true (fun _ => 0) (x.2.map fun b => (w.source (b.1 - w.land), b.1, b.2)))

/-- W_NOP (R62). -/
def execWNop (_w : Fin 16) (tok : Tok) (idle : Fin 1048576) (s : State) : Result :=
  .next (s.issue {
    dev := s.regs.tokDev (tokPops .W tok)
    toks := tokPops .W tok
    on := .ok (tokPushes .W tok (idle.val + 1)) })

/-! ### W_TILE, W_ACC, W_ROW -/

/-- Rows of AB to their homes (R217, R218). -/
def State.abStore (s : State) (fr : Frame) (tok : Tok) (a : Access) (op : HomeOp) (x : BufAddr) (sc : Fin 32)
    (desc : Fin 2048) (land : Fin 8192) : Result :=
  let c := s.core s.slot.core
  let de := c.desc desc
  let d := de.getD Desc.none
  let v := c.regs.getS sc
  let ea := c.regs.ea x
  let rs := range' 0 (d.rows + 1)
  let bs := beatsOf (d.rows + 1) d.rbytes 512
  let nb := bs.length
  let ps := s.rowChecks a v
    (rs.flatMap fun r => [failIf (d.va v r % 8 != 0) ⟨0x02, 0, d.va v r, 0⟩, bufAlign .ab d.rbytes (d.ba ea r)])
    (rs.map fun r => bufRange .ab d.rbytes (d.ba ea r)) (rs.map fun r => (d.va v r, d.rbytes)) false land.val nb
  s.storeWord {
    fr := fr, tok := tok
    dec := [descTrap desc de fun d => d.fits [.bstride, .dstride, .rows, .rbytes, .doff]]
    reads := bs.map fun k => (k.j, bufBanks .ab (d.ba ea k.row + k.lo) k.n)
    land := land.val
    lands := bs.map fun k => land.val + k.j
    last := land.val + nb - 1
    books := s.incs x
    on := ps.map fun ps =>
      let cut (k : RowBeat) := cutPieces (nth ps k.row []) k.lo k.n
      (bs.map fun k => (k.j, 3, .read (.ab (d.ba ea k.row + k.lo) k.n (cut k) (s.slot.tick + land.val + k.j) op)),
        bs.map fun k => (land.val + k.j, cut k)) }

/-- Rows of a ring in AB to their homes: an entry is popped when its first beat is read (R217). -/
def State.ringStore (s : State) (fr : Frame) (tok : Tok) (q : Fin 32) (sc : Fin 32) (desc : Fin 2048) (land : Fin 8192) : Result :=
  let c := s.core s.slot.core
  let de := c.desc desc
  let d := de.getD Desc.none
  let v := c.regs.getS sc
  let rs := range' 0 (d.rows + 1)
  let bs := beatsOf (d.rows + 1) d.rbytes 512
  let k := cdiv d.rbytes 512
  let nb := bs.length
  let ps := s.rowChecks .store v (rs.map fun r => failIf (d.va v r % 8 != 0) ⟨0x02, 0, d.va v r, 0⟩) []
    (rs.map fun r => (d.va v r, d.rbytes)) false land.val nb
  let job (hs : Nat → List (Home × Nat)) : List Due :=
    rs.map fun r => (r * k, 3, .read (.ring q d.rbytes (hs r) (s.slot.tick + land.val + r * k)))
  s.storeWord {
    fr := fr, tok := tok
    dec := [descTrap desc de fun d => d.fits [.dstride, .rows, .rbytes, .doff],
      c.regs.ringCheck q fun g => g.buf == 1 && g.ebytes == d.rbytes]
    dev := [c.regs.popDev q 1]
    reads := bs.map fun e => (e.j, [])
    land := land.val
    lands := bs.map fun e => land.val + e.j
    last := land.val + nb - 1
    books := []
    off := job fun _ => []
    on := ps.map fun ps => (job fun r => nth ps r [], bs.map fun e => (land.val + e.j, cutPieces (nth ps e.row []) e.lo e.n)) }

/-- W_TILE (R217). -/
def execWTile (fr : Frame) (tok : Tok) (src : CopySrc) (sc : Fin 32) (desc : Fin 2048) (land : Fin 8192) (s : State) : Result :=
  match src with
  | .ab x => s.abStore fr tok .store .write x sc desc land
  | .ring q => s.ringStore fr tok q sc desc land

/-- The code k of an accumulate operation (R218). -/
def accNo : AccOp → Nat
  | .addS32 => 0 | .addS64 => 1 | .addF32 => 2 | .addF64 => 3 | .maxF32 => 4 | .minF32 => 5 | .maxS32 => 6 | .minS32 => 7

/-- W_ACC (R218): the rounding mode is that of the issue tick (R207). -/
def execWAcc (fr : Frame) (tok : Tok) (op : AccOp) (x : BufAddr) (sc : Fin 32) (desc : Fin 2048) (land : Fin 8192) (s : State) :
    Result :=
  s.abStore fr tok (.acc (accNo op)) (.acc op s.regs.ctl.round) x sc desc land

/-- W_ROW (R217). -/
def execWRow (fr : Frame) (tok : Tok) (ty : VTy) (tile : Fin 7) (x : BufAddr) (sc : Fin 32) (desc : Fin 2048) (land : Fin 8192)
    (s : State) : Result :=
  let c := s.core s.slot.core
  let de := c.desc desc
  let d := de.getD Desc.none
  let v := c.regs.getS sc
  let n := lineBytes ty .r
  let start := c.regs.ea x % 256
  let b := n / 1024
  let rs := range' 0 (d.rows + 1)
  let bs := beatsOf (d.rows + 1) n 1024
  let nb := bs.length
  let ps := s.rowChecks .store v (rs.map fun r => failIf (d.va v r % 8 != 0) ⟨0x02, 0, d.va v r, 0⟩) []
    (rs.map fun r => (d.va v r, n)) false land.val nb
  s.storeWord {
    fr := fr, tok := tok
    dec := [descTrap desc de fun d => d.fits [.dstride, .rows, .rbytes, .doff] && d.rbytes == n,
      c.regs.lineTile ⟨tile, .r, .imm 0⟩]
    reads := bs.map fun e => (e.j, if e.lo = 0 then [48] else [])
    land := land.val
    lands := bs.map fun e => land.val + e.j
    source := fun j => j / b * b
    last := land.val + nb - 1
    books := s.incs x
    on := ps.map fun ps =>
      (rs.map fun r => (b * r, 3, .read (.row ty tile.val ((start + r) % 256) (nth ps r []) (s.slot.tick + land.val + b * r))),
        bs.map fun e => (land.val + e.j, cutPieces (nth ps e.row []) e.lo e.n)) }

/-! ### Reads of beats after issue -/

/-- Bytes that leave for their homes, to land there at a clause tick (R205). -/
def sendHome (x : Src) (land : Nat) (op : HomeOp) : List (Home × Nat) → List (Option Byte) → Core → Core
  | [], _, c => c
  | (h, n) :: ps, bs, c => sendHome x land op ps (bs.drop n) (c.due x land 1 (.home h (bs.take n) op))

/-- A beat is read from AB. -/
def State.readAb (s : State) (x : Src) (addr n : Nat) (homes : List (Home × Nat)) (land : Nat) (op : HomeOp) : State :=
  let c := s.slot.core
  let co := s.core c
  s.setCore c (sendHome x land op homes (co.bufRead .ab addr n) co)

/-- The remaining beats of a ring entry: their banks, and their reads where the word is on. -/
def entryDues (addr n land now : Nat) (homes : List (Home × Nat)) : Nat → List (Nat × Nat × Act)
  | 0 => []
  | j + 1 =>
    let lo := 512 * (j + 1)
    let m := min 512 (n - lo)
    entryDues addr n land now homes j ++
      [(now + j + 1, 1, .land [.banks .W (bufBanks .ab (addr + lo) m)]),
        (now + j + 1, 3, .read (.ab (addr + lo) m (cutPieces homes lo m) (land + j + 1) .write))]

/-- What becomes due at given ticks. -/
def Core.duesAt (c : Core) (x : Src) : List (Nat × Nat × Act) → Core
  | [] => c
  | (t, o, a) :: ds => Core.duesAt (c.due x t o a) x ds

/-- A ring that holds nothing when an entry is wanted after issue: a deviation, or the core waits (R38, R39). -/
def State.emptyRing (s : State) (p : Pend) (q : Fin 32) : State :=
  let c := s.slot.core
  let co := s.core c
  if p.src.elastic then s.setCore c { co with pend := p :: co.pend, stalled := some ⟨p.src.eng, 48, []⟩ }
  else s.lateFault c p.src ⟨0x05, q.val, 0, 1⟩

/-- The read of a row of `w.tile` from a ring (R217). -/
def State.readRing (s : State) (p : Pend) (q : Fin 32) (n : Nat) (homes : List (Home × Nat)) (land : Nat) : State :=
  let c := s.slot.core
  let co := s.core c
  let r := co.regs.ring q
  if r.count = 0 then s.emptyRing p q
  else
    let addr := r.addr r.head
    let co := co.due p.src (p.tick + 1) 0 (.land [.popped q 1])
    let co := co.duesAt p.src (entryDues addr n land p.tick homes (cdiv n 512 - 1))
    let t := (s.setCore c co).claimNow c p.src (bufBanks .ab addr (min 512 n))
    if (t.core c).halted && !(s.core c).halted then t
    else t.readAb p.src addr (min 512 n) (cutPieces homes 0 512) land .write

/-- The beats of an MRF row in its AB form. -/
def rowBeats (x : Src) (homes : List (Home × Nat)) (bs : List (Option Byte)) (land : Nat) : Nat → Core → Core
  | 0, c => c
  | k + 1, c =>
    sendHome x (land + k) .write (cutPieces homes (1024 * k) 1024) (slice bs (1024 * k) 1024) (rowBeats x homes bs land k c)

/-- The read of a row of `w.row` (R217). -/
def State.readRow (s : State) (x : Src) (ty : VTy) (tile row : Nat) (homes : List (Home × Nat)) (land : Nat) : State :=
  let c := s.slot.core
  let co := s.core c
  let l : LineAt := ⟨tile, .r, row⟩
  let bs := ((range' 0 (lineCount ty .r)).map fun i => toAb ty (lineElem co.mrf ty l i)).flatten
  s.setCore c (rowBeats x homes bs land (bs.length / 1024) co)

/-! ### Home writes (R218, R252) -/

/-- Bytes of an element of an accumulation. -/
def accSize : AccOp → Nat
  | .addS64 | .addF64 => 8
  | _ => 4

/-- Home element and source element combined, in that order (R218). -/
def accElem (op : AccOp) (md : RMode) (h v : Nat) : Nat × Flags :=
  match op with
  | .addS32 => ((h + v) % 2 ^ 32, 0)
  | .addS64 => ((h + v) % 2 ^ 64, 0)
  | .addF32 => FFmt.f32.add md false h v
  | .addF64 => FFmt.f64.add md false h v
  | .maxF32 => FFmt.f32.maximum false h v
  | .minF32 => FFmt.f32.minimum false h v
  | .maxS32 => (ubits 32 (max (sint 32 h) (sint 32 v)), 0)
  | .minS32 => (ubits 32 (min (sint 32 h) (sint 32 v)), 0)

/-- Elements of z bytes of two strings combined; poison on either side gives poison and no flag. -/
def combineBytes (z : Nat) (f : Nat → Nat → Nat × Flags) : Nat → List (Option Byte) → List (Option Byte) → List (Option Byte) × Flags
  | 0, _, _ => ([], 0)
  | n + 1, hs, vs =>
    let r := combineBytes z f n (hs.drop z) (vs.drop z)
    match leNat? (hs.take z), leNat? (vs.take z) with
    | some h, some v =>
      let e := f h v
      ((leBytes z e.1).map some ++ r.1, e.2 ||| r.2)
    | _, _ => (List.replicate z none ++ r.1, r.2)

/-- Flags are ORed into the issuing core's register (R89, R207). -/
def State.orFlags (s : State) (c : Fin 96) (f : Flags) : State :=
  let co := s.core c
  s.setCore c (co.land 0 (.orFlags f))

/-- What a beat writes at its home: the bytes, or the combination with what stands there; and the flags. -/
def State.homeBytes (s : State) (h : Home) (bs : List (Option Byte)) (op : HomeOp) : List (Option Byte) × Flags :=
  match op with
  | .write => (bs, 0)
  | .acc a rnd => combineBytes (accSize a) (accElem a (modeOfCtl rnd.toNat)) (bs.length / accSize a) (s.homeRead h bs.length) bs

/-! ### W_FILT (R221) -/

/-- Bytes of a logit. -/
def FiltJob.size (f : FiltJob) : Nat := if f.bf16 then 2 else 4

/-- Beats of the bitmap. -/
def FiltJob.maps (f : FiltJob) : Nat := cdiv f.v 4096

/-- Beats in all. -/
def FiltJob.beats (f : FiltJob) : Nat := f.maps + f.v * f.size / 512

/-- Address and bytes of beat j. -/
def FiltJob.beat (f : FiltJob) (j : Nat) : Nat × Nat :=
  if j < f.maps then (f.bitmap + 512 * j, min 512 (f.v / 8 - 512 * j)) else (f.logits + 512 * (j - f.maps), 512)

/-- W_FILT. -/
def execWFilt (fr : Frame) (tok : Tok) (bf16 : Bool) (x : BufAddr) (sc : Fin 32) (desc : Fin 2048) (land : Fin 8192) (s : State) :
    Result :=
  let c := s.core s.slot.core
  let de := c.desc desc
  let d := de.getD Desc.none
  let v := c.regs.getS sc
  let ea := c.regs.ea x
  let f : FiltJob := {
    bitmap := d.aux / 2 ^ 32, logits := ea, record := ubits 32 d.bstride, homes := [], bf16 := bf16, v := d.aux % 2 ^ 32,
    len := d.par, land := s.slot.tick + land.val, bits := [], m := 0, s := 0, count := 0, short := [], nan := false, bad := false }
  let nb := f.beats
  let last := land.val + nb - 1 + 320
  let bytes := f.v * f.size
  let ps : Except Trap (List (Home × Nat)) :=
    match firstOf [needS v, s.landTrap false land.val nb [(d.va v 0, bytes)], failIf (d.va v 0 % 8 != 0) ⟨0x02, 0, d.va v 0, 0⟩,
      failIf (ea % 64 != 0) ⟨0x02, 0, ea, 0⟩] with
    | some t => Except.error t
    | none =>
      match s.devPieces .store true (d.va v 0) bytes with
      | .error t => Except.error t
      | .ok ps => guardAll [bufRange .ab bytes ea, bufRange .ab (f.v / 8) f.bitmap, bufRange .ab 512 f.record] ps
  let logitBeats := range' f.maps (nb - f.maps)
  s.storeWord {
    fr := fr, tok := tok
    dec := [(descTrap desc de fun d => d.fits [.aux, .bstride, .par, .doff] && decide (d.par ≤ 64)
        && f.v % 512 == 0 && decide (512 ≤ f.v ∧ f.v ≤ 262144) && f.bitmap % 64 == 0 && f.record % 64 == 0)]
    reads := (range' 0 nb).map fun j => (j, bufBanks .ab (f.beat j).1 (f.beat j).2)
    land := land.val
    lands := logitBeats.map fun j => land.val + j
    last := last
    books := s.incs x ++ [(last, 1, .land [.banks .W (52 :: bufBanks .ab f.record 512)])]
    on := ps.map fun ps =>
      ([(0, 3, .read (.filt { f with homes := ps } 0))],
        logitBeats.map fun j => (land.val + j, cutPieces ps (512 * (j - f.maps)) 512)) }

/-- The shortlist with one more kept logit: descending value, ties to the lower id, which came first. -/
def shortPut (F : FFmt) (id b : Nat) : List (Nat × Nat) → List (Nat × Nat)
  | [] => [(id, b)]
  | e :: es => if cmpVal (F.unpack b) (F.unpack e.2) > 0 then (id, b) :: e :: es else e :: shortPut F id b es

/-- X(a − b) of two finite F32 numbers, the difference exact and not positive (R221). -/
def expDiff (a b : FVal) : Nat × Flags :=
  match a, b with
  | .fin sa ma ea, .fin sb mb eb =>
    let e0 := min ea eb
    let y := alignTo sa ma ea e0 - alignTo sb mb eb e0
    expRound FFmt.f32 .rne (decide (y < 0)) y.natAbs e0
  | _, _ => (0, 0)

/-- The normaliser takes one more kept logit: m, s and the flags. -/
def normStep (m s : Nat) (x : Nat) : Nat × Nat × Flags :=
  let F := FFmt.f32
  let one := F.bias * 2 ^ F.fb
  let vx := F.unpack x
  let vm := F.unpack m
  if s = 0 then (x, one, 0)
  else if cmpVal vx vm > 0 then
    let e := expDiff vm vx
    let p := F.mul .rne false s e.1
    let r := F.add .rne false p.1 one
    (x, r.1, e.2 ||| p.2 ||| r.2)
  else
    let e := expDiff vx vm
    let r := F.add .rne false s e.1
    (m, r.1, e.2 ||| r.2)

/-- The mask bit of a logit; none where its granule of the bitmap is poisoned. -/
def FiltJob.kept (f : FiltJob) (k : Nat) : Option Bool := (nth f.bits (k / 8) none).map fun b => b.getLsbD (k % 8)

/-- One logit: what goes to the home, the job after it, and the flags; once poison was seen the normaliser raises none
(assumption 131). -/
def FiltJob.logit (f : FiltJob) (ftz : Bool) (k : Nat) (bs : List (Option Byte)) : List (Option Byte) × FiltJob × Flags :=
  match f.kept k, leNat? bs with
  | some true, some b =>
    let S := if f.bf16 then FFmt.bf16 else FFmt.f32
    let v := S.unpack (S.flushIn (ftz && f.bf16) b)
    let nv := if v.isSnan then fInvalid else 0
    (match v with
      | .nan _ _ _ => (bs, { f with nan := true }, nv)
      | .inf false => (bs, { f with nan := true }, 0)
      | .inf true => (bs, f, 0)
      | .fin _ _ _ =>
        let x := (FFmt.f32.convert S .rne v).1
        let r := normStep f.m f.s x
        (bs, { f with m := r.1, s := r.2.1, count := f.count + 1, short := (shortPut FFmt.f32 k x f.short).take 64 },
          if f.bad then 0 else r.2.2))
  | some false, some _ => ((leBytes f.size (if f.bf16 then 0xFF80 else 0xFF800000)).map some, f, 0)
  | _, _ => (List.replicate bs.length none, { f with bad := true }, 0)

/-- The logits of a beat. -/
def FiltJob.logitsOf (f : FiltJob) (ftz : Bool) : Nat → Nat → List (Option Byte) → List (Option Byte) × FiltJob × Flags
  | 0, _, _ => ([], f, 0)
  | n + 1, k, bs =>
    let r := f.logit ftz k (bs.take f.size)
    let rest := FiltJob.logitsOf r.2.1 ftz n (k + 1) (bs.drop f.size)
    (r.1 ++ rest.1, rest.2.1, r.2.2 ||| rest.2.2)

/-- A beat of `w.filt` is read: of the bitmap, or of the logits, which leave for their home. The next follows a tick
later; after the last the record is due. -/
def State.readFilt (s : State) (p : Pend) (f : FiltJob) (j : Nat) : State :=
  let c := s.slot.core
  let co := s.core c
  let (addr, n) := f.beat j
  let bs := co.bufRead .ab addr n
  if j < f.maps then
    s.setCore c (co.due p.src (p.tick + 1) 3 (.read (.filt { f with bits := f.bits ++ bs } (j + 1))))
  else
    let i := j - f.maps
    let (out, g, fl) := f.logitsOf s.ftzV (512 / f.size) (i * (512 / f.size)) bs
    let co := sendHome p.src (f.land + j) .write (cutPieces f.homes (512 * i) 512) out co
    let co := if fl = 0 then co else co.due p.src (f.land + j) 2 (.land [.orFlags fl])
    s.setCore c (if j + 1 < f.beats then co.due p.src (p.tick + 1) 3 (.read (.filt g (j + 1)))
      else co.due p.src (f.land + j + 320) 1 (.filt g))

/-- The filter record (R221): 512 bytes. -/
def FiltJob.recordBytes (f : FiltJob) : List (Option Byte) :=
  if f.bad then List.replicate 512 none
  else
    let es := f.short.take f.len
    let flags := (if f.count = 0 then 1 else 0) + (if f.nan then 2 else 0)
    let first := match es with | e :: _ => e.1 | [] => 0xFFFFFFFF
    let head := leBytes 4 (if f.count = 0 then 0xFF800000 else f.m) ++ leBytes 4 f.s ++ leBytes 4 f.count
      ++ leBytes 2 (min f.len f.count) ++ [BitVec.ofNat 8 flags, 0] ++ leBytes 4 first
    (padTo 512 (padTo 64 head ++ es.flatMap fun e => leBytes 3 e.1 ++ leBytes 4 e.2)).map some

/-- FILTER_RECORD_LANDING: the record lands in AB. -/
def execFilterRecordLanding (s : State) : Result :=
  match s.takeItem with
  | some (p, t) =>
    (match p.act with
    | .filt f => .next (t.landEffects t.slot.core p.src p [.store .ab (place f.record f.recordBytes)])
    | _ => .next s)
  | none => .next s

end Sys2Proof.Machine
end

