-- ==== Sys2Proof/Machine/Outbound.lean ====
section
/-! DEFINITION. Inbound writes and their deferral (R267); the untimetabled operations `w.amo`, `w.sig`, `x.put` and
`x.sig` (R219, R220, R227, R228), their order, releases and acknowledgements (R254, R261, R263). -/

namespace Sys2Proof.Machine

/-! ### Deferral (R267) -/

/-- Whether n bytes at a physical address share a granule with an interval. -/
def sharesGranule (pa n : Nat) (r : Nat × Nat) : Bool :=
  decide (pa / 64 * 64 < r.1 + r.2) && decide (r.1 / 64 * 64 < pa + n) && decide (0 < r.2)

/-- The homes and lengths that an inbound write reaches. -/
def InWrite.pieces (w : InWrite) : List (Home × Nat) :=
  match w.act with
  | .write h bs | .acc _ h _ _ bs => [(h, bs.length)]
  | .op _ h _ | .signal h _ _ => [(h, 8)]
  | .beat _ _ ps _ => ps
  | .ab _ _ _ => []

/-- The bytes of data that a deferred write takes of the 256 KiB of its partition (R267). -/
def InWrite.bytes (w : InWrite) : Nat :=
  match w.act with
  | .ab _ _ bs => bs.length
  | _ => (w.pieces.map Prod.snd).sum

/-- Whether the inbound path of a partition holds writes of a source. -/
def Part.holds (x : Part) (src : Source) : Bool := x.deferred.any (fun w => w.src == src) || x.waiting.any (fun w => w.src == src)

/-- Whether a write stays behind what its source has deferred: to this module's memory always, and through one PCIe function to
any other memory too, since that function's writes keep their order (R266, R267). -/
def follows : Source → Home → Bool
  | _, .hbm _ => true
  | .fn _, _ => true
  | _, _ => false

/-- Whether the writer is a core of the phase that runs on partition p: one of the partition, or, in a system phase, one of another
module of the group (R9, R267). -/
def State.ofPhase (s : State) (p : Nat) (src : Source) (mate : Bool) : Bool :=
  (match src with | .part q => q.val == p | _ => false) || (mate && s.sysPhase p)

/-- Whether the running phase of partition p, and not one of the writer's own, has declared the granules of a write. -/
def State.guards (s : State) (p : Nat) (src : Source) (mate : Bool) (h : Home) (n : Nat) : Bool :=
  match h with
  | .hbm pa => !s.ofPhase p src mate && (s.part p).guarded.any (sharesGranule pa n)
  | _ => false

/-- The partition whose inbound path takes a write of a source: the one that holds writes of the source already, behind which it
stays; else the lowest that guards the target. -/
def State.deferrer (s : State) (src : Source) (h : Home) (n : Nat) (mate : Bool := false) : Option Nat :=
  match (range' 0 4).find? fun p => (s.part p).holds src with
  | some p => if follows src h then some p else none
  | none => (range' 0 4).find? fun p => s.guards p src mate h n

/-- The same for all the pieces of a write; a write into AB stays behind what its function has deferred (R266). -/
def State.deferrerOf (s : State) (w : InWrite) : Option Nat :=
  match w.act with
  | .ab _ _ _ => (range' 0 4).find? fun p => (s.part p).holds w.src
  | _ => w.pieces.findSome? fun p => s.deferrer w.src p.1 p.2 w.mate

/-- A write is held by a partition's inbound path, in arrival order: of 256 KiB, and beyond that on its link or its credits. -/
def State.deferTo (s : State) (p : Nat) (w : InWrite) : State :=
  let x := s.part p
  s.setPart p (if x.waiting.isEmpty && decide ((x.deferred.map InWrite.bytes).sum + w.bytes ≤ 262144) then
    { x with deferred := x.deferred ++ [w] } else { x with waiting := x.waiting ++ [w] })

/-! ### The partition aborts without a word at fault in its tick (R220, R228) -/

/-- A fault of an operation that has left its core; that of a translation names the core in its record (R340). -/
def State.strayFault (s : State) (c : Fin 96) (x : Src) (t : Trap) : State :=
  s.eventFault (s.partOf c) (some c) ⟨t.code, 1, some c, some x, t.detail, t.addr, if t.code = 0x22 then leBytes 2 c.val else []⟩

/-! ### What an operation does at its home -/

/-- The reserved value of a signal object (R131, R220). -/
def invalidSignal : W64 := 0x8000000000000000

/-- A signal operation (R220): an invalid object stays invalid unless it is set. -/
def sigApply (op : SigOp) (old v : W64) : W64 :=
  match op with
  | .set => v
  | .add => if old = invalidSignal then old else old + v
  | .or => if old = invalidSignal then old else old ||| v
  | .max => if old = invalidSignal then old else if BitVec.slt old v then v else old

/-- Bytes of an atomic's operand. -/
def amoSize : AmoTy → Nat
  | .s32 | .f32 => 4
  | _ => 8

/-- An atomic on bit patterns of its type (R219). -/
def amoApply (op : AmoOp) (ty : AmoTy) (h v c : Nat) : Nat :=
  let n := 8 * amoSize ty
  let F := if ty = .f64 then FFmt.f64 else FFmt.f32
  let isF := ty == .f32 || ty == .f64
  match op with
  | .add => if isF then (F.add .rne false h v).1 else (h + v) % 2 ^ n
  | .min => if isF then (F.minimum false h v).1 else ubits n (min (sint n h) (sint n v))
  | .max => if isF then (F.maximum false h v).1 else ubits n (max (sint n h) (sint n v))
  | .and => h &&& v
  | .or => h ||| v
  | .xor => h ^^^ v
  | .swap => v
  | .cas => if h = c then v else h

/-! ### The outbound path of a core -/

/-- An operation of a core. -/
def Core.op (c : Core) (id : Nat) : Option OutOp := c.outb.find? fun o => o.id == id

/-- An operation of a core replaced. -/
def Core.putOp (c : Core) (o : OutOp) : Core := { c with outb := c.outb.map fun x => if x.id = o.id then o else x }

/-- An operation of a core has gone, and with it what waits for it. -/
def Core.dropOp (c : Core) (id : Nat) : Core :=
  { c with outb := c.outb.filter fun o => o.id ≠ id, fences := c.fences.filter fun f => f.1 ≠ id }

/-- Whether an operation is a put. -/
def OutOp.isPut (o : OutOp) : Bool := match o.kind with | .put _ _ _ => true | _ => false

/-- The homes an operation writes; of an `x.sig` that is not yet translated, the one its address has now. -/
def State.opTargets (s : State) (c : Nat) (o : OutOp) : List Home :=
  o.homes ++ o.home.toList ++
    (if o.st == .translating then
      (match s.translate (s.partOf c) o.va with
        | .ok e => [e.at' o.va]
        | .fail _ _ _ => [])
    else [])

/-- Whether an operation has been performed. -/
def OutOp.done (o : OutOp) : Bool := o.st == .performed || o.st == .acked

/-- The homes that a pending item will still write. -/
def Pend.writes (p : Pend) : List Home :=
  match p.act with
  | .home h _ _ => [h]
  | .read (.ab _ _ hs _ _) | .read (.ring _ _ hs _) | .read (.row _ _ _ hs _) => hs.map Prod.fst
  | .read (.filt f _) => f.homes.map Prod.fst
  | _ => []

/-- Homes of timetabled writes that the core issued before operation o, in its phase, and that have not landed. -/
def Core.timetabled (c : Core) (o : OutOp) : List Home :=
  if c.regs.ctl.phase.toNat = o.phase then
    (c.pend.filter fun p => decide (p.src.tick < o.src.tick)).flatMap Pend.writes
  else []

/-- Whether a write was issued before operation o: in an earlier job or phase, or at an earlier tick. -/
def Issued.before (i : Issued) (o : OutOp) : Bool :=
  decide (i.job < o.job) || (i.job == o.job && (decide (i.phase < o.phase) || (i.phase == o.phase && decide (i.tick < o.src.tick))))

/-- Homes of timetabled writes that core c issued before operation o and that an inbound path still holds (R267). -/
def State.heldHomes (s : State) (c : Fin 96) (o : OutOp) : List Home :=
  (range' 0 4).flatMap fun p => ((s.part p).deferred ++ (s.part p).waiting).flatMap fun w =>
    if w.issued.any fun i => i.core == c && i.before o then w.pieces.map Prod.fst else []

/-- Homes of timetabled writes that core c issued before operation o and that are not yet performed. -/
def State.unperformed (s : State) (c : Fin 96) (o : OutOp) : List Home := (s.core c).timetabled o ++ s.heldHomes c o

/-- Whether beats of a put are still to be read from AB: until then it has not left the core (R263). -/
def Core.reads (c : Core) (id : Nat) : Bool :=
  c.pend.any fun p => match p.act with
    | .read (.put i _ _ _) => i == id
    | _ => false

/-- Whether what an operation waits for by a fence is acknowledged at the fence's scope (R132, R263). -/
def Core.fencesOpen (c : Core) (o : OutOp) : Bool :=
  o.fences.all fun f =>
    match c.op f.1 with
    | none => true
    | some x => (match f.2 with
      | .core => x.done || (x.st == .sent && !c.reads x.id)
      | _ => x.st == .acked)

/-- Operations of the core issued before o. -/
def Core.earlier (c : Core) (o : OutOp) : List OutOp := c.outb.filter fun x => decide (x.id < o.id)

/-- Whether a home is a stack of partition p (R263). -/
def State.stackOfPart (s : State) (p : Nat) : Home → Bool
  | .hbm pa => s.mod.partOf (stackOf pa / 3) == p
  | _ => false

/-- Whether the core may send an operation: its fences are open, and a release of wide scope has been acknowledged what
it covers (R263). -/
def State.maySend (s : State) (c : Fin 96) (o : OutOp) : Bool :=
  let co := s.core c
  let wide (f : Home → Bool) : Bool :=
    (co.earlier o).all (fun x => x.st == .acked || !(s.opTargets c x).any f) && !(s.unperformed c o).any f
  co.fencesOpen o && (!o.rel || (match o.scope with
    | .core | .dev => true
    | .part => wide (s.stackOfPart (s.partOf c))
    | .sys => wide fun _ => true))

/-- Whether the home may apply an operation of core c there: the core's earlier operations to the home are performed, but
for puts among themselves (R219, R227), and so are the writes that a release covers (R263). -/
def State.mayApply (s : State) (c : Fin 96) (o : OutOp) (h : Home) : Bool :=
  let co := s.core c
  (co.earlier o).all (fun x => x.done || !(s.opTargets c x).any (sameHome h) || (x.isPut && o.isPut))
    && (!o.rel || o.scope == .core || !(s.unperformed c o).any (sameHome h))

/-- An operation is performed: its acknowledgement is on its way. -/
def State.performed (s : State) (c : Fin 96) (o : OutOp) : State :=
  ({ s.setCore c ((s.core c).putOp { o with st := .performed }) with fresh := s.fresh + 1 }).schedule
    (s.now + 1 + Config.ackDelay s.fresh) (.acknowledgement c o.id)

/-- The operation goes on later: at a cycle that nothing names. -/
def State.later (s : State) (c : Fin 96) (id : Nat) : State :=
  ({ s with fresh := s.fresh + 1 }).schedule (s.now + 1 + Config.opDelay s.fresh) (.untimetabledWritePerformed c id)

/-- An operation that the home finds poisoned leaves it unchanged and aborts the partition (R220). -/
def State.poisonedHome (s : State) (c : Fin 96) (o : OutOp) : State :=
  (s.performed c o).strayFault c o.src ⟨0x18, 0, o.va / 64 * 64, 1⟩

/-- The partition's journal takes up what a word of a job and phase writes while that phase runs (R370). -/
def State.writerOf (s : State) (c : Fin 96) (job phase : Nat) (again : Bool) : Writer :=
  let p := s.partOf c
  ⟨if (match (s.part p).job with | some j => j.id == job && j.phase == phase | none => false) then some p else none, again⟩

/-- The writer that an operation is. -/
def State.byOp (s : State) (c : Fin 96) (o : OutOp) : Writer := s.writerOf c o.job o.phase o.again

/-- A signal operation at its object; a poisoned object is left unchanged (R220). -/
def State.signalAt (s : State) (w : Writer) (h : Home) (op : SigOp) (v : W64) : State :=
  match leNat? (s.homeRead h 8) with
  | none => s
  | some old => s.homeWrite w h ((leBytes 8 (sigApply op (BitVec.ofNat 64 old) v).toNat).map some)

/-- An atomic or a signal at its home. What an atomic does there is not undone by a debug stop (R369). -/
def State.applyOp (s : State) (c : Fin 96) (o : OutOp) (h : Home) : State :=
  match o.kind with
  | .amo op ty v k =>
    let n := amoSize ty
    (match leNat? (s.homeRead h n) with
      | none => s.poisonedHome c o
      | some old =>
        let r := amoApply op ty old (v.toNat % 2 ^ (8 * n)) (k.toNat % 2 ^ (8 * n))
        let t := s.homeWrite (s.byOp c o) h ((leBytes n r).map some)
        (match h, (s.byOp c o).phase with
          | .hbm pa, some p => t.journalKeep p pa n
          | _, _ => t).performed c o)
  | .sig op v =>
    if (leNat? (s.homeRead h 8)).isNone then s.poisonedHome c o
    else
      let t := s.signalAt (s.byOp c o) h op v
      (match h with
        | .peer _ _ _ _ => t.emit (.peerSignal h op v)
        | _ => t).performed c o
  | .put _ _ _ => s

/-- After a beat of a put: the next, or, when every byte is performed, the acknowledgement. -/
def State.putOn (s : State) (c : Fin 96) (id : Nat) : State :=
  match (s.core c).op id with
  | some o => (match o.kind with
    | .put _ ready unread =>
      if ready.isEmpty && unread == 0 then s.performed c o else s.later c id
    | _ => s)
  | none => s

/-- The source of a core's writes to another partition. -/
def State.sourceOf (s : State) (c : Fin 96) : Source := .part (Fin.ofNat 4 (s.partOf c))

/-- A list without its i-th element. -/
def dropAt {α : Type} : Nat → List α → List α
  | _, [] => []
  | 0, _ :: xs => xs
  | n + 1, x :: xs => x :: dropAt n xs

/-- The cycle of the next tick of the partition whose home is written, if a tick of its phase runs and this cycle is not its
start: untimetabled writes are applied at the start of a tick, before the inbound writes of the tick (R254; assumption 104). -/
def State.homeTick (s : State) (c : Fin 96) (h : Home) : Option Nat :=
  let p := match h with
    | .hbm pa => s.mod.partOf (stackOf pa / 3 % 4)
    | _ => s.partOf c
  let x := s.part p
  if (x.seq == .phase || x.seq == .signing) && decide (s.now < x.base) && decide (s.now + max 1 x.cad ≠ x.base) then some x.base else none

/-- One beat of a put, of those read: no order is given among them (R227). -/
def State.putBeat (s : State) (c : Fin 96) (o : OutOp) (sem : Fin 32) (ready : List (List (Home × Nat) × List (Option Byte)))
    (unread : Nat) : State :=
  let i := Config.opDelay (s.fresh + 1) % max 1 ready.length
  match ready[i]? with
  | none => s.later c o.id
  | some (ps, bs) =>
    if !(ps.all fun p => s.mayApply c o p.1) then s.later c o.id
    else
      match ps.head? with
      | none => s.later c o.id
      | some (h, _) => match s.homeTick c h with
        | some cycle => s.schedule cycle (.untimetabledWritePerformed c o.id)
        | none =>
          let w : InWrite := { src := s.sourceOf c, act := .beat c o.id ps bs }
          match s.deferrerOf w with
          | some q =>
            ((s.setCore c ((s.core c).putOp { o with kind := .put sem (dropAt i ready) (unread + 1) })).deferTo q w).later c o.id
          | none =>
            ((s.setCore c ((s.core c).putOp { o with kind := .put sem (dropAt i ready) unread })).homeWrites (s.byOp c o) ps bs).putOn c o.id

/-- UNTIMETABLED_WRITE_PERFORMED: an operation leaves its core when its fences and its release let it, and acts at its
home when the order there lets it; else it tries again later (R252, R254, R263, R267). -/
def execUntimetabledWritePerformed (core : Fin 96) (op : Nat) (s : State) : Result :=
  let co := s.core core
  match co.op op with
  | none => .next s
  | some o =>
    .next (match o.st with
      | .held => if s.maySend core o then (s.setCore core (co.putOp { o with st := .sent })).later core op else s.later core op
      | .sent =>
        (match o.kind with
          | .put sem ready unread => s.putBeat core o sem ready unread
          | _ =>
            match o.home with
            | none => s
            | some h =>
              if !s.mayApply core o h then s.later core op
              else match s.homeTick core h with
                | some cycle => s.schedule cycle (.untimetabledWritePerformed core op)
                | none => match s.deferrer (s.sourceOf core) h 8 with
                  | some q => s.deferTo q { src := s.sourceOf core, act := .op core h op }
                  | none => s.applyOp core o h)
      | _ => s)

/-- A job that has ended completes once its operations are acknowledged (R334). -/
def State.completeJobs (s : State) (p : Nat) : State :=
  (s.part p).ended.foldl (fun (s : State) (j : Job) =>
    if j.done || (s.coresOf p).any fun c => (s.core c).outb.any fun o => o.job == j.id && o.st != .acked then s
    else s.schedule s.now (.jobCompletion (Fin.ofNat 4 p) j.id)) s

/-- ACKNOWLEDGEMENT: it reaches the core, frees what waits for it, and lets a put complete (R227, R263). -/
def execAcknowledgement (core : Fin 96) (op : Nat) (s : State) : Result :=
  let co := s.core core
  match co.op op with
  | none => .next s
  | some o =>
    if o.st != .performed then .next s
    else if o.isPut then
      .next ((s.setCore core (co.putOp { o with st := .acked })).schedule s.now (.putCompletion core op))
    else .next ((s.setCore core (co.dropOp op)).completeJobs (s.partOf core))

/-- A semaphore incremented: 0xFFFF stays (R27, R128). -/
def bump16 (v : BitVec 16) : BitVec 16 := if v = 0xFFFF then v else v + 1

/-- PUT_COMPLETION: the put's semaphore is incremented (R128, R227). -/
def execPutCompletion (core : Fin 96) (op : Nat) (s : State) : Result :=
  let co := s.core core
  match co.op op with
  | none => .next s
  | some o =>
    (match o.kind, o.st with
      | .put sem _ _, .acked =>
        let r := if o.again then co.regs else { co.regs with sem := co.regs.sem.set sem (bump16 co.regs.sem[sem]) }
        .next ((s.setCore core { co.dropOp op with regs := r }).completeJobs (s.partOf core))
      | _, _ => .next s)

/-- XSIG_TRANSLATION (R228): the address is translated as preflight does; the page must grant R, W and A and lie on a peer
module. An address with bits 63:52 set has no entry: code 0x22 at level 0 (assumption 133). -/
def execXsigTranslation (core : Fin 96) (op : Nat) (s : State) : Result :=
  let co := s.core core
  match co.op op with
  | none => .next s
  | some o =>
    if o.st != .translating then .next s
    else
      let p := s.partOf core
      let stop (t : Trap) : Result := .next ((s.setCore core (co.dropOp op)).strayFault core o.src t)
      if o.va ≥ 2 ^ 52 then stop ⟨0x22, 0, o.va, 1⟩
      else match s.translate p o.va with
        | .fail code level addr => stop ⟨code, level, addr, 1⟩
        | .ok e =>
          if Access.sig.lacks e ≠ 0 then stop ⟨0x23, Access.sig.lacks e, o.va, 1⟩
          else match e.at' o.va with
            | .peer x y z pa =>
              let s := s.setPart p ((s.part p).load e false)
              .next ((s.setCore core ((s.core core).putOp { o with st := .held, home := some (.peer x y z pa) })).later core op)
            | _ => stop ⟨0x20, 0, o.va, 1⟩

/-! ### Deferred and arriving writes (R267) -/

/-- An inbound write is applied at its home. -/
def State.applyInbound (s : State) (w : InWrite) : State :=
  let by_ : Writer := match w.issued with
    | some i => s.writerOf i.core i.job i.phase false
    | none => .hub
  match w.act with
  | .write h bs => s.homeWrite by_ h bs
  | .signal h op v => s.signalAt by_ h op v
  | .acc c h op rnd bs =>
    let (out, f) := s.homeBytes h bs (.acc op rnd)
    (s.orFlags c f).homeWrite by_ h out
  | .op c h id =>
    (match (s.core c).op id with
      | some o => s.applyOp c o h
      | none => s)
  | .beat c id ps bs =>
    (match (s.core c).op id with
      | some o => (match o.kind with
        | .put sem ready unread =>
          ((s.homeWrites (s.byOp c o) ps bs).setCore c (((s.homeWrites (s.byOp c o) ps bs).core c).putOp
            { o with kind := .put sem ready (unread - 1) })).putOn c id
        | _ => s)
      | none => s.homeWrites .hub ps bs)
  | .ab c at_ bs => s.setCore c ((s.core c).bufStore .ab (place at_ bs))

/-- The bank on which a host access of n bytes waits in this tick: the lowest of those it needs that a timetabled requester
uses, while the core runs a clause (R286). -/
def State.hostWaits (s : State) (c at_ n : Nat) : Option Nat :=
  if s.ticking (s.partOf c) then ((bufBanks .ab at_ n).filter fun b => (s.core c).used.contains b).mergeSort.head? else none

/-- The cycle of the next tick of a core's partition. -/
def State.nextTickCycle (s : State) (c : Nat) : Nat := max (s.now + 1) (s.part (s.partOf c)).base

/-- A host access waits for a tick, which counts in the host row of the stall matrix (R298). -/
def State.hostWait (s : State) (c bank : Nat) (again : Instr) : State :=
  (s.setCore c ((s.core c).countStall 8 bank)).schedule (s.nextTickCycle c) again

/-- The bank for which a write into AB waits: core and bank. -/
def State.waitsFor (s : State) (w : InWrite) : Option (Nat × Nat) :=
  match w.act with
  | .ab c at_ bs => (s.hostWaits c at_ bs.length).map fun b => (c, b)
  | _ => none

/-- Writes of one source in their order (R266): each is held behind what its source already has at an inbound path, or for the
phase that guards it (R267), or is applied; the first that waits for a bank keeps all that follow it waiting, and an empty write
of its function tries again in the next tick. -/
def State.takePosted (s : State) : List InWrite → State
  | [] => s
  | w :: ws =>
    match s.deferrerOf w, s.waitsFor w with
    | some p, _ => State.takePosted (s.deferTo p w) ws
    | none, none => State.takePosted (s.applyInbound w) ws
    | none, some (c, b) =>
      let t := { s with mod := { s.mod with posted := s.mod.posted ++ w :: ws } }
      match w.src with
      | .fn f => t.hostWait c b (.hostAbWrite f 0 [] false)
      | _ => t

/-- An inbound write arrives: behind those of its source that wait, or at once. -/
def State.arrive (s : State) (w : InWrite) : State :=
  if s.mod.posted.any (·.src == w.src) then { s with mod := { s.mod with posted := s.mod.posted ++ [w] } } else s.takePosted [w]

/-- What a function has waiting is tried again. -/
def State.retryPosted (s : State) (f : Fin 5) : State :=
  let mine := s.mod.posted.filter fun w => w.src == Source.fn f
  { s with mod := { s.mod with posted := s.mod.posted.filter fun w => w.src != Source.fn f } }.takePosted mine

/-- What the inbound path of a partition holds is applied in arrival order once its phase has ended (R267, R309); a write that
the running phase of another partition guards is held there, and what its source has sent after it. -/
def State.applyDeferred (s : State) (p : Nat) : State :=
  let x := s.part p
  (x.deferred ++ x.waiting).foldl (fun (s : State) w => s.arrive w)
    (s.setPart p { x with deferred := [], waiting := [], guarded := [] })

/-- INBOUND_WRITE (R220, R228, R267, R268): data marked as poisoned poison each granule they write; a peer's signal operation is
performed here, at its home. -/
def execInboundWrite (src : Source) (pa : Nat) (data : Inbound) (poisoned : Bool) (s : State) : Result :=
  .next (s.arrive (match data with
    | .bytes bs mate =>
      { src := src, act := .write (.hbm pa) (if poisoned then List.replicate bs.length none else bs.map some), mate := mate }
    | .signal op v mate => { src := src, act := .signal (.hbm pa) op v, mate := mate }))

/-- A completion of a read: its bytes, and whether a granule is poisoned (R268). -/
def State.complete (s : State) (bs : List (Option Byte)) : State :=
  s.emit (.completion (bs.map fun b => b.getD 0) (bs.any (·.isNone)))

/-- INBOUND_READ (R267): the home as it stands. -/
def execInboundRead (_src : Source) (pa n : Nat) (s : State) : Result := .next (s.complete (s.homeRead (.hbm pa) n))

/-- The number of the job of core c. -/
def State.jobOf (s : State) (c : Fin 96) : Nat := (((s.part (s.partOf c)).job).map (·.id)).getD 0

/-- A word that core c issued at a clause tick of the phase that runs. -/
def State.issuedAt (s : State) (c : Fin 96) (tick : Nat) : Issued := ⟨c, s.jobOf c, (s.core c).regs.ctl.phase.toNat, tick⟩

/-- The flags of item p are ORed in after the writes of its tick (R89, R123). -/
def State.flagsNow (s : State) (c : Fin 96) (p : Pend) (f : Flags) : State :=
  if f = 0 then s else s.setCore c ((s.core c).due p.src p.tick 2 (.land [.orFlags f]))

/-- W_BEAT_HOME_WRITE (R205, R218, R252, R267): a write into a stack that another partition's
phase has declared is deferred. -/
def execWBeatHomeWrite (s : State) : Result :=
  match s.takeItem with
  | some (p, t) =>
    (match p.act with
    | .home h bs op =>
      let c := t.slot.core
      let (out, f) := t.homeBytes h bs op
      let t := t.setCore c ((t.core c).digestChunks p.src.eng (byteChunks (cdiv out.length 8) out))
      (match t.deferrer (t.sourceOf c) h bs.length with
        | some q => .next (t.deferTo q { src := t.sourceOf c, issued := some (t.issuedAt c p.src.tick), act := match op with
          | .write => .write h bs
          | .acc a rnd => .acc c h a rnd bs })
        | none => .next ((t.flagsNow c p f).homeWrite (t.timed c) h out))
    | _ => .next s)
  | none => .next s

/-! ### The words -/

/-- A new operation of the core of the slot. In a re-execution, atomics and remote signals are not repeated (R369). -/
def State.newOp (s : State) (kind : OpKind) (va : Nat) (home : Option Home) (homes : List Home) (sc : Scope) (rel : Bool) : State :=
  let c := s.slot.core
  let co := s.core c
  let id := s.mod.opSeq
  let again := (s.part (s.partOf c)).reexec.isSome
  let skip := again && (match kind, home with | .amo _ _ _ _, _ => true | .sig _ _, none => true | _, _ => false)
  if skip then s else
  let o : OutOp := {
    id := id, src := s.src, phase := co.regs.ctl.phase.toNat, job := s.jobOf c, homes := homes, kind := kind, va := va
    home := home, scope := sc, rel := rel, fences := co.fences, again := again
    st := match kind, home with | .sig _ _, none => .translating | _, _ => .held }
  let t := { s.setCore c { co with outb := co.outb ++ [o] } with mod := { s.mod with opSeq := id + 1 } }
  match o.st with
  | .translating => ({ t with fresh := t.fresh + 1 }).schedule (s.now + 1 + Config.opDelay s.fresh) (.xsigTranslation c id)
  | _ => t.later c id

/-- The home of an atomic or a signal, once its checks have passed (R219). -/
def State.atomicHome (s : State) (a : Option W64) (others : List (Option W64)) (n : Nat) (acc : Access) : Except Trap (Home × Nat) :=
  match firstOf ((a :: others).map needS) with
  | some t => .error t
  | none =>
    let va := (a.getD 0).toNat
    if va % n ≠ 0 then .error ⟨0x02, 0, va, 0⟩
    else match s.devCheck s.slot.core acc va n with
      | .error t => .error t
      | .ok hs =>
        match hs with
        | (.peer _ _ _ _, _) :: _ | [] => .error ⟨0x20, 0, va, 0⟩
        | (h, _) :: _ => .ok (h, va)

/-- A word of format WA. -/
def State.atomicWord (s : State) (fr : Frame) (tok : Tok) (h : Except Trap (Home × Nat)) (kind : OpKind) (sc : Scope) (rel : Bool) : Result :=
  let plan : Plan := {
    pred := fr.pred
    dev := s.regs.tokDev (tokPops .W tok)
    toks := tokPops .W tok
    off := tokPushes .W tok 1
    on := h.map fun _ => tokPushes .W tok 1 }
  .next (match h with
    | .error _ => s.issue plan
    | .ok x => s.issueThen plan fun t => t.newOp kind x.2 (some x.1) [] sc rel)

/-- W_AMO (R219). -/
def execWAmo (fr : Frame) (tok : Tok) (op : AmoOp) (ty : AmoTy) (sc : Scope) (rel : Bool) (sA v c : Fin 32) (s : State) : Result :=
  let r := s.regs
  let cas := match op with | .cas => [r.getS c] | _ => []
  s.atomicWord fr tok (s.atomicHome (r.getS sA) (r.getS v :: cas) (amoSize ty) .amo)
    (.amo op ty ((r.getS v).getD 0) ((r.getS c).getD 0)) sc rel

/-- W_SIG (R219, R220). -/
def execWSig (fr : Frame) (tok : Tok) (op : SigOp) (sc : Scope) (rel : Bool) (sA v : Fin 32) (s : State) : Result :=
  let r := s.regs
  s.atomicWord fr tok (s.atomicHome (r.getS sA) [r.getS v] 8 .sig) (.sig op ((r.getS v).getD 0)) sc rel

/-- The beat slot of a word that sends (R222): 54. -/
def State.xSlotDev (s : State) (res : Nat) (os : List Nat) : Option (Trap × Bool) :=
  let c := s.core s.slot.core
  if !c.regs.ctl.elastic && os.any fun o => c.slotTaken .X res (s.slot.tick + o) 1 then some (⟨0x07, 54, 0, 0⟩, false) else none

/-- The slots of outbound beats, and the banks of the reads of those after the first. -/
def xSlots (reads : List (Nat × List Nat)) : List Due := reads.tail.flatMap fun b => banksAt b.1 .X (54 :: b.2)

/-- X_PUT (R227). -/
def execXPut (fr : Frame) (sem : Fin 32) (x : BufAddr) (sc : Fin 32) (desc : Fin 2048) (s : State) : Result :=
  let c := s.core s.slot.core
  let de := c.desc desc
  let d := de.getD Desc.none
  let v := c.regs.getS sc
  let ea := c.regs.ea x
  let rs := range' 0 (d.rows + 1)
  let bs := beatsOf (d.rows + 1) d.rbytes 256
  let reads := bs.map fun k => (k.j, bufBanks .ab (d.ba ea k.row + k.lo) k.n)
  let ps := s.rowChecks .store v
    (rs.flatMap fun r => [failIf (d.va v r % 8 != 0) ⟨0x02, 0, d.va v r, 0⟩, bufAlign .ab d.rbytes (d.ba ea r)])
    (rs.map fun r => bufRange .ab d.rbytes (d.ba ea r)) (rs.map fun r => (d.va v r, d.rbytes)) false (2 ^ 40) bs.length
  let id := s.mod.opSeq
  let plan : Plan := {
    pred := fr.pred
    dec := descTrap desc de fun d => d.fits [.bstride, .dstride, .rows, .rbytes, .doff]
    dev := s.xSlotDev 54 (bs.map (·.j))
    banks := match reads with | r :: _ => 54 :: r.2 | [] => []
    books := s.incs x ++ xSlots reads
    on := ps.map fun ps => bs.map fun k =>
      (k.j, 3, .read (.put id (d.ba ea k.row + k.lo) k.n (cutPieces (nth ps k.row []) k.lo k.n))) }
  .next (match ps with
    | .error _ => s.issue plan
    | .ok ps => s.issueThen plan fun t =>
      t.newOp (.put sem [] bs.length) (d.va v 0) none (ps.flatten.map Prod.fst) .core false)

/-- A beat of a put is read from AB. -/
def State.readPut (s : State) (op addr n : Nat) (homes : List (Home × Nat)) : State :=
  let c := s.slot.core
  let co := s.core c
  match co.op op with
  | some o => (match o.kind with
    | .put sem ready unread =>
      s.setCore c (co.putOp { o with kind := .put sem (ready ++ [(homes, co.bufRead .ab addr n)]) (unread - 1) })
    | _ => s)
  | none => s

/-- The scope that conv<1:0> of an `x.sig` holds (R228). -/
def scopeOf (n : Nat) : Scope :=
  match n % 4 with
  | 0 => .core | 1 => .part | 2 => .dev | _ => .sys

/-- X_SIG (R228). -/
def execXSig (fr : Frame) (op : SigOp) (sc : Fin 32) (desc : Fin 2048) (s : State) : Result :=
  let c := s.core s.slot.core
  let de := c.desc desc
  let d := de.getD Desc.none
  let v := c.regs.getS sc
  let va := d.va v 0
  let plan : Plan := {
    pred := fr.pred
    dec := descTrap desc de fun d => d.fits [.aux, .conv, .doff] && decide (d.conv < 8)
    on := guardAll [needS v, failIf (va % 8 != 0) ⟨0x02, 0, va, 0⟩] [] }
  .next (s.issueThen plan fun t => t.newOp (.sig op (BitVec.ofNat 64 d.aux)) va none [] (scopeOf d.conv) (d.conv / 4 % 2 == 1))

end Sys2Proof.Machine
end

