-- ==== Sys2Proof/Machine/Link.lean ====
section
/-! DEFINITION. The timetabled link words (R222 to R226, R229), the mesh and torus (R290, R291), arrivals (R292) and
deliveries. `x.put` and `x.sig` are in Outbound. -/

namespace Sys2Proof.Machine

/-! ### Routes (R222, R290) -/

/-- The die of a core, and its place on the die. -/
def dieOf (c : Nat) : Nat := c / 12
def placeX (c : Nat) : Nat := c % 12 % 4
def placeY (c : Nat) : Nat := c % 12 / 4

/-- The distance of two numbers. -/
def distance (a b : Nat) : Nat := if a ≤ b then b - a else a - b

/-- Hops between two cores of a die. -/
def meshHopCount (a b : Nat) : Nat := distance (placeX a) (placeX b) + distance (placeY a) (placeY b)

/-- Whether two dies are adjacent. -/
def diesAdjacent (d e : Nat) : Bool := e == d ^^^ 1 || distance d e == 2

/-- The least land of a path to a peer; none where the path does not reach it. -/
def leastLand (c : Nat) (path : Path) (peer : Nat) : Option Nat :=
  if 96 ≤ peer then none
  else match path with
    | .mesh => if dieOf c = dieOf peer then some (8 + 2 * meshHopCount c peer) else none
    | .die => if diesAdjacent (dieOf c) (dieOf peer) then some 64 else none
    | _ => some 336

/-- The opposite path (R224). -/
def oppositePath : Path → Path
  | .mesh => .mesh | .die => .die | .px => .nx | .nx => .px | .py => .ny | .ny => .py | .pz => .nz | .nz => .pz

/-- The path of a code. -/
def pathOf (n : Nat) : Option Path :=
  match n with
  | 0 => some .mesh | 1 => some .die | 2 => some .px | 3 => some .nx | 4 => some .py | 5 => some .ny | 6 => some .pz
  | 7 => some .nz | _ => none

/-- One step towards a coordinate. -/
def stepTo (a b : Nat) : Nat := if a < b then a + 1 else a - 1

/-- The number of a directed hop between two places of a die. -/
def hopNo (die x y x' y' : Nat) : Nat := (die * 12 + (y * 4 + x)) * 12 + (y' * 4 + x')

/-- The directed hops from a place to another: along x, then along y. -/
def meshRoute (die tx ty : Nat) : Nat → Nat → Nat → List Nat
  | 0, _, _ => []
  | n + 1, x, y =>
    if x ≠ tx then hopNo die x y (stepTo x tx) y :: meshRoute die tx ty n (stepTo x tx) y
    else if y ≠ ty then hopNo die x y x (stepTo y ty) :: meshRoute die tx ty n x (stepTo y ty)
    else []

/-- The checks of a path for a word (R222): torus paths outside system phases, and peers not reached, are reserved. -/
def State.pathTrap (s : State) (path : Path) (peer : Nat) : Option Trap :=
  let c := s.slot.core
  failIf ((path.isTorus && !s.sysPhase (s.partOf c)) || (leastLand c path peer).isNone) ⟨0x01, 0, 0, 0⟩

/-! ### A beat leaves -/

/-- A beat of a torus port: the third of one tick is a deviation on the core with the highest number (R291). -/
def State.torusPort (s : State) (c : Fin 96) (x : Src) (path : Path) : State :=
  let p := s.partOf c
  let part := s.part p
  let same := part.ports.filter fun h => h.1 == pathNo path && h.2.1 == part.k
  let s := s.setPart p { part with ports := part.ports ++ [(pathNo path, part.k, c.val, x)] }
  if same.length < 2 then s
  else
    let top := same.foldl (fun (b : Nat × Src) h => if b.1 < h.2.2.1 then (h.2.2.1, h.2.2.2) else b) (c.val, x)
    s.lateFault (Fin.ofNat 96 top.1) top.2 ⟨0x07, 56, 0, 1⟩

/-- A beat leaves core c in the current tick, on a path to a core; it arrives physically its least land later, in cycles (R33,
R37, R290, R295). -/
def State.sendBeat (s : State) (c : Fin 96) (x : Src) (path : Path) (dst : Nat) (b : LinkBeat) : State :=
  let p := s.partOf c
  let part := s.part p
  let at_ := part.base
  match path with
  | .mesh =>
    let s := s.schedule (at_ + (leastLand c path dst).getD 8 - 1) (.landingBufferArrival (Fin.ofNat 96 dst) b)
    let route := meshRoute (dieOf c) (placeX dst) (placeY dst) 8 (placeX c) (placeY c)
    if route.isEmpty then s
    else
      let m : MeshBeat := ⟨c, x, route, part.k + 4, dst, b.due, b.index⟩
      s.setPart p { s.part p with mesh := m :: (s.part p).mesh }
  | .die => s.schedule (at_ + 63) (.landingBufferArrival (Fin.ofNat 96 dst) b)
  | _ => (s.torusPort c x path).emit (.torusBeat c path b)

/-- The phase tick of the timetable at which a word issues (R11). -/
def sendTick (c : Fin 96) (x : Src) : Nat := x.tick + stagger c

/-- A beat of `x.send` from AB. -/
def State.readSend (s : State) (x : Src) (addr n : Nat) (path : Path) (peer land rows rbytes j : Nat) (tag : BitVec 16) (on : Bool) :
    State :=
  let c := s.slot.core
  let b : LinkBeat := {
    due := sendTick c x + land + j, path := oppositePath path, peer := c, rows := rows, rbytes := rbytes, index := j
    data := if on then (s.core c).bufRead .ab addr n else [], empty := !on, tag := tag, bad := false }
  s.sendBeat c x path peer b

/-- The remaining beats of an entry that `x.send` takes from a ring. -/
def sendDues (addr n now : Nat) (path : Path) (peer land rows rbytes j0 : Nat) (tag : BitVec 16) (on : Bool) :
    Nat → List (Nat × Nat × Act)
  | 0 => []
  | i + 1 =>
    let lo := 256 * (i + 1)
    let m := min 256 (n - lo)
    sendDues addr n now path peer land rows rbytes j0 tag on i ++
      [(now + i + 1, 1, .land [.banks .X (bufBanks .ab (addr + lo) m)]),
        (now + i + 1, 3, .read (.send (addr + lo) m path peer land rows rbytes (j0 + i + 1) tag on))]

/-- The first beat of a row of `x.send` from a ring: the entry is popped (R224). -/
def State.readSendRing (s : State) (p : Pend) (q : Fin 32) (path : Path) (peer land rows rbytes j : Nat) (tag : BitVec 16)
    (on : Bool) : State :=
  let c := s.slot.core
  let co := s.core c
  let r := co.regs.ring q
  if r.count = 0 then s.emptyRing p q
  else
    let addr := r.addr r.head
    let co := co.due p.src (p.tick + 1) 0 (.land [.popped q 1])
    let co := co.duesAt p.src (sendDues addr rbytes p.tick path peer land rows rbytes j tag on (cdiv rbytes 256 - 1))
    let t := (s.setCore c co).claimNow c p.src (bufBanks .ab addr (min 256 rbytes))
    if (t.core c).halted && !(s.core c).halted then t
    else t.readSend p.src addr (min 256 rbytes) path peer land rows rbytes j tag on

/-! ### X_SEND -/

/-- X_NOP (R62). -/
def execXNop (_w : Fin 16) (_idle : Fin 1048576) (s : State) : Result := .next (s.issue {})

/-- A land below the least land of the path: nothing is sent (R224). -/
def State.leastDev (s : State) (path : Path) (peer land more : Nat) : Option (Trap × Bool) :=
  if land < (leastLand s.slot.core path peer).getD 0 + more then some (⟨0x09, linkDetail 3 (pathNo path) peer, 0, 0⟩, false) else none

/-- X_SEND (R224): off, it sends empty beats. -/
def execXSend (fr : Frame) (path : Path) (src : CopySrc) (desc : Fin 2048) (land : Fin 8192) (s : State) : Result :=
  let c := s.core s.slot.core
  let de := c.desc desc
  let d := de.getD Desc.none
  let rs := range' 0 (d.rows + 1)
  let bs := beatsOf (d.rows + 1) d.rbytes 256
  let dev := [s.xSlotDev 54 (bs.map (·.j)), s.leastDev path d.peer land.val 0]
  match src with
  | .ab x =>
    let ea := c.regs.ea x
    let reads := bs.map fun k => (k.j, bufBanks .ab (d.ba ea k.row + k.lo) k.n)
    let job (on : Bool) : List Due := bs.map fun k =>
      (k.j, 3, .read (.send (d.ba ea k.row + k.lo) k.n path d.peer land.val d.rows d.rbytes k.j 0 on))
    .next (s.issue {
      pred := fr.pred
      dec := firstOf [descTrap desc de fun d => d.fits [.bstride, .peer, .rows, .rbytes], s.pathTrap path d.peer]
      span := land.val + bs.length - 1
      dev := firstOf dev
      banks := match reads with | r :: _ => 54 :: r.2 | [] => []
      books := s.incs x ++ xSlots reads
      off := job false
      on := guardAll ((rs.map fun r => bufAlign .ab d.rbytes (d.ba ea r)) ++ (rs.map fun r => bufRange .ab d.rbytes (d.ba ea r)))
        (job true) })
  | .ring q =>
    let k := cdiv d.rbytes 256
    let tag := (c.regs.ring q).rtag
    let job (on : Bool) : List Due := rs.map fun r =>
      (r * k, 3, .read (.sendRing q path d.peer land.val d.rows d.rbytes (r * k) tag on))
    .next (s.issue {
      pred := fr.pred
      dec := firstOf [descTrap desc de fun d => d.fits [.peer, .rows, .rbytes], s.pathTrap path d.peer,
        c.regs.ringCheck q fun g => g.buf == 1 && g.ebytes == d.rbytes]
      span := land.val + bs.length - 1
      dev := firstOf (c.regs.popDev q 1 :: dev)
      banks := [54]
      books := xSlots (bs.map fun e => (e.j, []))
      off := job false
      on := .ok (job true) })

/-! ### Arrivals -/

/-- The link entry of the sediment record (kind 0x06, R381): a torus port, or 0x10 + die. -/
def State.sedLink (s : State) (port event count : Nat) : State :=
  s.sediment 0x06 0xFF 0xFF false ([BitVec.ofNat 8 port, BitVec.ofNat 8 event, 0, 0] ++ leBytes 4 count)

/-- A link block that core c receives on a path could not be corrected: the entry, and the count of a torus port (R229, R381). On
a die's mesh there is no link. -/
def State.countBad (s : State) (c : Nat) (path : Path) : State :=
  match path with
  | .mesh => s
  | .die => s.sedLink (0x10 + c / 12) 1 1
  | _ =>
    let i := Fin.ofNat 6 (pathNo path - 2)
    ({ s with mod := { s.mod with linkBad := s.mod.linkBad.set i (s.mod.linkBad[i] + 1) } }).sedLink i.val 1 1

/-- LANDING_BUFFER_ARRIVAL (R37, R292): the beat waits in the landing buffer of its core; a block that could not be
corrected is poisoned and marks the phase for replay (R224, R312). -/
def execLandingBufferArrival (core : Fin 96) (beat : LinkBeat) (s : State) : Result :=
  let co := s.core core
  let b := if beat.bad then { beat with data := List.replicate beat.data.length none } else beat
  let s := s.setCore core { co with arrivals := co.arrivals ++ [(false, b)] }
  let s := if beat.bad then s.countBad core.val beat.path else s
  let p := s.partOf core
  let part := s.part p
  if beat.bad then .next (s.setPart p { part with job := part.job.map fun j => { j with marked := true } }) else .next s

/-- Whether an arrival is the beat j of the transfer due at D on a path from a peer. -/
def isBeat (d : Nat) (path : Path) (peer j : Nat) (a : Bool × LinkBeat) : Bool :=
  a.2.due == d + j && a.2.path == path && a.2.peer == peer && a.2.index == j

/-- The first beat of the transfer that a receiving word takes up. -/
def Core.firstBeat (c : Core) (d : Nat) (path : Path) (peer : Nat) : Option LinkBeat :=
  (c.arrivals.find? fun a => !a.1 && isBeat d path peer 0 a).map Prod.snd

/-- The match of a receiving word (R224): an arrival due at its tick, from its peer, of its size. -/
def State.matchDev (s : State) (path : Path) (d : Desc) : Option (Trap × Bool) :=
  let c := s.slot.core
  match (s.core c).firstBeat (sendTick c s.src) path d.peer with
  | none => some (⟨0x09, linkDetail 1 (pathNo path) d.peer, 0, 0⟩, false)
  | some b =>
    if b.rows = d.rows ∧ b.rbytes = d.rbytes then none else some (⟨0x09, linkDetail 2 (pathNo path) d.peer, 0, 0⟩, false)

/-- The transfer's first beat counts as taken up. -/
def State.takeUp (s : State) (path : Path) (peer : Nat) : State :=
  let c := s.slot.core
  let co := s.core c
  let d := sendTick c s.src
  s.setCore c { co with arrivals := co.arrivals.map fun a => if isBeat d path peer 0 a then (true, a.2) else a }

/-- A receiving word of nb beats: path and descriptor, decode checks, offset of its last landing, address register, bank
uses beyond the receive slots, and for every beat what is done with it, on or off. Where what arrives is empty beats the word
writes nothing, and makes no data check (assumption 124). -/
def State.receive (s : State) (fr : Frame) (path : Path) (d : Desc) (dec : List (Option Trap)) (dev : List (Option (Trap × Bool)))
    (span : Nat) (inc : List Due) (banks : List (Nat × List Nat)) (data : List (Option Trap)) (jobs : List (Nat × Nat × RecvJob)) :
    Result :=
  let c := s.slot.core
  let nb := (d.rows + 1) * cdiv d.rbytes 256
  let dT := sendTick c s.src
  let due (on : Bool) : List Due := jobs.map fun (j : Nat × Nat × RecvJob) => (j.1, j.2.1, .link dT path d.peer j.1 j.2.2 on)
  let slots := (range' 1 (nb - 1)).flatMap fun o => banksAt o .X [566]
  let at0 := (banks.filter fun b => b.1 == 0).flatMap Prod.snd
  let empty := match (s.core c).firstBeat dT path d.peer with
    | some b => b.empty
    | none => false
  let slotDev := if !(s.core c).regs.ctl.elastic && (s.core c).slotTaken .X 566 s.slot.tick nb then some (⟨0x07, 54, 0, 0⟩, false) else none
  let plan : Plan := {
    pred := fr.pred
    dec := firstOf dec
    span := span
    dev := firstOf (s.matchDev path d :: slotDev :: dev)
    banks := (566 :: at0).eraseDups
    books := inc ++ slots ++ (banks.filter fun b => b.1 != 0).flatMap fun b => banksAt b.1 .X b.2
    off := due false
    on := if empty then .ok (due true) else guardAll data (due true) }
  let t := s.issue plan
  .next (if (t.core c).halted || (t.core c).stalled.isSome then t else t.takeUp path d.peer)

/-- X_RECV (R223, R224). -/
def execXRecv (fr : Frame) (path : Path) (dst : RecvDst) (desc : Fin 2048) (s : State) : Result :=
  let c := s.core s.slot.core
  let de := c.desc desc
  let d := de.getD Desc.none
  let rs := range' 0 (d.rows + 1)
  let bs := beatsOf (d.rows + 1) d.rbytes 256
  let nb := bs.length
  let toBuf (b : Buf) (x : BufAddr) : Result :=
    let ea := c.regs.ea x
    s.receive fr path d [descTrap desc de fun d => d.fits [.bstride, .peer, .rows, .rbytes], s.pathTrap path d.peer] [] (nb - 1)
      (s.incs x) (bs.map fun k => (k.j, bufBanks b (d.ba ea k.row + k.lo) k.n))
      ((rs.map fun r => bufAlign b d.rbytes (d.ba ea r)) ++ (rs.map fun r => bufRange b d.rbytes (d.ba ea r)))
      (bs.map fun k =>
        let a := d.ba ea k.row + k.lo
        (k.j, 1, match b with
          | .wb => RecvJob.wb a (min k.lo (a % 72))
          | _ => .ab a))
  match dst with
  | .ab x => toBuf .ab x
  | .wb x => toBuf .wb x
  | .ring q =>
    let g := c.regs.ring q
    let b := g.buffer.getD .ab
    let k := cdiv d.rbytes 256
    let tag := match c.firstBeat (sendTick s.slot.core s.src) path d.peer with
      | some a => a.tag
      | none => 0
    s.receive fr path d
      [descTrap desc de fun d => d.fits [.peer, .rows, .rbytes], s.pathTrap path d.peer,
        c.regs.ringCheck q fun g => (g.buf == 1 || g.buf == 2) && g.ebytes == d.rbytes] [] (nb - 1) []
      (bs.map fun e => (e.j, bufBanks b (c.pushAddr q (s.slot.tick + e.j) e.row + e.lo) e.n))
      [c.tagCheck q tag (s.slot.tick + k - 1)]
      (bs.map fun e => (e.j, 1, if e.lo + e.n = d.rbytes then RecvJob.ring q k else .wait))

/-- X_RED (R226): it reads at D + j and writes at D + j + 2. -/
def execXRed (fr : Frame) (path : Path) (op : RedOp) (x : BufAddr) (desc : Fin 2048) (s : State) : Result :=
  let c := s.core s.slot.core
  let de := c.desc desc
  let d := de.getD Desc.none
  let ea := c.regs.ea x
  let rs := range' 0 (d.rows + 1)
  let bs := beatsOf (d.rows + 1) d.rbytes 256
  let use (k : RowBeat) := bufBanks .ab (d.ba ea k.row + k.lo) k.n
  s.receive fr path d
    [descTrap desc de fun d => d.fits [.bstride, .peer, .rows, .rbytes, .par] && decide (d.par ≤ 1), s.pathTrap path d.peer] []
    (bs.length + 1) (s.incs x) (bs.map (fun k => (k.j, use k)) ++ bs.map fun k => (k.j + 2, use k))
    ((rs.map fun r => bufAlign .ab d.rbytes (d.ba ea r)) ++ (rs.map fun r => bufRange .ab d.rbytes (d.ba ea r)))
    (bs.map fun k => (k.j, 3, .red op (d.ba ea k.row + k.lo) (d.par == 1) c.regs.ctl.round))

/-- X_FWD (R225): what arrives on the path that conv names leaves a tick later on the word's own path, and its last beat is
delivered land ticks after it came (R46). -/
def execXFwd (fr : Frame) (path : Path) (desc : Fin 2048) (land : Fin 8192) (s : State) : Result :=
  let c := s.core s.slot.core
  let de := c.desc desc
  let d := de.getD Desc.none
  let inPath := (pathOf d.conv).getD .mesh
  let bs := beatsOf (d.rows + 1) d.rbytes 256
  s.receive fr inPath d
    [descTrap desc de fun d => d.fits [.aux, .conv, .peer, .rows, .rbytes] && decide (d.conv < 8) && decide (d.aux < 256),
      s.pathTrap inPath d.peer, s.pathTrap path d.aux]
    [s.xSlotDev 54 (bs.map fun k => k.j + 1), s.leastDev path d.aux land.val 1] (land.val + bs.length - 1) []
    (bs.map fun k => (k.j + 1, [54])) [] (bs.map fun k => (k.j, 1, .fwd path d.aux land.val))

/-! ### Deliveries -/

/-- The combination of `x.red` on left and right (R226). -/
def redElem (op : RedOp) (md : RMode) (ftz : Bool) (l r : Nat) : Nat × Flags :=
  match op with
  | .addF32 => FFmt.f32.add md ftz l r
  | .addF64 => FFmt.f64.add md ftz l r
  | .addBf16 => FFmt.bf16.add md ftz l r
  | .addS32 => ((l + r) % 2 ^ 32, 0)
  | .addS64 => ((l + r) % 2 ^ 64, 0)
  | .maxF32 => FFmt.f32.maximum false l r
  | .minF32 => FFmt.f32.minimum false l r

/-- Bytes of an element of a reduction. -/
def redSize : RedOp → Nat
  | .addF64 | .addS64 => 8
  | .addBf16 => 2
  | _ => 4

/-- The beats of a row up to beat j, in order; none where one has not come. -/
def Core.rowArrivals (c : Core) (d : Nat) (path : Path) (peer j : Nat) : Nat → Option (List LinkBeat)
  | 0 => some []
  | n + 1 =>
    match c.arrivals.find? (isBeat d path peer (j - n)), Core.rowArrivals c d path peer j n with
    | some a, some r => some (a.2 :: r)
    | _, _ => none

/-- Beats of a transfer leave the landing buffer. -/
def Core.dropArrivals (c : Core) (d : Nat) (path : Path) (peer lo hi : Nat) : Core :=
  { c with arrivals := c.arrivals.filter fun a => !(decide (lo ≤ a.2.index ∧ a.2.index ≤ hi) && isBeat d path peer a.2.index a) }

/-- What a delivery does with its beat. -/
def State.deliver (s : State) (x : Pend) (path : Path) (d peer j : Nat) (r : RecvJob) (on : Bool) (b : LinkBeat) : State :=
  let c := s.slot.core
  let co := s.core c
  let writes := on && !b.empty
  let gone := s.setCore c (co.dropArrivals d path peer j j)
  match r with
  | .ab a => if writes then gone.landEffects c x.src x [.store .ab (place a b.data)] else gone
  | .wb a before =>
    if writes then gone.landEffects c x.src x [.store .wb (place (a - before) (co.bufRead .wb (a - before) before ++ b.data))] else gone
  | .wait => s
  | .ring q n =>
    (match co.rowArrivals d path peer j n with
      | none => s
      | some bs =>
        let entry := if writes then some (bs.flatMap (·.data)) else none
        (s.setCore c (co.dropArrivals d path peer (j + 1 - n) j)).landEffects c x.src x [.push q entry b.tag])
  | .red op a localLeft rnd =>
    if writes then
      let own := co.bufRead .ab a b.data.length
      let z := redSize op
      let f := redElem op (modeOfCtl rnd.toNat) s.ftzV
      let (out, fl) := if localLeft then combineBytes z f (b.data.length / z) own b.data else combineBytes z f (b.data.length / z) b.data own
      let g := gone.core c
      let g := g.due x.src (x.tick + 2) 1 (.land [.store .ab (place a out)])
      gone.setCore c (if fl = 0 then g else g.due x.src (x.tick + 2) 2 (.land [.orFlags fl]))
    else gone
  | .fwd out core land =>
    let empty := b.empty || !on
    let n : LinkBeat := {
      due := d + land + j, path := oppositePath out, peer := c, rows := b.rows, rbytes := b.rbytes, index := j
      data := if empty then [] else b.data, empty := empty, tag := b.tag, bad := false }
    gone.setCore c ((gone.core c).due x.src (x.tick + 1) 3 (.read (.leave out core n)))

/-- LINK_BEAT_DELIVERY (R224): beat j of a transfer lands at D + j; one that has not come by then is a deviation. -/
def execLinkBeatDelivery (s : State) : Result :=
  match s.takeItem with
  | some (p, t) =>
    (match p.act with
    | .link d path peer j r on =>
      let c := t.slot.core
      (match (t.core c).arrivals.find? (isBeat d path peer j) with
        | some a => .next (t.deliver p path d peer j r on a.2)
        | none =>
          let kind := if path.isTorus then 7 else 1
          .next (t.lateFault c p.src ⟨0x09, linkDetail kind (pathNo path) peer, 0, 1⟩))
    | _ => .next s)
  | none => .next s

/-! ### X_ALIGN -/

/-- X_ALIGN (R229): a beat goes to the neighbour, through its port as every beat does (R291), and the record is due 352 ticks
later. The alignment of ea(aN) is a decode check (R64). -/
def execXAlign (fr : Frame) (path : Path) (x : BufAddr) (s : State) : Result :=
  let c := s.core s.slot.core
  let ea := c.regs.ea x
  let plan : Plan := {
    pred := fr.pred
    dec := firstOf [failIf (!s.sysPhase (s.partOf s.slot.core)) ⟨0x01, 0, 0, 0⟩, bufAlign .ab 64 ea]
    span := 352
    dev := s.xSlotDev 54 [0]
    banks := [54]
    books := s.incs x ++ banksAt 352 .X (bufBanks .ab ea 64)
    on := guardAll [bufRange .ab 64 ea] [(352, 1, .land [.alignCheck path ea])] }
  .next (s.issueThen plan fun t => (t.torusPort t.slot.core t.src path).emit (.alignBeat t.slot.core path))

end Sys2Proof.Machine
end

