-- ==== Sys2Proof/Machine/Grammar.lean ====
section
/-! DEFINITION. The grammar engine (R230 to R245): images, contexts, the node pool, its words, and the release pass. -/

namespace Sys2Proof.Machine

/-! ### Records of contexts (R234) -/

/-- The context that a record describes. -/
def ctxOfRecord (bs : List Byte) : GCtx :=
  let f (lo n : Nat) := leNat (slice bs lo n)
  let fl := f 7 1
  { image := f 0 7, bound := fl % 2 == 1, dead := fl / 2 % 2 == 1, mark := fl / 4 % 2 == 1, state := f 8 2, top := f 10 2
    depth := f 12 2, mstate := f 14 2, mtop := f 16 2, mdepth := f 18 2, steps := f 20 2, vcode := f 22 2, dmax := f 24 2
    pmax := f 26 1, umax := f 27 1, check := f 30 2 }

/-! ### The free list and references (R233, R235) -/

/-- Nodes from the head of the free list, in list order. -/
def GM.peekNodes (g : GM) : Nat → Nat → List Nat
  | 0, _ => []
  | k + 1, n => n :: GM.peekNodes g k (g.node n % 0x4000)

/-- k nodes leave the head of the free list. -/
def GM.takeNodes (g : GM) : Nat → GM
  | 0 => g
  | k + 1 => GM.takeNodes { g with head := g.node g.head % 0x4000, free := g.free - 1 } k

/-- References are added at once. -/
def GM.refAll (g : GM) (ns : List Nat) : GM := ns.foldl (fun (g : GM) n => g.setCount n (g.count n + 1)) g

/-- The check of Refs and Drops (R235): a count above 0xFFFF, or a full queue, traps with code 0x30. -/
def GM.refTrap (g : GM) (refs drops : List Nat) : Option Trap :=
  failIf (refs.any (fun n => decide (g.count n + (refs.filter (· == n)).length > 0xFFFF))
    || decide (4096 < g.queue.length + drops.length)) ⟨0x30, g.poolDetail, 0, 0⟩

/-- A pointer as a reference, if it is not the empty one. -/
def ptrRef (p : Nat) : List Nat := if isEmptyPtr p then [] else [p]

/-- The parent of a pointer's node. -/
def GM.parent (g : GM) (p : Nat) : Nat :=
  if isEmptyPtr p then 0x4000 else (if isEmptyPtr (g.node p) then 0x4000 else g.node p % 0x4000)

/-- The pointer p parent links down. -/
def GM.popPtr (g : GM) : Nat → Nat → Nat
  | 0, p => p
  | k + 1, p => GM.popPtr g k (g.parent p)

/-- The top n symbols of a stack. -/
def GM.symbols (g : GM) : Nat → Nat → List Nat
  | 0, _ => []
  | k + 1, p => if isEmptyPtr p then [] else g.node p / 65536 :: GM.symbols g k (g.parent p)

/-- The nodes that a pointer reaches within n links. -/
def GM.chain (g : GM) : Nat → Nat → List Nat
  | 0, _ => []
  | k + 1, p => if isEmptyPtr p then [] else p :: GM.chain g k (g.parent p)

/-- The nodes of a step are written (R240). -/
def GM.build (g : GM) : List (Nat × Nat) → Nat → GM
  | [], _ => g
  | (n, z) :: rest, prev =>
    GM.build ((g.setNode n (z * 65536 + (if isEmptyPtr prev then 0x4000 else prev))).setCount n 1) rest n

/-- The release of one entry of the drop queue (R235): a node whose count reaches 0 is freed, and its parent dropped. -/
def GM.release (g : GM) : Nat → Nat → GM
  | 0, _ => g
  | fuel + 1, n =>
    if g.count n = 0 then g
    else if g.count n > 1 then g.setCount n (g.count n - 1)
    else
      let w := g.node n
      let g' := (g.setCount n 0).giveNode n
      if isEmptyPtr w then g' else GM.release g' fuel (w % 0x4000)

/-- The release pass of the slack window (R235). -/
def GM.releasePass (g : GM) : GM :=
  g.queue.foldl (fun (g : GM) n => g.release 16384 n)
    { g with queue := [], qhead := (g.qhead + g.queue.length) % 4096 }

/-! ### Poison (R21, R245) -/

/-- The tables of GM as granules of R21: contexts, nodes, counts, control. -/
def ctxGranule (n : Fin 64) : Nat := (0x18000 + 32 * n.val) / 64
def nodeGranule (n : Nat) : Nat := 4 * n / 64
def countGranule (n : Nat) : Nat := (0x10000 + 2 * n) / 64
def ctlGranule : Nat := 0x18800 / 64

/-- A poisoned GM word among those that a word meets (R245). -/
def GM.poison (g : GM) (grans : List Nat) : Option Trap :=
  (grans.find? fun a => setHas g.marks a).map fun a => ⟨0x18, 0, 64 * a, 1⟩

/-- The nodes that a word reads from a stack pointer down (R240, R241), as granules. -/
def GM.chainGranules (g : GM) (n top : Nat) : List Nat := (g.chain n top).map nodeGranule

/-! ### Images (R230, R231) -/

/-- The fields of an image header. -/
structure GHead where
  s : Nat
  v : Nat
  bound : Nat
  d : Nat
  start : Nat
  pmax : Nat
  umax : Nat
  stab : Nat
  atab : Nat
  len : Nat
  deriving DecidableEq, Repr

/-- Whether bytes of an image lie outside every R or RW region of the phase (R238). -/
def State.imageOut (s : State) (va n : Nat) : Bool := decide (2 ^ 52 ≤ va) || !((s.core s.slot.core).inRegion 0 va n .image)

/-- Bytes of an image as they stand at their homes at the issue tick: outside every R or RW region code 0x20, poisoned
code 0x18 (R238, R245). -/
def State.imageBytes (s : State) (va n : Nat) : Except Trap (List Byte) :=
  let c := s.slot.core
  if n = 0 then .ok []
  else if s.imageOut va n then .error ⟨0x20, 0, va, 1⟩
  else match s.pieces (s.partOf c) .image (n / 65536 + 2) va n with
    | .error _ => .error ⟨0x20, 0, va, 1⟩
    | .ok ps =>
      let bs := s.homeReads ps
      match bs.findIdx? (·.isNone) with
      | some i => .error ⟨0x18, 0, (va + i) / 64 * 64, 1⟩
      | none => .ok (bs.map fun b => b.getD 0)

/-- An image whose content breaks R230 or R231. -/
def badImage {α : Type} (base : Nat) : Except Trap α := .error ⟨0x31, 0, base, 1⟩

/-- The header at a base address, with its limits (R230). -/
def State.imageHead (s : State) (base : Nat) : Except Trap GHead :=
  match s.imageBytes base 64 with
  | .error t => .error t
  | .ok bs =>
    let f (lo n : Nat) := leNat (slice bs lo n)
    let h : GHead := ⟨f 8 4, f 12 4, f 16 2, f 18 2, f 20 2, f 22 1, f 23 1, f 24 8, f 32 8, f 40 8⟩
    if f 0 4 = 0x47524131 ∧ f 4 2 = 1 ∧ f 6 2 = 0 ∧ f 48 12 = 0 ∧ 1 ≤ h.s ∧ h.s ≤ 65536 ∧ h.v % 512 = 0 ∧ 512 ≤ h.v
        ∧ h.v ≤ 262144 ∧ 1 ≤ h.bound ∧ h.bound ≤ 4096 ∧ h.d ≤ 4096 ∧ h.start < h.s ∧ h.pmax ≤ 15 ∧ h.umax ≤ 6
        ∧ h.stab % 64 = 0 ∧ h.atab % 64 = 0 ∧ h.len % 64 = 0 ∧ crc32c (bs.take 60) = f 60 4
    then .ok h else badImage base

/-- Bytes at an offset: outside every region code 0x20, and inside one but beyond the image code 0x31 (R238, R245). -/
def State.imageAt (s : State) (base : Nat) (h : GHead) (off n : Nat) : Except Trap (List Byte) :=
  if n ≠ 0 ∧ s.imageOut (base + off) n then .error ⟨0x20, 0, base + off, 1⟩
  else if off + n > h.len then badImage base
  else s.imageBytes (base + off) n

/-- A state record: bitmap, rank table, dependent list and its count. -/
def State.stateRec (s : State) (base : Nat) (h : GHead) (st : Nat) : Except Trap (Nat × Nat × Nat × Nat) :=
  if h.s ≤ st then badImage base
  else match s.imageAt base h (h.stab + 32 * st) 32 with
    | .error t => .error t
    | .ok bs =>
      let f (lo n : Nat) := leNat (slice bs lo n)
      if f 0 8 % 64 ≠ 0 ∨ f 16 8 % 16 ≠ 0 ∨ h.d < f 24 2 ∨ f 26 6 ≠ 0 then badImage base
      else .ok (f 0 8, f 8 8, f 16 8, f 24 2)

/-- A dependent entry: token, checks, symbols, action index. -/
structure Dep where
  tok : Nat
  n : Nat
  ys : List Nat
  act : Nat
  deriving DecidableEq, Repr

/-- The entries of a dependent list; a token id of V or more, and a check count outside 1 to 4, make the image invalid. -/
def State.deps (s : State) (base : Nat) (h : GHead) (off count : Nat) : Except Trap (List Dep) :=
  match s.imageAt base h off (16 * count) with
  | .error t => .error t
  | .ok bs =>
    let es := (chunks 16 count bs).map fun (e : List Byte) =>
      let f (lo n : Nat) := leNat (slice e lo n)
      (⟨f 0 3, f 3 1, [f 4 2, f 6 2, f 8 2, f 10 2], f 12 4⟩ : Dep)
    if es.any fun e => decide (h.v ≤ e.tok) || e.n == 0 || decide (4 < e.n) then badImage base else .ok es

/-- Whether an entry's checks pass against a stack (R231). -/
def Dep.passes (e : Dep) (g : GM) (top : Nat) : Bool := g.symbols e.n top == e.ys.take e.n

/-- One bits of bytes below bit k. -/
def rankOf (bs : List Byte) (k : Nat) : Nat :=
  ((bs.take (k / 8)).map fun b => popCount 8 b.toNat).sum + popCount (k % 8) ((bs.getD (k / 8) 0).toNat % 2 ^ (k % 8))

/-- The action index of a token in a state; none where it is not allowed (R231). A dependent token whose bit is set in the
context-independent bitmap makes the image invalid (assumption 105). -/
def State.actionOf (s : State) (g : GM) (base : Nat) (h : GHead) (x : GCtx) (tok : Nat) : Except Trap (Option Nat) :=
  match s.stateRec base h x.state with
  | .error t => .error t
  | .ok (bmo, rko, dlo, dc) =>
    match s.imageAt base h bmo (tok / 8 + 1) with
    | .error t => .error t
    | .ok bm =>
      if (bm.getD (tok / 8) 0).getLsbD (tok % 8) then
        if (match s.deps base h dlo dc with | .ok es => es.any fun e => e.tok == tok | .error _ => false) then badImage base
        else match s.imageAt base h (rko + 4 * rankOf bm tok) 4 with
        | .error t => .error t
        | .ok r => .ok (some (leNat r))
      else match s.deps base h dlo dc with
        | .error t => .error t
        | .ok es =>
          match es.find? fun e => e.tok == tok with
          | some e => (match g.poison (g.chainGranules e.n x.top) with
            | some t => .error t
            | none => .ok (if e.passes g x.top then some e.act else none))
          | none => .ok none

/-- The entries that decide a token: the first of each token. -/
def firstDeps : List Nat → List Dep → List Dep
  | _, [] => []
  | seen, e :: es => if seen.contains e.tok then firstDeps seen es else e :: firstDeps (e.tok :: seen) es

/-- One bit of a bitmap set. -/
def setBit (bm : List Byte) (k : Nat) : List Byte := bm.set (k / 8) ((bm.getD (k / 8) 0) ||| BitVec.ofNat 8 (2 ^ (k % 8)))

/-- The allowed-token bitmap of a context (R241). -/
def State.allowedMap (s : State) (g : GM) (x : GCtx) : Except Trap (List Byte) :=
  match s.imageHead x.image with
  | .error t => .error t
  | .ok h =>
    match s.stateRec x.image h x.state with
    | .error t => .error t
    | .ok (bmo, _, dlo, dc) =>
      match s.imageAt x.image h bmo (h.v / 8), s.deps x.image h dlo dc with
      | .error t, _ => .error t
      | _, .error t => .error t
      | .ok bm, .ok es =>
        if es.any fun e => (bm.getD (e.tok / 8) 0).getLsbD (e.tok % 8) then badImage x.image
        else match g.poison (g.chainGranules ((es.map (·.n)).foldl max 0) x.top) with
          | some t => .error t
          | none => .ok (((firstDeps [] es).filter fun e => e.passes g x.top).foldl (fun bm e => setBit bm e.tok) bm)

/-! ### What the words share -/

/-- An unbound context where a bound one is needed (R238). -/
def GM.unbound (g : GM) (n : Fin 64) : Option Trap := failIf (!(g.ctx[n]).bound) ⟨0x03, 0x500 + n.val, 0, 0⟩

/-- The hold of the image port from t to t + L − 1 (R238). -/
def holdDues (lat : Nat) : List Due := (range' 1 (lat - 1)).flatMap fun o => banksAt o .G [51]

/-- A hold counts 8 granules a tick against the stack of its image (R288), whether or not the word is on. -/
def State.holdBeats (s : State) (image lat : Nat) : State :=
  let c := s.slot.core
  let p := s.partOf c
  if (s.core c).halted ∨ (s.core c).stalled.isSome then s
  else match s.translate p image with
    | .ok e => (match e.at' image with
      | .hbm pa =>
        let part := s.part p
        let seq := (s.core c).seq
        s.setPart p { part with beats := part.beats ++ (range' 0 lat).map fun o =>
          (⟨stackOf pa, part.k + o, c, s.src, seq, 8, 0, 0, s.slot.tick + o, false, true⟩ : Beat) }
      | _ => s)
    | .fail _ _ _ => s

/-- The GM of the core of the slot replaced. -/
def State.setGM (s : State) (g : GM) : State :=
  let c := s.slot.core
  s.setCore c { s.core c with gm := g }

/-- A context word: its checks; the references and drops it makes at its issue tick; and its update, which lands after
`lat` ticks (R235, R242). -/
def State.ctxWord (s : State) (fr : Frame) (dec : List (Option Trap)) (refs drops : List Nat) (lat : Nat) (es : List Effect) : Result :=
  let g := (s.core s.slot.core).gm
  .next (s.issueThen {
    pred := fr.pred
    dec := firstOf dec
    on := guardAll [g.refTrap refs drops] (if es.isEmpty then [] else [landAt lat es]) }
    fun t => t.setGM ((g.refAll refs).dropAll drops))

/-! ### The words -/

/-- G_NOP (R62). -/
def execGNop (_w : Fin 16) (_idle : Fin 1048576) (s : State) : Result := .next (s.issue {})

/-- Whether an image lies in HBM of the core's own quarter, inside a region (R230, R239). -/
def State.imageExtent (s : State) (base len : Nat) : Bool :=
  let c := s.slot.core
  (s.core c).inRegion 0 base len .image && (match s.pieces (s.partOf c) .image (len / 65536 + 2) base len with
    | .ok ps => ps.all fun p => (match p.1 with
      | .hbm pa => stackOf pa / 3 == quarterOf c
      | _ => false)
    | .error _ => false)

/-- G_BIND (R239). -/
def execGBind (fr : Frame) (c : Fin 64) (sc : Fin 32) (s : State) : Result :=
  let co := s.core s.slot.core
  let v := s.regs.getS sc
  let base := (v.getD 0).toNat
  let late : Except Trap Effect :=
    match co.gm.poison [ctxGranule c] with
    | some t => Except.error t
    | none =>
      match s.imageHead base with
      | .error t => Except.error t
      | .ok h =>
        if s.imageExtent base h.len then
          .ok (.ctx c (.bind { GCtx.reset with
            image := base, bound := true, state := h.start, vcode := h.v / 512 - 1, dmax := h.d, pmax := h.pmax, umax := h.umax }))
        else badImage base
  let e := match late with
    | .ok e => e
    | .error t => .raise t.code t.detail t.addr
  .next ((s.issue {
    pred := fr.pred
    banks := [51]
    books := holdDues 64
    on := guardAll [needS v, failIf (base % 4096 != 0) ⟨0x02, 0, base, 0⟩,
      failIf (decide (2 ^ 52 ≤ base) || !(co.inRegion 0 base 64 .image)) ⟨0x20, 0, base, 0⟩] [landAt 64 [e]] }).holdBeats base 64)

/-- What a step comes to: the update, the nodes it builds on a base pointer, and its references and drops. -/
structure StepPlan where
  upd : Option CtxUpd
  base : Nat
  nodes : List (Nat × Nat)
  refs : List Nat
  drops : List Nat
  deriving DecidableEq, Repr

/-- The step of a context by a token (R240), on nodes reserved. -/
def State.stepPlan (s : State) (g : GM) (c : Fin 64) (x : GCtx) (tok : Nat) (res : List Nat) : Except Trap StepPlan :=
  match g.poison (ctxGranule c :: ctlGranule :: res.map nodeGranule) with
    | some t => .error t
    | none =>
      if x.dead then .ok ⟨none, 0, [], [], []⟩
      else if (x.vcode + 1) * 512 ≤ tok then .ok ⟨some .dead, 0, [], [], []⟩
      else match s.imageHead x.image with
        | .error t => .error t
        | .ok h =>
          match s.actionOf g x.image h x tok with
          | .error t => .error t
          | .ok none => .ok ⟨some .dead, 0, [], [], []⟩
          | .ok (some k) =>
            match s.imageAt x.image h (h.atab + 16 * k) 16 with
            | .error t => .error t
            | .ok a =>
              let f (lo n : Nat) := leNat (slice a lo n)
              let p := f 2 1
              let u := f 3 1
              if x.pmax < p ∨ x.umax < u ∨ x.depth < p ∨ h.bound < x.depth - p + u ∨ h.s ≤ f 0 2 then badImage x.image
              else
                let base := g.popPtr p x.top
                let nodes := List.zip (res.take u) ((range' 0 u).map fun j => f (4 + 2 * j) 2)
                let top := match nodes.getLast? with
                  | some n => n.1
                  | none => base
                match g.poison (g.chainGranules p x.top ++ (ptrRef base ++ res.take u).map countGranule) with
                | some t => .error t
                | none =>
                  .ok ⟨some (.step (f 0 2) top (x.depth - p + u) (min (x.steps + 1) 0xFFFF)), base, nodes, ptrRef base, ptrRef x.top⟩

/-- The token of a step: its address where it comes from AB, with the traps of decode and of data. -/
def Core.token (c : Core) (src : TokSrc) : Option Nat × Option Nat :=
  match src with
  | .ab x => (some (c.regs.ea x), leNat? (c.bufRead .ab (c.regs.ea x) 4))
  | .reg a => (none, (c.regs.getS a).map fun v => v.toNat % 2 ^ 32)

/-- G_STEP (R240). -/
def execGStep (fr : Frame) (c : Fin 64) (src : TokSrc) (ls : Fin 8192) (s : State) : Result :=
  let co := s.core s.slot.core
  let g := co.gm
  let x := g.ctx[c]
  let (addr, tok) := co.token src
  let res := g.peekNodes x.umax g.head
  let plan := s.stepPlan g c x (tok.getD 0) res
  let inc := match src with
    | .ab b => s.incs b
    | .reg _ => []
  let refs := match plan with | .ok p => p.refs | .error _ => []
  let drops := match plan with | .ok p => p.drops | .error _ => []
  let used := match plan with | .ok p => p.nodes.length | .error _ => 0
  let back := (res.drop used).mergeSort fun a b => decide (b ≤ a)
  let due : List Due := match plan with
    | .error t => [landAt ls.val [.raise t.code t.detail t.addr]]
    | .ok p => [landAt ls.val ((match p.upd with | some u => [Effect.ctx c u] | none => []) ++ [.nodesBack back])]
  let s1 := s.issueThen {
    pred := fr.pred
    dec := firstOf [addr.bind fun a => failIf (a % 4 != 0) ⟨0x02, 0, a, 0⟩, g.unbound c]
    banks := 51 :: (match addr with | some a => [a / 64 % 32] | none => [])
    books := inc ++ holdDues ls.val
    on := guardAll [addr.bind fun a => failIf (decide (Config.abBytes < a + 4)) ⟨0x20, 0, a, 0⟩,
      failIf tok.isNone ⟨0x18, 0, (addr.getD 0) / 64 * 64, 0⟩,
      failIf (!(co.inRegion 0 x.image 64 .image)) ⟨0x20, 0, x.image, 0⟩,
      failIf (decide (g.free < x.umax)) ⟨0x30, g.poolDetail, 0, 0⟩,
      failIf (decide (ls.val < 64 + x.pmax + x.umax)) ⟨0x31, 0, x.image, 0⟩,
      g.refTrap refs drops] due } fun t =>
        t.setGM (match plan with
          | .ok p => (((g.takeNodes x.umax).refAll p.refs).dropAll p.drops).build p.nodes p.base
          | .error _ => g.takeNodes x.umax)
  .next (s1.holdBeats x.image ls.val)

/-- G_MASK (R241). -/
def execGMask (fr : Frame) (c : Fin 64) (x : BufAddr) (v : Fin 512) (lm : Fin 8192) (s : State) : Result :=
  let co := s.core s.slot.core
  let g := co.gm
  let y := g.ctx[c]
  let a := co.regs.ea x
  let n := (v.val + 1) * 64
  let ng := cdiv n 256
  let groups := range' 0 ng
  let off (j : Nat) := lm.val + 1 + j - ng
  let bytes (j : Nat) := min 256 (n - 256 * j)
  let banks (j : Nat) := bufBanks .ab (a + 256 * j) (bytes j)
  let bm : Except Trap (List Byte) :=
    match g.poison [ctxGranule c] with
      | some t => .error t
      | none => if y.dead then .ok (List.replicate n 0) else s.allowedMap g y
  let due : List Due := match bm with
    | .error t => [landAt lm.val [.raise t.code t.detail t.addr]]
    | .ok bs => groups.map fun j => landAt (off j) [.store .ab (place (a + 256 * j) ((slice bs (256 * j) 256).map some))]
  .next ((s.issue {
    pred := fr.pred
    dec := firstOf [failIf (a % 64 != 0) ⟨0x02, 0, a, 0⟩, g.unbound c]
    banks := [51]
    books := s.incs x ++ holdDues lm.val ++ groups.flatMap fun j => banksAt (off j) .G (banks j)
    on := guardAll [failIf (decide (Config.abBytes < a + n)) ⟨0x20, 0, a, 0⟩,
      failIf (!(co.inRegion 0 y.image 64 .image)) ⟨0x20, 0, y.image, 0⟩,
      failIf (y.vcode != v.val || decide (lm.val < 64 + ng + cdiv y.dmax 4)) ⟨0x31, 0, y.image, 0⟩] due }).holdBeats y.image lm.val)

/-- G_FORK (R242). -/
def execGFork (fr : Frame) (e c : Fin 64) (s : State) : Result :=
  let g := (s.core s.slot.core).gm
  let x := g.ctx[c]
  let y := g.ctx[e]
  s.ctxWord fr [g.unbound c] x.ptrs (if y.bound then y.ptrs else []) 2 [.ctx e (.whole x)]

/-- G_MARK (R242). -/
def execGMark (fr : Frame) (c : Fin 64) (s : State) : Result :=
  let g := (s.core s.slot.core).gm
  let x := g.ctx[c]
  s.ctxWord fr [g.unbound c] (ptrRef x.top) (if x.mark then ptrRef x.mtop else []) 2 [.ctx c (.mark x.state x.top x.depth)]

/-- G_ROLLBACK (R242). -/
def execGRollback (fr : Frame) (c : Fin 64) (s : State) : Result :=
  let g := (s.core s.slot.core).gm
  let x := g.ctx[c]
  s.ctxWord fr [g.unbound c, failIf (!x.mark) ⟨0x03, 0x500 + c.val, 0, 0⟩] (ptrRef x.mtop) (ptrRef x.top) 2
    [.ctx c (.rollback x.mstate x.mtop x.mdepth)]

/-- G_COMMIT (R242). -/
def execGCommit (fr : Frame) (c : Fin 64) (s : State) : Result :=
  let g := (s.core s.slot.core).gm
  let x := g.ctx[c]
  s.ctxWord fr [g.unbound c] [] (if x.mark then ptrRef x.mtop else []) 2 [.ctx c .commit]

/-- G_FREE (R242): no effect on an unbound context. -/
def execGFree (fr : Frame) (c : Fin 64) (s : State) : Result :=
  let g := (s.core s.slot.core).gm
  let x := g.ctx[c]
  s.ctxWord fr [] [] (if x.bound then x.ptrs else []) 2 (if x.bound then [.ctx c (.whole GCtx.reset)] else [])

/-- A record word: its address and bank, and what it does. -/
def State.recordWord (s : State) (fr : Frame) (x : BufAddr) (dec data : List (Option Trap)) (bankAt : Nat) (refs drops : List Nat)
    (es : List Effect) : Result :=
  let co := s.core s.slot.core
  let a := co.regs.ea x
  .next (s.issueThen {
    pred := fr.pred
    dec := firstOf (failIf (a % 32 != 0) ⟨0x02, 0, a, 0⟩ :: dec)
    banks := if bankAt = 0 then [a / 64 % 32] else []
    books := s.incs x ++ (if bankAt = 0 then [] else banksAt bankAt .G [a / 64 % 32])
    on := guardAll (failIf (decide (Config.abBytes < a + 32)) ⟨0x20, 0, a, 0⟩ :: data ++ [co.gm.refTrap refs drops]) [landAt 4 es] }
    fun t => t.setGM ((co.gm.refAll refs).dropAll drops))

/-- G_SAVE (R243). A context that `.move` unbinds returns to its reset values (assumption 134). -/
def execGSave (fr : Frame) (c : Fin 64) (x : BufAddr) (move : Bool) (s : State) : Result :=
  let co := s.core s.slot.core
  let y := co.gm.ctx[c]
  let w : Effect := .store .ab (place (co.regs.ea x) ((y.record true).map some))
  s.recordWord fr x [co.gm.unbound c] [] 4 (if move then [] else y.ptrs) [] (w :: if move then [.ctx c (.whole GCtx.reset)] else [])

/-- G_RESTORE (R243). -/
def execGRestore (fr : Frame) (c : Fin 64) (x : BufAddr) (copy : Bool) (s : State) : Result :=
  let co := s.core s.slot.core
  let a := co.regs.ea x
  let bs := co.bufRead .ab a 32
  let raw := bs.map fun b => b.getD 0
  let r := ctxOfRecord raw
  let y := co.gm.ctx[c]
  let fl := (raw.getD 7 0).toNat
  let ok := fl / 8 % 2 == 1 && r.bound && leNat (slice raw 30 2) == crc32c (raw.take 30) % 65536
  s.recordWord fr x [] [failIf (bs.any (·.isNone)) ⟨0x18, 0, a / 64 * 64, 0⟩, failIf (!ok) ⟨0x31, 0, r.image, 0⟩] 0
    (if copy then r.ptrs else []) (if y.bound then y.ptrs else []) [.ctx c (.whole r.sealed)]

/-- The status record (R244). -/
def statusBytes (g : GM) (x : GCtx) : List Byte :=
  let empty := isEmptyPtr x.top
  padTo 32 (leBytes 2 x.state ++ leBytes 2 x.depth ++ leBytes 2 (if empty then 0 else g.node x.top / 65536)
    ++ leBytes 1 (x.flags false + 8 * empty.toNat) ++ [0] ++ leBytes 2 x.steps ++ leBytes 2 g.free ++ leBytes 2 g.queue.length)

/-- G_STATE (R244). -/
def execGState (fr : Frame) (c : Fin 64) (x : BufAddr) (s : State) : Result :=
  let co := s.core s.slot.core
  let w : Effect := .store .ab (place (co.regs.ea x) ((statusBytes co.gm co.gm.ctx[c]).map some))
  s.recordWord fr x [co.gm.unbound c] [] 4 [] [] [w]

end Sys2Proof.Machine
end

