-- ==== Sys2Proof/Machine/Matrix.lean ====
section
/-! DEFINITION. The matrix words (R137 to R155) and what they leave pending: rows, drains, weight lines, band wakes. -/

namespace Sys2Proof.Machine

/-! ### Shared -/

/-- The active and the shadow set (R137, R144). -/
def Core.wset (c : Core) (second : Bool) : WSet := if second then c.w1 else c.w0
def Core.setWset (c : Core) (second : Bool) (w : WSet) : Core := if second then { c with w1 := w } else { c with w0 := w }

/-- Whether the bands of a mask are powered and awake (R153). -/
def Core.bandsReady (c : Core) (m : BitVec 4) : Bool := m &&& ~~~(c.regs.bands &&& ~~~c.waking) == 0

/-- A matrix word that writes something at one tick, or nothing (R40, R41): `last` is the offset at which its tokens are
pushed when it is on. -/
def State.mWord (s : State) (fr : Frame) (tok : Tok) (last : Nat) (books on : List Due) : Plan := {
    pred := fr.pred
    dev := s.regs.tokDev (tokPops .M tok)
    toks := tokPops .M tok
    books := books
    off := tokPushes .M tok 1
    on := .ok (on ++ tokPushes .M tok last) }

/-- M_NOP (R62). -/
def execMNop (_w : Fin 16) (tok : Tok) (idle : Fin 1048576) (s : State) : Result :=
  .next (s.issue {
    dev := s.regs.tokDev (tokPops .M tok)
    toks := tokPops .M tok
    books := tokPushes .M tok (idle.val + 1) })

/-- A ring in a buffer with an entry size (R139). -/
def ringIs (buf esize : Nat) (r : Ring) : Bool := r.buf == buf && r.esize == esize

/-- AB banks of n granules from an address (R17). -/
def abBanks (x n : Nat) : List Nat := (range' 0 n).map fun j => (x / 64 + j) % 32

/-- All WB banks: the matrix read port (R19). -/
def wbPort : List Nat := range' 32 16

/-! ### Weight load and swap (R143, R144) -/

/-- Column exponents and class bytes of an exponent entry. -/
def colExps (bs : List (Option Byte)) : List (Option (Byte × Byte)) :=
  (range' 0 256).map fun c =>
    match nth bs c none, nth bs (256 + c) none with
    | some e, some k => some (e, k)
    | _, _ => none

/-- M_WLD: the exponent entry at t, line j at t + j. -/
def execMWld (fr : Frame) (tok : Tok) (qa qb : Fin 32) (s5 : Bool) (s : State) : Result :=
  let c := s.core s.slot.core
  let r := c.regs
  let set := !c.wact
  let x := (r.ring qb).addr (r.ring qb).head
  let lines (on : Bool) : List Due := (range' 0 64).map fun j => (j, 3, .wld ⟨qa, j, set, on⟩)
  let plan : Plan := {
    pred := fr.pred
    dec := firstOf [r.ringCheck qa (ringIs 2 144), r.ringCheck qb (ringIs 1 64)]
    dev := firstOf [r.tokDev (tokPops .M tok), r.popDev qb 1, r.popDev qa 1]
    banks := wbPort ++ abBanks x 8
    toks := tokPops .M tok
    books := [popDue qb 1]
    off := lines false ++ tokPushes .M tok 1
    on := .ok (lines true ++ tokPushes .M tok 64) }
  let w : WSet := ⟨some s5, [], colExps (c.entry (r.ring qb) (r.ring qb).head), (r.ring qa).rtag, some qa⟩
  .next (s.issueThen plan fun t => t.setCore t.slot.core
    (((t.core t.slot.core).setWset set w).digestChunks .M (byteChunks 64 (c.entry (r.ring qb) (r.ring qb).head))))

/-- The rows that a weight line fills: K row 64b + j from bytes 288b on, for the bands that are powered (R139, R143). -/
def Core.lineRows (c : Core) (j : Nat) (bs : List (Option Byte)) : List (Nat × List (Option Byte)) :=
  ((range' 0 4).filter fun b => c.bandsReady (BitVec.ofNat 4 (2 ^ b))).map fun b => (64 * b + j, slice bs (288 * b) 288)

/-- A set with rows filled. -/
def WSet.fill (w : WSet) (rs : List (Nat × List (Option Byte))) : WSet :=
  { w with rows := rs.foldl (fun m r => mapSet m r.1 r.2) w.rows }

/-- A weight line enters: its entry is popped, the matrix port takes every WB bank, and the rows filled go into the phase
digest (R143, R371; assumption 22). -/
def State.wldLine (s : State) (back : Pend) (w : WldJob) : State :=
  let c := s.slot.core
  let co := s.core c
  let r := co.regs.ring w.qa
  if r.count = 0 then
    if back.src.elastic then s.setCore c { co with pend := back :: co.pend, stalled := some ⟨.M, 48, []⟩ }
    else s.lateFault c back.src ⟨0x05, w.qa.val + 65536 * w.j, 0, 1⟩
  else
    let bs := co.entry r r.head
    let rows := if w.on then co.lineRows w.j bs else []
    let co := (co.setWset w.set ((co.wset w.set).fill rows)).digestChunks .M (rows.flatMap fun r => byteChunks 36 r.2)
    let s := s.setCore c (co.due back.src (back.tick + 1) 0 (.land [.popped w.qa 1]))
    if w.j = 0 then s else s.claimNow c back.src wbPort

/-- M_SWAP: rows that enter at the next tick or later use the other set. -/
def execMSwap (fr : Frame) (tok : Tok) (s : State) : Result :=
  .next (s.issueThen (s.mWord fr tok 1 [] []) fun t =>
    let co := t.core t.slot.core
    t.setCore t.slot.core { co with wact := !co.wact })

/-! ### Multiply-accumulate (R146 to R151) -/

/-- Exponent and class byte of a block (R82). -/
def blockExp (bs : List (Option Byte)) : Nat := ((nth bs 288 none).map (·.toNat)).getD 0
def blockCls (bs : List (Option Byte)) : Nat := ((nth bs 289 none).map (·.toNat)).getD 0

/-- A block that records a signalling NaN (R84). -/
def blockSnan (bs : List (Option Byte)) : Bool :=
  bs.all Option.isSome && blockExp bs == 255 && (blockCls bs) / 2 % 2 == 1

/-- Whether a column of the set records one. -/
def WSet.snan (w : WSet) : Bool :=
  w.exps.any fun e => match e with
    | some (x, k) => x.toNat == 255 && k.toNat / 2 % 2 == 1
    | none => false

/-- The mantissas of a code: one of S9, two of S5 (R81). -/
def mants (s5 : Bool) (code : Nat) : Int × Int := if s5 then s5Pair code else (sint 9 code, 0)

/-- The cell rows that a shape enables (R138). -/
def shapeRows (sh : BitVec 4) : List Nat := (range' 0 256).filter fun k => sh.getLsbD (k / 64)

/-- What a column adds up over cell rows: the sum, a poisoned cell, a reserved code. -/
def colSum (s5 : Bool) (acts : List (Nat × Nat)) (rows : SMap (List (Option Byte))) (c : Nat) : Int × Bool × Bool :=
  acts.foldl (fun acc x =>
    match (mapGet rows x.1).bind fun bs => code9 bs c with
    | none => (acc.1, true, acc.2.2)
    | some w =>
      let (a, b) := mants s5 x.2
      let (u, v) := mants s5 w
      (acc.1 + a * u + b * v, acc.2.1, acc.2.2 || (s5 && (decide (440 < x.2) || decide (440 < w))))) (0, false, false)

/-- The 256 lanes of a row: sum, product exponent, poisoned, non-finite, reserved code (R97, R98, R147). -/
def rowLanes (r : RowJob) (w : WSet) (ent : List (Option Byte)) : List (Int × Int × Bool × Bool × Bool) :=
  let bad := ent.any Option.isNone
  let acts := (shapeRows r.shape).map fun k => (k, (code9 ent k).getD 0)
  let bias := 2 * blockBias r.s5
  (range' 0 256).map fun c =>
    match nth w.exps c none with
    | none => (0, 0, true, false, false)
    | some (ew, _) =>
      if bad then (0, 0, true, false, false)
      else
        let (S, p, rsv) := colSum r.s5 acts w.rows c
        (S, (blockExp ent : Int) + ew.toNat - bias, p, blockExp ent == 255 || ew.toNat == 255, rsv)

/-- Where row i of a mac word finds its entry: the index in the ring; none where it finds none (R146). -/
def rowEntry (r : Ring) (peek : Bool) (feed : Int) (i : Nat) : Option Nat :=
  if peek then
    let k := feed + i
    if 0 ≤ k ∧ k < r.count then some ((r.head + k.toNat) % max 1 r.depth) else none
  else if r.count = 0 then none else some r.head

/-- The first check that row i fails at its entry tick: ring, bands, row index, signalling NaN (R150). The detail names the row
in bits 31:16 (assumption 96). -/
def Core.rowTrap (c : Core) (r : RowJob) : Option Trap :=
  let ra := c.regs.ring r.qa
  match rowEntry ra r.peek r.feed r.i with
  | none => some ⟨0x05, r.qa.val + 65536 * r.i, 0, 1⟩
  | some k =>
    if r.sparse && (c.regs.ring r.qb).count == 0 then some ⟨0x05, r.qb.val + 65536 * r.i, 0, 1⟩
    else if !r.on then none
    else if !c.bandsReady r.shape then some ⟨0x07, 65536 * r.i, 0, 1⟩
    else if r.sparse && ((c.entry (c.regs.ring r.qb) (c.regs.ring r.qb).head).any Option.isNone) then
      some ⟨0x18, 65536 * r.i, (c.regs.ring r.qb).addr (c.regs.ring r.qb).head / 64 * 64, 1⟩
    else if r.ftrap.getLsbD 5 && blockSnan (c.entry ra k) then some ⟨0x11, 65536 * r.i, 0, 1⟩
    else none

/-- Row i enters the array, where it holds the bands of its shape (R145): it pops or peeks, takes its five banks, and its drain is
due from 260 ticks on. -/
def State.rowEnter (s : State) (back : Pend) (r : RowJob) : State :=
  let c := s.slot.core
  let co := s.core c
  match co.rowTrap r with
  | some t =>
    if t.code = 0x05 ∧ back.src.elastic then s.setCore c { co with pend := back :: co.pend, stalled := some ⟨.M, 48, []⟩ }
    else s.lateFault c back.src t
  | none =>
    let ra := co.regs.ring r.qa
    let k := (rowEntry ra r.peek r.feed r.i).getD 0
    let pos := if r.sparse then
        ((leNat? ((co.entry (co.regs.ring r.qb) (co.regs.ring r.qb).head).take 1)).getD 0)
      else r.i
    let pops := (if r.peek then [] else [Effect.popped r.qa 1]) ++ (if r.sparse then [Effect.popped r.qb 1] else [])
    let co1 := if pops.isEmpty then co else co.due back.src (back.tick + 1) 0 (.land pops)
    let co2 := if r.on && r.dm != .nd then
        co1.due back.src (back.tick + 260) 1 (.drain ⟨r, pos, 0, rowLanes r (co.wset r.set) (co.entry ra k)⟩)
      else co1
    let co3 := if r.on then { co2 with holds := (back.tick + 515, r.shape) :: co2.holds.filter fun h => decide (back.tick ≤ h.1) } else co2
    let s := s.setCore c co3
    if r.i = 0 then s else s.claimNow c back.src (abBanks (ra.addr k) 5)

/-- The slots of Dest(i, c) (R148): the slot, and the one to its right for X72. -/
def drainDest (r : RowJob) (pos c : Nat) : Nat × Nat :=
  match r.dm with
  | .x72 => (slotKey r.tile c ((r.idx + 2 * pos) % 256), slotKey r.tile c ((r.idx + 2 * pos + 1) % 256))
  | _ =>
    let k := if r.col then slotKey r.tile c ((r.idx + pos) % 256) else slotKey r.tile ((r.idx + pos) % 256) c
    (k, k)

/-- Drain of one lane (R99, R147): the slots written, and the flags. -/
def drainLane (m : SMap W36) (d : DrainJob) : List SlotWrite × Flags :=
  let r := d.row
  let (ka, kb) := drainDest r d.pos d.c
  let (S, P, bad, nf, rsv) := nth d.lanes d.c (0, 0, true, false, false)
  let put (v : Option Nat) : List SlotWrite :=
    if r.dm = .x72 then [slotPut ka (v.map (· % 2 ^ 36)), slotPut kb (v.map (· / 2 ^ 36))] else [slotPut ka v]
  let old : Option Nat :=
    if r.init then some 0
    else match mapGet m ka, (if r.dm = .x72 then mapGet m kb else some 0) with
      | some a, some b => some (a.toNat + 2 ^ 36 * b.toNat)
      | _, _ => none
  match bad, old with
  | true, _ => (put none, 0)
  | false, none => (put none, 0)
  | false, some o =>
    let inv : Flags := (if nf then fInvalid else 0) ||| (if rsv then fInvalid else 0)
    match r.dm with
    | .x72 => if nf then (put (some x72Nan), inv) else let x := drainX72 o S P r.beta; (put (some x.1), x.2 ||| inv)
    | .f32 =>
      if nf then (put (some FFmt.f32.dnan), inv)
      else let x := drainF32 (modeOfCtl r.rnd.toNat) (o % 2 ^ 32) S P; (put (some x.1), x.2 ||| inv)
    | _ => let x := drainS36 o (if nf then 0 else S); (put (some x.1), x.2 ||| inv)

/-- Whether the slot that a lane drains into as F32 holds a signalling NaN as an operand (R90). A non-finite product replaces the
slot, which is no operand then (R99; assumption 127). -/
def drainSnan (m : SMap W36) (d : DrainJob) : Bool :=
  let (_, _, bad, nf, _) := nth d.lanes d.c (0, 0, true, false, false)
  d.row.dm == .f32 && !d.row.init && !bad && !nf
    && (match mapGet m (drainDest d.row d.pos d.c).1 with
      | some (o : W36) => FFmt.f32.snan (o.toNat % 2 ^ 32)
      | none => false)

/-- The trap of the lanes that land at a tick (R90, R150), with the row in bits 31:16 of its detail and the column in bits
47:32 (assumption 96): of a signalling NaN before that of a flag. -/
def drainTrap (m : SMap W36) (ds : List DrainJob) (f : Flags) : Option Trap :=
  let ft := (ds.head?.map (·.row.ftrap)).getD 0
  let at_ (d : DrainJob) : Nat := 65536 * d.row.i + 2 ^ 32 * d.c
  match ds.find? fun d => ft.getLsbD 5 && drainSnan m d with
  | some d => some ⟨0x11, at_ d, 0, 1⟩
  | none => (ieeeTrap (ft &&& 0x1F) f false).map fun t =>
    { t with
      cls := 1
      detail := t.detail + ((ds.find? fun d => (drainLane m d).2 &&& ft.setWidth 5 != 0).map at_).getD 0 }

/-- The drains of word x that are due at a tick. -/
def drainsDue (t : Nat) (x : Src) : List Pend → List DrainJob
  | [] => []
  | p :: ps =>
    match p.act with
    | .drain d => if p.tick = t ∧ p.src = x then d :: drainsDue t x ps else drainsDue t x ps
    | _ => drainsDue t x ps

/-- The list without them. -/
def dropDrains (t : Nat) (x : Src) (ps : List Pend) : List Pend :=
  ps.filter fun p => match p.act with
    | .drain _ => !(p.tick == t && p.src == x)
    | _ => true

/-- The lanes of word x that land at this tick: all of them, or, where an enabled trap is among their flags, none (R148,
R150). Their flags are ORed in after the tick's writes (R89, R123). -/
def State.drainTick (s : State) (back : Pend) (d : DrainJob) : State :=
  let c := s.slot.core
  let co := s.core c
  let ds := d :: drainsDue back.tick back.src co.pend
  let rs := ds.map (drainLane co.mrf)
  let f := orAll (rs.map Prod.snd)
  let co := { co with pend := dropDrains back.tick back.src co.pend }
  match drainTrap co.mrf ds f with
  | some t => (s.setCore c co).lateFault c back.src t
  | none =>
    let co := if f = 0 then co else co.due back.src back.tick 2 (.land [.orFlags f])
    let co := ds.foldl (fun (co : Core) (d : DrainJob) =>
      if d.c < 255 then co.due back.src (back.tick + 1) 1 (.drain { d with c := d.c + 1 }) else co) co
    (s.setCore c co).landEffects c back.src back [.slots (rs.flatMap Prod.fst)]

/-- A mac word (R142, R146 to R151). The detail of code 0x03 for a set that is empty or of the other format is 0, which R340
does not give (assumption 95). -/
def State.macWord (s : State) (fr : Frame) (tok : Tok) (qa qb : Fin 32) (l : Line) (rows : Fin 256) (dm : Drain)
    (init peek s5 sparse : Bool) : Result :=
  let c := s.core s.slot.core
  let r := c.regs
  let w := c.wset c.wact
  let n := rows.val + 1
  let job (i : Nat) (on : Bool) : RowJob :=
    { s5 := s5, sparse := sparse, qa := qa, qb := qb, peek := peek, init := init, dm := dm, tile := l.tile.val,
      col := l.dir == .c, idx := r.lineIdx l, i := i, n := n, set := c.wact, shape := r.ctl.shape, beta := r.beta.toInt,
      feed := r.feed.toInt, rnd := r.ctl.round, ftrap := r.ctl.ftrap, on := on }
  let enter (on : Bool) : List Due := (range' 0 n).map fun i => (i, 3, .row (job i on))
  let last := if dm = .nd then 1 else n + 514
  let ta := (r.ring qa).rtag
  let tags : Trap := ⟨0x04, ta.toNat + 65536 * w.tag.toNat, 0, 0⟩
  let ringDev := match c.rowTrap (job 0 false) with
    | some t => some ({ t with cls := 0 }, true)
    | none => none
  .next (s.issue {
    pred := fr.pred
    dec := firstOf [r.lineOdd (if dm = .x72 then .x72 else .s36) l, r.lineTile l, r.ringCheck qa (ringIs 1 40),
      r.ringCheck qb (if sparse then ringIs 1 1 else ringIs 2 144), failIf (w.fmt != some s5) ⟨0x03, 0, 0, 0⟩]
    dev := firstOf [r.tokDev (tokPops .M tok), ringDev]
    banks := abBanks ((r.ring qa).addr ((rowEntry (r.ring qa) peek r.feed.toInt 0).getD 0)) 5
    toks := tokPops .M tok
    books := r.lineInc l
    off := enter false ++ tokPushes .M tok 1
    on := guardAll [failIf (!sparse && w.ring != some qb) tags, failIf (!tagMatch ta w.tag) tags,
        failIf (r.ctl.ftrap.getLsbD 5 && w.snan) ⟨0x11, 0, 0, 0⟩, (c.rowTrap (job 0 true)).map fun t => { t with cls := 0 }]
      (enter true ++ tokPushes .M tok last) })

def execMMacS9 (fr : Frame) (tok : Tok) (qa qb : Fin 32) (l : Line) (rows : Fin 256) (dm : Drain) (init peek : Bool)
    (s : State) : Result := s.macWord fr tok qa qb l rows dm init peek false false
def execMMacS5 (fr : Frame) (tok : Tok) (qa qb : Fin 32) (l : Line) (rows : Fin 256) (dm : Drain) (init peek : Bool)
    (s : State) : Result := s.macWord fr tok qa qb l rows dm init peek true false
def execMSpmacS9 (fr : Frame) (tok : Tok) (qa qb : Fin 32) (l : Line) (rows : Fin 256) (dm : Drain) (init : Bool)
    (s : State) : Result := s.macWord fr tok qa qb l rows dm init false false true

/-- MAC_ROW_ENTRY. -/
def execMacRowEntry (s : State) : Result :=
  match s.takeItem with
  | some (p, t) => (match p.act with
    | .row r => .next (t.rowEnter p r)
    | _ => .next s)
  | none => .next s

/-- DRAIN_WRITE. -/
def execDrainWrite (s : State) : Result :=
  match s.takeItem with
  | some (p, t) => (match p.act with
    | .drain d => .next (t.drainTick p d)
    | _ => .next s)
  | none => .next s

/-! ### Shape, band power, feed, base exponent (R152 to R155) -/

def execMShape (fr : Frame) (tok : Tok) (mask : Fin 16) (s : State) : Result :=
  .next (s.issue (s.mWord fr tok 1 [] [landAt 1 [.setCtl .shape .write (BitVec.ofNat 64 mask.val)]]))

/-- M_WAKE (R153): the named bands that are unpowered get power, and take part 96 ticks later. -/
def execMWake (fr : Frame) (tok : Tok) (mask : Fin 16) (s : State) : Result :=
  let co := s.core s.slot.core
  let woken := BitVec.ofNat 4 mask.val &&& ~~~co.regs.bands
  let due : List Due := if woken = 0 then [] else [(96, 0, .wake woken)]
  .next (s.issueThen (s.mWord fr tok 1 [] due) fun t =>
    let co := t.core t.slot.core
    let bands := co.regs.bands ||| woken
    t.setCore t.slot.core ({ co with regs := { co.regs with bands := bands }, waking := co.waking ||| woken }.digestChunks .M
      [BitVec.ofNat 64 bands.toNat]))

/-- BAND_WAKE_COMPLETE. -/
def execBandWakeComplete (s : State) : Result :=
  match s.takeItem with
  | some (p, t) => (match p.act with
    | .wake m =>
      let co := t.core t.slot.core
      .next (t.setCore t.slot.core { co with waking := co.waking &&& ~~~m })
    | _ => .next s)
  | none => .next s

/-- Whether a row holds one of some bands at a tick (R145). -/
def Core.holdsBand (c : Core) (m : BitVec 4) (t : Nat) : Bool := c.holds.any fun h => decide (t ≤ h.1) && h.2 &&& m != 0

/-- M_SLEEP (R153). The sleep of a band that a row holds, where the loader could not see the row's shape, is a deviation of the
word (assumption 135). -/
def execMSleep (fr : Frame) (tok : Tok) (mask : Fin 16) (s : State) : Result :=
  let m := BitVec.ofNat 4 mask.val
  .next (s.issue { s.mWord fr tok 1 [] [] with
    on := guardAll [failIf ((s.core s.slot.core).holdsBand m (s.slot.tick + 1)) ⟨0x07, 0, 0, 0⟩]
      ([landAt 1 [.sleep m]] ++ tokPushes .M tok 1) })

/-- M_FEED (R154). -/
def execMFeed (fr : Frame) (tok : Tok) (src : FeedSrc) (s : State) : Result :=
  let r := s.regs
  let (v, inc) : BitVec 16 × List Due := match src with
    | .imm i => (i.signExtend 16, [])
    | .reg a post => (BitVec.ofNat 16 (r.a[a]).ea, r.postInc ⟨a, post⟩)
  .next (s.issue (s.mWord fr tok 1 inc [landAt 1 [.setFeed v]]))

def execMXbase (fr : Frame) (tok : Tok) (imm : BitVec 10) (s : State) : Result :=
  .next (s.issue (s.mWord fr tok 1 [] [landAt 1 [.setBeta imm]]))

end Sys2Proof.Machine
end

