-- ==== Sys2Proof/Machine/Landing.lean ====
section
/-! DEFINITION. RESULT_LAND and LOOP_EXIT: what is due in a core and has no row of its own (R35, R121, R298). -/

namespace Sys2Proof.Machine

/-- The read of something after its word's issue tick. -/
def State.readJob (s : State) (p : Pend) (r : ReadJob) : State :=
  match r with
  | .ab addr n homes land op => s.readAb p.src addr n homes land op
  | .ring q n homes land => s.readRing p q n homes land
  | .row ty tile row homes land => s.readRow p.src ty tile row homes land
  | .send addr n path peer land rows rbytes j tag on => s.readSend p.src addr n path peer land rows rbytes j tag on
  | .sendRing q path peer land rows rbytes j tag on => s.readSendRing p q path peer land rows rbytes j tag on
  | .put op addr n homes => s.readPut op addr n homes
  | .index k list rows limit a0 dstride rbytes b0 bstride land hbm host peer now undo =>
    s.readIndex p ⟨list, rows, limit, a0, dstride, rbytes, b0, bstride, land⟩ { s with hbm := hbm, host := host, peer := peer } k undo
  | .filt f j => s.readFilt p f j
  | .leave path core b => s.sendBeat s.slot.core p.src path core b

/-- RESULT_LAND (R35): the results, pushes and tokens due now land, or a beat is read. -/
def execResultLand (s : State) : Result :=
  match s.takeItem with
  | some (p, t) =>
    (match p.act with
    | .land es => .next (t.landEffects t.slot.core p.src p es)
    | .wld w => .next (t.wldLine p w)
    | .read r => .next (t.readJob p r)
    | _ => .next s)
  | none => .next s

/-- LOOP_EXIT (R121, R298): the loop's counter returns to 0, and the stall matrix is copied into the profile ring of 8. -/
def execLoopExit (s : State) : Result :=
  match s.takeItem with
  | some (p, t) =>
    (match p.act with
    | .loopExit depth widx =>
      let c := t.slot.core
      let co := t.core c
      let snap : Snapshot := ⟨co.regs.ctl.phase.toNat, widx, p.tick - 1, (co.exits + 1) % 2 ^ 32, co.frozen, co.stalls⟩
      .next (t.setCore c { co with
        running := co.running.filter fun r => !(r.depth == depth && r.t0 == p.src.tick)
        exits := (co.exits + 1) % 2 ^ 32
        profile := (snap :: co.profile).take 8 })
    | _ => .next s)
  | none => .next s

end Sys2Proof.Machine
end

