-- ==== Sys2Proof/Machine/Timetable.lean ====
section
/-! DEFINITION. The load checks of a clause image (R63, R316): what is static of each word (R386), and the checks of R22,
R24, R36, R46, R64, R120, R121, R145, R153, R159, R160, R178, R182, R195, R203, R237, R238, R285, R293, R294 and R312 on the
fully expanded timetable. Every word counts as predicated on. -/

namespace Sys2Proof.Machine

/-! ### What is static of a word -/

/-- The MRF slots of an unmasked line write whose index is an immediate (R386): the type, the line, the elements. -/
structure StaticLine where
  lat : Nat
  ty : VTy
  line : Line
  n : Nat
  deriving DecidableEq, Repr

/-- What the image alone gives of a word, as offsets from its issue tick (R386): the registers it writes, with their
clash classes (R36); the landing of its MRF line write (R159), and the slots of it that are known; the last landing that
R46 judges (0: none), and whether it lands at its issue tick as a receiving word does; the tokens it pops; the landing of its token pushes, and the tokens. -/
structure StaticWord where
  regs : List (Nat × Nat) := []
  port : Option Nat := none
  slots : Option StaticLine := none
  last : Nat := 0
  here : Bool := false
  pops : List (Fin 6 × Nat) := []
  push : Nat := 0
  pushes : List (Fin 6 × Nat) := []
  deriving DecidableEq, Repr

/-- The post-increments of a word. -/
def lineKeys (ls : List Line) : List (Nat × Nat) :=
  (ls.filterMap fun l => match l.ix with | .reg a true => some (1, clashKey 3 a.val) | _ => none).eraseDups
def addrKeys (x : BufAddr) : List (Nat × Nat) := if x.post then [(1, clashKey 3 x.a.val)] else []

/-- The last of the register landings, and of another. -/
def lastOf (rs : List (Nat × Nat)) (n : Nat) : Nat := (rs.map Prod.fst).foldl max n

/-- A word that only writes registers. -/
def regWord (rs : List (Nat × Nat)) : StaticWord := { regs := rs, last := lastOf rs 0 }
def sKey (d : Fin 32) (o : Nat) : StaticWord := regWord (if d = 0 then [] else [(o, clashKey 1 d.val)])
def pKey (d : Fin 16) (o : Nat) : StaticWord := regWord (if d = 0 then [] else [(o, clashKey 2 d.val)])

/-- A vector word that writes the first n elements of a line. -/
def lineWord (lat : Nat) (ty : VTy) (d : Line) (n : Nat) (mk : Option (Fin 8)) (ls : List Line) (more : List (Nat × Nat)) :
    StaticWord :=
  let rs := (lineKeys ls ++ more).eraseDups
  { regs := rs, port := some lat, last := lastOf rs lat
    slots := if mk.isNone then some ⟨lat, ty, d, n⟩ else none }

/-- The same for all elements. -/
def fullLine (lat : Nat) (ty : VTy) (d : Line) (mk : Option (Fin 8)) (ls : List Line) : StaticWord :=
  lineWord lat ty d (lineCount ty d.dir) mk ls []

/-- The token bits of a word: pops at t, pushes at an offset (R40, R41). -/
def withTok (e : Eng) (t : Tok) (o : Nat) (w : StaticWord) : StaticWord :=
  { w with
    pops := tokPops e t
    push := o
    pushes := (if t.push1 then [((tokFifos e).2.2.1, 1)] else []) ++ (if t.push2 then [((tokFifos e).2.2.2, 1)] else [])
    last := if t.push1 || t.push2 then max w.last o else w.last }

/-- Ring updates: pushes at offsets, and n pops one tick after each of n reads. -/
def pushKeys (q : Fin 32) (os : List Nat) : List (Nat × Nat) := os.map fun o => (o, clashKey 5 q.val)
def popKeys (q : Fin 32) (os : List Nat) : List (Nat × Nat) := os.map fun o => (o + 1, clashKey 6 q.val)

/-- A mac word (R146, R148): its rows pop at t + i, its last slot is written at t + nr + 514. -/
def macStatic (tok : Tok) (qa : Fin 32) (sparse : Option (Fin 32)) (l : Line) (rows : Fin 256) (dm : Drain) (peek : Bool) :
    StaticWord :=
  let n := rows.val + 1
  let rs := lineKeys [l] ++ (if peek then [] else popKeys qa (range' 0 n)) ++ (match sparse with
    | some qb => popKeys qb (range' 0 n)
    | none => [])
  let last := if dm = .nd then 1 else n + 514
  withTok .M tok last { regs := rs.eraseDups, last := if dm = .nd then lastOf (lineKeys [l]) 0 else last }

/-- A timetabled copy word: one beat, landing at t + land (R386). -/
def copyStatic (e : Eng) (tok : Tok) (x : List BufAddr) (land : Nat) : StaticWord :=
  let rs := x.flatMap addrKeys
  withTok e tok land { regs := rs, last := lastOf rs land }

/-- A receiving word lands at its issue tick (R386). -/
def recvStatic (x : List BufAddr) : StaticWord := { regWord (x.flatMap addrKeys) with here := true }

/-- Beats of a row of `l.row` (R215). -/
def firstRowBeats : VTy → Nat
  | .s36 | .x72 => 2
  | _ => 1

/-- What is static of every word (R386). -/
def staticOf : Instr → StaticWord
  | .sNop .. | .yNop .. | .vNop .. | .xNop .. | .gNop .. => {}
  | .sAdd _ d _ _ | .sSub _ d _ _ | .sAnd _ d _ _ | .sOr _ d _ _ | .sXor _ d _ _ | .sShl _ d _ _ | .sShr _ d _ _
  | .sSar _ d _ _ | .sMin _ d _ _ | .sMax _ d _ _ | .sMinu _ d _ _ | .sMaxu _ d _ _ => sKey d 1
  | .sMul _ d _ _ => sKey d 3
  | .sMulh _ d _ _ | .sMulhu _ d _ _ => sKey d 4
  | .sDiv _ d _ _ | .sDivu _ d _ _ | .sRem _ d _ _ | .sRemu _ d _ _ => sKey d 18
  | .sClz _ d _ | .sPopc _ d _ => sKey d 1
  | .sAddi _ d _ _ | .sAndi _ d _ _ | .sOri _ d _ _ | .sXori _ d _ _ | .sShli _ d _ _ | .sShri _ d _ _ | .sSari _ d _ _ => sKey d 1
  | .sMuli _ d _ _ => sKey d 3
  | .sLi _ d _ | .sLih _ d _ => sKey d 1
  | .sCmp _ pd _ _ _ | .sCmpi _ pd _ _ _ | .sPand _ pd _ _ | .sPor _ pd _ _ | .sPxor _ pd _ _ | .sPnot _ pd _ => pKey pd 1
  | .sAddF64 _ d _ _ | .sSubF64 _ d _ _ | .sMulF64 _ d _ _ | .sMinF64 _ d _ _ | .sMaxF64 _ d _ _ => sKey d 4
  | .sDivF64 _ d _ _ => sKey d 22
  | .sFmaF64 _ d _ _ => sKey d 5
  | .sSqrtF64 _ d _ => sKey d 26
  | .sCmpF64 _ pd _ _ _ => pKey pd 2
  | .sCvtF64S64 _ d _ | .sCvtS64F64 _ d _ => sKey d 4
  | .sClassF64 _ d _ => sKey d 2
  | .sLd _ d _ _ _ _ => sKey d 2
  | .sSt .. => { last := 1 }
  | .sLdm _ d _ _ _ _ land => sKey d land.val
  | .sStm _ _ _ _ _ land => { last := land.val }
  | .sLoop .. => {}
  | .sRdctl _ d _ | .sRda _ d _ _ | .sRdq _ d _ _ | .sRdk _ d _ _ => sKey d 1
  | .sWrctl _ r _ _ => regWord [(1, clashKey 9 (ctlNo r))]
  | .sWra _ n _ _ => regWord [(1, clashKey 3 n.val)]
  | .sWrq _ n _ _ => regWord [(1, clashKey 5 n.val), (1, clashKey 6 n.val)]
  | .sWrk _ n _ => regWord [(1, clashKey 4 n.val)]
  | .sRnd _ d q _ =>
    { regs := popKeys q [0] ++ (if d = 0 then [] else [(2, clashKey 1 d.val)]), last := if d = 0 then 0 else 2 }
  | .yRdv .. => {}
  | .ySeminit _ n _ => regWord [(1, clashKey 12 n.val)]
  | .ySemclr .. => { last := 1 }
  | .yTokpush _ f c => { last := 1, push := 1, pushes := [(f, c.val)] }
  | .yTokpop _ f c => { pops := [(f, c.val)] }
  | .yGate .. | .yGatesem .. | .yGateclr .. | .yFence .. | .yTrap .. | .yBrk .. | .yStamp .. => {}
  | .yExport _ e => regWord (match e with
    | .size _ => [(1, clashKey 9 10)]
    | .sel _ => [(1, clashKey 9 11)]
    | .both _ _ => [(1, clashKey 9 10), (1, clashKey 9 11)])
  | .mNop _ tok idle => withTok .M tok (idle.val + 1) {}
  | .mWld _ tok qa qb _ =>
    withTok .M tok 64 { regs := (popKeys qa (range' 0 64) ++ popKeys qb [0]).eraseDups, last := 64 }
  | .mSwap _ tok => withTok .M tok 1 {}
  | .mMacS9 _ tok qa _ l rows dm _ peek => macStatic tok qa none l rows dm peek
  | .mMacS5 _ tok qa _ l rows dm _ peek => macStatic tok qa none l rows dm peek
  | .mSpmacS9 _ tok qa qb l rows dm _ => macStatic tok qa (some qb) l rows dm false
  | .mShape _ tok _ => withTok .M tok 1 (regWord [(1, clashKey 9 5)])
  | .mWake _ tok _ => withTok .M tok 1 {}
  | .mSleep _ tok _ => withTok .M tok 1 (regWord [(1, clashKey 17 0)])
  | .mFeed _ tok src => withTok .M tok 1 (regWord ((1, clashKey 15 0) :: (match src with
    | .reg a true => [(1, clashKey 3 a.val)]
    | _ => [])))
  | .mXbase _ tok _ => withTok .M tok 1 (regWord [(1, clashKey 16 0)])
  | .vAdd _ ty d a b => fullLine (latTwo .add ty + (wide64 ty d).toNat) ty d none [d, a, b]
  | .vSub _ ty d a b => fullLine (latTwo .sub ty + (wide64 ty d).toNat) ty d none [d, a, b]
  | .vMul _ ty d a b => fullLine (latTwo .mul ty + (wide64 ty d).toNat) ty d none [d, a, b]
  | .vFma _ ty d a b => fullLine (latTwo .fma ty + (wide64 ty d).toNat) ty d none [d, a, b]
  | .vFms _ ty d a b => fullLine (latTwo .fms ty + (wide64 ty d).toNat) ty d none [d, a, b]
  | .vDiv _ ty d a b => fullLine (latTwo .div ty + (wide64 ty d).toNat) ty d none [d, a, b]
  | .vMin _ ty d a b | .vMax _ ty d a b | .vAnd _ ty d a b | .vOr _ ty d a b | .vXor _ ty d a b =>
    fullLine 2 ty d none [d, a, b]
  | .vAbs _ ty d a mk | .vNeg _ ty d a mk | .vNot _ ty d a mk | .vMov _ ty d a mk => fullLine 2 ty d mk [d, a]
  | .vShl _ ty d a _ _ mk | .vShr _ ty d a _ _ mk | .vSar _ ty d a _ _ mk => fullLine 2 ty d mk [d, a]
  | .vRshr _ ty d a _ _ mk => fullLine 3 ty d mk [d, a]
  | .vCmp _ _ _ vmE a b _ => regWord ((2, clashKey 8 vmE.val) :: lineKeys [a, b])
  | .vSel _ ty d a _ _ => fullLine 2 ty d none [d, a]
  | .vBcast _ ty d a _ _ mk | .vLshift _ ty d a _ _ mk | .vLrot _ ty d a _ _ mk => fullLine 2 ty d mk [d, a]
  | .vCvt _ dt _ d a mk => fullLine 4 dt d mk [d, a]
  | .vCvte _ ty _ _ _ d a mk => fullLine 4 ty d mk [d, a]
  | .vSliceF64 _ q a _ => regWord (pushKeys q [6] ++ lineKeys [a])
  | .vScale _ ty d a _ _ mk => fullLine 4 ty d mk [d, a]
  | .vCvtx _ ty toX d a _ mk => fullLine 4 (if toX then .x72 else ty) d mk [d, a]
  | .vNarrow _ ty l q fmt _ _ _ rnd _ =>
    let n := lineCount ty l.dir
    let rs := pushKeys q (range' 8 (n / entryElems fmt)) ++ lineKeys [l]
    { regs := rs ++ (if rnd = .sr then popKeys 31 [0] else []), last := lastOf rs 0 }
  | .vRot _ ty l _ _ _ _ _ => fullLine 10 ty l none [l]
  | .vPop _ ty l q mk => lineWord 4 ty l (lineCount ty l.dir) mk [l] (popKeys q [0])
  | .vPush _ ty l q _ => regWord (pushKeys q [storeLat (lineBytes ty l.dir)] ++ lineKeys [l])
  | .vExp2 _ d a mk | .vLog2 _ d a mk | .vRecip _ d a mk | .vRsqrt _ d a mk | .vSinpi _ d a mk | .vCospi _ d a mk =>
    fullLine 10 .f32 d mk [d, a]
  | .vSqrt _ ty d a mk => fullLine (if ty = .f64 then 28 + (wide64 ty d).toNat else 12) ty d mk [d, a]
  | .vLd _ ty l x _ mk => lineWord 4 ty l (lineCount ty l.dir) mk [l] (addrKeys x)
  | .vSt _ ty l x _ _ =>
    let rs := (lineKeys [l] ++ addrKeys x).eraseDups
    { regs := rs, last := lastOf rs (storeLat (lineBytes ty l.dir)) }
  | .vGather _ ty l x _ mk | .vBtest _ ty l x _ mk => lineWord 12 ty l (lineCount ty l.dir) mk [l] (addrKeys x)
  | .vScatter _ _ l x _ _ | .vBset _ _ l x _ _ =>
    let rs := (lineKeys [l] ++ addrKeys x).eraseDups
    { regs := rs, last := lastOf rs 8 }
  | .vPerm _ ty _ d a mk => fullLine 3 ty d mk [d, a]
  | .vMatch _ pe _ pat win _ _ => regWord ((if pe = 0 then [] else [(4, clashKey 2 pe.val)]) ++ lineKeys [pat, win])
  | .vRndfill _ ty d q mk => lineWord 6 ty d (lineCount ty d.dir) mk [d] (popKeys q [0])
  | .vRsum _ ty d a g mk => lineWord (if ty.isFloat then 12 else 6) ty d (lineCount ty a.dir / 2 ^ g.val) none [d, a] []
  | .vRmax _ ty d a g mk | .vRmin _ ty d a g mk => lineWord 6 ty d (lineCount ty a.dir / 2 ^ g.val) none [d, a] []
  | .vScan _ ty d a _ mk => fullLine (if ty.isFloat then 16 else 8) ty d mk [d, a]
  | .vArgmax _ ty d a g _ | .vArgmin _ ty d a g _ => lineWord 8 (idxWrite ty) d (lineCount ty a.dir / 2 ^ g.val) none [d, a] []
  | .vMand _ d _ _ | .vMor _ d _ _ | .vMxor _ d _ _ => regWord [(1, clashKey 8 d.val)]
  | .vMnot _ d _ | .vMset _ d _ => regWord [(1, clashKey 8 d.val)]
  | .vMcount _ pd _ _ _ => regWord (if pd = 0 then [] else [(2, clashKey 2 pd.val)])
  | .lNop _ tok idle => withTok .L tok (idle.val + 1) {}
  | .lTile _ tok _ x _ _ land | .lHalo _ tok _ x _ _ land | .lGather _ tok x _ _ land => copyStatic .L tok [x] land.val
  | .lCsr _ tok _ x _ _ land => copyStatic .L tok [x] land.val
  | .lRow _ tok _ _ x _ _ land => copyStatic .L tok [x] land.val
  | .lNarrow _ tok _ _ _ _ land | .lRing _ tok _ _ _ land => copyStatic .L tok [] land.val
  | .wNop _ tok idle => withTok .W tok (idle.val + 1) {}
  | .wTile _ tok src _ _ land => copyStatic .W tok (match src with | .ab x => [x] | .ring _ => []) land.val
  | .wAcc _ tok _ x _ _ land | .wFilt _ tok _ x _ _ land | .wRow _ tok _ _ x _ _ land => copyStatic .W tok [x] land.val
  | .wAmo _ tok _ _ _ _ _ _ _ | .wSig _ tok _ _ _ _ _ => withTok .W tok 1 {}
  | .xSend _ _ src _ land =>
    let rs := (match src with | .ab x => [x] | .ring _ => []).flatMap addrKeys
    { regs := rs, last := lastOf rs land.val }
  | .xRecv _ _ dst _ => recvStatic (match dst with | .ab x | .wb x => [x] | .ring _ => [])
  | .xRed _ _ _ x _ => recvStatic [x]
  | .xPut _ _ x _ _ => regWord (addrKeys x)
  | .xFwd .. => recvStatic []
  | .xSig .. => {}
  | .xAlign _ _ x => { regs := addrKeys x, last := 352 }
  | .gBind _ c _ => regWord [(64, clashKey 18 c.val)]
  | .gStep _ c src ls => regWord ((ls.val, clashKey 18 c.val) :: (match src with | .ab x => addrKeys x | .reg _ => []))
  | .gMask _ _ x _ lm => { regs := addrKeys x, last := max lm.val (lastOf (addrKeys x) 0) }
  | .gFork _ e _ => regWord [(2, clashKey 18 e.val)]
  | .gMark _ c | .gRollback _ c | .gCommit _ c | .gFree _ c => regWord [(2, clashKey 18 c.val)]
  | .gSave _ c x move =>
    let rs := (if move then [(4, clashKey 18 c.val)] else []) ++ addrKeys x
    { regs := rs, last := max 4 (lastOf rs 0) }
  | .gRestore _ c x _ => regWord ((4, clashKey 18 c.val) :: addrKeys x)
  | .gState _ _ x => { regs := addrKeys x, last := max 4 (lastOf (addrKeys x) 0) }
  | _ => {}

end Sys2Proof.Machine
end

