-- ==== Sys2Proof/Machine/Validate.lean ====
section
/-! DEFINITION. The checks of one clause image under one inflection (R63, R316), in this order: its words, its rendezvous and
loops, the timetable expanded in full. -/

namespace Sys2Proof.Machine

/-- Why the loader refuses (R316): the code, its detail and address (R340), the image and the word. -/
structure LoadErr where
  code : Nat
  detail : Nat := 0
  addr : Nat := 0
  image : Nat := 0
  word : Nat := 0
  /-- The word that is named, with its engine and clause tick (R338). -/
  src : Option Src := none
  /-- The phase and the inflection concerned, and whether the phase is replayable and a system phase (R338). -/
  pidx : Nat := 0
  infl : Nat := 0
  replayable : Bool := false
  system : Bool := false
  /-- The ext bytes of the record (R340). -/
  ext : List Byte := []
  deriving DecidableEq, Repr

/-- A check of the loader. -/
def refuse (b : Bool) (e : LoadErr) : Option LoadErr := if b then some e else none

/-! ### Words -/

/-- The line operands of a word, with the types they are taken as (R23, R174 to R176). -/
def linesOf : Instr → List (VTy × Line)
  | .mMacS9 _ _ _ _ l _ dm _ _ | .mMacS5 _ _ _ _ l _ dm _ _ | .mSpmacS9 _ _ _ _ l _ dm _ =>
    [(if dm = .x72 then .x72 else .s36, l)]
  | .vAdd _ ty d a b | .vSub _ ty d a b | .vMul _ ty d a b | .vFma _ ty d a b | .vFms _ ty d a b | .vMin _ ty d a b
  | .vMax _ ty d a b | .vAnd _ ty d a b | .vOr _ ty d a b | .vXor _ ty d a b | .vDiv _ ty d a b => [(ty, d), (ty, a), (ty, b)]
  | .vAbs _ ty d a _ | .vNeg _ ty d a _ | .vNot _ ty d a _ | .vMov _ ty d a _ | .vSqrt _ ty d a _ => [(ty, d), (ty, a)]
  | .vShl _ ty d a _ _ _ | .vShr _ ty d a _ _ _ | .vSar _ ty d a _ _ _ | .vRshr _ ty d a _ _ _ => [(ty, d), (ty, a)]
  | .vCmp _ ty _ _ a b _ => [(ty, a), (ty, b)]
  | .vSel _ ty d a _ _ => [(ty, d), (ty, a)]
  | .vBcast _ ty d a _ _ _ | .vLshift _ ty d a _ _ _ | .vLrot _ ty d a _ _ _ | .vScale _ ty d a _ _ _ => [(ty, d), (ty, a)]
  | .vCvt _ dt st d a _ => [(dt, d), (st, a)]
  | .vCvte _ ty _ _ _ d a _ => [(ty, d), (ty, a)]
  | .vSliceF64 _ _ a _ => [(.f64, a)]
  | .vCvtx _ ty toX d a _ _ => if toX then [(.x72, d), (ty, a)] else [(ty, d), (.x72, a)]
  | .vNarrow _ ty l _ _ _ _ _ _ _ | .vRot _ ty l _ _ _ _ _ => [(ty, l)]
  | .vPop _ ty l _ _ | .vPush _ ty l _ _ => [(ty, l)]
  | .vExp2 _ d a _ | .vLog2 _ d a _ | .vRecip _ d a _ | .vRsqrt _ d a _ | .vSinpi _ d a _ | .vCospi _ d a _ =>
    [(.f32, d), (.f32, a)]
  | .vLd _ ty l _ _ _ | .vSt _ ty l _ _ _ | .vGather _ ty l _ _ _ | .vScatter _ ty l _ _ _ | .vBset _ ty l _ _ _
  | .vBtest _ ty l _ _ _ => [(ty, l)]
  | .vPerm _ ty _ d a _ => [(ty, d), (ty, a)]
  | .vMatch _ _ _ pat win _ _ => [(.s16, pat), (.s16, win)]
  | .vRndfill _ ty d _ _ => [(ty, d)]
  | .vRsum _ ty d a _ _ | .vRmax _ ty d a _ _ | .vRmin _ ty d a _ _ | .vScan _ ty d a _ _ | .vArgmax _ ty d a _ _
  | .vArgmin _ ty d a _ _ => [(ty, d), (ty, a)]
  | _ => []

/-- A two-slot column or diagonal with an odd immediate index (R24). -/
def oddStatic (x : VTy × Line) : Bool :=
  isTwo x.1 && x.2.dir != .r && (match x.2.ix with | .imm i => i.val % 2 == 1 | .reg _ _ => false)

/-- Whether lines differ in element count (R24, R156). -/
def countsDiffer (ls : List (VTy × Line)) : Bool :=
  match ls with
  | [] => false
  | x :: xs => xs.any fun y => lineCount y.1 y.2.dir != lineCount x.1 x.2.dir

/-- Words that a replayable phase may not hold (R312). -/
def notReplayable : Instr → Bool
  | .xPut .. | .xSig .. | .wAmo .. | .wSig .. | .wAcc .. => true
  | .gBind .. | .gStep .. | .gFork .. | .gMark .. | .gRollback .. | .gCommit .. | .gFree .. | .gSave .. | .gRestore .. => true
  | _ => false

/-- Latencies of `g.step` and `g.mask` that are too low (R237). -/
def shortGrammar : Instr → Bool
  | .gStep _ _ _ ls => decide (ls.val < 64)
  | .gMask _ _ _ v lm => decide (lm.val < 64 + cdiv (512 * (v.val + 1)) 2048)
  | _ => false

/-- The counts of R178, R182 and R195. -/
def badCounts : Instr → Bool
  | .vNarrow _ ty l _ fmt _ blk _ _ _ =>
    let n := lineCount ty l.dir
    !(n == 512 || (n == 256 && fmt != .s5)) || n % blkN blk != 0
  | .vRot _ ty l _ _ blk _ _ => lineCount ty l.dir % blkN blk != 0
  | .vRsum _ ty _ a g _ | .vRmax _ ty _ a g _ | .vRmin _ ty _ a g _ | .vScan _ ty _ a g _ | .vArgmax _ ty _ a g _
  | .vArgmin _ ty _ a g _ => decide (lineCount ty a.dir < 2 ^ g.val)
  | _ => false

/-- A static reference to m6 (R22). -/
def namesM6 (i : Instr) : Bool :=
  (linesOf i).any (fun x => x.2.tile == 6) || (match i with
    | .lRow _ _ _ t _ _ _ _ | .wRow _ _ _ t _ _ _ _ => t == 6
    | _ => false)

/-- The descriptor that a word of engine L, W or X names (R203). -/
def descNo : Instr → Option (Fin 2048)
  | .lTile _ _ _ _ _ d _ | .lHalo _ _ _ _ _ d _ | .lNarrow _ _ _ _ _ d _ | .lCsr _ _ _ _ _ d _ | .lRow _ _ _ _ _ _ d _ => some d
  | .lGather _ _ _ _ d _ | .lRing _ _ _ _ d _ => some d
  | .wTile _ _ _ _ d _ | .wAcc _ _ _ _ _ d _ | .wFilt _ _ _ _ _ d _ | .wRow _ _ _ _ _ _ d _ => some d
  | .xSend _ _ _ d _ | .xRecv _ _ _ d | .xRed _ _ _ _ d | .xPut _ _ _ _ d | .xSig _ _ _ d | .xFwd _ _ d _ => some d
  | _ => none

/-- The checks of one word. -/
def wordErr (replay detect : Bool) (w : Nat × W64) : Option LoadErr :=
  match decodeWord w.2.toNat with
  | none => some { code := 0x01, word := w.1 }
  | some i =>
    firstOf [refuse ((replay && notReplayable i) || shortGrammar i) { code := 0x01, word := w.1 },
      refuse ((linesOf i).any oddStatic || (countsDiffer (linesOf i)) || badCounts i) { code := 0x02, word := w.1 },
      refuse (!detect && namesM6 i) { code := 0x03, detail := 6, word := w.1 }]

/-- The words of an image, numbered and decoded. -/
def decoded (ws : List W64) : List (Nat × Instr) :=
  (place 0 ws).filterMap fun w => (decodeWord w.2.toNat).map fun i => (w.1, i)

/-- Whether a word is `y.rdv`. -/
def isRdv : Instr → Bool
  | .yRdv _ => true
  | _ => false

/-- The word at which more than 64 descriptors of one engine are named (R203). -/
def descErr (e : Nat) : List (Fin 2048) → List (Nat × Instr × Nat) → Option LoadErr
  | _, [] => none
  | seen, (k, i, x) :: ws =>
    match (if x = e then descNo i else none) with
    | none => descErr e seen ws
    | some d =>
      if seen.contains d then descErr e seen ws
      else if seen.length = 64 then some { code := 0x03, detail := 0x300 + d.val % 256, word := k }
      else descErr e (d :: seen) ws

/-! ### The rendezvous and the loops (R46, R120, R304) -/

/-- The entries of the loop table that are `time` loops, against the words (R304, R316). -/
def loopTableErr (ws : List (Nat × W64)) (tab : List (Nat × Nat × Bool × Nat × Nat × Nat)) : Option LoadErr :=
  let times := tab.filter fun e => e.1 == 0
  let loops := ws.filterMap fun w => (wordLoop w.2).map fun l => (w.1, l)
  let miss := loops.find? fun x => (times.filter fun e => e.2.2.2.2.1 == x.1).length != 1
  let bad := times.find? fun e => !(loops.any fun x =>
    x.1 == e.2.2.2.2.1 && x.2.1 == e.2.1 && x.2.2.1 == e.2.2.1 && x.2.2.2.2 == e.2.2.2.2.2
      && (if x.2.2.1 then x.2.2.2.1 else x.2.2.2.1 + 1) == e.2.2.2.1)
  firstOf [miss.map fun x => { code := 0x01, word := x.1 }, bad.map fun e => { code := 0x01, word := e.2.2.2.2.1 }]

/-- Whether a loop's count is a constant that the constants of an inflection do not give (R316), and whether it lies outside
1 to 2^20 (R120); without an inflection a constant count is not judged. -/
def countBad (consts : Option (List Nat)) (c : Bool) (x : Nat) : Bool × Bool :=
  match consts with
  | some cs => (c && decide (cs.length ≤ x), decide (loopCount cs c x < 1) || decide (2 ^ 20 < loopCount cs c x))
  | none => (false, !c && (decide (loopCount [] c x < 1) || decide (2 ^ 20 < loopCount [] c x)))

/-- The nesting of loops (R120): the open bodies, innermost first, as the indices after their last words. -/
def nestErr (n : Nat) (consts : Option (List Nat)) : List Nat → List (Nat × W64) → Option LoadErr
  | _, [] => none
  | opens, w :: ws =>
    let opens := opens.filter fun e => decide (w.1 < e)
    match wordLoop w.2 with
    | none => nestErr n consts opens ws
    | some (d, c, x, words) =>
      let last := w.1 + 1 + words
      if (countBad consts c x).1 then some { code := 0x03, word := w.1 }
      else if d ≠ opens.length ∨ n < last ∨ (opens.any fun e => decide (e < last)) ∨ n - 1 < last ∨ (countBad consts c x).2 then
        some { code := 0x01, word := w.1 }
      else nestErr n consts (last :: opens) ws

/-- The issue rule of R121 for one loop: no body word before t0 + 1, none of the words after it by t0 + P × N. -/
def loopTickErr (ws : List W64) (plan : List Nat) (l : LoopPlan) : Option LoadErr :=
  let e (k : Nat) : LoadErr := { code := 0x08, detail := fld (nth ws k 0).toNat 63 61, word := k }
  let early := (range' (l.widx + 1) l.words).find? fun k => decide (nth plan k 0 ≤ l.t0)
  let after := l.widx + 1 + l.words
  let soon := (range' after (plan.length - after)).find? fun k => decide (nth plan k 0 ≤ l.t0 + l.period * l.count)
  firstOf [early.map e, soon.map e]

/-! ### The expanded timetable -/

/-- Fetch order with its ticks (R293): word index and issue tick; the fuel bounds the issues of a clause. -/
def fetchOrder (plan : List Nat) (loops : List LoopPlan) : Nat → Nat → List (Nat × Nat) → List (Nat × Nat)
  | 0, _, _ => []
  | fuel + 1, pos, iters =>
    if pos < plan.length then
      let x := cursorNext loops pos iters
      (pos, cursorTick plan loops pos iters) :: fetchOrder plan loops fuel x.1 x.2
    else []

/-- An issue: its tick, engine code, word index, and what is static of it. -/
structure Issue where
  tick : Nat
  eng : Nat
  word : Nat
  instr : Instr
  st : StaticWord
  deriving DecidableEq, Repr

/-- All issues of a clause in order of tick and engine. -/
def issuesOf (ws : List W64) (plan : List Nat) (loops : List LoopPlan) : List Issue :=
  let dec := ws.map fun w => (decodeWord w.toNat).getD .resultLand
  let st := dec.map staticOf
  ((fetchOrder plan loops (2 ^ 24) 0 []).map fun x =>
    (⟨x.2, fld (nth ws x.1 0).toNat 63 61, x.1, nth dec x.1 .resultLand, nth st x.1 {}⟩ : Issue)).mergeSort
    fun a b => decide (a.tick * 8 + a.eng ≤ b.tick * 8 + b.eng)

/-- The first number that a rising list of (number, word) holds twice, as its later word. -/
def twice : List (Nat × Nat) → Option Nat
  | a :: b :: xs => if a.1 = b.1 then some b.2 else twice (b :: xs)
  | _ => none

/-- The same of any list. -/
def clash (xs : List (Nat × Nat)) : Option Nat := twice (xs.mergeSort fun a b => decide (a.1 < b.1 || (a.1 = b.1 && a.2 ≤ b.2)))

/-- The slots of a static line write. -/
def lineSlots (s : StaticLine) : List Nat :=
  match s.line.ix with
  | .reg _ _ => []
  | .imm i =>
    let l : LineAt := ⟨s.line.tile.val, s.line.dir, i.val⟩
    if isTwo s.ty then (range' 0 s.n).flatMap fun k => [(l.key k true).1, (l.key k true).2]
    else (range' 0 (if s.ty.isH16 then (s.n + 1) / 2 else s.n)).map fun k => (l.key k false).1

/-- The slots that a mac word drains into, with the offset of each (R148). -/
def drainSlots (tile : Nat) (col : Bool) (idx n : Nat) (dm : Drain) : List (Nat × Nat) :=
  (range' 0 n).flatMap fun i => (range' 0 256).flatMap fun c =>
    let o := i + c + 260
    match dm with
    | .nd => []
    | .x72 => [(o, slotKey tile c ((idx + 2 * i) % 256)), (o, slotKey tile c ((idx + 2 * i + 1) % 256))]
    | _ => [(o, if col then slotKey tile c ((idx + i) % 256) else slotKey tile ((idx + i) % 256) c)]

/-- The fields of a mac word: line, rows, drain. -/
def macOf : Instr → Option (Line × Nat × Drain)
  | .mMacS9 _ _ _ _ l rows dm _ _ | .mMacS5 _ _ _ _ l rows dm _ _ | .mSpmacS9 _ _ _ _ l rows dm _ => some (l, rows.val + 1, dm)
  | _ => none

/-- Whether row offsets, which the loader does not see, give the destinations of a word (R151). -/
def isSparse : Instr → Bool
  | .mSpmacS9 .. => true
  | _ => false

/-- The static writes of MRF slots: offset and slot. -/
def slotWrites (x : Issue) : List (Nat × Nat) :=
  match macOf x.instr, x.st.slots with
  | some (l, n, dm), _ =>
    (match l.ix with
      | .imm i => if isSparse x.instr then [] else drainSlots l.tile.val (l.dir == .c) i.val n dm
      | .reg _ _ => [])
  | none, some s => (lineSlots s).map fun k => (s.lat, k)
  | none, none => []

/-- Two writes that land on one register or slot in one tick (R36), two MRF lines (R159). -/
def landErr (xs : List Issue) : Option LoadErr :=
  let regs := xs.flatMap fun x => x.st.regs.map fun k => ((x.tick + k.1) * 2 ^ 40 + k.2, x.word)
  let ports := xs.filterMap fun x => x.st.port.map fun o => (x.tick + o, x.word)
  let slots := xs.flatMap fun x => (slotWrites x).map fun k => ((x.tick + k.1) * 2 ^ 40 + k.2, x.word)
  firstOf [(clash regs).map fun w => { code := 0x07, detail := 57, word := w },
    (clash ports).map fun w => { code := 0x07, detail := 49, word := w },
    (clash slots).map fun w => { code := 0x07, detail := 57, word := w }]

/-- Landings after the rendezvous (R46). -/
def rdvErr (rdv : Nat) (xs : List Issue) : Option LoadErr :=
  (xs.find? fun x => (x.st.last != 0 || x.st.here) && decide (rdv < x.tick + x.st.last)).map fun x => { code := 0x0A, word := x.word }

/-- The ticks at which the F64 pipeline is taken (R160). -/
def pipeTicks (x : Issue) : List (Nat × Nat) :=
  let f (ty : VTy) (d : Line) : List (Nat × Nat) :=
    if ty = .f64 then (x.tick, x.word) :: (if d.dir != .r then [(x.tick + 1, x.word)] else []) else []
  match x.instr with
  | .vAdd _ ty d _ _ | .vSub _ ty d _ _ | .vMul _ ty d _ _ | .vFma _ ty d _ _ | .vFms _ ty d _ _ | .vDiv _ ty d _ _ => f ty d
  | .vSqrt _ ty d _ _ => f ty d
  | _ => []

/-- The row port of the first rows (R285). -/
def rowPort (x : Issue) : List (Nat × Nat) :=
  match x.instr with
  | .lRow _ _ ty _ _ _ _ land => [(x.tick + land.val + firstRowBeats ty - 1, x.word)]
  | .wRow .. => [(x.tick, x.word)]
  | _ => []

/-- The holds of the image port (R238). -/
def portHold (x : Issue) : Option (Nat × Nat × Nat) :=
  match x.instr with
  | .gBind .. => some (x.tick, 64, x.word)
  | .gStep _ _ _ ls => some (x.tick, ls.val, x.word)
  | .gMask _ _ _ _ lm => some (x.tick, lm.val, x.word)
  | _ => none

/-- Of intervals in order of their first ticks, the word of one that begins before an earlier one ends. -/
def overlap : Nat → List (Nat × Nat × Nat) → Option Nat
  | _, [] => none
  | free, (t, n, w) :: xs => if t < free then some w else overlap (max free (t + n)) xs

/-- The accesses to AB whose ticks the image gives (R187): first offset, ticks, and whether each takes all 32 banks, so that
the address does not matter. A line of 2,048 bytes or more takes them all, and so do gathers, scatters and bitmap words;
the rows of mac words, the exponent entry of `m.wld`, the groups of `g.mask`, and the tokens and records of the other grammar
words take some (R143, R146, R240, R241, R243). -/
def abTicks : Instr → Option (Nat × Nat × Bool)
  | .vLd _ ty l _ _ _ | .vSt _ ty l _ _ _ | .vPop _ ty l _ _ | .vPush _ ty l _ _ =>
    let b := lineBytes ty l.dir
    some (0, if 2048 < b then 2 else 1, decide (2048 ≤ b))
  | .vGather .. | .vBtest .. => some (0, 8, true)
  | .vScatter .. | .vBset .. => some (0, 9, true)
  | .mWld .. => some (0, 1, false)
  | .gMask _ _ _ v lm =>
    let n := cdiv (512 * (v.val + 1)) 2048
    some (lm.val + 1 - n, n, false)
  | .gStep _ _ (.ab _) _ | .gRestore .. => some (0, 1, false)
  | .gSave .. | .gState .. => some (4, 1, false)
  | i => (macOf i).map fun m => (0, m.2.1, false)

/-- Those ticks of an issue, twice the tick, less one half where all banks are taken, with the word. -/
def abTaken (x : Issue) : List (Nat × Nat) :=
  match abTicks x.instr with
  | some (o, n, all) => (range' (x.tick + o) n).map fun t => (2 * t + (if all then 0 else 1), x.word)
  | none => []

/-- Of a rising list of such ticks, the word that meets one that takes all banks. -/
def bankTwice : List (Nat × Nat) → Option Nat
  | a :: b :: xs => if a.1 / 2 = b.1 / 2 ∧ a.1 % 2 = 0 then some b.2 else bankTwice (b :: xs)
  | _ => none

/-- A static conflict on AB banks (R19, R187): it holds on bank 0 at whatever addresses (assumption 98). -/
def bankErr (xs : List Issue) : Option LoadErr :=
  (bankTwice ((xs.flatMap abTaken).mergeSort fun a b => decide (a.1 < b.1 || (a.1 = b.1 && a.2 ≤ b.2)))).map fun w =>
    { code := 0x07, word := w }

/-- Ports and pipelines. -/
def portErr (xs : List Issue) : Option LoadErr :=
  firstOf [(clash (xs.flatMap pipeTicks)).map fun w => { code := 0x07, detail := 50, word := w },
    (clash (xs.flatMap rowPort)).map fun w => { code := 0x07, detail := 48, word := w },
    (overlap 0 (xs.filterMap portHold)).map fun w => { code := 0x07, detail := 51, word := w }]

/-! ### The matrix engine (R145, R153) -/

/-- Weight loads: overlapping with one another. -/
def wldTicks (xs : List Issue) : List (Nat × Nat × Nat) :=
  xs.filterMap fun x => match x.instr with | .mWld .. => some (x.tick, 64, x.word) | _ => none
def macTicks (xs : List Issue) : List (Nat × Nat × Nat) :=
  xs.filterMap fun x => (macOf x.instr).map fun m => (x.tick, m.2.1, x.word)
def swapTicks (xs : List Issue) : List (Nat × Nat) :=
  xs.filterMap fun x => match x.instr with | .mSwap .. => some (x.tick, x.word) | _ => none

/-- Whether an odd number of swaps comes before a tick: which set is active then. -/
def swapped (sw : List (Nat × Nat)) (t : Nat) : Bool := (sw.filter fun s => decide (s.1 < t)).length % 2 == 1

/-- What sets the shape before a tick, where the clause's `m.shape` did so last (R152, R153). -/
def shapeAt (xs : List Issue) (t : Nat) : Option (Fin 16) :=
  (xs.foldl (fun (acc : Option (Fin 16)) (x : Issue) =>
    if x.tick < t then (match x.instr with
      | .mShape _ _ m => some m
      | .sWrctl _ .shape _ _ => none
      | _ => acc)
    else acc) none)

/-- What the clause has done to the power of a band before a tick, from what it is at the start (none: not known): asleep, or
waking since a tick. -/
def bandAt (xs : List Issue) (start : Option (Option Nat)) (b t : Nat) : Option (Option Nat) :=
  xs.foldl (fun (acc : Option (Option Nat)) (x : Issue) =>
    if x.tick < t then (match x.instr with
      | .mSleep _ _ m => if m.val / 2 ^ b % 2 = 1 then some none else acc
      | .mWake _ _ m => if m.val / 2 ^ b % 2 = 1 ∧ acc = some none then some (some x.tick) else acc
      | _ => acc)
    else acc) start

/-- Whether a band takes part in no product at a tick. -/
def bandIdle (xs : List Issue) (b t : Nat) : Bool :=
  match bandAt xs none b t with
  | some none => true
  | some (some w) => decide (t < w + 96)
  | none => false

/-- The bands of a shape. -/
def shapeBands (m : Fin 16) : List Nat := (range' 0 4).filter fun b => m.val / 2 ^ b % 2 == 1

/-- The intervals in which a band wakes. A band that the clause has not slept may have been slept by an earlier one, and an
`m.wake` of it counts (assumption 97). -/
def wakeTicks (xs : List Issue) : List (Nat × Nat) :=
  xs.filterMap fun x => match x.instr with
    | .mWake _ _ m =>
      if (shapeBands m).any fun b => bandAt xs (some none) b x.tick == some none then some (x.tick, x.word) else none
    | _ => none

/-- The checks of R145 and R153. -/
def matrixErr (xs : List Issue) : Option LoadErr :=
  let e (w : Nat) : LoadErr := { code := 0x07, word := w }
  let wld := wldTicks xs
  let mac := macTicks xs
  let sw := swapTicks xs
  let shapes := xs.filterMap fun x => match x.instr with | .mShape .. => some (x.tick, x.word) | _ => none
  let inMac (s : Nat × Nat) : Bool := mac.any fun m => decide (m.1 ≤ s.1) && decide (s.1 + 2 ≤ m.1 + m.2.1)
  let inWld (s : Nat × Nat) : Bool := wld.any fun x => decide (x.1 ≤ s.1) && decide (s.1 ≤ x.1 + 63)
  let held (x : Nat × Nat × Nat) : Bool := mac.any fun m =>
    decide (m.1 ≤ x.1) && decide (x.1 ≤ m.1 + m.2.1 + 514) && (swapped sw m.1 != swapped sw x.1)
  let asleep (m : Nat × Nat × Nat) : Bool :=
    match shapeAt xs m.1 with
    | some sh => (range' m.1 m.2.1).any fun t => (shapeBands sh).any fun b => bandIdle xs b t
    | none => false
  let waking (x : Nat × Nat × Nat) : Bool := (wakeTicks xs).any fun w => decide (w.1 ≤ x.1 + 63) && decide (x.1 ≤ w.1 + 95)
  let sleeps := xs.filterMap fun x => match x.instr with | .mSleep _ _ m => some (x.tick, m, x.word) | _ => none
  let cut (z : Nat × Fin 16 × Nat) : Bool := mac.any fun m =>
    decide (m.1 ≤ z.1 + 1) && decide (z.1 + 1 ≤ m.1 + m.2.1 + 514) && (match shapeAt xs m.1 with
      | some sh => (shapeBands sh).any fun b => (shapeBands z.2.1).contains b
      | none => false)
  firstOf [(overlap 0 wld).map e, (sw.find? inWld).map fun x => e x.2, (wld.find? held).map fun x => e x.2.2,
    (overlap 0 mac).map e, (sw.find? inMac).map fun x => e x.2, (shapes.find? inMac).map fun x => e x.2,
    (mac.find? asleep).map fun x => e x.2.2, (wld.find? waking).map fun x => e x.2.2, (sleeps.find? cut).map fun x => e x.2.2]

/-! ### Tokens (R294) -/

/-- Token movements: tick, place within it (pushes first, then pops in engine order), FIFO, count, word. -/
def tokenMoves (xs : List Issue) : List (Nat × Bool × Fin 6 × Nat × Nat) :=
  (xs.flatMap fun x => (x.st.pushes.map fun p => ((x.tick + x.st.push) * 16, true, p.1, p.2, x.word))
    ++ x.st.pops.map fun p => (x.tick * 16 + 1 + x.eng, false, p.1, p.2, x.word)).mergeSort fun a b => decide (a.1 ≤ b.1)

/-- The counts of the FIFOs along movements; at their end every one is empty. -/
def tokenRun (n : Nat) : Vector Nat 6 → List (Nat × Bool × Fin 6 × Nat × Nat) → Option LoadErr
  | v, [] =>
    ((List.finRange 6).find? fun f => v[f] != 0).map fun f => { code := 0x06, detail := f.val, word := n - 1 }
  | v, (_, push, f, k, w) :: ms =>
    let e : LoadErr := { code := 0x06, detail := f.val, word := w }
    if push then (if 8 < v[f] + k then some e else tokenRun n (v.set f (v[f] + k)) ms)
    else if v[f] < k then some e else tokenRun n (v.set f (v[f] - k)) ms

/-- The token count of an image (R294): every FIFO is empty at the tick of `y.rdv`, and what moves after it is counted on from
there. -/
def tokenErr (n rdv : Nat) (xs : List Issue) : Option LoadErr :=
  let run (ms : List (Nat × Bool × Fin 6 × Nat × Nat)) := tokenRun n (Vector.replicate 6 0) ms
  let ms := tokenMoves xs
  firstOf [run (ms.filter fun m => decide (m.1 / 16 ≤ rdv)), run (ms.filter fun m => decide (rdv < m.1 / 16))]

/-! ### Fetch (R293) -/

/-- What leaves the queues at a tick. -/
def issueAll (c : Core) (t16 : Nat) : Core :=
  { c with queues := Vector.ofFn fun e => (c.queues[e]).filter fun x => decide (t16 < x.tick + 16) }

/-- A word that a tick of fetch delivers too late to issue: its tick has come, or is past. -/
def lateEntry (c d : Core) (t16 : Nat) : Option QEntry :=
  (List.finRange 8).findSome? fun e => ((d.queues[e]).drop (c.queues[e]).length).find? fun x => decide (x.tick + 16 ≤ t16)

/-- The fetch model from tick −16 on: whether a word is delivered later than the tick before its issue. -/
def fetchRun : Nat → Nat → Core → Option LoadErr
  | 0, _, _ => none
  | fuel + 1, t16, c =>
    if c.plan.length ≤ c.pos then none
    else
      let d := c.fetch 4
      match lateEntry c d t16 with
      | some x => some { code := 0x08, detail := engNo (engOfWord x.word), word := x.widx }
      | none => fetchRun fuel (t16 + 1) (issueAll d t16)

/-! ### The image -/

/-- The y.rdv tick of a plan: its last word's. -/
def rdvTick (plan : List Nat) : Nat := plan.getLast?.getD 0

/-- The checks of an image that need no timetable: its words (R63), its descriptors (R203), its one `y.rdv`, its last word
(R46), and its loop table (R304). `y.rdv` is last in image order, and R46's 'any word after it' is judged by that order alone: a
word earlier in the image whose issue tick is later is refused only where R46 judges a landing of it (assumption 99). -/
def wordsErr (replay detect : Bool) (im : Image) : Option LoadErr :=
  let ws := place 0 im.words
  let n := im.words.length
  let dec := decoded im.words
  let numbered := dec.map fun x => (x.1, x.2, fld (nth im.words x.1 0).toNat 63 61)
  let rdvs := (dec.filter fun x => isRdv x.2).map Prod.fst
  firstOf [firstOf (ws.map (wordErr replay detect)), descErr 4 [] numbered, descErr 5 [] numbered,
    descErr 6 [] numbered,
    refuse (rdvs != [n - 1]) { code := 0x0A, word := (rdvs.find? fun w => w != n - 1).getD (n - 1) },
    loopTableErr ws im.loops]

/-- All checks of an image under the constants of an inflection (none: no inflection names it, and where a count is a constant
its timetable is not known); `core` gives the queue minima and caps in force. -/
def imageErr (core : Core) (replay detect : Bool) (consts : Option (List Nat)) (im : Image) : Option LoadErr :=
  let n := im.words.length
  match firstOf [wordsErr replay detect im, nestErr n consts [] (place 0 im.words)] with
  | some e => some e
  | none =>
    if consts.isNone && (im.words.any fun w => (wordLoop w).any fun l => l.2.1) then none else
    let (plan, loops) := planOf (consts.getD []) im.words
    match firstOf [firstOf (loops.map (loopTickErr im.words plan)),
      refuse (decide (2 ^ 20 ≤ rdvTick plan)) { code := 0x0A, word := n - 1 }] with
    | some e => some e
    | none =>
      let xs := issuesOf im.words plan loops
      firstOf [rdvErr (rdvTick plan) xs, landErr xs, portErr xs, bankErr xs, matrixErr xs, tokenErr n (rdvTick plan) xs,
        fetchRun (2 ^ 20 + 16) 0 { Core.reset with
          im0 := im.words, plan := plan, loops := loops, qmin := core.qmin, qcap := core.qcap }]

/-- What is found at a word of image k, with the word, its engine and its clause tick (R316, R338). -/
def LoadErr.at (e : LoadErr) (consts : List Nat) (im : Image) (k : Nat) : LoadErr :=
  { e with
    image := k
    src := (im.words[e.word]?).map fun w => ⟨engOfWord w, e.word, w, nth (planOf consts im.words).1 e.word 0, 0, false⟩ }

end Sys2Proof.Machine
end

