-- ==== Sys2Proof/Machine/Loader.lean ====
section
/-! DEFINITION. The loader: reading a phase table and its images from device memory (R299 to R308, R331), and the checks of
R312, R313 and R316. The order of the checks is the model's (assumption 24): headers and entries in the order in which they
stand, then each inflection's core map, gates, images and translations. -/

namespace Sys2Proof.Machine

/-! ### Reading device memory -/

/-- Bytes of device memory for the loader: every page must be present and grant R, and no byte be poisoned (R331). -/
def State.loadBytes (s : State) (p va n : Nat) : Except LoadErr (List Byte) :=
  if 2 ^ 52 < va + n then .error { code := 0x22, addr := va }
  else match s.pieces p .load (n / 65536 + 2) va n with
    | .error t => .error { code := t.code, detail := t.detail, addr := t.addr }
    | .ok hs =>
      let bs := s.homeReads hs
      match (place va bs).find? fun b => b.2.isNone with
      | some b => .error { code := 0x18, addr := b.1 / 64 * 64 }
      | none => .ok (bs.filterMap id)

/-- A little-endian field of n bytes. -/
def u (bs : List Byte) (off n : Nat) : Nat := leNat (slice bs off n)

/-- Whether n bytes from an offset are zero. -/
def zeros (bs : List Byte) (off n : Nat) : Bool := u bs off n == 0

/-- A structure that does not hold together: code 0x01 (R316). -/
def bad01 : LoadErr := { code := 0x01 }

/-- A result whose refusal is named further. -/
def named {α : Type} (f : LoadErr → LoadErr) : Except LoadErr α → Except LoadErr α
  | .ok x => .ok x
  | .error e => .error (f e)

/-- A check. -/
def ensure (b : Bool) (e : LoadErr) : Except LoadErr Unit := if b then .ok () else .error e

/-- An offset is a multiple of 64, and the structure lies in the table (R299). -/
def inTable (len off n : Nat) : Bool := off % 64 == 0 && decide (off + n ≤ len)

/-- All of a list, or its first error. -/
def allOk {α : Type} : List (Except LoadErr α) → Except LoadErr (List α)
  | [] => .ok []
  | .error e :: _ => .error e
  | .ok x :: xs =>
    match allOk xs with
    | .ok ys => .ok (x :: ys)
    | .error e => .error e

/-- n entries of z bytes from an offset. -/
def entries (bs : List Byte) (off z n : Nat) : List (List Byte) := (range' 0 n).map fun i => slice bs (off + z * i) z

/-! ### The structures -/

/-- R305. -/
def parseRegion (b : List Byte) : Except LoadErr RegionEnt :=
  let size := u b 8 8
  let mode := u b 25 1
  if size < 64 ∨ size % 64 ≠ 0 ∨ u b 16 8 % 64 ≠ 0 ∨ 4 < u b 24 1 ∨ 4 < mode ∨ 7 < u b 26 1 ∨ (mode ≠ modeACC ∧ u b 26 1 ≠ 0)
    ∨ !(zeros b 27 5) then .error bad01
  else .ok ⟨u b 0 8, size, sint 64 (u b 16 8), u b 24 1, mode, u b 26 1⟩

/-- R306: buffer, address, size. -/
def parseLive (b : List Byte) : Except LoadErr (Nat × Nat × Nat) :=
  if u b 0 4 % 64 ≠ 0 ∨ u b 4 4 % 64 ≠ 0 ∨ u b 8 1 < 1 ∨ 4 < u b 8 1 ∨ !(zeros b 9 7) then .error bad01
  else .ok (u b 8 1, u b 0 4, u b 4 4)

/-- R307. -/
def parseGate (b : List Byte) : Except LoadErr GateDecl :=
  if u b 0 8 % 8 ≠ 0 ∨ 3 < u b 16 1 ∨ 1 < u b 17 1 ∨ !(zeros b 18 14) then .error bad01
  else .ok ⟨u b 0 8, BitVec.ofNat 64 (u b 8 8), u b 16 1, u b 17 1 == 1⟩

/-- R308. -/
def parseMirror (b : List Byte) : Except LoadErr Mirror :=
  if 31 < u b 0 1 ∨ u b 4 2 = 0 ∨ u b 6 2 % 8 ≠ 0 ∨ !(zeros b 1 3) ∨ !(zeros b 8 8) then .error bad01
  else .ok ⟨u b 0 1, u b 4 2, u b 6 2⟩

/-- R302: clause image, s1, s2. -/
def parseCore (b : List Byte) : Except LoadErr (Nat × Nat × Nat) :=
  if zeros b 6 2 then .ok (u b 0 2, u b 2 2, u b 4 2) else .error bad01

/-- R301, with its tables; `ncores` cores in the partition. -/
def parseInfl (t : List Byte) (len ncores : Nat) (b : List Byte) : Except LoadErr Infl := do
  let cc := u b 4 2
  let rc := u b 6 2
  let lc := u b 8 2
  ensure (decide (cc ≤ 64 ∧ rc ≤ 256 ∧ lc ≤ 256) && zeros b 10 6 && zeros b 48 16) bad01
  ensure (inTable len (u b 16 8) (8 * cc) && inTable len (u b 24 8) (8 * ncores) && inTable len (u b 32 8) (32 * rc)
    && inTable len (u b 40 8) (16 * lc)) bad01
  let cores ← allOk ((entries t (u b 24 8) 8 ncores).map parseCore)
  let regions ← allOk ((entries t (u b 32 8) 32 rc).map parseRegion)
  let live ← allOk ((entries t (u b 40 8) 16 lc).map parseLive)
  return ⟨u b 0 4, (entries t (u b 16 8) 8 cc).map leNat, cores, regions, live⟩

/-- The first bound that is not above the one before it (R301), with its place; `i` is the place of the first. -/
def notRising : Nat → List Nat → Option Nat
  | i, a :: b :: xs => if b ≤ a then some (i + 1) else notRising (i + 1) (b :: xs)
  | _, _ => none

/-- R300, R313. -/
def parsePhase (t : List Byte) (len n ncores : Nat) (b : List Byte) : Except LoadErr PhaseEnt := do
  let flags := u b 0 1
  let ic := u b 1 1
  let gc := u b 2 1
  let mc := u b 3 1
  let succ := (range' 0 4).map fun k => u b (4 + 2 * k) 2
  let hint := u b 12 2
  ensure (decide (flags < 8 ∧ 1 ≤ ic ∧ ic ≤ 8 ∧ gc ≤ 64 ∧ mc ≤ 4) && zeros b 14 2 && zeros b 44 20
    && succ.all (fun x => x == 0xFFFF || decide (x < n)) && fld hint 14 5 == 0) bad01
  ensure (fld flags 2 1 != 3) bad01
  ensure (inTable len (u b 16 8) (64 * ic) && inTable len (u b 24 8) (32 * gc) && inTable len (u b 32 8) (16 * mc)) bad01
  let infls ← allOk ((place 0 (entries t (u b 16 8) 64 ic)).map fun i =>
    named (fun e => { e with infl := i.1 }) (parseInfl t len ncores i.2))
  match notRising 0 (infls.map (·.bound)) with
  | some i => .error { bad01 with infl := i }
  | none => pure ()
  let gates ← allOk ((entries t (u b 24 8) 32 gc).map parseGate)
  let mirrors ← allOk ((entries t (u b 32 8) 16 mc).map parseMirror)
  return ⟨flags % 2 == 1, fld flags 1 1 == 1, fld flags 2 2 == 1, succ, hint, u b 40 4, infls, gates, mirrors⟩

/-- R304: kind, depth, constant count, count, word index, body words. Spatial counts are judged by their product (R316). -/
def parseLoop (b : List Byte) : Except LoadErr (Nat × Nat × Bool × Nat × Nat × Nat) :=
  let kind := u b 0 1
  if 2 < kind ∨ 3 < u b 1 1 ∨ 1 < u b 2 1 ∨ !(zeros b 3 1)
    ∨ (kind ≠ 0 ∧ (u b 1 1 ≠ 0 ∨ u b 2 1 ≠ 0 ∨ u b 8 4 ≠ 0 ∨ u b 12 4 ≠ 0))
    ∨ (kind = 0 ∧ u b 2 1 = 1 ∧ 63 < u b 4 4) ∨ (kind = 0 ∧ u b 2 1 = 0 ∧ u b 4 4 = 0) then .error bad01
  else .ok (kind, u b 1 1, u b 2 1 == 1, u b 4 4, u b 8 4, u b 12 4)

/-- R303: an image of `len` bytes. -/
def parseImage (b : List Byte) (len : Nat) : Except LoadErr Image := do
  let n := u b 4 4
  let k := u b 12 2
  let lo := u b 16 8
  ensure (decide (64 ≤ len) && u b 0 4 == 0x434C4131 && decide (1 ≤ n ∧ n ≤ 32768) && decide (u b 8 4 < 2 ^ 20) && decide (k ≤ 64)
    && zeros b 14 2 && zeros b 24 36 && decide (64 + 8 * n ≤ len)) bad01
  ensure (lo % 16 == 0 && decide (64 + 8 * n ≤ lo) && decide (lo + 16 * k ≤ len)) bad01
  ensure (u b 60 4 == crc32c (slice b 0 60 ++ slice b 64 (8 * n) ++ slice b lo (16 * k))) bad01
  let loops ← allOk ((entries b lo 16 k).map parseLoop)
  return ⟨(entries b 64 8 n).map fun w => BitVec.ofNat 64 (leNat w), u b 8 4, loops⟩

/-- How many images the core maps name. -/
def imageCount (ps : List PhaseEnt) : Nat :=
  (ps.flatMap fun e => e.infls.flatMap fun i => (i.coreMap.map Prod.fst).filter (· != 0xFFFF)).foldl (fun m k => max m (k + 1)) 0

/-- An entry of the clause image directory, and its image (R303). -/
def parseDir (t : List Byte) (len dir k : Nat) : Except LoadErr Image :=
  let b := slice t (dir + 16 * k) 16
  let off := u b 0 8
  let n := u b 8 4
  if !(inTable len (dir / 64 * 64) (dir % 64 + 16 * (k + 1))) then .error { code := 0x03, image := k }
  else if !(inTable len off n) ∨ !(zeros b 12 4) then .error { code := 0x01, image := k }
  else match parseImage (slice t off n) n with
    | .ok i => .ok i
    | .error e => .error { e with image := k }

/-- R299: the header, then every structure. -/
def parseTable (t : List Byte) (len ncores : Nat) : Except LoadErr PTable := do
  let n := u t 6 2
  ensure (u t 0 4 == 0x46544231 && u t 4 2 == 1 && decide (1 ≤ n ∧ n ≤ 4096) && decide (u t 8 2 < n)
    && (u t 10 1 == 1 || u t 10 1 == 2 || u t 10 1 == 4) && zeros t 11 5 && zeros t 40 20
    && u t 60 4 == crc32c (slice t 0 60)) bad01
  ensure (inTable len (u t 16 8) (64 * n) && inTable len (u t 24 8) 0) bad01
  ensure (24 * u t 10 1 == ncores) { code := 0x03 }
  let phases ← allOk ((place 0 (entries t (u t 16 8) 64 n)).map fun x =>
    named (fun e => { e with pidx := x.1, replayable := u x.2 0 1 % 2 == 1, system := fld (u x.2 0 1) 2 2 == 1 })
      (parsePhase t len n ncores x.2))
  let images ← allOk ((range' 0 (imageCount phases)).map (parseDir t len (u t 24 8)))
  return ⟨phases, u t 8 2, u t 10 1, images⟩

/-! ### Checks of a phase (R316) -/

/-- The regions that a core with spatial index s1 holds (R305), and the constant segment, which every core reads (R330). -/
def regionsOf (i : Infl) (s1 cseg clen : Nat) : List Region :=
  (i.regions.map fun r => ⟨r.space, r.mode, r.op, ubits 64 ((r.base : Int) + s1 * r.step), r.size⟩)
    ++ (if clen = 0 then [] else [⟨0, modeR, 0, cseg, clen⟩])

/-- The cores of a map that have a clause: place in the partition, image, s1, s2. -/
def takers (i : Infl) : List (Nat × Nat × Nat × Nat) := (place 0 i.coreMap).filter fun c => c.2.1 != 0xFFFF

/-- R302 and the spatial counts of R304. -/
def mapErr (images : List Image) (i : Infl) : Option LoadErr :=
  let ts := takers i
  let bad (c : Nat × Nat × Nat × Nat) : Bool :=
    decide (images.length ≤ c.2.1) || decide (c.2.2.2 ≤ c.2.2.1) || decide (96 < c.2.2.2)
      || (((nth images c.2.1 ⟨[], 0, []⟩).loops.filter fun l => l.1 != 0).map fun l => l.2.2.2.1).foldl (· * ·) 1 != c.2.2.2
      || (ts.filter fun d => d.2 == c.2).length != 1
  (ts.find? bad).map fun c => { code := 0x03, image := c.2.1 }

/-- A gate that lies in no SHR region of some core with a clause (R307). -/
def gateErr (gates : List GateDecl) (i : Infl) : Option LoadErr :=
  (gates.find? fun g => (takers i).any fun c =>
    !((regionsOf i c.2.2.1 0 0).any fun r =>
      r.space == 0 && r.mode == modeSHR && decide (r.base ≤ g.addr) && decide (g.addr + 8 ≤ r.base + r.size))).map fun g =>
    { code := 0x20, addr := g.addr }

/-- The pages that an interval touches, up to the first that does not translate; fuel bounds them. -/
def State.pagesOf (s : State) (p : Nat) : Nat → Nat → Nat → List (Nat × Nat)
  | 0, _, _ => []
  | fuel + 1, va, end_ =>
    if end_ ≤ va then []
    else match s.translate p va with
      | .ok e => (e.va, e.size) :: State.pagesOf s p fuel (e.va + e.size) end_
      | .fail _ _ _ => []

/-- The device regions of the cores of an inflection, in ascending core and region order: core, index, region. -/
def devRegions (low cseg clen : Nat) (i : Infl) : List (Nat × Nat × Region) :=
  (takers i).flatMap fun c => (place 0 (regionsOf i c.2.2.1 cseg clen)).filterMap fun r =>
    if r.2.space = 0 then some (low + c.1, r.1, r.2) else none

/-- The first region at which the pages of the regions before it and its own are more than 8,192; `seen` are those regions,
`pages` their pages. -/
def State.pagesOver (s : State) (p : Nat) : List Region → List (Nat × Nat) → List (Nat × Nat × Region) → Option (Nat × Nat × Region)
  | _, _, [] => none
  | seen, pages, x :: xs =>
    if seen.contains x.2.2 then State.pagesOver s p seen pages xs
    else
      let all := (pages ++ s.pagesOf p 8193 x.2.2.base (x.2.2.base + x.2.2.size)).eraseDups
      if 8192 < all.length then some x else State.pagesOver s p (x.2.2 :: seen) all xs

/-- More than 8,192 translations (R316): the region at which they are, its core and its index (R340). -/
def State.pageErr (s : State) (p cseg clen : Nat) (i : Infl) : Option LoadErr :=
  (s.pagesOver p [] [] (devRegions (24 * p) cseg clen i)).map fun x =>
    { code := 0x22, detail := 256, addr := x.2.2.base, ext := leBytes 2 x.1 ++ leBytes 2 x.2.1 }

/-- An RW or ACC region of device memory in a replayable phase (R312). Its record names the lowest core that holds it twice, its
index twice, and the first granule of that core's instance, where it translates (assumption 100). -/
def State.modeErr (s : State) (p : Nat) (replay : Bool) (i : Infl) : Option LoadErr :=
  if !replay then none
  else (place 0 i.regions).findSome? fun r =>
    if r.2.space = 0 ∧ (r.2.mode = modeRW ∨ r.2.mode = modeACC) then
      let x := (devRegions (24 * p) 0 0 i).find? fun d => d.2.1 == r.1
      let c := (x.map (·.1)).getD 0xFF
      let g := (x.map fun d => match s.translate p d.2.2.base with
        | .ok e => homeAddr (e.at' d.2.2.base) / 64 * 64
        | .fail _ _ _ => 0).getD 0
      some { code := 0x21, ext := [BitVec.ofNat 8 c, BitVec.ofNat 8 c] ++ leBytes 2 r.1 ++ leBytes 2 r.1 ++ [0, 0] ++ leBytes 8 g }
    else none

/-- The images of an inflection: each once, under its constants, then the rendezvous of every core (R12). A count that a
constant gives is judged in the inflections whose core maps name the image, which is how R120's 'in any inflection' is read
(assumption 101). -/
def imagesErr (core : Core) (replay detect : Bool) (images : List Image) (low cap : Nat) (i : Infl) : Option LoadErr :=
  let named := ((takers i).map fun c => c.2.1).eraseDups
  let e := firstOf (named.map fun k =>
    let im := nth images k ⟨[], 0, []⟩
    (imageErr core replay detect (some i.consts) im).map fun e => e.at i.consts im k)
  let late := (takers i).find? fun c =>
    let im := nth images c.2.1 ⟨[], 0, []⟩
    decide (cap ≤ stagger (low + c.1) + rdvTick (planOf i.consts im.words).1)
  firstOf [e, late.map fun c =>
    let im := nth images c.2.1 ⟨[], 0, []⟩
    ({ code := 0x0A, word := im.words.length - 1 } : LoadErr).at i.consts im c.2.1]

/-- The phase cap in force: 0 acts as 2^20 (R344). -/
def Part.cap (p : Part) : Nat := if p.pcap = 0 then 2 ^ 20 else min (2 ^ 20) p.pcap.toNat

/-- All checks of phase k. -/
def State.phaseErr (s : State) (p : Nat) (detect : Bool) (cseg clen : Nat) (images : List Image) (x : Nat × PhaseEnt) : Option LoadErr :=
  let cap := (s.part p).cap
  let e := x.2
  (firstOf (refuse (decide (cap < e.span)) { code := 0x0A } :: (place 0 e.infls).map fun i =>
    (firstOf [s.modeErr p e.replayable i.2, mapErr images i.2, gateErr e.gates i.2,
      imagesErr (s.core (24 * p)) e.replayable detect images (24 * p) cap i.2, s.pageErr p cseg clen i.2]).map fun r =>
    { r with infl := i.1 })).map fun r => { r with pidx := x.1, replayable := e.replayable, system := e.system }

/-- Whether a core map of the table names image k. -/
def PTable.names (t : PTable) (k : Nat) : Bool :=
  t.phases.any fun e => e.infls.any fun i => i.coreMap.any fun c => c.1 == k

/-- The loader (R316, R331): the table with its images, or the refusal. -/
def State.loadTable (s : State) (p : Nat) (l : Launch) : Except LoadErr PTable := do
  let head ← s.loadBytes p l.ptab 64
  let len := u head 32 8
  ensure (decide (64 ≤ len ∧ len ≤ 2 ^ 26)) bad01
  let t ← s.loadBytes p l.ptab len
  let tab ← parseTable t len (24 * s.mod.quarters)
  let _ ← s.loadBytes p l.cseg l.clen
  match firstOf [firstOf ((place 0 tab.phases).map (s.phaseErr p l.detect l.cseg l.clen tab.images)),
    firstOf (((place 0 tab.images).filter fun i => !tab.names i.1).map fun i =>
      (imageErr (s.core (24 * p)) false l.detect none i.2).map fun e => e.at [] i.2 i.1)] with
  | some e => .error e
  | none => .ok tab

end Sys2Proof.Machine
end

