-- ==== Sys2Proof/Machine/Scalar.lean ====
section
/-! DEFINITION. The scalar words (R107 to R125). -/

namespace Sys2Proof.Machine

/-! ### Shared forms -/

/-- A word that computes sD from its operands and raises no flag (R107, R108, R110). -/
def State.intWord (s : State) (fr : Frame) (d : Fin 32) (lat : Nat) (v : Option W64) : Result :=
  .next (s.issue { pred := fr.pred, on := .ok [landAt lat [.setS d v]] })

/-- A result of two registers; none is poisoned. -/
def both (f : W64 → W64 → W64) (a b : Option W64) : Option W64 :=
  match a, b with
  | some x, some y => some (f x y)
  | _, _ => none

/-- An SR word. -/
def State.rr (s : State) (fr : Frame) (d a b : Fin 32) (lat : Nat) (f : W64 → W64 → W64) : Result :=
  s.intWord fr d lat (both f (s.regs.getS a) (s.regs.getS b))

/-- An SI word: the immediate is sign-extended (R110). -/
def State.ri (s : State) (fr : Frame) (d a : Fin 32) (imm : BitVec 36) (lat : Nat) (f : W64 → W64 → W64) : Result :=
  s.intWord fr d lat ((s.regs.getS a).map fun x => f x (imm.signExtend 64))

/-- A shift immediate. -/
def State.rsh (s : State) (fr : Frame) (d a : Fin 32) (imm : Fin 64) (f : W64 → Nat → W64) : Result :=
  s.intWord fr d 1 ((s.regs.getS a).map fun x => f x imm.val)

/-- The shift count of a register operand (R110). -/
def shiftCount (b : W64) : Nat := b.toNat % 64

/-- Quotients and remainders (R110). -/
def divS (a b : W64) : W64 := if b = 0 then BitVec.allOnes 64 else BitVec.sdiv a b
def divU (a b : W64) : W64 := if b = 0 then BitVec.allOnes 64 else a / b
def remS (a b : W64) : W64 := BitVec.srem a b
def remU (a b : W64) : W64 := a % b

/-- Bits 127:64 of the products. -/
def mulHighS (a b : W64) : W64 := BitVec.ofInt 64 (a.toInt * b.toInt / 2 ^ 64)
def mulHighU (a b : W64) : W64 := BitVec.ofNat 64 (a.toNat * b.toNat / 2 ^ 64)

/-- Leading zeros. -/
def clz64 (a : W64) : W64 := BitVec.ofNat 64 (if a = 0 then 64 else 63 - ilog2 a.toNat)

/-- A integer relation (R56). -/
def intCc (cc : Cc) (a b : W64) : Bool :=
  match cc with
  | .eq => a == b
  | .ne => a != b
  | .lt => BitVec.slt a b
  | .ge => !BitVec.slt a b
  | .ltu => BitVec.ult a b
  | .geu => !BitVec.ult a b
  | .uo => false

/-- A word that writes pD. -/
def State.predWord (s : State) (fr : Frame) (pd : Fin 16) (v : PReg) : Result :=
  .next (s.issue { pred := fr.pred, on := .ok [landAt 1 [.setP pd v]] })

/-- A compare (R112): a poisoned operand writes 0 and the mark. -/
def cmpReg (cc : Cc) (a b : Option W64) : PReg :=
  match a, b with
  | some x, some y => ⟨intCc cc x y, false⟩
  | _, _ => ⟨false, true⟩

/-- Predicate logic (R113). -/
def State.pp (s : State) (fr : Frame) (pd pa pb : Fin 16) (f : Bool → Bool → Bool) : Result :=
  let a := s.regs.getP pa
  let b := s.regs.getP pb
  s.predWord fr pd ⟨f a.val b.val, a.mark || b.mark⟩

/-! ### Integer words (R110, R111) -/

/-- S_NOP (R62): its idle time is in the timetable. -/
def execSNop (_w : Fin 16) (_idle : Fin 1048576) (s : State) : Result := .next (s.issue {})
def execSAdd (fr : Frame) (d a b : Fin 32) (s : State) : Result := s.rr fr d a b 1 (· + ·)
def execSSub (fr : Frame) (d a b : Fin 32) (s : State) : Result := s.rr fr d a b 1 (· - ·)
def execSMul (fr : Frame) (d a b : Fin 32) (s : State) : Result := s.rr fr d a b 3 (· * ·)
def execSMulh (fr : Frame) (d a b : Fin 32) (s : State) : Result := s.rr fr d a b 4 mulHighS
def execSMulhu (fr : Frame) (d a b : Fin 32) (s : State) : Result := s.rr fr d a b 4 mulHighU
def execSDiv (fr : Frame) (d a b : Fin 32) (s : State) : Result := s.rr fr d a b 18 divS
def execSDivu (fr : Frame) (d a b : Fin 32) (s : State) : Result := s.rr fr d a b 18 divU
def execSRem (fr : Frame) (d a b : Fin 32) (s : State) : Result := s.rr fr d a b 18 remS
def execSRemu (fr : Frame) (d a b : Fin 32) (s : State) : Result := s.rr fr d a b 18 remU
def execSAnd (fr : Frame) (d a b : Fin 32) (s : State) : Result := s.rr fr d a b 1 (· &&& ·)
def execSOr (fr : Frame) (d a b : Fin 32) (s : State) : Result := s.rr fr d a b 1 (· ||| ·)
def execSXor (fr : Frame) (d a b : Fin 32) (s : State) : Result := s.rr fr d a b 1 (· ^^^ ·)
def execSShl (fr : Frame) (d a b : Fin 32) (s : State) : Result := s.rr fr d a b 1 fun x y => x <<< shiftCount y
def execSShr (fr : Frame) (d a b : Fin 32) (s : State) : Result := s.rr fr d a b 1 fun x y => x >>> shiftCount y
def execSSar (fr : Frame) (d a b : Fin 32) (s : State) : Result := s.rr fr d a b 1 fun x y => x.sshiftRight (shiftCount y)
def execSMin (fr : Frame) (d a b : Fin 32) (s : State) : Result := s.rr fr d a b 1 fun x y => if BitVec.slt y x then y else x
def execSMax (fr : Frame) (d a b : Fin 32) (s : State) : Result := s.rr fr d a b 1 fun x y => if BitVec.slt x y then y else x
def execSMinu (fr : Frame) (d a b : Fin 32) (s : State) : Result := s.rr fr d a b 1 fun x y => if BitVec.ult y x then y else x
def execSMaxu (fr : Frame) (d a b : Fin 32) (s : State) : Result := s.rr fr d a b 1 fun x y => if BitVec.ult x y then y else x
def execSClz (fr : Frame) (d a : Fin 32) (s : State) : Result := s.intWord fr d 1 ((s.regs.getS a).map clz64)
def execSPopc (fr : Frame) (d a : Fin 32) (s : State) : Result :=
  s.intWord fr d 1 ((s.regs.getS a).map fun x => BitVec.ofNat 64 (popCount 64 x.toNat))
def execSAddi (fr : Frame) (d a : Fin 32) (imm : BitVec 36) (s : State) : Result := s.ri fr d a imm 1 (· + ·)
def execSAndi (fr : Frame) (d a : Fin 32) (imm : BitVec 36) (s : State) : Result := s.ri fr d a imm 1 (· &&& ·)
def execSOri (fr : Frame) (d a : Fin 32) (imm : BitVec 36) (s : State) : Result := s.ri fr d a imm 1 (· ||| ·)
def execSXori (fr : Frame) (d a : Fin 32) (imm : BitVec 36) (s : State) : Result := s.ri fr d a imm 1 (· ^^^ ·)
def execSShli (fr : Frame) (d a : Fin 32) (imm : Fin 64) (s : State) : Result := s.rsh fr d a imm fun x n => x <<< n
def execSShri (fr : Frame) (d a : Fin 32) (imm : Fin 64) (s : State) : Result := s.rsh fr d a imm fun x n => x >>> n
def execSSari (fr : Frame) (d a : Fin 32) (imm : Fin 64) (s : State) : Result := s.rsh fr d a imm fun x n => x.sshiftRight n
def execSMuli (fr : Frame) (d a : Fin 32) (imm : BitVec 36) (s : State) : Result := s.ri fr d a imm 3 (· * ·)
def execSLi (fr : Frame) (d : Fin 32) (imm : BitVec 32) (s : State) : Result := s.intWord fr d 1 (some (imm.signExtend 64))

/-- S_LIH (R111): the low half of sD stays as read at issue. -/
def execSLih (fr : Frame) (d : Fin 32) (imm : BitVec 32) (s : State) : Result :=
  s.intWord fr d 1 ((s.regs.getS d).map fun x => imm ++ x.setWidth 32)

/-! ### Compares and predicates (R112, R113) -/

def execSCmp (fr : Frame) (pd : Fin 16) (cc : Cc) (a b : Fin 32) (s : State) : Result :=
  s.predWord fr pd (cmpReg cc (s.regs.getS a) (s.regs.getS b))
def execSCmpi (fr : Frame) (pd : Fin 16) (cc : Cc) (a : Fin 32) (imm : BitVec 29) (s : State) : Result :=
  s.predWord fr pd (cmpReg cc (s.regs.getS a) (some (imm.signExtend 64)))
def execSPand (fr : Frame) (pd pa pb : Fin 16) (s : State) : Result := s.pp fr pd pa pb and
def execSPor (fr : Frame) (pd pa pb : Fin 16) (s : State) : Result := s.pp fr pd pa pb or
def execSPxor (fr : Frame) (pd pa pb : Fin 16) (s : State) : Result := s.pp fr pd pa pb xor
def execSPnot (fr : Frame) (pd pa : Fin 16) (s : State) : Result :=
  s.predWord fr pd ⟨!(s.regs.getP pa).val, (s.regs.getP pa).mark⟩

/-! ### FP64 (R109, R114, R115) -/

/-- The rounding mode of a word at issue (R109). -/
def State.rmode (s : State) : RMode := modeOfCtl s.regs.ctl.round.toNat

/-- A word that writes sD with flags; poisoned operands give a poisoned result, no flag and no trap (R108, R89, R90). -/
def State.fpWord (s : State) (fr : Frame) (d : Fin 32) (lat : Nat) (r : Option Elem) : Result :=
  .next (s.issue {
    pred := fr.pred, on :=
      match r with
      | none => .ok [landAt lat [.setS d none]]
      | some e => guardAll [ieeeTrap s.regs.ctl.ftrap e.flags e.snan]
        (landAt lat [.setS d (some (BitVec.ofNat 64 e.val))] :: flagsAt lat e.flags) })

/-- An operation on one, two or three F64 patterns. -/
def f64One (f : Nat → Nat × Flags) (a : Option W64) : Option Elem :=
  a.map fun x => elemOf (f x.toNat) (FFmt.f64.snan x.toNat)
def f64Two (f : Nat → Nat → Nat × Flags) (a b : Option W64) : Option Elem :=
  match a, b with
  | some x, some y => some (elemOf (f x.toNat y.toNat) (FFmt.f64.snan x.toNat || FFmt.f64.snan y.toNat))
  | _, _ => none

def execSAddF64 (fr : Frame) (d a b : Fin 32) (s : State) : Result :=
  s.fpWord fr d 4 (f64Two (FFmt.f64.add s.rmode false) (s.regs.getS a) (s.regs.getS b))
def execSSubF64 (fr : Frame) (d a b : Fin 32) (s : State) : Result :=
  s.fpWord fr d 4 (f64Two (FFmt.f64.sub s.rmode false) (s.regs.getS a) (s.regs.getS b))
def execSMulF64 (fr : Frame) (d a b : Fin 32) (s : State) : Result :=
  s.fpWord fr d 4 (f64Two (FFmt.f64.mul s.rmode false) (s.regs.getS a) (s.regs.getS b))
def execSDivF64 (fr : Frame) (d a b : Fin 32) (s : State) : Result :=
  s.fpWord fr d 22 (f64Two (FFmt.f64.div s.rmode false) (s.regs.getS a) (s.regs.getS b))

/-- S_FMA_F64: A × B + D, with D as read at issue. -/
def execSFmaF64 (fr : Frame) (d a b : Fin 32) (s : State) : Result :=
  s.fpWord fr d 5 (match s.regs.getS a, s.regs.getS b, s.regs.getS d with
    | some x, some y, some z => some (elemOf (FFmt.f64.fma s.rmode false x.toNat y.toNat z.toNat)
        (FFmt.f64.snan x.toNat || FFmt.f64.snan y.toNat || FFmt.f64.snan z.toNat))
    | _, _, _ => none)
def execSSqrtF64 (fr : Frame) (d a : Fin 32) (s : State) : Result :=
  s.fpWord fr d 26 (f64One (FFmt.f64.sqrt s.rmode) (s.regs.getS a))
def execSMinF64 (fr : Frame) (d a b : Fin 32) (s : State) : Result :=
  s.fpWord fr d 4 (f64Two (FFmt.f64.minimum false) (s.regs.getS a) (s.regs.getS b))
def execSMaxF64 (fr : Frame) (d a b : Fin 32) (s : State) : Result :=
  s.fpWord fr d 4 (f64Two (FFmt.f64.maximum false) (s.regs.getS a) (s.regs.getS b))

/-- S_CMP_F64 (R115). -/
def execSCmpF64 (fr : Frame) (pd : Fin 16) (cc : Cc) (a b : Fin 32) (s : State) : Result :=
  .next (s.issue {
    pred := fr.pred, on :=
      match s.regs.getS a, s.regs.getS b with
      | some x, some y =>
      let r := FFmt.f64.compare cc x.toNat y.toNat
      guardAll [ieeeTrap s.regs.ctl.ftrap r.2 (FFmt.f64.snan x.toNat || FFmt.f64.snan y.toNat)]
        (landAt 2 [.setP pd ⟨r.1, false⟩] :: flagsAt 2 r.2)
      | _, _ => .ok [landAt 2 [.setP pd ⟨false, true⟩]] })

/-- S_CVT_F64_S64: a signed integer rounded to F64. -/
def execSCvtF64S64 (fr : Frame) (d a : Fin 32) (s : State) : Result :=
  s.fpWord fr d 4 ((s.regs.getS a).map fun x => elemOf (FFmt.f64.roundInt s.rmode x.toInt 0 false) false)

/-- S_CVT_S64_F64: an F64 rounded to a signed integer. -/
def execSCvtS64F64 (fr : Frame) (d a : Fin 32) (s : State) : Result :=
  s.fpWord fr d 4 (f64One (fun x => let r := toInt 64 s.rmode (FFmt.f64.unpack x); (ubits 64 r.1, r.2)) (s.regs.getS a))
def execSClassF64 (fr : Frame) (d a : Fin 32) (s : State) : Result :=
  s.intWord fr d 2 ((s.regs.getS a).map fun x => BitVec.ofNat 64 (2 ^ FFmt.f64.classOf x.toNat))

/-! ### SDM (R116 to R119) -/

/-- Bytes of an access (R54). -/
def szBytes : Sz → Nat
  | .b => 1 | .h => 2 | .w => 4 | .d => 8

/-- The SDM address (R116). -/
def Regs.sdmAddr (r : Regs) (a : Fin 16) (off : BitVec 20) : Nat := ubits 32 (((r.a[a]).ea : Nat) + off.toInt)

/-- The range and region checks of an SDM access; the argument block is RW (R117). -/
def Core.sdmTrap (c : Core) (addr n : Nat) (a : Access) : Option Trap :=
  failIf (decide (addr + n > Config.sdmBytes) || !(decide (addr + n ≤ 0x1000) || c.inRegion 3 addr n a)) ⟨0x20, 0, addr, 0⟩

/-- Bytes as a register value, zero- or sign-extended (R117); none is poisoned. -/
def loadVal (bs : List (Option Byte)) (sx : Bool) : Option W64 :=
  (leNat? bs).map fun n => if sx then BitVec.ofInt 64 (sint (8 * bs.length) n) else BitVec.ofNat 64 n

/-- The bytes that a store of a register writes. -/
def storeBytes (n : Nat) (v : Option W64) : List (Option Byte) :=
  match v with
  | some w => (leBytes n w.toNat).map some
  | none => List.replicate n none

def execSLd (fr : Frame) (d : Fin 32) (a : Fin 16) (off : BitVec 20) (sz : Sz) (sx : Bool) (s : State) : Result :=
  let c := s.core s.slot.core
  let addr := c.regs.sdmAddr a off
  let n := szBytes sz
  .next (s.issue {
    pred := fr.pred, dec := failIf (addr % n != 0) ⟨0x02, 0, addr, 0⟩,
    on := guardAll [c.sdmTrap addr n .load] [landAt 2 [.setS d (loadVal (c.bufRead .sdm addr n) sx)]] })

def execSSt (fr : Frame) (d : Fin 32) (a : Fin 16) (off : BitVec 20) (sz : Sz) (s : State) : Result :=
  let c := s.core s.slot.core
  let addr := c.regs.sdmAddr a off
  let n := szBytes sz
  .next (s.issue {
    pred := fr.pred, dec := failIf (addr % n != 0) ⟨0x02, 0, addr, 0⟩,
    on := guardAll [c.sdmTrap addr n .store] [landAt 1 [.store .sdm (place addr (storeBytes n (c.regs.getS d)))]] })

/-! ### Device memory (R116 to R119, R252) -/

/-- The land of a scalar access against the path latency of its home, where the home can be formed (R64, R118): a deviation,
which is reported before the faults of its data. -/
def State.scalarLand (s : State) (va land : Nat) (acc : Access) : Option Trap :=
  if va ≥ 2 ^ 52 then none
  else match s.translate (s.partOf s.slot.core) va with
    | .ok e => failIf (decide (land < s.pathLatency s.slot.core (acc == .load) 1 (e.at' va))) ⟨0x09, 3, va, 0⟩
    | .fail _ _ _ => none

/-- The home of a scalar access, once its checks have passed: poison, land, alignment, region and page (R108, R117,
R118). -/
def State.scalarHome (s : State) (a : Fin 32) (off : BitVec 20) (n land : Nat) (acc : Access) : Except Trap (Home × Nat × Nat) :=
  match s.regs.getS a with
  | none => .error ⟨0x18, 0, 0, 0⟩
  | some base =>
    let va := (base + off.signExtend 64).toNat
    match firstOf [s.scalarLand va land acc, failIf (va % n != 0) ⟨0x02, 0, va, 0⟩] with
    | some t => .error t
    | none =>
      match s.devCheck s.slot.core acc va n with
      | .error t => .error t
      | .ok [] => .error ⟨0x20, 0, va, 0⟩
      | .ok ((h, _) :: _) => .ok (h, va, s.pathLatency s.slot.core (acc == .load) 1 h)

/-- S_LDM: the home is sampled at issue; sD lands at t + land (R118, R252). -/
def execSLdm (fr : Frame) (d a : Fin 32) (off : BitVec 20) (sz : Sz) (sx : Bool) (land : Fin 8192) (s : State) : Result :=
  let n := szBytes sz
  let h := s.scalarHome a off n land.val .load
  let plan : Plan := {
    pred := fr.pred, on := h.map fun x =>
      s.lateDue x.1 0 land.val ++ [landAt land.val [.setS d (loadVal (s.homeRead x.1 n) sx)]] }
  .next (match h with
    | .error _ => s.issue plan
    | .ok x => s.issueThen plan fun s => s.addBeat false x.1 n 0 (land.val - x.2.2) land.val)

/-- S_STM: the write is performed at its home at t + land (R118, R252). -/
def execSStm (fr : Frame) (d a : Fin 32) (off : BitVec 20) (sz : Sz) (land : Fin 8192) (s : State) : Result :=
  let n := szBytes sz
  let h := s.scalarHome a off n land.val .store
  let plan : Plan := {
    pred := fr.pred, on := h.map fun x =>
      s.lateDue x.1 0 land.val ++ [(land.val, 1, .home x.1 (storeBytes n (s.regs.getS d)) .write)] }
  .next (match h with
    | .error _ => s.issue plan
    | .ok x => s.issueThen plan fun s => s.addBeat true x.1 n 0 0 land.val)

/-! ### Loops and registers (R120 to R125) -/

/-- The iteration index of depth d at clause tick t (R121). -/
def Core.lc (c : Core) (d t : Nat) : Nat :=
  match c.running.find? fun r => r.depth == d && decide (r.t0 < t) && decide (t ≤ r.t0 + r.period * r.count) with
  | some r => (t - r.t0 - 1) / max 1 r.period
  | none => 0

/-- S_LOOP (R120, R121): the loop runs from this pass on; its exit is due after its last tick. -/
def execSLoop (_w : Fin 16) (depth : Fin 4) (_trip : Trip) (_words : Fin 32768) (s : State) : Result :=
  let c := s.core s.slot.core
  match loopAt c.loops s.slot.widx with
  | none => .next (s.issue {})
  | some l =>
    let plan : Plan := { on := .ok [(l.period * l.count + 1, 0, .loopExit depth.val s.slot.widx)] }
    .next (s.issueThen plan fun s =>
      let co := s.core s.slot.core
      s.setCore s.slot.core { co with running := ⟨depth.val, s.slot.tick, l.period, l.count⟩ :: co.running })

def execSRdctl (fr : Frame) (d : Fin 32) (src : RdSrc) (s : State) : Result :=
  let c := s.core s.slot.core
  s.intWord fr d 1 (some (BitVec.ofNat 64 (match src with
    | .ctl r => c.regs.ctl.read s.slot.core.val s.slot.tick r
    | .lc n => c.lc n.val s.slot.tick)))

/-- Whether a control register takes writes (R32). -/
def ctlWritable : CtlReg → Bool
  | .cadence | .core | .tick | .phase | .inflect => false
  | _ => true

/-- S_WRCTL (R123): poison, read-only registers, and the reserved rounding modes are judged at issue. -/
def execSWrctl (fr : Frame) (r : CtlReg) (m : WrMode) (a : Fin 32) (s : State) : Result :=
  let v := s.regs.getS a
  let left := (wrValue m (s.regs.ctl.round.setWidth 64) (v.getD 0)).toNat % 8
  .next (s.issue {
    pred := fr.pred, on := guardAll
      [needS v, failIf (!ctlWritable r) ⟨0x23, 8, 0, 0⟩, failIf (r == .round && decide (6 ≤ left)) ⟨0x01, 0, 0, 0⟩]
      [landAt 1 [.setCtl r m (v.getD 0)]] })

/-- S_RDA (R122): the stride is sign-extended. -/
def execSRda (fr : Frame) (d : Fin 32) (n : Fin 16) (f : AField) (s : State) : Result :=
  let v := (s.regs.a[n]).field f
  s.intWord fr d 1 (some (if f = .stride then v.signExtend 64 else v.setWidth 64))

def execSWra (fr : Frame) (n : Fin 16) (f : AField) (a : Fin 32) (s : State) : Result :=
  let v := s.regs.getS a
  .next (s.issue { pred := fr.pred, on := guardAll [needS v] [landAt 1 [.setA n f ((v.getD 0).setWidth 32)]] })

def execSRdq (fr : Frame) (d n : Fin 32) (hi : Bool) (s : State) : Result :=
  let w := (s.regs.q[n]).toNat
  s.intWord fr d 1 (some (BitVec.ofNat 64 (if hi then w / 2 ^ 64 else w)))

/-- S_WRQ (R31, R124): the whole word as it will stand is judged. -/
def execSWrq (fr : Frame) (n : Fin 32) (hi : Bool) (a : Fin 32) (s : State) : Result :=
  let v := s.regs.getS a
  let w := setHalf (s.regs.q[n]) hi (v.getD 0)
  .next (s.issue {
    pred := fr.pred, on := guardAll
      [needS v, (ringFault w).map fun c => ⟨c, 0, if c = 0x02 ∨ c = 0x20 then (ringOf w).base else 0, 0⟩]
      [landAt 1 [.setQ n hi (v.getD 0)]] })

def execSRdk (fr : Frame) (d : Fin 32) (n : Fin 8) (gen : Bool) (s : State) : Result :=
  let k := s.regs.k[n]
  s.intWord fr d 1 (some (if gen then k.gen.setWidth 64 else k.seed))

def execSWrk (fr : Frame) (n : Fin 8) (a : Fin 32) (s : State) : Result :=
  let v := s.regs.getS a
  .next (s.issue { pred := fr.pred, on := guardAll [needS v] [landAt 1 [.setK n (v.getD 0)]] })

/-- The 32-bit random words of entries (R125); none where one is poisoned. -/
def randomWords : List (List (Option Byte)) → Option (List Nat)
  | [] => some []
  | e :: es =>
    match leNat? e, randomWords es with
    | some n, some ns => some (n % 2 ^ 32 :: ns)
    | _, _ => none

/-- S_RND (R125): the entries are popped whether the word is on or off. -/
def execSRnd (fr : Frame) (d q : Fin 32) (pair : Bool) (s : State) : Result :=
  let c := s.core s.slot.core
  let n := if pair then 2 else 1
  let v := (randomWords (c.entries q n)).map fun ws => BitVec.ofNat 64 (nth ws 0 0 + 2 ^ 32 * nth ws 1 0)
  .next (s.issue {
    pred := fr.pred, dec := c.regs.ringCheck q fun r => r.buf == 3 && r.esize == 1,
    dev := c.regs.popDev q n, books := [popDue q n], on := .ok [landAt 2 [.setS d v]] })

end Sys2Proof.Machine
end

