-- ==== Sys2Proof/Machine/Context.lean ====
section
/-! DEFINITION. Contexts: what the subsoil bank holds of a core, the layout of the save area and of dumps (R350), the spill
area and its refill (R306, R347, R348), and what these copies cost (R347 to R349). -/

namespace Sys2Proof.Machine

/-! ### A context (R27, R137, R312, R350) -/

/-- The context of a core; its loop counters are those of clause tick t. -/
def Core.context (c : Core) (t : Nat) : Ctx :=
  { regs := c.regs, mrf := c.mrf, gctx := c.gm.ctx, ghead := c.gm.head, gfree := c.gm.free, gqhead := c.gm.qhead,
    gqcount := c.gm.queue.length, frozen := c.frozen, lc := (range' 0 4).map fun d => c.lc d t }

/-- A core with a context restored; a debug stop keeps the semaphores (R369). -/
def Core.restore (keepSem : Bool) (x : Ctx) (c : Core) : Core :=
  { c with
    regs := if keepSem then { x.regs with sem := c.regs.sem } else x.regs
    mrf := x.mrf
    gm := { c.gm with ctx := x.gctx, head := x.ghead, free := x.gfree, qhead := x.gqhead, queue := c.gm.queue.take x.gqcount }
    frozen := x.frozen
    running := [] }

/-- Every core's context goes into its bank. -/
def State.saveBanks (s : State) (p t16 : Nat) : State :=
  (s.coresOf p).foldl (fun (s : State) c =>
    let co := s.core c
    s.setCore c { co with bank := some (co.context (t16 - 16 - stagger c - co.lag)) }) s

/-- Every core's context is restored from its bank. -/
def State.restoreBanks (s : State) (p : Nat) (keepSem : Bool) : State :=
  (s.coresOf p).foldl (fun (s : State) c =>
    let co := s.core c
    match co.bank with
    | some x => s.setCore c (co.restore keepSem x)
    | none => s) s

/-! ### The layout of the save area (R350) -/

/-- A number of bits, bit i from a list. -/
def bitsOf (bs : List Bool) : Nat := bs.foldr (fun b n => (if b then 1 else 0) + 2 * n) 0

/-- A byte of what stands under a poison mark or in storage that holds nothing (assumption 1); `f` names the use. -/
def freeByte (f i : Nat) : Byte := (Config.underPoison (2 ^ 70 + f * 2 ^ 44 + i)).setWidth 8

/-- A gate registration in 16 bytes, with the value it is judged against. -/
def gateBytes (decls : List GateDecl) (g : GateReg) : List Byte :=
  let v := g.value.getD (nth (decls.map (·.value)) g.n 0)
  BitVec.ofNat 8 (128 + (if g.sem then 64 else 0) + g.n % 64) :: List.replicate 7 0 ++ leBytes 8 v.toNat

/-- The register area, from the offset of each of its parts. -/
def Ctx.registerArea (x : Ctx) (decls : List GateDecl) (f : Nat) : List (Nat × List Byte) :=
  let r := x.regs
  let c := r.ctl
  [(0x000, (List.finRange 32).flatMap fun (n : Fin 32) => leBytes 8 (if n = 0 then 0 else (r.s[n].getD (Config.underPoison (2 ^ 71 + f * 64 + n.val))).toNat)),
   (0x100, leBytes 4 (bitsOf ((List.finRange 32).map fun n => (r.getS n).isNone))),
   (0x104, leBytes 2 (bitsOf ((List.finRange 16).map fun n => (r.getP n).val))),
   (0x106, leBytes 2 (bitsOf ((List.finRange 16).map fun n => (r.getP n).mark))),
   (0x110, [CtlReg.fflags, .ftrap, .round, .mode, .shape, .inflect, .cadence].map fun k => BitVec.ofNat 8 (c.read 0 0 k)),
   (0x118, leBytes 4 c.size.toNat), (0x11C, leBytes 1 c.sel.toNat), (0x120, leBytes 4 c.phase.toNat),
   (0x130, leBytes 2 r.feed.toNat), (0x132, leBytes 2 (ubits 16 r.beta.toInt)), (0x134, leBytes 1 r.bands.toNat),
   (0x140, r.tok.toList.map (BitVec.ofNat 8)), (0x150, leBytes 4 x.frozen),
   (0x180, r.sem.toList.flatMap fun v => leBytes 2 v.toNat),
   (0x1C0, r.gates.flatMap (gateBytes decls)),
   (0x300, r.a.toList.flatMap fun a => leBytes 4 a.base.toNat ++ leBytes 4 a.off.toNat ++ leBytes 4 a.stride.toNat ++ leBytes 4 a.wrap.toNat),
   (0x400, r.q.toList.flatMap fun q => leBytes 16 q.toNat),
   (0x600, r.k.toList.flatMap fun k => leBytes 8 k.seed.toNat ++ leBytes 8 k.gen.toNat),
   (0x680, x.lc.flatMap (leBytes 4)),
   (0x700, r.vm.toList.flatMap fun v => leBytes 64 v.toNat)]

/-- Bytes with parts laid over zeros, the parts in rising order without overlap. -/
def layOut : Nat → List (Nat × List Byte) → Nat → List Byte
  | at_, [], n => List.replicate (n - at_) 0
  | at_, (o, bs) :: ps, n => List.replicate (o - at_) 0 ++ bs ++ layOut (max at_ (o + bs.length)) ps n

/-- A row of a tile: 256 slots of 36 bits, their poison bits, zeros. -/
def tileRow (mrf : SMap W36) (f tile row : Nat) : List Byte :=
  let ss := (range' 0 256).map fun j => mapGet mrf (slotKey tile row j)
  let n := (place 0 ss).foldr (fun x n => (x.2.getD ((Config.underPoison (2 ^ 72 + f * 2 ^ 20 + slotKey tile row x.1)).setWidth 36)).toNat + 2 ^ 36 * n) 0
  leBytes 1152 n ++ leBytes 32 (bitsOf (ss.map (·.isNone))) ++ List.replicate 96 0

/-- The control area of GM (R232). -/
def ctlArea (head free qhead qcount : Nat) : List Byte :=
  leBytes 2 head ++ leBytes 2 free ++ leBytes 2 qhead ++ leBytes 2 qcount ++ List.replicate 8 0

/-- A core's block, in parts. -/
def Ctx.block (x : Ctx) (decls : List GateDecl) (f : Nat) : List (Nat × List Byte) :=
  [(0, layOut 0 (x.registerArea decls f) 0x1000), (0x1000, x.gctx.toList.flatMap fun g => g.record false),
   (0x1800, ctlArea x.ghead x.gfree x.gqhead x.gqcount)]
  ++ (range' 0 7).flatMap fun t => (range' 0 256).map fun r =>
    (0x10000 + 0x50000 * t + 1280 * r,
      if t = 6 ∧ !x.regs.ctl.detect then List.replicate 1280 0 else tileRow x.mrf f t r)

/-- The partition record. -/
def partitionRecord (x : Sel) (step : Nat) (tag : W64) : List Byte :=
  leBytes 4 x.phase ++ leBytes 2 x.pidx ++ [BitVec.ofNat 8 x.infl, BitVec.ofNat 8 step] ++ leBytes 4 x.z
    ++ [BitVec.ofNat 8 x.q, 0, 0, 0] ++ leBytes 8 tag.toNat ++ List.replicate 40 0

/-- Bytes in parts, written at a physical address. -/
def State.writeParts (s : State) (pa : Nat) (ps : List (Nat × List Byte)) : State :=
  ps.foldl (fun (s : State) x => s.homeWrite .hub (.hbm (pa + x.1)) (x.2.map some)) s

/-- The contexts of a partition at a base address; a core without one has a block of which nothing is known. -/
def State.writeContexts (s : State) (p base : Nat) (ctx : Nat → Option Ctx) (decls : List GateDecl) : State :=
  (place 0 (s.coresOf p)).foldl (fun (s : State) x =>
    let pa := base + 0x400000 * (x.1 + 1)
    let s := { s with fresh := s.fresh + 1 }
    match ctx x.2 with
    | some c => s.writeParts pa (c.block decls s.fresh)
    | none => s.writeParts pa [(0, (range' 0 0x240000).map (freeByte s.fresh))]) s

/-! ### Reading a context back (R348) -/

/-- What stands at a physical address, whatever its mark. -/
def State.rawRead (s : State) (pa n : Nat) : List Byte :=
  (range' pa n).map fun a => (s.homeByte (.hbm a)).getD (freeByte s.fresh a)

/-- The registers that a register area holds. -/
def regsOfArea (b : List Byte) : Regs :=
  let fl := u b 0x100 4
  { s := Vector.ofFn fun n => if fld fl n.val n.val = 1 then none else some (BitVec.ofNat 64 (u b (8 * n.val) 8))
    p := Vector.ofFn fun n => ⟨fld (u b 0x104 2) n.val n.val == 1, fld (u b 0x106 2) n.val n.val == 1⟩
    a := Vector.ofFn fun n =>
      let w (i : Nat) := BitVec.ofNat 32 (u b (0x300 + 16 * n.val + 4 * i) 4)
      ⟨w 0, w 1, w 2, w 3⟩
    k := Vector.ofFn fun n => ⟨BitVec.ofNat 64 (u b (0x600 + 16 * n.val) 8), BitVec.ofNat 8 (u b (0x608 + 16 * n.val) 1)⟩
    q := Vector.ofFn fun n => BitVec.ofNat 128 (u b (0x400 + 16 * n.val) 16)
    vm := Vector.ofFn fun n => BitVec.ofNat 512 (u b (0x700 + 64 * n.val) 64)
    sem := Vector.ofFn fun n => BitVec.ofNat 16 (u b (0x180 + 2 * n.val) 2)
    ctl := {
      fflags := BitVec.ofNat 5 (u b 0x110 1), ftrap := BitVec.ofNat 6 (u b 0x111 1), round := BitVec.ofNat 3 (u b 0x112 1)
      elastic := u b 0x113 1 % 2 == 1, detect := u b 0x113 1 / 2 % 2 == 1, cadence := BitVec.ofNat 2 (u b 0x116 1)
      shape := BitVec.ofNat 4 (u b 0x114 1), phase := BitVec.ofNat 32 (u b 0x120 4), inflect := BitVec.ofNat 3 (u b 0x115 1)
      size := BitVec.ofNat 32 (u b 0x118 4), sel := BitVec.ofNat 2 (u b 0x11C 1), expSize := false, expSel := false }
    tok := Vector.ofFn fun n => u b (0x140 + n.val) 1
    gates := (range' 0 8).filterMap fun i =>
      let x := u b (0x1C0 + 16 * i) 1
      if x < 128 then none else some ⟨fld x 6 6 == 1, x % 64, some (BitVec.ofNat 64 (u b (0x1C8 + 16 * i) 8))⟩
    feed := BitVec.ofNat 16 (u b 0x130 2), beta := BitVec.ofNat 10 (u b 0x132 2), bands := BitVec.ofNat 4 (u b 0x134 1) }

/-- The slots of a tile row that are not poisoned. -/
def rowSlots (b : List Byte) (tile row : Nat) : List (Nat × W36) :=
  let n := u b 0 1152
  let ps := u b 1152 32
  (range' 0 256).filterMap fun j =>
    if fld ps j j = 1 then none else some (slotKey tile row j, BitVec.ofNat 36 (n / 2 ^ (36 * j)))

/-- Whether a core's block in the save area holds a poisoned granule: what stands there cannot be restored (R346). -/
def State.blockBad (s : State) (pa : Nat) : Bool := (range' 0 (0x240000 / 64)).any fun i => s.hbm.poisoned false 64 (pa + 64 * i)

/-- The context at a core's block. -/
def State.readContext (s : State) (pa : Nat) : Ctx :=
  let b := s.rawRead pa 0x1000
  let ctl := s.rawRead (pa + 0x1800) 16
  let r := regsOfArea b
  { regs := r
    mrf := (range' 0 (if r.ctl.detect then 7 else 6)).flatMap fun t => (range' 0 256).flatMap fun i =>
      rowSlots (s.rawRead (pa + 0x10000 + 0x50000 * t + 1280 * i) 1280) t i
    gctx := Vector.ofFn fun n => ctxOfRecord (s.rawRead (pa + 0x1000 + 32 * n.val) 32)
    ghead := u ctl 0 2, gfree := u ctl 2 2, gqhead := u ctl 4 2, gqcount := u ctl 6 2, frozen := u b 0x150 4
    lc := (range' 0 4).map fun i => u b (0x680 + 4 * i) 4 }

/-! ### The spill area (R306, R347, R348, R350) -/

/-- The base of the spill area of the core at place i, and of its copies of a buffer. -/
def spillAt (pbase i : Nat) (b : Buf) : Nat :=
  pbase + 0x1000000 * i + match b with
    | .sdm => 0 | .gm => 0x10000 | .ab => 0x100000 | .wb => 0x700000

/-- The bytes of GM from 0x0 to 0x1_CFFF (R232); none in a poisoned granule. -/
def GM.bytes (g : GM) : List (Option Byte) :=
  let queue := (place 0 g.queue).map fun x => ((g.qhead + x.1) % 4096, x.2)
  let q := (range' 0 4096).flatMap fun i => leBytes 4 (((queue.find? fun x => x.1 == i).map Prod.snd).getD 0)
  let bs := (range' 0 16384).flatMap (fun n => leBytes 4 (g.node n)) ++ (range' 0 16384).flatMap (fun n => leBytes 2 (g.count n))
    ++ g.ctx.toList.flatMap (fun x => x.record false) ++ ctlArea g.head g.free g.qhead g.queue.length
    ++ List.replicate 0x7F0 0 ++ q
  (place 0 bs).map fun x => if setHas g.marks (x.1 / 64) then none else some x.2

/-- GM with these bytes. -/
def GM.ofBytes (bs : List (Option Byte)) : GM :=
  let b := bs.map fun x => x.getD 0
  let qhead := u b 0x18804 2
  let g := { GM.reset with
    ctx := Vector.ofFn fun n => ctxOfRecord (slice b (0x18000 + 32 * n.val) 32)
    head := u b 0x18800 2, free := u b 0x18802 2, qhead := qhead
    queue := (range' 0 (u b 0x18806 2)).map fun i => u b (0x19000 + 4 * ((qhead + i) % 4096)) 4 % 16384
    marks := (range' 0 0x740).filter fun i => (slice bs (64 * i) 64).any (·.isNone) }
  (range' 0 16384).foldl (fun (g : GM) n => (g.setNode n (u b (4 * n) 4)).setCount n (u b (0x10000 + 2 * n) 2)) g

/-- The live-in entries of an inflection beside SDM and GM up to 0x1_CFFF, which are always live: buffer, address, size (R306). -/
def liveEntries (i : Infl) : List (Buf × Nat × Nat) :=
  i.liveIns.filterMap fun x => match x.1 with
    | 1 => some (.ab, x.2)
    | 2 => some (.wb, x.2)
    | 4 =>
      let lo := max 0x1D000 x.2.1
      if lo < x.2.1 + x.2.2 then some (.gm, lo, x.2.1 + x.2.2 - lo) else none
    | _ => none

/-- The bank words of WB of which some bytes are live and some are not: they are poisoned when the buffers are refilled, since
the bytes that are not live read as poison (R306; assumption 102). -/
def partWords (live : List (Buf × Nat × Nat)) : List Nat :=
  let wb := (live.filter fun x => x.1 == .wb).map Prod.snd
  (wb.flatMap fun x => [x.1 / 72, (x.1 + x.2 - 1) / 72]).filter fun w =>
    !((range' (72 * w) 72).all fun a => wb.any fun x => decide (x.1 ≤ a) && decide (a < x.1 + x.2))

/-- The inflection a selection names. -/
def Job.chosen (j : Job) (x : Sel) : Option Infl := (j.table.phases[x.pidx]?).bind fun e => e.infls[x.infl]?

/-- The live-in bytes of a core go to its part of the spill area. A poisoned granule is poisoned there; which bank words of
WB were is kept beside. -/
def State.spillCore (s : State) (pbase i c : Nat) (live : List (Buf × Nat × Nat)) : State :=
  let co := s.core c
  let s := s.homeWrite .hub (.hbm (spillAt pbase i .sdm)) (co.bufRead .sdm 0 Config.sdmBytes)
  let s := s.homeWrite .hub (.hbm (spillAt pbase i .gm)) co.gm.bytes
  let s := live.foldl (fun (s : State) x => s.homeWrite .hub (.hbm (spillAt pbase i x.1 + x.2.1))
    (match x.1 with
      | .wb => (range' x.2.1 x.2.2).map fun a => some (co.wb.byte a)
      | b => co.bufRead b x.2.1 x.2.2)) s
  s.setCore c { co with
    wbSpill := ((live.filter fun x => x.1 == .wb).flatMap fun x => (range' (x.2.1 / 72) (x.2.2 / 72 + 2)).filter fun w => co.wb.poisoned true 72 (72 * w)).eraseDups }

/-- The buffers of a core are refilled; every other byte of them is poisoned. -/
def State.refillCore (s : State) (pbase i c : Nat) (live : List (Buf × Nat × Nat)) : State :=
  let co := s.core c
  let back (b : Buf) (a n : Nat) : List (Option Byte) := s.homeRead (.hbm (spillAt pbase i b + a)) n
  let co := { co with
    ab := Mem.empty, wb := Mem.empty, sdm := Mem.empty, gm := GM.ofBytes (back .gm 0 0x1D000), image0 := none, image1 := none }
  let co := co.bufStore .sdm (place 0 (back .sdm 0 Config.sdmBytes))
  let bad := partWords live ++ co.wbSpill
  s.setCore c (live.foldl (fun (co : Core) x =>
    co.bufStore x.1 ((place x.2.1 (back x.1 x.2.1 x.2.2)).map fun w =>
      if x.1 == .wb && bad.contains (w.1 / 72) then (w.1, none) else w)) co)

/-- All cores of a partition. -/
def State.spill (s : State) (p : Nat) (live : List (Buf × Nat × Nat)) : State :=
  (place 0 (s.coresOf p)).foldl (fun (s : State) x => s.spillCore (s.part p).pbase x.1 x.2 live) s

def State.refill (s : State) (p : Nat) (live : List (Buf × Nat × Nat)) : State :=
  (place 0 (s.coresOf p)).foldl (fun (s : State) x => s.refillCore (s.part p).pbase x.1 x.2 live) s

/-! ### What the copies cost (R347 to R349) -/

/-- Cycles of a copy that moves `per` granules for each core, the cores' areas `step` bytes apart: the busiest stack takes
24 granules a cycle. -/
def State.copyCycles (s : State) (p base step per : Nat) : Nat :=
  let stackSet := (range' 0 (s.coresOf p).length).map fun i => stackOf (base + step * i)
  128 + cdiv ((stackSet.map fun x => (stackSet.filter (· == x)).length * per).foldl max 0) 24

/-- Granules of a core that are spilled: SDM, GM to 0x1_CFFF, the live-in bytes. -/
def spillGranules (live : List (Buf × Nat × Nat)) : Nat := 1024 + 1856 + (live.map fun x => x.2.2 / 64).sum

/-- The exchange of contexts with the subsoil banks. -/
def exchangeCycles (detect : Bool) : Nat := if detect then 896 else 768

/-- Cycles of the spill, or of the refill, of a partition. -/
def State.spillCycles (s : State) (p : Nat) (live : List (Buf × Nat × Nat)) : Nat :=
  s.copyCycles p (s.part p).pbase 0x1000000 (spillGranules live)

/-- Cycles of the copy between the banks and the save area: 0x24_0000 bytes for each core. -/
def State.saveCycles (s : State) (p : Nat) : Nat :=
  s.copyCycles p ((s.part p).sbase + 0x400000) 0x400000 (0x240000 / 64)

/-- When the bank is needed while it holds a pre-empted job's contexts, they first go to the save area (R349): the state
after that, and the cycles it takes. -/
def State.clearBank (s : State) (p : Nat) : State × Nat :=
  let part := s.part p
  if part.held = 1 then
    let decls := ((part.heldJob.bind Job.entry).map (·.gates)).getD []
    let t := s.writeContexts p part.sbase (fun c => (s.core c).bank) decls
    ((t.setPart p { t.part p with held := 2 }).sediment 0x08 p 0xFF false
      ([3, 0, 0, 0] ++ leBytes 4 ((part.heldJob.map (·.ridx)).getD 0)), s.saveCycles p)
  else (s, 0)

end Sys2Proof.Machine
end

