-- ==== Sys2Proof/Machine/Preflight.lean ====
section
/-! DEFINITION. Preflight (R257, R258, R312, R352): every region of every core is translated, permissions are checked, and the
regions are compared on physical granules. -/

namespace Sys2Proof.Machine

/-! ### What a selection names -/

/-- The phase entry of a selection. -/
def Job.entryOf (j : Job) (x : Sel) : Option PhaseEnt := j.table.phases[x.pidx]?

/-- The cores of partition p that have a clause under a selection: core, image, s1, s2. -/
def State.takersOf (s : State) (p : Nat) (x : Sel) : List (Nat × Nat × Nat × Nat) :=
  match (s.part p).job.bind fun j => j.chosen x with
  | some i => (takers i).map fun t => (24 * p + t.1, t.2)
  | none => []

/-- The regions of a core with spatial index s1 under a selection. -/
def State.regionsAt (s : State) (p : Nat) (x : Sel) (s1 : Nat) : List Region :=
  match (s.part p).job with
  | some j => (match j.chosen x with
    | some i => regionsOf i s1 j.launch.cseg j.launch.clen
    | none => [])
  | none => []

/-! ### Translation (R352) -/

/-- A piece of a region on one page: core, index and region, its virtual address, length and translation. -/
structure Piece where
  core : Nat
  idx : Nat
  region : Region
  va : Nat
  n : Nat
  ent : TEntry
  deriving DecidableEq, Repr

/-- What preflight has found so far: translations walked, misses, pieces (last first), and the fault that ends it. -/
structure Flight where
  walked : List TEntry
  misses : Nat
  pieces : List Piece
  fault : Option FaultInfo
  deriving DecidableEq, Repr

/-- A fault of the slack window. -/
def slackInfo (code detail addr : Nat) (core : Option Nat) (ext : List Byte) : FaultInfo := ⟨code, 2, core, none, detail, addr, ext⟩

/-- The distinct pages of the pieces. -/
def Flight.pages (f : Flight) : List (Nat × Nat) := (f.pieces.map fun x => (x.ent.va, x.ent.size)).eraseDups

/-- The pages of a region from an address on; fuel bounds them. -/
def State.flyRegion (s : State) (p c i : Nat) (r : Region) : Nat → Nat → Flight → Flight
  | 0, va, f => { f with fault := some (slackInfo 0x22 256 va (some c) (leBytes 2 c ++ leBytes 2 i)) }
  | fuel + 1, va, f =>
    let end_ := r.base + r.size
    if f.fault.isSome ∨ end_ ≤ va then f
    else
      let put (f : Flight) (e : TEntry) : Flight :=
        let n := min end_ (e.va + e.size) - va
        let f := { f with pieces := ⟨c, i, r, va, n, e⟩ :: f.pieces }
        if 8192 < f.pages.length then { f with fault := some (slackInfo 0x22 256 va (some c) (leBytes 2 c ++ leBytes 2 i)) } else f
      match ((s.part p).cached va).orElse fun _ => f.walked.find? fun e => decide (e.va ≤ va) && decide (va < e.va + e.size) with
      | some e => State.flyRegion s p c i r fuel (e.va + e.size) (put f e)
      | none =>
        match if va < 2 ^ 52 then s.walk p va else .fail 0x22 0 va with
        | .ok e => State.flyRegion s p c i r fuel (e.va + e.size) (put { f with walked := f.walked ++ [e], misses := f.misses + 1 } e)
        | .fail code level addr =>
          { f with
            misses := f.misses + 1
            fault := some (slackInfo code (if code = 0x22 then level else 0) (if code = 0x22 then va else addr) (some c)
              (if code = 0x22 then leBytes 2 c ++ leBytes 2 i else [])) }

/-- All regions in ascending core and region order. -/
def State.flyAll (s : State) (p : Nat) (x : Sel) : Flight :=
  (s.takersOf p x).foldl (fun (f : Flight) t =>
    (place 0 (s.regionsAt p x t.2.2.1)).foldl (fun (f : Flight) r =>
      if r.2.space = 0 then s.flyRegion p t.1 r.1 r.2 8194 r.2.base f else f) f) ⟨[], 0, [], none⟩

/-- The access whose permissions a region's mode needs (R352). -/
def Region.access (r : Region) : Access :=
  if r.mode = modeR then .load else if r.mode = modeW then .store else if r.mode = modeSHR then .amo else .acc 0

/-- The first piece whose page lacks a permission. -/
def Flight.lack (f : Flight) : Option FaultInfo :=
  (f.pieces.reverse.find? fun x => x.region.access.lacks x.ent != 0).map fun x =>
    slackInfo 0x23 (x.region.access.lacks x.ent) x.va (some x.core) []

/-! ### Comparison (R257, R312) -/

/-- Whether regions of two cores that share a granule conflict (R257). -/
def modesConflict (a b : Region) : Bool :=
  !((a.mode == modeR && b.mode == modeR) || (a.mode == modeACC && b.mode == modeACC && a.op == b.op)
    || (a.mode == modeSHR && b.mode == modeSHR))

/-- A place in physical memory as a number: agent, then address. -/
def physNo : Home → Nat
  | .hbm pa => pa
  | .host ba => 2 ^ 64 + ba
  | .peer x y z pa => (2 + peerKey x y z 0 / 2 ^ 52) * 2 ^ 64 + pa

/-- The granules of a piece, from and to. -/
def Piece.granules (x : Piece) : Nat × Nat :=
  let a := physNo (x.ent.at' x.va)
  (a / 64, (a + x.n - 1) / 64)

/-- Whether two pieces may not share a granule; in a replayable phase a W and an R region may not, of one core either. -/
def piecesConflict (replayable : Bool) (a b : Piece) : Bool :=
  (a.core != b.core && modesConflict a.region b.region)
    || (replayable && ((a.region.mode == modeR && b.region.mode == modeW) || (a.region.mode == modeW && b.region.mode == modeR)))

/-- The conflict of two pieces: the lowest granule they share, their cores and region indices. -/
def pairConflict (replayable : Bool) (a b : Piece) : Option (Nat × Nat × Nat × Nat × Nat) :=
  let (al, ah) := a.granules
  let (bl, bh) := b.granules
  if piecesConflict replayable a b ∧ max al bl ≤ min ah bh then some (max al bl, a.core, b.core, a.idx, b.idx) else none

/-- The lower of two conflicts. -/
def lowerConflict (a b : Nat × Nat × Nat × Nat × Nat) : Nat × Nat × Nat × Nat × Nat :=
  let key (x : Nat × Nat × Nat × Nat × Nat) := (((x.1 * 128 + x.2.1) * 128 + x.2.2.1) * 1024 + x.2.2.2.1) * 1024 + x.2.2.2.2
  if key b < key a then b else a

/-- The lowest conflict among pieces in core and region order. -/
def lowestConflict (replayable : Bool) : List Piece → Option (Nat × Nat × Nat × Nat × Nat)
  | [] => none
  | x :: xs =>
    (xs.filterMap (pairConflict replayable x)).foldl (fun m k => match m with
      | some y => some (lowerConflict y k)
      | none => some k) (lowestConflict replayable xs)

/-- The fault of a conflict: the two cores, their region indices, and the granule (R340). -/
def conflictInfo (x : Nat × Nat × Nat × Nat × Nat) : FaultInfo :=
  slackInfo 0x21 0 0 (some x.2.1) ([BitVec.ofNat 8 x.2.1, BitVec.ofNat 8 x.2.2.1] ++ leBytes 2 x.2.2.2.1 ++ leBytes 2 x.2.2.2.2
    ++ [0, 0] ++ leBytes 8 (64 * x.1 % 2 ^ 64))

/-- The fault that preflight finds, if any. -/
def Flight.verdict (f : Flight) (replayable : Bool) : Option FaultInfo :=
  match f.fault with
  | some e => some e
  | none =>
    match f.lack with
    | some e => some e
    | none => (lowestConflict replayable f.pieces.reverse).map conflictInfo

/-- Cycles of preflight (R311, R352). -/
def Flight.cycles (f : Flight) : Nat := 96 + 736 * cdiv f.misses 16

/-- No translation is pinned any more (R352). -/
def Part.unpin (x : Part) : Part := { x with cache := x.cache.map fun e => { e with pinned := false } }

/-- The translations of the coming phase are in the cache and pinned (R352). -/
def Flight.pin (f : Flight) (p : Part) : Part := (f.pieces.reverse.map (·.ent)).foldl (fun (p : Part) e => p.load e true) p

/-- HBM intervals of the phase's R, W, RW and ACC regions (R267). -/
def Flight.guarded (f : Flight) : List (Nat × Nat) :=
  f.pieces.filterMap fun x => match x.ent.at' x.va with
    | .hbm pa => if x.region.mode = modeSHR then none else some (pa, x.n)
    | _ => none

end Sys2Proof.Machine
end

