-- ==== Sys2Proof/Machine/Sequencer.lean ====
section
/-! DEFINITION. The phase sequencer: the slack window and its steps (R309 to R315), gates (R131, R264, R265) and their
watchdog (R345), pre-emption (R313, R347), replay (R312), and the start of a phase (R310, R311). -/

namespace Sys2Proof.Machine

/-! ### Small operations -/

/-- A change of a partition. -/
def State.onPart (s : State) (p : Nat) (f : Part → Part) : State := s.setPart p (f (s.part p))

/-- A change of every core of a partition. -/
def State.onCores (s : State) (p : Nat) (f : Nat → Core → Core) : State :=
  (s.coresOf p).foldl (fun (s : State) c => s.setCore c (f c (s.core c))) s

/-- A slack-window step is complete: the progress counter advances (R345). -/
def State.stepDone (s : State) (p : Nat) : State := s.onPart p fun x => { x with progress := x.progress + 1 }

/-- The sequencer goes on at a step at a cycle. -/
def State.goOn (s : State) (p step cycle : Nat) : State :=
  (s.onPart p fun x => { x with seq := .slack step }).schedule cycle (.gateEvaluation (Fin.ofNat 4 p))

/-- The launch unit looks for an eligible record. -/
def State.tryLaunch (s : State) (p : Nat) : State := s.schedule s.now (.launchStart (Fin.ofNat 4 p))

/-- Whether any job of the partition is started, a held one included (R332). -/
def Part.started (p : Part) : Bool := p.job.isSome || p.held != 0

/-- A register write of the random unit (R327): key words are staged, and the key takes effect with its last word. -/
def Part.keyWrite (x : Part) (word : Fin 4) (v : W64) : Part :=
  let st := x.rngStage.set word v
  if word = 3 then { x with rngStage := st, rngKey := st } else { x with rngStage := st }

/-- A ticket write, discarded for a slot of a quarter that is not the partition's (R327). -/
def State.ticketWrite (s : State) (p slot : Nat) (v : W64) : State :=
  if p ≤ slot / 2048 ∧ slot / 2048 < p + s.mod.quarters then
    { s with mod := { s.mod with tickets := mapPut 0 s.mod.tickets slot v } }
  else s

/-- Where the held writes of queue limits begin among the held writes. -/
def limitBase : Nat := 0x1000000

/-- A queue's minimum or cap is set (R15): the low byte of the value (assumption 123). -/
def State.setLimit (s : State) (off : Nat) (v : W64) : State :=
  match Config.queueRegister off with
  | some (c, e, cap) =>
    let co := s.core c
    let e := Fin.ofNat 8 e
    let n := fld v.toNat 7 0
    s.setCore c (if cap then { co with qcap := co.qcap.set e n } else { co with qmin := co.qmin.set e n })
  | none => s

/-- Held key, ticket and limit writes are applied in arrival order once no job is started (R293, R327). -/
def State.applyHeld (s : State) (p : Nat) : State :=
  if (s.part p).started then s
  else (s.part p).heldWrites.foldl (fun (s : State) w =>
    if w.1 < 0x120 then s.onPart p fun x => x.keyWrite (Fin.ofNat 4 ((w.1 - 0x100) / 8)) w.2.1
    else if w.1 < limitBase then s.ticketWrite p w.2.2 w.2.1
    else s.setLimit (w.1 - limitBase) w.2.1) (s.onPart p fun x => { x with heldWrites := [] })

/-- The sediment entry of a replay (kind 0x0A). -/
def State.sedReplay (s : State) (p run cause : Nat) : State :=
  s.sediment 0x0A p 0xFF false [BitVec.ofNat 8 run, BitVec.ofNat 8 cause]

/-- The gate watchdog limit in cycles (R344). -/
def Part.wdCycles (x : Part) : Nat := (if x.wdlim = 0 then 1 else min 60000 x.wdlim.toNat) * 800000

/-- What the watchdog has counted at a cycle. -/
def Part.waited (x : Part) (now : Nat) : Nat := x.wd + match x.wdFrom with | some c => now - c | none => 0

/-- Whether a queue's gated head record waits for its gate (R333). -/
def Queue.gateWaits (q : Queue) : Bool :=
  match q.head1 with
  | some l => l.gated && !q.gateOk && q.qstate == 1
  | none => false

/-- The cycles at which partition p's watchdogs expire: that of its sequencer, and those of waiting launch gates. -/
def Part.deadlines (x : Part) : List Nat :=
  (match x.wdFrom with
    | some c => [c + (x.wdCycles - x.wd)]
    | none => []) ++
  x.queues.toList.filterMap fun q => if q.gateWaits then q.gateFrom.map fun c => c + x.wdCycles else none

/-- The least of some cycles. -/
def least : List Nat → Option Nat
  | [] => none
  | c :: cs => match least cs with
    | some d => some (min c d)
    | none => some c

/-- The next expiry of a watchdog of partition p is due. -/
def State.armDog (s : State) (p : Nat) : State :=
  let dog : Instr := .gateWatchdogExpiry (Fin.ofNat 4 p)
  let s := s.cancel (· == dog)
  match least (s.part p).deadlines with
  | some c => s.schedule c dog
  | none => s

/-- The watchdog counts from a cycle on, or stops (R345). -/
def State.watch (s : State) (p : Nat) (on : Bool) (at_ : Nat) : State :=
  let part := s.part p
  match on, part.wdFrom with
  | true, none => (s.setPart p { part with wdFrom := some at_ }).armDog p
  | false, some c => (s.setPart p { part with wdFrom := none, wd := part.wd + (at_ - c) }).armDog p
  | _, _ => s

/-! ### Gates (R130, R131, R265, R333) -/

/-- Whether a value meets a condition, compared signed (R130, R307, R330). -/
def condHolds (cond : Nat) (v w : W64) : Bool :=
  match cond with
  | 0 => v == w
  | 1 => v != w
  | 2 => BitVec.sle w v
  | _ => BitVec.slt v w

/-- What an evaluation finds of a gate. -/
inductive Verdict where
  | holds
  | waits (idle : Bool)
  | fault (f : FaultInfo)
  deriving DecidableEq, Repr

/-- A signal object judged: poisoned code 0x18, invalid code 0x29, each naming the gate (R131, R265; assumption 106). -/
def State.judgeObject (s : State) (va idx : Nat) (h : Home) (cond : Nat) (w : W64) (idle : Bool) : Verdict :=
  match leNat? (s.homeRead h 8) with
  | none => .fault (slackInfo 0x18 idx (va / 64 * 64) none [])
  | some v =>
    if BitVec.ofNat 64 v = invalidSignal then .fault (slackInfo 0x29 idx va none [])
    else if condHolds cond (BitVec.ofNat 64 v) w then .holds else .waits idle

/-- The registrations of a partition's cores, in core order. -/
def State.registrations (s : State) (p : Nat) : List (Nat × GateReg) :=
  (s.coresOf p).flatMap fun c => (s.core c).regs.gates.map fun g => (c, g)

/-- The gates that the phase which ended declares. -/
def State.endedGates (s : State) (p : Nat) : List GateDecl := (((s.part p).job.bind Job.entry).map (·.gates)).getD []

/-- Whether a home is not in HBM of this module. -/
def isAway : Home → Bool
  | .hbm _ => false
  | _ => true

/-- A registration judged. An object of the host or of a peer is read only in the evaluations made every 256 cycles; in between
it stands as the last of these found it (R265). -/
def State.judge (s : State) (p : Nat) (r : Nat × GateReg) : Verdict :=
  let g := r.2
  if g.sem then
    (if (g.value.getD 0).toNat ≤ ((s.core r.1).regs.sem[(Fin.ofNat 32 g.n)]).toNat then .holds else .waits false)
  else
    match (s.endedGates p)[g.n]?, mapGet (s.part p).gateHomes g.n with
    | some d, some h =>
      if isAway h && !(s.part p).evalFull then (if (s.part p).remoteOk.contains r then .holds else .waits d.idle)
      else s.judgeObject d.addr g.n h d.cond (g.value.getD d.value) d.idle
    | _, _ => .holds

/-- A gate object is translated (R265): the page must grant R and A, and its translation is loaded. -/
def State.gateHome (s : State) (p va : Nat) : Except FaultInfo (Home × TEntry) :=
  if 2 ^ 52 ≤ va then .error (slackInfo 0x22 0 va none [])
  else match s.translate p va with
  | .fail code level addr =>
    .error (slackInfo code (if code = 0x22 then level else 0) (if code = 0x22 then va else addr) none [])
  | .ok e =>
    let lack := (if e.r then 0 else 4) + (if e.a then 0 else 16)
    if lack ≠ 0 then .error (slackInfo 0x23 lack va none []) else .ok (e.at' va, e)

/-- All signal objects of the registrations are translated before the first evaluation of a boundary. -/
def State.gateHomesOf (s : State) (p : Nat) : List (Nat × GateReg) → Except FaultInfo State
  | [] => .ok s
  | (_, g) :: rs =>
    if g.sem || (mapGet (s.part p).gateHomes g.n).isSome then State.gateHomesOf s p rs
    else match (s.endedGates p)[g.n]? with
      | none => State.gateHomesOf s p rs
      | some d => match s.gateHome p d.addr with
        | .error f => .error f
        | .ok (h, e) => State.gateHomesOf (s.onPart p fun x => { (x.load e false) with gateHomes := mapSet x.gateHomes g.n h }) p rs

/-- The sediment entry of a gate (kind 0x07): the expiry of its watchdog is fatal (R382). -/
def State.sedGate (s : State) (p idx outcome cycles : Nat) : State :=
  s.sediment 0x07 p 0xFF (outcome == 2) ([BitVec.ofNat 8 idx, BitVec.ofNat 8 outcome, 0, 0] ++ leBytes 4 (cycles / 800000))

/-! ### Step 10 and what leads to it -/

/-- The cadence that power and the thermal state of partition p ask for (R373, R377); the thermal request as it will be
at a phase start now. -/
def State.thermNext (s : State) (p : Nat) : Nat :=
  let part := s.part p
  let n := s.mod.quarters
  let stackSet := range' (3 * p) (3 * n)
  if !s.mod.tsrc then 1 + min 2 ((stackSet.map fun i => s.mod.hbmCode[(Fin.ofNat 12 i)]).foldl max 0)
  else if (s.coresOf p).any (fun c => (s.mod.coreSet[(Fin.ofNat 96 c)]).2.1)
      || stackSet.any (fun i => (range' (4 * i) 4).any fun j => (s.mod.baseSet[(Fin.ofNat 48 j)]).2.1) then min 4 (part.ctherm + 1)
  else if 1 < part.ctherm ∧ part.throtClear + 8000000 ≤ s.now ∧ part.cthermAt + 8000000 ≤ s.now then part.ctherm - 1
  else part.ctherm

/-- The cadence partition p asks for. -/
def State.cadenceOf (s : State) (p : Nat) : Nat :=
  max (fld s.mod.cmin.toNat (2 * p + 1) (2 * p) + 1) (max s.mod.cpow (s.thermNext p))

/-- Step 10 begins 64 cycles before phase tick 0, which falls no sooner than the root's sign-off and the last step allow
(R311). -/
def State.step10 (s : State) (p tick0 : Nat) : State :=
  (s.onPart p fun x => { x with seq := .slack 10 }).schedule (max (s.now + 64) (max tick0 (s.part p).soff) - 64) (.phaseStart (Fin.ofNat 4 p))

/-- Whether a partition's selected phase is a system phase. -/
def State.nextSystem (s : State) (p : Nat) : Bool :=
  match (s.part p).job, (s.part p).next with
  | some j, some x => (((j.entryOf x).map (·.system)).getD false)
  | _, _ => false

/-- Whether partition p's job has announced its readiness at this boundary (R315). -/
def Part.announced (x : Part) : Bool :=
  match x.job with
  | some j => x.readyRanks.any fun r => r.1 == j.rank
  | none => false

/-- Whether another partition of the module runs a system phase, or has begun to align one (R291). -/
def State.otherSystem (s : State) (p : Nat) : Bool :=
  (range' 0 4).any fun q => q != p &&
    (match (s.part q).seq with
      | .phase | .signing => s.sysPhase q
      | .slack 9 | .slack 10 => s.nextSystem q && (s.part q).announced
      | _ => false)

/-- Partitions held at step 9 by a system phase of another go on (R291). -/
def State.wakeHeld (s : State) : State :=
  (range' 0 4).foldl (fun (s : State) q =>
    if (s.part q).seq == .slack 9 && !(s.part q).announced then s.schedule s.now (.gateEvaluation (Fin.ofNat 4 q)) else s) s

/-- The group stops (R315): the other modules are told. -/
def State.stopGroup (s : State) (p code detail : Nat) : State :=
  (((s.emit (.abortTorus p)).onPart p fun x => { x with readyRanks := [] }).slackFault p 9 (slackInfo code detail 0 none []) false).wakeHeld

/-- Another module has stopped the group (R315): with one of two codes, which the message does not name (assumption 41). -/
def State.hearStop (s : State) (p : Nat) : State :=
  ({ s.onPart p fun x => { x with readyRanks := [], groupStopped := false } with fresh := s.fresh + 1 }).slackFault p 9
    (slackInfo (if Config.groupStop s.fresh then 0x28 else 0x2A) 0 0 none []) false

/-- The root at step 9, once every module of the group is ready (R315): it sends the start wave with the largest cadence, or stops
the group where a module has selected otherwise. -/
def State.alignGroup (s : State) (p : Nat) : State :=
  let part := s.part p
  match part.job, part.next with
  | some j, some x =>
    let rs := part.readyRanks
    if part.seq != .slack 9 || part.expired || j.rank != 0 || !part.announced || decide (rs.length < j.members) then s
    else if rs.any fun r => r.2.1 != x.pidx || r.2.2.1 != x.infl then s.stopGroup p 0x28 (x.z + x.q * 2 ^ 32)
    else
      let c := (rs.map fun r => r.2.2.2).foldl max 1
      (s.emit (.startWave p c 0)).schedule s.now (.startWave (Fin.ofNat 4 p) c 0)
  | _, _ => s

/-- Step 9 (R315): a system phase announces its readiness, once no other partition of the module runs one (R291); the root
keeps a watchdog. What the group's other modules have announced before counts, and so does a stop of the group. -/
def State.step9 (s : State) (p : Nat) : State :=
  if !s.nextSystem p then (s.stepDone p).step10 p 0
  else
    let s := s.onPart p fun x => { x with seq := .slack 9, wave := none }
    if (s.part p).groupStopped then s.hearStop p
    else if s.otherSystem p then s
    else match (s.part p).job, (s.part p).next with
      | some j, some x =>
        let c := s.cadenceOf p
        let s := (s.onPart p fun y => { y with readyRanks := y.readyRanks.filter (fun r => r.1 != j.rank) ++ [(j.rank, x.pidx, x.infl, c)] }).emit
          (.readiness p j.rank x.pidx x.infl c)
        (if j.rank = 0 then s.watch p true s.now else s).alignGroup p
      | _, _ => s

/-- Partitions that wait at step 9 for another's system phase to end (R291). -/
def State.releaseSystem (s : State) : State :=
  (range' 0 4).foldl (fun (s : State) p =>
    if (s.part p).seq == .slack 9 && !(s.part p).announced then s.step9 p else s) s

/-- Step 8 begins: its time is known from the misses (R352). -/
def State.step8 (s : State) (p : Nat) : State :=
  match (s.part p).next with
  | some x => s.goOn p 8 (s.now + (s.flyAll p x).cycles)
  | none => s

/-- Step 8 ends: the fault that preflight finds, or the translations pinned, and step 9. -/
def State.end8 (s : State) (p : Nat) : State :=
  match (s.part p).job, (s.part p).next with
  | some j, some x =>
    let f := s.flyAll p x
    (match f.verdict (((j.entryOf x).map (·.replayable)).getD false) with
    | some e => s.slackFault p 8 e false
    | none => ((s.onPart p f.pin).stepDone p).step9 p)
  | _, _ => s

/-! ### Step 7: images, mirror rings, the snapshot (R247, R309, R312) -/

/-- The standby half of a core with an image. -/
def Core.loadHalf (co : Core) (key : Nat × Nat) (ws : List W64) : Core :=
  if co.half then { co with im0 := ws, image0 := some key } else { co with im1 := ws, image1 := some key }

/-- Whether the standby half of a core holds an image (R309; assumption 53): it was loaded with that image, and the image's words
are still those. A resumed job finds none (R348). -/
def Core.standsBy (co : Core) (key : Nat × Nat) (ws : List W64) : Bool :=
  if co.half then co.image0 == some key && co.im0 == ws else co.image1 == some key && co.im1 == ws

/-- The words of the image that a core takes in a phase, and what names it. -/
def Job.imageOf (j : Job) (k : Nat) : List W64 := (nth j.table.images k ⟨[], 0, []⟩).words

def Job.imageKey (j : Job) (k : Nat) : Nat × Nat := (j.launch.ptab, k)

/-- The images of a phase and inflection go to the standby halves; the cycles this takes, at 64 bytes a cycle. -/
def State.loadImages (s : State) (p : Nat) (j : Job) (x : Sel) : State × Nat :=
  let ts := s.takersOf p x
  let most := (ts.map fun t => (j.imageOf t.2.1).length).foldl max 0
  (s.onCores p fun c co =>
    match ts.find? fun t => t.1 == c with
    | some t => co.loadHalf (j.imageKey t.2.1) (j.imageOf t.2.1)
    | none => co, cdiv (8 * most) 64)

/-- The snapshot of a phase start is wanted: a replayable phase (R312), or a debug mode that goes back to it (R369). -/
def State.wantsSnapshot (s : State) (p : Nat) (j : Job) (x : Sel) : Bool :=
  ((j.entryOf x).map (·.replayable)).getD false || (s.part p).dmode == 1 || (s.part p).dmode == 2

/-- Step 7 begins: images are loaded where the standby half holds others, and the bank is cleared for a snapshot. -/
def State.step7 (s : State) (p extra : Nat) : State :=
  match (s.part p).job, (s.part p).next with
  | some j, some x =>
    let have_ := (s.takersOf p x).all fun t => (s.core t.1).standsBy (j.imageKey t.2.1) (j.imageOf t.2.1)
    let (s, load) := if have_ then (s, (s.part p).loadedAt - s.now) else s.loadImages p j x
    let snap := s.wantsSnapshot p j x
    let (s, clear) := if snap then s.clearBank p else (s, 0)
    let c := extra + load + clear + (if snap then exchangeCycles j.launch.detect else 0)
    (s.onPart p fun y => { y with loadedAt := s.now + load, snap := false }).goOn p 7 (max (s.now + c) (s.part p).least7)
  | _, _ => s

/-- The rows of a partition's ChaCha20 key as eight words. -/
def Part.keyWords (p : Part) : List Nat := p.rngKey.toList.flatMap fun w => [w.toNat % 2 ^ 32, w.toNat / 2 ^ 32]

/-- n random words of a slot are pushed into a ring (R247). -/
def State.fillRing (s : State) (p c slot : Nat) (q : Fin 32) : Nat → State
  | 0 => s
  | n + 1 =>
    let co := s.core c
    let r := co.regs.ring q
    let t := ((mapGet s.mod.tickets slot).getD 0).toNat
    let w := randomWord (s.part p).keyWords slot t + 2 ^ 32 * (t % 2 ^ 32)
    let co := co.bufStore .sdm (place (r.addr r.tail) ((leBytes 8 w).map some))
    let s := s.setCore c { co with regs := co.regs.ringPush q none }
    State.fillRing { s with mod := { s.mod with tickets := mapPut 0 s.mod.tickets slot (BitVec.ofNat 64 (t + 1)) } } p c slot q n

/-- One mirror ring is topped up, or stops the phase from starting (R247). -/
def State.fillMirror (s : State) (p c : Nat) (m : Mirror) : Except FaultInfo State :=
  let co := s.core c
  let q := Fin.ofNat 32 m.ring
  let r := co.regs.ring q
  let bad := slackInfo 0x03 (0x400 + m.ring) 0 (some c) []
  match leNat? (co.bufRead .sdm m.slot 8) with
  | none => .error bad
  | some slot =>
    if r.buf ≠ 3 ∨ r.esize ≠ 1 ∨ r.depth < m.fill ∨ 8191 < slot then .error bad
    else .ok (s.fillRing p c slot q (m.fill - r.count))

/-- All mirror rings: cores ascending, and of each core its rings ascending. -/
def State.fillAll (s : State) (p : Nat) : List (Nat × Mirror) → Except FaultInfo State
  | [] => .ok s
  | (c, m) :: ms =>
    match s.fillMirror p c m with
    | .error f => .error f
    | .ok t => State.fillAll t p ms

/-- Step 7 ends: the mirror rings are filled, the snapshot is taken, and step 8 begins. -/
def State.end7 (s : State) (p : Nat) : State :=
  match (s.part p).job, (s.part p).next with
  | some j, some x =>
    if x.rerun then s.step8 p
    else
      let ms := (((j.entryOf x).map (·.mirrors)).getD []).mergeSort fun a b => decide (a.ring ≤ b.ring)
      match s.fillAll p ((s.takersOf p x).flatMap fun t => ms.map fun m => (t.1, m)) with
      | .error f => s.slackFault p 7 f false
      | .ok s =>
        let s := if s.wantsSnapshot p j x then (s.saveBanks p 16).onPart p fun y => { y with snap := true } else s
        (s.stepDone p).step8 p
  | _, _ => s

/-! ### Step 6: pre-emption (R313, R347) -/

/-- Whether the selected phase may be pre-empted before it starts. -/
def State.preemptible (s : State) (p : Nat) : Bool :=
  match (s.part p).job, (s.part p).next with
  | some j, some x => ((j.entryOf x).map (·.preemptible)).getD false
  | _, _ => false

/-- The live-in entries of the selection. -/
def Job.live (j : Job) (x : Sel) : List (Buf × Nat × Nat) := ((j.chosen x).map liveEntries).getD []

/-- A request is taken: the live-in bytes are spilled and the contexts go to the bank; the partition is idle when both
copies are complete. -/
def State.preempt (s : State) (p : Nat) : State :=
  match (s.part p).job, (s.part p).next with
  | some j, some x =>
    let live := j.live x
    let c := s.spillCycles p live + exchangeCycles j.launch.detect
    let s := (s.watch p false s.now).spill p live
    ((s.saveBanks p 16).onPart p fun y => { y with pend := false }).goOn p 6 (s.now + c)
  | _, _ => s

/-- The pre-emption is complete: the partition record is written, the job is held, the partition idle. -/
def State.hold (s : State) (p : Nat) : State :=
  match (s.part p).job, (s.part p).next with
  | some j, some x =>
    let s := s.homeWrite .hub (.hbm (s.part p).sbase) ((partitionRecord x 5 j.launch.tag).map some)
    let s := s.sediment 0x08 p 0xFF false ([0, 0, 0, 0] ++ leBytes 4 j.ridx)
    ((s.onPart p fun y => { y with
      held := 1, heldJob := some j, heldSel := some x, job := none, next := none, seq := .idle, failed := false }).stepDone p).tryLaunch p
  | _, _ => s

/-- Once a retry or a replay lets the next phase start, the job's queue runs again (R357). -/
def State.requeue (s : State) (p : Nat) : State :=
  match (s.part p).job with
  | some j =>
    let n := Fin.ofNat 64 j.queue
    let q := (s.part p).queues[n]
    if q.qstate = 2 ∧ q.err = 5 ∧ q.fidx = j.ridx % 65536 then
      (s.onPart p fun x => { x with queues := x.queues.set n { q with qstate := 1, err := 0, fidx := 0 } }).tryLaunch p
    else s
  | none => s

/-- The job ends (R310, R334): it completes when its operations are acknowledged; the partition is idle, and the launch unit
looks for the next. -/
def State.endJob (s : State) (p : Nat) : State :=
  match (s.part p).job with
  | some j =>
    let s := (s.requeue p).onPart p fun y => { y.unpin with
      job := none, next := none, seq := .idle, failed := false, snap := false, groupStopped := false, ended := y.ended ++ [j] }
    ((s.applyHeld p).completeJobs p).tryLaunch p
  | none => s

/-- Step 6: the job's end, or the pre-emption point. -/
def State.step6 (s : State) (p : Nat) : State :=
  let part := s.part p
  match part.next with
  | none => (s.stepDone p).endJob p
  | some _ =>
    if part.pend && s.preemptible p then
      if part.sval && part.pval then s.preempt p
      else
        ((s.sediment 0x08 p 0xFF false ([2, 0, 0, 0] ++ leBytes 4 ((part.job.map (·.ridx)).getD 0))).stepDone p).step7 p 0
    else (s.stepDone p).step7 p 0

/-! ### Step 5 (R265, R311) -/

/-- Step 5 begins at this cycle: objects are translated, the first evaluation ends 16 cycles on, and the watchdog starts from
zero. Without registrations there is nothing to wait for. -/
def State.step5 (s : State) (p : Nat) (resumed : Bool) : State :=
  let rs := s.registrations p
  let s := s.onPart p fun x => { x with
    seq := .slack 5, from5 := s.now, gateHomes := [], evalAgain := false, evalFull := true, remoteOk := [], wd := 0, wdFrom := none
    least7 := if resumed && rs.isEmpty then s.now + 16 else 0 }
  if rs.isEmpty then s.goOn p 5 s.now
  else match s.gateHomesOf p rs with
    | .error f => s.slackFault p 5 f false
    | .ok s =>
      let idle (r : Nat × GateReg) : Bool := !r.2.sem && (((s.endedGates p)[r.2.n]?).map (·.idle)).getD false
      (s.watch p (rs.any fun r => !idle r) s.now).goOn p 5 (s.now + 16)

/-- The next evaluation: at once if a write was notified meanwhile, else at the next multiple of 256 cycles (R265); it ends
16 cycles later. Only the latter reads objects outside this module. -/
def State.nextEvaluation (s : State) (p : Nat) : State :=
  let x := s.part p
  let periodic := x.from5 + 256 * ((s.now - 16 - x.from5) / 256 + 1)
  let start := if x.evalAgain then s.now else max s.now periodic
  (s.setPart p { x with evalAgain := false, evalFull := decide (periodic ≤ start) }).goOn p 5 (start + 16)

/-- The registrations on objects outside this module that hold, after an evaluation that has read them. -/
def State.noteRemote (s : State) (p : Nat) (rs : List (Nat × GateReg)) : State :=
  if (s.part p).evalFull then s.onPart p fun x => { x with remoteOk := rs.filter fun r => s.judge p r == .holds } else s

/-- An evaluation ends: a fault, all satisfied, or another wait. -/
def State.evaluate (s : State) (p : Nat) : State :=
  let rs := s.registrations p
  let vs := rs.map (s.judge p)
  let ms := s.now - (s.part p).from5
  match vs.findSome? fun v => match v with | .fault f => some f | _ => none with
  | some f => (s.sedGate p (f.detail % 64) (if f.code = 0x18 then 3 else 1) ms).slackFault p 5 f false
  | none =>
    if vs.all (· == .holds) then
      let s := match rs with
        | r :: _ => s.sedGate p r.2.n 0 ms
        | [] => s
      ((s.watch p false s.now).stepDone p).step6 p
    else ((s.noteRemote p rs).watch p (vs.any (· == .waits false)) s.now).nextEvaluation p

/-! ### Steps 3 and 4 -/

/-- The combined exports (R133). -/
def State.exports (s : State) (p : Nat) : Nat × Nat :=
  (s.coresOf p).foldl (fun x c =>
    let k := (s.core c).regs.ctl
    (if k.expSize then max x.1 k.size.toNat else x.1, if k.expSel then x.2 ||| k.sel.toNat else x.2)) (0, 0)

/-- Step 4: selection (R310). -/
def State.step4 (s : State) (p : Nat) : State :=
  match (s.part p).job with
  | none => s
  | some j =>
    let (z, q) := s.exports p
    let nx := (j.entry.map fun e => nth e.succ q 0xFFFF).getD 0xFFFF
    if nx = 0xFFFF then ((s.onPart p fun x => { x with next := none }).stepDone p).step5 p false
    else match (j.table.phases[nx]?).bind fun e => e.infls.findIdx? fun i => decide (z ≤ i.bound) with
      | some i =>
        ((s.onPart p fun x => { x with next := some ⟨j.phase + 1, nx, i, z, q, false⟩ }).stepDone p).step5 p false
      | none => s.slackFault p 4 (slackInfo 0x28 (z + q * 2 ^ 32) 0 none []) false

/-- A phase is run again from its snapshot (R312): the contexts are restored, and steps 8 to 10 follow. -/
def State.rerun (s : State) (p : Nat) (keepSem : Bool) (extra : Nat) : State :=
  match (s.part p).job with
  | some j =>
    let s := (s.restoreBanks p keepSem).onPart p fun x => { x with
      wd := 0, wdFrom := none
      next := some ⟨j.phase, j.pidx, j.infl, j.z, j.q, true⟩, job := some { j with marked := false } }
    s.goOn p 7 (s.now + exchangeCycles j.launch.detect + extra)
  | none => s

/-- Step 3 (R312). A third run stands, and is noted. -/
def State.step3 (s : State) (p : Nat) : State :=
  match (s.part p).job with
  | none => s
  | some j =>
    let replayable := (j.entry.map (·.replayable)).getD false
    if j.marked && replayable && decide (j.replays < 2) then
      (((s.onPart p fun x => { x with job := some { j with replays := j.replays + 1 } }).sedReplay p (j.replays + 2) 0).stepDone p).rerun p false 0
    else
      let s := if j.marked && replayable then s.sedReplay p 3 0 else s
      ((s.onPart p fun x => { x with job := some { j with replays := 0, marked := false } }).stepDone p).step4 p

/-! ### Step 1 and the debug digests -/

/-- The digest log's entry of a core (R371). -/
def Core.digestEntry (co : Core) (c : Nat) : List Byte :=
  leBytes 4 co.regs.ctl.phase.toNat ++ [BitVec.ofNat 8 c, 0, 0, 0] ++ co.digest.toList.flatMap (fun h => leBytes 8 h.toNat)
    ++ leBytes 8 co.digestD.toNat

/-- Record mode: every core's entry is appended. -/
def State.logDigests (s : State) (p : Nat) : State :=
  (s.coresOf p).foldl (fun (s : State) c =>
    (s.homeWrite .hub (.hbm ((s.part p).dlog + (s.part p).dlogAt)) (((s.core c).digestEntry c).map some)).onPart p
      fun x => { x with dlogAt := x.dlogAt + 80 }) s

/-- The first core whose entry in the log differs, and the lowest engine whose value does. -/
def State.divergence (s : State) (p : Nat) : Option (Nat × Nat) :=
  (place 0 (s.coresOf p)).findSome? fun x =>
    let log := s.rawRead ((s.part p).dlog + (s.part p).dlogAt + 80 * x.1) 80
    let mine := (s.core x.2).digestEntry x.2
    if log = mine then none
    else some (x.2, ((range' 0 8).find? fun e => slice log (8 + 8 * e) 8 != slice mine (8 + 8 * e) 8).getD 0)

/-- Replay mode: at the first difference the partition stops, and observes from then on. -/
def State.compareDigests (s : State) (p : Nat) : State :=
  match s.divergence p with
  | some (c, e) => s.onPart p fun x => { x with
      seq := .debug true, div := true, divPh := (s.core c).regs.ctl.phase.toNat, divCore := c, divEng := e, dmode := 3, dmodeOn := 3
      dlogAt := x.dlogAt + 80 * (s.coresOf p).length }
  | none => s.onPart p fun x => { x with dlogAt := x.dlogAt + 80 * (s.coresOf p).length }

/-- Pending invalidations are applied (R353). -/
def Part.dropInval (x : Part) : Part :=
  { x with
    cache := x.cache.filter fun e =>
      !(x.inval.any fun v => match v with
        | none => true
        | some va => decide (e.va ≤ va) && decide (va < e.va + e.size))
    inval := [] }

/-- The same once a phase has ended: its translations are no longer pinned (R352, R353). -/
def Part.applyInval (x : Part) : Part := x.unpin.dropInval

/-- A core at its sign-off: what is still pending there completes in the slack window (R137). -/
def Core.settle (co : Core) : Core := { co with pend := [], waking := 0, gm := co.gm.releasePass }

/-- Step 1: the release pass, the deferred writes, the invalidations (R235, R267, R309, R353). -/
def State.step1 (s : State) (p : Nat) : State :=
  ((((s.onCores p fun _ co => co.settle).applyDeferred p).onPart p Part.applyInval).stepDone p)

/-- Step 2: the closing barrier of a system phase exchanges the replay marks (R314). -/
def State.step2 (s : State) (p : Nat) : State :=
  match (s.part p).job with
  | some j =>
    if s.sysPhase p && decide (1 < j.members) then (s.onPart p fun x => { x with seq := .slack 2 }).emit (.replayMark p j.marked)
    else (s.stepDone p).step3 p
  | none => s

/-- LAST_SIGN_OFF (R48, R309): the root registers the last sign-off, and steps 1 to 4 follow. -/
def execLastSignOff (p : Fin 4) (s : State) : Result :=
  let part := s.part p
  if part.seq != .signing then .next s
  else if part.abort.isSome then .next (s.schedule s.now (.faultCapture p))
  else if !s.drained p then .next (s.schedule (max (s.now + 1) part.base) (.lastSignOff p))
  else
    let s := if part.dmodeOn = 1 then s.logDigests p else if part.dmodeOn = 2 then s.compareDigests p else s
    if (s.part p).seq == .debug true then .next s
    else
      let j := part.job
      let s := s.sediment 0x01 p 0xFF false (leBytes 4 ((j.map (·.phase)).getD 0) ++ leBytes 2 ((j.map (·.pidx)).getD 0)
        ++ [BitVec.ofNat 8 ((j.map (·.infl)).getD 0), BitVec.ofNat 8 (part.cad - 1)])
      let s := s.onPart p fun x => { x with seq := .slack 1, soff := s.now + 384 }
      .next ((s.step1 p).step2 p).releaseSystem

/-- REPLAY_MARK_EXCHANGE (R314): the marks of the group are known; all modules replay or none does. -/
def execReplayMarkExchange (p : Fin 4) (marked : Bool) (s : State) : Result :=
  let part := s.part p
  match part.job with
  | some j =>
    if part.seq == .slack 2 then
      let s := s.onPart p fun x => { x with job := some { j with marked := j.marked || marked } }
      .next ((s.stepDone p).goOn p 3 (max s.now (part.soff - 384 + 320 * j.hops)))
    else .next s
  | none => .next s

/-! ### What the gate watchdog does (R345) -/

/-- The first unsatisfied registration that is not idle. -/
def State.lateGate (s : State) (p : Nat) : Nat :=
  (((s.registrations p).find? fun r => s.judge p r == .waits false).map fun r => r.2.n).getD 0

/-- Detail of code 0x2A: the gate, and the milliseconds waited. -/
def dogDetail (idx cycles : Nat) : Nat := idx % 64 + cycles / 800000 % 2 ^ 32 * 65536

/-- The rest of an expiry, the partition being frozen and its bank free (R345): the contexts go to the bank, the sediment record
to flash, and code 0x2A is recorded. At step 9 the group stops (R315). -/
def State.dogStop (s : State) (p : Nat) : State :=
  let part := s.part p
  let t := (s.saveBanks p 16).onPart p fun x => { x with expired := false, readyRanks := [] }
  match part.seq with
  | .slack 9 => ((t.flashCopy.emit (.abortTorus p)).slackFault p 9 (slackInfo 0x2A (dogDetail 0 part.wd) 0 none []) true).releaseSystem
  | _ =>
    let g := s.lateGate p
    (t.sedGate p g 2 (s.now - part.from5)).flashCopy.slackFault p 5 (slackInfo 0x2A (dogDetail g part.wd) 0 none []) true

/-- GATE_EVALUATION (R265, R309): an evaluation of step 5 ends, or another step of the slack window does, and the
steps that follow are taken up. -/
def execGateEvaluation (p : Fin 4) (s : State) : Result :=
  match (s.part p).seq with
  | .slack 3 => .next (s.step3 p)
  | .slack 4 => .next (s.step4 p)
  | .slack 5 => .next (if (s.part p).expired then s.dogStop p else s.evaluate p)
  | .slack 9 => .next (if (s.part p).expired then s.dogStop p else if (s.part p).announced then s else s.step9 p)
  | .slack 6 => .next (s.hold p)
  | .slack 7 => .next (s.end7 p)
  | .slack 8 => .next (s.end8 p)
  | _ => .next s

/-- The cycle at which partition p's pending evaluation ends. -/
def State.evalDue (s : State) (p : Nat) : Option Nat :=
  (s.agenda.find? fun e => e.ev == .gateEvaluation (Fin.ofNat 4 p)).map (·.cycle)

/-- Whether two places in HBM are on one line (R262). -/
def sameLine (a b : Home) : Bool :=
  match a, b with
  | .hbm x, .hbm y => x / 64 == y / 64
  | _, _ => false

/-- A write notification for a partition that waits at step 5: an evaluation starts, or follows the one under way. -/
def State.notifyPart (s : State) (p : Nat) (h : Home) : State :=
  let part := s.part p
  if part.seq == .slack 5 && !part.expired && part.gateHomes.any fun g => sameLine g.2 h then
    match s.evalDue p with
    | some c =>
      if s.now + 16 < c then
        ((s.setPart p { part with evalFull := false }).cancel (· == .gateEvaluation (Fin.ofNat 4 p))).schedule (s.now + 16)
          (.gateEvaluation (Fin.ofNat 4 p))
      else s.setPart p { part with evalAgain := true }
    | none => s
  else s

/-- The queues whose gated head record waits, and the homes of their objects. -/
def Part.gatedQueues (x : Part) : List (Nat × Home) :=
  (place 0 x.queues.toList).filterMap fun q => if q.2.gateWaits then q.2.gateHome.map fun h => (q.1, h) else none

/-- An evaluation of queue n's launch gate ends at a cycle, or does so before. -/
def State.evalLaunch (s : State) (p n cycle : Nat) : State :=
  let e : Instr := .launchGateEvaluation (Fin.ofNat 4 p) (Fin.ofNat 64 n)
  if s.agenda.any fun x => x.ev == e && decide (x.cycle ≤ cycle) then s else (s.cancel (· == e)).schedule cycle e

/-- A write notification for launch gates on the line (R333). -/
def State.notifyQueues (s : State) (p : Nat) (h : Home) : State :=
  ((s.part p).gatedQueues.filter fun g => sameLine g.2 h).foldl (fun (s : State) g => s.evalLaunch p g.1 (s.now + 16)) s

/-- WRITE_NOTIFICATION (R262, R265): the gates on the written line are evaluated. -/
def execWriteNotification (home : Home) (s : State) : Result :=
  .next ((range' 0 4).foldl (fun (s : State) p => (s.notifyPart p home).notifyQueues p home) s)

/-! ### System phases (R315) -/

/-- ALIGNMENT_READINESS (R315): the root collects what the group's modules announce, before its own step 9 too; when every
module is ready it sends the start wave, or stops the group where a module has selected otherwise. -/
def execAlignmentReadiness (p : Fin 4) (rank pidx infl cadence : Nat) (s : State) : Result :=
  let part := s.part p
  if (match part.job with | some j => j.rank != 0 | none => false) || part.readyRanks.any (fun r => r.1 == rank) then .next s
  else .next ((s.setPart p { part with readyRanks := part.readyRanks ++ [(rank, pidx, infl, cadence)] }).alignGroup p)

/-- START_WAVE (R315): the group's cadence, and phase tick 0 at 256 + 320 × (H − h) cycles from now. -/
def execStartWave (p : Fin 4) (cadence hops : Nat) (s : State) : Result :=
  match (s.part p).seq, (s.part p).job with
  | .slack 9, some j =>
    if (s.part p).expired then .next s else
    let t := s.now + 256 + 320 * (j.hops - hops)
    .next (((s.watch p false s.now).onPart p fun x => { x with wave := some cadence }).stepDone p |>.step10 p t)
  | _, _ => .next s

/-! ### Step 10: the start of a phase (R310, R311) -/

/-- The registers of a core at the start of a clause (R27, R32, R44, R130); s3 and s4 hold the selection on every core (R310). -/
def Regs.start (r : Regs) (x : Sel) (cad : Nat) (spatial : Option (Nat × Nat)) : Regs :=
  let s := match spatial with
    | some (s1, s2) => (r.s.set 1 (some (BitVec.ofNat 64 s1))).set 2 (some (BitVec.ofNat 64 s2))
    | none => r.s
  { r with
    s := (s.set 3 (some (BitVec.ofNat 64 x.infl))).set 4 (some (BitVec.ofNat 64 x.z))
    gates := []
    ctl := { r.ctl with
      cadence := BitVec.ofNat 2 (cad - 1), phase := BitVec.ofNat 32 x.phase, inflect := BitVec.ofNat 3 x.infl
      size := BitVec.ofNat 32 x.z, sel := BitVec.ofNat 2 x.q, expSize := false, expSel := false } }

/-- A core at phase start (R11, R20, R138, R371): halves swapped, nothing in flight, its clause planned; fetch begins 16 ticks
before the clause's tick 0, now on the cores without a stagger (`first`). What a debug stop recorded stays in a run again (R135,
R369). -/
def Core.start (co : Core) (first : Bool) (x : Sel) (cad : Nat) (consts : List Nat) (regions : List Region) (spatial : Option (Nat × Nat)) : Core :=
  let half := if x.rerun then co.half else !co.half
  let ws := if half then co.im1 else co.im0
  let (plan, loops) := match spatial with
    | some _ => planOf consts ws
    | none => ([], [])
  let co := { co with
    regs := co.regs.start x cad spatial
    sdm0 := co.sdm, w0 := WSet.empty, w1 := WSet.empty, wact := false, waking := 0, holds := [], half := half, plan := plan, loops := loops
    pos := 0, iters := [], queues := Vector.replicate 8 [], retired := Vector.replicate 8 0, running := []
    takes := spatial.isSome, rdv := rdvTick plan, signed := false, halted := false, lag := 0, stalled := none, owed := []
    froze := false, pend := [], claims := [], landed := [], used := [], flying := [], arrivals := [], regions := regions
    brk := if x.rerun then co.brk else none
    digest := Vector.ofFn fun e => BitVec.ofNat 64 ((e.val + 1) * 0x9E3779B97F4A7C15) }
  if spatial.isSome && first then co.fetch 4 else co

/-- The successor and inflection that a phase's hint names (R300, R309). -/
def Job.hinted (j : Job) : Option Sel :=
  match j.entry with
  | some e =>
    let nx := nth e.succ (e.hint % 4) 0xFFFF
    let i := fld e.hint 4 2
    if e.hint < 0x8000 ∨ nx = 0xFFFF then none
    else (match j.table.phases[nx]? with
      | some f => if i < f.infls.length then some ⟨0, nx, i, 0, 0, false⟩ else none
      | none => none)
  | none => none

/-- The refresh rate of a stack at a cadence: the larger of the thermal and the cadence step (R289, R376). -/
def refreshRate (code cad : Nat) : Nat := max (if code = 0 then 1 else if code = 1 then 2 else 4) (if cad ≤ 2 then 1 else 2)

/-- The stacks of partition p get their refresh rates. -/
def State.setRefresh (s : State) (p cad : Nat) : State :=
  { s with mod := { s.mod with refresh := Vector.ofFn fun i =>
      if 3 * p ≤ i.val ∧ i.val < 3 * (p + s.mod.quarters) then refreshRate s.mod.hbmCode[i] cad else s.mod.refresh[i] } }

/-- The debug features that are open for partitions in a life-cycle state (R364, R366). -/
def Module.openFeatures (m : Module) : BitVec 4 :=
  match m.life with
  | .field => m.openPart
  | _ => 15

/-- A debug mode that applies from this phase start on and was set after step 7: its snapshot is taken first (R312, R369). -/
def State.lateSnapshot (s : State) (p : Nat) (j : Job) : State :=
  let (t, clear) := s.clearBank p
  ((t.saveBanks p 16).onPart p fun x => { x with snap := true }).schedule
    (s.now + clear + exchangeCycles j.launch.detect) (.phaseStart (Fin.ofNat 4 p))

/-- PHASE_START (R309 to R311, step 10): the halves swap; phase tick 0 falls 64 cycles later. -/
def execPhaseStart (p : Fin 4) (s : State) : Result :=
  let part := s.part p
  match part.seq, part.job, part.next with
  | .slack 10, some j, some x =>
    if (part.dmode == 1 || part.dmode == 2) && !part.snap && !s.nextSystem p then .next (s.lateSnapshot p j) else
    let cad := part.wave.getD (s.cadenceOf p)
    let th := s.thermNext p
    let j' := { j with phase := x.phase, pidx := x.pidx, infl := x.infl, z := x.z, q := x.q, marked := false }
    let ts := s.takersOf p x
    let consts := ((j.chosen x).map (·.consts)).getD []
    let flight := s.flyAll p x
    let s1 := s.onCores p fun c co =>
      match ts.find? fun t => t.1 == c with
      | some t => co.start (stagger c == 0) x cad consts (s.regionsAt p x t.2.2.1) (some (t.2.2.1, t.2.2.2))
      | none => co.start false x cad [] [] none
    let s2 := s1.setPart p { part with
      seq := .phase, failed := false, job := some j', next := none, guarded := flight.guarded, wave := none, readyRanks := []
      base := s.now + 64 - 16 * cad, k := 0, cad := cad, beats := [], mesh := [], ports := []
      blocks0 := s.mod.linkBlocks, bad0 := s.mod.linkBad
      abort := if part.dstopReq then some ⟨noFault, 16, s.now + 64, 16 + cdiv 24 cad, true⟩ else none
      dstopReq := false
      ctherm := th, cthermAt := if th = part.ctherm then part.cthermAt else s.now
      skipBrk := if part.reexec.isSome then part.skipBrk else none
      dlogAt := if part.dmodeOn = part.dmode then part.dlogAt else 0
      dmodeOn := part.dmode, dbgOn := s.mod.openFeatures, journal := [], jfull := false
      progress := part.progress + 1, evalAgain := false }
    let s2 := if part.dstopReq then s2.tellGroup p else s2
    let s3 := s2.setRefresh p cad
    let s4 := match j'.hinted with
      | some h =>
        let (t, c) := s3.loadImages p j' h
        t.onPart p fun y => { y with loadedAt := s.now + c }
      | none => s3
    let s5 := (s4.requeue p).cancel fun i => i == .refreshSlot p || i == .sequencerProgress p
    .next ((s5.schedule (s.now + 64 + 224 * cad) (.refreshSlot p)).schedule (s.now + 64 + 4096) (.sequencerProgress p))
  | _, _, _ => .next s

/-- REFRESH_SLOT (R289): at phase tick T a slot begins for the stacks of the partition whose period of 1,024, 512 or 256 ticks
has its last 32 ticks there. -/
def execRefreshSlot (p : Fin 4) (s : State) : Result :=
  let part := s.part p
  if part.seq != .phase then .next s
  else
    let t := (s.now - (part.base - (part.k - 16) * part.cad)) / max 1 part.cad
    let m := s.mod
    let s := { s with mod := { m with slots := Vector.ofFn fun i =>
      let period := 1024 / max 1 m.refresh[i]
      if 3 * p.val ≤ i.val ∧ i.val < 3 * (p.val + m.quarters) ∧ t % period = period - 32 then m.slots[i] + 1 else m.slots[i] } }
    .next (s.schedule (s.now + 256 * max 1 part.cad) (.refreshSlot p))

/-- SEQUENCER_PROGRESS (R345): while a phase runs, the counter advances every 4,096 cycles. -/
def execSequencerProgress (p : Fin 4) (s : State) : Result :=
  match (s.part p).seq with
  | .phase | .signing => .next ((s.stepDone p).schedule (s.now + 4096) (.sequencerProgress p))
  | _ => .next s

/-! ### The gate watchdog (R345) -/

/-- A launch as a job of its queue that has not started. -/
def Launch.asJob (l : Launch) (q ridx now : Nat) : Job :=
  { id := 0, queue := q, ridx := ridx, launch := l, table := ⟨[], 0, 0, []⟩, pidx := 0, infl := 0, phase := 0, z := 0, q := 0
    marked := false, replays := 0, start := now, rank := 0, members := 1, hops := 0, done := false, csigHome := none }

/-- Queue n's head record stops it, with a fault record of a launch that has not started (R331, R333, R338); `at_` is what
its widx, pidx and infl fields and its replayable and system bits hold. -/
def State.queueFault (s : State) (p n err : Nat) (at_ : Nat × Nat × Nat × Bool × Bool) (f : FaultInfo) : State :=
  let q := (s.part p).queues[(Fin.ofNat 64 n)]
  let (place, pidx, infl, replayable, system) := at_
  let j := q.head1.map fun l => { l.asJob n q.head s.now with pidx := pidx, infl := infl }
  let r := { s.recordFor p j f 0 place false true with replayable := replayable, system := system }
  ((s.noteFault p f).putRecord p r).stopQueue p n err q.head

/-- Launch gates whose watchdog has expired stop their queues, unless an evaluation ends in this cycle (R333, R345). -/
def State.dogQueues (s : State) (p : Nat) : State :=
  (range' 0 64).foldl (fun (s : State) n =>
    let x := s.part p
    let q := x.queues[(Fin.ofNat 64 n)]
    let late := s.now - q.gateFrom.getD s.now
    let busy := s.agenda.any fun e => e.ev == .launchGateEvaluation (Fin.ofNat 4 p) (Fin.ofNat 64 n) && e.cycle == s.now
    if q.gateWaits && q.gateFrom.isSome && decide (x.wdCycles ≤ late) && !busy then
      s.flashCopy.queueFault p n 5 (0, 0, 0, false, false) (slackInfo 0x2A (dogDetail 0 late) 0 none [])
    else s) s

/-- The sequencer's watchdog has expired (R315, R345): a pending pre-emption request is taken first; else the partition is frozen,
and once the bank is free the contexts go to it (R349). -/
def State.dogPhase (s : State) (p : Nat) : State :=
  let part := s.part p
  let stopped := s.onPart p fun x => { x with wdFrom := none, wd := part.waited s.now }
  let stop (n : Nat) : State :=
    let (t, c) := (stopped.cancel (· == .gateEvaluation (Fin.ofNat 4 p))).clearBank p
    if c = 0 then t.dogStop p else (t.onPart p fun x => { x with expired := true }).goOn p n (s.now + c)
  match part.seq with
  | .slack 5 =>
    if s.evalDue p == some s.now then s
    else if part.pend && s.preemptible p && part.sval && part.pval then
      (s.cancel (· == .gateEvaluation (Fin.ofNat 4 p))).preempt p
    else stop 5
  | .slack 9 => stop 9
  | _ => stopped

/-- GATE_WATCHDOG_EXPIRY (R315, R333, R345): a satisfying evaluation in the same cycle wins. -/
def execGateWatchdogExpiry (p : Fin 4) (s : State) : Result :=
  let s := s.dogQueues p
  let x := s.part p
  .next ((if x.wdFrom.isSome && decide (x.wdCycles ≤ x.waited s.now) then s.dogPhase p else s).armDog p)

end Sys2Proof.Machine
end

