-- ==== Sys2Proof/Machine/Faults.lean ====
section
/-! DEFINITION. Faults and what is done about them: the record (R338, R340), capture (R342), the driver's actions (R343),
machine checks and memory errors (R26, R345, R346, R380), invalidations (R353), dumps (R350), and requests and resumes of
pre-emption (R347, R348). -/

namespace Sys2Proof.Machine

/-! ### The record (R338) -/

/-- The 256 bytes of the fault record. -/
def FaultRec.bytes (r : FaultRec) : List Byte :=
  let f := r.info
  let b (x : Bool) (n : Nat) : Nat := if x then n else 0
  let flags := b (f.cls == 0) 1 + b r.replayable 2 + b r.system 4 + b r.banked 8 + 128
  let (eng, tick, widx, ret, word) := match f.src with
    | some x => (engNo x.eng, x.tick, x.widx, x.retired, x.word.toNat)
    | none => (0xFF, 0, r.place, 0, 0)
  leBytes 4 r.rseq ++ [BitVec.ofNat 8 f.code, BitVec.ofNat 8 f.cls, BitVec.ofNat 8 flags, BitVec.ofNat 8 (f.core.getD 0xFF)]
    ++ leBytes 4 r.phase ++ leBytes 2 r.pidx ++ [BitVec.ofNat 8 r.infl, BitVec.ofNat 8 eng] ++ leBytes 4 tick ++ leBytes 4 widx
    ++ leBytes 8 ret ++ leBytes 8 word ++ leBytes 8 f.detail ++ leBytes 8 f.addr ++ leBytes 8 r.tag.toNat
    ++ [BitVec.ofNat 8 r.queue, 0, 0, 0] ++ leBytes 4 r.ridx ++ leBytes 8 r.cycles ++ leBytes 4 r.frozen
    ++ [BitVec.ofNat 8 r.more, 0, 0, 0] ++ (padTo 168 f.ext).take 168

/-! ### Capture (R342) -/

/-- What a drain leaves of a core: nothing in flight, and beats without a receiving word discarded. -/
def Core.afterDrain (co : Core) : Core := { co with pend := [], arrivals := [], queues := Vector.replicate 8 [], stalled := none, owed := [] }

/-- The capture of an aborted phase, every issued word being complete (R342): the deferred writes are applied, the contexts of a
phase that is not replayable go to the bank, and the record is written last. A held job's contexts leave the bank first, which
takes its time (R349). -/
def State.capture (s : State) (p : Nat) : State :=
  let part := s.part p
  match part.abort with
  | none => s
  | some a =>
    let replayable := ((part.job.bind Job.entry).map (·.replayable)).getD false
    let s := s.applyDeferred p
    let (s, wait) := if replayable then (s, 0) else s.clearBank p
    if wait ≠ 0 then (s.onPart p fun x => { x with seq := .signing }).schedule (s.now + wait) (.faultCapture (Fin.ofNat 4 p))
    else
      let s := (if replayable then s else s.saveBanks p a.k).onCores p fun _ co => co.afterDrain
      let s := s.onPart p fun x => { x with abort := none }
      (s.stopJob p 0 a.info (!replayable)).releaseSystem

/-- FAULT_CAPTURE (R341, R342). -/
def execFaultCapture (p : Fin 4) (s : State) : Result := .next (s.capture p)

/-- ABORT_MESSAGE (R341): a system phase aborts with code 0x09, kind 6, on the same terms from the tick in which the message
arrives, the one before the next to run; at the closing barrier its words are complete already. A group stopped at the
opening alignment stops here at step 9, be it that this module comes there later (R315; assumption 41). -/
def execAbortMessage (p : Fin 4) (s : State) : Result :=
  let part := s.part p
  let f : FaultInfo := ⟨0x09, 1, none, none, 6, 0, []⟩
  match part.seq with
  | .phase | .signing =>
    if !s.sysPhase p then .next (s.onPart p fun x => { x with groupStopped := true })
    else if part.abort.isNone then .next (s.takeFault p (part.k - 1) f)
    else .next s
  | .slack 2 => .next ((s.takeFault p part.k f).capture p)
  | .slack 9 => .next ((s.onPart p fun x => { x with expired := false }).hearStop p).releaseSystem
  | .slack 10 => .next s
  | .slack _ | .idle => .next (s.onPart p fun x => { x with groupStopped := true })
  | .stopped => .next (s.onPart p fun x => { x with groupStopped := x.groupStopped || (x.frec.map (·.info.cls)) == some 2 })
  | .debug _ => .next s

/-! ### Acting on a fault (R343) -/

/-- The partition has no job any more, and none completes for it; a job that was being resumed is not held any more, and no
translation stays pinned (R352). -/
def State.dropJob (s : State) (p : Nat) : State :=
  match (s.part p).job with
  | some j =>
    let n := Fin.ofNat 64 j.queue
    let q := (s.part p).queues[n]
    let s := (s.cancelSequencer p).onCores p fun _ co => co.afterDrain
    let s := if (s.part p).heldJob.map (·.id) = some j.id then s.onPart p fun x => { x with held := 0, heldJob := none, heldSel := none } else s
    s.onPart p fun x => { x.unpin with
      job := none, next := none, seq := .idle, abort := none, reexec := none, skipBrk := none, readyRanks := [], expired := false
      failed := false, snap := false, groupStopped := false
      queues := x.queues.set n { q with open_ := q.open_.filter (· != j.ridx) } }
  | none => s.onPart p fun x => { x with seq := .idle, abort := none }

/-- Die d is powered at a cycle, and its cores leave reset and run their tests in index order, one every 0.5 ms (R360). -/
def State.wakeDie (s : State) (d cycle : Nat) : State :=
  (range' 0 12).foldl (fun (s : State) c =>
    s.schedule (cycle + 400000 * c) (.dieWake (Fin.ofNat 8 d) (Fin.ofNat 12 c, Config.failsTest s.fresh (12 * d + c))))
    { s with fresh := s.fresh + 1 }

/-- Step 4 of start-up for the dies of partition p, 40 ms for each, unless it is under way (R346, R360). -/
def State.testPartition (s : State) (p : Nat) : State :=
  if s.agenda.any fun e => (match e.ev with | .dieWake d _ => s.partOf (12 * d.val) == p | _ => false) then s
  else (range' 0 (2 * s.mod.quarters)).foldl (fun (s : State) i => s.wakeDie (2 * p + i) (s.now + 32000000 * i)) s

/-- Whether a debug stop holds the partition. -/
def Seq.isDebug : Seq → Bool
  | .debug _ => true
  | _ => false

/-- Abandon: the job ends without completing; the other queues resume. After a machine check, whether the record is of it or it
came while another record stood, the partition runs its start-up test (R346). -/
def State.abandon (s : State) (p : Nat) : State :=
  let part := s.part p
  if part.frec.isNone && !part.seq.isDebug then s
  else
    let check := (part.frec.map (·.info.cls)) == some 4 || !s.tested p
    let s := (if check then s.untest p else s).onPart p fun x => { x with frec := none }
    let s := if part.seq == .stopped || part.seq.isDebug then s.dropJob p else s
    let s := (s.applyHeld p).completeJobs p
    (if check then s.testPartition p else s).releaseSystem.tryLaunch p

/-- A queue whose gated head record had stopped it runs again, and its gate is evaluated anew (R343). -/
def State.regate (s : State) (p n : Nat) : State :=
  let i := Fin.ofNat 64 n
  let s := s.onPart p fun x => { x with queues := x.queues.set i { x.queues[i] with
    qstate := if x.queues[i].enable then 1 else 0, err := 0, fidx := 0, gateHome := none, gateFrom := none } }
  s.schedule s.now (.launchGateEvaluation (Fin.ofNat 4 p) i)

/-- Retry: the slack window runs again from the step that faulted, with a fresh watchdog count. -/
def State.retry (s : State) (p : Nat) : State :=
  let part := s.part p
  match part.frec with
  | none => s
  | some r =>
    if r.info.cls ≠ 2 ∨ !s.tested p then s
    else if r.launch then (s.onPart p fun x => { x with frec := none }).regate p r.queue
    else if part.seq != .stopped then s
    else
      let s := if r.banked then s.restoreBanks p false else s
      let s := s.onPart p fun x => { x with frec := none, wd := 0, wdFrom := none, seq := .slack r.step }
      match r.step with
      | 4 => s.step4 p
      | 5 => s.step5 p false
      | 7 => s.step7 p 0
      | 8 => s.step8 p
      | _ => s.step9 p

/-- Replay: the phase is run again from its snapshot; it does not count towards R312's limit. -/
def State.replayPhase (s : State) (p : Nat) : State :=
  let part := s.part p
  match part.frec, part.job with
  | some r, some j =>
    if r.info.cls < 2 ∧ r.replayable ∧ r.info.code ≠ 0x3F ∧ part.seq == .stopped ∧ !r.launch ∧ s.tested p then
      ((s.onPart p fun x => { x with frec := none }).sedReplay p (j.replays + 1) 1).rerun p false 0
    else s
  | _, _ => s

def execAbandon (p : Fin 4) (s : State) : Result := .next (s.abandon p)
def execRetry (p : Fin 4) (s : State) : Result := .next (s.retry p)
def execReplay (p : Fin 4) (s : State) : Result := .next (s.replayPhase p)

/-! ### Machine checks and memory errors (R26, R346, R379, R380) -/

/-- A machine check of a unit (R346): an abort while a phase runs, else the partition stops; from now on only abandon is
permitted. -/
def State.machineCheck (s : State) (p unit : Nat) (core : Option Nat) : State :=
  let f : FaultInfo := ⟨0x3F, 4, core, none, unit, 0, []⟩
  (s.untest p).eventFault p (core.map (Fin.ofNat 96)) f

/-- The number of a unit in an ECC entry (R381). -/
def eccNo : EccUnit → Nat
  | .mrf => 0 | .ab => 1 | .wb => 2 | .sdm => 3 | .gm => 4 | .im => 5 | .hbm => 6 | .hub => 7 | .pool => 8 | .reg => 9

/-- The SRAM domain of a unit of a core (R379); none for HBM, hub SRAM and registers. -/
def domainOf (u : EccUnit) (core : Nat) : Option Nat :=
  match u with
  | .mrf => some (2 * (core / 12))
  | .hbm | .hub | .reg => none
  | _ => some (2 * (core / 12) + 1)

/-- The ECC entry of the sediment record (kind 0x05). -/
def State.sedEcc (s : State) (u : EccUnit) (core addr : Nat) (unc : Bool) : State :=
  let d := domainOf u core
  let off := match d with | some d => s.mod.uvOff[(Fin.ofNat 16 d)] | none => 0
  let (part, c) := match u with | .hbm | .hub => (0xFF, 0xFF) | _ => (s.partOf core, core)
  s.sediment 0x05 part c false ([BitVec.ofNat 8 (eccNo u), if unc then 1 else 0, BitVec.ofNat 8 (d.getD 0xFF), BitVec.ofNat 8 off,
    0, 0, 0, 0] ++ leBytes 8 addr)

/-- A voltage step of a domain, with its entry (kind 0x04). -/
def State.stepVoltage (s : State) (d new cause : Nat) : State :=
  let i := Fin.ofNat 16 d
  let old := s.mod.uvOff[i]
  ({ s with mod := { s.mod with uvOff := s.mod.uvOff.set i new } }).sediment 0x04 0xFF 0xFF false
    [BitVec.ofNat 8 d, BitVec.ofNat 8 old, BitVec.ofNat 8 new, BitVec.ofNat 8 cause]

/-- The registers of a core with one poisoned: an address below 0x100 is of an s register, 0x104 and 0x105 of p registers, in
the layout of R350; none where it is of a register without a mark. -/
def Core.poisonReg (co : Core) (addr : Nat) : Option Core :=
  if addr < 0x100 then some { co with regs := co.regs.setS (Fin.ofNat 32 (addr / 8)) none }
  else if addr = 0x104 ∨ addr = 0x105 then
    some { co with regs := (range' (8 * (addr - 0x104)) 8).foldl (fun (r : Regs) n =>
      r.setP (Fin.ofNat 16 n) { r.getP (Fin.ofNat 16 n) with mark := true }) co.regs }
  else none

/-- The data of an uncorrectable error are poisoned (R26, R380), or the error is a machine check (R346): its unit. -/
def State.poisonAt (s : State) (u : EccUnit) (core addr : Nat) : State × Option Nat :=
  let co := s.core core
  match u with
  | .mrf =>
    let m := if co.regs.ctl.detect then mapDel co.mrf addr else mapDel (mapDel co.mrf (addr / 2 * 2)) (addr / 2 * 2 + 1)
    (s.setCore core { co with mrf := m }, none)
  | .ab => (s.setCore core { co with ab := co.ab.mark true (addr / 64) true }, none)
  | .wb => (s.setCore core { co with wb := co.wb.mark true (addr / 72) true }, none)
  | .sdm => (s.setCore core { co with sdm := co.sdm.mark true (addr / 64) true }, none)
  | .gm =>
    if 0x18000 ≤ addr ∧ addr < 0x18810 then (s, some 5)
    else (s.setCore core { co with gm := { co.gm with marks := setAdd co.gm.marks (addr / 64) } }, none)
  | .hbm => ({ s with hbm := if addr < Config.hbmBytes then s.hbm.mark false (addr / 64) true else s.hbm }, none)
  | .im | .pool => (s, some 2)
  | .hub => (s, some 4)
  | .reg => (match co.poisonReg addr with
    | some c => (s.setCore core c, none)
    | none => (s, some 3))

/-- The partition whose valid save area holds a physical address (R346, R350). -/
def State.saveAreaOf (s : State) (pa : Nat) : Option Nat :=
  (range' 0 4).find? fun p =>
    let x := s.part p
    s.mod.partOf p == p && x.sval && decide (x.sbase ≤ pa) && decide (pa < x.sbase + 0x400000 * ((s.coresOf p).length + 1))

/-- UNCORRECTABLE_ERROR (R26, R346, R380): poison, the entry, the domain's offset to 0 and its margining disabled; and a
machine check where the storage has no poison mark. -/
def execUncorrectableError (u : EccUnit) (core : Fin 96) (addr : Nat) (s : State) : Result :=
  let (t, check) := s.poisonAt u core addr
  let t := t.sedEcc u core addr true
  let t := match domainOf u core with
    | some d =>
      if 0 < t.mod.uvOff[(Fin.ofNat 16 d)] then
        let t := t.stepVoltage d 0 2
        { t with mod := { t.mod with uvDis := t.mod.uvDis ||| BitVec.ofNat 16 (2 ^ d) } }
      else t
    | none => t
  .next (match check, (if u == .hbm then t.saveAreaOf addr else none) with
    | some n, _ => t.machineCheck (t.partOf core) n (some core.val)
    | none, some p => t.machineCheck p 4 none
    | none, none => t)

/-- CORRECTED_ERROR (R379, R381): the entry, and the domain's count. -/
def execCorrectedError (u : EccUnit) (core : Fin 96) (addr : Nat) (s : State) : Result :=
  let t := s.sedEcc u core addr false
  .next (match domainOf u core with
    | some d =>
      let i := Fin.ofNat 16 d
      { t with mod := { t.mod with uvErr := t.mod.uvErr.set i (t.mod.uvErr[i] + 1) } }
    | none => t)

/-- Whether a sequencer without progress is excused (R345): it waits at step 5 or 9, is idle or stopped, or holds a
pre-empted partition. -/
def Part.resting (x : Part) : Bool :=
  match x.seq with
  | .slack 5 | .slack 9 | .idle | .stopped | .debug _ => true
  | _ => x.held != 0

/-- HEARTBEAT_CHECK (R345): the firmware reads the counter every 1 ms; the second reading in a row that finds no progress raises
code 0x3F, unit 1. -/
def execHeartbeatCheck (p : Fin 4) (s : State) : Result :=
  let part := s.part p
  let stale := if part.lastProg = some part.progress && !part.resting then part.stale + 1 else 0
  let s := (s.setPart p { part with lastProg := some part.progress, stale := if stale = 2 then 0 else stale }).schedule
    (s.now + 800000) (.heartbeatCheck p)
  .next (if stale = 2 then s.machineCheck p 1 none else s)

/-! ### Pre-emption, invalidations, dumps (R344, R347, R348, R350, R353) -/

/-- A request for pre-emption (R347): ignored while a job is held. -/
def State.requestPreempt (s : State) (p : Nat) : State := s.onPart p fun x => { x with pend := x.pend || x.held == 0 }

def execPreemptRequest (p : Fin 4) (s : State) : Result := .next (s.requestPreempt p)

/-- PREEMPT_RESUME (R348): the buffers are refilled, the contexts restored from the bank or the save area, and steps 5 to 10
run with the selection saved. A context that cannot be read from the save area is a machine check (R346). -/
def execPreemptResume (p : Fin 4) (s : State) : Result :=
  let part := s.part p
  match part.heldJob, part.heldSel with
  | some j, some x =>
    if part.held = 0 ∨ part.job.map (·.id) ≠ some j.id then .next s
    else if part.held = 2 ∧ (place 0 (s.coresOf p)).any fun c => s.blockBad (part.sbase + 0x400000 * (c.1 + 1)) then
      .next (s.machineCheck p 4 none)
    else
      let s := s.refill p (j.live x)
      let s := if part.held = 1 then s.restoreBanks p false
        else (place 0 (s.coresOf p)).foldl (fun (s : State) c =>
          s.setCore c.2 ((s.core c.2).restore false (s.readContext (part.sbase + 0x400000 * (c.1 + 1))))) s
      let s := s.onPart p fun y => { y with held := 0, heldJob := none, heldSel := none, next := some x }
      .next ((s.sediment 0x08 p 0xFF false ([1, 0, 0, 0] ++ leBytes 4 j.ridx)).step5 p true)
  | _, _ => .next s

/-- An invalidation (R353): applied at once where no phase of the partition runs or is translated for; a phase that a debug stop
holds goes on with its translations. -/
def State.invalidate (s : State) (p : Nat) (va : Option Nat) : State :=
  let x := { s.part p with inval := (s.part p).inval ++ [va] }
  match x.seq with
  | .phase | .signing | .slack 8 | .debug true => s.setPart p x
  | _ => s.setPart p x.dropInval

def execInvalidateOne (p : Fin 4) (s : State) : Result := .next (s.invalidate p (some (s.part p).iva))
def execInvalidateAll (p : Fin 4) (s : State) : Result := .next (s.invalidate p none)
def execCcntClear (p : Fin 4) (s : State) : Result := .next (s.onPart p fun x => { x with ccnt := 0 })

/-- The state register (R326, R357, R369): after a retry or a replay it reads 2 until the next phase starts. -/
def Part.stateCode (x : Part) : Nat :=
  match x.seq with
  | .stopped => 2
  | .debug _ => 3
  | _ => if x.job.isNone then 0 else if x.failed then 2 else 1

/-- Where the sequencer stands, for the partition record of a dump. -/
def Part.position (x : Part) : Sel × Nat × W64 :=
  match x.job with
  | some j =>
    (x.next.getD ⟨j.phase, j.pidx, j.infl, j.z, j.q, false⟩, (x.frec.map (·.step)).getD 0, j.launch.tag)
  | none => (⟨0, 0, 0, 0, 0, false⟩, 0, 0)

/-- DUMP_START (R342, R344, R350): the bank's contexts, or the live ones, go to the dump area; nothing unless the partition is
idle or stopped by a fault. -/
def execDumpStart (p : Fin 4) (s : State) : Result :=
  let x := s.part p
  if x.dbusy || !(x.stateCode == 0 || x.stateCode == 2) then .next s
  else
    let (sel, step, tag) := x.position
    let live (c : Nat) : Option Ctx := let co := s.core c; some (co.context (x.k - 16 - stagger c - co.lag))
    let s := s.homeWrite .hub (.hbm x.dbase) ((partitionRecord sel step tag).map some)
    let s := s.writeContexts p x.dbase (if x.dsrc then live else fun c => (s.core c).bank) (s.endedGates p)
    .next ((s.onPart p fun y => { y with dbusy := true }).schedule
      (s.now + s.copyCycles p (x.dbase + 0x400000) 0x400000 (0x240000 / 64)) (.dumpComplete p))

def execDumpComplete (p : Fin 4) (s : State) : Result := .next (s.onPart p fun x => { x with dbusy := false })

end Sys2Proof.Machine
end

