-- ==== Sys2Proof/Machine/Digest.lean ====
section
/-! DEFINITION. The hash functions of FIPS 202 that measurement, identity and debug unlock use (R7, R362, R363, R365): the
permutation of the 1,600-bit state, the sponge, SHAKE128 and SHAKE256. -/

namespace Sys2Proof.Machine

/-- The 25 lanes of the state, lane (x, y) at x + 5 y. -/
abbrev Lanes := Vector W64 25

/-- The lane at column x and row y, both modulo 5. -/
def Lanes.at_ (a : Lanes) (x y : Nat) : W64 := a[(Fin.ofNat 25 (x % 5 + 5 * (y % 5)))]

/-- A state from its lanes. -/
def lanesOf (f : Nat → Nat → W64) : Lanes := Vector.ofFn fun i => f (i.val % 5) (i.val / 5)

/-- The parity of a column. -/
def Lanes.column (a : Lanes) (x : Nat) : W64 := a.at_ x 0 ^^^ a.at_ x 1 ^^^ a.at_ x 2 ^^^ a.at_ x 3 ^^^ a.at_ x 4

/-- The step theta. -/
def Lanes.theta (a : Lanes) : Lanes :=
  let p : Vector W64 5 := Vector.ofFn fun x => a.column x.val
  lanesOf fun x y => a.at_ x y ^^^ p[(Fin.ofNat 5 (x + 4))] ^^^ (p[(Fin.ofNat 5 (x + 1))]).rotateLeft 1

/-- The lanes other than (0, 0) in the order in which the step rho visits them: n of them from (x, y) on. -/
def rhoWalk : Nat → Nat → Nat → List Nat
  | 0, _, _ => []
  | n + 1, x, y => (x + 5 * y) :: rhoWalk n y ((2 * x + 3 * y) % 5)

/-- How far the step rho turns each lane: the triangular numbers along its walk. -/
def rhoOffsets : Vector Nat 25 :=
  (place 1 (rhoWalk 24 1 0)).foldl (fun (v : Vector Nat 25) l => v.set (Fin.ofNat 25 l.2) (l.1 * (l.1 + 1) / 2 % 64)) (Vector.replicate 25 0)

/-- The steps rho and pi. -/
def Lanes.rhoPi (a : Lanes) : Lanes :=
  lanesOf fun x y => (a.at_ (x + 3 * y) x).rotateLeft rhoOffsets[(Fin.ofNat 25 ((x + 3 * y) % 5 + 5 * (x % 5)))]

/-- The step chi. -/
def Lanes.chi (a : Lanes) : Lanes := lanesOf fun x y => a.at_ x y ^^^ (~~~(a.at_ (x + 1) y) &&& a.at_ (x + 2) y)

/-- A step of the shift register of the step iota, whose polynomial is x^8 + x^6 + x^5 + x^4 + 1. -/
def iotaStep (r : Nat) : Nat := if 128 ≤ r then (2 * r) % 256 ^^^ 0x71 else 2 * r

/-- The bits 2^j - 1 of a round's constant, for n values of j from j on: outputs of the shift register, whose last value goes with
them. -/
def iotaBits : Nat → Nat → Nat → Nat × Nat
  | 0, _, r => (0, r)
  | n + 1, j, r =>
    let (v, last) := iotaBits n (j + 1) (iotaStep r)
    (v + r % 2 * 2 ^ (2 ^ j - 1), last)

/-- n rounds from a lane state and a shift register on. -/
def Lanes.rounds : Nat → Nat → Lanes → Lanes
  | 0, _, a => a
  | n + 1, r, a =>
    let (v, next) := iotaBits 7 0 r
    let b := a.theta.rhoPi.chi
    Lanes.rounds n next (b.set 0 (b[0] ^^^ BitVec.ofNat 64 v))

/-- The permutation: 24 rounds. -/
def Lanes.permute (a : Lanes) : Lanes := a.rounds 24 1

/-- A block of bytes exclusive-ored into the state. -/
def Lanes.mix (a : Lanes) (block : List Byte) : Lanes :=
  Vector.ofFn fun i => a[i] ^^^ BitVec.ofNat 64 (leNat ((block.drop (8 * i.val)).take 8))

/-- A message with the suffix 1111 and the padding of the sponge, in bytes. -/
def shakePad (rate : Nat) (m : List Byte) : List Byte :=
  let n := rate - m.length % rate
  m ++ (if n = 1 then [0x9F] else 0x1F :: List.replicate (n - 2) 0 ++ [0x80])

/-- n blocks squeezed out. -/
def Lanes.squeeze (rate : Nat) : Nat → Lanes → List Byte
  | 0, _ => []
  | n + 1, a => (a.toList.flatMap fun l => leBytes 8 l.toNat).take rate ++ Lanes.squeeze rate n a.permute

/-- The sponge on a message, with n bytes of output. -/
def shake (rate : Nat) (m : List Byte) (n : Nat) : List Byte :=
  let padded := shakePad rate m
  let full := (chunks rate (padded.length / rate) padded).foldl (fun (a : Lanes) b => (a.mix b).permute) (Vector.replicate 25 0)
  (full.squeeze rate (n / rate + 1)).take n

/-- SHAKE128 (FIPS 202). -/
def shake128 (m : List Byte) (n : Nat) : List Byte := shake 168 m n

/-- SHAKE256 (FIPS 202). -/
def shake256 (m : List Byte) (n : Nat) : List Byte := shake 136 m n

end Sys2Proof.Machine
end

