-- ==== Sys2Proof/Machine/Sign.lean ====
section
/-! DEFINITION. ML-DSA-65 of FIPS 204, pure with an empty context string (R7): key generation from a seed, signing with a given
random string, and verification. Polynomials are lists of 256 integers. -/

namespace Sys2Proof.Machine

/-! ### Parameters -/

/-- The modulus. -/
def dsaQ : Int := 8380417

/-- The bounds of ML-DSA-65: rows and columns of its matrix, the ranges γ1 and γ2 and the bound β, hints and challenge weight. -/
def dsaK : Nat := 6
def dsaL : Nat := 5
def dsaGamma1 : Int := 524288
def dsaGamma2 : Int := 261888
def dsaBeta : Int := 196
def dsaOmega : Nat := 55
def dsaTau : Nat := 49

/-! ### Polynomials -/

/-- A polynomial: 256 coefficients, the lowest first. -/
abbrev Poly := List Int

/-- Sum, difference and product of corresponding coefficients, modulo q. -/
def Poly.add (a b : Poly) : Poly := List.zipWith (fun x y => (x + y) % dsaQ) a b
def Poly.sub (a b : Poly) : Poly := List.zipWith (fun x y => (x - y) % dsaQ) a b
def Poly.dot (a b : Poly) : Poly := List.zipWith (fun x y => x * y % dsaQ) a b

/-- The polynomial zero. -/
def Poly.zero : Poly := List.replicate 256 0

/-- x to the n, modulo q. -/
def powQ (x : Int) : Nat → Int
  | 0 => 1
  | n + 1 => powQ x n * x % dsaQ

/-- The powers of the 512th root of unity 1753. -/
def rootPowers : Nat → Int → List Int
  | 0, _ => []
  | n + 1, x => x :: rootPowers n (x * 1753 % dsaQ)

/-- The eight bits of a number reversed. -/
def rev8 (n : Nat) : Nat := (range' 0 8).foldl (fun r i => 2 * r + n / 2 ^ i % 2) 0

/-- The value of a polynomial at a point. -/
def Poly.eval (a : Poly) (x : Int) : Int := a.foldr (fun c r => (c + x * r) % dsaQ) 0

/-- The number-theoretic transform: the values at the odd powers of the root, in bit-reversed order. -/
def Poly.ntt (a : Poly) : Poly :=
  let ps := (rootPowers 512 1).toArray
  (range' 0 256).map fun i => a.eval (ps.getD (2 * rev8 i + 1) 0)

/-- Its inverse: 8347681 is the inverse of 256. -/
def Poly.unNtt (a : Poly) : Poly :=
  let ps := (rootPowers 512 1).toArray
  let at_ := (range' 0 256).zip a
  (range' 0 256).map fun j =>
    8347681 * (at_.foldl (fun s x => (s + x.2 * ps.getD ((512 - (2 * rev8 x.1 + 1) * j % 512) % 512) 0) % dsaQ) 0) % dsaQ

/-- x modulo m, in the interval above −m/2 up to m/2. -/
def centre (x m : Int) : Int := let r := x % m; if 2 * r > m then r - m else r

/-- The largest absolute value of a coefficient, taken around zero. -/
def Poly.norm (a : Poly) : Int := a.foldl (fun m c => max m ((centre c dsaQ).natAbs : Int)) 0

/-! ### Bits and packing -/

/-- Numbers of c bits each, from bytes. -/
def unpackBits (c n : Nat) (bs : List Byte) : List Nat :=
  let v := leNat bs
  (range' 0 n).map fun i => v / 2 ^ (c * i) % 2 ^ c

/-- Numbers of c bits each, as bytes; 256 of them take 32 c. -/
def packBits (c : Nat) (xs : List Nat) : List Byte :=
  leBytes (c * xs.length / 8) (xs.foldr (fun x r => x % 2 ^ c + 2 ^ c * r) 0)

/-- A polynomial of c bits a coefficient, each stored as b less its value. -/
def unpackFrom (c : Nat) (b : Int) (bs : List Byte) : Poly := (unpackBits c 256 bs).map fun (n : Nat) => b - (n : Int)
def packFrom (c : Nat) (b : Int) (a : Poly) : List Byte := packBits c (a.map fun x => (b - x).toNat)

/-! ### Sampling -/

/-- Uniform coefficients from triples of bytes, those of q and above skipped. -/
def triples : List Byte → List Int
  | a :: b :: c :: bs =>
    let z := a.toNat + 256 * b.toNat + 65536 * (c.toNat % 128)
    if (z : Int) < dsaQ then (z : Int) :: triples bs else triples bs
  | _ => []

/-- An entry of the matrix, already transformed. -/
def matrixEntry (rho : List Byte) (r s : Nat) : Poly :=
  (triples (shake128 (rho ++ [BitVec.ofNat 8 s, BitVec.ofNat 8 r]) 1344)).take 256

/-- The matrix, by rows. -/
def matrixOf (rho : List Byte) : List (List Poly) := (range' 0 dsaK).map fun r => (range' 0 dsaL).map fun s => matrixEntry rho r s

/-- A secret polynomial: half bytes below 9 give 4 to −4. -/
def smallPoly (seed : List Byte) (n : Nat) : Poly :=
  (((shake256 (seed ++ leBytes 2 n) 680).flatMap fun b => [b.toNat % 16, b.toNat / 16]).filterMap fun (h : Nat) =>
    if h < 9 then some (4 - (h : Int)) else none).take 256

/-- A mask polynomial. -/
def maskPoly (seed : List Byte) (n : Nat) : Poly := unpackFrom 20 dsaGamma1 (shake256 (seed ++ leBytes 2 n) 640)

/-- The places of a challenge from i on: the next byte not above i gives the place that is filled, with the next sign. -/
def challengeFrom : List Byte → Nat → Nat → Poly → Poly
  | [], _, _, c => c
  | b :: bs, i, signs, c =>
    if 256 ≤ i then c
    else if i < b.toNat then challengeFrom bs i signs c
    else challengeFrom bs (i + 1) (signs / 2) ((c.set i (c.getD b.toNat 0)).set b.toNat (if signs % 2 = 1 then -1 else 1))

/-- The challenge polynomial of weight τ. -/
def challengePoly (seed : List Byte) : Poly :=
  let bs := shake256 seed 680
  challengeFrom (bs.drop 8) (256 - dsaTau) (leNat (bs.take 8)) Poly.zero

/-! ### Rounding and hints -/

/-- The high part of a coefficient and its low part of 13 bits. -/
def power2Round (r : Int) : Int × Int := let r0 := centre (r % dsaQ) 8192; ((r % dsaQ - r0) / 8192, r0)

/-- The high part of a coefficient, and its low part around multiples of 2 γ2. -/
def decompose (r : Int) : Int × Int :=
  let r0 := centre (r % dsaQ) (2 * dsaGamma2)
  if r % dsaQ - r0 = dsaQ - 1 then (0, r0 - 1) else ((r % dsaQ - r0) / (2 * dsaGamma2), r0)

/-- The high part as a hint corrects it. -/
def useHint (h : Bool) (r : Int) : Int :=
  let (r1, r0) := decompose r
  if h then (if 0 < r0 then (r1 + 1) % 16 else (r1 - 1) % 16) else r1

/-- Whether adding z changes the high part of r. -/
def makeHint (z r : Int) : Bool := (decompose r).1 != (decompose (r + z)).1

/-- The high parts of a vector, encoded for the hash. -/
def encodeHigh (w : List Poly) : List Byte := w.flatMap fun a => packBits 4 (a.map Int.toNat)

/-- The places of the hints of each polynomial. -/
def hintPlaces (h : List (List Bool)) : List (List Nat) :=
  h.map fun a => (range' 0 256).filter fun i => a.getD i false

/-- Hints encoded: their places, and how many there are up to each polynomial. -/
def encodeHints (h : List (List Bool)) : List Byte :=
  let ps := hintPlaces h
  let all := ps.flatten
  (all.map (BitVec.ofNat 8)) ++ List.replicate (dsaOmega - all.length) 0
    ++ (range' 1 dsaK).map fun i => BitVec.ofNat 8 ((ps.take i).map List.length).sum

/-- Whether numbers rise strictly. -/
def hintsRise : List Nat → Bool
  | a :: b :: xs => decide (a < b) && hintsRise (b :: xs)
  | _ => true

/-- Hints decoded, or none where the encoding is not the one that signing makes. -/
def decodeHints (y : List Byte) : Option (List (List Bool)) :=
  let ends := (y.drop dsaOmega).map BitVec.toNat
  let starts := 0 :: ends
  let parts := (starts.zip ends).map fun x => ((y.take x.2).drop x.1).map BitVec.toNat
  if (starts.zip ends).all (fun x => decide (x.1 ≤ x.2 ∧ x.2 ≤ dsaOmega)) && parts.all hintsRise
      && ((y.take dsaOmega).drop (ends.getLastD 0)).all (· == 0) then
    some (parts.map fun ps => (range' 0 256).map fun i => ps.contains i)
  else none

/-! ### Keys, signatures, verification -/

/-- A key pair: the public key, and what signing needs. -/
structure DsaKey where
  pk : List Byte
  rho : List Byte
  key : List Byte
  s1 : List Poly
  s2 : List Poly
  t0 : List Poly
  deriving DecidableEq, Repr

/-- A matrix, transformed, times a transformed vector. -/
def matVec (a : List (List Poly)) (v : List Poly) : List Poly :=
  a.map fun row => ((row.zip v).map fun x => x.1.dot x.2).foldl Poly.add Poly.zero

/-- Key generation from a 32-byte seed. -/
def dsaKeygen (seed : List Byte) : DsaKey :=
  let h := shake256 (seed ++ [BitVec.ofNat 8 dsaK, BitVec.ofNat 8 dsaL]) 128
  let rho := h.take 32
  let s1 := (range' 0 dsaL).map (smallPoly (slice h 32 64))
  let s2 := (range' 0 dsaK).map fun r => smallPoly (slice h 32 64) (r + dsaL)
  let t := List.zipWith Poly.add ((matVec (matrixOf rho) (s1.map Poly.ntt)).map Poly.unNtt) s2
  ⟨rho ++ t.flatMap fun a => packBits 10 (a.map fun c => (power2Round c).1.toNat), rho, slice h 96 32, s1, s2,
    t.map fun a => a.map fun c => (power2Round c).2⟩

/-- What is signed of a message: the pure variant, an empty context, and the public key's digest. -/
def dsaMu (pk m : List Byte) : List Byte := shake256 (shake256 pk 64 ++ [0, 0] ++ m) 64

/-- A polynomial times each of a vector. -/
def scaleVec (c : Poly) (v : List Poly) : List Poly := v.map fun a => (c.ntt.dot a.ntt).unNtt

/-- The attempts of signing, each with the next masks; none where none of them is accepted. -/
def signLoop (k : DsaKey) (a : List (List Poly)) (mu seed : List Byte) : Nat → Nat → Option (List Byte)
  | 0, _ => none
  | n + 1, kappa =>
    let y := (range' 0 dsaL).map fun r => maskPoly seed (kappa + r)
    let w := (matVec a (y.map Poly.ntt)).map Poly.unNtt
    let ct := shake256 (mu ++ encodeHigh (w.map fun p => p.map fun r => (decompose r).1)) 48
    let c := challengePoly ct
    let z := List.zipWith Poly.add y (scaleVec c k.s1)
    let v := List.zipWith Poly.sub w (scaleVec c k.s2)
    let ct0 := scaleVec c k.t0
    let low := (v.map fun p => p.foldl (fun m r => max m ((decompose r).2.natAbs : Int)) 0).foldl max 0
    let h := List.zipWith (fun x t => List.zipWith (fun r e => makeHint (-e) (r + e)) x t) v ct0
    if (z.map Poly.norm).foldl max 0 < dsaGamma1 - dsaBeta ∧ low < dsaGamma2 - dsaBeta ∧ (ct0.map Poly.norm).foldl max 0 < dsaGamma2
        ∧ ((hintPlaces h).map List.length).sum ≤ dsaOmega then
      some (ct ++ z.flatMap (fun p => packFrom 20 dsaGamma1 (p.map fun x => centre x dsaQ)) ++ encodeHints h)
    else signLoop k a mu seed n (kappa + dsaL)

/-- A signature of a message with a random string of 32 bytes. -/
def dsaSign (k : DsaKey) (m rnd : List Byte) : List Byte :=
  let mu := dsaMu k.pk m
  (signLoop k (matrixOf k.rho) mu (shake256 (k.key ++ rnd ++ mu) 64) 814 0).getD []

/-- Verification of a signature under a public key. -/
def dsaVerify (pk m sig : List Byte) : Bool :=
  if pk.length ≠ 1952 ∨ sig.length ≠ 3309 then false
  else
    let ct := sig.take 48
    let z := (range' 0 dsaL).map fun i => unpackFrom 20 dsaGamma1 (slice sig (48 + 640 * i) 640)
    match decodeHints (sig.drop 3248) with
    | none => false
    | some h =>
      let t1 := (range' 0 dsaK).map fun i => (unpackBits 10 256 (slice pk (32 + 320 * i) 320)).map fun (n : Nat) => (n : Int) * 8192
      let c := (challengePoly ct).ntt
      let az := matVec (matrixOf (pk.take 32)) (z.map Poly.ntt)
      let w := List.zipWith (fun (x t : Poly) => (x.sub (c.dot t.ntt)).unNtt) az t1
      let high := List.zipWith (fun (x : Poly) hs => List.zipWith (fun r b => useHint b r) x hs) w h
      decide ((z.map Poly.norm).foldl max 0 < dsaGamma1 - dsaBeta) && ct == shake256 (dsaMu pk m ++ encodeHigh high) 48

end Sys2Proof.Machine
end

