-- ==== Sys2Proof/Machine/Startup.lean ====
section
/-! DEFINITION. Start-up (R360 to R362), attestation (R363), life-cycle states (R364), debug unlock (R365, R366), debug stops
(R369), boundary scan and the management messages that only a standard describes (R7). -/

namespace Sys2Proof.Machine

/-- A change of the module's registers. -/
def State.onMod (s : State) (f : Module → Module) : State := { s with mod := f s.mod }

/-- Milliseconds in cycles (R4). -/
def msec (n : Nat) : Nat := 800000 * n

/-- The module's own entry (kind 0x0D). -/
def State.sedModule (s : State) (event : Nat) (fatal : Bool) : State := s.sediment 0x0D 0xFF 0xFF fatal [BitVec.ofNat 8 event]

/-! ### Measurement and verification (R362) -/

/-- The bytes of an image that its signature covers. -/
def imageBody (b : List Byte) : List Byte := b.take (b.length - 3309)

/-- Whether a signature of a message verifies under Gratacel's firmware key or the debug authority's, whose digests are in fuses
(R362, R365). -/
def keyVerifies (firmware : Bool) (m sig : List Byte) : Bool :=
  shake256 (Config.publicKey firmware) 64 == Config.keyDigest firmware && dsaVerify (Config.publicKey firmware) m sig

/-- The fused minimum security version of a kind: 32 bits for each (assumption 5). -/
def minVersion (kind : Nat) : Nat := u Config.minVersions (4 * kind) 4

/-- Whether an image of a kind is accepted. -/
def imageGood (kind : Nat) (b : List Byte) : Bool :=
  decide (128 + 3309 ≤ b.length) && u b 0 4 == 0x47465731
    && keyVerifies true (imageBody b) (b.drop (b.length - 3309)) && decide (minVersion kind ≤ Config.imageVersion b)

/-- An extension of a measurement register. -/
def extendMr (mr bytes : List Byte) : List Byte := shake256 (mr ++ shake256 bytes 64) 64

/-- A register is extended. -/
def Module.measure (m : Module) (i : Fin 8) (bytes : List Byte) : Module := { m with mr := m.mr.set i (extendMr m.mr[i] bytes) }

/-- The flash copy of an image: a recovery wrote both (R362). -/
def Module.image (m : Module) (kind : Nat) (a : Bool) : List Byte := (mapGet m.rescued kind).getD (Config.firmware kind a)

/-- Whether one of the two copies of a kind is accepted. -/
def Module.loads (m : Module) (kind : Nat) : Bool := imageGood kind (m.image kind true) || imageGood kind (m.image kind false)

/-- A kind is measured: copy A, and copy B if A is rejected. -/
def Module.boot (m : Module) (kind : Nat) : Module :=
  let i := Fin.ofNat 8 kind
  let m' := m.measure i (imageBody (m.image kind true))
  if imageGood kind (m.image kind true) then m' else m'.measure i (imageBody (m.image kind false))

/-- Byte 0 of what MR4 is extended with (R362, R364). -/
def lifeNo : LifeCycle → Nat
  | .manufacture => 0 | .provisioned => 1 | .field => 2 | .returned => 3

/-- The 64 bytes that MR4 is extended with. -/
def Module.lifeBytes (m : Module) : List Byte :=
  BitVec.ofNat 8 (lifeNo m.life) :: List.replicate 7 0 ++ (padTo 16 Config.minVersions).take 16 ++ List.replicate 40 0

/-! ### Start-up (R360) -/

/-- Whether an event of the agenda is one the module itself has made due. -/
def isOwn : Instr → Bool
  | .untimetabledWritePerformed .. | .acknowledgement .. | .putCompletion .. | .xsigTranslation .. | .writeNotification ..
  | .lastSignOff .. | .gateEvaluation .. | .phaseStart .. | .refreshSlot .. | .gateWatchdogExpiry .. | .sequencerProgress ..
  | .heartbeatCheck .. | .faultCapture .. | .dieWake .. | .debugStop .. | .landingBufferArrival .. | .recordFetch ..
  | .launchGateEvaluation .. | .launchStart .. | .jobCompletion .. | .completionSignalPerformed .. | .preemptResume ..
  | .dumpComplete .. | .startupDone | .undervoltStep | .firmwareHeartbeat | .heartbeatLoss => true
  | _ => false

/-- Steps 1 and 2: everything but the records and fuses is as after power good; the firmware is measured and verified, and
where a kind has no accepted copy the module enters recovery. The steps that follow become due at their latest times. -/
def State.startUp (s : State) (keep : Module) : State :=
  let m := { keep with life := s.mod.life, rescued := s.mod.rescued, jtag := .idcode, nonce := Config.random s.fresh }
  let m := (List.range 4).foldl Module.boot m
  let m := m.measure 4 m.lifeBytes
  let good := (List.range 4).all m.loads
  let t : State := { State.reset with
    mod := { m with stage := 2, recovery := !good }
    hbm := s.hbm, host := s.host, peer := s.peer, now := s.now, pgood := s.pgood
    agenda := s.agenda.filter (fun e => !isOwn e.ev), evSeq := s.evSeq, outputs := s.outputs, fresh := s.fresh + 1 }
  if good then
    let t := (List.range 8).foldl (fun (t : State) d =>
      t.wakeDie d (t.now + msec (90 + 40 * d))) t
    t.schedule (t.now + msec 420) .startupDone
  else t

/-- What outlives a restart of the module: the sediment record, its copies, and a copy under way (R381 to R383). -/
def Module.restarted (m : Module) : Module :=
  { Module.reset with
    sed := m.sed, sedHead := m.sedHead, flash := m.flash, flashed := m.flashed, flashBusy := m.flashBusy
    flashSnap := m.flashSnap, flashWait := m.flashWait }

/-- A restart at step 1. -/
def State.restart (s : State) : State := s.startUp s.mod.restarted

/-- POWER_GOOD (R360, R381): the record of the sediment begins anew, and start-up with it. -/
def execPowerGood (s : State) : Result :=
  let s := { s with pgood := s.now }
  .next ((s.startUp { Module.reset with flash := s.mod.flash, flashed := s.mod.flashed }).sedModule 0 false)

/-- The quarters whose 24 cores all passed their tests (R3). -/
def Module.goodQuarters (m : Module) : Vector Bool 4 :=
  Vector.ofFn fun q => (range' (24 * q.val) 24).all fun c => !(m.fenced[(Fin.ofNat 96 c)])

/-- A core that leaves reset for its start-up test: what the hub and the subsoil bank hold of it stays. -/
def Core.afterTest (co : Core) : Core :=
  { Core.reset with
    outb := co.outb, fences := co.fences, profile := co.profile, exits := co.exits, stamps := co.stamps, stampOver := co.stampOver
    bank := co.bank, wbSpill := co.wbSpill }

/-- DIE_WAKE (R360): a core of a die that has power leaves reset, and is fenced off if it fails its test (`test` names the core
and says whether it fails); before the first of a
start-up every byte of HBM is zero. The last core of a quarter ends its
test (R346). -/
def execDieWake (die : Fin 8) (test : Fin 12 × Bool) (s : State) : Result :=
  let s := if s.mod.stage < 3 then (s.onMod fun m => { m with stage := 3 }) else s
  let c := 12 * die.val + test.1.val
  let s := if s.mod.stage = 3 ∧ c = 0 then { s with hbm := Mem.empty } else s
  let s := (s.setCore c (s.core c).afterTest).onMod fun m => { m with
    powered := m.powered.set die true, fenced := m.fenced.set (Fin.ofNat 96 c) test.2 }
  let s := if s.mod.stage = 3 ∧ c = 95 then s.onMod fun m => { m with stage := 4 } else s
  let p := s.partOf c
  let s := if c % 24 = 23 then
      (s.onPart (quarterOf c) fun x => { x with tested := true }).onMod fun m =>
        if m.stage = 5 then { m with qavail := m.goodQuarters } else m
    else s
  .next (s.tryLaunch p)

/-- STARTUP_DONE (R360): quarters are reported, the host port answers, and the firmware's periodic work begins. -/
def execStartupDone (s : State) : Result :=
  let s := (s.onMod fun m => { m with stage := 5, qavail := m.goodQuarters, hbAt := s.now }).sedModule 1 false
  let s := (List.range 4).foldl (fun (s : State) p => s.schedule (s.now + msec 1) (.heartbeatCheck (Fin.ofNat 4 p))) s
  .next (((s.schedule (s.now + msec 1) .firmwareHeartbeat).schedule (s.now + msec 100) .heartbeatLoss).schedule
    (s.now + msec 10000) .undervoltStep)

/-- The recovery image that was written, as long as its header says, at most 2 MiB (R362). -/
def Module.candidate (m : Module) : List Byte :=
  let bytes (n : Nat) := (range' 0 n).map fun i => (mapGet m.recImage i).getD 0
  bytes (min 0x200000 (Config.imageLength (bytes 128)))

/-- REC_GO (R362): in recovery the candidate is measured and verified as an image of the first kind without an accepted copy;
accepted, it is written to both flash copies and the module restarts. -/
def execRecGo (s : State) : Result :=
  if !s.mod.recovery then .next s
  else
    let kind := ((List.range 4).find? fun k => !s.mod.loads k).getD 0
    let b := s.mod.candidate
    let s := s.onMod fun m => m.measure (Fin.ofNat 8 kind) (imageBody b)
    if imageGood kind b then .next ((s.onMod fun m => { m with rescued := mapSet m.rescued kind b }).restart) else .next s

/-- The configuration space (R7, R323): 1 PF and 4 VFs, MSI-X, no ATS and no PASID; in recovery the PF alone, with BAR0 (R362). -/
def Module.portCaps (m : Module) : PortCaps :=
  { vfs := if m.recovery then 0 else 4, vectors := 16, table := 0x20000, pba := 0x30000
    pfBars := [0x800000, if m.recovery then 0 else 0x1000000000, if m.recovery then 0 else 0x40000000]
    vfBars := if m.recovery then [] else [0x100000, 0x1000000000, 0x10000000], ats := false, pasid := false }

/-- PCIE_CONFIG_REQUEST (R7, R360): Request Retry Status until step 5, or recovery; then a completion from the configuration space,
which says of the module what the spec says of it (assumption 6). -/
def execPcieConfigRequest (s : State) : Result :=
  .next (s.emit (if s.mod.stage < 5 && !s.mod.recovery then .requestRetry else .configDone s.mod.portCaps))

/-! ### Attestation (R7, R363, R364) -/

/-- A reply whose content only the standard fixes. -/
def State.standard (s : State) : State × List Byte := ({ s with fresh := s.fresh + 1 }, Config.standardReply s.fresh)

/-- Whether the life-cycle state lets the SPDM responder answer. -/
def Module.spdmAnswers (m : Module) : Bool := m.life == .provisioned || m.life == .field

/-- The device identity key (R363); there is none before UDS is written, and none in RETURNED, where it reads all ones (R364). -/
def Module.identity (m : Module) : Option DsaKey :=
  if m.spdmAnswers then
    some (dsaKeygen (shake256 (Config.uds ++ [70, 65, 56, 32, 105, 100, 101, 110, 116, 105, 116, 121]) 32))
  else none

/-- A reply to an SPDM request, and what the module keeps of both for the transcript: ERROR with UnsupportedRequest where the
life-cycle state forbids it. -/
def State.spdm (s : State) (req resp : Nat) (reply : List Byte → List Byte) (keep : List Byte → Module → Module) : Result :=
  if s.mod.spdmAnswers then
    let (t, r) := s.standard
    .next ((t.onMod (keep (reply r))).emit (.spdm resp (reply r)))
  else .next (s.emit (.spdmUnsupported req))

/-- GET_VERSION: one version, 1.3 (R7); the transcripts begin anew. -/
def execGetVersion (s : State) : Result :=
  s.spdm 0x84 0x04 (fun _ => [0x10, 0x04, 0, 0, 0, 1, 0x00, 0x13]) fun a m =>
    { m with spdmVca := [0x10, 0x84, 0, 0] ++ a, spdmCerts := [], spdmMeas := [] }

/-- CAPABILITIES (R7; assumption 108): certificates, challenges and signed measurements; no key exchange, no sessions, nothing else.
The timing exponent and the sizes are the standard's. -/
def capabilitiesReply (r : List Byte) : List Byte :=
  [0x13, 0x61, 0, 0, 0] ++ (padTo 1 r).take 1 ++ [0, 0] ++ leBytes 4 0x16 ++ (padTo 8 (r.drop 1)).take 8

def execGetCapabilities (s : State) : Result :=
  s.spdm 0xE1 0x61 capabilitiesReply fun a m => { m with spdmVca := m.spdmVca ++ Config.spdmRequest s.fresh ++ a }

/-- ALGORITHMS: measurements in the DMTF format as raw bit streams, and one extended algorithm each for signatures and hashes, with
the identifiers that a registry gives them (R7, R363; assumption 108). -/
def algorithmsReply (r : List Byte) : List Byte :=
  [0x13, 0x63, 0, 0, 44, 0, 1, 0, 1] ++ List.replicate 23 0 ++ [1, 1, 0, 0] ++ (padTo 8 r).take 8

def execNegotiateAlgorithms (s : State) : Result :=
  s.spdm 0xE3 0x63 algorithmsReply fun a m => { m with spdmVca := m.spdmVca ++ Config.spdmRequest s.fresh ++ a }

/-- DIGESTS (R7, R363; assumption 108): slot 0 alone is there, with the digest of its chain. -/
def digestsReply : List Byte := [0x13, 0x01, 1, 1] ++ shake256 Config.certificate 64

def execGetDigests (s : State) : Result :=
  s.spdm 0x81 0x01 (fun _ => digestsReply) fun a m => { m with spdmCerts := m.spdmCerts ++ [0x13, 0x81, 0, 0] ++ a }

/-- Whether a GET_CERTIFICATE asks for a part of what is there: slot 0, from an offset in its chain. -/
def certificateThere (req : List Byte) : Bool := u req 2 1 % 16 == 0 && decide (u req 4 2 < Config.certificate.length)

/-- CERTIFICATE: the part of the chain that is asked for, its length and what remains; else the error of an invalid request
(R7, R363; assumption 108). -/
def certificateReply (req : List Byte) : List Byte :=
  let rest := Config.certificate.drop (u req 4 2)
  let part := rest.take (u req 6 2)
  if certificateThere req then [0x13, 0x02, 0, 0] ++ leBytes 2 part.length ++ leBytes 2 (rest.length - part.length) ++ part
  else [0x13, 0x7F, 0x01, 0x00]

/-- GET_CERTIFICATE: Gratacel's certificate for the identity key. -/
def execGetCertificate (req : List Byte) (s : State) : Result :=
  s.spdm 0x82 (if certificateThere req then 0x02 else 0x7F) (fun _ => certificateReply req) fun a m =>
    { m with spdmCerts := m.spdmCerts ++ req ++ a }

/-- What SPDM 1.3 signs of a transcript (R7, R363; assumption 108): its version prefix four times, the context of the message padded to 36
bytes, and the digest of the transcript. -/
def spdmSigned (challenge : Bool) (transcript : List Byte) : List Byte :=
  let prefix_ : List Byte := [100, 109, 116, 102, 45, 115, 112, 100, 109, 45, 118, 49, 46, 51, 46, 42]
  let signing : List Byte := [32, 115, 105, 103, 110, 105, 110, 103]
  let context : List Byte := [114, 101, 115, 112, 111, 110, 100, 101, 114, 45] ++
    (if challenge then [99, 104, 97, 108, 108, 101, 110, 103, 101, 95, 97, 117, 116, 104]
    else [109, 101, 97, 115, 117, 114, 101, 109, 101, 110, 116, 115]) ++ signing
  (List.replicate 4 prefix_).flatten ++ List.replicate (36 - context.length) 0 ++ context ++ shake256 transcript 64

/-- The signature that the identity key makes over a transcript, with a random string (R363). -/
def State.spdmSignature (s : State) (challenge : Bool) (transcript : List Byte) : List Byte :=
  match s.mod.identity with
  | some k => dsaSign k (spdmSigned challenge transcript) (leBytes 32 (Config.random s.fresh).toNat)
  | none => []

/-- CHALLENGE: signed with the identity key over the transcript of versions, certificates and this exchange. -/
def execChallenge (req : List Byte) (s : State) : Result :=
  s.spdm 0x83 0x03 (fun r => r ++ s.spdmSignature true (s.mod.spdmVca ++ s.mod.spdmCerts ++ req ++ r))
    fun _ m => { m with spdmCerts := [], spdmMeas := [] }

/-- A measurement block: index, specification 1, size, a raw bit stream of 64 bytes (R363). -/
def Module.block (m : Module) (i : Fin 8) : List Byte := [BitVec.ofNat 8 (i.val + 1), 1] ++ leBytes 2 67 ++ [0x81] ++ leBytes 2 64 ++ m.mr[i]

/-- The blocks that GET_MEASUREMENTS asks for: MR_i at index i + 1, all of them at 0xFF; at 0 only their number. -/
def Module.blocks (m : Module) (index : Nat) : List (List Byte) :=
  if index = 0xFF then (List.finRange 8).map m.block
  else if 1 ≤ index ∧ index ≤ 8 then [m.block (Fin.ofNat 8 (index - 1))] else []

/-- MEASUREMENTS without its signature: the number of measurements, the blocks, and what the standard adds. -/
def Module.measurements (m : Module) (index : Nat) (r : List Byte) : List Byte :=
  let bs := m.blocks index
  [0x13, 0x60, if index = 0 then 8 else 0, 0, BitVec.ofNat 8 bs.length] ++ leBytes 3 bs.flatten.length ++ bs.flatten ++ r

/-- The request of GET_MEASUREMENTS: the index in byte 3, bit 0 of byte 2 where a signature is asked for, then what goes with it. -/
def measurementsRequest (index : Nat) (sign : Option (List Byte)) : List Byte :=
  [0x13, 0xE0, if sign.isSome then 1 else 0, BitVec.ofNat 8 index] ++ sign.getD []

/-- GET_MEASUREMENTS of an index; with the nonce and slot of `sign`, signed over the transcript of measurements. An index that is not
measured is an invalid request. -/
def execGetMeasurements (index : Nat) (sign : Option (List Byte)) (s : State) : Result :=
  let req := measurementsRequest index sign
  let signed := sign.isSome
  if 9 ≤ index ∧ index < 0xFF then s.spdm 0xE0 0x7F (fun _ => [0x13, 0x7F, 0x01, 0x00]) fun _ m => m
  else s.spdm 0xE0 0x60
    (fun r =>
      let b := s.mod.measurements index r
      if signed then b ++ s.spdmSignature false (s.mod.spdmVca ++ s.mod.spdmMeas ++ req ++ b) else b)
    fun a m => { m with spdmMeas := if signed then [] else m.spdmMeas ++ req ++ a }

def execSpdmUnsupportedRequest (code : Nat) (s : State) : Result := .next (s.emit (.spdmUnsupported code))

/-- Features of firmware-core debug that are open (R364): in FIELD a token opens them in start-up, test or recovery only. -/
def State.fwFeatures (s : State) : BitVec 4 :=
  match s.mod.life with
  | .manufacture | .returned => 15
  | .provisioned => s.mod.openFw
  | .field => if s.mod.stage < 5 || s.mod.recovery || s.parts.toList.any (fun x => !x.tested) then s.mod.openFw else 0

/-- What the firmware appends to its trace sink, a ring of 64 KiB, where trace records are open (R366). -/
def State.trace (s : State) : State :=
  if s.fwFeatures.getLsbD 2 then
    { s with fresh := s.fresh + 1 }.onMod fun m =>
      let t := m.sink ++ Config.firmwareTrace s.fresh
      { m with sink := t.drop (t.length - 65536) }
  else s

/-- The endpoint ID that a Set Endpoint ID leaves; none where the message asks for one that is reserved, or for what the endpoint does not
do (R7; assumption 136). -/
def Module.newEid (m : Module) (data : List Byte) : Option Byte :=
  let eid := u data 1 1
  match u data 0 1 % 4 with
  | 0 | 1 => if 8 ≤ eid ∧ eid < 255 then some (BitVec.ofNat 8 eid) else none
  | 2 => some m.eid
  | _ => none

/-- The reply to a control message: completion code and what follows, from the base specification of MCTP, for one endpoint that carries
SPDM and PLDM (R7; assumption 136). `r` is what only the standard fixes. -/
def Module.mctpReply (m : Module) (cmd : Nat) (data r : List Byte) : List Byte :=
  match cmd with
  | 1 => if data.length ≠ 2 then [3] else (match m.newEid data with
    | some e => [0, 0, e, 0]
    | none => [2])
  | 2 => [0, m.eid, 0, 0]
  | 4 => if data.length ≠ 1 then [3]
    else if [0xFF, 0, 1, 5].contains (u data 0 1) then [0, 1] ++ (padTo 4 r).take 4 else [0x80]
  | 5 => [0, 2, 1, 5]
  | _ => [5]

/-- MCTP_CONTROL_MESSAGE (R7): the endpoint ID, the versions and message types supported, else that the command is not supported; one
message reads the trace sink (R366). -/
def execMctpControlMessage (req : List Byte) (s : State) : Result :=
  let cmd := u req 0 1
  if cmd = Config.sinkCommand ∧ s.fwFeatures.getLsbD 2 = true then .next (s.emit (.traceSink s.mod.sink))
  else
    let (t, r) := s.standard
    let t := if cmd = 1 ∧ req.length = 3 then t.onMod fun m => { m with eid := (m.newEid req.tail).getD m.eid } else t
    .next (t.emit (.mctp cmd (s.mod.mctpReply cmd req.tail r)))

/-! ### Debug unlock and boundary scan (R364 to R366) -/

/-- The first check that a token fails, 0 for none (R365, R367). -/
def Module.tokenCheck (m : Module) (b : List Byte) : Nat :=
  if u b 0 4 ≠ 0x444B5431 ∨ u b 4 2 ≠ 1 then 1
  else if u b 7 1 ≠ 0 ∨ 16 ≤ u b 8 8 ∨ u b 112 16 ≠ 0 ∨ 2 ≤ u b 6 1 then 2
  else if some (slice b 16 64) ≠ m.identity.map fun k => shake256 k.pk 64 then 3
  else if u b 80 32 ≠ m.nonce.toNat then 4
  else if !(keyVerifies false (b.take 128) (b.drop 128)) then 5
  else 0

/-- DBG_GO (R366): the token at a host bus address; accepted, its features open and MR5 is extended; the nonce is fresh
either way. -/
def execDbgGo (s : State) : Result :=
  let a := s.mod.dbgTok.toNat
  let t := { s with fresh := s.fresh + 1 }.onMod fun m => { m with nonce := Config.random s.fresh }
  if a % 8 ≠ 0 ∨ Config.hostCompletes s.now a = false then .next (t.onMod fun m => { m with dbgRes := 6 })
  else
    let b := (s.homeRead (.host a) 3437).map fun x => x.getD 0
    let r := s.mod.tokenCheck b
    if r ≠ 0 then .next (t.onMod fun m => { m with dbgRes := BitVec.ofNat 8 r })
    else
      let f := BitVec.ofNat 4 (u b 8 1)
      .next (t.onMod fun m =>
        let m := { m with dbgRes := 0 }.measure 5 b
        if u b 6 1 = 0 then { m with openPart := m.openPart ||| f } else { m with openFw := m.openFw ||| f })

/-- Whether the full set of IEEE 1149.1 answers (R364, R366). -/
def Module.scanOpen (m : Module) : Bool := m.life != .field || (m.openPart ||| m.openFw).getLsbD 3

/-- An instruction of boundary scan: the bypass register where the set is not open. -/
def State.scan (s : State) (j : Jtag) : Result := .next (s.onMod fun m => { m with jtag := if m.scanOpen then j else .bypass })

def execBypass (s : State) : Result := .next (s.onMod fun m => { m with jtag := .bypass })
def execIdcode (s : State) : Result := .next (s.onMod fun m => { m with jtag := .idcode })
def execSample (s : State) : Result := s.scan .sample
def execPreload (s : State) : Result := s.scan .preload
def execExtest (s : State) : Result := s.scan .extest
def execClamp (s : State) : Result := s.scan .clamp
def execHighz (s : State) : Result := s.scan .highz

/-- LIFE_CYCLE_FUSE (R364): to the next state of the table only, and to RETURNED under a token. -/
def execLifeCycleFuse (state : LifeCycle) (token : Bool) (s : State) : Result :=
  .next (if lifeNo state = lifeNo s.mod.life + 1 ∧ (state ≠ .returned ∨ token = true) then s.onMod fun m => { m with life := state } else s)

/-! ### Debug stops (R369, R370) -/

/-- A granule as an entry of the journal gives it, but for the bytes that atomics have written (R369). -/
def State.undoEntry (s : State) (at_ : Nat) (j : JEntry) : State :=
  let ws := (place (64 * j.granule) (s.homeRead (.hbm at_) 64)).map fun w =>
    if j.kept.contains w.1 then (w.1, some (s.hbm.byte w.1)) else w
  let m := (s.hbm.mark false j.granule false).store false 64 ws
  { s with hbm := if j.poisoned then m.mark false j.granule true else m }

/-- The granules that the phase wrote are restored from the journal in HBM, in reverse order of writing. -/
def State.undoJournal (s : State) (p : Nat) : State :=
  let x := s.part p
  (place 0 x.journal.reverse).reverse.foldl (fun (s : State) e => s.undoEntry (x.journalAt e.1) e.2) s

/-- Whether an untimetabled operation of partition p's cores is not yet performed, or a write of theirs is still deferred: until then
not every issued word is complete (R342, R369). -/
def State.outstanding (s : State) (p : Nat) : Bool :=
  (s.coresOf p).any (fun c => (s.core c).outb.any fun o => !o.done)
    || s.parts.toList.any fun x => (x.deferred ++ x.waiting).any fun w => w.issued.any fun i => s.partOf i.core.val == p

/-- DEBUG_STOP (R369): once every issued word is complete, the stop is precise by going back to the phase start and
executing again up to Tp, or it is imprecise. A shutdown freezes the partition in the same way (R378). -/
def execDebugStop (p : Fin 4) (s : State) : Result :=
  let part := s.part p
  match part.abort with
  | none => .next s
  | some a =>
    if !a.debug then .next s
    else if s.outstanding p then .next (s.schedule (s.now + 1) (.debugStop p))
    else
      let s := s.onCores p fun _ co => co.afterDrain
      if (part.dmodeOn == 1 || part.dmodeOn == 2) && !s.sysPhase p && !part.jfull && !s.mod.tripped then
        let n := part.journal.length
        let s := (s.undoJournal p).onPart p fun x => { x with abort := none, more := 0, reexec := some a.k }
        let runs := (part.job.map (·.replays)).getD 0 + 1
        .next ((s.sedReplay p runs 2).rerun p true (8 * n))
      else .next (((s.cancelSequencer p).onPart p fun x => { x with abort := none, more := 0, seq := .debug false }).releaseSystem)

/-- DSTOP (R369): a stop at the next tick; asked for in the slack window, at the first tick of the phase that follows. -/
def execDstop (p : Fin 4) (s : State) : Result :=
  let part := s.part p
  if !part.dbgOn.getLsbD 0 then .next s
  else match part.seq, part.abort with
    | .phase, none =>
      .next ((s.setPart p { part with abort := some (part.abortAt (s.eventTick p) s.now noFault true), skipBrk := none }).tellGroup p)
    | .slack _, _ | .signing, _ => .next (s.setPart p { part with dstopReq := true })
    | _, _ => .next s

/-- DCONT (R369): a precisely stopped partition goes on; one stopped at a sign-off by a divergence goes on with it (R371). -/
def execDcont (p : Fin 4) (s : State) : Result :=
  let part := s.part p
  match part.seq with
  | .debug true =>
    if (s.coresOf p).all fun c => (s.core c).signed then
      .next ((s.setPart p { part with seq := .signing, base := s.now + 1 }).schedule s.now (.lastSignOff p))
    else
      .next ((s.setPart p { part with seq := .phase, base := s.now + 1 }).schedule (s.now + 4096) (.sequencerProgress p))
  | _ => .next s

end Sys2Proof.Machine
end

