-- ==== Sys2Proof/Machine/Fleet.lean ====
section
/-! DEFINITION. The fleet operator's side: power and cadence (R373, R374), thermal sensing (R375 to R378), undervolting
(R379), the sediment record and telemetry (R372, R381, R382), heartbeats (R383), PLDM (R384), link events (R381). -/

namespace Sys2Proof.Machine

/-! ### Power (R373, R374) -/

/-- The power limit in force (R372). -/
def Module.limit (m : Module) : Nat := max 800 (min 2200 m.pwrLim.toNat)

/-- The power entry (kind 0x0B). -/
def State.sedPower (s : State) (watts event us : Nat) : State :=
  s.sediment 0x0B 0xFF 0xFF false (leBytes 2 watts ++ leBytes 2 s.mod.pwrLim.toNat ++ [BitVec.ofNat 8 s.mod.cpow, BitVec.ofNat 8 event, 0, 0]
    ++ leBytes 4 us)

/-- The time above the limit ends: more than the 1 ms of the peak allowance is recorded (R374). -/
def State.overEnds (s : State) (watts : Nat) : State :=
  match s.mod.overFrom with
  | some c =>
    let s := s.onMod fun m => { m with overFrom := none }
    if msec 1 < s.now - c then s.sedPower watts 2 ((s.now - c) / 800) else s
  | none => s

/-- The power of the last 1 ms: the mean of its samples, and whether it is at or below 0.9 of the limit (R373; assumption 114). -/
def Module.average (m : Module) : Nat := m.samples.sum / (1000 * max 1 m.samples.length)

def Module.lowPower (m : Module) : Bool := decide (10 * m.samples.sum ≤ 9000 * m.limit * m.samples.length)

/-- A sample of the last 100 µs, in thousandths of a watt; ten of them are the last 1 ms. -/
def State.sample (s : State) (mw : Nat) : State :=
  s.onMod fun m =>
    let m := { m with samples := (mw :: m.samples).take 10 }
    { m with p100 := BitVec.ofNat 16 (mw / 1000), p1ms := BitVec.ofNat 16 m.average }

/-- POWER_SAMPLE (R373): c_pow rises on a sample above the limit, at most once in 1 ms, and falls when the average has been at
or below 0.9 of the limit for 10 ms since its last change. -/
def execPowerSample (watts : Nat) (milli : Fin 1000) (s : State) : Result :=
  let mw := 1000 * watts + milli.val
  let s := s.sample mw
  let m := s.mod
  let s := if 1000 * m.limit < mw then s.onMod fun m => { m with overFrom := some (m.overFrom.getD s.now) } else s.overEnds watts
  let low := if m.lowPower then some (m.lowFrom.getD s.now) else none
  let s := s.onMod fun m => { m with lowFrom := low }
  let rested := match m.riseAt with | some c => decide (c + msec 1 ≤ s.now) | none => true
  let quiet := match low with
    | some c => decide (max c (m.cpowAt.getD 0) + msec 10 ≤ s.now)
    | none => false
  if 1000 * m.limit < mw ∧ m.cpow < 4 ∧ rested = true then
    .next ((s.onMod fun m => { m with cpow := m.cpow + 1, cpowAt := some s.now, riseAt := some s.now }).sedPower watts 0 0)
  else if 1 < m.cpow ∧ quiet = true then
    .next ((s.onMod fun m => { m with cpow := m.cpow - 1, cpowAt := some s.now }).sedPower watts 1 0)
  else .next s

/-! ### Thermal sensing (R375 to R378) -/

/-- The fields of a threshold register: warn, throttle, trip, hysteresis (R372). -/
def thrFields (w : W64) : Nat × Nat × Nat × Nat := (fld w.toNat 7 0, fld w.toNat 15 8, fld w.toNat 23 16, fld w.toNat 31 28)

/-- A threshold after a reading (R375). -/
def crossed (was : Bool) (t thr hyst : Nat) : Bool := if thr ≤ t then true else if t + hyst ≤ thr then false else was

/-- The diodes: PLDM sensor, core or 0xFF, partition. -/
structure Diode where
  sensor : Nat
  core : Nat
  part : Nat
  deriving DecidableEq, Repr

/-- A threshold crossing: its entry (kind 0x03) and its PLDM event (R375, R384). -/
def State.sedThermal (s : State) (d : Diode) (t event : Nat) : State :=
  (s.sediment 0x03 d.part d.core (event == 4) (leBytes 2 d.sensor ++ [BitVec.ofNat 8 t, BitVec.ofNat 8 event,
    BitVec.ofNat 8 (s.part d.part).ctherm, if s.mod.tsrc then 1 else 0])).onMod fun m => { m with pldmEvents := m.pldmEvents ++ [(d.sensor, event)] }

/-- The crossings of one diode are reported; a throttle threshold that clears is remembered (R377). -/
def State.reportDiode (s : State) (d : Diode) (t : Nat) (was is_ : Bool × Bool × Bool) : State :=
  let s := if was.1 = is_.1 then s else s.sedThermal d t (if is_.1 then 0 else 1)
  let s := if was.2.1 = is_.2.1 then s else s.sedThermal d t (if is_.2.1 then 2 else 3)
  let s := if was.2.1 && !is_.2.1 then s.onPart d.part fun x => { x with throtClear := s.now } else s
  if is_.2.2 && !was.2.2 then s.sedThermal d t 4 else s

/-- The thresholds of a diode after a reading. -/
def diodeSet (w : W64) (was : Bool × Bool × Bool) (t : Nat) : Bool × Bool × Bool :=
  let (warn, throt, trip, hyst) := thrFields w
  (crossed was.1 t warn hyst, crossed was.2.1 t throt hyst, crossed was.2.2 t trip hyst)

/-- One core diode, and one base-die diode, read. -/
def State.pollCore (s : State) (i : Fin 96) (t : Nat) : State :=
  let was := s.mod.coreSet[i]
  let is_ := diodeSet s.mod.coreThr was t
  (s.onMod fun m => { m with coreSet := m.coreSet.set i is_ }).reportDiode ⟨16 + i.val, i.val, s.partOf i.val⟩ t was is_

def State.pollBase (s : State) (i : Fin 48) (t : Nat) : State :=
  let was := s.mod.baseSet[i]
  let is_ := diodeSet s.mod.baseThr was t
  (s.onMod fun m => { m with baseSet := m.baseSet.set i is_ }).reportDiode ⟨128 + i.val, 0xFF, s.mod.partOf (i.val / 12)⟩ t was is_

/-- Whether any diode stands at its trip threshold. -/
def Module.tripping (m : Module) : Bool := m.coreSet.toList.any (·.2.2) || m.baseSet.toList.any (·.2.2)

/-- Partition p freezes on the terms of R341, and no fault record is written (R378): a phase stops as an abort stops it, and every
other sequencer where it stands. -/
def State.freezePart (s : State) (p : Nat) : State :=
  let part := s.part p
  match part.seq, part.abort with
  | .idle, _ | .stopped, _ | .debug _, _ => s
  | .phase, none => (s.setPart p { part with abort := some (part.abortAt (s.eventTick p) s.now noFault true) }).tellGroup p
  | .phase, some a => s.setPart p { part with abort := some { a with debug := true } }
  | _, _ => (s.cancelSequencer p).onPart p fun x => { x with abort := none, seq := .debug false }

/-- The shutdown of a thermal trip (R378): every partition freezes, the entry is made and copied to flash, and dies and stacks lose
power 1 ms later. -/
def State.shutDown (s : State) : State :=
  let s := (range' 0 4).foldl (fun (s : State) p => if s.mod.partOf p = p then s.freezePart p else s) s
  let s := (s.sedModule 3 true).flashCopy
  (s.onMod fun m => { m with tripped := true, offAt := some (s.now + msec 1) }).schedule (s.now + msec 1) .flashCopy

/-- Dies and stacks lose power, with all that they hold, and the link goes down; the hub stays until the copy ends (R378). -/
def State.powerDown (s : State) : State :=
  { s with
    cores := State.reset.cores, parts := State.reset.parts, hbm := Mem.empty
    mod := { s.mod with powered := Vector.replicate 8 false, stage := 0, tickets := [], offAt := none }
    agenda := s.agenda.filter (fun e => !isOwn e.ev) }.emit .linkDown

/-- THERMAL_POLL (R375, R378): every diode is read. -/
def execThermalPoll (core base : List Nat) (s : State) : Result :=
  let s := s.onMod fun m => { m with coreTemp := (core ++ List.replicate 96 0).take 96, baseTemp := (base ++ List.replicate 48 0).take 48 }
  let s := (place 0 s.mod.coreTemp).foldl (fun (s : State) x => s.pollCore (Fin.ofNat 96 x.1) x.2) s
  let s := (place 0 s.mod.baseTemp).foldl (fun (s : State) x => s.pollBase (Fin.ofNat 48 x.1) x.2) s
  .next (if s.mod.tripping && !s.mod.tripped then s.shutDown else s)

/-- HBM_TEMP_READ (R376): the codes; a stack whose partition has no job started takes its refresh rate at once. -/
def execHbmTempRead (codes : List Nat) (s : State) : Result :=
  let s := s.onMod fun m => { m with hbmCode := Vector.ofFn fun i => min 2 (nth codes i.val 0) }
  .next ((range' 0 4).foldl (fun (s : State) p =>
    if s.mod.partOf p = p ∧ !(s.part p).started then s.setRefresh p (s.part p).cad else s) s)

/-! ### Undervolting (R379) -/

/-- The largest offset in force (R372). -/
def Module.uvLimit (m : Module) : Nat := min 12 m.uvLim.toNat

/-- One domain at the 10 s step. -/
def State.stepDomain (s : State) (d : Nat) : State :=
  let m := s.mod
  let i := Fin.ofNat 16 d
  if !m.uvEn.getLsbD d || m.uvDis.getLsbD d then s
  else if m.uvErr[i] = 0 ∧ m.uvOff[i] < m.uvLimit then s.stepVoltage d (m.uvOff[i] + 1) 0
  else if 4 ≤ m.uvErr[i] ∧ 0 < m.uvOff[i] then s.stepVoltage d (m.uvOff[i] - 1) 1
  else s

/-- UNDERVOLT_STEP (R379): every 10 s. -/
def execUndervoltStep (s : State) : Result :=
  let s := (List.range 16).foldl State.stepDomain s
  .next ((s.onMod fun m => { m with uvErr := Vector.replicate 16 0 }).schedule (s.now + msec 10000) .undervoltStep)

/-- A write of uv_en (R379): a domain whose bit is cleared returns to offset 0. -/
def State.writeUvEn (s : State) (v : W64) : State :=
  let s := s.onMod fun m => { m with uvEn := v.setWidth 16 }
  (List.range 16).foldl (fun (s : State) d =>
    if !s.mod.uvEn.getLsbD d && decide (0 < s.mod.uvOff[(Fin.ofNat 16 d)]) then s.stepVoltage d 0 3 else s) s

def execUvEnWrite (v : W64) (s : State) : Result := .next (s.writeUvEn v)

/-! ### Heartbeats and the flash (R382, R383) -/

/-- FIRMWARE_HEARTBEAT (R383): the count rises, the watch of the root of trust begins anew, and the next is due 1 ms later if the
firmware goes on. -/
def execFirmwareHeartbeat (s : State) : Result :=
  let s := (s.onMod fun m => { m with hbCnt := m.hbCnt + 1, hbAt := s.now }).trace
  let s := (s.cancel fun i => i == .heartbeatLoss).schedule (s.now + msec 100) .heartbeatLoss
  let runs := Config.firmwareRuns s.fresh
  let s := { s with fresh := s.fresh + 1 }
  .next (if runs then s.schedule (s.now + msec 1) .firmwareHeartbeat else s)

/-- HEARTBEAT_LOSS (R383): 100 ms without an increment: the entry, the copy, and a restart at step 1. -/
def execHeartbeatLoss (s : State) : Result :=
  if s.now < s.mod.hbAt + msec 100 then .next s else .next ((s.sedModule 2 true).flashCopy.restart)

/-- Whether a shutdown's dies lose power in this cycle (R378). -/
def State.diesOff (s : State) : Bool :=
  match s.mod.offAt with
  | some c => decide (c ≤ s.now)
  | none => false

/-- FLASH_COPY (R382): the copy under way is complete in slot n mod 128; the next waiting one begins, or, after a trip, the
module powers off (R378). The first one due after a trip is the end of the dies' power, 1 ms after the poll. -/
def execFlashCopy (s : State) : Result :=
  if s.diesOff then .next s.powerDown
  else if !s.mod.flashBusy then .next s
  else
    let s := s.onMod fun m => { m with
      flash := mapSet m.flash (m.flashed % 128) m.flashSnap, flashed := m.flashed + 1, flashBusy := false, flashSnap := [] }
    if 0 < s.mod.flashWait then .next ((s.onMod fun m => { m with flashWait := m.flashWait - 1 }).flashCopy)
    else if s.mod.tripped then .next (s.onMod fun m => { m with hubPower := false })
    else .next s

/-! ### Telemetry registers (R372, R381) -/

/-- The entry of the live ring with a sequence number, or entry i of a flash copy, oldest first; else zeros. -/
def Module.sedEntry (m : Module) (v : Nat) : SedEntry :=
  let zero := List.replicate 32 (0 : Byte)
  if fld v 63 63 = 1 then nth ((mapGet m.flash (fld v 38 32)).getD []) (fld v 31 0) zero
  else
    let back := (m.sedHead + 2 ^ 32 - 1 - fld v 31 0) % 2 ^ 32
    if back < m.sed.length then nth m.sed back zero else zero

/-- A write of the sediment selector latches an entry. -/
def State.selectSediment (s : State) (v : W64) : State :=
  s.onMod fun m => { m with sedSel := v &&& 0x8000007FFFFFFFFF, sedData := m.sedEntry v.toNat }

/-- The rows of the stall matrix in the order of a profile record: S, V, M, L, W, X, G, host. -/
def profileRows : List Nat := [0, 3, 2, 4, 5, 6, 7, 8]

/-- A profile record (R298, R372). -/
def Snapshot.record (x : Snapshot) : List Byte :=
  leBytes 4 x.phase ++ leBytes 4 x.widx ++ leBytes 4 x.tick ++ leBytes 4 x.exits
    ++ profileRows.flatMap fun r => (List.range 49).flatMap fun c => leBytes 4 ((mapGet x.counters (stallKey r c)).getD 0)

/-- The record that the telemetry selector names. -/
def State.telRecord (s : State) (v : Nat) : List Byte :=
  let c := fld v 14 8
  let i := fld v 7 0
  let co := s.core c
  if 96 ≤ c then []
  else match fld v 16 15 with
    | 0 => (match co.stamps[i]? with
      | some r => r ++ leBytes 4 co.stampOver
      | none => [])
    | 1 => (match co.profile[i]? with
      | some x => x.record
      | none => [])
    | _ => []

/-- A write of the telemetry selector latches a record. -/
def State.selectTelemetry (s : State) (v : W64) : State :=
  { s with mod := { s.mod with telSel := v &&& 0x1FFFF, telData := padTo 2048 (s.telRecord v.toNat) } }

def execSedimentSelect (v : W64) (s : State) : Result := .next (s.selectSediment v)
def execTelemetrySelect (v : W64) (s : State) : Result := .next (s.selectTelemetry v)

/-! ### PLDM (R7, R384) -/

/-- The cadence request of partition p, as cad_req holds it (R372). -/
def State.cadReq (s : State) (p : Nat) : Nat :=
  let x := s.part p
  (s.mod.cpow - 1) + 4 * (x.ctherm - 1) + 16 * (x.cad - 1)

/-- The value of a numeric sensor. -/
def State.sensor (s : State) (id : Nat) : Option Nat :=
  let m := s.mod
  if id = 1 then some m.p100.toNat
  else if id = 2 then some m.p1ms.toNat
  else if 16 ≤ id ∧ id < 112 then some (nth m.coreTemp (id - 16) 0)
  else if 128 ≤ id ∧ id < 176 then some (nth m.baseTemp (id - 128) 0)
  else if 192 ≤ id ∧ id < 204 then some m.hbmCode[(Fin.ofNat 12 (id - 192))]
  else if 208 ≤ id ∧ id < 212 then some (s.cadReq (id - 208))
  else if id = 216 then some m.hbCnt.toNat
  else if 224 ≤ id ∧ id < 240 then some m.uvOff[(Fin.ofNat 16 (id - 224))]
  else none

/-- The value of an effecter. -/
def State.effecter (s : State) (id : Nat) : Option Nat :=
  let m := s.mod
  if id = 1 then some m.pwrLim.toNat
  else if 2 ≤ id ∧ id < 6 then some (fld m.cmin.toNat (2 * (id - 2) + 1) (2 * (id - 2)) + 1)
  else if id = 6 then some (if m.tsrc then 1 else 0)
  else none

/-- The least cadence of partition p set. -/
def setCmin (c : BitVec 8) (p v : Nat) : BitVec 8 :=
  BitVec.ofNat 8 (c.toNat - fld c.toNat (2 * p + 1) (2 * p) * 4 ^ p + v % 4 * 4 ^ p)

/-- A PLDM reply of type 2, with its completion code: 0 success, 0x80 no such sensor, effecter or record. -/
def State.pldm2 (s : State) (cmd cc : Nat) (data : List Byte) : Result := .next (s.emit (.pldm 2 cmd cc data))

/-- GETSENSORREADING (R384). -/
def execGetsensorreading (id : Nat) (s : State) : Result :=
  match s.sensor id with
  | some v => s.pldm2 0x11 0 (leBytes 4 v)
  | none => s.pldm2 0x11 0x80 []

/-- GETNUMERICEFFECTERVALUE (R384). -/
def execGetnumericeffectervalue (id : Nat) (s : State) : Result :=
  match s.effecter id with
  | some v => s.pldm2 0x32 0 (leBytes 4 v)
  | none => s.pldm2 0x32 0x80 []

/-- SETNUMERICEFFECTERVALUE (R384): the same fields as the register block; a value out of an effecter's range is answered
with INVALID_DATA. -/
def execSetnumericeffectervalue (id v : Nat) (s : State) : Result :=
  if id = 1 ∧ v < 4096 then (s.onMod fun m => { m with pwrLim := BitVec.ofNat 12 v }).pldm2 0x31 0 []
  else if 2 ≤ id ∧ id < 6 ∧ 1 ≤ v ∧ v ≤ 4 then (s.onMod fun m => { m with cmin := setCmin m.cmin (id - 2) (v - 1) }).pldm2 0x31 0 []
  else if id = 6 ∧ v < 2 then (s.onMod fun m => { m with tsrc := v == 1 }).pldm2 0x31 0 []
  else if 1 ≤ id ∧ id ≤ 6 then s.pldm2 0x31 2 []
  else s.pldm2 0x31 0x80 []

/-- POLLFORPLATFORMEVENTMESSAGE (R384): the oldest queued sensor event, or none. -/
def execPollforplatformeventmessage (s : State) : Result :=
  match s.mod.pldmEvents with
  | (id, e) :: es => (s.onMod fun m => { m with pldmEvents := es }).pldm2 0x0B 0 (leBytes 2 id ++ [BitVec.ofNat 8 e])
  | [] => s.pldm2 0x0B 0 []

/-- The upper warning, critical and fatal thresholds of a diode's record (R384). -/
def State.pdrThresholds (s : State) (id : Nat) : List Byte :=
  let f (w : W64) : List Byte := let (a, b, c, _) := thrFields w; [BitVec.ofNat 8 a, BitVec.ofNat 8 b, BitVec.ofNat 8 c]
  if 16 ≤ id ∧ id < 112 then f s.mod.coreThr else if 128 ≤ id ∧ id < 176 then f s.mod.baseThr else []

/-- GETPDR (R384): the record of a sensor or effecter, what the standard says of it and its thresholds. -/
def execGetpdr (record : Nat) (s : State) : Result :=
  if (s.sensor record).isSome || (s.effecter record).isSome then
    let (t, r) := s.standard
    t.pldm2 0x51 0 (r ++ s.pdrThresholds record)
  else s.pldm2 0x51 0x82 []

/-- The commands of a PLDM type that the module supports (R7, R384). -/
def pldmCommands (ty : Nat) : List Nat := if ty = 0 then [1, 2, 3, 4, 5] else if ty = 2 then [0x0B, 0x11, 0x31, 0x32, 0x51] else []

/-- A set of bits as bytes. -/
def bitBytes (n : Nat) (xs : List Nat) : List Byte := leBytes n (xs.foldl (fun (b : Nat) i => b + 2 ^ i) 0)

/-- PLDM_BASE_REQUEST (R7): the terminus identifier, the supported types and their commands; what else the base standard fixes, as it
says (assumption 113). -/
def execPldmBaseRequest (req : PldmBase) (s : State) : Result :=
  match req.cmd with
  | 1 => .next ((s.onMod fun m => { m with tid := req.data.headD 0 }).emit (.pldm 0 1 0 []))
  | 2 => .next (s.emit (.pldm 0 2 0 [s.mod.tid]))
  | 4 => .next (s.emit (.pldm 0 4 0 (bitBytes 8 [0, 2])))
  | 5 =>
    let ty := u req.data 0 1
    .next (s.emit (if ty = 0 ∨ ty = 2 then .pldm 0 5 0 (bitBytes 32 (pldmCommands ty)) else .pldm 0 5 0x83 []))
  | _ =>
    let (t, r) := s.standard
    .next (t.emit (.pldm 0 req.cmd 0 r))

/-- PLDM_UNSUPPORTED_REQUEST (R7): ERROR_INVALID_PLDM_TYPE for a type that is not supported, else ERROR_UNSUPPORTED_PLDM_CMD. -/
def execPldmUnsupportedRequest (ty cmd : Nat) (s : State) : Result :=
  .next (s.emit (.pldm ty cmd (if ty = 0 ∨ ty = 2 then 5 else 0x20) []))

/-! ### Links (R229, R381) -/

def execLinkRetrain (port : Nat) (s : State) : Result := .next (s.sedLink port 2 0)

/-- LINK_CORRECTED_BLOCKS: the count of the last 1 ms of a port. -/
def execLinkCorrectedBlocks (port count : Nat) (s : State) : Result :=
  .next ((s.sedLink port 0 count).onMod fun m =>
    if port < 6 then { m with linkBlocks := m.linkBlocks.set (Fin.ofNat 6 port) (m.linkBlocks[(Fin.ofNat 6 port)] + count) } else m)

end Sys2Proof.Machine
end

