-- ==== Sys2Proof/Machine/Launch.lean ====
section
/-! DEFINITION. Launch queues and records (R328 to R331), the launch unit (R332, R333), completion (R334), and the decode
service (R321, R336, R337). -/

namespace Sys2Proof.Machine

/-! ### Device memory as the firmware and the host port reach it -/

/-- The pages of a device interval under an access: the homes of its pieces, or the fault. -/
def State.hostPieces (s : State) (p : Nat) (a : Access) (va n : Nat) : Except Trap (List (Home × Nat)) :=
  if 2 ^ 52 < va + n then .error ⟨0x22, 0, va, 0⟩ else s.pieces p a (n / 65536 + 2) va n

/-- Bytes written at pieces by a source outside the running phases: inbound writes (R267), of which those of one PCIe function
keep their order wherever they go (R266). -/
def State.writePieces (s : State) (src : Source) : List (Home × Nat) → List (Option Byte) → State
  | [], _ => s
  | (h, n) :: hs, bs => State.writePieces (s.arrive { src := src, act := .write h (bs.take n) }) src hs (bs.drop n)

/-! ### Queues (R328, R329) -/

/-- A queue of partition p. -/
def State.queue (s : State) (p n : Nat) : Queue := (s.part p).queues[(Fin.ofNat 64 n)]

/-- A change of a queue of partition p. -/
def State.onQueue (s : State) (p n : Nat) (f : Queue → Queue) : State :=
  s.onPart p fun x => { x with queues := x.queues.set (Fin.ofNat 64 n) (f x.queues[(Fin.ofNat 64 n)]) }

/-- Entries of a queue: lsize 4 to 12, other values as 4. -/
def Queue.entries (q : Queue) : Nat := 2 ^ (if 4 ≤ q.lsize ∧ q.lsize ≤ 12 then q.lsize else 4)

/-- What the hub holds of the head record is dropped. -/
def Queue.forget (q : Queue) : Queue := { q with head1 := none, gateOk := false, gateHome := none, gateFrom := none, fetches := 0 }

/-- The hub fetches the head record of a running queue, unless it holds it or is fetching it (R331). -/
def State.fetchHead (s : State) (p n : Nat) : State :=
  let q := s.queue p n
  let e : Instr := .recordFetch (Fin.ofNat 4 p) (Fin.ofNat 64 n)
  if q.qstate = 1 ∧ q.head ≠ q.tail ∧ q.head1 = none ∧ !(s.agenda.any fun x => x.ev == e) then
    ({ s with fresh := s.fresh + 1 }).schedule (s.now + 1 + Config.hubDelay s.fresh) e
  else s

/-- A doorbell (R329): too large a distance stops the queue with err 4 and leaves tail unchanged. -/
def State.ring (s : State) (p n : Nat) (t : BitVec 32) : State :=
  let q := s.queue p n
  if t.toNat = q.tail then s
  else if q.entries < (t.toNat + 2 ^ 32 - q.head) % 2 ^ 32 then (if q.qstate = 2 then s else s.stopQueue p n 4 q.head)
  else (s.onQueue p n fun q => { q with tail := t.toNat }).fetchHead p n

/-- A write of a queue's control word (R328): enable as given, then skip or resume of a stopped queue. -/
def State.queueControl (s : State) (p n : Nat) (on resume skip : Bool) : State :=
  let s := s.onQueue p n fun q =>
    if q.qstate = 2 then
      (if resume || skip then
        { q.forget with
          enable := on, qstate := if on then 1 else 0, err := 0, fidx := 0
          head := if skip then (q.head + 1) % 2 ^ 32 else q.head }
      else { q with enable := on })
    else if on then { q with enable := true, qstate := 1 } else { q.forget with enable := false, qstate := 0 }
  (s.fetchHead p n).tryLaunch p

def execDoorbell (p : Fin 4) (q : Fin 64) (tail : BitVec 32) (s : State) : Result := .next (s.ring p q tail)
def execQueueEnable (p : Fin 4) (q : Fin 64) (on : Bool) (s : State) : Result := .next (s.queueControl p q on false false)
def execQueueResume (p : Fin 4) (q : Fin 64) (on : Bool) (s : State) : Result := .next (s.queueControl p q on true false)
def execQueueSkip (p : Fin 4) (q : Fin 64) (on : Bool) (s : State) : Result := .next (s.queueControl p q on false true)

/-! ### The launch record (R330, R331) -/

/-- An accepted record, or none where it is invalid (err 2). -/
def parseRecord (b : List Byte) : Option Launch :=
  let f := u b 4 2
  let bit (n : Nat) : Bool := fld f n n == 1
  let vec := u b 6 2
  let cseg := u b 24 8
  if 256 ≤ f ∨ (if bit 6 then vec = 0 ∨ 15 < vec else vec ≠ 0) ∨ u b 8 8 % 4096 ≠ 0 ∨ u b 16 8 % 64 ≠ 0 ∨ cseg % 64 ≠ 0
      ∨ u b 32 4 % 64 ≠ 0 ∨ !(zeros b 36 4) ∨ u b 40 8 % 8 ≠ 0 ∨ (if bit 5 then u b 48 8 % 8 ≠ 0 else u b 48 8 ≠ 0)
      ∨ 3 < u b 64 1 ∨ !(zeros b 65 7) ∨ (bit 7 = false ∧ u b 72 8 ≠ 0) ∨ !(zeros b 88 36) then none
  else some {
    seq := u b 0 4, barrier := bit 0, prio := fld f 2 1, detect := bit 3, ftz := bit 4, gated := bit 5, msix := bit 6
    system := bit 7, vec := vec, ptab := u b 8 8, args := u b 16 8, cseg := cseg, clen := if cseg = 0 then 0 else u b 32 4
    csig := u b 40 8, gsig := u b 48 8, gval := BitVec.ofNat 64 (u b 56 8), gcond := u b 64 1, grp := u b 72 8
    tag := BitVec.ofNat 64 (u b 80 8) }

/-- Whether PCIe completes the reads of some pieces, as far as they lie in host memory. -/
def State.completes (s : State) (ps : List (Home × Nat)) : Bool :=
  ps.all fun h => match h.1 with
    | .host ba => Config.hostCompletes s.now ba
    | _ => true

/-- The 128 bytes of a queue's head record; none where translation or PCIe cannot complete the read (err 6), of a page of host memory
too. -/
def State.headRecord (s : State) (p : Nat) (q : Queue) : Option (List Byte) :=
  let a := q.base + 128 * (q.head % q.entries)
  if q.loc then (match s.hostPieces p .load a 128 with
    | .ok ps => if s.completes ps then (match s.loadBytes p a 128 with | .ok bs => some bs | .error _ => none) else none
    | .error _ => none)
  else if Config.hostCompletes s.now a then some ((s.homeRead (.host a) 128).map fun b => b.getD 0)
  else none

/-- RECORD_FETCH (R331): a fetch is complete at the hub. -/
def execRecordFetch (p : Fin 4) (q : Fin 64) (s : State) : Result :=
  let x := s.queue p q
  if x.qstate ≠ 1 ∨ x.head = x.tail ∨ x.head1.isSome then .next s
  else match s.headRecord p x with
    | none => .next (s.stopQueue p q 6 x.head)
    | some b =>
      if u b 0 4 ≠ x.head ∨ u b 124 4 ≠ crc32c (b.take 124) then
        (if 8 ≤ x.fetches then .next (s.stopQueue p q 1 x.head)
        else .next ((s.onQueue p q fun x => { x with fetches := x.fetches + 1 }).schedule (s.now + 800) (.recordFetch p q)))
      else match parseRecord b with
        | none => .next (s.stopQueue p q 2 x.head)
        | some l =>
          let s := s.onQueue p q fun x => { x.forget with head1 := some l }
          .next ((if l.gated then s.evalLaunch p q s.now else s).tryLaunch p)

/-! ### Launch gates (R333) -/

/-- LAUNCH_GATE_EVALUATION: the object is translated, its evaluations end 16 cycles after each multiple of 256 cycles and
after each notification, and one that finds the gate satisfied makes the record eligible. -/
def execLaunchGateEvaluation (p : Fin 4) (q : Fin 64) (s : State) : Result :=
  let x := s.queue p q
  match x.head1 with
  | none => .next s
  | some l =>
    if !x.gateWaits then .next s
    else match x.gateHome with
      | none =>
        (match s.gateHome p l.gsig with
          | .error f => .next (s.queueFault p q 5 (0, 0, 0, false, false) f)
          | .ok (h, e) =>
            let t := (s.onPart p fun y => y.load e false).onQueue p q fun x => { x with gateHome := some h, gateFrom := some s.now }
            .next ((t.armDog p).evalLaunch p q (s.now + 16)))
      | some h =>
        (match s.judgeObject l.gsig 0 h l.gcond l.gval false with
          | .fault f => .next (s.queueFault p q 5 (0, 0, 0, false, false) f)
          | .holds => .next (((s.onQueue p q fun x => { x with gateOk := true }).armDog p).tryLaunch p)
          | .waits _ =>
            let from_ := x.gateFrom.getD s.now
            .next (s.evalLaunch p q (from_ + 256 * ((s.now - 16 - from_) / 256 + 1) + 16)))

/-! ### The launch unit (R332) -/

/-- What the launch unit may serve: level, queue, and the record, or none for the held job (R347). -/
abbrev Candidate := Nat × Nat × Option Launch

/-- The eligible records, and the held job. -/
def Part.eligible (x : Part) : List Candidate :=
  let hq := if x.held = 0 then none else x.heldJob.map (·.queue)
  ((place 0 x.queues.toList).filterMap fun q =>
    match q.2.head1 with
    | some l =>
      if q.2.qstate = 1 ∧ hq ≠ some q.1 ∧ (l.barrier = true → q.2.open_ = []) ∧ (l.gated = true → q.2.gateOk = true) then
        some (l.prio, q.1, some l)
      else none
    | none => none)
  ++ (if x.held = 0 then [] else match x.heldJob with
    | some j => [(j.launch.prio, j.queue, none)]
    | none => [])

/-- The highest of some levels. -/
def highest : List Nat → Option Nat
  | [] => none
  | c :: cs => match highest cs with
    | some d => some (max c d)
    | none => some c

/-- The level that is served: the highest whose count has reached 16, else the highest. -/
def Part.level (x : Part) (es : List Candidate) : Option Nat :=
  match highest ((es.map (·.1)).filter fun l => decide (16 ≤ x.aging[(Fin.ofNat 4 l)])) with
  | some l => some l
  | none => highest (es.map (·.1))

/-- The candidate of a list nearest above the queue last served, wrapping. -/
def nearest (last : Nat) : List Candidate → Option Candidate
  | [] => none
  | c :: cs => match nearest last cs with
    | some d => if (c.2.1 + 63 - last) % 64 ≤ (d.2.1 + 63 - last) % 64 then some c else some d
    | none => some c

/-- The candidate that is served. -/
def Part.pick (x : Part) (es : List Candidate) : Option Candidate :=
  (x.level es).bind fun l => nearest x.served[(Fin.ofNat 4 l)] (es.filter fun c => c.1 == l)

/-- The counts after a candidate is served. -/
def Part.serve (x : Part) (es : List Candidate) (c : Candidate) : Part :=
  { x with
    aging := Vector.ofFn fun i =>
      if i.val = c.1 then 0 else if i.val < c.1 ∧ (es.any fun e => e.1 == i.val) = true then x.aging[i] + 1 else x.aging[i]
    served := x.served.set (Fin.ofNat 4 c.1) c.2.1 }

/-- The launch entry of the sediment record (kind 0x09). -/
def State.sedLaunch (s : State) (p event q ridx : Nat) (tag : W64) : State :=
  s.sediment 0x09 p 0xFF false ([BitVec.ofNat 8 event, BitVec.ofNat 8 q, 0, 0] ++ leBytes 4 ridx ++ leBytes 8 tag.toNat)

/-- A refused launch: err 3, with a record where the loader refuses it (R331, R361). -/
def State.refuseLaunch (s : State) (p n : Nat) (l : Launch) (e : Option LoadErr) : State :=
  let i := (s.queue p n).head
  let s := match e with
    | some e =>
      let place := e.image % 65536 * 65536 + e.word % 65536
      s.queueFault p n 3 (place, e.pidx, e.infl, e.replayable, e.system)
        ⟨e.code, 3, none, e.src.map fun (x : Src) => { x with widx := place }, e.detail, e.addr, e.ext⟩
    | none => s.stopQueue p n 3 i
  s.sedLaunch p 2 n i l.tag

/-- A core at the start of a job (R21, R22, R27, R32, R236, R297, R298): its operations under way, its records, its bank, its
instruction memory and its queues' minima and caps (R15) stay. -/
def Core.forJob (co : Core) (detect : Bool) : Core :=
  { Core.reset with
    regs := { Regs.reset with ctl := { Ctl.reset with detect := detect } }
    im0 := co.im0, im1 := co.im1, half := co.half, image0 := co.image0, image1 := co.image1
    qmin := co.qmin, qcap := co.qcap, outb := co.outb, fences := co.fences, profile := co.profile, exits := co.exits
    stamps := co.stamps, stampOver := co.stampOver, bank := co.bank, wbSpill := co.wbSpill }

/-- The job of an accepted and loaded launch, with its group: module count, rank, hops (R330, R332). -/
def State.newJob (s : State) (p n : Nat) (l : Launch) (t : PTable) (g : Nat × Nat × Nat) : Job :=
  { id := s.mod.jobSeq, queue := n, ridx := (s.queue p n).head, launch := l, table := t, pidx := t.first, infl := 0, phase := 0
    z := 0, q := 0, marked := false, replays := 0, start := s.now, rank := g.2.1, members := g.1, hops := g.2.2
    done := false, csigHome := none }

/-- The argument block goes to SDM 0x0000 of every core with a clause in phase 0 (R21, R330). -/
def State.copyArgs (s : State) (p : Nat) (x : Sel) (args : List Byte) : State :=
  (s.takersOf p x).foldl (fun (s : State) t =>
    s.setCore t.1 ((s.core t.1).bufStore .sdm (place 0 (args.map some)))) s

/-- A launch starts: its job, its cores, and the slack window of its first phase (R310, R332, R333). -/
def State.startJob (s : State) (p n : Nat) (l : Launch) (t : PTable) (args : List Byte) (g : Nat × Nat × Nat) : State :=
  let j := s.newJob p n l t g
  let x : Sel := ⟨0, t.first, 0, 0, 0, false⟩
  let s := { s with mod := { s.mod with jobSeq := s.mod.jobSeq + 1 } }
  let s := s.onQueue p n fun q => { q.forget with head := (q.head + 1) % 2 ^ 32, open_ := q.open_ ++ [j.ridx] }
  let s := s.onCores p fun _ co => co.forJob l.detect
  let s := s.onPart p fun y => { y with
      job := some j, next := some x, soff := s.now + 240, least7 := 0, wave := none, wd := 0, wdFrom := none, failed := false }
  (((s.copyArgs p x args).sedLaunch p 0 n j.ridx l.tag).step7 p 80).fetchHead p n

/-- A group descriptor (R330): module count, rank, hops; none where its other bytes are not zero. -/
def parseGroup (b : List Byte) : Option (Nat × Nat × Nat) :=
  if zeros b 5 59 then some (u b 0 2, u b 2 2, u b 4 1) else none

/-- The partition's quarters are all available (R361). -/
def State.available (s : State) (p : Nat) : Bool := (range' p s.mod.quarters).all fun q => s.mod.qavail[(Fin.ofNat 4 q)]

/-- What is read at a launch: the table with its images, the argument block, the group descriptor. -/
def State.readLaunch (s : State) (p : Nat) (l : Launch) : Except LoadErr (PTable × List Byte × List Byte) := do
  let t ← s.loadTable p l
  let a ← s.loadBytes p l.args 4096
  let g ← if l.system then s.loadBytes p l.grp 64 else .ok ([1, 0] ++ List.replicate 62 0)
  return (t, a, g)

/-- The launch unit serves candidate c of es (R330, R331, R361); the counts change only where the launch starts (R332). -/
def State.startLaunch (s : State) (p : Nat) (es : List Candidate) (c : Candidate) (l : Launch) : State :=
  let n := c.2.1
  if !s.available p then s.refuseLaunch p n l none
  else match s.readLaunch p l with
    | .error e => s.refuseLaunch p n l (some e)
    | .ok (t, a, g) =>
      (match parseGroup g with
        | some g =>
          if l.system && !(t.phases.any (·.system)) then s.stopQueue p n 2 (s.queue p n).head else (s.onPart p fun x => x.serve es c).startJob p n l t a g
        | none => s.stopQueue p n 2 (s.queue p n).head)

/-- The launch unit serves the held job: the spill area, and the contexts, are copied back (R348). -/
def State.resumeHeld (s : State) (p : Nat) : State :=
  let x := s.part p
  match x.heldJob, x.heldSel with
  | some j, some sel =>
    let c := s.spillCycles p (j.live sel) + (if x.held = 1 then exchangeCycles j.launch.detect else s.saveCycles p)
    (s.onPart p fun y => { y with job := some j, seq := .slack 6 }).schedule (s.now + c) (.preemptResume (Fin.ofNat 4 p))
  | _, _ => s

/-- Whether partition p can start a launch: it is a partition, idle, tested, and start-up is done (R332, R346, R360). -/
def State.canLaunch (s : State) (p : Nat) : Bool :=
  let x := s.part p
  s.mod.partOf p == p && s.mod.stage == 5 && x.seq == .idle && x.job.isNone && s.tested p && !s.mod.tripped

/-- LAUNCH_START (R332): an idle partition starts one eligible record, or resumes the held job; under `auto` an eligible
record above the running job's priority requests pre-emption (R344). -/
def execLaunchStart (p : Fin 4) (s : State) : Result :=
  let s := (range' 0 64).foldl (fun (s : State) n => s.fetchHead p n) s
  let x := s.part p
  let es := x.eligible
  if s.canLaunch p then
    (match x.pick es with
      | none => .next s
      | some c =>
        .next (match c.2.2 with
          | some l => (s.startLaunch p es c l).tryLaunch p
          | none => (s.setPart p (x.serve es c)).resumeHeld p))
  else match x.job with
    | some j => .next (if x.auto && es.any (fun c => decide (j.launch.prio < c.1)) then s.requestPreempt p else s)
    | none => .next s

/-! ### Completion (R334) -/

/-- A job is complete: the entries, the queue's record of it, the MSI-X message. -/
def State.finishJob (s : State) (p : Nat) (j : Job) (code : Option (Nat × Nat)) : State :=
  let s := s.sedLaunch p 1 j.queue j.ridx j.launch.tag
  let s := match code with
    | some (c, a) => s.sedFault p (slackInfo c 0 a none []) (s.part p).rseq
    | none => s
  let s := s.onPart p fun x => { x with ended := x.ended.filter fun k => k.id ≠ j.id }
  let s := s.onQueue p j.queue fun q => { q with open_ := q.open_.filter (· ≠ j.ridx) }
  (if j.launch.msix then s.interrupt p j.launch.vec else s).tryLaunch p

/-- Where csig lies; else the code and the address of what fails. -/
def State.csigHome (s : State) (p va : Nat) : Except (Nat × Nat) (Home × TEntry) :=
  if 2 ^ 52 ≤ va then .error (0x22, va)
  else match s.translate p va with
    | .fail code _ addr => .error (code, addr)
    | .ok e => if e.w && e.a then .ok (e.at' va, e) else .error (0x23, va)

/-- JOB_COMPLETION: an ended job whose operations are acknowledged completes; its csig is written after the path latency of its
home at the least. -/
def execJobCompletion (p : Fin 4) (job : Nat) (s : State) : Result :=
  match (s.part p).ended.find? fun j => j.id == job with
  | none => .next s
  | some j =>
    if j.done || (s.coresOf p).any (fun c => (s.core c).outb.any fun o => o.job == j.id && o.st != .acked) then .next s
    else if j.launch.csig = 0 then .next (s.finishJob p j none)
    else match s.csigHome p j.launch.csig with
      | .error f => .next (s.finishJob p j (some f))
      | .ok (h, e) =>
        let t := s.onPart p fun x => { (x.load e false) with
          ended := x.ended.map fun k => if k.id = j.id then { k with done := true, csigHome := some h } else k }
        .next (({ t with fresh := s.fresh + 1 }).schedule
          (s.now + s.pathLatency (Fin.ofNat 96 (24 * p.val)) false 1 h + Config.opDelay s.fresh) (.completionSignalPerformed p job))

/-- COMPLETION_SIGNAL_PERFORMED: the decrement, a release at scope `sys` (R263): writes of the partition's cores that another
partition defers are applied before it. A poisoned object is left. -/
def execCompletionSignalPerformed (p : Fin 4) (job : Nat) (s : State) : Result :=
  match (s.part p).ended.find? fun j => j.id == job with
  | none => .next s
  | some j => match j.csigHome with
    | none => .next s
    | some h =>
      if ((range' 0 4).any fun q => (s.part q).holds (.part p)) || (s.deferrer (.part p) h 8).isSome then
        .next (({ s with fresh := s.fresh + 1 }).schedule (s.now + 1 + Config.opDelay s.fresh) (.completionSignalPerformed p job))
      else match leNat? (s.homeRead h 8) with
        | none => .next (s.finishJob p j (some (0x18, j.launch.csig / 64 * 64)))
        | some old =>
          let t := s.homeWrite .hub h ((leBytes 8 (sigApply .add (BitVec.ofNat 64 old) (BitVec.allOnes 64)).toNat).map some)
          let t := match h with
            | .peer _ _ _ _ => t.emit (.peerSignal h .add (BitVec.allOnes 64))
            | _ => t
          .next (t.finishJob p j none)

/-! ### The decode service (R250, R251, R321, R336, R337) -/

/-- Bytes of device memory as the service reads them; none where a page is missing or a byte is poisoned. -/
def State.devBytes (s : State) (p va n : Nat) : Option (List Byte) :=
  match s.loadBytes p va n with
  | .ok bs => some bs
  | .error _ => none

/-- Bytes that the service writes; nothing where a page is missing or forbids it. -/
def State.devStore (s : State) (p va : Nat) (bs : List Byte) : State :=
  match s.hostPieces p .store va bs.length with
  | .ok ps => s.writePieces (.part (Fin.ofNat 4 p)) ps (bs.map some)
  | .error _ => s

/-- Bytes put over others at an offset. -/
def patch (b : List Byte) (off : Nat) (v : List Byte) : List Byte := b.take off ++ v ++ b.drop (off + v.length)

/-- Token ids of a slot object from an offset. -/
def tokensAt (b : List Byte) (off n : Nat) : List Nat := (range' 0 n).map fun i => u b (off + 4 * i) 4

/-- A token to be delivered: id, position, whether it comes from the spill area. -/
abbrev Deliver := Nat × Nat × Bool

/-- The 16 ids of the overlay in a slot object (R250). -/
def overlay (b : List Byte) : List Byte := slice b 384 64

/-- A slot object after the verdict: a accepted drafts of the overlay join the history, and what follows them moves to the front
(R251); then the greedy id g is the one draft where a is below 3, and there is none else (R321). -/
def commitSlot (b : List Byte) (a g : Nat) (ticket : W64) : List Byte × List Deliver :=
  let c := u b 44 4
  let ids := tokensAt b 384 a
  let b1 := (place 0 ids).foldl (fun (b : List Byte) x => patch b (64 + 4 * ((c + x.1) % 64)) (leBytes 4 x.2)) b
  let c1 := (c + a) % 2 ^ 32
  let b2 := patch (patch (patch b1 32 (leBytes 8 ticket.toNat)) 40 (leBytes 4 c1)) 44 (leBytes 4 c1)
  let b3 := patch (patch b2 384 ((overlay b).drop (4 * a) ++ (overlay b).take (4 * a))) 62 [BitVec.ofNat 8 (u b 62 1 - a)]
  let b4 := if a < 3 then patch (patch b3 384 (leBytes 4 g)) 62 [1] else patch b3 62 [0]
  (b4, (place c ids).map fun x => (x.2, x.1, false))

/-- A delivery ring's header: cap, vec, head, tail; none where it breaks R336. -/
def parseDelivery (va : Nat) (b : List Byte) : Option (Nat × Nat × Nat × Nat) :=
  let cap := u b 0 4
  if va % 64 = 0 ∧ 16 ≤ cap ∧ cap ≤ 65536 ∧ 2 ^ ilog2 cap = cap ∧ u b 4 2 ≤ 15 ∧ zeros b 6 2 = true ∧ zeros b 24 40 = true then
    some (cap, u b 4 2, u b 8 8, u b 16 8)
  else none

/-- The same, if the pages of the header and of all entries may be written and lie in host memory (R336). -/
def State.deliveryRing (s : State) (p va : Nat) (b : List Byte) : Option (Nat × Nat × Nat × Nat) :=
  (parseDelivery va b).filter fun r =>
    match s.hostPieces p .store va (64 + 16 * r.1) with
    | .ok ps => ps.all fun h => match h.1 with
      | .host _ => true
      | _ => false
    | .error _ => false

/-- An entry of a delivery ring. -/
def deliveryEntry (slot : Nat) (d : Deliver) : List Byte :=
  leBytes 4 d.1 ++ leBytes 2 slot ++ [if d.2.2 then 1 else 0, 0] ++ leBytes 8 d.2.1

/-- The slot object with what is not delivered in its spill area, and its flags (R337). -/
def spillSlot (b : List Byte) (left : List Deliver) (park : Bool) : List Byte :=
  let n := left.length
  let fl := u b 60 1
  let parked := if park || decide (12 < n) then 1 else if n = 0 then 0 else fl / 2 % 2
  let b := patch b 320 ((left.take 16).flatMap fun d => leBytes 4 d.1)
  patch (patch b 61 [BitVec.ofNat 8 n]) 60 [BitVec.ofNat 8 (fl % 2 + 2 * parked + (if 0 < n then 4 else 0))]

/-- The decode-service entry of the sediment record (kind 0x0C). -/
def State.sedDecode (s : State) (p slot event : Nat) : State := s.sediment 0x0C p 0xFF false (leBytes 2 slot ++ [BitVec.ofNat 8 event])

/-- Tokens go to the ring while there is room; the object keeps the rest. The new object, and whether it was parked or unparked,
is written and noted. -/
def State.deliverTokens (s : State) (p : Nat) (item : ServiceItem) (b : List Byte) (ds : List Deliver) : State :=
  let was := u b 60 1 / 2 % 2
  let ring := u b 48 8
  match (s.devBytes p ring 64).bind (s.deliveryRing p ring) with
  | some (cap, vec, head, tail) =>
    let room := cap - (tail + 2 ^ 64 - head) % 2 ^ 64
    let now := ds.take room
    let s := (place 0 now).foldl (fun (s : State) x =>
      s.devStore p (ring + 64 + 16 * ((tail + x.1) % cap)) (deliveryEntry item.slot x.2)) s
    let s := if now.isEmpty then s else s.devStore p (ring + 16) (leBytes 8 ((tail + now.length) % 2 ^ 64))
    let s := if now.isEmpty || vec == 0 then s else s.interrupt p vec
    let b' := spillSlot b (ds.drop room) false
    let is_ := u b' 60 1 / 2 % 2
    let s := s.devStore p item.slotAddr b'
    if is_ = was then s else s.sedDecode p item.slot (if is_ = 1 then 0 else 1)
  | none => (s.devStore p item.slotAddr (spillSlot b ds true)).sedDecode p item.slot 2

/-- One slot is served, whose verdict stands at a device address: a parked one commits nothing (R321, R337). -/
def State.serveSlot (s : State) (p : Nat) (item : ServiceItem) (verdict : Nat) : State :=
  match s.devBytes p item.slotAddr 512 with
  | none => s
  | some b =>
    let fl := u b 60 1
    let c := u b 44 4
    let n := min 16 (u b 61 1)
    let old := (place (c - n) (tokensAt b 320 n)).map fun x => (x.2, x.1, true)
    if fl % 2 = 0 then s
    else if fl / 2 % 2 = 1 then s.deliverTokens p item b old
    else match s.devBytes p verdict 3088 with
      | none => s
      | some v =>
        let a := min 4 (u v 3072 4)
        let (b', new) := commitSlot b a (u v (1024 * a + 16) 4) ((mapGet s.mod.tickets item.slot).getD 0)
        s.deliverTokens p item b' (old ++ new)

/-- Whether partition p waits at the service gate (R317, R321): at step 5, for a registration on the object svo. -/
def State.atService (s : State) (p svo : Nat) : Bool :=
  (s.part p).seq == .slack 5 && (s.registrations p).any fun r =>
    !r.2.sem && (match (s.endedGates p)[r.2.n]? with | some d => d.addr == svo | none => false)

/-- DECODE_SERVICE (R321, R337): at the service gate, the slots in ascending order, the verdict of batch position i
being at vb + 4096 i (R320); then the service's signal object is set to the
number of the phase that ended, `verify`, plus 1. -/
def execDecodeService (p : Fin 4) (items : List ServiceItem) (svo vb : Nat) (s : State) : Result :=
  match (s.part p).job with
  | none => .next s
  | some j =>
    if !s.atService p svo then .next s
    else
      let s := ((place 0 items).mergeSort fun a b => decide (a.2.slot ≤ b.2.slot)).foldl
        (fun (s : State) i => s.serveSlot p i.2 (vb + 4096 * i.1)) s
      .next (s.devStore p svo (leBytes 8 (j.phase + 1)))

end Sys2Proof.Machine
end

