-- ==== Sys2Proof/Machine/HostPort.lean ====
section
/-! DEFINITION. What the host reaches through the PCIe port: the register blocks (R323 to R328, R344, R367, R372), the aperture
onto device memory (R325) and the AB windows (R286, R326). -/

namespace Sys2Proof.Machine

/-! ### Where an offset of BAR0 leads (R323, R324) -/

/-- A place in BAR0: the module block, or the block of a quarter, and whether the PF reaches it. -/
inductive Place where
  | module (off : Nat)
  | quarter (q off : Nat) (pf : Bool)
  | nowhere
  deriving DecidableEq, Repr

/-- R323. -/
def bar0 (fn : Fin 5) (off : Nat) : Place :=
  if fn = 0 then
    (if off < 0x100000 ∨ 0x500000 ≤ off then .module off else .quarter (off / 0x100000 - 1) (off % 0x100000) true)
  else if off < 0x100000 then .quarter (fn.val - 1) off false
  else .nowhere

/-- Whether quarter q is the lowest of its partition (R324). -/
def State.primary (s : State) (q : Nat) : Bool := s.mod.partOf q == q

/-- A bit of a register value. -/
def bitOf (v : W64) (n : Nat) : Bool := v.getLsbD n

/-- A field of a register value, in its place. -/
def keepBits (v : W64) (hi lo : Nat) : Nat := fld v.toNat hi lo * 2 ^ lo

/-! ### Registers of a partition: identity to windows (R326, R327) -/

/-- MODE_WRITE (R326, R361): only while no queue of the module is enabled and no job is started, and only where every partition
consists of available quarters. -/
def State.writeMode (s : State) (v : W64) : State :=
  let n := fld v.toNat 1 0
  let busy := s.parts.toList.any fun x => x.started || x.queues.toList.any (·.enable)
  if n < 3 ∧ busy = false ∧ s.mod.qavail.toList.all id then s.onMod fun m => { m with qpp := n } else s

/-- A key word (R327). -/
def State.writeKey (s : State) (p : Nat) (word : Fin 4) (v : W64) : State :=
  if (s.part p).started then s.onPart p fun x => { x with heldWrites := x.heldWrites ++ [(0x100 + 8 * word.val, v, 0)] }
  else s.onPart p fun x => x.keyWrite word v

/-- A ticket of the selected slot (R327). -/
def State.writeTicket (s : State) (p : Nat) (v : W64) : State :=
  let x := s.part p
  if x.started then s.setPart p { x with heldWrites := x.heldWrites ++ [(0x128, v, x.tktSel.toNat)] } else s.ticketWrite p x.tktSel.toNat v

/-- A write of quarter q's count of discarded window writes. -/
def State.clearWinErr (s : State) (q : Nat) : State := s.onPart q fun x => { x with winErr := 0 }

def execModeWrite (v : W64) (s : State) : Result := .next (s.writeMode v)
def execRngKeyWrite (p word : Fin 4) (v : W64) (s : State) : Result := .next (s.writeKey p word v)
def execTktValWrite (p : Fin 4) (v : W64) (s : State) : Result := .next (s.writeTicket p v)
def execWinErrClear (p : Fin 4) (s : State) : Result := .next (s.clearWinErr p)

/-! ### REGISTER_WRITE -/

/-- A write of a queue's registers (R328). -/
def State.writeQueue (s : State) (p n off : Nat) (v : W64) : State :=
  match off with
  | 0x00 => s.onQueue p n fun q => if q.qstate = 0 then { q with loc := bitOf v 63, base := keepBits v 51 7 } else q
  | 0x08 => s.onQueue p n fun q => if q.qstate = 0 then { q with lsize := fld v.toNat 3 0 } else q
  | 0x10 => s.ring p n (v.setWidth 32)
  | 0x28 => s.queueControl p n (bitOf v 0) (bitOf v 1) (bitOf v 2)
  | _ => s

/-- A write of the partition debug registers (R367): ignored where the feature is not open. -/
def State.writeDebug (s : State) (p off : Nat) (v : W64) : State :=
  let f := s.mod.openFeatures
  let n := v.toNat
  if off = 0xA00 then
    let d := fld n 1 0
    (if d = 0 ∨ (d = 3 ∧ f ≠ 0) ∨ f.getLsbD 1 = true then s.onPart p fun x => { x with dmode := BitVec.ofNat 2 d } else s)
  else if 0xA10 ≤ off ∧ off < 0xA30 then
    (if f.getLsbD 0 then s.onPart p fun x => { x with bps := x.bps.set (Fin.ofNat 4 ((off - 0xA10) / 8)) v } else s)
  else if off = 0xA30 then
    (if f.getLsbD 1 then s.onPart p fun x => { x with jbase := keepBits v 47 16, jsize := fld n 15 0 } else s)
  else if off = 0xA38 then
    (if f.getLsbD 1 then s.onPart p fun x => { x with dlog := keepBits v 47 6, dlogAt := 0 } else s)
  else s

/-- A write of the registers of faults, pre-emption and translation that starts nothing (R344). -/
def State.writePart (s : State) (p off : Nat) (v : W64) (pf : Bool) : State :=
  let n := v.toNat
  match off with
  | 0x120 => s.onPart p fun x => { x with tktSel := v.setWidth 13 }
  | 0x900 =>
    (match fld n 1 0 with
      | 0 => s.abandon p
      | 1 => s.retry p
      | 2 => s.replayPhase p
      | _ => s)
  | 0x908 =>
    let s := s.onPart p fun x => { x with auto := bitOf v 1 }
    (if bitOf v 0 then s.requestPreempt p else s).tryLaunch p
  | 0x918 => (s.onPart p fun x => { x with wdlim := v.setWidth 16 }).armDog p
  | 0x920 => if pf then s.onPart p fun x => { x with pcap := v.setWidth 21 } else s
  | 0x928 => s.onPart p fun x => { x with root := if x.started then x.root else keepBits v 47 16, pten := bitOf v 0 }
  | 0x930 => s.onPart p fun x => { x with iva := keepBits v 51 16 }
  | 0x938 =>
    let s := if bitOf v 0 then s.invalidate p (some (s.part p).iva) else s
    if bitOf v 1 then s.invalidate p none else s
  | 0x940 => s.onPart p fun x => { x with sbase := keepBits v 47 22, sval := bitOf v 0 }
  | 0x948 => s.onPart p fun x => { x with pbase := keepBits v 47 24, pval := bitOf v 0 }
  | 0x950 => s.onPart p fun x => { x with dbase := keepBits v 47 22 }
  | 0x960 => s.onPart p fun x => { x with ccnt := 0 }
  | _ => s.writeDebug p off v

/-- Whether an offset of a register block lies in its MSI-X table, and in its PBA (R323). -/
def inMsix (off : Nat) : Bool := decide (0x20000 ≤ off ∧ off < 0x20100)

def inPba (off : Nat) : Bool := decide (0x30000 ≤ off ∧ off < 0x30008)

/-- A write of 8 bytes of a function's MSI-X table; a pending message leaves when its entry is unmasked (R7, R323; assumption 112). -/
def State.writeMsix (s : State) (fn : Nat) (off : Nat) (v : W64) : State :=
  let i := Fin.ofNat 5 fn
  let k := off % 0x100 / 16
  let old := s.mod.msixEntry fn k
  let new : BitVec 128 := if off % 16 = 0 then BitVec.ofNat 128 (fld old 127 64 * 2 ^ 64 + v.toNat)
    else BitVec.ofNat 128 (fld old 63 0 + v.toNat * 2 ^ 64)
  let s := s.onMod fun m => { m with msixTable := m.msixTable.set i ((m.msixTable[i]).set (Fin.ofNat 16 k) new) }
  if (s.mod.msixPend[i]).getLsbD k && fld new.toNat 96 96 == 0 then
    (s.onMod fun m => { m with msixPend := m.msixPend.set i (m.msixPend[i] &&& ~~~ (BitVec.ofNat 16 (2 ^ k))) }).msix fn k
  else s

/-- A read of a function's MSI-X table or PBA. -/
def Module.readMsix (m : Module) (fn off : Nat) : Nat :=
  if inPba off then (m.msixPend[(Fin.ofNat 5 fn)]).toNat
  else
    let e := m.msixEntry fn (off % 0x100 / 16)
    if off % 16 = 0 then fld e 63 0 else fld e 127 64

/-- A write of quarter q's block: a secondary function has its windows only (R324). -/
def State.writeBlock (s : State) (q off : Nat) (v : W64) (pf : Bool) : Result :=
  let p := Fin.ofNat 4 q
  if 0x400 ≤ off ∧ off < 0x600 then
    .next (s.onPart q fun x => { x with win := x.win.set (Fin.ofNat 64 ((off - 0x400) / 8)) (v &&& 0x800FFFFFC0000000) })
  else if off = 0x130 then .next (s.clearWinErr q)
  else if inMsix off then .next (s.writeMsix (q + 1) off v)
  else if !s.primary q then .next s
  else if 0x10000 ≤ off then .next (if off < 0x11000 then s.writeQueue q ((off - 0x10000) / 64) (off % 64) v else s)
  else if 0x100 ≤ off ∧ off < 0x120 then .next (s.writeKey q (Fin.ofNat 4 ((off - 0x100) / 8)) v)
  else if off = 0x128 then .next (s.writeTicket q v)
  else if off = 0x8 then .next (if pf then s.writeMode v else s)
  else if off = 0x958 then
    let s := s.onPart q fun x => { x with dsrc := bitOf v 1 }
    if bitOf v 0 then execDumpStart p s else .next s
  else if off = 0xA08 then
    (if !s.mod.openFeatures.getLsbD 0 then .next s
    else match (if bitOf v 0 then execDstop p s else .next s) with
      | .next t => if bitOf v 1 then execDcont p t else .next t
      | r => r)
  else .next (s.writePart q off v pf)

/-- The thresholds of a register write, unless they are ignored (R372). -/
def thrWrite (old v : W64) (most : Nat) : W64 :=
  let (warn, throt, trip, hyst) := thrFields v
  if throt < warn ∨ trip ≤ throt ∨ hyst = 0 ∨ most < trip then old else v &&& 0xF0FFFFFF

/-- A write of a register that sets a queue's minimum or cap (R15): they change only between jobs, so a write while a job of the
core's partition is started is held until it ends (R293; assumption 123). -/
def State.writeLimit (s : State) (off : Nat) (v : W64) : State :=
  match Config.queueRegister off with
  | some (c, _, _) =>
    if (s.part (s.partOf c)).started then
      s.onPart (s.partOf c) fun x => { x with heldWrites := x.heldWrites ++ [(limitBase + off, v, 0)] }
    else s.setLimit off v
  | none => s

/-- A read of one. -/
def State.readLimit (s : State) (off : Nat) : Nat :=
  match Config.queueRegister off with
  | some (c, e, cap) => if cap then (s.core c).qcap[(Fin.ofNat 8 e)] else (s.core c).qmin[(Fin.ofNat 8 e)]
  | none => 0

/-- A write of the module block (R324, R362, R367, R372). -/
def State.writeModule (s : State) (off : Nat) (v : W64) : Result :=
  if 0x600000 ≤ off then
    .next (if s.mod.recovery && decide (off < 0x800000) then
      s.onMod fun m => { m with recImage := (place (off - 0x600000) (leBytes 8 v.toNat)).foldl (fun r x => mapSet r x.1 x.2) m.recImage }
    else s)
  else if inMsix off then .next (s.writeMsix 0 off v)
  else match off with
  | 0x008 => .next (s.writeMode v)
  | 0xC08 => .next (s.onMod fun m => { m with bsel := v.setWidth 2 })
  | 0xC40 => .next (s.onMod fun m => { m with dbgTok := v })
  | 0xC48 => if bitOf v 0 then execDbgGo s else .next s
  | 0xC50 => if bitOf v 0 then execRecGo s else .next s
  | 0xE00 => .next (s.onMod fun m => { m with pwrLim := v.setWidth 12 })
  | 0xE08 => .next (s.onMod fun m => { m with cmin := v.setWidth 8 })
  | 0xE20 => .next (s.onMod fun m => { m with tsrc := bitOf v 0 })
  | 0xE28 => .next (s.onMod fun m => { m with coreThr := thrWrite m.coreThr v 115 })
  | 0xE30 => .next (s.onMod fun m => { m with baseThr := thrWrite m.baseThr v 110 })
  | 0xE40 => .next (s.writeUvEn v)
  | 0xE48 => .next (s.onMod fun m => { m with uvLim := v.setWidth 4 })
  | 0xE60 => .next (s.selectSediment v)
  | 0xE70 => .next (s.selectTelemetry v)
  | _ => .next (s.writeLimit off v)

/-- REGISTER_WRITE: an 8-byte write of BAR0. Before the port answers it reaches nothing; in recovery the PF alone is there
(R360, R362). -/
def execRegisterWrite (fn : Fin 5) (off : Nat) (v : W64) (s : State) : Result :=
  if off % 8 ≠ 0 then .next s
  else if s.mod.recovery then (match bar0 fn off with
    | .module o => s.writeModule o v
    | _ => .next s)
  else if s.mod.stage < 5 then .next s
  else match bar0 fn off with
    | .module o => s.writeModule o v
    | .quarter q o pf => s.writeBlock q o v pf
    | .nowhere => .next s

/-! ### Reading registers -/

/-- The hottest of some readings: its index and value. -/
def hottest (ts : List Nat) : Nat × Nat :=
  (place 0 ts).foldl (fun (b : Nat × Nat) x => if b.2 < x.2 then x else b) (0, nth ts 0 0)

/-- A number of fields, lowest first, each of w bits. -/
def packed (w : Nat) : List Nat → Nat
  | [] => 0
  | x :: xs => x % 2 ^ w + 2 ^ w * packed w xs

/-- Eight bytes of a list as a register. -/
def word8 (bs : List Byte) (off : Nat) : Nat := leNat (slice bs off 8)

/-- A read of the module block (R324, R367, R372). -/
def State.readModule (s : State) (off : Nat) : Nat :=
  let m := s.mod
  if off = 0x0 then m.qpp * 256
  else if off = 0x8 then m.qpp
  else if off = 0xC00 then
    (if m.recovery then 15 else m.stage) + 16 * bitsOf m.qavail.toList
      + 256 * bitsOf ((range' (24 * m.bsel.toNat) 24).map fun c => m.fenced[(Fin.ofNat 96 c)])
  else if off = 0xC08 then m.bsel.toNat
  else if 0xC20 ≤ off ∧ off < 0xC40 then fld m.nonce.toNat (8 * (off - 0xC20) + 63) (8 * (off - 0xC20))
  else if off = 0xC40 then m.dbgTok.toNat
  else if off = 0xC48 then 256 * m.dbgRes.toNat
  else if off = 0xE00 then m.pwrLim.toNat
  else if off = 0xE08 then m.cmin.toNat
  else if off = 0xE10 then m.p1ms.toNat + 65536 * m.p100.toNat
  else if off = 0xE18 then packed 8 ((range' 0 4).map s.cadReq)
  else if off = 0xE20 then (if m.tsrc then 1 else 0)
  else if off = 0xE28 then m.coreThr.toNat
  else if off = 0xE30 then m.baseThr.toNat
  else if off = 0xE38 then packed 8 [(hottest m.coreTemp).2, (hottest m.coreTemp).1, (hottest m.baseTemp).2, (hottest m.baseTemp).1]
  else if off = 0xE40 then m.uvEn.toNat + 65536 * m.uvDis.toNat
  else if off = 0xE48 then m.uvLim.toNat
  else if off = 0xE50 then packed 4 m.uvOff.toList
  else if off = 0xE58 then m.sedHead
  else if off = 0xE60 then m.sedSel.toNat
  else if off = 0xE68 then m.hbCnt.toNat
  else if off = 0xE70 then m.telSel.toNat
  else if 0xE80 ≤ off ∧ off < 0xEA0 then word8 m.sedData (off - 0xE80)
  else if 0xF000 ≤ off ∧ off < 0xF800 then word8 m.telData (off - 0xF000)
  else if inMsix off || inPba off then m.readMsix 0 off
  else s.readLimit off

/-- A read of a queue's registers (R328). -/
def Queue.read (q : Queue) (off : Nat) : Nat :=
  match off with
  | 0x00 => q.base + (if q.loc then 2 ^ 63 else 0)
  | 0x08 => q.lsize
  | 0x10 => q.tail
  | 0x18 => q.head
  | 0x20 => q.qstate + 16 * q.err + 65536 * q.fidx
  | 0x28 => if q.enable then 1 else 0
  | _ => 0

/-- A read of a partition's registers (R326, R344, R367). -/
def State.readPart (s : State) (p off : Nat) : Nat :=
  let x := s.part p
  let b (c : Bool) : Nat := if c then 1 else 0
  match off with
  | 0x010 => x.stateCode
  | 0x120 => x.tktSel.toNat
  | 0x128 => ((mapGet s.mod.tickets x.tktSel.toNat).getD 0).toNat
  | 0x908 => 2 * b x.auto
  | 0x910 => x.held + 4 * b x.pend + (match x.heldJob with | some j => 2 ^ 24 * j.queue + 2 ^ 32 * j.ridx | none => 0)
  | 0x918 => x.wdlim.toNat
  | 0x920 => x.pcap.toNat
  | 0x928 => x.root + b x.pten
  | 0x930 => x.iva
  | 0x938 => if x.inval.isEmpty then 0 else 2 ^ 63
  | 0x940 => x.sbase + b x.sval
  | 0x948 => x.pbase + b x.pval
  | 0x950 => x.dbase
  | 0x958 => 2 * b x.dsrc + 2 ^ 63 * b x.dbusy
  | 0x960 => x.ccnt.toNat
  | 0xA00 => x.dmode.toNat
  | 0xA30 => x.jbase + x.jsize
  | 0xA38 => x.dlog
  | 0xA40 => b x.div + 2 * b x.jfull + 32 * x.divEng + 256 * x.divCore + 2 ^ 32 * x.divPh
  | _ =>
    if 0x800 ≤ off ∧ off < 0x900 then (match x.frec with | some r => word8 r.bytes (off - 0x800) | none => 0)
    else if 0xA10 ≤ off ∧ off < 0xA30 then (x.bps[(Fin.ofNat 4 ((off - 0xA10) / 8))]).toNat
    else 0

/-- A read of quarter q's block (R324). -/
def State.readBlock (s : State) (q off : Nat) : Nat :=
  if off = 0x0 then (if s.primary q then 4096 else 0) + 256 * s.mod.qpp + 16 * s.mod.partOf q + (q + 1)
  else if off = 0x8 then s.mod.qpp
  else if off = 0x130 then (s.part q).winErr.toNat
  else if 0x400 ≤ off ∧ off < 0x600 then ((s.part q).win[(Fin.ofNat 64 ((off - 0x400) / 8))]).toNat
  else if inMsix off || inPba off then s.mod.readMsix (q + 1) off
  else if !s.primary q then 0
  else if 0x10000 ≤ off then (if off < 0x11000 then (s.queue q ((off - 0x10000) / 64)).read (off % 64) else 0)
  else s.readPart q off

/-- What a function reads at an offset of BAR0. -/
def State.readRegister (s : State) (fn : Fin 5) (off : Nat) : Nat :=
  if s.mod.stage < 5 ∧ s.mod.recovery = false then 0
  else match bar0 fn off with
    | .module o => s.readModule o
    | .quarter q o _ => if s.mod.recovery then 0 else s.readBlock q o
    | .nowhere => 0

/-! ### The aperture (R325) -/

/-- The quarter of a virtual function; the PF has none. -/
def quarterOfFn (fn : Fin 5) : Option Nat := if fn = 0 then none else some (fn.val - 1)

/-- The pieces of device memory that an aperture access reaches under an access; none where the slot, a page or a permission
is missing. -/
def State.aperture (s : State) (q : Nat) (a : Access) (off n : Nat) : Option (List (Home × Nat)) :=
  let w := ((s.part q).win[(Fin.ofNat 64 (off / 2 ^ 30))]).toNat
  if fld w 63 63 = 0 then none
  else match s.hostPieces (s.mod.partOf q) a (keepBits (BitVec.ofNat 64 w) 51 30 + off % 2 ^ 30) n with
    | .ok ps => some ps
    | .error _ => none

/-- HOST_APERTURE_WRITE (R267, R268, R325): an inbound write, or discarded and counted. -/
def execHostApertureWrite (fn : Fin 5) (off : Nat) (data : List Byte) (poisoned : Bool) (s : State) : Result :=
  match (if s.mod.presents then quarterOfFn fn else none) with
  | none => .next s
  | some q => match s.aperture q .store off data.length with
    | some ps => .next (s.writePieces (.fn fn) ps (if poisoned then List.replicate data.length none else data.map some))
    | none => .next (s.onPart q fun x => { x with winErr := x.winErr + 1 })

/-- HOST_APERTURE_READ (R267, R268, R325): the homes as they stand, or Unsupported Request. -/
def execHostApertureRead (fn : Fin 5) (off n : Nat) (s : State) : Result :=
  match (if s.mod.presents then quarterOfFn fn else none).bind fun q => s.aperture q .load off n with
  | some ps => .next (s.complete (s.homeReads ps))
  | none => .next (s.emit .unsupportedRequest)

/-! ### The AB windows (R286, R326) -/

/-- The core that an offset of BAR4 names, and the place in its window; none where there is no core. -/
def bar4 (fn : Fin 5) (off : Nat) : Option (Nat × Nat) :=
  let i := off / 0x800000
  match quarterOfFn fn with
  | none => if i < 96 then some (i, off % 0x800000) else none
  | some q => if i < 24 then some (24 * q + i, off % 0x800000) else none

/-- HOST_AB_WRITE: served in a tick in which no timetabled requester uses its banks, and behind the earlier posted writes of its
function (R266); bytes above AB are discarded. An empty write is the module's own: what waits is tried again. -/
def execHostAbWrite (fn : Fin 5) (off : Nat) (data : List Byte) (poisoned : Bool) (s : State) : Result :=
  match (if s.mod.presents then bar4 fn off else none) with
  | none => .next s
  | some (c, at_) =>
    let bs := (if poisoned then List.replicate data.length none else data.map some).take (Config.abBytes - at_)
    .next (if data.isEmpty then s.retryPosted fn
      else if bs.isEmpty then s
      else s.arrive { src := .fn fn, act := .ab c at_ bs })

/-- HOST_AB_READ: bytes above AB read as zero; a read of a poisoned granule completes as poisoned (R268, R326). -/
def execHostAbRead (fn : Fin 5) (off n : Nat) (s : State) : Result :=
  if !s.mod.presents then .next (s.emit .unsupportedRequest)
  else match bar4 fn off with
  | none => .next (s.complete (List.replicate n (some 0)))
  | some (c, at_) =>
    let k := min n (Config.abBytes - at_)
    match (if k = 0 then none else s.hostWaits c at_ k) with
    | some b => .next (s.hostWait c b (.hostAbRead fn off n))
    | none => .next (s.complete ((s.core c).bufRead .ab at_ k ++ List.replicate (n - k) (some 0)))

end Sys2Proof.Machine
end

