-- ==== Sys2Proof/Machine/Sync.lean ====
section
/-! DEFINITION. The sync words (R126 to R136). -/

namespace Sys2Proof.Machine

def execYNop (_w : Fin 16) (_idle : Fin 1048576) (s : State) : Result := .next (s.issue {})

/-- Words that an engine still holds after tick t (R47). -/
def Core.leftWords (c : Core) (t : Nat) : List Nat :=
  (List.finRange 8).map fun e => ((c.queues[e]).filter fun x => decide (t < x.tick)).length

/-- Y_RDV (R46, R47): the core signs off; words left in a queue abort the phase with code 0x0A, and no other word of the tick
issues (R341). -/
def execYRdv (_w : Fin 16) (s : State) : Result :=
  let c := s.slot.core
  let left := (s.core c).leftWords s.slot.tick
  if left.any (0 < ·) then
    let t := s.undoTick c
    .next ((t.setCore c { t.core c with signed := true }).beginAbort (t.partOf c)
      ⟨0x0A, 1, some c, some s.src, 0, 0, left.flatMap (leBytes 2)⟩)
  else .next (s.issueThen {} fun t => t.setCore c { t.core c with signed := true })

/-! ### Semaphores and tokens (R128, R129) -/

def execYSeminit (fr : Frame) (n : Fin 32) (v : BitVec 16) (s : State) : Result :=
  .next (s.issue { pred := fr.pred, on := .ok [landAt 1 [.semInit n v]] })

def execYSemclr (fr : Frame) (a : Fin 32) (s : State) : Result :=
  let v := s.regs.getS a
  .next (s.issue { pred := fr.pred, on := guardAll [needS v] [landAt 1 [.semClr ((v.getD 0).setWidth 32)]] })

def execYTokpush (fr : Frame) (f : Fin 6) (c : Fin 9) (s : State) : Result :=
  .next (s.issue { pred := fr.pred, books := [landAt 1 [.tokens f c.val]] })

def execYTokpop (fr : Frame) (f : Fin 6) (c : Fin 9) (s : State) : Result :=
  .next (s.issue { pred := fr.pred, dev := s.regs.tokDev [(f, c.val)], toks := [(f, c.val)] })

/-! ### Gates (R130) -/

/-- The gates that the phase of a core declares. -/
def State.gateDecls (s : State) (c : Fin 96) : List GateDecl :=
  match (s.part (s.partOf c)).job.bind Job.entry with
  | some e => e.gates
  | none => []

/-- A registration replaces one of the same gate. -/
def putGate (g : GateReg) : List GateReg → List GateReg
  | [] => [g]
  | x :: xs => if x.sem = g.sem ∧ x.n = g.n then g :: xs else x :: putGate g xs

/-- Whether a registration finds room: at most 8 (R130). -/
def gateFull (gs : List GateReg) (g : GateReg) : Bool :=
  decide (8 ≤ gs.length) && !(gs.any fun x => x.sem == g.sem && x.n == g.n)

/-- The registrations of the core of the slot replaced. -/
def State.setGates (s : State) (gs : List GateReg) : State :=
  let c := s.slot.core
  let co := s.core c
  s.setCore c { co with regs := { co.regs with gates := gs } }

/-- A registration, at the word's issue tick. Whether there is room for a ninth is a data check, judged of a word that is predicated
on and after the poison of sA (R130; assumption 117). -/
def State.register (s : State) (fr : Frame) (dec : Option Trap) (pre : Option Trap) (g : GateReg) : Result :=
  let gs := s.regs.gates
  let plan : Plan := {
    pred := fr.pred
    dec := dec
    on := guardAll [pre, failIf (gateFull gs g) ⟨0x03, 0x200 + g.n, 0, 0⟩] [] }
  .next (s.issueThen plan fun t => t.setGates (putGate g gs))

def execYGate (fr : Frame) (g : Fin 64) (src : Option (Fin 32)) (s : State) : Result :=
  let dec := failIf (decide ((s.gateDecls s.slot.core).length ≤ g.val)) ⟨0x03, 0x200 + g.val, 0, 0⟩
  match src with
  | none => s.register fr dec none ⟨false, g.val, none⟩
  | some a => s.register fr dec (needS (s.regs.getS a)) ⟨false, g.val, some ((s.regs.getS a).getD 0)⟩

def execYGatesem (fr : Frame) (n : Fin 32) (v : BitVec 16) (s : State) : Result :=
  s.register fr none none ⟨true, n.val, some (v.setWidth 64)⟩

def execYGateclr (fr : Frame) (g : GateSel) (s : State) : Result :=
  let gs := s.regs.gates
  .next (s.issueThen { pred := fr.pred } fun t => t.setGates (match g with
    | .all => []
    | .signal i => gs.filter fun x => x.sem || x.n != i.val
    | .sem n => gs.filter fun x => !x.sem || x.n != n.val))

/-! ### Fence, export, trap, breakpoint, stamp (R132 to R136) -/

/-- Y_FENCE (R132): later untimetabled operations of the core wait for the earlier ones that are not yet acknowledged. -/
def execYFence (_w : Fin 16) (sc : Scope) (s : State) : Result :=
  .next (s.issueThen {} fun t =>
    let c := t.slot.core
    let co := t.core c
    t.setCore c { co with fences := co.fences ++ (co.outb.filter fun o => o.st != .acked).map fun o => (o.id, sc) })

/-- The value that `y.export` writes into `ctl.size` (R133). -/
def exportSize (v : W64) : W64 := BitVec.ofNat 64 (min v.toNat 0xFFFFFFFF)

def execYExport (fr : Frame) (e : ExportOp) (s : State) : Result :=
  let r := s.regs
  let sz (a : Fin 32) : List Due := [landAt 1 [.setCtl .size .write (exportSize ((r.getS a).getD 0))]]
  let se (b : Fin 32) : List Due := [landAt 1 [.setCtl .sel .write ((r.getS b).getD 0)]]
  let on := match e with
    | .size a => guardAll [needS (r.getS a)] (sz a)
    | .sel b => guardAll [needS (r.getS b)] (se b)
    | .both a b => guardAll [needS (r.getS a), needS (r.getS b)] (sz a ++ se b)
  .next (s.issue { pred := fr.pred, on := on })

/-- Y_TRAP (R134): the user trap, precise at the word. -/
def execYTrap (fr : Frame) (v : BitVec 24) (s : State) : Result :=
  .next (s.issue { pred := fr.pred, on := .error ⟨0x3C, v.toNat, 0, 0⟩ })

/-- Y_BRK (R135, R369): no effect unless breakpoints are open for the partition; then the partition stops here, unless
this is the position from which it continues. -/
def execYBrk (fr : Frame) (v : BitVec 24) (s : State) : Result :=
  let c := s.slot.core
  let part := s.part (s.partOf c)
  let plan : Plan := { pred := fr.pred }
  let here := (c.val, Eng.Y, (s.core c).retired[(1 : Fin 8)])
  if s.runs plan && part.dbgOn.getLsbD 0 && part.skipBrk != some here && part.reexec.isNone then
    let t := s.debugFreeze c .Y
    .next (t.setCore c { t.core c with brk := some v.toNat })
  else .next (s.issue plan)

/-- The record of `y.stamp` (R136). -/
def State.stampRec (s : State) (v : BitVec 24) : List Byte :=
  let c := s.slot.core
  let start := (((s.part (s.partOf c)).job).map (·.start)).getD s.now
  leBytes 4 (s.core c).regs.ctl.phase.toNat ++ [BitVec.ofNat 8 c.val, 0, 0, 0] ++ leBytes 4 (s.slot.tick % 2 ^ 20)
    ++ leBytes 3 v.toNat ++ [0] ++ leBytes 8 (s.now - start) ++ List.replicate 8 0

/-- Y_STAMP (R136): the record joins the ring of 256; the oldest gives way. -/
def execYStamp (fr : Frame) (v : BitVec 24) (s : State) : Result :=
  let r := s.stampRec v
  .next (s.issueThen { pred := fr.pred } fun t =>
    let c := t.slot.core
    let co := t.core c
    let full := if co.stamps.length ≥ 256 then 1 else 0
    t.setCore c { co with stamps := (r :: co.stamps).take 256, stampOver := (co.stampOver + full) % 2 ^ 32 })

end Sys2Proof.Machine
end

