-- ==== Sys2Proof/Machine/Dispatch.lean ====
section
/-! DEFINITION. One arm per constructor of `Instr`: a direct call of its meaning. -/

namespace Sys2Proof.Machine

/-- The meaning of an instruction in a state. -/
def exec (i : Instr) (s : State) : Host.Outcome State Fault Refusal :=
  match i with
  | .sNop w idle => Sys2Proof.Machine.execSNop w idle s
  | .sAdd fr d a b => Sys2Proof.Machine.execSAdd fr d a b s
  | .sSub fr d a b => Sys2Proof.Machine.execSSub fr d a b s
  | .sMul fr d a b => Sys2Proof.Machine.execSMul fr d a b s
  | .sMulh fr d a b => Sys2Proof.Machine.execSMulh fr d a b s
  | .sMulhu fr d a b => Sys2Proof.Machine.execSMulhu fr d a b s
  | .sDiv fr d a b => Sys2Proof.Machine.execSDiv fr d a b s
  | .sDivu fr d a b => Sys2Proof.Machine.execSDivu fr d a b s
  | .sRem fr d a b => Sys2Proof.Machine.execSRem fr d a b s
  | .sRemu fr d a b => Sys2Proof.Machine.execSRemu fr d a b s
  | .sAnd fr d a b => Sys2Proof.Machine.execSAnd fr d a b s
  | .sOr fr d a b => Sys2Proof.Machine.execSOr fr d a b s
  | .sXor fr d a b => Sys2Proof.Machine.execSXor fr d a b s
  | .sShl fr d a b => Sys2Proof.Machine.execSShl fr d a b s
  | .sShr fr d a b => Sys2Proof.Machine.execSShr fr d a b s
  | .sSar fr d a b => Sys2Proof.Machine.execSSar fr d a b s
  | .sMin fr d a b => Sys2Proof.Machine.execSMin fr d a b s
  | .sMax fr d a b => Sys2Proof.Machine.execSMax fr d a b s
  | .sMinu fr d a b => Sys2Proof.Machine.execSMinu fr d a b s
  | .sMaxu fr d a b => Sys2Proof.Machine.execSMaxu fr d a b s
  | .sClz fr d a => Sys2Proof.Machine.execSClz fr d a s
  | .sPopc fr d a => Sys2Proof.Machine.execSPopc fr d a s
  | .sAddi fr d a imm => Sys2Proof.Machine.execSAddi fr d a imm s
  | .sAndi fr d a imm => Sys2Proof.Machine.execSAndi fr d a imm s
  | .sOri fr d a imm => Sys2Proof.Machine.execSOri fr d a imm s
  | .sXori fr d a imm => Sys2Proof.Machine.execSXori fr d a imm s
  | .sShli fr d a imm => Sys2Proof.Machine.execSShli fr d a imm s
  | .sShri fr d a imm => Sys2Proof.Machine.execSShri fr d a imm s
  | .sSari fr d a imm => Sys2Proof.Machine.execSSari fr d a imm s
  | .sMuli fr d a imm => Sys2Proof.Machine.execSMuli fr d a imm s
  | .sLi fr d imm => Sys2Proof.Machine.execSLi fr d imm s
  | .sLih fr d imm => Sys2Proof.Machine.execSLih fr d imm s
  | .sCmp fr pd cc a b => Sys2Proof.Machine.execSCmp fr pd cc a b s
  | .sCmpi fr pd cc a imm => Sys2Proof.Machine.execSCmpi fr pd cc a imm s
  | .sPand fr pd pa pb => Sys2Proof.Machine.execSPand fr pd pa pb s
  | .sPor fr pd pa pb => Sys2Proof.Machine.execSPor fr pd pa pb s
  | .sPxor fr pd pa pb => Sys2Proof.Machine.execSPxor fr pd pa pb s
  | .sPnot fr pd pa => Sys2Proof.Machine.execSPnot fr pd pa s
  | .sAddF64 fr d a b => Sys2Proof.Machine.execSAddF64 fr d a b s
  | .sSubF64 fr d a b => Sys2Proof.Machine.execSSubF64 fr d a b s
  | .sMulF64 fr d a b => Sys2Proof.Machine.execSMulF64 fr d a b s
  | .sDivF64 fr d a b => Sys2Proof.Machine.execSDivF64 fr d a b s
  | .sFmaF64 fr d a b => Sys2Proof.Machine.execSFmaF64 fr d a b s
  | .sSqrtF64 fr d a => Sys2Proof.Machine.execSSqrtF64 fr d a s
  | .sMinF64 fr d a b => Sys2Proof.Machine.execSMinF64 fr d a b s
  | .sMaxF64 fr d a b => Sys2Proof.Machine.execSMaxF64 fr d a b s
  | .sCmpF64 fr pd cc a b => Sys2Proof.Machine.execSCmpF64 fr pd cc a b s
  | .sCvtF64S64 fr d a => Sys2Proof.Machine.execSCvtF64S64 fr d a s
  | .sCvtS64F64 fr d a => Sys2Proof.Machine.execSCvtS64F64 fr d a s
  | .sClassF64 fr d a => Sys2Proof.Machine.execSClassF64 fr d a s
  | .sLd fr d a off sz sx => Sys2Proof.Machine.execSLd fr d a off sz sx s
  | .sSt fr d a off sz => Sys2Proof.Machine.execSSt fr d a off sz s
  | .sLdm fr d a off sz sx land => Sys2Proof.Machine.execSLdm fr d a off sz sx land s
  | .sStm fr d a off sz land => Sys2Proof.Machine.execSStm fr d a off sz land s
  | .sLoop w depth trip words => Sys2Proof.Machine.execSLoop w depth trip words s
  | .sRdctl fr d src => Sys2Proof.Machine.execSRdctl fr d src s
  | .sWrctl fr r m a => Sys2Proof.Machine.execSWrctl fr r m a s
  | .sRda fr d n f => Sys2Proof.Machine.execSRda fr d n f s
  | .sWra fr n f a => Sys2Proof.Machine.execSWra fr n f a s
  | .sRdq fr d n hi => Sys2Proof.Machine.execSRdq fr d n hi s
  | .sWrq fr n hi a => Sys2Proof.Machine.execSWrq fr n hi a s
  | .sRdk fr d n gen => Sys2Proof.Machine.execSRdk fr d n gen s
  | .sWrk fr n a => Sys2Proof.Machine.execSWrk fr n a s
  | .sRnd fr d q pair => Sys2Proof.Machine.execSRnd fr d q pair s
  | .yNop w idle => Sys2Proof.Machine.execYNop w idle s
  | .yRdv w => Sys2Proof.Machine.execYRdv w s
  | .ySeminit fr n v => Sys2Proof.Machine.execYSeminit fr n v s
  | .ySemclr fr a => Sys2Proof.Machine.execYSemclr fr a s
  | .yTokpush fr f c => Sys2Proof.Machine.execYTokpush fr f c s
  | .yTokpop fr f c => Sys2Proof.Machine.execYTokpop fr f c s
  | .yGate fr g src => Sys2Proof.Machine.execYGate fr g src s
  | .yGatesem fr n v => Sys2Proof.Machine.execYGatesem fr n v s
  | .yGateclr fr g => Sys2Proof.Machine.execYGateclr fr g s
  | .yFence w sc => Sys2Proof.Machine.execYFence w sc s
  | .yExport fr e => Sys2Proof.Machine.execYExport fr e s
  | .yTrap fr v => Sys2Proof.Machine.execYTrap fr v s
  | .yBrk fr v => Sys2Proof.Machine.execYBrk fr v s
  | .yStamp fr v => Sys2Proof.Machine.execYStamp fr v s
  | .mNop w tok idle => Sys2Proof.Machine.execMNop w tok idle s
  | .mWld fr tok qa qb s5 => Sys2Proof.Machine.execMWld fr tok qa qb s5 s
  | .mSwap fr tok => Sys2Proof.Machine.execMSwap fr tok s
  | .mMacS9 fr tok qa qb l rows dm init peek => Sys2Proof.Machine.execMMacS9 fr tok qa qb l rows dm init peek s
  | .mMacS5 fr tok qa qb l rows dm init peek => Sys2Proof.Machine.execMMacS5 fr tok qa qb l rows dm init peek s
  | .mSpmacS9 fr tok qa qb l rows dm init => Sys2Proof.Machine.execMSpmacS9 fr tok qa qb l rows dm init s
  | .mShape fr tok mask => Sys2Proof.Machine.execMShape fr tok mask s
  | .mWake fr tok mask => Sys2Proof.Machine.execMWake fr tok mask s
  | .mSleep fr tok mask => Sys2Proof.Machine.execMSleep fr tok mask s
  | .mFeed fr tok src => Sys2Proof.Machine.execMFeed fr tok src s
  | .mXbase fr tok imm => Sys2Proof.Machine.execMXbase fr tok imm s
  | .vNop w idle => Sys2Proof.Machine.execVNop w idle s
  | .vAdd fr ty d a b => Sys2Proof.Machine.execVAdd fr ty d a b s
  | .vSub fr ty d a b => Sys2Proof.Machine.execVSub fr ty d a b s
  | .vMul fr ty d a b => Sys2Proof.Machine.execVMul fr ty d a b s
  | .vFma fr ty d a b => Sys2Proof.Machine.execVFma fr ty d a b s
  | .vFms fr ty d a b => Sys2Proof.Machine.execVFms fr ty d a b s
  | .vMin fr ty d a b => Sys2Proof.Machine.execVMin fr ty d a b s
  | .vMax fr ty d a b => Sys2Proof.Machine.execVMax fr ty d a b s
  | .vAnd fr ty d a b => Sys2Proof.Machine.execVAnd fr ty d a b s
  | .vOr fr ty d a b => Sys2Proof.Machine.execVOr fr ty d a b s
  | .vXor fr ty d a b => Sys2Proof.Machine.execVXor fr ty d a b s
  | .vDiv fr ty d a b => Sys2Proof.Machine.execVDiv fr ty d a b s
  | .vAbs fr ty d a mk => Sys2Proof.Machine.execVAbs fr ty d a mk s
  | .vNeg fr ty d a mk => Sys2Proof.Machine.execVNeg fr ty d a mk s
  | .vNot fr ty d a mk => Sys2Proof.Machine.execVNot fr ty d a mk s
  | .vMov fr ty d a mk => Sys2Proof.Machine.execVMov fr ty d a mk s
  | .vShl fr ty d a sA n mk => Sys2Proof.Machine.execVShl fr ty d a sA n mk s
  | .vShr fr ty d a sA n mk => Sys2Proof.Machine.execVShr fr ty d a sA n mk s
  | .vSar fr ty d a sA n mk => Sys2Proof.Machine.execVSar fr ty d a sA n mk s
  | .vRshr fr ty d a sA n mk => Sys2Proof.Machine.execVRshr fr ty d a sA n mk s
  | .vCmp fr ty cc vmE a b mk => Sys2Proof.Machine.execVCmp fr ty cc vmE a b mk s
  | .vSel fr ty d a sA vm => Sys2Proof.Machine.execVSel fr ty d a sA vm s
  | .vBcast fr ty d a sA k mk => Sys2Proof.Machine.execVBcast fr ty d a sA k mk s
  | .vCvt fr dt st d a mk => Sys2Proof.Machine.execVCvt fr dt st d a mk s
  | .vCvte fr ty h16 toH16 hi d a mk => Sys2Proof.Machine.execVCvte fr ty h16 toH16 hi d a mk s
  | .vSliceF64 fr q a sA => Sys2Proof.Machine.execVSliceF64 fr q a sA s
  | .vScale fr ty d a sA n mk => Sys2Proof.Machine.execVScale fr ty d a sA n mk s
  | .vCvtx fr ty toX d a sA mk => Sys2Proof.Machine.execVCvtx fr ty toX d a sA mk s
  | .vNarrow fr ty l q fmt k blk free rnd mk => Sys2Proof.Machine.execVNarrow fr ty l q fmt k blk free rnd mk s
  | .vRot fr ty l tagq k blk inv rnd => Sys2Proof.Machine.execVRot fr ty l tagq k blk inv rnd s
  | .vPop fr ty l q mk => Sys2Proof.Machine.execVPop fr ty l q mk s
  | .vPush fr ty l q mk => Sys2Proof.Machine.execVPush fr ty l q mk s
  | .vExp2 fr d a mk => Sys2Proof.Machine.execVExp2 fr d a mk s
  | .vLog2 fr d a mk => Sys2Proof.Machine.execVLog2 fr d a mk s
  | .vRecip fr d a mk => Sys2Proof.Machine.execVRecip fr d a mk s
  | .vRsqrt fr d a mk => Sys2Proof.Machine.execVRsqrt fr d a mk s
  | .vSqrt fr ty d a mk => Sys2Proof.Machine.execVSqrt fr ty d a mk s
  | .vSinpi fr d a mk => Sys2Proof.Machine.execVSinpi fr d a mk s
  | .vCospi fr d a mk => Sys2Proof.Machine.execVCospi fr d a mk s
  | .vLd fr ty l x off mk => Sys2Proof.Machine.execVLd fr ty l x off mk s
  | .vSt fr ty l x off mk => Sys2Proof.Machine.execVSt fr ty l x off mk s
  | .vGather fr ty l x off mk => Sys2Proof.Machine.execVGather fr ty l x off mk s
  | .vScatter fr ty l x off mk => Sys2Proof.Machine.execVScatter fr ty l x off mk s
  | .vBset fr ty l x off mk => Sys2Proof.Machine.execVBset fr ty l x off mk s
  | .vBtest fr ty l x off mk => Sys2Proof.Machine.execVBtest fr ty l x off mk s
  | .vPerm fr ty p d a mk => Sys2Proof.Machine.execVPerm fr ty p d a mk s
  | .vLshift fr ty d a sA k mk => Sys2Proof.Machine.execVLshift fr ty d a sA k mk s
  | .vLrot fr ty d a sA k mk => Sys2Proof.Machine.execVLrot fr ty d a sA k mk s
  | .vMatch fr pe part pat win sA mk => Sys2Proof.Machine.execVMatch fr pe part pat win sA mk s
  | .vRndfill fr ty d q mk => Sys2Proof.Machine.execVRndfill fr ty d q mk s
  | .vRsum fr ty d a g mk => Sys2Proof.Machine.execVRsum fr ty d a g mk s
  | .vRmax fr ty d a g mk => Sys2Proof.Machine.execVRmax fr ty d a g mk s
  | .vRmin fr ty d a g mk => Sys2Proof.Machine.execVRmin fr ty d a g mk s
  | .vScan fr ty d a g mk => Sys2Proof.Machine.execVScan fr ty d a g mk s
  | .vArgmax fr ty d a g mk => Sys2Proof.Machine.execVArgmax fr ty d a g mk s
  | .vArgmin fr ty d a g mk => Sys2Proof.Machine.execVArgmin fr ty d a g mk s
  | .vMand fr d a b => Sys2Proof.Machine.execVMand fr d a b s
  | .vMor fr d a b => Sys2Proof.Machine.execVMor fr d a b s
  | .vMxor fr d a b => Sys2Proof.Machine.execVMxor fr d a b s
  | .vMnot fr d a => Sys2Proof.Machine.execVMnot fr d a s
  | .vMset fr d sA => Sys2Proof.Machine.execVMset fr d sA s
  | .vMcount fr pd a cc sA => Sys2Proof.Machine.execVMcount fr pd a cc sA s
  | .lNop w tok idle => Sys2Proof.Machine.execLNop w tok idle s
  | .lTile fr tok wb x sA desc land => Sys2Proof.Machine.execLTile fr tok wb x sA desc land s
  | .lHalo fr tok pad x sA desc land => Sys2Proof.Machine.execLHalo fr tok pad x sA desc land s
  | .lNarrow fr tok k q sA desc land => Sys2Proof.Machine.execLNarrow fr tok k q sA desc land s
  | .lCsr fr tok q x sA desc land => Sys2Proof.Machine.execLCsr fr tok q x sA desc land s
  | .lGather fr tok x sA desc land => Sys2Proof.Machine.execLGather fr tok x sA desc land s
  | .lRow fr tok ty tile x sA desc land => Sys2Proof.Machine.execLRow fr tok ty tile x sA desc land s
  | .lRing fr tok q sA desc land => Sys2Proof.Machine.execLRing fr tok q sA desc land s
  | .wNop w tok idle => Sys2Proof.Machine.execWNop w tok idle s
  | .wTile fr tok src sA desc land => Sys2Proof.Machine.execWTile fr tok src sA desc land s
  | .wAcc fr tok op x sA desc land => Sys2Proof.Machine.execWAcc fr tok op x sA desc land s
  | .wAmo fr tok op ty sc rel sA v c => Sys2Proof.Machine.execWAmo fr tok op ty sc rel sA v c s
  | .wSig fr tok op sc rel sA v => Sys2Proof.Machine.execWSig fr tok op sc rel sA v s
  | .wFilt fr tok bf16 x sA desc land => Sys2Proof.Machine.execWFilt fr tok bf16 x sA desc land s
  | .wRow fr tok ty tile x sA desc land => Sys2Proof.Machine.execWRow fr tok ty tile x sA desc land s
  | .xNop w idle => Sys2Proof.Machine.execXNop w idle s
  | .xSend fr path src desc land => Sys2Proof.Machine.execXSend fr path src desc land s
  | .xRecv fr path dst desc => Sys2Proof.Machine.execXRecv fr path dst desc s
  | .xRed fr path op x desc => Sys2Proof.Machine.execXRed fr path op x desc s
  | .xPut fr sem x sA desc => Sys2Proof.Machine.execXPut fr sem x sA desc s
  | .xSig fr op sA desc => Sys2Proof.Machine.execXSig fr op sA desc s
  | .xAlign fr path x => Sys2Proof.Machine.execXAlign fr path x s
  | .xFwd fr path desc land => Sys2Proof.Machine.execXFwd fr path desc land s
  | .gNop w idle => Sys2Proof.Machine.execGNop w idle s
  | .gBind fr c sA => Sys2Proof.Machine.execGBind fr c sA s
  | .gStep fr c src ls => Sys2Proof.Machine.execGStep fr c src ls s
  | .gMask fr c x v lm => Sys2Proof.Machine.execGMask fr c x v lm s
  | .gFork fr e c => Sys2Proof.Machine.execGFork fr e c s
  | .gMark fr c => Sys2Proof.Machine.execGMark fr c s
  | .gRollback fr c => Sys2Proof.Machine.execGRollback fr c s
  | .gCommit fr c => Sys2Proof.Machine.execGCommit fr c s
  | .gFree fr c => Sys2Proof.Machine.execGFree fr c s
  | .gSave fr c x move => Sys2Proof.Machine.execGSave fr c x move s
  | .gRestore fr c x copy => Sys2Proof.Machine.execGRestore fr c x copy s
  | .gState fr c x => Sys2Proof.Machine.execGState fr c x s
  | .resultLand => Sys2Proof.Machine.execResultLand s
  | .elasticStall => Sys2Proof.Machine.execElasticStall s
  | .macRowEntry => Sys2Proof.Machine.execMacRowEntry s
  | .drainWrite => Sys2Proof.Machine.execDrainWrite s
  | .bandWakeComplete => Sys2Proof.Machine.execBandWakeComplete s
  | .lBeatLand => Sys2Proof.Machine.execLBeatLand s
  | .wBeatHomeWrite => Sys2Proof.Machine.execWBeatHomeWrite s
  | .linkBeatDelivery => Sys2Proof.Machine.execLinkBeatDelivery s
  | .filterRecordLanding => Sys2Proof.Machine.execFilterRecordLanding s
  | .loopExit => Sys2Proof.Machine.execLoopExit s
  | .untimetabledWritePerformed core op => Sys2Proof.Machine.execUntimetabledWritePerformed core op s
  | .acknowledgement core op => Sys2Proof.Machine.execAcknowledgement core op s
  | .putCompletion core op => Sys2Proof.Machine.execPutCompletion core op s
  | .xsigTranslation core op => Sys2Proof.Machine.execXsigTranslation core op s
  | .inboundWrite src pa data poisoned => Sys2Proof.Machine.execInboundWrite src pa data poisoned s
  | .inboundRead src pa n => Sys2Proof.Machine.execInboundRead src pa n s
  | .writeNotification home => Sys2Proof.Machine.execWriteNotification home s
  | .lastSignOff p => Sys2Proof.Machine.execLastSignOff p s
  | .replayMarkExchange p marked => Sys2Proof.Machine.execReplayMarkExchange p marked s
  | .gateEvaluation p => Sys2Proof.Machine.execGateEvaluation p s
  | .alignmentReadiness p rank pidx infl cadence => Sys2Proof.Machine.execAlignmentReadiness p rank pidx infl cadence s
  | .startWave p cadence hops => Sys2Proof.Machine.execStartWave p cadence hops s
  | .phaseStart p => Sys2Proof.Machine.execPhaseStart p s
  | .refreshSlot p => Sys2Proof.Machine.execRefreshSlot p s
  | .gateWatchdogExpiry p => Sys2Proof.Machine.execGateWatchdogExpiry p s
  | .sequencerProgress p => Sys2Proof.Machine.execSequencerProgress p s
  | .heartbeatCheck p => Sys2Proof.Machine.execHeartbeatCheck p s
  | .abortMessage p => Sys2Proof.Machine.execAbortMessage p s
  | .faultCapture p => Sys2Proof.Machine.execFaultCapture p s
  | .uncorrectableError u core addr => Sys2Proof.Machine.execUncorrectableError u core addr s
  | .correctedError u core addr => Sys2Proof.Machine.execCorrectedError u core addr s
  | .abandon p => Sys2Proof.Machine.execAbandon p s
  | .retry p => Sys2Proof.Machine.execRetry p s
  | .replay p => Sys2Proof.Machine.execReplay p s
  | .dieWake die test => Sys2Proof.Machine.execDieWake die test s
  | .debugStop p => Sys2Proof.Machine.execDebugStop p s
  | .landingBufferArrival core beat => Sys2Proof.Machine.execLandingBufferArrival core beat s
  | .registerWrite fn off v => Sys2Proof.Machine.execRegisterWrite fn off v s
  | .modeWrite v => Sys2Proof.Machine.execModeWrite v s
  | .rngKeyWrite p word v => Sys2Proof.Machine.execRngKeyWrite p word v s
  | .tktValWrite p v => Sys2Proof.Machine.execTktValWrite p v s
  | .winErrClear p => Sys2Proof.Machine.execWinErrClear p s
  | .hostApertureWrite fn off data poisoned => Sys2Proof.Machine.execHostApertureWrite fn off data poisoned s
  | .hostApertureRead fn off n => Sys2Proof.Machine.execHostApertureRead fn off n s
  | .hostAbWrite fn off data poisoned => Sys2Proof.Machine.execHostAbWrite fn off data poisoned s
  | .hostAbRead fn off n => Sys2Proof.Machine.execHostAbRead fn off n s
  | .doorbell p q tail => Sys2Proof.Machine.execDoorbell p q tail s
  | .queueEnable p q on => Sys2Proof.Machine.execQueueEnable p q on s
  | .queueResume p q on => Sys2Proof.Machine.execQueueResume p q on s
  | .queueSkip p q on => Sys2Proof.Machine.execQueueSkip p q on s
  | .recordFetch p q => Sys2Proof.Machine.execRecordFetch p q s
  | .launchGateEvaluation p q => Sys2Proof.Machine.execLaunchGateEvaluation p q s
  | .launchStart p => Sys2Proof.Machine.execLaunchStart p s
  | .jobCompletion p job => Sys2Proof.Machine.execJobCompletion p job s
  | .completionSignalPerformed p job => Sys2Proof.Machine.execCompletionSignalPerformed p job s
  | .preemptRequest p => Sys2Proof.Machine.execPreemptRequest p s
  | .preemptResume p => Sys2Proof.Machine.execPreemptResume p s
  | .dumpComplete p => Sys2Proof.Machine.execDumpComplete p s
  | .decodeService p items svo vb => Sys2Proof.Machine.execDecodeService p items svo vb s
  | .ccntClear p => Sys2Proof.Machine.execCcntClear p s
  | .invalidateOne p => Sys2Proof.Machine.execInvalidateOne p s
  | .invalidateAll p => Sys2Proof.Machine.execInvalidateAll p s
  | .dumpStart p => Sys2Proof.Machine.execDumpStart p s
  | .powerGood => Sys2Proof.Machine.execPowerGood s
  | .startupDone => Sys2Proof.Machine.execStartupDone s
  | .recGo => Sys2Proof.Machine.execRecGo s
  | .getVersion => Sys2Proof.Machine.execGetVersion s
  | .getCapabilities => Sys2Proof.Machine.execGetCapabilities s
  | .negotiateAlgorithms => Sys2Proof.Machine.execNegotiateAlgorithms s
  | .getDigests => Sys2Proof.Machine.execGetDigests s
  | .getCertificate req => Sys2Proof.Machine.execGetCertificate req s
  | .challenge req => Sys2Proof.Machine.execChallenge req s
  | .getMeasurements index sign => Sys2Proof.Machine.execGetMeasurements index sign s
  | .spdmUnsupportedRequest code => Sys2Proof.Machine.execSpdmUnsupportedRequest code s
  | .dbgGo => Sys2Proof.Machine.execDbgGo s
  | .dstop p => Sys2Proof.Machine.execDstop p s
  | .dcont p => Sys2Proof.Machine.execDcont p s
  | .bypass => Sys2Proof.Machine.execBypass s
  | .idcode => Sys2Proof.Machine.execIdcode s
  | .sample => Sys2Proof.Machine.execSample s
  | .preload => Sys2Proof.Machine.execPreload s
  | .extest => Sys2Proof.Machine.execExtest s
  | .clamp => Sys2Proof.Machine.execClamp s
  | .highz => Sys2Proof.Machine.execHighz s
  | .getpdr record => Sys2Proof.Machine.execGetpdr record s
  | .getsensorreading id => Sys2Proof.Machine.execGetsensorreading id s
  | .getnumericeffectervalue id => Sys2Proof.Machine.execGetnumericeffectervalue id s
  | .setnumericeffectervalue id v => Sys2Proof.Machine.execSetnumericeffectervalue id v s
  | .pollforplatformeventmessage => Sys2Proof.Machine.execPollforplatformeventmessage s
  | .powerSample watts milli => Sys2Proof.Machine.execPowerSample watts milli s
  | .thermalPoll core base => Sys2Proof.Machine.execThermalPoll core base s
  | .hbmTempRead codes => Sys2Proof.Machine.execHbmTempRead codes s
  | .undervoltStep => Sys2Proof.Machine.execUndervoltStep s
  | .uvEnWrite v => Sys2Proof.Machine.execUvEnWrite v s
  | .firmwareHeartbeat => Sys2Proof.Machine.execFirmwareHeartbeat s
  | .heartbeatLoss => Sys2Proof.Machine.execHeartbeatLoss s
  | .flashCopy => Sys2Proof.Machine.execFlashCopy s
  | .sedimentSelect v => Sys2Proof.Machine.execSedimentSelect v s
  | .telemetrySelect v => Sys2Proof.Machine.execTelemetrySelect v s
  | .pcieConfigRequest => Sys2Proof.Machine.execPcieConfigRequest s
  | .pldmBaseRequest req => Sys2Proof.Machine.execPldmBaseRequest req s
  | .pldmUnsupportedRequest ty cmd => Sys2Proof.Machine.execPldmUnsupportedRequest ty cmd s
  | .mctpControlMessage req => Sys2Proof.Machine.execMctpControlMessage req s
  | .lifeCycleFuse state token => Sys2Proof.Machine.execLifeCycleFuse state token s
  | .linkRetrain port => Sys2Proof.Machine.execLinkRetrain port s
  | .linkCorrectedBlocks port count => Sys2Proof.Machine.execLinkCorrectedBlocks port count s

end Sys2Proof.Machine
end

