-- ==== Sys2Proof/Machine/Step.lean ====
section
/-! DEFINITION. One step: what is due next, and its meaning; and how an instruction is put where the next step runs it. -/

namespace Sys2Proof.Machine

/-- One step of the machine. -/
def step (s : State) : Host.Outcome State Fault Refusal :=
  match s.todo with
  | .run i t => exec i t
  | .go t => .next t
  | .dead => .fault .noPower

/-- The state with one word where the next step issues it: partition 0 runs a phase (R9), core 0 has a clause and stands
at its clause tick 0 (R11), and the word, due now, is the head of the queue of its engine (R14). It stands for the load of
a program from outside the machine. -/
def State.withFetchWord (s : State) (nbits w : Nat) : State :=
  let word : W64 := BitVec.ofNat 64 (w % 2 ^ nbits)
  let e : Fin 8 := Fin.ofNat 8 (fld word.toNat 63 61)
  let c := s.core 0
  let core := { c with
    queues := (Vector.replicate 8 []).set e [⟨0, word, 0⟩]
    takes := true
    signed := false
    halted := false
    stalled := none
    pend := []
    lag := 0
    rdv := 1048575 }
  let part := { s.part 0 with seq := .phase, k := 16, base := s.now, abort := none }
  { (s.setCore 0 core).setPart 0 part with agenda := s.agenda.map fun e => { e with cycle := max e.cycle s.now } }

end Sys2Proof.Machine
end

