-- ==== Sys2Proof/Safety.lean ====
section
/-! DEFINITION. The terms in which statements speak of the machine: runs, the form of the memories, the conditions under
which a word issues, and what it leaves behind. -/

namespace Sys2Proof.Machine

/-! ### Runs -/

/-- One step leads from a state to another. -/
def Steps (s t : State) : Prop := step s = .next t

/-- Some steps lead from a state to another. -/
inductive Reaches : State → State → Prop where
  | refl (s : State) : Reaches s s
  | tail {s t u : State} : Reaches s t → Steps t u → Reaches s u

/-- A safe run: the machine never stops, which it does only without power. -/
def Safe (s : State) : Prop := ∀ t, Reaches s t → ∃ u, Steps t u

/-! ### The form of the memories -/

/-- The memories of a core, and the MRF of its banked context, are in canonical form. -/
def Core.memWf (c : Core) : Bool :=
  c.ab.wf && c.wb.wf && c.sdm.wf && c.sdm0.wf && mapSorted c.mrf && c.bank.all fun x => mapSorted x.mrf

/-- The memories of the machine are, and those of the core that is kept for a precise trap. -/
def State.memWf (s : State) : Bool :=
  s.hbm.wf && mapSorted s.host && mapSorted s.peer && s.cores.toList.all Core.memWf && s.undo.all fun u => u.2.memWf

/-! ### When a word issues (R42, R46, R64, R108, R297) -/

/-- The predicate register is not poisoned and true. -/
def State.predOn (s : State) (p : Fin 16) : Bool := (s.regs.getP p).val && !(s.regs.getP p).mark

/-- It is not poisoned and false. -/
def State.predOff (s : State) (p : Fin 16) : Bool := !(s.regs.getP p).val && !(s.regs.getP p).mark

/-- No earlier requester of the tick that has a bank or port of these makes a word deviate: they are different, or the one served
later waits in elastic mode (R297). -/
def State.banksFree (s : State) (rs : List Nat) : Bool :=
  (s.core s.slot.core).claims.all fun k => !rs.contains k.res || (loserOf s.src k).isNone

/-- The last landing, `span` ticks after the issue, is no later than the rendezvous (R46); 0 is not judged. -/
def State.inTime (s : State) (span : Nat) : Bool :=
  span == 0 || decide (s.slot.tick + span ≤ (s.core s.slot.core).rdv)

/-- The state in which the word of the slot has issued: it has popped tokens, taken banks, and left `ds` pending. -/
def State.issued (s : State) (toks : List (Fin 6 × Nat)) (banks : List Nat) (ds : List Due) : State :=
  s.commit { toks := toks, banks := banks } ds

/-- The checks of a word up to the scoreboard pass, it is in time, its banks are free, and its predicate is true. -/
def State.ready (s : State) (pred : Fin 16) (dec : List (Option Trap)) (span : Nat) (dev : List (Option (Trap × Bool)))
    (banks : List Nat) : Prop :=
  firstOf dec = none ∧ s.inTime span = true ∧ firstOf dev = none ∧ s.banksFree banks = true ∧ s.predOn pred = true

/-- A word issues with one effect at an offset and its flags there, or takes the IEEE trap that they call for (R89, R90). -/
def State.landsOrTraps (s : State) (i : Instr) (banks : List Nat) (books : List Due) (lat : Nat) (e : Effect) (f : Flags)
    (snan : Bool) : Prop :=
  (ieeeTrap s.regs.ctl.ftrap f snan = none → exec i s = .next (s.issued [] banks (books ++ landAt lat [e] :: flagsAt lat f)))
  ∧ (∀ t, ieeeTrap s.regs.ctl.ftrap f snan = some t → exec i s = .next (s.trap t))

/-- The same for a word that writes the elements `vs` of a line. -/
def State.writesLine (s : State) (i : Instr) (banks : List Nat) (books : List Due) (ty : VTy) (d : Line) (lat : Nat)
    (vs : List (Option (Option Elem))) : Prop :=
  s.landsOrTraps i banks books lat (lineEffect ty (s.regs.lineAt d) (elemVals vs)) (elemFlags vs) (elemSnan vs)

/-- The state in which a load-copy word has issued: its slots, its beats, its pushes of tokens (R205). -/
def State.loadIssued (s : State) (tok : Tok) (land nb : Nat) (inc : List Due) (banks : List (Nat × List Nat))
    (beats : List LBeat) (more : List Due) : State :=
  let t := s.issued (tokPops .L tok) [] (inc ++ lSlots land banks ++ (s.lDues land beats ++ more ++ tokPushes .L tok (land + nb - 1)))
  t.addBeats false (t.readSlack land) (beats.map fun b => (b.j, land + b.j, b.homes))

/-- The checks of a store-copy word up to the scoreboard pass: reads and landings have their slots (R205). -/
def State.storeReady (s : State) (fr : Frame) (tok : Tok) (dec : List (Option Trap)) (dev : List (Option (Trap × Bool)))
    (reads : List (Nat × List Nat)) (lands : List Nat) (last : Nat) : Prop :=
  s.ready fr.pred dec last (s.regs.tokDev (tokPops .W tok) :: s.wSlotDev 53 (reads.map Prod.fst) :: s.wSlotDev 309 lands :: dev)
    (firstBanks reads)

/-- The state in which a store-copy word has issued (R205); `source` is the offset at which a beat of a number is read. -/
def State.storeIssued (s : State) (tok : Tok) (reads : List (Nat × List Nat)) (land : Nat) (lands : List Nat) (last : Nat)
    (books jobs : List Due) (beats : List (Nat × List (Home × Nat))) (source : Nat → Nat := id) : State :=
  (s.issued (tokPops .W tok) (firstBanks reads)
    (books ++ wSlots reads lands ++ (s.lateBeats beats ++ jobs ++ tokPushes .W tok last))).addBeats true (fun _ => 0)
    (beats.map fun b => (source (b.1 - land), b.1, b.2))

/-- The core of the slot is neither halted nor frozen. -/
def State.active (s : State) : Prop := (s.core s.slot.core).halted = false ∧ (s.core s.slot.core).stalled = none

/-- The core of the slot is still running. -/
def State.live (s : State) : Bool := !(s.core s.slot.core).halted

/-! ### Words that are predicated off (R42) -/

/-- A landing that only keeps the timetable's books: banks taken, heads, counts and offsets moved, tokens and entries without data
pushed. -/
def Effect.isBook : Effect → Bool
  | .incA .. | .popped .. | .tokens .. | .banks .. => true
  | .push _ entry _ => entry.isNone
  | _ => false

/-- Something pending that only keeps the books: rows, lines and beats that carry nothing are among them. -/
def Act.isBook : Act → Bool
  | .land es | .lBeat es => es.all Effect.isBook
  | .row r => !r.on
  | .wld w => !w.on
  | .read (.ring _ _ homes _) => homes.isEmpty
  | .read (.send _ _ _ _ _ _ _ _ _ on) | .read (.sendRing _ _ _ _ _ _ _ _ on) => !on
  | .link _ _ _ _ _ on => !on
  | _ => false

/-- A core after a word that is predicated off: what the word has left pending keeps the books and writes nothing; no operation, no
registration, no context and no record is made. -/
def Core.booksOnly (a b : Core) : Prop :=
  (∀ x, x ∈ b.pend → x ∈ a.pend ∨ x.act.isBook = true) ∧ b.outb = a.outb ∧ b.fences = a.fences ∧ b.regs.gates = a.regs.gates
    ∧ b.gm = a.gm ∧ b.stamps = a.stamps ∧ b.w0 = a.w0 ∧ b.w1 = a.w1 ∧ b.wact = a.wact

/-! ### Frames -/

/-- The registers that words write by landings only, and the memories of a core, are the same. -/
def Core.sameData (a b : Core) : Prop :=
  a.regs.s = b.regs.s ∧ a.regs.p = b.regs.p ∧ a.regs.a = b.regs.a ∧ a.regs.k = b.regs.k ∧ a.regs.q = b.regs.q
    ∧ a.regs.vm = b.regs.vm ∧ a.regs.sem = b.regs.sem ∧ a.regs.ctl = b.regs.ctl ∧ a.regs.feed = b.regs.feed
    ∧ a.regs.beta = b.regs.beta ∧ a.mrf = b.mrf ∧ a.ab = b.ab ∧ a.wb = b.wb ∧ a.sdm = b.sdm ∧ a.sdm0 = b.sdm0

/-- Device memory, host memory and peer memory are the same. -/
def State.sameMemory (s t : State) : Prop := s.hbm = t.hbm ∧ s.host = t.host ∧ s.peer = t.peer

end Sys2Proof.Machine
end

