-- ==== Sys2Proof/Certificates/Slice0/Obligations.lean ====
section
/-! DEFINITION. The statements for the provers. Each says in its docstring which rules of the specification it states; a
clause that rests on a choice of the model names the entry of the assumption log. A statement about a word in a state `s`
speaks of the word of the issue slot: `s.predOn` says that its predicate register is true and not poisoned, and `s.issued`
is the state in which the word has issued, with what it leaves pending. -/

open Sys2Proof Sys2Proof.Machine

/-! ### Scalar words -/

/-- R110, the SR forms: with a true predicate and two operands that are not poisoned, each word issues and leaves its result
pending at its latency (R107). -/
def Obligations.ScalarRegisterArithmetic : Prop :=
  ∀ (s : State) (fr : Frame) (d a b : Fin 32) (x y : W64),
    s.predOn fr.pred = true → s.regs.getS a = some x → s.regs.getS b = some y →
    let gives (i : Instr) (lat : Nat) (v : W64) : Prop := exec i s = .next (s.issued [] [] [landAt lat [.setS d (some v)]])
    gives (.sAdd fr d a b) 1 (x + y) ∧ gives (.sSub fr d a b) 1 (x - y) ∧ gives (.sMul fr d a b) 3 (x * y)
    ∧ gives (.sMulh fr d a b) 4 (BitVec.ofInt 64 (x.toInt * y.toInt / 2 ^ 64))
    ∧ gives (.sMulhu fr d a b) 4 (BitVec.ofNat 64 (x.toNat * y.toNat / 2 ^ 64))
    ∧ gives (.sDiv fr d a b) 18 (if y = 0 then BitVec.allOnes 64 else BitVec.ofInt 64 (x.toInt.tdiv y.toInt))
    ∧ gives (.sDivu fr d a b) 18 (if y = 0 then BitVec.allOnes 64 else BitVec.ofNat 64 (x.toNat / y.toNat))
    ∧ gives (.sRem fr d a b) 18 (if y = 0 then x else BitVec.ofInt 64 (x.toInt.tmod y.toInt))
    ∧ gives (.sRemu fr d a b) 18 (if y = 0 then x else BitVec.ofNat 64 (x.toNat % y.toNat))
    ∧ gives (.sAnd fr d a b) 1 (x &&& y) ∧ gives (.sOr fr d a b) 1 (x ||| y) ∧ gives (.sXor fr d a b) 1 (x ^^^ y)
    ∧ gives (.sShl fr d a b) 1 (x <<< (y.toNat % 64)) ∧ gives (.sShr fr d a b) 1 (x >>> (y.toNat % 64))
    ∧ gives (.sSar fr d a b) 1 (x.sshiftRight (y.toNat % 64))
    ∧ gives (.sMin fr d a b) 1 (if y.toInt < x.toInt then y else x)
    ∧ gives (.sMax fr d a b) 1 (if x.toInt < y.toInt then y else x)
    ∧ gives (.sMinu fr d a b) 1 (if y.toNat < x.toNat then y else x)
    ∧ gives (.sMaxu fr d a b) 1 (if x.toNat < y.toNat then y else x)

/-- R110 and R111, the forms with one register or an immediate. -/
def Obligations.ScalarImmediateArithmetic : Prop :=
  ∀ (s : State) (fr : Frame) (d a : Fin 32) (imm : BitVec 36) (n : Fin 64) (k : BitVec 32) (x z : W64),
    s.predOn fr.pred = true → s.regs.getS a = some x → s.regs.getS d = some z →
    let b : W64 := imm.signExtend 64
    let gives (i : Instr) (lat : Nat) (v : W64) : Prop := exec i s = .next (s.issued [] [] [landAt lat [.setS d (some v)]])
    gives (.sAddi fr d a imm) 1 (x + b) ∧ gives (.sAndi fr d a imm) 1 (x &&& b) ∧ gives (.sOri fr d a imm) 1 (x ||| b)
    ∧ gives (.sXori fr d a imm) 1 (x ^^^ b) ∧ gives (.sMuli fr d a imm) 3 (x * b)
    ∧ gives (.sShli fr d a n) 1 (x <<< n.val) ∧ gives (.sShri fr d a n) 1 (x >>> n.val)
    ∧ gives (.sSari fr d a n) 1 (x.sshiftRight n.val)
    ∧ gives (.sClz fr d a) 1 (BitVec.ofNat 64 (if x = 0 then 64 else 63 - Nat.log2 x.toNat))
    ∧ gives (.sPopc fr d a) 1 (BitVec.ofNat 64 (popCount 64 x.toNat))
    ∧ gives (.sLi fr d k) 1 (k.signExtend 64) ∧ gives (.sLih fr d k) 1 (k ++ z.setWidth 32)

/-- R108, R111, R114 and R115: a poisoned operand of a word gives a poisoned result at the word's latency, with no flag and no trap,
and the word still issues; a compare of one writes 0 with its mark (R112, R115), and `s.lih` and `s.fma.f64` read sD too. -/
def Obligations.ScalarPoisonSpreads : Prop :=
  ∀ (s : State) (fr : Frame) (d a b : Fin 32) (pd : Fin 16) (cc : Cc) (imm : BitVec 36) (k : BitVec 32) (n : Fin 64),
    s.predOn fr.pred = true →
    let gives (i : Instr) (lat : Nat) : Prop := exec i s = .next (s.issued [] [] [landAt lat [.setS d none]])
    ((s.regs.getS a = none ∨ s.regs.getS b = none) →
      gives (.sAdd fr d a b) 1 ∧ gives (.sSub fr d a b) 1 ∧ gives (.sMul fr d a b) 3 ∧ gives (.sMulh fr d a b) 4
      ∧ gives (.sMulhu fr d a b) 4 ∧ gives (.sDiv fr d a b) 18 ∧ gives (.sDivu fr d a b) 18 ∧ gives (.sRem fr d a b) 18
      ∧ gives (.sRemu fr d a b) 18 ∧ gives (.sAnd fr d a b) 1 ∧ gives (.sOr fr d a b) 1 ∧ gives (.sXor fr d a b) 1
      ∧ gives (.sShl fr d a b) 1 ∧ gives (.sShr fr d a b) 1 ∧ gives (.sSar fr d a b) 1 ∧ gives (.sMin fr d a b) 1
      ∧ gives (.sMax fr d a b) 1 ∧ gives (.sMinu fr d a b) 1 ∧ gives (.sMaxu fr d a b) 1
      ∧ gives (.sAddF64 fr d a b) 4 ∧ gives (.sSubF64 fr d a b) 4 ∧ gives (.sMulF64 fr d a b) 4 ∧ gives (.sDivF64 fr d a b) 22
      ∧ gives (.sMinF64 fr d a b) 4 ∧ gives (.sMaxF64 fr d a b) 4
      ∧ exec (.sCmpF64 fr pd cc a b) s = .next (s.issued [] [] [landAt 2 [.setP pd ⟨false, true⟩]]))
    ∧ ((s.regs.getS a = none ∨ s.regs.getS b = none ∨ s.regs.getS d = none) → gives (.sFmaF64 fr d a b) 5)
    ∧ (s.regs.getS d = none → gives (.sLih fr d k) 1)
    ∧ (s.regs.getS a = none →
      gives (.sClz fr d a) 1 ∧ gives (.sPopc fr d a) 1 ∧ gives (.sAddi fr d a imm) 1 ∧ gives (.sMuli fr d a imm) 3
      ∧ gives (.sAndi fr d a imm) 1 ∧ gives (.sOri fr d a imm) 1 ∧ gives (.sXori fr d a imm) 1
      ∧ gives (.sShli fr d a n) 1 ∧ gives (.sShri fr d a n) 1 ∧ gives (.sSari fr d a n) 1
      ∧ gives (.sSqrtF64 fr d a) 26 ∧ gives (.sCvtF64S64 fr d a) 4 ∧ gives (.sCvtS64F64 fr d a) 4 ∧ gives (.sClassF64 fr d a) 2)

/-- R112: `s.cmp` (0x22) and `s.cmpi` (0x23) write 1 if A cc B holds and 0 if not, the 29-bit immediate sign-extended; a
poisoned operand writes 0 with its mark; cc is any integer code of R56. -/
def Obligations.CompareWritesPredicate : Prop :=
  ∀ (s : State) (fr : Frame) (pd : Fin 16) (a b : Fin 32) (imm : BitVec 29),
    s.predOn fr.pred = true →
    let holds (cc : Cc) (x y : W64) : Prop := match cc with
      | .eq => x = y | .ne => x ≠ y | .lt => x.toInt < y.toInt | .ge => y.toInt ≤ x.toInt
      | .ltu => x.toNat < y.toNat | .geu => y.toNat ≤ x.toNat | .uo => False
    let gives (i : Instr) (v : PReg) : Prop := exec i s = .next (s.issued [] [] [landAt 1 [.setP pd v]])
    (∀ cc x y, cc ≠ .uo → s.regs.getS a = some x → s.regs.getS b = some y →
      ∃ v, gives (.sCmp fr pd cc a b) ⟨v, false⟩ ∧ (v = true ↔ holds cc x y))
    ∧ (∀ cc x, cc ≠ .uo → s.regs.getS a = some x →
      ∃ v, gives (.sCmpi fr pd cc a imm) ⟨v, false⟩ ∧ (v = true ↔ holds cc x (imm.signExtend 64)))
    ∧ (∀ cc, (s.regs.getS a = none ∨ s.regs.getS b = none) → gives (.sCmp fr pd cc a b) ⟨false, true⟩)
    ∧ (∀ cc, s.regs.getS a = none → gives (.sCmpi fr pd cc a imm) ⟨false, true⟩)
    ∧ (∀ cc : Cc, (Instr.sCmp fr pd cc a b).WellFormed ↔ cc ≠ .uo)
    ∧ (∀ cc : Cc, (Instr.sCmpi fr pd cc a imm).WellFormed ↔ cc ≠ .uo)
    ∧ (∀ cc : Cc, encode (.sCmp fr pd cc a b) = some (wordOf .S 0x22 fr.wait fr.pred (spBody pd cc a b 0)))
    ∧ (∀ cc : Cc, encode (.sCmpi fr pd cc a imm) = some (wordOf .S 0x23 fr.wait fr.pred (spBody pd cc a 0 imm.toNat)))

/-- R113: predicate logic; the mark is the OR of the marks read, and a pD of p0 discards the write. -/
def Obligations.PredicateLogic : Prop :=
  ∀ (s : State) (fr : Frame) (pd pa pb : Fin 16),
    s.predOn fr.pred = true →
    let a := s.regs.getP pa
    let b := s.regs.getP pb
    let gives (i : Instr) (v : PReg) : Prop := exec i s = .next (s.issued [] [] [landAt 1 [.setP pd v]])
    gives (.sPand fr pd pa pb) ⟨a.val && b.val, a.mark || b.mark⟩
    ∧ gives (.sPor fr pd pa pb) ⟨a.val || b.val, a.mark || b.mark⟩
    ∧ gives (.sPxor fr pd pa pb) ⟨a.val != b.val, a.mark || b.mark⟩
    ∧ gives (.sPnot fr pd pa) ⟨!a.val, a.mark⟩
    ∧ encode (.sPand fr pd pa pb) = some (wordOf .S 0x24 fr.wait fr.pred (sqBody pd pa pb))
    ∧ encode (.sPor fr pd pa pb) = some (wordOf .S 0x25 fr.wait fr.pred (sqBody pd pa pb))
    ∧ encode (.sPxor fr pd pa pb) = some (wordOf .S 0x26 fr.wait fr.pred (sqBody pd pa pb))
    ∧ encode (.sPnot fr pd pa) = some (wordOf .S 0x27 fr.wait fr.pred (sqBody pd pa 0))
    ∧ ∀ (r : Regs) (n : Fin 16) (v : PReg), (r.setP n v).getP pd = if pd = 0 then ⟨true, false⟩ else if pd = n then v else r.getP pd

/-- R109, R114 and R115: the FP64 words round once in the mode of `ctl.round`, land at their latencies with their flags,
and trap where R90 says so: then nothing is written. The operations on patterns are those of the arithmetic chapter. -/
def Obligations.ScalarFloatWords : Prop :=
  ∀ (s : State) (fr : Frame) (d a b : Fin 32) (pd : Fin 16) (cc : Cc) (x y z : W64),
    s.predOn fr.pred = true → s.regs.getS a = some x → s.regs.getS b = some y → s.regs.getS d = some z →
    let F := FFmt.f64
    let md := modeOfCtl s.regs.ctl.round.toNat
    let snA := F.snan x.toNat
    let snB := snA || F.snan y.toNat
    let ft := s.regs.ctl.ftrap
    let out (i : Instr) (lat : Nat) (e : Effect) (fl : Flags) (sn : Bool) : Prop :=
      (ieeeTrap ft fl sn = none → exec i s = .next (s.issued [] [] (landAt lat [e] :: flagsAt lat fl)))
      ∧ (∀ t, ieeeTrap ft fl sn = some t → exec i s = .next (s.trap t))
    let gives (i : Instr) (lat : Nat) (r : Nat × Flags) (sn : Bool) : Prop :=
      out i lat (.setS d (some (BitVec.ofNat 64 r.1))) r.2 sn
    gives (.sAddF64 fr d a b) 4 (F.add md false x.toNat y.toNat) snB
    ∧ gives (.sSubF64 fr d a b) 4 (F.sub md false x.toNat y.toNat) snB
    ∧ gives (.sMulF64 fr d a b) 4 (F.mul md false x.toNat y.toNat) snB
    ∧ gives (.sDivF64 fr d a b) 22 (F.div md false x.toNat y.toNat) snB
    ∧ gives (.sFmaF64 fr d a b) 5 (F.fma md false x.toNat y.toNat z.toNat) (snB || F.snan z.toNat)
    ∧ gives (.sSqrtF64 fr d a) 26 (F.sqrt md x.toNat) snA
    ∧ gives (.sMinF64 fr d a b) 4 (F.minimum false x.toNat y.toNat) snB
    ∧ gives (.sMaxF64 fr d a b) 4 (F.maximum false x.toNat y.toNat) snB
    ∧ gives (.sCvtF64S64 fr d a) 4 (F.roundInt md x.toInt 0 false) false
    ∧ gives (.sCvtS64F64 fr d a) 4 (ubits 64 (toInt 64 md (F.unpack x.toNat)).1, (toInt 64 md (F.unpack x.toNat)).2) snA
    ∧ exec (.sClassF64 fr d a) s = .next (s.issued [] [] [landAt 2 [.setS d (some (BitVec.ofNat 64 (2 ^ F.classOf x.toNat)))]])
    ∧ out (.sCmpF64 fr pd cc a b) 2 (.setP pd ⟨(F.compare cc x.toNat y.toNat).1, false⟩) (F.compare cc x.toNat y.toNat).2 snB

/-- R116 to R119, SDM: an aligned access inside SDM, to the argument block or to a region that permits it, reads or writes the
bytes at its address, little-endian; a misaligned one traps with code 0x02, one that is out of range or undeclared with
code 0x20. -/
def Obligations.SdmLoadAndStore : Prop :=
  ∀ (s : State) (fr : Frame) (d : Fin 32) (a : Fin 16) (off : BitVec 20) (sz : Sz) (sx : Bool),
    s.predOn fr.pred = true →
    let co := s.core s.slot.core
    let n := szBytes sz
    let addr := ubits 32 (((co.regs.a[a]).ea : Int) + off.toInt)
    let inside (acc : Access) : Prop := addr + n ≤ 65536 ∧ (addr + n ≤ 4096 ∨ co.inRegion 3 addr n acc = true)
    (addr % n = 0 → inside .load →
      exec (.sLd fr d a off sz sx) s
        = .next (s.issued [] [] [landAt 2 [.setS d (loadVal (co.bufRead .sdm addr n) sx)]]))
    ∧ (addr % n = 0 → inside .store →
      exec (.sSt fr d a off sz) s
        = .next (s.issued [] [] [landAt 1 [.store .sdm (place addr (storeBytes n (s.regs.getS d)))]]))
    ∧ (addr % n ≠ 0 → exec (.sLd fr d a off sz sx) s = .next (s.trap ⟨0x02, 0, addr, 0⟩)
      ∧ exec (.sSt fr d a off sz) s = .next (s.trap ⟨0x02, 0, addr, 0⟩))
    ∧ (addr % n = 0 → ¬ inside .load → exec (.sLd fr d a off sz sx) s = .next (s.trap ⟨0x20, 0, addr, 0⟩))
    ∧ (addr % n = 0 → ¬ inside .store → exec (.sSt fr d a off sz) s = .next (s.trap ⟨0x20, 0, addr, 0⟩))

/-- R116 to R118, device memory: an aligned access that its region and page permit, with a land no shorter than the path
latency of its home, loads the bytes as they stand at the home at the issue tick, or leaves the write to be performed at
t + land. Both words trap on a poisoned address (0x18), a land that is too short (0x09, judged first, as R64 orders checks), a
misaligned address (0x02), one beyond 2^52 or outside every region that permits the access (0x20), and one whose page is not
mapped (the code of its walk) or does not permit the access (0x23). The lateness of a path without a guarantee is the free value
of assumption 4. -/
def Obligations.DeviceLoadAndStore : Prop :=
  ∀ (s : State) (fr : Frame) (d a : Fin 32) (off : BitVec 20) (sz : Sz) (sx : Bool) (land : Fin 8192) (b : W64),
    s.predOn fr.pred = true →
    let n := szBytes sz
    let c := s.slot.core
    let va := (b + off.signExtend 64).toNat
    let lat (isLoad : Bool) (h : Home) : Nat := s.pathLatency c isLoad 1 h
    let early (acc : Access) : Prop := ∃ e, va < 2 ^ 52 ∧ s.translate (s.partOf c) va = .ok e
      ∧ land.val < lat (acc == .load) (e.at' va)
    let traps (i : Instr) (t : Trap) : Prop := exec i s = .next (s.trap t)
    let stops (i : Instr) (acc : Access) : Prop :=
      (early acc → traps i ⟨0x09, 3, va, 0⟩)
      ∧ (¬ early acc → va % n ≠ 0 → traps i ⟨0x02, 0, va, 0⟩)
      ∧ (¬ early acc → va % n = 0 → (2 ^ 52 ≤ va ∨ (s.core c).inRegion 0 va n acc = false) → traps i ⟨0x20, 0, va, 0⟩)
      ∧ (va % n = 0 → va < 2 ^ 52 → (s.core c).inRegion 0 va n acc = true →
        (∀ code level addr, s.translate (s.partOf c) va = .fail code level addr → traps i ⟨code, level, addr, 0⟩)
        ∧ ∀ e, s.translate (s.partOf c) va = .ok e → ¬ early acc → acc.lacks e ≠ 0 → traps i ⟨0x23, acc.lacks e, va, 0⟩)
    (s.regs.getS a = none → traps (.sLdm fr d a off sz sx land) ⟨0x18, 0, 0, 0⟩ ∧ traps (.sStm fr d a off sz land) ⟨0x18, 0, 0, 0⟩)
    ∧ (s.regs.getS a = some b →
      stops (.sLdm fr d a off sz sx land) .load ∧ stops (.sStm fr d a off sz land) .store
      ∧ (∀ h m hs, va % n = 0 → s.devCheck c .load va n = .ok ((h, m) :: hs) → ¬ early .load →
        exec (.sLdm fr d a off sz sx land) s
          = .next ((s.issued [] [] (s.lateDue h 0 land.val ++ [landAt land.val [.setS d (loadVal (s.homeRead h n) sx)]])).addBeat
            false h n 0 (land.val - lat true h) land.val))
      ∧ (∀ h m hs, va % n = 0 → s.devCheck c .store va n = .ok ((h, m) :: hs) → ¬ early .store →
        exec (.sStm fr d a off sz land) s
          = .next ((s.issued [] [] (s.lateDue h 0 land.val ++ [(land.val, 1, .home h (storeBytes n (s.regs.getS d)) .write)])).addBeat
            true h n 0 0 land.val)))

/-- R62 and R120: no-operation words issue and move the tokens they name; `s.loop` runs its loop from its issue tick on,
and its exit is due after its last tick. -/
def Obligations.NopsAndLoop : Prop :=
  ∀ (s : State) (w : Fin 16) (idle : Fin 1048576) (tok : Tok) (depth : Fin 4) (trip : Trip) (words : Fin 32768),
    exec (.sNop w idle) s = .next (s.issued [] [] []) ∧ exec (.yNop w idle) s = .next (s.issued [] [] [])
    ∧ exec (.vNop w idle) s = .next (s.issued [] [] []) ∧ exec (.xNop w idle) s = .next (s.issued [] [] [])
    ∧ exec (.gNop w idle) s = .next (s.issued [] [] [])
    ∧ (s.regs.tokDev (tokPops .M tok) = none →
      exec (.mNop w tok idle) s = .next (s.issued (tokPops .M tok) [] (tokPushes .M tok (idle.val + 1))))
    ∧ (s.regs.tokDev (tokPops .L tok) = none →
      exec (.lNop w tok idle) s = .next (s.issued (tokPops .L tok) [] (tokPushes .L tok (idle.val + 1))))
    ∧ (s.regs.tokDev (tokPops .W tok) = none →
      exec (.wNop w tok idle) s = .next (s.issued (tokPops .W tok) [] (tokPushes .W tok (idle.val + 1))))
    ∧ ∀ l, loopAt (s.core s.slot.core).loops s.slot.widx = some l →
      let t := s.issued [] [] [(l.period * l.count + 1, 0, .loopExit depth.val s.slot.widx)]
      let co := t.core s.slot.core
      exec (.sLoop w depth trip words) s
        = .next (t.setCore s.slot.core { co with running := ⟨depth.val, s.slot.tick, l.period, l.count⟩ :: co.running })

/-- R122 to R124: the SC forms read a register at the issue tick and write it a tick later. A poisoned source
(0x18), a read-only control register (0x23; detail 8 is assumption 19's), a reserved rounding mode (0x01) and a queue control word
that R31 refuses (with R31's code, and the ring's base for 0x02 and 0x20) trap. -/
def Obligations.ControlAndSpecialRegisters : Prop :=
  ∀ (s : State) (fr : Frame) (d a : Fin 32) (q : Fin 32) (n : Fin 16) (k : Fin 8) (hi gen : Bool) (src : RdSrc) (f : AField)
    (r : CtlReg) (m : WrMode),
    s.predOn fr.pred = true →
    let co := s.core s.slot.core
    let reads (i : Instr) (v : W64) : Prop := exec i s = .next (s.issued [] [] [landAt 1 [.setS d (some v)]])
    let writes (i : Instr) (e : Effect) : Prop := exec i s = .next (s.issued [] [] [landAt 1 [e]])
    let traps (i : Instr) (code detail : Nat) : Prop := exec i s = .next (s.trap ⟨code, detail, 0, 0⟩)
    reads (.sRdctl fr d src) (BitVec.ofNat 64 (match src with
      | .ctl x => co.regs.ctl.read s.slot.core.val s.slot.tick x
      | .lc x => co.lc x.val s.slot.tick))
    ∧ reads (.sRda fr d n f) (if f = .stride then ((co.regs.a[n]).field f).signExtend 64 else ((co.regs.a[n]).field f).setWidth 64)
    ∧ reads (.sRdq fr d q hi) (BitVec.ofNat 64 (if hi then (co.regs.q[q]).toNat / 2 ^ 64 else (co.regs.q[q]).toNat))
    ∧ reads (.sRdk fr d k gen) (if gen then (co.regs.k[k]).gen.setWidth 64 else (co.regs.k[k]).seed)
    ∧ (∀ v, s.regs.getS a = some v →
      writes (.sWra fr n f a) (.setA n f (v.setWidth 32)) ∧ writes (.sWrk fr k a) (.setK k v)
      ∧ (
        let w := setHalf (co.regs.q[q]) hi v
        (ringFault w = none → writes (.sWrq fr q hi a) (.setQ q hi v))
        ∧ ∀ code, ringFault w = some code → exec (.sWrq fr q hi a) s
          = .next (s.trap ⟨code, 0, if code = 0x02 ∨ code = 0x20 then (ringOf w).base else 0, 0⟩))
      ∧ (ctlWritable r = true → (r = .round → (wrValue m (co.regs.ctl.round.setWidth 64) v).toNat % 8 < 6) →
        writes (.sWrctl fr r m a) (.setCtl r m v))
      ∧ (r ∈ [.cadence, .core, .tick, .phase, .inflect] → traps (.sWrctl fr r m a) 0x23 8)
      ∧ (r = .round → 6 ≤ (wrValue m (co.regs.ctl.round.setWidth 64) v).toNat % 8 → traps (.sWrctl fr r m a) 0x01 0))
    ∧ (s.regs.getS a = none → traps (.sWra fr n f a) 0x18 0 ∧ traps (.sWrk fr k a) 0x18 0 ∧ traps (.sWrq fr q hi a) 0x18 0
      ∧ traps (.sWrctl fr r m a) 0x18 0)

/-- R125: `s.rnd` pops its entries whether it is predicated on or off, and on it writes their words at t + 2. -/
def Obligations.RandomWordPop : Prop :=
  ∀ (s : State) (fr : Frame) (d q : Fin 32) (pair : Bool),
    let co := s.core s.slot.core
    let g := co.regs.ring q
    let n := if pair then 2 else 1
    g.depth ≠ 0 → g.buf = 3 → g.esize = 1 → n ≤ g.count →
    (s.predOn fr.pred = true → exec (.sRnd fr d q pair) s = .next (s.issued [] [] [popDue q n,
      landAt 2 [.setS d ((randomWords (co.entries q n)).map fun ws => BitVec.ofNat 64 (nth ws 0 0 + 2 ^ 32 * nth ws 1 0))]]))
    ∧ (s.predOff fr.pred = true → exec (.sRnd fr d q pair) s = .next (s.issued [] [] [popDue q n]))

/-! ### Sync words -/

/-- R128, R129, R133: semaphores, tokens and exports are written a tick after issue; a pop takes its tokens at issue, and
one that finds too few is a token deviation, code 0x06, in strict mode. -/
def Obligations.SyncRegisterWords : Prop :=
  ∀ (s : State) (fr : Frame) (n : Fin 32) (v : BitVec 16) (a b : Fin 32) (f : Fin 6) (c : Fin 9),
    s.predOn fr.pred = true →
    let gives (i : Instr) (ds : List Due) : Prop := exec i s = .next (s.issued [] [] ds)
    gives (.ySeminit fr n v) [landAt 1 [.semInit n v]]
    ∧ gives (.yTokpush fr f c) [landAt 1 [.tokens f c.val]]
    ∧ (c.val ≤ s.regs.tok[f] → exec (.yTokpop fr f c) s = .next (s.issued [(f, c.val)] [] []))
    ∧ (s.regs.tok[f] < c.val → s.regs.ctl.elastic = false → exec (.yTokpop fr f c) s = .next (s.trap ⟨0x06, f.val, 0, 0⟩))
    ∧ (∀ x y, s.regs.getS a = some x → s.regs.getS b = some y →
      let size : Effect := .setCtl .size .write (BitVec.ofNat 64 (min x.toNat 0xFFFFFFFF))
      gives (.ySemclr fr a) [landAt 1 [.semClr (x.setWidth 32)]]
      ∧ gives (.yExport fr (.size a)) [landAt 1 [size]]
      ∧ gives (.yExport fr (.sel b)) [landAt 1 [.setCtl .sel .write y]]
      ∧ gives (.yExport fr (.both a b)) [landAt 1 [size], landAt 1 [.setCtl .sel .write y]])
    ∧ (s.regs.getS a = none → exec (.ySemclr fr a) s = .next (s.trap ⟨0x18, 0, 0, 0⟩)
      ∧ exec (.yExport fr (.size a)) s = .next (s.trap ⟨0x18, 0, 0, 0⟩)
      ∧ exec (.yExport fr (.both a b)) s = .next (s.trap ⟨0x18, 0, 0, 0⟩))

/-- R130: a gate registration is made at the issue tick, replaces one of the same gate, and is one of at most 8; `y.gateclr`
withdraws one of them or all. An undeclared gate traps with code 0x03 at decode, and so does, on data, a ninth registration, of a
signal or of a semaphore; a poisoned sA traps with code 0x18, before the count is judged (assumption 117). -/
def Obligations.GateRegistrations : Prop :=
  ∀ (s : State) (fr : Frame) (g : Fin 64) (n : Fin 32) (v : BitVec 16) (a : Fin 32) (x : W64),
    s.predOn fr.pred = true →
    let gs := s.regs.gates
    let room (sem : Bool) (k : Nat) : Prop := gs.length < 8 ∨ ∃ r ∈ gs, r.sem = sem ∧ r.n = k
    let made (i : Instr) (r : GateReg) : Prop := exec i s = .next ((s.issued [] [] []).setGates (putGate r gs))
    let left (i : Instr) (keep : GateReg → Bool) : Prop := exec i s = .next ((s.issued [] [] []).setGates (gs.filter keep))
    let refused (i : Instr) (k : Nat) : Prop := exec i s = .next (s.trap ⟨0x03, 0x200 + k, 0, 0⟩)
    let declared := (s.gateDecls s.slot.core).length
    (g.val < declared → room false g.val →
      made (.yGate fr g none) ⟨false, g.val, none⟩
      ∧ (s.regs.getS a = some x → made (.yGate fr g (some a)) ⟨false, g.val, some x⟩))
    ∧ (room true n.val → made (.yGatesem fr n v) ⟨true, n.val, some (v.setWidth 64)⟩)
    ∧ (declared ≤ g.val → refused (.yGate fr g none) g.val ∧ refused (.yGate fr g (some a)) g.val)
    ∧ (g.val < declared → ¬ room false g.val →
      refused (.yGate fr g none) g.val ∧ (s.regs.getS a = some x → refused (.yGate fr g (some a)) g.val))
    ∧ (g.val < declared → s.regs.getS a = none → exec (.yGate fr g (some a)) s = .next (s.trap ⟨0x18, 0, 0, 0⟩))
    ∧ (¬ room true n.val → refused (.yGatesem fr n v) n.val)
    ∧ left (.yGateclr fr .all) (fun _ => false)
    ∧ left (.yGateclr fr (.signal g)) (fun r => r.sem || r.n != g.val)
    ∧ left (.yGateclr fr (.sem n)) (fun r => !r.sem || r.n != n.val)

/-- R47, R127: at its issue tick `y.rdv` signs its core off; where an engine still holds words due later, the partition aborts
with code 0x0A, and no other word of the tick issues (R341). R132: `y.fence` makes later untimetabled operations wait for the
earlier ones. R135: `y.brk` has no effect where breakpoints are not open, in a re-execution, and at the position from which the
partition continues (R369); elsewhere it freezes the partition for a debug stop and its v is kept. R136: `y.stamp` adds its
record, the oldest of 256 giving way. -/
def Obligations.SignOffFenceBreakStamp : Prop :=
  ∀ (s : State) (w : Fin 16) (fr : Frame) (sc : Scope) (v : BitVec 24),
    let c := s.slot.core
    let t := s.issued [] [] []
    let co := t.core c
    (((s.core c).leftWords s.slot.tick).all (· == 0) = true →
      exec (.yRdv w) s = .next (t.setCore c { co with signed := true }))
    ∧ (((s.core c).leftWords s.slot.tick).any (0 < ·) = true →
      exec (.yRdv w) s = .next (((s.undoTick c).setCore c { (s.undoTick c).core c with signed := true }).beginAbort (s.partOf c)
        ⟨0x0A, 1, some c, some s.src, 0, 0, ((s.core c).leftWords s.slot.tick).flatMap (leBytes 2)⟩))
    ∧ exec (.yFence w sc) s = .next (t.setCore c { co with
        fences := co.fences ++ (co.outb.filter fun o => o.st != .acked).map fun o => (o.id, sc) })
    ∧ (s.predOn fr.pred = true →
      let part := s.part (s.partOf c)
      let quiet := part.dbgOn.getLsbD 0 = false ∨ part.skipBrk = some (c.val, Eng.Y, (s.core c).retired[1]) ∨ part.reexec ≠ none
      (quiet → exec (.yBrk fr v) s = .next t)
      ∧ (¬ quiet → exec (.yBrk fr v) s
        = .next ((s.debugFreeze c .Y).setCore c { (s.debugFreeze c .Y).core c with brk := some v.toNat })))
    ∧ (s.predOn fr.pred = true → exec (.yStamp fr v) s = .next (t.setCore c { co with
        stamps := (s.stampRec v :: co.stamps).take 256
        stampOver := (co.stampOver + (if co.stamps.length ≥ 256 then 1 else 0)) % 2 ^ 32 }))

/-- R134, R339 and R341: `y.trap` (where no abort is under way) raises fault code 0x3C, class 0, precisely at the word, with v in the
detail field: no word of the core at the tick issues, so that the core stands as it stood before the tick's first word, and
halts (assumption 84). -/
def Obligations.UserTrap : Prop :=
  ∀ (s : State) (fr : Frame) (v : BitVec 24), s.predOn fr.pred = true → (s.part (s.partOf s.slot.core)).abort = none →
    ∃ t a, exec (.yTrap fr v) s = .next t ∧ (t.part (s.partOf s.slot.core)).abort = some a
      ∧ a.info = ⟨0x3C, 0, some s.slot.core.val, some s.src, v.toNat, 0, []⟩ ∧ a.debug = false
      ∧ (t.core s.slot.core).halted = true
      ∧ t.core s.slot.core = { (mapGet s.undo s.slot.core.val).getD (s.core s.slot.core) with halted := true }

/-! ### Matrix words -/

/-- R144 and R152 to R155: the words that set the matrix engine up write a tick after issue and pop and push their tokens;
`m.swap` exchanges the weight sets at its issue tick, and `m.wake` powers the unpowered bands it names, which take part 96
ticks later.
R143: `m.wld` takes the exponent entry and starts the 64 weight lines of the shadow set, line j at t + j; the set gets its
format, column exponents, tag and ring at once, and its rows as the lines enter. -/
def Obligations.MatrixSettingsAndWeightLoad : Prop :=
  (∀ (s : State) (fr : Frame) (tok : Tok) (mask : Fin 16) (imm : BitVec 14) (a : Fin 16) (post : Bool) (beta : BitVec 10),
      s.ready fr.pred [] 0 [s.regs.tokDev (tokPops .M tok)] [] →
      let m := BitVec.ofNat 4 mask.val
      let t (books on : List Due) : State := s.issued (tokPops .M tok) [] (books ++ (on ++ tokPushes .M tok 1))
      let upd (t : State) (f : Core → Core) : State := t.setCore s.slot.core (f (t.core s.slot.core))
      let woken := m &&& ~~~s.regs.bands
      exec (.mShape fr tok mask) s = .next (t [] [landAt 1 [.setCtl .shape .write (BitVec.ofNat 64 mask.val)]])
      ∧ ((∀ h, h ∈ (s.core s.slot.core).holds → s.slot.tick < h.1 → h.2 &&& m = 0) →
        exec (.mSleep fr tok mask) s = .next (t [] [landAt 1 [.sleep m]]))
      ∧ ((∃ h, h ∈ (s.core s.slot.core).holds ∧ s.slot.tick < h.1 ∧ h.2 &&& m ≠ 0) →
        exec (.mSleep fr tok mask) s = .next (s.trap ⟨0x07, 0, 0, 0⟩))
      ∧ exec (.mXbase fr tok beta) s = .next (t [] [landAt 1 [.setBeta beta]])
      ∧ exec (.mFeed fr tok (.imm imm)) s = .next (t [] [landAt 1 [.setFeed (imm.signExtend 16)]])
      ∧ exec (.mFeed fr tok (.reg a post)) s
          = .next (t (s.regs.postInc ⟨a, post⟩) [landAt 1 [.setFeed (BitVec.ofNat 16 (s.regs.a[a]).ea)]])
      ∧ exec (.mSwap fr tok) s = .next (upd (t [] []) fun c => { c with wact := !c.wact })
      ∧ exec (.mWake fr tok mask) s = .next (upd (t [] (if woken = 0 then [] else [(96, 0, .wake woken)])) fun c =>
          { c with regs := { c.regs with bands := c.regs.bands ||| woken }, waking := c.waking ||| woken }.digestChunks .M
            [BitVec.ofNat 64 (c.regs.bands ||| woken).toNat]))
  ∧ (∀ (s : State) (fr : Frame) (tok : Tok) (qa qb : Fin 32) (s5 : Bool),
      let c := s.core s.slot.core
      let ra := c.regs.ring qa
      let rb := c.regs.ring qb
      let banks := wbPort ++ abBanks (rb.addr rb.head) 8
      s.ready fr.pred [c.regs.ringCheck qa (ringIs 2 144), c.regs.ringCheck qb (ringIs 1 64)] 0
        [c.regs.tokDev (tokPops .M tok), c.regs.popDev qb 1, c.regs.popDev qa 1] banks →
      let lines : List Due := (range' 0 64).map fun j => (j, 3, .wld ⟨qa, j, !c.wact, true⟩)
      let t := s.issued (tokPops .M tok) banks (popDue qb 1 :: (lines ++ tokPushes .M tok 64))
      exec (.mWld fr tok qa qb s5) s = .next (t.setCore s.slot.core
        (((t.core s.slot.core).setWset (!c.wact) ⟨some s5, [], colExps (c.entry rb rb.head), ra.rtag, some qa⟩).digestChunks .M
          (byteChunks 64 (c.entry rb rb.head)))))

/-- R142 and R146 to R151: a mac word whose active set holds its format, whose rings exist, and whose first row enters,
starts its rows, row i at t + i with the shape, feed, base exponent, rounding and traps of the issue tick. -/
def Obligations.MultiplyAccumulate : Prop :=
  ∀ (s : State) (fr : Frame) (tok : Tok) (qa qb : Fin 32) (l : Line) (rows : Fin 256) (dm : Drain) (init peek : Bool),
    let c := s.core s.slot.core
    let r := c.regs
    let ra := r.ring qa
    let w := c.wset c.wact
    let runs (i : Instr) (s5 sparse peek : Bool) : Prop :=
      let job (k : Nat) (on : Bool) : RowJob := ⟨s5, sparse, qa, qb, peek, init, dm, l.tile.val, l.dir == .c, r.lineIdx l, k,
        rows.val + 1, c.wact, r.ctl.shape, r.beta.toInt, r.feed.toInt, r.ctl.round, r.ctl.ftrap, on⟩
      let banks := abBanks (ra.addr ((rowEntry ra peek r.feed.toInt 0).getD 0)) 5
      s.ready fr.pred [r.lineOdd (if dm = .x72 then .x72 else .s36) l, r.lineTile l, r.ringCheck qa (ringIs 1 40),
          r.ringCheck qb (if sparse then ringIs 1 1 else ringIs 2 144), failIf (w.fmt != some s5) ⟨0x03, 0, 0, 0⟩] 0
        [r.tokDev (tokPops .M tok)] banks →
      c.rowTrap (job 0 false) = none → c.rowTrap (job 0 true) = none → (sparse = false → w.ring = some qb) →
      tagMatch ra.rtag w.tag = true → (r.ctl.ftrap.getLsbD 5 = true → w.snan = false) →
      exec i s = .next (s.issued (tokPops .M tok) banks (r.lineInc l
        ++ ((range' 0 (rows.val + 1)).map (fun k => ((k, 3, .row (job k true)) : Due))
          ++ tokPushes .M tok (if dm = .nd then 1 else rows.val + 1 + 514))))
    runs (.mMacS9 fr tok qa qb l rows dm init peek) false false peek
    ∧ runs (.mMacS5 fr tok qa qb l rows dm init peek) true false peek
    ∧ runs (.mSpmacS9 fr tok qa qb l rows dm init) false true false

/-! ### Vector words -/

/-- R161 and R164 to R167: a two-source word reads its lines at the issue tick, combines them element by element (`v.fma` and
`v.fms` with the old destination), and its line lands at the latency of the operation and type; F64 arithmetic takes the F64
pipeline (R160). -/
def Obligations.VectorTwoSource : Prop :=
  ∀ (s : State) (fr : Frame) (ty : VTy) (d a b : Line),
    let c := s.core s.slot.core
    let f64 := ty == .f64
    let gives (i : Instr) (op : VOp) (lat : Nat) : Prop :=
      let pipe := op.arith && f64
      let lat := lat + (if op.arith && wide64 ty d then 1 else 0)
      let fused := op == .fma || op == .fms
      let vs := s.elems none (lineCount ty d.dir) fun k =>
        match at1 (c.line ty a) k, at1 (c.line ty b) k, (if fused then at1 (c.line ty d) k else some 0) with
        | some x, some y, some z => some (twoOp op ty s.rmodeV s.ftzV x y z)
        | _, _, _ => none
      let banks := if pipe then [50] else []
      s.ready fr.pred [s.regs.linesCheck [(ty, d), (ty, a), (ty, b)]] 0 [] banks →
      s.writesLine i banks (s.regs.lineIncs [d, a, b] ++ portDue lat ++ (if pipe && wide64 ty d then banksAt 1 .V [50] else []))
        ty d lat vs
    let fast := match ty with | .s36 | .s64 | .s16 | .x72 => true | _ => false
    let sum := if fast then 2 else if f64 then 6 else 4
    let prod := match ty with | .s36 | .s16 => 3 | .f64 => 6 | _ => 4
    gives (.vAdd fr ty d a b) .add sum ∧ gives (.vSub fr ty d a b) .sub sum ∧ gives (.vMul fr ty d a b) .mul prod
    ∧ gives (.vFma fr ty d a b) .fma prod ∧ gives (.vFms fr ty d a b) .fms prod
    ∧ gives (.vMin fr ty d a b) .min 2 ∧ gives (.vMax fr ty d a b) .max 2
    ∧ gives (.vAnd fr ty d a b) .and 2 ∧ gives (.vOr fr ty d a b) .or 2 ∧ gives (.vXor fr ty d a b) .xor 2
    ∧ gives (.vDiv fr ty d a b) .div (if f64 then 24 else 12)

/-- R166: on an integer type an addition, subtraction, multiplication, fused operation, minimum or maximum is exact, then
saturates to the width of the type, and raises no flag. -/
def Obligations.VectorIntegerSaturates : Prop :=
  ∀ (op : VOp) (ty : VTy) (md : RMode) (ftz : Bool) (a b d : Nat),
    op ∈ [.add, .sub, .mul, .fma, .fms, .min, .max] → ty ∈ [.s36, .s64, .s16] →
    let w := intBits ty
    let v : Int := match op with
      | .add => sint w a + sint w b | .sub => sint w a - sint w b | .mul => sint w a * sint w b
      | .fma => sint w a * sint w b + sint w d | .fms => sint w a * sint w b - sint w d
      | .min => min (sint w a) (sint w b) | _ => max (sint w a) (sint w b)
    let r := twoOp op ty md ftz a b d
    sint w r.val = max (-(2 : Int) ^ (w - 1)) (min ((2 : Int) ^ (w - 1) - 1) v) ∧ r.flags = 0 ∧ r.snan = false ∧ r.val < 2 ^ w

/-- R168 to R171: one-source words and shifts; a poisoned scalar operand poisons every enabled element (R158), and a shift
moves by the immediate plus sS<6:0>. -/
def Obligations.VectorOneSource : Prop :=
  ∀ (s : State) (fr : Frame) (ty : VTy) (d a : Line) (sc : Fin 32) (n : Fin 64) (mk : Option (Fin 8)),
    s.ready fr.pred [s.regs.linesCheck [(ty, d), (ty, a)]] 0 [] [] →
    let xs := (s.core s.slot.core).line ty a
    let w := intBits ty
    let v := s.regs.getS sc
    let k := n.val + (v.getD 0).toNat % 128
    let gives (i : Instr) (lat : Nat) (bad : Bool) (f : Nat → Elem) : Prop :=
      s.writesLine i [] (s.regs.lineIncs [d, a] ++ portDue lat) ty d lat
        (s.elems mk (lineCount ty d.dir) fun j => if bad then none else (at1 xs j).map f)
    gives (.vAbs fr ty d a mk) 2 false (absElem ty) ∧ gives (.vNeg fr ty d a mk) 2 false (negElem ty)
    ∧ gives (.vNot fr ty d a mk) 2 false (fun x => ⟨2 ^ w - 1 - x, 0, false⟩)
    ∧ gives (.vMov fr ty d a mk) 2 false (fun x => ⟨x, 0, false⟩)
    ∧ gives (.vShl fr ty d a sc n mk) 2 v.isNone (fun x => ⟨if w ≤ k then 0 else x * 2 ^ k % 2 ^ w, 0, false⟩)
    ∧ gives (.vShr fr ty d a sc n mk) 2 v.isNone (fun x => ⟨if w ≤ k then 0 else x / 2 ^ k, 0, false⟩)
    ∧ gives (.vSar fr ty d a sc n mk) 2 v.isNone (sarElem w k)
    ∧ gives (.vRshr fr ty d a sc n mk) 3 v.isNone (rshrElem w s.rmodeV (v.getD 0) n.val)

/-- R172 and R173: `v.cmp` writes a mask bit for each element, 0 where it is disabled or poisoned; `v.sel` takes the element or
the scalar, sign-extended or cut to the type. -/
def Obligations.VectorCompareSelect : Prop :=
  ∀ (s : State) (fr : Frame) (ty : VTy) (cc : Cc) (vmE vm : Fin 8) (d a b : Line) (sc : Fin 32) (mk : Option (Fin 8)),
    let c := s.core s.slot.core
    let xs := c.line ty a
    let vs := s.elems mk (lineCount ty a.dir) fun k => match at1 xs k, at1 (c.line ty b) k with
      | some x, some y => some (cmpElem ty cc s.ftzV x y)
      | _, _ => none
    let v := scalarElem ty (s.regs.getS sc)
    (s.ready fr.pred [s.regs.linesCheck [(ty, a), (ty, b)]] 0 [] [] →
      s.landsOrTraps (.vCmp fr ty cc vmE a b mk) [] (s.regs.lineIncs [a, b]) 2
        (.setVm vmE (BitVec.ofNat 512 (maskNat (elemVals vs)))) (elemFlags vs) (elemSnan vs))
    ∧ (s.ready fr.pred [s.regs.linesCheck [(ty, d), (ty, a)]] 0 [] [] →
      s.writesLine (.vSel fr ty d a sc vm) [] (s.regs.lineIncs [d, a] ++ portDue 2) ty d 2
        (s.elems none (lineCount ty d.dir) fun k =>
          (if (s.regs.vm[vm]).getLsbD k then at1 xs k else v).map fun x => ⟨x, 0, false⟩))

/-- R174 to R177: conversions and scaling round once in the mode of the issue tick and land 4 ticks after it; `v.cvte` reads or
writes one half of each slot. -/
def Obligations.VectorConversions : Prop :=
  ∀ (s : State) (fr : Frame) (dt st h16 : VTy) (hi : Bool) (d a : Line) (sc : Fin 32) (n : BitVec 6) (mk : Option (Fin 8)),
    let c := s.core s.slot.core
    let v := s.regs.getS sc
    let sigma := sint 16 (v.getD 0).toNat
    let k : Int := max (-65536) (min 65536 (v.getD 0).toInt) + n.toInt
    let incs := s.regs.lineIncs [d, a] ++ portDue 4
    let la := s.regs.lineAt a
    let gives (i : Instr) (dt st : VTy) (bad : Bool) (f : Nat → Elem) : Prop :=
      s.ready fr.pred [s.regs.linesCheck [(dt, d), (st, a)]] 0 [] [] →
      s.writesLine i [] incs dt d 4 (s.elems mk (lineCount dt d.dir) fun j => if bad then none else (at1 (c.line st a) j).map f)
    gives (.vCvt fr dt st d a mk) dt st false (cvtElem dt st s.rmodeV s.ftzV)
    ∧ gives (.vCvtx fr dt true d a sc mk) .x72 dt v.isNone (fun x => toX72 s.rmodeV sigma (valOf dt x))
    ∧ gives (.vCvtx fr dt false d a sc mk) dt .x72 v.isNone (fromX72 dt s.rmodeV sigma)
    ∧ gives (.vScale fr dt d a sc n mk) dt dt v.isNone (fun x =>
        elemOf ((fmtOf dt).scaleB s.rmodeV (flushes s.ftzV dt) x k) ((fmtOf dt).snan x))
    ∧ (s.ready fr.pred [s.regs.linesCheck [(dt, d), (dt, a)]] 0 [] [] →
      (
        let vs := s.elems mk 256 fun j => (lineElem c.mrf dt la j).map (cvtElem h16 dt s.rmodeV s.ftzV)
        s.landsOrTraps (.vCvte fr dt h16 true hi d a mk) [] incs 4
          (.slots (halfWrites (s.regs.lineAt d) true 0 ((elemVals vs).map fun v => if hi then (none, v) else (v, none))))
          (elemFlags vs) (elemSnan vs))
      ∧ s.writesLine (.vCvte fr dt h16 false hi d a mk) [] incs dt d 4
          (s.elems mk 256 fun j => (halfElem c.mrf la hi j).map (cvtElem dt h16 s.rmodeV s.ftzV)))

/-- R185: the special functions, on a line of their type, at their latencies. That they round the model's functions of 640 fractional
bits once is the model's choice (assumption 10); R185 and R91 say correctly rounded. -/
def Obligations.VectorSpecialFunctions : Prop :=
  ∀ (s : State) (fr : Frame) (ty : VTy) (d a : Line) (mk : Option (Fin 8)),
    let gives (i : Instr) (ty : VTy) (banks : List Nat) (more : List Due) (lat : Nat) (f : RMode → Nat → Nat × Flags) : Prop :=
      s.ready fr.pred [s.regs.linesCheck [(ty, d), (ty, a)]] 0 [] banks →
      s.writesLine i banks (s.regs.lineIncs [d, a] ++ portDue lat ++ more) ty d lat (s.elems mk (lineCount ty d.dir) fun j =>
        (at1 ((s.core s.slot.core).line ty a) j).map fun x => elemOf (f s.rmodeV x) ((fmtOf ty).snan x))
    let f32 (i : Instr) (f : RMode → Nat → Nat × Flags) : Prop := gives i .f32 [] [] 10 f
    f32 (.vExp2 fr d a mk) (exp2F .f32) ∧ f32 (.vLog2 fr d a mk) (log2F .f32) ∧ f32 (.vRecip fr d a mk) (recipF .f32)
    ∧ f32 (.vRsqrt fr d a mk) (rsqrtF .f32) ∧ f32 (.vSinpi fr d a mk) (sinpiF .f32) ∧ f32 (.vCospi fr d a mk) (cospiF .f32)
    ∧ gives (.vSqrt fr ty d a mk) ty (if ty = .f64 then [50] else []) (if wide64 ty d then banksAt 1 .V [50] else [])
        (if ty = .f64 then (if wide64 ty d then 29 else 28) else 12) (fmtOf ty).sqrt

/-- R178 to R184: `v.narrow` pushes the blocks of its line at t + 8 on, `v.rot` rotates its line in place at t + 10, `v.slice.f64`
pushes slice i at t + 6; tags that do not match trap with code 0x04. -/
def Obligations.VectorNarrowRotateSlice : Prop :=
  ∀ (s : State) (fr : Frame) (ty : VTy) (l : Line) (q : Fin 32) (fmt : NFmt) (k : Fin 8) (blk : Blk) (free inv : Bool) (rnd : Rnd)
    (mk : Option (Fin 8)) (sc : Fin 32) (tagq : Option (Fin 32)),
    let c := s.core s.slot.core
    let key := s.regs.k[k]
    let n := lineCount ty l.dir
    let md := rndMode rnd s.regs.ctl.round.toNat
    let block (r : Ring) : Bool := r.buf == 1 && r.esize == 40
    (
      let tag := tagOf free blk k key.gen
      let ws := if md.isNone then (c.entries 31 n).map fun e => (leNat? e).map (· % 2 ^ 32) else []
      let r := s.narrowed ty l fmt (blkN blk) key.seed md ws mk
      s.ready fr.pred [s.regs.linesCheck [(ty, l)], s.regs.ringCheck q block,
          if md.isNone then s.regs.ringCheck 31 (fun r => r.buf == 3 && r.esize == 1) else none] 0
        [if md.isNone then s.regs.popDev 31 n else none] [] →
      c.tagCheck q tag (s.slot.tick + 8) = none → ieeeTrap s.regs.ctl.ftrap r.2.1 r.2.2 = none →
      exec (.vNarrow fr ty l q fmt k blk free rnd mk) s = .next (s.issued [] [] (s.regs.lineIncs [l]
        ++ (if md.isNone then [popDue 31 n] else []) ++ (pushesFrom q tag 8 (r.1.map some) ++ flagsAt 8 r.2.1))))
    ∧ (
      let want := tagOf true blk k key.gen
      let xs := c.line ty l
      let vs := (rotLine (fmtOf ty) (md.getD .rne) (flushes s.ftzV ty) (blkN blk) key.seed inv (xs.length / blkN blk) 0 xs).map some
      s.ready fr.pred [s.regs.linesCheck [(ty, l)]] 0 [] [] →
      ((∀ x, tagq = some x → (s.regs.ring x).rtag = want) →
        s.writesLine (.vRot fr ty l tagq k blk inv rnd) [] (s.regs.lineIncs [l] ++ portDue 10) ty l 10 vs)
      ∧ (∀ x, tagq = some x → (s.regs.ring x).rtag ≠ want → exec (.vRot fr ty l tagq k blk inv rnd) s
        = .next (s.trap ⟨0x04, want.toNat + 65536 * (s.regs.ring x).rtag.toNat, 0, 0⟩)))
    ∧ (
      let v := s.regs.getS sc
      let x := (v.getD 0).toNat
      let m := fld x 23 20
      let i := fld x 19 16
      let xs := c.line .f64 l
      let ok := v.isSome && decide (3 ≤ m ∧ m ≤ 8 ∧ 1 ≤ i ∧ i ≤ m) && xs.all (·.isSome)
      let src := xs.map fun x => FFmt.f64.unpack (x.getD 0)
      let b := sliceBlock (src ++ List.replicate (256 - src.length) (FVal.fin false 0 0)) m i (sint 16 x)
      let fl := if ok then b.2 else 0
      s.ready fr.pred [s.regs.linesCheck [(.f64, l)], s.regs.ringCheck q block] 0 [] [] →
      c.tagCheck q 0 (s.slot.tick + 6) = none → ieeeTrap s.regs.ctl.ftrap fl (ok && src.any FVal.isSnan) = none →
      exec (.vSliceF64 fr q l sc) s = .next (s.issued [] [] (s.regs.lineIncs [l]
        ++ (landAt 6 [.push q (some (if ok then b.1.map some else List.replicate 320 none)) 0] :: flagsAt 6 fl))))

/-- R186 to R189: an aligned line access inside AB. `v.ld` lands its enabled elements at t + 4, as they stand at the issue
tick, also in the granules whose banks it takes at t + 1; `v.st` writes the bytes of its enabled elements at t + 1, or t + 2. A
misaligned address traps
with code 0x02, a line that leaves AB with code 0x20. -/
def Obligations.VectorLoadStore : Prop :=
  ∀ (s : State) (fr : Frame) (ty : VTy) (l : Line) (x : BufAddr) (off : BitVec 16) (mk : Option (Fin 8)),
    let c := s.core s.slot.core
    let a := s.regs.vdAddr x off
    let n := lineBytes ty l.dir
    let bk := lineBanks a n
    let incs := [s.regs.lineInc l, s.regs.postInc x].flatten.eraseDups
    let la := s.regs.lineAt l
    let en := s.regs.maskBits mk
    s.ready fr.pred [s.regs.linesCheck [(ty, l)]] 0 [] bk.1 →
    (a % 64 = 0 → a + n ≤ Config.abBytes →
      exec (.vLd fr ty l x off mk) s = .next (s.issued [] bk.1 (incs ++ (banksAt 1 .V bk.2 ++ portDue 4)
        ++ [landAt 4 [loadEffect ty la (c.bufRead .ab a n) en]]))
      ∧ exec (.vSt fr ty l x off mk) s = .next (s.issued [] bk.1 (incs ++ banksAt 1 .V bk.2
        ++ [landAt (if n = 4096 then 2 else 1) [.store .ab
          (((place 0 (storeLine ty (BitVec.allOnes 512) [] 0 (c.line ty l))).filter fun e => s.regs.enabled mk e.1).flatMap
            fun e => place (a + e.1 * abSize ty) e.2)]])))
    ∧ (a % 64 ≠ 0 → exec (.vLd fr ty l x off mk) s = .next (s.trap ⟨0x02, 0, a, 0⟩)
      ∧ exec (.vSt fr ty l x off mk) s = .next (s.trap ⟨0x02, 0, a, 0⟩))
    ∧ (a % 64 = 0 → Config.abBytes < a + n → exec (.vLd fr ty l x off mk) s = .next (s.trap ⟨0x20, 0, a, 0⟩)
      ∧ exec (.vSt fr ty l x off mk) s = .next (s.trap ⟨0x20, 0, a, 0⟩))

/-- R190: `v.pop` loads a line from the head entry, as it stands at the issue tick, and pops it; `v.push` stores one into the entry
that is the ring's tail at its landing (R95), disabled elements as zeros; a tag of another kind traps with code 0x04 (R180), and an
empty ring is a deviation with code 0x05. -/
def Obligations.VectorRingLines : Prop :=
  ∀ (s : State) (fr : Frame) (ty : VTy) (l : Line) (q : Fin 32) (mk : Option (Fin 8)),
    let c := s.core s.slot.core
    let n := lineBytes ty l.dir
    let r := c.regs.ring q
    let ring := c.regs.ringCheck q fun g => g.buf == 1 && g.ebytes == n
    let incs := (s.regs.lineInc l).eraseDups
    let lat := if n = 4096 then 2 else 1
    let bp := lineBanks (r.addr r.head) n
    let at_ := c.ringAt q (s.slot.tick + lat)
    let bq := lineBanks (at_.addr (at_.tail % max 1 at_.depth)) n
    (1 ≤ r.count → s.ready fr.pred [s.regs.linesCheck [(ty, l)], ring] 0 [] bp.1 →
      exec (.vPop fr ty l q mk) s = .next (s.issued [] bp.1 (incs ++ (banksAt 1 .V bp.2 ++ portDue 4 ++ [popDue q 1])
        ++ [landAt 4 [loadEffect ty (c.regs.lineAt l) (c.bufRead .ab (r.addr r.head) n) (s.regs.maskBits mk)]])))
    ∧ (s.ready fr.pred [s.regs.linesCheck [(ty, l)], ring] 0 [] bq.1 → 0 < at_.count → at_.rtag ≠ 0 →
      exec (.vPush fr ty l q mk) s = .next (s.trap ⟨0x04, 65536 * at_.rtag.toNat, 0, 0⟩))
    ∧ (s.ready fr.pred [s.regs.linesCheck [(ty, l)], ring] 0 [] bq.1 → (0 < at_.count → at_.rtag = 0) →
      exec (.vPush fr ty l q mk) s = .next (s.issued [] bq.1 (incs ++ banksAt 1 .V bq.2
        ++ [landAt lat [.push q (some (storeLine ty (s.regs.maskBits mk) (List.replicate (abSize ty) (some 0)) 0
          (c.line ty l)).flatten) 0]])))
    ∧ (r.count = 0 → s.regs.ctl.elastic = false → firstOf [s.regs.linesCheck [(ty, l)], ring] = none →
      exec (.vPop fr ty l q mk) s = .next (s.trap ⟨0x05, q.val, 0, 0⟩))

/-- R191 to R193: in strict mode, where no bank is asked for more than eight granules, gathers and bitmap words take all banks,
and land 12 or 8 ticks after issue; a poisoned index and a place outside AB trap, of the first enabled element that has one. Where
elements of a scatter name one place, the highest gives its bytes, and a poisoned one among them poisons its granule (R188;
assumption 29). -/
def Obligations.VectorGatherScatter : Prop :=
  ∀ (s : State) (fr : Frame) (ty : VTy) (l : Line) (x : BufAddr) (off : BitVec 16) (mk : Option (Fin 8)),
    let c := s.core s.slot.core
    let x0 := c.regs.vdAddr x off
    let g := s.gsAddrs ty l x0
    let ids := c.line ty l
    let as_ := idAddrs ty x0 ids
    let en := c.regs.enabled mk
    let gl := [(ty, l), (idxType ty, idxLine l)]
    let gi := [s.regs.lineInc l, s.regs.lineInc (idxLine l), s.regs.postInc x].flatten.eraseDups
    let bi := [s.regs.lineInc l, s.regs.postInc x].flatten.eraseDups
    let does (i : Instr) (ls : List (VTy × Line)) (al : Nat) (addrs : List (Option Int)) (incs more : List Due)
        (check : Option Trap) (d : Due) : Prop :=
      s.regs.ctl.elastic = false → x0 % al = 0 → bankOver (bankLoad (s.liveAddrs fr mk addrs)) 8 = none →
      s.ready fr.pred [s.regs.linesCheck ls] 0 [] (range' 0 32) →
      (check = none → exec i s = .next (s.issued [] (range' 0 32) (incs ++ more ++ [d])))
      ∧ (∀ t, check = some t → exec i s = .next (s.trap t))
    does (.vGather fr ty l x off mk) gl (abSize ty) g.2 gi (allBanks 8 ++ portDue 12) (gatherTrap en false (abSize ty) 0 g.1 g.2)
      (landAt 12 [lineEffect ty (c.regs.lineAt l) ((place 0 g.2).map fun e => if en e.1 then
        some (e.2.bind fun a => fromAb ty (c.bufRead .ab a.toNat (abSize ty))) else none)])
    ∧ does (.vScatter fr ty l x off mk) gl (abSize ty) g.2 gi (allBanks 9) (gatherTrap en true (abSize ty) 0 g.1 g.2)
      (landAt 8 [.store .ab (scatterWrites ((place 0 g.2).flatMap fun e => match e.2 with
        | some a => if en e.1 then place a.toNat (toAb ty (at1 ids e.1)) else []
        | none => []))])
    ∧ does (.vBset fr ty l x off mk) [(ty, l)] 64 as_ bi (allBanks 9) (gatherTrap en true 1 0 ids as_)
      (landAt 8 [.setBits ((place 0 as_).filterMap fun e => match e.2, at1 ids e.1 with
        | some a, some k => if en e.1 then some (a.toNat, BitVec.ofNat 8 (2 ^ (k % 8))) else none
        | _, _ => none)])
    ∧ does (.vBtest fr ty l x off mk) [(ty, l)] 64 as_ bi (allBanks 8 ++ portDue 12) (gatherTrap en false 1 0 ids as_)
      (landAt 12 [lineEffect ty (c.regs.lineAt l) ((place 0 as_).map fun e => if !en e.1 then none else
        some (match at1 ids e.1, e.2 with
          | some k, some a => ((c.bufRead .ab a.toNat 1).headD none).map fun b => b.toNat / 2 ^ (k % 8) % 2
          | some _, none => some 0
          | none, _ => none))])

/-- R194: a lane word takes for element i of its line element j of the source: the lane that sS and k name, the one k places down
or round, or the pattern's; what comes from outside the line is zero, and a poisoned scalar poisons. -/
def Obligations.VectorLanes : Prop :=
  ∀ (s : State) (fr : Frame) (ty : VTy) (d a : Line) (sc x : Fin 32) (k : BitVec 6) (mk : Option (Fin 8)),
    s.ready fr.pred [s.regs.linesCheck [(ty, d), (ty, a)]] 0 [] [] →
    let xs := (s.core s.slot.core).line ty a
    let n := lineCount ty a.dir
    let v := s.regs.getS sc
    let sh : Int := k.toInt + sint 16 (v.getD 0).toNat
    let m := ((s.regs.getS x).getD 0).toNat % 512 % n
    let gives (i : Instr) (lat : Nat) (bad : Bool) (j : Nat → Int) : Prop :=
      s.writesLine i [] (s.regs.lineIncs [d, a] ++ portDue lat) ty d lat (s.elems mk n fun e =>
        if bad then none else if j e < 0 ∨ (n : Int) ≤ j e then some ⟨0, 0, false⟩
        else (at1 xs (j e).toNat).map fun y => ⟨y, 0, false⟩)
    gives (.vBcast fr ty d a sc k mk) 2 v.isNone (fun _ => sh % (n : Int))
    ∧ gives (.vLshift fr ty d a sc k mk) 2 v.isNone (fun e => (e : Int) - sh)
    ∧ gives (.vLrot fr ty d a sc k mk) 2 v.isNone (fun e => ((e : Int) - sh) % (n : Int))
    ∧ gives (.vPerm fr ty .rev d a mk) 3 false (fun e => ((n - 1 - e : Nat) : Int))
    ∧ gives (.vPerm fr ty (.xor x) d a mk) 3 (s.regs.getS x).isNone (fun e => ((e ^^^ m : Nat) : Int))
    ∧ gives (.vPerm fr ty .zip d a mk) 3 false (fun e => ((if e % 2 = 0 then e / 2 else n / 2 + e / 2 : Nat) : Int))
    ∧ gives (.vPerm fr ty .unzip d a mk) 3 false (fun e => ((if e < n / 2 then 2 * e else 2 * (e - n / 2) + 1 : Nat) : Int))

/-- R100 and R195 to R198: reductions over groups of 2^g elements by the fixed tree, and scans; a disabled element is absent, a
poisoned one poisons its group, and only the first elements of the destination, one for each group, are written by a
reduction. -/
def Obligations.VectorReductions : Prop :=
  ∀ (s : State) (fr : Frame) (ty : VTy) (d a : Line) (g : Fin 16) (mk : Option (Fin 8)),
    s.ready fr.pred [s.regs.linesCheck [(ty, d), (ty, a)]] 0 [] [] →
    let gs := groupsOf g.val (s.leaves ty a mk)
    let tree (f : RedFn) (xs : List RPlace) : Option Elem := rootElem f ty (treeRoot (joinPlaces f ty s.rmodeV s.ftzV) g.val xs)
    let books (lat : Nat) := s.regs.lineIncs [d, a] ++ portDue lat
    let one (i : Instr) (wty : VTy) (lat : Nat) (f : List RPlace → Option Elem) : Prop :=
      s.writesLine i [] (books lat) wty d lat
        (gs.map (fun x => some (f x)) ++ List.replicate (lineCount ty d.dir - gs.length) none)
    let idx := if ty.isH16 then .s16 else if isTwo ty then .s64 else .s36
    one (.vRsum fr ty d a g mk) ty (if ty.isFloat then 12 else 6) (tree .sum)
    ∧ one (.vRmax fr ty d a g mk) ty 6 (tree .max) ∧ one (.vRmin fr ty d a g mk) ty 6 (tree .min)
    ∧ one (.vArgmax fr ty d a g mk) idx 8 (argGroup ty fun x y => ranksAbove ty s.ftzV x y)
    ∧ one (.vArgmin fr ty d a g mk) idx 8 (argGroup ty fun x y => ranksAbove ty s.ftzV y x)
    ∧ s.writesLine (.vScan fr ty d a g mk) [] (books (if ty.isFloat then 16 else 8)) ty d (if ty.isFloat then 16 else 8)
        (gs.flatMap (scanGroup (joinPlaces .sum ty s.rmodeV s.ftzV) ty g.val))

/-- R199 and R200: `v.match` writes whether an enabled stop string ends, or with `.part` begins, at the place that sS names,
poisoned where it is or what it reads is; `v.rndfill` pops a random word, or two for F64, for each element, enabled or not.
R201: mask words write a mask a tick after issue; `v.mset` sets the low sS bits, at most 512, and `v.mcount` compares the
number of bits set with sS. -/
def Obligations.MatchRandomFillAndMasks : Prop :=
  (∀ (s : State) (fr : Frame) (ty : VTy) (pe : Fin 16) (part : Bool) (pat win d : Line) (sc q : Fin 32) (mk : Option (Fin 8)),
      let c := s.core s.slot.core
      let v := s.regs.getS sc
      let e := (v.getD 0).toNat % 512
      let ps := c.line .s16 pat
      let ws := c.line .s16 win
      let hit := (range' 0 16).any fun k => s.regs.enabled mk k && patHit (ps.map (·.getD 0)) (ws.map (·.getD 0)) e k part
      let poison := v.isNone || ps.any (·.isNone) || (ws.take (e + 1)).any (·.isNone)
      let n := lineCount ty d.dir
      let k := if ty = .f64 then 2 * n else n
      (s.ready fr.pred [s.regs.linesCheck [(.s16, pat), (.s16, win)]] 0 [] [] →
        exec (.vMatch fr pe part pat win sc mk) s = .next (s.issued [] [] (s.regs.lineIncs [pat, win]
          ++ [landAt 4 [.setP pe ⟨hit && !poison, poison⟩]])))
      ∧ (s.ready fr.pred [s.regs.linesCheck [(ty, d)], s.regs.ringCheck q fun r => r.buf == 3 && r.esize == 1] 0 [s.regs.popDev q k] [] →
        s.writesLine (.vRndfill fr ty d q mk) [] (s.regs.lineIncs [d] ++ (portDue 6 ++ [popDue q k])) ty d 6
          (s.elems mk n (fillElem ty ((c.entries q k).map fun e => (leNat? e).map (· % 2 ^ 32))))))
  ∧ (∀ (s : State) (fr : Frame) (d a b : Fin 8) (cc : Cc) (sc : Fin 32),
      s.predOn fr.pred = true →
      let x := s.regs.vm[a]
      let y := s.regs.vm[b]
      let gives (i : Instr) (v : BitVec 512) : Prop := exec i s = .next (s.issued [] [] [landAt 1 [.setVm d v]])
      let count (v : PReg) : Prop := exec (.vMcount fr d a cc sc) s = .next (s.issued [] [] [landAt 2 [.setP (d.castLE (by decide)) v]])
      gives (.vMand fr d a b) (x &&& y) ∧ gives (.vMor fr d a b) (x ||| y) ∧ gives (.vMxor fr d a b) (x ^^^ y)
      ∧ gives (.vMnot fr d a) (~~~x)
      ∧ (∀ v, s.regs.getS sc = some v →
        gives (.vMset fr d sc) (BitVec.ofNat 512 (2 ^ min v.toNat 512 - 1))
        ∧ count ⟨intRel cc 64 (popCount 512 x.toNat) v.toNat, false⟩)
      ∧ (s.regs.getS sc = none → exec (.vMset fr d sc) s = .next (s.trap ⟨0x18, 0, 0, 0⟩) ∧ count ⟨false, true⟩))

/-! ### Load-copy words -/

/-- R202 to R206, R209, R210 and R215: a load-copy word of rows whose descriptor, addresses, region and pages permit it reads its
beats at the issue tick and lands them at t + land + j: into a buffer, as entries of a ring (with their last beat; as B9 blocks
where conv is 1), or as rows of a tile. -/
def Obligations.LoadRows : Prop :=
  ∀ (s : State) (fr : Frame) (tok : Tok) (wb : Bool) (x : BufAddr) (sc q : Fin 32) (ty : VTy) (tile : Fin 7) (desc : Fin 2048)
    (land : Fin 8192) (d : Desc) (ps : List (List (Home × Nat))),
    let c := s.core s.slot.core
    let v := c.regs.getS sc
    let ea := c.regs.ea x
    let rs := range' 0 (d.rows + 1)
    let aligned := rs.map fun r => failIf (d.va v r % 8 != 0) ⟨0x02, 0, d.va v r, 0⟩
    let dev (nb : Nat) := [c.regs.tokDev (tokPops .L tok), s.lSlotDev land.val nb]
    c.desc desc = some d →
    (
      let b : Buf := if wb then .wb else .ab
      let bs := beatsOf (d.rows + 1) d.rbytes (beatSize b)
      let nb := bs.length
      d.fits [.bstride, .dstride, .rows, .rbytes, .doff] = true → s.ready fr.pred [] (land.val + nb - 1) (dev nb) [] →
      s.rowChecks .load v (rs.flatMap fun r => [failIf (d.va v r % 8 != 0) ⟨0x02, 0, d.va v r, 0⟩, bufAlign b d.rbytes (d.ba ea r)])
        (rs.map fun r => bufRange b d.rbytes (d.ba ea r)) (rs.map fun r => (d.va v r, d.rbytes)) true land.val nb = .ok ps →
      exec (.lTile fr tok wb x sc desc land) s = .next (s.loadIssued tok land.val nb (s.incs x)
        (bs.map fun k => (k.j, bufBanks b (d.ba ea k.row + k.lo) k.n))
        (bs.map fun k => let hs := cutPieces (nth ps k.row []) k.lo k.n
          ⟨k.j, [], hs, [.store b (place (d.ba ea k.row + k.lo) (s.homeReads hs))], 0⟩) []))
    ∧ (
      let b : Buf := (c.regs.ring q).buffer.getD .ab
      let conv := d.conv == 1
      let bs := beatsOf (d.rows + 1) d.rbytes (beatSize b)
      let nb := bs.length
      let last (e : RowBeat) : Bool := e.lo + e.n == d.rbytes
      d.fits [.conv, .dstride, .rows, .rbytes, .doff] = true → d.conv ≤ 1 → (d.conv = 1 → d.rbytes = 256) →
      s.ready fr.pred [c.regs.ringCheck q fun g =>
        if conv then g.buf == 1 && g.esize == 40 else (g.buf == 1 || g.buf == 2) && g.ebytes == d.rbytes]
        (land.val + nb - 1) (dev nb) [] →
      s.rowChecks .load v aligned [] (rs.map fun r => (d.va v r, d.rbytes)) true land.val nb = .ok ps →
      c.tagCheck q 0 (s.slot.tick + land.val + cdiv d.rbytes (beatSize b) - 1) = none →
      exec (.lRing fr tok q sc desc land) s = .next (s.loadIssued tok land.val nb []
        (bs.map fun e => (e.j, bufBanks b (c.pushAddr q (s.slot.tick + land.val + e.j) e.row + e.lo) (if conv then 320 else e.n)))
        (bs.map fun e => let row := nth ps e.row []
          ⟨e.j, [], cutPieces row e.lo e.n, if last e then
            [.push q (some (if conv then s8Block (s.homeReads row) else s.homeReads row)) 0] else [], 0⟩) []))
    ∧ (
      let n := lineBytes ty .r
      let bs := beatsOf (d.rows + 1) n 1024
      let nb := bs.length
      let last (e : RowBeat) : Bool := e.lo + e.n == n
      d.fits [.dstride, .rows, .rbytes, .doff] = true → d.rbytes = n →
      s.ready fr.pred [c.regs.lineTile ⟨tile, .r, .imm 0⟩] (land.val + nb - 1) (dev nb) [] →
      s.rowChecks .load v aligned [] (rs.map fun r => (d.va v r, n)) true land.val nb = .ok ps →
      exec (.lRow fr tok ty tile x sc desc land) s = .next (s.loadIssued tok land.val nb (s.incs x)
        (bs.map fun e => (e.j, if last e then [48] else []))
        (bs.map fun e => let row := nth ps e.row []
          ⟨e.j, [], cutPieces row e.lo e.n, if last e then
            [loadEffect ty ⟨tile.val, .r, (ea % 256 + e.row) % 256⟩ (s.homeReads row) (BitVec.allOnes 512)] else [], 0⟩) []))

/-- R211: `l.halo` reads the columns of its tile rows that lie in the image, and pads the others. -/
def Obligations.LoadHalo : Prop :=
  ∀ (s : State) (fr : Frame) (tok : Tok) (pad : Pad) (x : BufAddr) (sc : Fin 32) (desc : Fin 2048) (land : Fin 8192) (d : Desc)
    (v : W64) (ps : List (List (Home × Nat))),
    let c := s.core s.slot.core
    let oy := sint 32 (v.toNat / 2 ^ 32)
    let ox := sint 32 v.toNat
    let z := 2 ^ d.conv
    let h := d.aux / 2 ^ 32
    let w := d.aux % 2 ^ 32
    let ea := c.regs.ea x
    let rs := range' 0 (d.rows + 1)
    let cols := d.rbytes / z
    let bs := beatsOf (d.rows + 1) d.rbytes 512
    let nb := bs.length
    let span (r : Nat) := haloSpan pad h w (oy + r) ox cols
    c.desc desc = some d → c.regs.getS sc = some v →
    d.fits ([.aux, .bstride, .conv, .dstride, .rows, .rbytes, .doff] ++ if pad = .const then [.par] else []) = true →
    d.conv ≤ 3 → d.dstride % (z : Int) = 0 → 1 ≤ h ∧ 1 ≤ w → d.doff % (z : Int) = 0 →
    s.ready fr.pred [] (land.val + nb - 1) [c.regs.tokDev (tokPops .L tok), s.lSlotDev land.val nb] [] →
    s.rowChecks .load (some v) (rs.map fun r => bufAlign .ab d.rbytes (d.ba ea r)) (rs.map fun r => bufRange .ab d.rbytes (d.ba ea r))
      (rs.map fun r => d.haloRow z (span r)) true land.val nb = .ok ps →
    exec (.lHalo fr tok pad x sc desc land) s = .next (s.loadIssued tok land.val nb (s.incs x)
      (bs.map fun e => (e.j, bufBanks .ab (d.ba ea e.row + e.lo) e.n))
      (bs.map fun e =>
        let pieces := nth ps e.row []
        let lo := match span e.row with | some (_, a, _) => a | none => 0
        ⟨e.j, [], (match haloSpan pad h w (oy + e.row) (ox + (e.lo / z : Nat)) (e.n / z : Nat) with
          | some (_, a, b) => cutPieces pieces ((a - lo) * z) ((b + 1 - a) * z)
          | none => []),
          [.store .ab (place (d.ba ea e.row + e.lo) ((range' (e.lo / z) (e.n / z)).flatMap fun (k : Nat) =>
            haloElem pad z w d.par lo (s.homeReads pieces) (span e.row).isSome (ox + k)))], 0⟩) [])

/-- R212: `l.narrow` pushes its rows as narrowed blocks, one entry a tick, with the flags of each. -/
def Obligations.LoadNarrow : Prop :=
  ∀ (s : State) (fr : Frame) (tok : Tok) (k : Fin 8) (q sc : Fin 32) (desc : Fin 2048) (land : Fin 8192) (d : Desc) (src : NSrc)
    (md : RMode) (fmt : NFmt) (blk : Blk) (ps : List (List (Home × Nat))),
    let c := s.core s.slot.core
    let v := c.regs.getS sc
    let n := src.count d.rbytes
    let en := entryElems fmt
    let per := n / en
    let nb := (d.rows + 1) * per
    let key := c.regs.k[k]
    let tag := tagOf (d.par / 512 % 2 == 1) blk k key.gen
    let isMx := match src with | .mx _ => true | _ => false
    let rs := range' 0 (d.rows + 1)
    c.desc desc = some d → d.narrowOk c.regs.ctl.round.toNat = true →
    nsrcOf (d.par % 16) = some src → nrndOf (fld d.par 6 4) c.regs.ctl.round.toNat = some md → nfmtOf d.conv = some fmt →
    blkOf (fld d.par 8 7) = some blk →
    s.ready fr.pred [c.regs.ringCheck q fun g => g.buf == 1 && g.esize == 40] (land.val + nb - 1)
      [c.regs.tokDev (tokPops .L tok), s.lSlotDev land.val nb] [] →
    s.rowChecks .load v (rs.map fun r => failIf (d.va v r % 8 != 0) ⟨0x02, 0, d.va v r, 0⟩) []
      (rs.flatMap fun r => [(d.va v r, d.rbytes), (ubits 64 ((d.va v r : Nat) + sint 64 d.aux), if isMx then n / 32 else 0)])
      true land.val nb = .ok ps →
    c.tagCheck q tag (s.slot.tick + land.val) = none →
    exec (.lNarrow fr tok k q sc desc land) s = .next (s.loadIssued tok land.val nb []
      ((range' 0 nb).map fun j => (j, bufBanks .ab (c.pushAddr q (s.slot.tick + land.val + j) j) 320))
      (rs.flatMap fun r =>
        let row := nth ps (2 * r) []
        let scl := nth ps (2 * r + 1) []
        let es := cleanSrc en ((range' 0 n).map (src.elem s.ftzV (s.homeReads row) (s.homeReads scl)))
        let out := narrowLine fmt (blkN blk) key.seed (fun _ => md) (fun _ => true) (es.map Prod.fst).flatten
        (place 0 (List.zip out es)).map fun y =>
          ⟨r * per + y.1, [], cutPieces row (src.bytes (y.1 * en)) (src.bytes en)
            ++ cutPieces scl (y.1 * en / 32) (if isMx then en / 32 else 0),
            [.push q (some (if y.2.2.2 then List.replicate y.2.1.1.length none else y.2.1.1.map some)) tag], y.2.1.2⟩) [])

/-- R213 and R214: `l.csr` pushes the blocks and offsets of its segment, and entries of zeros up to its length; `l.gather` lands
the rows that the first group of its index list names, and reads the further groups at the ticks that follow. -/
def Obligations.LoadIndexed : Prop :=
  ∀ (s : State) (fr : Frame) (tok : Tok) (q sc : Fin 32) (x : BufAddr) (desc : Fin 2048) (land : Fin 8192) (d : Desc) (v : W64),
    let c := s.core s.slot.core
    let ea := c.regs.ea x
    let n := d.rows + 1
    let q1 : Fin 32 := Fin.ofNat 32 (q.val + 1)
    c.desc desc = some d → c.regs.getS sc = some v →
    (∀ pp ps, d.fits [.aux, .rows, .doff] = true →
      s.ready fr.pred [c.regs.ringCheck q fun g => g.buf == 1 && g.esize == 40, c.regs.ringCheck q1 fun g => g.buf == 1 && g.esize == 1]
        (land.val + n - 1) [c.regs.tokDev (tokPops .L tok), s.lSlotDev land.val n] [] →
      s.csrSegment d (some v) ea n land.val = .ok (pp, ps) →
      c.tagCheck q 0 (s.slot.tick + land.val) = none → c.tagCheck q1 0 (s.slot.tick + land.val) = none →
      let beats : List LBeat := (range' 0 n).map fun e => match ps[e]? with
        | some (b, o) => ⟨e, [], b ++ o,
          [.push q (some (s.homeReads b)) 0, .push q1 (some (s.homeReads o ++ List.replicate 7 (some 0))) 0], 0⟩
        | none => ⟨e, [], [],
          [.push q (some (List.replicate 320 (some 0))) 0, .push q1 (some (List.replicate 8 (some 0))) 0], 0⟩
      let t := s.issued (tokPops .L tok) [] (s.incs x
        ++ lSlots land.val ((range' 0 n).map fun e => let u := s.slot.tick + land.val + e
          (e, (bufBanks .ab (c.pushAddr q u e) 320 ++ bufBanks .ab (c.pushAddr q1 u e) 8).eraseDups))
        ++ (s.lDues land.val beats ++ tokPushes .L tok (land.val + n - 1)))
      let u := pp.foldl (fun (t : State) p => t.chargeBeat false p.1 p.2 0 (t.readSlack land.val p.1) land.val) t
      exec (.lCsr fr tok q x sc desc land) s
        = .next (u.addBeats false (u.readSlack land.val) (beats.map fun b => (b.j, land.val + b.j, b.homes))))
    ∧ (∀ bs,
      let rs := range' 0 n
      let g : Gather := ⟨d.aux % 2 ^ 32, n, d.aux / 2 ^ 32, d.va (some v) 0, d.dstride, d.rbytes, ea, d.bstride, land.val⟩
      let grans := cdiv n 16
      let groups := cdiv grans 8
      let banks (k : Nat) := (range' (8 * k) (min 8 (grans - 8 * k))).map fun i => (g.list / 64 + i) % 32
      let nb := n * cdiv d.rbytes 512
      d.fits [.aux, .bstride, .dstride, .rows, .rbytes, .doff] = true → d.rows < 1024 → d.aux % 64 = 0 → groups < land.val →
      s.ready fr.pred [] (land.val + nb - 1) [c.regs.tokDev (tokPops .L tok), s.lSlotDev land.val nb] (banks 0) →
      firstOf ((rs.map fun r => bufAlign .ab d.rbytes (d.ba ea r)) ++ (rs.map fun r => bufRange .ab d.rbytes (d.ba ea r))
        ++ [bufRange .ab (4 * n) g.list]) = none →
      s.gatherGroup g s 0 = .ok bs →
      let t := s.issued (tokPops .L tok) (banks 0) (s.incs x
        ++ ((range' 1 (groups - 1)).flatMap fun k => banksAt k .L (banks k))
        ++ lSlots land.val ((beatsOf n d.rbytes 512).map fun e => (e.j, bufBanks .ab (d.ba ea e.row + e.lo) e.n))
        ++ (s.lDues land.val bs ++ ((range' 1 (groups - 1)).map fun k =>
            ((k, 3, .read (.index k g.list n g.limit g.a0 g.dstride g.rbytes g.b0 g.bstride g.land s.hbm s.host s.peer s.now
              (c.regs.gatherUndo tok x))) : Due))
          ++ tokPushes .L tok (land.val + nb - 1)))
      exec (.lGather fr tok x sc desc land) s
        = .next (t.addBeats false (t.readSlack land.val) (bs.map fun b => (b.j, land.val + b.j, b.homes))))

/-! ### Store-copy words -/

/-- R205, R217 and R218: a store-copy word whose descriptor, addresses, region and pages permit it reads its beats or rows from
AB, a ring or the MRF at its read ticks, to be performed at their homes at t + land + j. -/
def Obligations.StoreRows : Prop :=
  ∀ (s : State) (fr : Frame) (tok : Tok) (x : BufAddr) (sc q : Fin 32) (op : AccOp) (ty : VTy) (tile : Fin 7) (desc : Fin 2048)
    (land : Fin 8192) (d : Desc) (ps : List (List (Home × Nat))),
    let c := s.core s.slot.core
    let v := c.regs.getS sc
    let ea := c.regs.ea x
    let rs := range' 0 (d.rows + 1)
    let bs := beatsOf (d.rows + 1) d.rbytes 512
    let nb := bs.length
    let aligned := rs.map fun r => failIf (d.va v r % 8 != 0) ⟨0x02, 0, d.va v r, 0⟩
    let reads := bs.map fun k => (k.j, bufBanks .ab (d.ba ea k.row + k.lo) k.n)
    let lands := bs.map fun k => land.val + k.j
    let last := land.val + nb - 1
    let cut (k : RowBeat) := cutPieces (nth ps k.row []) k.lo k.n
    let fromAb (i : Instr) (a : Access) (h : HomeOp) : Prop :=
      d.fits [.bstride, .dstride, .rows, .rbytes, .doff] = true → s.storeReady fr tok [] [] reads lands last →
      s.rowChecks a v (rs.flatMap fun r => [failIf (d.va v r % 8 != 0) ⟨0x02, 0, d.va v r, 0⟩, bufAlign .ab d.rbytes (d.ba ea r)])
        (rs.map fun r => bufRange .ab d.rbytes (d.ba ea r)) (rs.map fun r => (d.va v r, d.rbytes)) false land.val nb = .ok ps →
      exec i s = .next (s.storeIssued tok reads land.val lands last (s.incs x)
        (bs.map fun k => (k.j, 3, .read (.ab (d.ba ea k.row + k.lo) k.n (cut k) (s.slot.tick + land.val + k.j) h)))
        (bs.map fun k => (land.val + k.j, cut k)))
    c.desc desc = some d →
    fromAb (.wTile fr tok (.ab x) sc desc land) .store .write
    ∧ fromAb (.wAcc fr tok op x sc desc land) (.acc (accNo op)) (.acc op s.regs.ctl.round)
    ∧ (
      let k := cdiv d.rbytes 512
      d.fits [.dstride, .rows, .rbytes, .doff] = true →
      s.storeReady fr tok [c.regs.ringCheck q fun g => g.buf == 1 && g.ebytes == d.rbytes] [c.regs.popDev q 1]
        (bs.map fun e => (e.j, [])) lands last →
      s.rowChecks .store v aligned [] (rs.map fun r => (d.va v r, d.rbytes)) false land.val nb = .ok ps →
      exec (.wTile fr tok (.ring q) sc desc land) s = .next (s.storeIssued tok (bs.map fun e => (e.j, [])) land.val lands last []
        (rs.map fun r => (r * k, 3, .read (.ring q d.rbytes (nth ps r []) (s.slot.tick + land.val + r * k))))
        (bs.map fun e => (land.val + e.j, cut e))))
    ∧ (
      let n := lineBytes ty .r
      let bs := beatsOf (d.rows + 1) n 1024
      let reads := bs.map fun e => (e.j, if e.lo = 0 then [48] else [])
      let lands := bs.map fun e => land.val + e.j
      let last := land.val + bs.length - 1
      d.fits [.dstride, .rows, .rbytes, .doff] = true → d.rbytes = n →
      s.storeReady fr tok [c.regs.lineTile ⟨tile, .r, .imm 0⟩] [] reads lands last →
      s.rowChecks .store v aligned [] (rs.map fun r => (d.va v r, n)) false land.val bs.length = .ok ps →
      exec (.wRow fr tok ty tile x sc desc land) s = .next (s.storeIssued tok reads land.val lands last (s.incs x)
        (rs.map fun r => (n / 1024 * r, 3,
          .read (.row ty tile.val ((ea % 256 + r) % 256) (nth ps r []) (s.slot.tick + land.val + n / 1024 * r))))
        (bs.map fun e => (land.val + e.j, cutPieces (nth ps e.row []) e.lo e.n)) (fun j => j / (n / 1024) * (n / 1024))))

/-- R221: `w.filt` reads the bitmap and then the logits, sends the masked logits to their home, and leaves its record 320 ticks
after the last. -/
def Obligations.StoreFilter : Prop :=
  ∀ (s : State) (fr : Frame) (tok : Tok) (bf16 : Bool) (x : BufAddr) (sc : Fin 32) (desc : Fin 2048) (land : Fin 8192) (d : Desc)
    (v : W64) (ps : List (Home × Nat)),
    let c := s.core s.slot.core
    let ea := c.regs.ea x
    let f : FiltJob := ⟨d.aux / 2 ^ 32, ea, ubits 32 d.bstride, [], bf16, d.aux % 2 ^ 32, d.par, s.slot.tick + land.val, [], 0, 0, 0,
      [], false, false⟩
    let nb := f.beats
    let last := land.val + nb - 1 + 320
    let bytes := f.v * f.size
    let logits := range' f.maps (nb - f.maps)
    let reads := (range' 0 nb).map fun j => (j, bufBanks .ab (f.beat j).1 (f.beat j).2)
    let lands := logits.map fun j => land.val + j
    c.desc desc = some d → c.regs.getS sc = some v →
    d.fits [.aux, .bstride, .par, .doff] = true → d.par ≤ 64 → f.v % 512 = 0 → 512 ≤ f.v ∧ f.v ≤ 262144 →
    f.bitmap % 64 = 0 → f.record % 64 = 0 → s.storeReady fr tok [] [] reads lands last →
    d.va (some v) 0 % 8 = 0 → ea % 64 = 0 → s.devPieces .store true (d.va (some v) 0) bytes = .ok ps →
    firstOf [bufRange .ab bytes ea, bufRange .ab (f.v / 8) f.bitmap, bufRange .ab 512 f.record,
      s.landTrap false land.val nb [(d.va (some v) 0, bytes)]] = none →
    exec (.wFilt fr tok bf16 x sc desc land) s = .next (s.storeIssued tok reads land.val lands last
      (s.incs x ++ [(last, 1, .land [.banks .W (52 :: bufBanks .ab f.record 512)])])
      [(0, 3, .read (.filt { f with homes := ps } 0))]
      (logits.map fun j => (land.val + j, cutPieces ps (512 * (j - f.maps)) 512)))

/-- R219 and R220: an atomic or signal word whose operands are whole, whose address is aligned and lies in a page of HBM or the
host that grants it, hands its operation to the outbound path, with the value and the scope given; a peer's page traps with code
0x20. -/
def Obligations.AtomicWords : Prop :=
  ∀ (s : State) (fr : Frame) (tok : Tok) (op : AmoOp) (ty : AmoTy) (sg : SigOp) (sc : Scope) (rel : Bool) (a v c : Fin 32)
    (va x y : W64),
    s.ready fr.pred [] 0 [s.regs.tokDev (tokPops .W tok)] [] →
    s.regs.getS a = some va → s.regs.getS v = some x → s.regs.getS c = some y →
    let t := s.issued (tokPops .W tok) [] (tokPushes .W tok 1)
    let word (i : Instr) (n : Nat) (acc : Access) (kind : OpKind) : Prop :=
      (∀ h m hs, va.toNat % n = 0 → s.devCheck s.slot.core acc va.toNat n = .ok ((h, m) :: hs) →
        ((∀ x y z pa, h ≠ .peer x y z pa) → exec i s = .next (t.newOp kind va.toNat (some h) [] sc rel))
        ∧ (∀ x y z pa, h = .peer x y z pa → exec i s = .next (s.trap ⟨0x20, 0, va.toNat, 0⟩)))
      ∧ (va.toNat % n ≠ 0 → exec i s = .next (s.trap ⟨0x02, 0, va.toNat, 0⟩))
    word (.wAmo fr tok op ty sc rel a v c) (match ty with | .s32 | .f32 => 4 | _ => 8) .amo (.amo op ty x y)
    ∧ word (.wSig fr tok sg sc rel a v) 8 .sig (.sig sg x)

/-! ### Link words -/

/-- R222 to R224: `x.send` reads its beats from AB, or from a ring whose entries it pops, at t + j and sends them to the peer, where
its land is at least the least land of the path. -/
def Obligations.LinkSend : Prop :=
  ∀ (s : State) (fr : Frame) (path : Path) (x : BufAddr) (q : Fin 32) (desc : Fin 2048) (land : Fin 8192) (d : Desc),
    let c := s.core s.slot.core
    let ea := c.regs.ea x
    let rs := range' 0 (d.rows + 1)
    let bs := beatsOf (d.rows + 1) d.rbytes 256
    let reads := bs.map fun k => (k.j, bufBanks .ab (d.ba ea k.row + k.lo) k.n)
    let banks := match reads with | r :: _ => 54 :: r.2 | [] => []
    let slots := s.xSlotDev 54 (bs.map (·.j))
    c.desc desc = some d → (∀ n, leastLand s.slot.core path d.peer = some n → n ≤ land.val) →
    (d.fits [.bstride, .peer, .rows, .rbytes] = true →
      s.ready fr.pred [s.pathTrap path d.peer] (land.val + bs.length - 1) [slots] banks →
      firstOf ((rs.map fun r => bufAlign .ab d.rbytes (d.ba ea r)) ++ (rs.map fun r => bufRange .ab d.rbytes (d.ba ea r))) = none →
      exec (.xSend fr path (.ab x) desc land) s = .next (s.issued [] banks (s.incs x ++ xSlots reads ++ bs.map fun k =>
        (k.j, 3, .read (.send (d.ba ea k.row + k.lo) k.n path d.peer land.val d.rows d.rbytes k.j 0 true)))))
    ∧ (d.fits [.peer, .rows, .rbytes] = true →
      s.ready fr.pred [s.pathTrap path d.peer, c.regs.ringCheck q fun g => g.buf == 1 && g.ebytes == d.rbytes] (land.val + bs.length - 1)
        [c.regs.popDev q 1, slots] [54] →
      exec (.xSend fr path (.ring q) desc land) s = .next (s.issued [] [54] (xSlots (bs.map fun e => (e.j, [])) ++ rs.map fun r =>
        (r * cdiv d.rbytes 256, 3, .read (.sendRing q path d.peer land.val d.rows d.rbytes (r * cdiv d.rbytes 256)
          (c.regs.ring q).rtag true)))))

/-- R224 to R226: a receiving word takes up the transfer that is due at its tick on its path from its peer, of its size, and
does with beat j at D + j what it is for: `x.recv` into AB, WB or a ring, `x.red` into AB two ticks later, `x.fwd` on to
another core a tick later. -/
def Obligations.LinkReceive : Prop :=
  ∀ (s : State) (fr : Frame) (path : Path) (x : BufAddr) (q : Fin 32) (desc : Fin 2048) (op : RedOp) (land : Fin 8192) (d : Desc)
    (b : LinkBeat),
    let c := s.core s.slot.core
    let ea := c.regs.ea x
    let rs := range' 0 (d.rows + 1)
    let bs := beatsOf (d.rows + 1) d.rbytes 256
    let nb := (d.rows + 1) * cdiv d.rbytes 256
    let D := sendTick s.slot.core s.src
    let takes (i : Instr) (inPath : Path) (us : List DField) (dec : List (Option Trap)) (dev : List (Option (Trap × Bool))) (span : Nat)
        (inc : List Due) (banks : List (Nat × List Nat)) (data : List (Option Trap)) (jobs : List (Nat × Nat × RecvJob)) : Prop :=
      let first := (566 :: (banks.filter fun b => b.1 == 0).flatMap Prod.snd).eraseDups
      d.fits us = true → s.active → c.firstBeat D inPath d.peer = some b → b.rows = d.rows ∧ b.rbytes = d.rbytes →
      (c.regs.ctl.elastic || !c.slotTaken .X 566 s.slot.tick nb) = true →
      s.ready fr.pred (s.pathTrap inPath d.peer :: dec) span dev first → (b.empty = false → firstOf data = none) →
      exec i s = .next ((s.issued [] first (inc ++ (range' 1 (nb - 1)).flatMap (fun o => banksAt o .X [566])
          ++ ((banks.filter fun b => b.1 != 0).flatMap fun b => banksAt b.1 .X b.2)
          ++ jobs.map fun j => (j.1, j.2.1, .link D inPath d.peer j.1 j.2.2 true))).takeUp inPath d.peer)
    let row (k : RowBeat) := d.ba ea k.row + k.lo
    let fit (b : Buf) := (rs.map fun r => bufAlign b d.rbytes (d.ba ea r)) ++ (rs.map fun r => bufRange b d.rbytes (d.ba ea r))
    c.desc desc = some d →
    takes (.xRecv fr path (.ab x) desc) path [.bstride, .peer, .rows, .rbytes] [] [] (bs.length - 1) (s.incs x)
      (bs.map fun k => (k.j, bufBanks .ab (row k) k.n)) (fit .ab) (bs.map fun k => (k.j, 1, .ab (row k)))
    ∧ takes (.xRecv fr path (.wb x) desc) path [.bstride, .peer, .rows, .rbytes] [] [] (bs.length - 1) (s.incs x)
      (bs.map fun k => (k.j, bufBanks .wb (row k) k.n)) (fit .wb) (bs.map fun k => (k.j, 1, .wb (row k) (min k.lo (row k % 72))))
    ∧ takes (.xRecv fr path (.ring q) desc) path [.peer, .rows, .rbytes]
      [c.regs.ringCheck q fun g => (g.buf == 1 || g.buf == 2) && g.ebytes == d.rbytes] [] (bs.length - 1) []
      (bs.map fun e => (e.j, bufBanks ((c.regs.ring q).buffer.getD .ab) (c.pushAddr q (s.slot.tick + e.j) e.row + e.lo) e.n))
      [c.tagCheck q b.tag (s.slot.tick + cdiv d.rbytes 256 - 1)]
      (bs.map fun e => (e.j, 1, if e.lo + e.n = d.rbytes then .ring q (cdiv d.rbytes 256) else .wait))
    ∧ (d.par ≤ 1 → takes (.xRed fr path op x desc) path [.bstride, .peer, .rows, .rbytes, .par] [] [] (bs.length + 1) (s.incs x)
      (bs.map (fun k => (k.j, bufBanks .ab (row k) k.n)) ++ bs.map fun k => (k.j + 2, bufBanks .ab (row k) k.n)) (fit .ab)
      (bs.map fun k => (k.j, 3, .red op (row k) (d.par == 1) c.regs.ctl.round)))
    ∧ (∀ inPath, pathOf d.conv = some inPath → d.aux < 256 →
      takes (.xFwd fr path desc land) inPath [.aux, .conv, .peer, .rows, .rbytes] [s.pathTrap path d.aux]
        [s.xSlotDev 54 (bs.map fun k => k.j + 1), s.leastDev path d.aux land.val 1] (land.val + bs.length - 1) []
        (bs.map fun k => (k.j + 1, [54])) [] (bs.map fun k => (k.j, 1, .fwd path d.aux land.val)))

/-- R227 to R229: `x.put` and `x.sig` hand an operation to the outbound path, `x.put` with its beats to be read from AB at
t + j; `x.align`, in a system phase, sends a beat and leaves its record 352 ticks later. -/
def Obligations.LinkUntimetabled : Prop :=
  ∀ (s : State) (fr : Frame) (path : Path) (sem : Fin 32) (op : SigOp) (x : BufAddr) (sc : Fin 32) (desc : Fin 2048) (d : Desc)
    (v : W64) (ps : List (List (Home × Nat))),
    let c := s.core s.slot.core
    let ea := c.regs.ea x
    let rs := range' 0 (d.rows + 1)
    let bs := beatsOf (d.rows + 1) d.rbytes 256
    let reads := bs.map fun k => (k.j, bufBanks .ab (d.ba ea k.row + k.lo) k.n)
    let banks := match reads with | r :: _ => 54 :: r.2 | [] => []
    let va := d.va (some v) 0
    c.desc desc = some d → c.regs.getS sc = some v →
    (d.fits [.bstride, .dstride, .rows, .rbytes, .doff] = true →
      s.ready fr.pred [] 0 [s.xSlotDev 54 (bs.map (·.j))] banks →
      s.rowChecks .store (some v)
        (rs.flatMap fun r => [failIf (d.va (some v) r % 8 != 0) ⟨0x02, 0, d.va (some v) r, 0⟩, bufAlign .ab d.rbytes (d.ba ea r)])
        (rs.map fun r => bufRange .ab d.rbytes (d.ba ea r)) (rs.map fun r => (d.va (some v) r, d.rbytes)) false (2 ^ 40) bs.length = .ok ps →
      exec (.xPut fr sem x sc desc) s = .next ((s.issued [] banks (s.incs x ++ xSlots reads ++ bs.map fun k =>
          (k.j, 3, .read (.put s.mod.opSeq (d.ba ea k.row + k.lo) k.n (cutPieces (nth ps k.row []) k.lo k.n))))).newOp
        (.put sem [] bs.length) va none (ps.flatten.map Prod.fst) .core false))
    ∧ (d.fits [.aux, .conv, .doff] = true → d.conv < 8 → va % 8 = 0 → s.ready fr.pred [] 0 [] [] →
      exec (.xSig fr op sc desc) s = .next ((s.issued [] [] []).newOp (.sig op (BitVec.ofNat 64 d.aux)) va none []
        (scopeOf d.conv) (d.conv / 4 % 2 == 1)))
    ∧ (s.sysPhase (s.partOf s.slot.core) = true → ea % 64 = 0 → ea + 64 ≤ Config.abBytes →
      s.ready fr.pred [] 352 [s.xSlotDev 54 [0]] [54] →
      exec (.xAlign fr path x) s = .next ((s.issued [] [54] (s.incs x ++ banksAt 352 .X (bufBanks .ab ea 64)
        ++ [(352, 1, .land [.alignCheck path ea])])).emit (.alignBeat s.slot.core path)))

/-! ### Grammar words -/

/-- R239 to R241: `g.bind` checks an image and binds a context to it, 64 ticks later; `g.step` reserves the nodes of its
context, and its step, or dead mark, lands at t + LS; `g.mask` stores the allowed-token bitmap up to t + LM. Each holds the image
port of its core meanwhile (R238). -/
def Obligations.GrammarImageWords : Prop :=
  ∀ (s : State) (fr : Frame) (n : Fin 64) (a : Fin 32) (x : BufAddr) (vc : Fin 512) (land : Fin 8192),
    let co := s.core s.slot.core
    let g := co.gm
    let c := g.ctx[n]
    let ea := co.regs.ea x
    s.active →
    (∀ v h, s.regs.getS a = some v → v.toNat % 4096 = 0 → v.toNat < 2 ^ 52 → co.inRegion 0 v.toNat 64 .image = true →
      g.poison [ctxGranule n] = none → s.imageHead v.toNat = .ok h → s.imageExtent v.toNat h.len = true →
      s.ready fr.pred [] 0 [] [51] →
      exec (.gBind fr n a) s = .next ((s.issued [] [51] (holdDues 64 ++ [landAt 64 [.ctx n (.bind { GCtx.reset with
        image := v.toNat, bound := true, state := h.start, vcode := h.v / 512 - 1, dmax := h.d, pmax := h.pmax, umax := h.umax })]])).holdBeats
          v.toNat 64))
    ∧ (∀ v p, s.regs.getS a = some v → c.bound = true → co.inRegion 0 c.image 64 .image = true → c.umax ≤ g.free →
      64 + c.pmax + c.umax ≤ land.val → s.stepPlan g n c (v.toNat % 2 ^ 32) (g.peekNodes c.umax g.head) = .ok p →
      g.refTrap p.refs p.drops = none → s.ready fr.pred [] 0 [] [51] →
      let back := ((g.peekNodes c.umax g.head).drop p.nodes.length).mergeSort fun a b => decide (b ≤ a)
      exec (.gStep fr n (.reg a) land) s = .next (((s.issued [] [51] (holdDues land.val
        ++ [landAt land.val ((match p.upd with | some u => [Effect.ctx n u] | none => []) ++ [.nodesBack back])])).setGM
          ((((g.takeNodes c.umax).refAll p.refs).dropAll p.drops).build p.nodes p.base)).holdBeats c.image land.val))
    ∧ (∀ tok p, leNat? (co.bufRead .ab ea 4) = some tok → ea % 4 = 0 → ea + 4 ≤ Config.abBytes → c.bound = true →
      co.inRegion 0 c.image 64 .image = true → c.umax ≤ g.free → 64 + c.pmax + c.umax ≤ land.val →
      s.stepPlan g n c tok (g.peekNodes c.umax g.head) = .ok p → g.refTrap p.refs p.drops = none →
      s.ready fr.pred [] 0 [] [51, ea / 64 % 32] →
      let back := ((g.peekNodes c.umax g.head).drop p.nodes.length).mergeSort fun a b => decide (b ≤ a)
      exec (.gStep fr n (.ab x) land) s = .next (((s.issued [] [51, ea / 64 % 32] (s.incs x ++ holdDues land.val
        ++ [landAt land.val ((match p.upd with | some u => [Effect.ctx n u] | none => []) ++ [.nodesBack back])])).setGM
          ((((g.takeNodes c.umax).refAll p.refs).dropAll p.drops).build p.nodes p.base)).holdBeats c.image land.val))
    ∧ (
      let bytes := (vc.val + 1) * 64
      let ng := cdiv bytes 256
      let off (j : Nat) := land.val + 1 + j - ng
      let part (j : Nat) := min 256 (bytes - 256 * j)
      ∀ bm, (if c.dead then Except.ok (List.replicate bytes 0) else s.allowedMap g c) = .ok bm →
      g.poison [ctxGranule n] = none →
      ea % 64 = 0 → ea + bytes ≤ Config.abBytes → c.bound = true → co.inRegion 0 c.image 64 .image = true →
      c.vcode = vc.val → 64 + ng + cdiv c.dmax 4 ≤ land.val → s.ready fr.pred [] 0 [] [51] →
      exec (.gMask fr n x vc land) s = .next ((s.issued [] [51] (s.incs x ++ holdDues land.val
        ++ ((range' 0 ng).flatMap fun j => banksAt (off j) .G (bufBanks .ab (ea + 256 * j) (part j)))
        ++ (range' 0 ng).map fun j => landAt (off j) [.store .ab (place (ea + 256 * j) ((slice bm (256 * j) 256).map some))])).holdBeats
          c.image land.val))

/-- R235 and R242: a context word makes its references and drops at its issue tick, and its context changes two ticks later;
one on an unbound context traps with code 0x03, but `g.free` does nothing there. -/
def Obligations.GrammarContextWords : Prop :=
  ∀ (s : State) (fr : Frame) (e n : Fin 64),
    s.predOn fr.pred = true →
    let g := (s.core s.slot.core).gm
    let x := g.ctx[n]
    let y := g.ctx[e]
    let mtop := if x.mark then ptrRef x.mtop else []
    let does (i : Instr) (refs drops : List Nat) (es : List Effect) : Prop :=
      g.refTrap refs drops = none →
      exec i s = .next ((s.issued [] [] (if es = [] then [] else [landAt 2 es])).setGM ((g.refAll refs).dropAll drops))
    (x.bound = true →
      does (.gFork fr e n) x.ptrs (if y.bound then y.ptrs else []) [.ctx e (.whole x)]
      ∧ does (.gMark fr n) (ptrRef x.top) mtop [.ctx n (.mark x.state x.top x.depth)]
      ∧ (x.mark = true → does (.gRollback fr n) (ptrRef x.mtop) (ptrRef x.top) [.ctx n (.rollback x.mstate x.mtop x.mdepth)])
      ∧ (x.mark = false → exec (.gRollback fr n) s = .next (s.trap ⟨0x03, 0x500 + n.val, 0, 0⟩))
      ∧ does (.gCommit fr n) [] mtop [.ctx n .commit]
      ∧ does (.gFree fr n) [] x.ptrs [.ctx n (.whole GCtx.reset)])
    ∧ (x.bound = false →
      does (.gFree fr n) [] [] []
      ∧ exec (.gFork fr e n) s = .next (s.trap ⟨0x03, 0x500 + n.val, 0, 0⟩)
      ∧ exec (.gMark fr n) s = .next (s.trap ⟨0x03, 0x500 + n.val, 0, 0⟩)
      ∧ exec (.gRollback fr n) s = .next (s.trap ⟨0x03, 0x500 + n.val, 0, 0⟩)
      ∧ exec (.gCommit fr n) s = .next (s.trap ⟨0x03, 0x500 + n.val, 0, 0⟩))

/-- R243 and R244: `g.save` stores the record of a context in AB, adding its references unless it moves it; `g.restore` reads one,
of a good record only, and its check with it (assumption 103); `g.state` stores the status record, of 32 bytes. -/
def Obligations.GrammarRecordWords : Prop :=
  ∀ (s : State) (fr : Frame) (n : Fin 64) (x : BufAddr) (move copy : Bool),
    let co := s.core s.slot.core
    let g := co.gm
    let c := g.ctx[n]
    let a := co.regs.ea x
    let bank := a / 64 % 32
    a % 32 = 0 → a + 32 ≤ Config.abBytes →
    let stores (i : Instr) (refs : List Nat) (bytes : List Byte) (more : List Effect) : Prop :=
      c.bound = true → s.ready fr.pred [] 0 [] [] → g.refTrap refs [] = none →
      exec i s = .next ((s.issued [] [] (s.incs x ++ banksAt 4 .G [bank]
        ++ [landAt 4 (.store .ab (place a (bytes.map some)) :: more)])).setGM ((g.refAll refs).dropAll []))
    stores (.gSave fr n x move) (if move then [] else c.ptrs) (c.record true) (if move then [.ctx n (.whole GCtx.reset)] else [])
    ∧ stores (.gState fr n x) [] (leBytes 2 c.state ++ leBytes 2 c.depth
        ++ leBytes 2 (if isEmptyPtr c.top then 0 else g.node c.top / 65536)
        ++ leBytes 1 (c.flags false + 8 * (isEmptyPtr c.top).toNat) ++ [0] ++ leBytes 2 c.steps ++ leBytes 2 g.free
        ++ leBytes 2 g.queue.length ++ List.replicate 18 0) []
    ∧ (∀ bs, co.bufRead .ab a 32 = bs.map some →
      let r := ctxOfRecord bs
      let drops := if c.bound then c.ptrs else []
      (bs.getD 7 0).getLsbD 3 = true → r.bound = true → leNat (slice bs 30 2) = crc32c (bs.take 30) % 65536 →
      s.ready fr.pred [] 0 [] [bank] → g.refTrap (if copy then r.ptrs else []) drops = none →
      exec (.gRestore fr n x copy) s = .next ((s.issued [] [bank] (s.incs x ++ [landAt 4 [.ctx n (.whole r.sealed)]])).setGM
        ((g.refAll (if copy then r.ptrs else [])).dropAll drops)))

/-! ### What is due in a core -/

/-- R35, R36, R38, R39, R41, R123, R287 and R297: an item of results, a copy beat or a filter record that is due in the core of the slot
lands with all its effects, where no write of the tick clashes with them and they find what they need: room in rings and FIFOs,
and a beat that is there. One that clashes with an earlier write of the tick aborts the phase with code 0x07, resource 57, in
either mode (assumption 93). One that does not find what it needs waits, the core frozen, if its word was issued in elastic mode,
and in strict mode is a deviation of its word: a push into a full ring with code 0x05 and class 0, the one class that R340 gives
that code (assumption 84 for the stop of its core). The digests of the effects are assumption 91's. -/
def Obligations.LandingEvents : Prop :=
  ∀ (s : State) (x : Pend) (rest : List Pend),
    let c := s.slot.core
    let co : Core := { s.core c with pend := rest }
    let t := s.setCore c co
    let lands (i : Instr) (es : List Effect) : Prop :=
      let keys := co.effectsKeys es
      let lacks := firstOf (es.map (t.landDev c x.src))
      ((∃ k, k ∈ keys ∧ k ∈ co.landed) → exec i s = .next (t.lateFault c x.src ⟨0x07, 57, 0, 1⟩))
      ∧ ((∀ k, k ∈ keys → k ∉ co.landed) →
        (lacks = none → exec i s = .next ((s.setCore c (Core.digestChunks { co with landed := keys ++ co.landed } x.src.eng
          (Core.landChunks { co with landed := keys ++ co.landed } s.fresh es))).landAll c x.src es))
        ∧ (∀ f, lacks = some f → x.src.elastic = false → exec i s = .next (t.lateFault c x.src f))
        ∧ (∀ f, lacks = some f → x.src.elastic = true → exec i s = .next { s.setCore c { co with
            pend := x :: rest, stalled := some ⟨x.src.eng, 48, []⟩ } with fresh := s.fresh + 1 }))
    (s.core c).pend = x :: rest →
    (∀ es, x.act = .land es → lands .resultLand es)
    ∧ (∀ es, x.act = .lBeat es → lands .lBeatLand es)
    ∧ (∀ f, x.act = .filt f → lands .filterRecordLanding [.store .ab (place f.record f.recordBytes)])
    ∧ (∀ q entry tag, x.act = .land [.push q entry tag] → x.src.elastic = false → co.landed = [] →
      (co.regs.ring q).count = (co.regs.ring q).depth → (s.part (s.partOf c)).abort = none →
      ∃ u a, exec .resultLand s = .next u ∧ (u.part (s.partOf c)).abort = some a
        ∧ a.info = ⟨0x05, 0, some c.val, some x.src, 0x100 + q.val, 0, []⟩ ∧ (u.core c).halted = true)

/-- What a landing leaves in its core, and that it leaves everything else there as it was: R27 (s0 and p0), R25, R157 and R158 (MRF
slots: the bits named, poison, half-slots), R29 (a seed and its generation), R30 and R124 (a half of a queue control word, whose
reserved bits stay), R39 and R95 (a push writes its entry at the tail, and moves tail, count and tag; a pop moves head and count),
R41 (tokens), R89 (flags), R123 and R133 (a control register in its width; an export is marked), R127 (semaphores), R153 (bands
that sleep lose their rows and a wake under way), R193 (bits set, but in a poisoned granule), R235, R239 and R242 (contexts and
nodes). A store into a buffer changes the units it touches only, a whole byte is read back, clears the mark of a poisoned unit and
the bytes it does not write there, and a poisoned byte poisons its unit (R119, R188); a write in device memory is read back and
changes the granules it touches only (R206), where no journal is kept of it (R370). The bits that stay in a slot that was poisoned
are the free value of assumption 1; that a word which writes a context's fields renews its check is assumption 103. -/
def Obligations.LandedEffects : Prop :=
  ∀ (s : State) (c : Fin 96) (x : Src) (co : Core),
    s.core c = co →
    let after (e : Effect) : Core := (s.landOne c x e).core c
    let r (e : Effect) : Regs := (after e).regs
    let setsReg (e : Effect) (f : Regs → Regs) : Prop := after e = { co with regs := f co.regs }
    (∀ (n m : Fin 32) v, (r (.setS n v)).getS m = if m = 0 then some 0 else if m = n then v else co.regs.getS m)
    ∧ (∀ n v, setsReg (.setS n v) fun k => { k with s := (r (.setS n v)).s })
    ∧ (∀ (n m : Fin 16) v, (r (.setP n v)).getP m = if m = 0 then ⟨true, false⟩ else if m = n then v else co.regs.getP m)
    ∧ (∀ n v, setsReg (.setP n v) fun k => { k with p := (r (.setP n v)).p })
    ∧ (∀ n v, setsReg (.setK n v) fun k => { k with k := k.k.set n ⟨v, (k.k[n]).gen + 1⟩ })
    ∧ (∀ (n : Fin 16) (f g : AField) v, setsReg (.setA n f v) (fun k => { k with a := (r (.setA n f v)).a })
      ∧ ((r (.setA n f v)).a[n]).field g = (if g = f then v else (co.regs.a[n]).field g)
      ∧ ∀ m : Fin 16, m ≠ n → (r (.setA n f v)).a[m] = co.regs.a[m])
    ∧ (∀ (n : Fin 16) o, setsReg (.incA n o) fun k => { k with a := k.a.set n { k.a[n] with off := o } })
    ∧ (∀ f, setsReg (.orFlags f) fun k => { k with ctl := { k.ctl with fflags := k.ctl.fflags ||| f } })
    ∧ (∀ (reg : CtlReg) m v,
      let w := (wrValue m (BitVec.ofNat 64 (co.regs.ctl.read 0 0 reg)) v).toNat
      setsReg (.setCtl reg m v) (fun k => { k with ctl := match reg with
        | .fflags => { k.ctl with fflags := BitVec.ofNat 5 w }
        | .ftrap => { k.ctl with ftrap := BitVec.ofNat 6 w }
        | .round => { k.ctl with round := BitVec.ofNat 3 w }
        | .mode => { k.ctl with elastic := w % 2 = 1 }
        | .shape => { k.ctl with shape := BitVec.ofNat 4 w }
        | .size => { k.ctl with size := BitVec.ofNat 32 w, expSize := true }
        | .sel => { k.ctl with sel := BitVec.ofNat 2 w, expSel := true }
        | .cadence | .core | .tick | .phase | .inflect => k.ctl }))
    ∧ (∀ (f : Fin 6) n, setsReg (.tokens f n) fun k => { k with tok := k.tok.set f (k.tok[f] + n) })
    ∧ (∀ (n : Fin 32) v, setsReg (.semInit n v) fun k => { k with sem := k.sem.set n v })
    ∧ (∀ (n : Fin 32) m, (r (.semClr m)).sem[n] = if m.getLsbD n.val then 0 else co.regs.sem[n])
    ∧ (∀ m, setsReg (.semClr m) fun k => { k with sem := (r (.semClr m)).sem })
    ∧ (∀ (n : Fin 8) v, setsReg (.setVm n v) fun k => { k with vm := k.vm.set n v })
    ∧ (∀ v, setsReg (.setFeed v) fun k => { k with feed := v })
    ∧ (∀ v, setsReg (.setBeta v) fun k => { k with beta := v })
    ∧ (∀ (n : Fin 32) hi v, setsReg (.setQ n hi v) (fun k => { k with q := (r (.setQ n hi v)).q })
      ∧ ((r (.setQ n hi v)).q[n]).toNat / 2 ^ 64 = (if hi then v.toNat else (co.regs.q[n]).toNat / 2 ^ 64)
      ∧ ((r (.setQ n hi v)).q[n]).toNat % 2 ^ 64 = (if hi then (co.regs.q[n]).toNat % 2 ^ 64 else (v &&& 0xFFFF3FFF03FFFFFF).toNat)
      ∧ ∀ m : Fin 32, m ≠ n → (r (.setQ n hi v)).q[m] = co.regs.q[m])
    ∧ (∀ (q : Fin 32) tag, let g := co.regs.ring q
        setsReg (.push q none tag) (fun k => { k with q := (r (.push q none tag)).q })
        ∧ (g.count < g.depth → g.tail < g.depth →
          (r (.push q none tag)).ring q = { g with tail := (g.tail + 1) % g.depth, count := g.count + 1 }))
    ∧ (∀ (q : Fin 32) tag bs b, let g := co.regs.ring q
        let e := Effect.push q (some bs) tag
        g.buffer = some b → g.count < g.depth → g.tail < g.depth →
        (r e).ring q = { g with tail := (g.tail + 1) % g.depth, count := g.count + 1, rtag := tag }
        ∧ (∀ m : Fin 32, m ≠ q → (r e).q[m] = co.regs.q[m])
        ∧ after e = { co.bufStore b (place (g.addr g.tail) bs) with regs := { co.regs with q := (r e).q } }
        ∧ ((co.buf b).wf = true → (∀ y, y ∈ bs → y ≠ none) → (after e).bufRead b (g.addr g.tail) bs.length = bs))
    ∧ (∀ (q : Fin 32) n, let g := co.regs.ring q
        setsReg (.popped q n) (fun k => { k with q := (r (.popped q n)).q })
        ∧ (n ≤ g.count → g.head < g.depth →
          (r (.popped q n)).ring q = { g with head := (g.head + n) % g.depth, count := g.count - n }))
    ∧ (∀ ws, after (.slots ws) = { co with mrf := (after (.slots ws)).mrf }
      ∧ (mapSorted co.mrf = true →
        (∀ k, (∀ w, w ∈ ws → w.key ≠ k) → mapGet (after (.slots ws)).mrf k = mapGet co.mrf k)
        ∧ ((ws.map (·.key)).Nodup → ∀ w, w ∈ ws →
          let new := mapGet (after (.slots ws)).mrf w.key
          (w.poison = true → new = none)
          ∧ (w.poison = false → ∀ old, mapGet co.mrf w.key = some old → new = some ((old &&& ~~~w.mask) ||| (w.bits &&& w.mask)))
          ∧ (w.poison = false → mapGet co.mrf w.key = none →
            (w.keep = true → new = none) ∧ (w.keep = false → ∃ v, new = some v ∧ v &&& w.mask = w.bits &&& w.mask)))))
    ∧ (∀ m, after (.sleep m) = { co with
        regs := { co.regs with bands := co.regs.bands &&& ~~~m }
        w0 := { co.w0 with rows := co.w0.rows.filter fun y => !m.getLsbD (y.1 / 64) }
        w1 := { co.w1 with rows := co.w1.rows.filter fun y => !m.getLsbD (y.1 / 64) }
        waking := co.waking &&& ~~~m
        pend := co.pend.map fun p => match p.act with
          | .wake b => { p with act := .wake (b &&& ~~~m) }
          | _ => p })
    ∧ (∀ ws, after (.setBits ws) = { co with ab := (after (.setBits ws)).ab }
      ∧ (co.ab.wf = true → ∀ a, (after (.setBits ws)).bufRead .ab a 1 = (co.bufRead .ab a 1).map fun v =>
        v.map fun v => (ws.filter fun w => w.1 == a).foldl (fun v w => v ||| w.2) v))
    ∧ (∀ (n : Fin 64) (u : CtxUpd), (∀ v, u ≠ .bind v) →
      let y := co.gm.ctx[n]
      after (.ctx n u) = { co with gm := { co.gm with ctx := co.gm.ctx.set n (match u with
        | .whole v | .bind v => v
        | .step st top depth steps => GCtx.sealed { y with state := st, top := top, depth := depth, steps := steps }
        | .dead => GCtx.sealed { y with dead := true }
        | .mark st top depth => GCtx.sealed { y with mstate := st, mtop := top, mdepth := depth, mark := true, steps := 0 }
        | .rollback st top depth => GCtx.sealed { y with state := st, top := top, depth := depth, dead := false, steps := 0 }
        | .commit => GCtx.sealed { y with mark := false, steps := 0 }) } })
    ∧ (∀ (n : Fin 64) v,
      let drops := if (co.gm.ctx[n]).bound then (co.gm.ctx[n]).ptrs else []
      co.gm.queue.length + drops.length ≤ 4096 → after (.ctx n (.bind v))
        = { co with gm := { co.gm with ctx := co.gm.ctx.set n v.sealed, queue := co.gm.queue ++ drops } })
    ∧ (∀ n, mapSorted co.gm.nodes = true → n < 16384 →
      let g := (after (.nodesBack [n])).gm
      after (.nodesBack [n]) = { co with gm := g } ∧ g.head = n ∧ g.free = co.gm.free + 1 ∧ g.ctx = co.gm.ctx ∧ g.queue = co.gm.queue
        ∧ g.counts = co.gm.counts ∧ ∀ m, g.node m = if m = n then (if co.gm.free = 0 then 0x4000 else co.gm.head) else co.gm.node m)
    ∧ (∀ ns ms, after (.nodesBack (ns ++ ms)) = (({ s with cores := s.cores.set c (after (.nodesBack ns)) }).landOne c x (.nodesBack ms)).core c)
    ∧ (∀ ws, (after (.store .ab ws)) = { co with ab := (after (.store .ab ws)).ab })
    ∧ (∀ ws, (after (.store .wb ws)) = { co with wb := (after (.store .wb ws)).wb })
    ∧ (∀ ws, (after (.store .sdm ws)) = { co with sdm := (after (.store .sdm ws)).sdm })
    ∧ (∀ b, b ≠ .gm → (co.buf b).wf = true →
      (∀ ws a, (∀ w, w ∈ ws → w.1 / b.unit ≠ a / b.unit) → (after (.store b ws)).bufRead b a 1 = co.bufRead b a 1)
      ∧ (∀ a v a', a' / b.unit = a / b.unit → (after (.store b [(a, some v)])).bufRead b a' 1
        = [some (if a' = a then v else ((co.bufRead b a' 1).head?.join).getD 0)])
      ∧ (∀ a a', a' / b.unit = a / b.unit → (after (.store b [(a, none)])).bufRead b a' 1 = [none]))
    ∧ (s.hbm.wf = true → (s.part (s.partOf c)).journals = false → ∀ pa bs,
      let t := s.landOne c x (.home (.hbm pa) bs)
      t.cores = s.cores
      ∧ ((∀ y, y ∈ bs → y ≠ none) → pa + bs.length ≤ Config.hbmBytes → t.homeRead (.hbm pa) bs.length = bs)
      ∧ ∀ a, (∀ i, i < bs.length → (pa + i) / 64 ≠ a / 64) → t.homeByte (.hbm a) = s.homeByte (.hbm a))

/-- R99, R138, R147, R148, R153, R121, R298, R224 and R297: the other items that are due in the core of the slot. A row that enters
the array pops its entries a tick later and leaves, for its drain from 260 ticks on, the exact sum of products of each of its 256
columns with the exponent of that block, and whether a poisoned, non-finite or reserved code is among them; nothing else of its core
changes (R147, R148). A lane that drains writes the slots that its tile, index and mode place and no other: under S36 the saturated
sum with its overflow flag, under X72 the pair of slots with the block scaled to the base exponent, under F32 the rounded sum, a
NaN where the product is not finite, and poison where an operand is poisoned; the next lane follows a tick later (R99, R148). Woken
bands take part, a loop ends and leaves its snapshot, a write acts at its home or is deferred behind those of its source (R267), a
link beat is delivered or found missing; and a core frozen for a tick counts it. That a missing beat is of kind 7 on a torus path
and 1 elsewhere is the model's choice (assumption 31), and so are the class of a late fault and that it stops its core at that tick
(assumption 84), where R224 and R297 do not say; the detail of a trap of a row is assumption 96. -/
def Obligations.CoreItemEvents : Prop :=
  ∀ (s : State) (x : Pend) (rest : List Pend),
    let c := s.slot.core
    let co : Core := { s.core c with pend := rest }
    let t := s.setCore c co
    ((s.core c).pend = x :: rest →
      (∀ r, x.act = .row r →
        exec .macRowEntry s = .next (t.rowEnter x r)
        ∧ (∀ f, co.rowTrap r = some f → (f.code ≠ 0x05 ∨ x.src.elastic = false) → exec .macRowEntry s = .next (t.lateFault c x.src f))
        ∧ (∀ f, co.rowTrap r = some f → f.code = 0x05 → x.src.elastic = true → exec .macRowEntry s
          = .next (s.setCore c { co with pend := x :: rest, stalled := some ⟨.M, 48, []⟩ })))
      -- the lanes of a row (R147): what a row leaves, and the products that its drain takes up from 260 ticks on
      ∧ (∀ r k, x.act = .row r → co.rowTrap r = none → rowEntry (co.regs.ring r.qa) r.peek r.feed r.i = some k →
        let ra := co.regs.ring r.qa
        let ent := co.entry ra k
        let w := co.wset r.set
        let pops : List Effect := (if r.peek then [] else [.popped r.qa 1]) ++ (if r.sparse then [.popped r.qb 1] else [])
        let pos := if r.sparse then (leNat? ((co.entry (co.regs.ring r.qb) (co.regs.ring r.qb).head).take 1)).getD 0 else r.i
        ∃ v : State, exec .macRowEntry s = .next (if r.i = 0 then v else v.claimNow c x.src (abBanks (ra.addr k) 5))
          ∧ v.hbm = s.hbm ∧ v.parts = s.parts ∧ (∀ d : Fin 96, d ≠ c → v.core d = s.core d)
          ∧ (v.core c).mrf = co.mrf ∧ (v.core c).regs = co.regs ∧ (v.core c).ab = co.ab
          ∧ (pops ≠ [] → ∃ y, y ∈ (v.core c).pend ∧ y.tick = x.tick + 1 ∧ y.src = x.src ∧ y.act = .land pops)
          ∧ (r.on = true → (x.tick + 515, r.shape) ∈ (v.core c).holds)
          ∧ (pops = [] → r.on = false ∨ r.dm = .nd → (v.core c).pend = rest)
          ∧ (r.on = true → r.dm ≠ .nd → ∃ y ls, y ∈ (v.core c).pend ∧ y.tick = x.tick + 260 ∧ y.src = x.src
            ∧ y.act = .drain ⟨r, pos, 0, ls⟩ ∧ ls.length = 256
            ∧ ∀ n, n < 256 → ∃ S P bad nf rsv, ls[n]? = some (S, P, bad, nf, rsv)
              ∧ (none ∈ ent ∨ nth w.exps n none = none → bad = true)
              ∧ ∀ ew kw, none ∉ ent → nth w.exps n none = some (ew, kw) →
                (bad = true ↔ ∃ q, q ∈ shapeRows r.shape ∧ (mapGet w.rows q).bind (code9 · n) = none)
                ∧ P = (blockExp ent : Int) + ew.toNat - (if r.s5 then 260 else 268)
                ∧ (nf = true ↔ blockExp ent = 255 ∨ ew.toNat = 255)
                ∧ (bad = false → (rsv = true ↔ r.s5 = true ∧ ∃ q, q ∈ shapeRows r.shape
                  ∧ (440 < (code9 ent q).getD 0 ∨ 440 < ((mapGet w.rows q).bind (code9 · n)).getD 0)))
                ∧ (bad = false → S = ((shapeRows r.shape).map fun q =>
                    let a := (code9 ent q).getD 0
                    let b := ((mapGet w.rows q).bind (code9 · n)).getD 0
                    if r.s5 then (s5Pair a).1 * (s5Pair b).1 + (s5Pair a).2 * (s5Pair b).2 else sint 9 a * sint 9 b).sum)))
      ∧ (∀ d, x.act = .drain d → exec .drainWrite s = .next (t.drainTick x d))
      -- one lane drains (R99, R147, R148): its slot under each mode, its flags, the lane after it, and no other slot
      ∧ (∀ d S P bad nf rsv, x.act = .drain d → d.lanes[d.c]? = some (S, P, bad, nf, rsv) → drainsDue x.tick x.src rest = [] →
        drainTrap co.mrf [d] (drainLane co.mrf d).2 = none → s.memWf = true →
        (∀ key, key ∈ co.effectsKeys [.slots (drainLane co.mrf d).1] → key ∉ co.landed) →
        let r := d.row
        let at_ (k : Nat) : Nat := if r.dm = .x72 ∨ r.col = true then slotKey r.tile d.c ((r.idx + k) % 256) else slotKey r.tile ((r.idx + k) % 256) d.c
        let ka := if r.dm = .x72 then at_ (2 * d.pos) else at_ d.pos
        let kb := if r.dm = .x72 then at_ (2 * d.pos + 1) else ka
        let old (k : Nat) : Option W36 := if r.init then some 0 else mapGet co.mrf k
        let lost := bad = true ∨ old ka = none ∨ old kb = none
        let new (u : State) (k : Nat) : Option W36 := mapGet (u.core c).mrf k
        let lim : Int := 2 ^ 71 - 1
        ∃ u, exec .drainWrite s = .next u ∧ u.hbm = s.hbm ∧ u.parts = s.parts ∧ (∀ e : Fin 96, e ≠ c → u.core e = s.core e)
          ∧ (u.core c).regs = co.regs
          ∧ (∀ k, k ≠ ka → k ≠ kb → new u k = mapGet co.mrf k)
          ∧ (d.c < 255 → ∃ y, y ∈ (u.core c).pend ∧ y.tick = x.tick + 1 ∧ y.src = x.src ∧ y.act = .drain { d with c := d.c + 1 })
          ∧ (lost → new u ka = none ∧ new u kb = none)
          ∧ ((drainLane co.mrf d).2 ≠ 0 → ∃ y, y ∈ (u.core c).pend ∧ y.tick = x.tick ∧ y.act = .land [.orFlags (drainLane co.mrf d).2])
          ∧ (¬ lost → ∀ a b, old ka = some a → old kb = some b →
            (r.dm = .s36 → let z := a.toInt + (if nf then 0 else S)
              new u ka = some (BitVec.ofInt 36 (max (-(2 ^ 35)) (min (2 ^ 35 - 1) z)))
              ∧ (drainLane co.mrf d).2 = (if -(2 ^ 35) ≤ z ∧ z < 2 ^ 35 then 0 else fOverflow)
                ||| (if nf then fInvalid else 0) ||| (if rsv then fInvalid else 0))
            ∧ (r.dm = .x72 → let e := P - r.beta
              let z := (b ++ a).toInt + (if 0 ≤ e then S * 2 ^ e.toNat else S / (2 ^ (-e).toNat : Nat))
              let pair : BitVec 72 := if nf then BitVec.ofNat 72 (2 ^ 71) else if b ++ a = BitVec.ofNat 72 (2 ^ 71) then b ++ a
                else BitVec.ofInt 72 (max (-lim) (min lim z))
              new u ka = some (pair.setWidth 36) ∧ new u kb = some ((pair >>> 36).setWidth 36))
            ∧ (r.dm = .f32 → nf = true → new u ka = some (BitVec.ofNat 36 FFmt.f32.dnan))
            ∧ (r.dm = .f32 → nf = false → new u ka = some (BitVec.ofNat 36
              (drainF32 (modeOfCtl r.rnd.toNat) (a.toNat % 2 ^ 32) S P).1))))
      ∧ (∀ m, x.act = .wake m → exec .bandWakeComplete s = .next (s.setCore c { co with waking := co.waking &&& ~~~m }))
      ∧ (∀ depth widx, x.act = .loopExit depth widx →
        let e := (co.exits + 1) % 2 ^ 32
        exec .loopExit s = .next (s.setCore c { co with
          running := co.running.filter fun r => !(r.depth == depth && r.t0 == x.src.tick)
          exits := e
          profile := (⟨co.regs.ctl.phase.toNat, widx, x.tick - 1, e, co.frozen, co.stalls⟩ :: co.profile).take 8 }))
      ∧ (∀ h bs op, x.act = .home h bs op →
        let out := t.homeBytes h bs op
        let t' := s.setCore c (co.digestChunks x.src.eng (byteChunks (cdiv out.1.length 8) out.1))
        (t'.deferrer (t'.sourceOf c) h bs.length = none →
          exec .wBeatHomeWrite s = .next ((t'.flagsNow c x out.2).homeWrite (t'.timed c) h out.1))
        ∧ ∀ q, t'.deferrer (t'.sourceOf c) h bs.length = some q →
          exec .wBeatHomeWrite s = .next (t'.deferTo q { src := t'.sourceOf c, issued := some (t'.issuedAt c x.src.tick), act := match op with
            | .write => .write h bs
            | .acc a rnd => .acc c h a rnd bs }))
      ∧ (∀ d path peer j r on, x.act = .link d path peer j r on →
        (∀ a, co.arrivals.find? (isBeat d path peer j) = some a → exec .linkBeatDelivery s = .next (t.deliver x path d peer j r on a.2))
        ∧ (co.arrivals.find? (isBeat d path peer j) = none → exec .linkBeatDelivery s
          = .next (t.lateFault c x.src ⟨0x09, linkDetail (if path.isTorus then 7 else 1) (pathNo path) peer, 0, 1⟩))))
    ∧ ∀ o, (s.core c).stalled = some o →
      let k := s.core c
      let part := s.part (s.partOf c)
      ∃ u, exec .elasticStall s = .next u ∧ u.hbm = s.hbm ∧ u.agenda = s.agenda ∧ (∀ d : Fin 96, d ≠ c → u.core d = s.core d)
        ∧ u.core c = { k.countStall (engNo o.eng) o.col with
            stalled := none, froze := true, lag := k.lag + 1, frozen := k.frozen + 1, used := k.claims.map (·.res) ++ o.res }
        ∧ mapGet (u.core c).stalls (stallKey (engNo o.eng) o.col)
          = some (min 0xFFFFFFFF ((mapGet k.stalls (stallKey (engNo o.eng) o.col)).getD 0 + 1))
        ∧ u.part (s.partOf c) = { part with beats := part.beats.map fun b =>
            if b.core = c.val ∧ part.k ≤ b.home then { b with home := b.home + 1 } else b }

/-! ### Operations on their way, and writes that arrive -/

/-- R132, R219, R220, R227, R228, R254, R263 and R267: an operation leaves its core when its fences and release let it, and acts at
its home when the order there lets it, at the start of a tick where a phase runs there (assumption 104), or is deferred behind a
phase that has declared its place; its acknowledgement frees what waits for it, and completes a put, which increments its semaphore
(R128). An atomic leaves at its home the old object combined with the operand, for each operation and type (R219); a signal leaves
the object set, or combined with its operand, an invalid object staying invalid under all but set (R220); a poisoned home stays as
it is, and the core stops with code 0x18 of class 1, its record naming the granule of the address (R220, R340, R341). An `x.sig` is
translated and goes on, or stops. A write or a signal from outside is applied, or deferred, but waits behind the earlier writes of
its source (R266, assumption 78), and one by a core of the same system phase is not deferred behind that phase (R267); a read
answers with the bytes at their home; a beat joins the landing buffer. -/
def Obligations.OutboundAndInbound : Prop :=
  ∀ (s : State) (core : Fin 96) (id : Nat) (o : OutOp) (src : Source) (pa n : Nat) (data : List Byte) (mate : Bool) (beat : LinkBeat),
    let co := s.core core
    (co.op id = some o →
      (o.st = .held → s.maySend core o = true →
        exec (.untimetabledWritePerformed core id) s = .next ((s.setCore core (co.putOp { o with st := .sent })).later core id))
      ∧ (o.st = .held → s.maySend core o = false → exec (.untimetabledWritePerformed core id) s = .next (s.later core id))
      ∧ (∀ h, o.st = .sent → o.isPut = false → o.home = some h → s.mayApply core o h = false →
        exec (.untimetabledWritePerformed core id) s = .next (s.later core id))
      ∧ (∀ h, o.st = .sent → o.isPut = false → o.home = some h → s.mayApply core o h = true →
        (∀ cycle, s.homeTick core h = some cycle →
          exec (.untimetabledWritePerformed core id) s = .next (s.schedule cycle (.untimetabledWritePerformed core id)))
        ∧ (s.homeTick core h = none →
          (s.deferrer (s.sourceOf core) h 8 = none → exec (.untimetabledWritePerformed core id) s = .next (s.applyOp core o h))
          ∧ (∀ q, s.deferrer (s.sourceOf core) h 8 = some q →
            exec (.untimetabledWritePerformed core id) s = .next (s.deferTo q { src := s.sourceOf core, act := .op core h id }))
          -- what a signal and an atomic leave at their home (R219, R220)
          ∧ (s.deferrer (s.sourceOf core) h 8 = none →
            (∀ sop v old, o.kind = .sig sop v → (∀ x y z a, h ≠ .peer x y z a) → leNat? (s.homeRead h 8) = some old →
              let obj := BitVec.ofNat 64 old
              let new : W64 := if sop = .set then v else if obj = 0x8000000000000000 then obj else match sop with
                | .set => v
                | .add => obj + v
                | .or => obj ||| v
                | .max => if obj.toInt < v.toInt then v else obj
              exec (.untimetabledWritePerformed core id) s
                = .next ((s.homeWrite (s.byOp core o) h ((leBytes 8 new.toNat).map some)).performed core o))
            ∧ (∀ aop ty v k old, o.kind = .amo aop ty v k → leNat? (s.homeRead h (amoSize ty)) = some old →
              let n := 8 * amoSize ty
              let a := v.toNat % 2 ^ n
              let F := if ty = .f64 then FFmt.f64 else FFmt.f32
              let float := ty == .f32 || ty == .f64
              let new : Nat := match aop with
                | .add => if float then (F.add .rne false old a).1 else (old + a) % 2 ^ n
                | .min => if float then (F.minimum false old a).1 else if sint n old ≤ sint n a then old else a
                | .max => if float then (F.maximum false old a).1 else if sint n a ≤ sint n old then old else a
                | .and => old &&& a
                | .or => old ||| a
                | .xor => old ^^^ a
                | .swap => a
                | .cas => if old = k.toNat % 2 ^ n then a else old
              ∃ t : State, exec (.untimetabledWritePerformed core id) s = .next (t.performed core o)
                ∧ let w := s.homeWrite (s.byOp core o) h ((leBytes (amoSize ty) new).map some)
                  t.hbm = w.hbm ∧ t.host = w.host ∧ t.peer = w.peer ∧ t.cores = s.cores)
            -- a poisoned home stays as it is (R220)
            ∧ (∀ n, (∃ aop ty v k, o.kind = .amo aop ty v k ∧ n = amoSize ty) ∨ (∃ sop v, o.kind = .sig sop v ∧ n = 8) →
              leNat? (s.homeRead h n) = none →
              ∃ t, exec (.untimetabledWritePerformed core id) s = .next t ∧ t.hbm = s.hbm ∧ t.host = s.host ∧ t.peer = s.peer
                ∧ ((s.part (s.partOf core)).seq = .phase → (s.part (s.partOf core)).abort = none →
                  (t.core core).halted = true ∧ ∃ a, (t.part (s.partOf core)).abort = some a
                    ∧ a.info = ⟨0x18, 1, some core, some o.src, 0, o.va / 64 * 64, []⟩)))))
      ∧ (o.st = .performed → o.isPut = false →
        exec (.acknowledgement core id) s = .next ((s.setCore core (co.dropOp id)).completeJobs (s.partOf core)))
      ∧ (o.st = .performed → o.isPut = true → exec (.acknowledgement core id) s
        = .next ((s.setCore core (co.putOp { o with st := .acked })).schedule s.now (.putCompletion core id)))
      ∧ (∀ sem r k, o.st = .acked → o.kind = .put sem r k → o.again = false →
        exec (.putCompletion core id) s = .next ((s.setCore core { co.dropOp id with
          regs := { co.regs with sem := co.regs.sem.set sem (bump16 co.regs.sem[sem]) } }).completeJobs (s.partOf core)))
      ∧ (∀ e x y z a, o.st = .translating → o.va < 2 ^ 52 → s.translate (s.partOf core) o.va = .ok e → Access.sig.lacks e = 0 →
        e.at' o.va = .peer x y z a → ∃ t, exec (.xsigTranslation core id) s = .next t
          ∧ (t.core core).op id = some { o with st := .held, home := some (.peer x y z a) })
      ∧ (o.st = .translating → 2 ^ 52 ≤ o.va → exec (.xsigTranslation core id) s
        = .next ((s.setCore core (co.dropOp id)).strayFault core o.src ⟨0x22, 0, o.va, 1⟩)))
    -- writes that arrive (R220, R228, R266, R267)
    ∧ (∀ (poisoned : Bool) (sop : SigOp) (v : W64),
      let bytes := if poisoned then List.replicate data.length none else data.map some
      let write : InWrite := { src := src, act := .write (.hbm pa) bytes, mate := mate }
      let signal : InWrite := { src := src, act := .signal (.hbm pa) sop v, mate := mate }
      let bw : Instr := .inboundWrite src pa (.bytes data mate) poisoned
      let sw : Instr := .inboundWrite src pa (.signal sop v mate) poisoned
      ((∀ w, w ∈ s.mod.posted → w.src ≠ src) →
        (s.deferrer src (.hbm pa) data.length mate = none → exec bw s = .next (s.homeWrite .hub (.hbm pa) bytes))
        ∧ (∀ p, s.deferrer src (.hbm pa) data.length mate = some p → exec bw s = .next (s.deferTo p write))
        ∧ (∀ p, s.deferrer src (.hbm pa) 8 mate = some p → exec sw s = .next (s.deferTo p signal))
        ∧ (s.deferrer src (.hbm pa) 8 mate = none →
          (leNat? (s.homeRead (.hbm pa) 8) = none → exec sw s = .next s)
          ∧ ∀ old, leNat? (s.homeRead (.hbm pa) 8) = some old → exec sw s = .next (s.homeWrite .hub (.hbm pa)
            ((leBytes 8 (sigApply sop (BitVec.ofNat 64 old) v).toNat).map some))))
      ∧ ((∃ w, w ∈ s.mod.posted ∧ w.src = src) →
        exec bw s = .next { s with mod := { s.mod with posted := s.mod.posted ++ [write] } }
        ∧ exec sw s = .next { s with mod := { s.mod with posted := s.mod.posted ++ [signal] } }))
    ∧ (∀ q h, s.sysPhase q = true → s.guards q src true h n = false)
    ∧ exec (.inboundRead src pa n) s = .next (s.emit (.completion ((s.homeRead (.hbm pa) n).map fun b => b.getD 0)
        ((s.homeRead (.hbm pa) n).any (·.isNone))))
    ∧ (beat.bad = false → exec (.landingBufferArrival core beat) s
      = .next (s.setCore core { co with arrivals := co.arrivals ++ [(false, beat)] }))

/-! ### The phase sequencer -/

/-- R48, R265, R289, R309 to R315, R345: what the sequencer does at each of its events, in the step in which it waits for it. An
evaluation goes on to step 6 where every registration holds, stops the partition at the first fault, and else the next is due
16 cycles after it starts: at once where a line was written meanwhile, or at a multiple of 256 cycles. A write notification starts
the evaluation of the gates on its line, or has one follow the evaluation under way, and touches no other gate (R262, R265,
R333). An expiry of the watchdog gives way to an evaluation that ends in its cycle and to a request for pre-emption; else the
partition stops with code 0x2A once the bank is free (R345, R349). The record's detail is assumption 106. -/
def Obligations.SequencerEvents : Prop :=
  ∀ (s : State) (p : Fin 4) (marked : Bool) (rank pidx infl cad hops : Nat) (j : Job) (x : Sel) (h : Home),
    let part := s.part p
    let eval : Instr := .gateEvaluation p
    let stops (i : Instr) (step : Nat) (info : FaultInfo → Prop) : Prop := ∃ t, exec i s = .next t ∧ (t.part p).seq = .stopped
      ∧ ∃ r, (t.part p).frec = some r ∧ info r.info ∧ r.step = step
    (∀ n, part.seq = .slack n → part.expired = false → ∃ t, exec eval s = .next t
      ∧ (n = 3 → t = s.step3 p) ∧ (n = 4 → t = s.step4 p) ∧ (n = 5 → t = s.evaluate p) ∧ (n = 6 → t = s.hold p)
      ∧ (n = 7 → t = s.end7 p) ∧ (n = 8 → t = s.end8 p)
      ∧ (n = 9 → part.announced = false → t = s.step9 p) ∧ (n = 9 → part.announced = true → t = s))
    -- step 3 (R312) and step 4 (R310)
    ∧ (part.seq = .slack 3 → part.job = some j → j.marked = true → (j.entry.map (·.replayable)).getD false = true → j.replays < 2 →
      ∃ t, exec eval s = .next t ∧ (t.part p).next = some ⟨j.phase, j.pidx, j.infl, j.z, j.q, true⟩
        ∧ (t.part p).seq = .slack 7 ∧ (t.part p).job = some { j with replays := j.replays + 1, marked := false } ∧ t.hbm = s.hbm)
    ∧ (let nx := (j.entry.map fun e => nth e.succ (s.exports p).2 0xFFFF).getD 0xFFFF
      part.seq = .slack 4 → part.job = some j →
      (nx = 0xFFFF → ∃ u : State, exec eval s = .next (u.step5 p false) ∧ (u.part p).next = none ∧ u.cores = s.cores ∧ u.hbm = s.hbm)
      ∧ (∀ e is i js, nx ≠ 0xFFFF → j.table.phases[nx]? = some e → e.infls = is ++ i :: js →
        (∀ k, k ∈ is → k.bound < (s.exports p).1) → (s.exports p).1 ≤ i.bound →
        ∃ u : State, exec eval s = .next (u.step5 p false) ∧ u.cores = s.cores ∧ u.hbm = s.hbm
          ∧ (u.part p).next = some ⟨j.phase + 1, nx, is.length, (s.exports p).1, (s.exports p).2, false⟩)
      ∧ (∀ e, nx ≠ 0xFFFF → j.table.phases[nx]? = some e → (∀ k, k ∈ e.infls → k.bound < (s.exports p).1) → part.frec = none →
        stops eval 4 fun f => f.code = 0x28 ∧ f.cls = 2 ∧ f.detail = (s.exports p).1 + (s.exports p).2 * 2 ^ 32))
    -- what a registration's judgement means (R130, R131, R265)
    ∧ (∀ c g d a v, g.sem = false → (s.endedGates p)[g.n]? = some d → mapGet part.gateHomes g.n = some (.hbm a) →
      let w := g.value.getD d.value
      (leNat? (s.homeRead (.hbm a) 8) = some v → BitVec.ofNat 64 v ≠ 0x8000000000000000 →
        (s.judge p (c, g) = .holds ↔ (match d.cond with
          | 0 => BitVec.ofNat 64 v = w
          | 1 => BitVec.ofNat 64 v ≠ w
          | 2 => w.toInt ≤ (BitVec.ofNat 64 v).toInt
          | _ => (BitVec.ofNat 64 v).toInt < w.toInt)))
      ∧ (leNat? (s.homeRead (.hbm a) 8) = some v → BitVec.ofNat 64 v = 0x8000000000000000 →
        ∃ f, s.judge p (c, g) = .fault f ∧ f.code = 0x29 ∧ f.detail = g.n)
      ∧ (leNat? (s.homeRead (.hbm a) 8) = none → ∃ f, s.judge p (c, g) = .fault f ∧ f.code = 0x18 ∧ f.detail = g.n))
    ∧ (∀ c g, g.sem = true → (s.judge p (c, g) = .holds
      ↔ (g.value.getD 0).toNat ≤ ((s.core c).regs.sem[(Fin.ofNat 32 g.n)]).toNat))
    -- an evaluation ends (R265)
    ∧ (part.seq = .slack 5 → part.expired = false →
      ((∀ r, r ∈ s.registrations p → s.judge p r = .holds) → ∃ u : State, exec eval s = .next (u.step6 p)
        ∧ (u.part p).wdFrom = none ∧ (u.part p).next = part.next ∧ (u.part p).progress = part.progress + 1
        ∧ u.cores = s.cores ∧ u.hbm = s.hbm)
      ∧ (∀ rs r ts f, s.registrations p = rs ++ r :: ts → (∀ r' f', r' ∈ rs → s.judge p r' ≠ .fault f') → s.judge p r = .fault f →
        part.frec = none → stops eval 5 fun g => g = f)
      ∧ ((∀ r f, r ∈ s.registrations p → s.judge p r ≠ .fault f) → (∃ r, r ∈ s.registrations p ∧ s.judge p r ≠ .holds) →
        let periodic := part.from5 + 256 * ((s.now - 16 - part.from5) / 256 + 1)
        ∃ t, exec eval s = .next t ∧ (t.part p).seq = .slack 5 ∧ t.cores = s.cores ∧ t.hbm = s.hbm ∧ (t.part p).evalAgain = false
          ∧ (∃ e, e ∈ t.agenda ∧ e.ev = eval ∧ e.cycle = (if part.evalAgain = true then s.now else max s.now periodic) + 16)
          ∧ ((t.part p).wdFrom.isSome = true ↔ ∃ r, r ∈ s.registrations p ∧ s.judge p r = .waits false)))
    -- the sign-offs and the barriers of a system phase (R48, R314, R315)
    ∧ (part.seq = .signing → part.abort.isSome = true → exec (.lastSignOff p) s = .next (s.schedule s.now (.faultCapture p)))
    ∧ (part.seq = .signing → part.abort = none → s.drained p = false →
      exec (.lastSignOff p) s = .next (s.schedule (max (s.now + 1) part.base) (.lastSignOff p)))
    ∧ (part.seq = .signing → part.abort = none → s.drained p = true → part.dmodeOn = 0 → ∃ u, exec (.lastSignOff p) s
      = .next ((((u : State).step1 p).step2 p).releaseSystem) ∧ (u.part p).soff = s.now + 384 ∧ (u.part p).seq = .slack 1
        ∧ u.cores = s.cores ∧ u.hbm = s.hbm)
    ∧ (part.seq = .slack 2 → part.job = some j → exec (.replayMarkExchange p marked) s
      = .next (((s.setPart p { part with job := some { j with marked := j.marked || marked } }).stepDone p).goOn p 3
        (max s.now (part.soff - 384 + 320 * j.hops))))
    ∧ (let rs := part.readyRanks ++ [(rank, pidx, infl, cad)]
      part.job = some j → j.rank = 0 → (∀ r, r ∈ part.readyRanks → r.1 ≠ rank) →
      (rs.length < j.members → exec (.alignmentReadiness p rank pidx infl cad) s = .next (s.setPart p { part with readyRanks := rs }))
      ∧ (j.members ≤ rs.length → part.seq = .slack 9 → part.expired = false → part.next = some x → (∃ r, r ∈ part.readyRanks ∧ r.1 = 0) →
        ((∀ r, r ∈ rs → r.2.1 = x.pidx ∧ r.2.2.1 = x.infl) → let c := (rs.map fun r => r.2.2.2).foldl max 1
          exec (.alignmentReadiness p rank pidx infl cad) s = .next
            (((s.setPart p { part with readyRanks := rs }).emit (.startWave p c 0)).schedule s.now (.startWave p c 0)))
        ∧ ((∃ r, r ∈ rs ∧ (r.2.1 ≠ x.pidx ∨ r.2.2.1 ≠ x.infl)) → part.frec = none →
          stops (.alignmentReadiness p rank pidx infl cad) 9 fun f => f.code = 0x28)))
    ∧ (part.seq = .slack 9 → part.job = some j → part.expired = false → exec (.startWave p cad hops) s
      = .next ((((s.watch p false s.now).onPart p fun y => { y with wave := some cad }).stepDone p).step10 p
        (s.now + 256 + 320 * (j.hops - hops))))
    -- a phase starts and runs (R289, R311, R345)
    ∧ (part.seq = .slack 10 → part.job = some j → part.next = some x → part.dstopReq = false →
      (part.dmode ≠ 1 ∧ part.dmode ≠ 2) ∨ part.snap = true ∨ s.nextSystem p = true →
      ∃ t, exec (.phaseStart p) s = .next t ∧ t.now = s.now ∧ (t.part p).seq = .phase ∧ (t.part p).k = 0
        ∧ (t.part p).cad = part.wave.getD (s.cadenceOf p) ∧ (t.part p).base = s.now + 64 - 16 * (t.part p).cad
        ∧ (t.part p).abort = none)
    -- a debug mode chosen after step 7 has its snapshot taken before the start (R369)
    ∧ (part.seq = .slack 10 → part.job = some j → part.next = some x → part.dmode = 1 ∨ part.dmode = 2 → part.snap = false →
      s.nextSystem p = false → ∃ t, exec (.phaseStart p) s = .next t ∧ (t.part p).seq = .slack 10 ∧ (t.part p).snap = true
        ∧ (t.part p).next = part.next ∧ ∃ e, e ∈ t.agenda ∧ e.ev = .phaseStart p ∧ s.now ≤ e.cycle)
    ∧ (part.seq ≠ .phase → exec (.refreshSlot p) s = .next s)
    ∧ (part.seq = .phase → ∃ t, exec (.refreshSlot p) s = .next t ∧ t.cores = s.cores ∧ t.parts = s.parts ∧ t.hbm = s.hbm)
    ∧ (part.seq = .phase ∨ part.seq = .signing → exec (.sequencerProgress p) s
      = .next ((s.setPart p { part with progress := part.progress + 1 }).schedule (s.now + 4096) (.sequencerProgress p)))
    -- write notifications (R262, R265, R333)
    ∧ (∀ g a b c, h = .hbm b → part.seq = .slack 5 → part.expired = false → g ∈ part.gateHomes → g.2 = .hbm a → a / 64 = b / 64 →
      s.evalDue p = some c → ∃ t, exec (.writeNotification h) s = .next t ∧ t.cores = s.cores ∧ t.hbm = s.hbm
        ∧ (s.now + 16 < c → t.evalDue p = some (s.now + 16) ∧ (t.part p).evalAgain = part.evalAgain)
        ∧ (c ≤ s.now + 16 → t.evalDue p = some c ∧ (t.part p).evalAgain = true))
    ∧ (∀ b, h = .hbm b → (∀ g a, g ∈ part.gateHomes → g.2 = .hbm a → a / 64 ≠ b / 64) →
      ∃ t, exec (.writeNotification h) s = .next t ∧ t.part p = part ∧ t.evalDue p = s.evalDue p)
    ∧ (∀ (n : Fin 64) a b, h = .hbm b → part.queues[n].gateWaits = true → part.queues[n].gateHome = some (.hbm a) → a / 64 = b / 64 →
      ∃ t, exec (.writeNotification h) s = .next t
        ∧ ∃ e, e ∈ t.agenda ∧ e.ev = .launchGateEvaluation p n ∧ e.cycle ≤ s.now + 16)
    -- the watchdog (R345, R349)
    ∧ (let dog : Instr := .gateWatchdogExpiry p
      (∀ n : Fin 64, part.queues[n].gateWaits = false) →
      (part.wdFrom = none → ∃ t, exec dog s = .next t ∧ t.parts = s.parts ∧ t.cores = s.cores)
      ∧ (∀ c, part.wdFrom = some c → part.wdCycles ≤ part.wd + (s.now - c) → part.seq = .slack 5 →
        (s.evalDue p = some s.now → ∃ t, exec dog s = .next t ∧ t.parts = s.parts ∧ t.cores = s.cores)
        ∧ (s.evalDue p ≠ some s.now →
          (part.pend = true → s.preemptible p = true → part.sval = true → part.pval = true →
            ∃ t, exec dog s = .next t ∧ (t.part p).seq = .slack 6 ∧ (t.part p).pend = false)
          ∧ (part.pend = false → part.held ≠ 1 → part.frec = none → stops dog 5 fun f => f.code = 0x2A ∧ f.cls = 2)
          ∧ (part.pend = false → part.held = 1 → 0 < s.saveCycles p → ∃ t, exec dog s = .next t ∧ (t.part p).seq = .slack 5
            ∧ (t.part p).expired = true ∧ (t.part p).held = 2
            ∧ ∃ e, e ∈ t.agenda ∧ e.ev = eval ∧ e.cycle = s.now + s.saveCycles p)))
      ∧ (∀ c, part.wdFrom = some c → part.wdCycles ≤ part.wd + (s.now - c) → part.seq = .slack 9 → part.held ≠ 1 → part.frec = none →
        stops dog 9 fun f => f.code = 0x2A))
    ∧ (part.seq = .slack 5 → part.expired = true → part.frec = none → stops eval 5 fun f => f.code = 0x2A)
    ∧ (∀ (n : Fin 64) c, (∀ m : Fin 64, m ≠ n → part.queues[m].gateWaits = false) → part.queues[n].gateWaits = true →
      part.queues[n].gateFrom = some c → part.wdCycles ≤ s.now - c →
      (∀ e, e ∈ s.agenda → e.ev = .launchGateEvaluation p n → e.cycle ≠ s.now) → part.wdFrom = none →
      ∃ t, exec (.gateWatchdogExpiry p) s = .next t ∧ (t.part p).queues[n].qstate = 2 ∧ (t.part p).queues[n].err = 5)

/-! ### Faults, debug stops and pre-emption -/

/-- R341: a precise trap at the word of the slot, where no abort is under way, halts its core as it stood before the tick's
first word and begins the abort of its partition, whose other cores issue for less than 24 cycles more; where a debug stop or a
later fault finds an abort under way, the record of the first stays (R338); a record of code 0x0A holds the words left in the
queues (R340). Memory is not touched. -/
def Obligations.TrapEntry : Prop :=
  ∀ (s : State) (f : Trap),
    let c := s.slot.core
    let p := s.partOf c
    let part := s.part p
    let t := s.trap f
    (t.core c).halted = true ∧ t.hbm = s.hbm ∧ t.host = s.host ∧ t.peer = s.peer ∧ t.now = s.now
    ∧ t.core c = { (mapGet s.undo c.val).getD (s.core c) with halted := true }
    ∧ (∀ d : Fin 96, d ≠ c → t.core d = s.core d)
    ∧ (part.abort = none → (t.part p).abort = some ⟨⟨f.code, f.cls, some c, some s.src, f.detail, f.addr,
        if f.code = 0x0A then (s.core c).wordsLeft else []⟩, part.k, s.now, part.k + (24 + max 1 part.cad - 1) / max 1 part.cad, false⟩)
    ∧ (∀ a, part.abort = some a →
      (a.cycle ≠ s.now ∨ a.debug = true → (t.part p).abort = some a)
      ∧ (a.cycle = s.now → a.debug = false → let g : FaultInfo := ⟨f.code, f.cls, some c, some s.src, f.detail, f.addr,
          if f.code = 0x0A then (s.core c).wordsLeft else []⟩
        (t.part p).abort = some (if g.before a.info then { a with info := g } else a))
      ∧ (part.frec = none → (t.part p).more = min 255 (part.more + 1)))
    ∧ ∀ r, part.frec = some r → (t.part p).frec = some { r with more := min 255 (r.more + 1) }

/-- R341 to R347, R349, R353, R369, R379 and R380: what the events of faults, of debug stops and of the driver's actions do; an action
that the record does not permit is ignored. The model's choices stand in assumptions 41 (the code of a stopped group), 55 (when an
invalidation is applied), 56 (an abort that waits for the bank), 60 (two stale readings of the heartbeat) and 79 (dstop is gated by
the features in effect). -/
def Obligations.FaultAndDebugEvents : Prop :=
  ∀ (s : State) (p : Fin 4) (core : Fin 96) (addr : Nat) (j : Job) (x : Sel) (a : Abort) (r : FaultRec),
    let part := s.part p
    let on (i : Instr) (f : Part) : Prop := exec i s = .next (s.setPart p f)
    let freeze (f : FaultInfo) (k : Nat) (debug : Bool) : Abort := ⟨f, k, s.now, k + cdiv 24 (max 1 part.cad), debug⟩
    let stops (i : Instr) (info : FaultInfo → Prop) (banked : Bool) : Prop := ∃ t, exec i s = .next t ∧ (t.part p).seq = .stopped
      ∧ ∃ r', (t.part p).frec = some r' ∧ info r'.info ∧ r'.rseq = part.rseq + 1 ∧ r'.banked = banked
    let replayable := ((part.job.bind Job.entry).map (·.replayable)).getD false
    -- aborts (R341, R342, R349)
    (part.abort = some a → part.deferred = [] → part.waiting = [] → part.frec = none →
      (replayable = true → stops (.faultCapture p) (fun f => f = a.info) false)
      ∧ (replayable = false → part.held ≠ 1 → stops (.faultCapture p) (fun f => f = a.info) true
        ∧ ∃ t, exec (.faultCapture p) s = .next t ∧ (t.part p).abort = none ∧ ∀ c, c ∈ s.coresOf p → (t.core c).bank.isSome = true)
      ∧ (replayable = false → part.held = 1 → 0 < s.saveCycles p → ∃ t, exec (.faultCapture p) s = .next t
        ∧ (t.part p).seq = .signing ∧ (t.part p).abort = some a ∧ (t.part p).held = 2
        ∧ ∃ e, e ∈ t.agenda ∧ e.ev = .faultCapture p ∧ e.cycle = s.now + s.saveCycles p))
    ∧ (part.seq = .phase ∨ part.seq = .signing → s.sysPhase p = true → part.abort = none →
      ∃ t, exec (.abortMessage p) s = .next t ∧ t.cores = s.cores ∧ t.hbm = s.hbm
        ∧ (t.part p).abort = some (freeze ⟨0x09, 1, none, none, 6, 0, []⟩ (part.k - 1) false))
    ∧ ((part.seq = .phase ∨ part.seq = .signing) ∧ s.sysPhase p = false ∨ part.seq = .idle →
      on (.abortMessage p) { part with groupStopped := true })
    ∧ (part.seq = .slack 2 → part.abort = none → part.deferred = [] → part.waiting = [] → part.frec = none → replayable = false → part.held ≠ 1 →
      stops (.abortMessage p) (fun f => f.code = 0x09 ∧ f.detail = 6) true)
    ∧ (part.seq = .slack 9 → part.frec = none → stops (.abortMessage p) (fun f => f.code = 0x28 ∨ f.code = 0x2A) false)
    -- the driver's actions (R343, R346)
    ∧ (part.frec = some r → r.info.cls ≠ 4 → s.tested p = true → part.seq = .stopped → ∃ t, exec (.abandon p) s = .next t
      ∧ (t.part p).frec = none ∧ (t.part p).job = none ∧ (t.part p).seq = .idle ∧ (t.part p).tested = true)
    ∧ (part.frec = some r → r.info.cls = 4 ∨ s.tested p = false → part.seq = .stopped →
      (∀ e, e ∈ s.agenda → ∀ d x, e.ev = .dieWake d x → s.partOf (12 * d.val) ≠ p) → ∃ t, exec (.abandon p) s = .next t
      ∧ (t.part p).frec = none ∧ (t.part p).job = none ∧ (t.part p).tested = false
      ∧ ∃ e fails, e ∈ t.agenda ∧ e.ev = .dieWake (Fin.ofNat 8 (2 * p.val)) (0, fails) ∧ e.cycle = s.now)
    ∧ (part.frec = some r → r.info.cls = 2 → r.launch = false → r.banked = false → r.step = 8 → part.seq = .stopped → s.tested p = true →
      exec (.retry p) s = .next ((s.setPart p { part with frec := none, wd := 0, wdFrom := none, seq := .slack 8 }).step8 p))
    ∧ (part.frec = some r → r.info.cls ≠ 2 ∨ s.tested p = false → exec (.retry p) s = .next s)
    ∧ (part.frec = some r → part.job = some j → r.info.cls < 2 → r.replayable = true → r.info.code ≠ 0x3F → part.seq = .stopped →
      r.launch = false → s.tested p = true → exec (.replay p) s
        = .next (((s.setPart p { part with frec := none }).sedReplay p (j.replays + 1) 1).rerun p false 0))
    ∧ (part.frec = some r → r.replayable = false ∨ 2 ≤ r.info.cls ∨ r.info.code = 0x3F ∨ s.tested p = false →
      exec (.replay p) s = .next s)
    -- memory errors and machine checks (R26, R345, R346, R379, R380)
    ∧ (∃ t, exec (.uncorrectableError .ab core addr) s = .next t ∧ (t.core core).ab = (s.core core).ab.mark true (addr / 64) true)
    ∧ (addr < Config.hbmBytes → ∃ t, exec (.uncorrectableError .hbm core addr) s = .next t ∧ t.hbm = s.hbm.mark false (addr / 64) true)
    ∧ (s.partOf core = p.val → part.seq = .phase → part.abort = none → ∃ t, exec (.uncorrectableError .pool core addr) s = .next t
      ∧ (t.part p).tested = false ∧ (t.core core).halted = true
      ∧ (t.part p).abort = some (freeze ⟨0x3F, 4, some core.val, none, 2, 0, []⟩ (s.eventTick p) false))
    ∧ (∃ t, exec (.correctedError .ab core addr) s = .next t ∧ t.cores = s.cores ∧ t.hbm = s.hbm ∧ t.parts = s.parts)
    ∧ (part.stale = 0 → ∃ t, exec (.heartbeatCheck p) s = .next t ∧ (t.part p).lastProg = some part.progress ∧ (t.part p).seq = part.seq
        ∧ (t.part p).stale = if part.lastProg = some part.progress ∧ part.resting = false then 1 else 0)
    ∧ (part.stale = 1 → part.lastProg = some part.progress → part.seq = .slack 7 → part.held = 0 → part.frec = none →
      stops (.heartbeatCheck p) (fun f => f.code = 0x3F ∧ f.cls = 4 ∧ f.detail = 1) false)
    -- debug stops (R369)
    ∧ (part.abort = some a → a.debug = true → s.outstanding p = true →
      exec (.debugStop p) s = .next (s.schedule (s.now + 1) (.debugStop p)))
    ∧ (part.abort = some a → a.debug = true → s.outstanding p = false → part.dmodeOn = 0 → ∃ t, exec (.debugStop p) s = .next t
      ∧ (t.part p).seq = .debug false ∧ (t.part p).abort = none ∧ (t.part p).frec = part.frec)
    ∧ (part.abort = some a → a.debug = true → s.outstanding p = false → part.dmodeOn = 1 → s.sysPhase p = false → part.jfull = false → s.mod.tripped = false →
      part.job = some j → ∃ t, exec (.debugStop p) s = .next t ∧ (t.part p).reexec = some a.k ∧ (t.part p).abort = none
        ∧ (t.part p).seq = .slack 7 ∧ (t.part p).next = some ⟨j.phase, j.pidx, j.infl, j.z, j.q, true⟩)
    ∧ (part.dbgOn.getLsbD 0 = false → exec (.dstop p) s = .next s)
    ∧ (part.dbgOn.getLsbD 0 = true → part.seq = .phase → part.abort = none → exec (.dstop p) s = .next
      ((s.setPart p { part with abort := some (freeze ⟨0, 1, none, none, 0, 0, []⟩ (s.eventTick p) true), skipBrk := none }).tellGroup p))
    ∧ (∀ n, part.dbgOn.getLsbD 0 = true → part.seq = .slack n ∨ part.seq = .signing → on (.dstop p) { part with dstopReq := true })
    ∧ (part.seq = .debug true → (∃ c, c ∈ s.coresOf p ∧ (s.core c).signed = false) →
      exec (.dcont p) s = .next ((s.setPart p { part with seq := .phase, base := s.now + 1 }).schedule (s.now + 4096) (.sequencerProgress p)))
    ∧ (part.seq = .debug true → (∀ c, c ∈ s.coresOf p → (s.core c).signed = true) →
      exec (.dcont p) s = .next ((s.setPart p { part with seq := .signing, base := s.now + 1 }).schedule s.now (.lastSignOff p)))
    -- pre-emption, invalidations, counters, dumps (R344, R347, R348, R350, R353)
    ∧ on (.preemptRequest p) { part with pend := part.pend || part.held == 0 }
    ∧ (part.heldJob = some j → part.heldSel = some x → part.held = 1 → part.job = some j → ∃ t, exec (.preemptResume p) s = .next t
      ∧ (t.part p).held = 0 ∧ (t.part p).heldJob = none)
    ∧ (part.seq = .phase ∨ part.seq = .signing ∨ part.seq = .slack 8 ∨ part.seq = .debug true →
      on (.invalidateOne p) { part with inval := part.inval ++ [some part.iva] }
      ∧ on (.invalidateAll p) { part with inval := part.inval ++ [none] })
    ∧ (part.seq ≠ .phase → part.seq ≠ .signing → part.seq ≠ .slack 8 → part.seq ≠ .debug true → part.inval = [] →
      on (.invalidateAll p) { part with cache := [] }
      ∧ on (.invalidateOne p) { part with cache := part.cache.filter fun e =>
          !(decide (e.va ≤ part.iva) && decide (part.iva < e.va + e.size)) })
    ∧ on (.ccntClear p) { part with ccnt := 0 } ∧ on (.dumpComplete p) { part with dbusy := false }
    ∧ (part.dbusy = false → part.seq = .stopped → ∃ t, exec (.dumpStart p) s = .next t ∧ (t.part p).dbusy = true)
    ∧ (part.seq = .phase → part.job = some j → exec (.dumpStart p) s = .next s)

/-! ### The host port -/

/-- R323, R325 to R327, R267, R268, R286, R360, R362 and R372: what the registers and windows do that the host reaches. The model's
choices stand in assumptions 78 (the wait of a host access), 80 (what answers before step 5, and that function 0 has no
aperture), 81 (a mode write that is taken changes the mode alone) and 112 (the MSI-X tables). A write to AB that waits keeps its
place among the posted writes of its function (R266), and a register write that comes due where the port does not present the
register reaches nothing. -/
def Obligations.HostPortEvents : Prop :=
  ∀ (s : State) (p word : Fin 4) (v : W64) (fn : Fin 5) (off n : Nat) (data : List Byte) (bad : Bool),
    let part := s.part p
    let on (i : Instr) (f : Part) : Prop := exec i s = .next (s.setPart p f)
    let bytes := if bad then List.replicate data.length none else data.map some
    let mode := fld v.toNat 1 0
    let presents := s.mod.stage = 5 ∧ s.mod.recovery = false
    (mode < 3 → (∀ q : Fin 4, (s.parts[q]).started = false ∧ (∀ n : Fin 64, ((s.parts[q]).queues[n]).enable = false) ∧ s.mod.qavail[q] = true) →
      exec (.modeWrite v) s = .next { s with mod := { s.mod with qpp := mode } })
    ∧ (part.started = true → exec (.modeWrite v) s = .next s)
    ∧ (part.started = false → on (.rngKeyWrite p word v) { part with
        rngStage := part.rngStage.set word v, rngKey := if word = 3 then part.rngStage.set word v else part.rngKey })
    ∧ (part.started = true → on (.rngKeyWrite p word v) { part with
        heldWrites := part.heldWrites ++ [(0x100 + 8 * word.val, v, 0)] })
    ∧ (part.started = true → on (.tktValWrite p v) { part with heldWrites := part.heldWrites ++ [(0x128, v, part.tktSel.toNat)] })
    ∧ (let slot := part.tktSel.toNat
      part.started = false → (slot / 2048 < p.val ∨ p.val + s.mod.quarters ≤ slot / 2048 → exec (.tktValWrite p v) s = .next s)
      ∧ (p.val ≤ slot / 2048 ∧ slot / 2048 < p.val + s.mod.quarters →
        exec (.tktValWrite p v) s = .next { s with mod := { s.mod with tickets := mapPut 0 s.mod.tickets slot v } }))
    ∧ on (.winErrClear p) { part with winErr := 0 }
    ∧ (∃ t, exec (.registerWrite fn off v) s = .next t)
    ∧ (s.mod.stage < 5 → s.mod.recovery = false → exec (.registerWrite fn off v) s = .next s)
    ∧ (s.mod.stage = 5 → s.mod.recovery = false →
      exec (.registerWrite 0 0xE00 v) s = .next { s with mod := { s.mod with pwrLim := v.setWidth 12 } }
      ∧ on (.registerWrite (p.succ) (0x400 + 8 * word.val) v) { part with
          win := part.win.set (Fin.ofNat 64 word.val) (v &&& 0x800FFFFFC0000000) })
    ∧ (s.mod.recovery = true → exec (.registerWrite p.succ off v) s = .next s)
    ∧ (∀ k : Fin 16, presents → ∃ t, exec (.registerWrite 0 (0x20000 + 16 * k.val) v) s = .next t
      ∧ t.mod.readMsix 0 (0x20000 + 16 * k.val) = v.toNat ∧ t.cores = s.cores ∧ t.parts = s.parts ∧ t.hbm = s.hbm)
    ∧ (¬ presents → exec (.hostApertureWrite fn off data bad) s = .next s ∧ exec (.hostAbWrite fn off data bad) s = .next s
      ∧ exec (.hostApertureRead fn off n) s = .next (s.emit .unsupportedRequest)
      ∧ exec (.hostAbRead fn off n) s = .next (s.emit .unsupportedRequest))
    ∧ exec (.hostApertureWrite 0 off data bad) s = .next s
    ∧ exec (.hostApertureRead 0 off n) s = .next (s.emit .unsupportedRequest)
    ∧ (∀ ps, presents → s.aperture p .store off data.length = some ps →
      exec (.hostApertureWrite p.succ off data bad) s = .next (s.writePieces (.fn p.succ) ps bytes))
    ∧ (presents → s.aperture p .store off data.length = none → on (.hostApertureWrite p.succ off data bad) { part with winErr := part.winErr + 1 })
    ∧ (∀ ps, presents → s.aperture p .load off n = some ps → exec (.hostApertureRead p.succ off n) s = .next (s.emit
        (.completion ((s.homeReads ps).map fun b => b.getD 0) ((s.homeReads ps).any (·.isNone)))))
    ∧ (s.aperture p .load off n = none → exec (.hostApertureRead p.succ off n) s = .next (s.emit .unsupportedRequest))
    ∧ (presents → bar4 fn off = none → exec (.hostAbWrite fn off data bad) s = .next s)
    ∧ (∀ c a, presents → bar4 fn off = some (c, a) → a + data.length ≤ Config.abBytes → 0 < data.length → a + n ≤ Config.abBytes → 0 < n →
      let write : InWrite := { src := .fn fn, act := .ab c a bytes }
      let posts (t : State) : State := { t with mod := { t.mod with posted := t.mod.posted ++ [write] } }
      let first := ∀ w, w ∈ s.mod.posted → w.src ≠ .fn fn
      (first → (∀ q, q < 4 → (s.part q).holds (.fn fn) = false) →
        (s.hostWaits c a data.length = none → exec (.hostAbWrite fn off data bad) s
          = .next (s.setCore c ((s.core c).bufStore .ab (place a bytes))))
        ∧ ∀ b, s.hostWaits c a data.length = some b → exec (.hostAbWrite fn off data bad) s
          = .next (((posts s).setCore c ((s.core c).countStall 8 b)).schedule (s.nextTickCycle c) (.hostAbWrite fn 0 [] false)))
      ∧ (first → ∀ q, q < 4 → (s.part q).holds (.fn fn) = true → (∀ k, k < q → (s.part k).holds (.fn fn) = false) →
        exec (.hostAbWrite fn off data bad) s = .next (s.deferTo q write))
      ∧ (¬ first → exec (.hostAbWrite fn off data bad) s = .next (posts s))
      ∧ exec (.hostAbWrite fn off [] bad) s = .next (s.retryPosted fn)
      ∧ (s.hostWaits c a n = none → exec (.hostAbRead fn off n) s = .next (s.emit (.completion
          (((s.core c).bufRead .ab a n).map fun b => b.getD 0) (((s.core c).bufRead .ab a n).any (·.isNone)))))
      ∧ ∀ b, s.hostWaits c a n = some b → exec (.hostAbRead fn off n) s
        = .next ((s.setCore c ((s.core c).countStall 8 b)).schedule (s.nextTickCycle c) (.hostAbRead fn off n)))
    -- a driver's register write that is due reaches nothing where the port does not present it (R360, R362)
    ∧ (∀ (i : Instr) (e : Ev) (es : List Ev) (q : Fin 64) (tail : BitVec 32) (on : Bool), ¬ presents →
      i ∈ [.doorbell p q tail, .queueEnable p q on, .queueResume p q on, .queueSkip p q on, .rngKeyWrite p word v, .tktValWrite p v,
        .winErrClear p, .abandon p, .retry p, .replay p, .preemptRequest p, .invalidateOne p, .invalidateAll p, .ccntClear p,
        .dumpStart p, .dstop p, .dcont p] →
      s.firstTick = none → s.agenda = e :: es → e.ev = i → e.cycle ≤ s.now → step s = .next { s with agenda := es })
    ∧ exec (.sedimentSelect v) s = .next { s with mod := { s.mod with
        sedSel := v &&& 0x8000007FFFFFFFFF, sedData := s.mod.sedEntry v.toNat } }
    ∧ exec (.telemetrySelect v) s = .next { s with mod := { s.mod with
        telSel := v &&& 0x1FFFF, telData := padTo 2048 (s.telRecord v.toNat) } }
    ∧ (s.mod.uvOff = Vector.replicate 16 0 → exec (.uvEnWrite v) s = .next { s with mod := { s.mod with uvEn := v.setWidth 16 } })

/-! ### Launches -/

/-- R321, R329, R331 to R334, R336, R337 and R361: what the hub does with doorbells, head records, gates, eligible records and ended
jobs, and what the decode service commits and delivers. The model's choices stand in assumptions 71 (the latched launch gate), 73
(err 3 for a quarter that is not available), 75 (a skip whatever the tail), 77 (slots that cannot be read are skipped) and 107
(what PCIe can complete). The completion signal takes 1 from its object, and leaves an invalid one as it is (R220, R334). -/
def Obligations.LaunchEvents : Prop :=
  ∀ (s : State) (p : Fin 4) (n : Fin 64) (tail : BitVec 32) (enable : Bool) (l : Launch) (j : Job) (svo vb : Nat),
    let part := s.part p
    let q := part.queues[n]
    let on (f : Queue) : State := s.setPart p { part with queues := part.queues.set n f }
    let far := (tail.toNat + 2 ^ 32 - q.head) % 2 ^ 32
    let stopped (i : Instr) (err : Nat) : Prop := ∃ t, exec i s = .next t ∧ ((t.part p).queues[n]).qstate = 2
      ∧ ((t.part p).queues[n]).err = err ∧ ((t.part p).queues[n]).tail = q.tail ∧ ((t.part p).queues[n]).head = q.head
      ∧ (t.part p).aging = part.aging ∧ (t.part p).served = part.served
    -- queues and head records (R328, R329, R331)
    (tail.toNat = q.tail → exec (.doorbell p n tail) s = .next s)
    ∧ (tail.toNat ≠ q.tail → q.entries < far → q.qstate ≠ 2 → stopped (.doorbell p n tail) 4)
    ∧ (tail.toNat ≠ q.tail → far ≤ q.entries →
      exec (.doorbell p n tail) s = .next ((on { q with tail := tail.toNat }).fetchHead p n))
    ∧ (q.qstate ≠ 2 → exec (.queueEnable p n true) s
      = .next (((on { q with enable := true, qstate := 1 }).fetchHead p n).tryLaunch p))
    ∧ (q.qstate = 2 → exec (.queueResume p n enable) s = .next (((on { q.forget with
        enable := enable, qstate := if enable then 1 else 0, err := 0, fidx := 0 }).fetchHead p n).tryLaunch p))
    ∧ (q.qstate = 2 → exec (.queueSkip p n enable) s = .next (((on { q.forget with
        enable := enable, qstate := if enable then 1 else 0, err := 0, fidx := 0, head := (q.head + 1) % 2 ^ 32 }).fetchHead p n).tryLaunch p))
    ∧ (q.qstate = 1 → q.head ≠ q.tail → q.head1 = none →
      (q.loc = false → Config.hostCompletes s.now (q.base + 128 * (q.head % q.entries)) = false → stopped (.recordFetch p n) 6)
      ∧ (s.headRecord p q = none → stopped (.recordFetch p n) 6)
      ∧ ∀ b, s.headRecord p q = some b →
        let good := u b 0 4 = q.head ∧ u b 124 4 = crc32c (b.take 124)
        (¬ good → 8 ≤ q.fetches → stopped (.recordFetch p n) 1)
        ∧ (¬ good → q.fetches < 8 → exec (.recordFetch p n) s
          = .next ((on { q with fetches := q.fetches + 1 }).schedule (s.now + 800) (.recordFetch p n)))
        ∧ (good → parseRecord b = none → stopped (.recordFetch p n) 2)
        ∧ (good → parseRecord b = some l → exec (.recordFetch p n) s = .next
          ((if l.gated then (on { q.forget with head1 := some l }).evalLaunch p n s.now else on { q.forget with head1 := some l }).tryLaunch p)))
    -- launch gates (R333)
    ∧ (∀ h v, q.head1 = some l → l.gated = true → q.gateOk = false → q.qstate = 1 → q.gateHome = some h → v < 2 ^ 64 →
      s.homeRead h 8 = (leBytes 8 v).map some →
      (BitVec.ofNat 64 v ≠ 0x8000000000000000 → condHolds l.gcond (BitVec.ofNat 64 v) l.gval = true →
        exec (.launchGateEvaluation p n) s = .next (((on { q with gateOk := true }).armDog p).tryLaunch p))
      ∧ (BitVec.ofNat 64 v = 0x8000000000000000 → stopped (.launchGateEvaluation p n) 5))
    -- launches (R331, R332, R361)
    ∧ (s.canLaunch p = true → ∃ u : State, u.parts = s.parts ∧ u.cores = s.cores ∧ u.hbm = s.hbm
      ∧ (part.pick part.eligible = none → exec (.launchStart p) s = .next u)
      ∧ ∀ lvl, part.pick part.eligible = some (lvl, n.val, some l) →
        (s.available p = false → stopped (.launchStart p) 3)
        ∧ (∀ e, s.available p = true → u.readLaunch p l = .error e → stopped (.launchStart p) 3)
        ∧ (∀ t a g w, s.available p = true → u.readLaunch p l = .ok (t, a, g) → parseGroup g = some w →
          (l.system = true → t.phases.any (·.system) = true) → exec (.launchStart p) s
            = .next (((u.setPart p (part.serve part.eligible (lvl, n.val, some l))).startJob p n l t a w).tryLaunch p)))
    -- completion (R334)
    ∧ (part.ended.find? (fun k => k.id == j.id) = some j → j.done = false → j.launch.csig = 0 →
      (∀ c, c ∈ s.coresOf p → ∀ o, o ∈ (s.core c).outb → o.job = j.id → o.st = .acked) →
      exec (.jobCompletion p j.id) s = .next (s.finishJob p j none))
    ∧ (∀ pa v, part.ended.find? (fun k => k.id == j.id) = some j → j.csigHome = some (.hbm pa) →
      (∀ q : Nat, q < 4 → (s.part q).holds (.part p) = false) → s.deferrer (.part p) (.hbm pa) 8 = none → v < 2 ^ 64 →
      s.homeRead (.hbm pa) 8 = (leBytes 8 v).map some →
      (v ≠ 0x8000000000000000 → exec (.completionSignalPerformed p j.id) s = .next
        ((s.homeWrite .hub (.hbm pa) ((leBytes 8 ((v + 2 ^ 64 - 1) % 2 ^ 64)).map some)).finishJob p j none))
      ∧ (v = 0x8000000000000000 → exec (.completionSignalPerformed p j.id) s = .next
        ((s.homeWrite .hub (.hbm pa) ((leBytes 8 0x8000000000000000).map some)).finishJob p j none)))
    -- the decode service (R321, R336, R337)
    ∧ (∀ items, part.job = none ∨ s.atService p svo = false → exec (.decodeService p items svo vb) s = .next s)
    ∧ (∀ items, part.job = some j → s.atService p svo = true → (∀ i : ServiceItem, i ∈ items → s.devBytes p i.slotAddr 512 = none) →
      exec (.decodeService p items svo vb) s = .next (s.devStore p svo (leBytes 8 (j.phase + 1))))
    ∧ (∀ (i : ServiceItem) b v r cap head tail, part.job = some j → s.atService p svo = true →
      s.devBytes p i.slotAddr 512 = some b → s.devBytes p vb 3088 = some v → s.devBytes p (u b 48 8) 64 = some r →
      s.deliveryRing p (u b 48 8) r = some (cap, 0, head, tail) → b.length = 512 → u b 60 1 % 4 = 1 → u b 61 1 = 0 →
      let a := min 4 (u v 3072 4)
      let ring := u b 48 8
      let (b', ds) := commitSlot b a (u v (1024 * a + 16) 4) ((mapGet s.mod.tickets i.slot).getD 0)
      a ≤ cap - (tail + 2 ^ 64 - head) % 2 ^ 64 → 0 < a →
      let put := (place 0 ds).foldl (fun (s : State) x => s.devStore p (ring + 64 + 16 * ((tail + x.1) % cap)) (deliveryEntry i.slot x.2)) s
      exec (.decodeService p [i] svo vb) s = .next
        (((put.devStore p (ring + 16) (leBytes 8 ((tail + a) % 2 ^ 64))).devStore p i.slotAddr (spillSlot b' [] false)).devStore p svo
          (leBytes 8 (j.phase + 1))))
    ∧ (∀ b a g k, b.length = 512 → a ≤ 4 → g < 2 ^ 32 →
      let (b', ds) := commitSlot b a g k
      ds = (List.range a).map (fun i => (u b (384 + 4 * i) 4, u b 44 4 + i, false))
      ∧ (∀ i, i < a → u b' (64 + 4 * ((u b 44 4 + i) % 64)) 4 = u b (384 + 4 * i) 4)
      ∧ u b' 32 8 = k.toNat ∧ u b' 40 4 = (u b 44 4 + a) % 2 ^ 32 ∧ u b' 44 4 = (u b 44 4 + a) % 2 ^ 32
      ∧ (a < 3 → u b' 384 4 = g ∧ u b' 62 1 = 1) ∧ (3 ≤ a → u b' 62 1 = 0))

/-! ### Start-up, trust and the fleet -/

/-- R360 to R366: start-up, recovery, attestation, debug unlock, life-cycle fuses and boundary scan. In recovery a candidate that is
rejected is measured and nothing else; one that is accepted stands for both flash copies, and the module starts again. A token that
is accepted opens its features and extends MR5. What only a standard fixes is a free value (assumption 6), as is the outcome of a
core's test (assumption 5); the model's choices stand in assumptions 59 (result 6), 107 (what PCIe can complete), 108 (the
encoding of SPDM) and 110 (the message that reads the trace sink). -/
def Obligations.StartupAndTrustEvents : Prop :=
  ∀ (s : State) (die : Fin 8) (core : Fin 12) (fails token : Bool) (req : List Byte) (state : LifeCycle) (n : Nat),
    let m := s.mod
    let r := Config.standardReply s.fresh
    let c := 12 * die.val + core.val
    let at_ (m' : Module) : State := { s with fresh := s.fresh + 1, mod := m' }
    let said (i : Instr) (o : Output) (m' : Module) : Prop := exec i s = .next ((at_ m').emit o)
    let refused (i : Instr) (code : Nat) : Prop := exec i s = .next (s.emit (.spdmUnsupported code))
    let scans (i : Instr) (j : Jtag) : Prop := exec i s = .next { s with mod := { m with
      jtag := if m.life ≠ .field ∨ m.openPart.getLsbD 3 = true ∨ m.openFw.getLsbD 3 = true then j else .bypass } }
    let starts (t : State) : Prop := t.mod.stage = 2 ∧ (t.mod.recovery = false ↔ ∀ k, k < 4 → t.mod.loads k = true)
      ∧ (t.mod.recovery = false → (∃ e, e ∈ t.agenda ∧ e.ev = .startupDone ∧ e.cycle = s.now + 336000000)
        ∧ ∀ d : Fin 8, ∃ e b, e ∈ t.agenda ∧ e.ev = .dieWake d (0, b) ∧ e.cycle = s.now + 72000000 + 32000000 * d.val)
    -- start-up and recovery (R360, R362)
    (∃ t, exec .powerGood s = .next t ∧ t.pgood = s.now ∧ t.now = s.now ∧ t.mod.sed.length = 1 ∧ t.mod.life = m.life
      ∧ t.mod.rescued = m.rescued ∧ t.hbm = s.hbm ∧ (∀ d : Fin 96, t.cores[d] = Core.reset) ∧ starts t)
    ∧ (∃ t, exec (.dieWake die (core, fails)) s = .next t ∧ t.mod.powered[die] = true
      ∧ (∀ d : Fin 96, d.val = c → t.cores[d] = (s.cores[d]).afterTest ∧ t.mod.fenced[d] = fails)
      ∧ (∀ d : Fin 96, d.val ≠ c → t.cores[d] = s.cores[d] ∧ t.mod.fenced[d] = m.fenced[d])
      ∧ t.hbm = (if m.stage ≤ 3 ∧ c = 0 then Mem.empty else s.hbm)
      ∧ (c % 24 = 23 → (t.part (c / 24)).tested = true) ∧ (m.stage ≤ 3 → c = 95 → t.mod.stage = 4))
    ∧ (∃ t, exec .startupDone s = .next t ∧ t.mod.stage = 5
      ∧ ∀ q : Fin 4, t.mod.qavail[q] = true ↔ ∀ c : Fin 96, c.val / 24 = q.val → m.fenced[c] = false)
    ∧ (m.recovery = false → exec .recGo s = .next s)
    ∧ (∀ k : Fin 8, k.val < 4 → m.recovery = true → m.loads k = false → (∀ i, i < k.val → m.loads i = true) →
      (imageGood k m.candidate = false → exec .recGo s = .next { s with mod := m.measure k (imageBody m.candidate) })
      ∧ (imageGood k m.candidate = true → ∃ t, exec .recGo s = .next t ∧ t.mod.rescued = mapSet m.rescued k m.candidate
        ∧ t.mod.loads k = true ∧ starts t))
    ∧ exec .pcieConfigRequest s = .next (s.emit (if m.stage < 5 ∧ m.recovery = false then .requestRetry else .configDone m.portCaps))
    ∧ (m.portCaps.vfs = (if m.recovery then 0 else 4) ∧ m.portCaps.pfBars.head? = some 0x800000 ∧ m.portCaps.ats = false ∧ m.portCaps.pasid = false)
    -- attestation (R7, R363, R364)
    ∧ (m.life = .provisioned ∨ m.life = .field →
      let version : List Byte := [0x10, 0x04, 0, 0, 0, 1, 0x00, 0x13]
      let a := algorithmsReply r
      let signed (challenge : Bool) (b : List Byte) : List Byte := dsaSign (dsaKeygen (shake256 (Config.uds
        ++ [70, 65, 56, 32, 105, 100, 101, 110, 116, 105, 116, 121]) 32)) (spdmSigned challenge b) (leBytes 32 (Config.random s.fresh).toNat)
      let asked := Config.spdmRequest s.fresh
      said .getVersion (.spdm 0x04 version) { m with spdmVca := [0x10, 0x84, 0, 0] ++ version, spdmCerts := [], spdmMeas := [] }
      ∧ said .getCapabilities (.spdm 0x61 (capabilitiesReply r)) { m with spdmVca := m.spdmVca ++ asked ++ capabilitiesReply r }
      ∧ said .negotiateAlgorithms (.spdm 0x63 a) { m with spdmVca := m.spdmVca ++ asked ++ a }
      ∧ (let d : List Byte := [0x13, 0x01, 1, 1] ++ shake256 Config.certificate 64
        said .getDigests (.spdm 0x01 d) { m with spdmCerts := m.spdmCerts ++ [0x13, 0x81, 0, 0] ++ d })
      ∧ (let rest := Config.certificate.drop (u req 4 2)
        let part := rest.take (u req 6 2)
        let cert : List Byte := [0x13, 0x02, 0, 0] ++ leBytes 2 part.length ++ leBytes 2 (rest.length - part.length) ++ part
        let error : List Byte := [0x13, 0x7F, 0x01, 0x00]
        (u req 2 1 % 16 = 0 → u req 4 2 < Config.certificate.length →
          said (.getCertificate req) (.spdm 0x02 cert) { m with spdmCerts := m.spdmCerts ++ req ++ cert })
        ∧ (u req 2 1 % 16 ≠ 0 ∨ Config.certificate.length ≤ u req 4 2 →
          said (.getCertificate req) (.spdm 0x7F error) { m with spdmCerts := m.spdmCerts ++ req ++ error }))
      ∧ said (.challenge req) (.spdm 0x03 (r ++ signed true (m.spdmVca ++ m.spdmCerts ++ req ++ r))) { m with spdmCerts := [], spdmMeas := [] }
      ∧ (∀ i, i < 9 ∨ i = 0xFF → let b := m.measurements i r
        said (.getMeasurements i none) (.spdm 0x60 b) { m with spdmMeas := m.spdmMeas ++ [0x13, 0xE0, 0, BitVec.ofNat 8 i] ++ b }
        ∧ said (.getMeasurements i (some req)) (.spdm 0x60 (b ++ signed false (m.spdmVca ++ m.spdmMeas
          ++ ([0x13, 0xE0, 1, BitVec.ofNat 8 i] ++ req) ++ b))) { m with spdmMeas := [] })
      ∧ (9 ≤ n → n < 0xFF → said (.getMeasurements n none) (.spdm 0x7F [0x13, 0x7F, 0x01, 0x00]) m
        ∧ said (.getMeasurements n (some req)) (.spdm 0x7F [0x13, 0x7F, 0x01, 0x00]) m))
    ∧ (m.life = .manufacture ∨ m.life = .returned →
      refused .getVersion 0x84 ∧ refused .getCapabilities 0xE1 ∧ refused .negotiateAlgorithms 0xE3
      ∧ refused .getDigests 0x81 ∧ refused (.getCertificate req) 0x82 ∧ refused (.challenge req) 0x83
      ∧ refused (.getMeasurements n none) 0xE0 ∧ refused (.getMeasurements n (some req)) 0xE0)
    ∧ refused (.spdmUnsupportedRequest n) n
    ∧ (∀ (c : Byte) (d : List Byte),
      let i : Instr := .mctpControlMessage (c :: d)
      let reads := c.toNat = Config.sinkCommand ∧ s.fwFeatures.getLsbD 2 = true
      (reads → exec i s = .next (s.emit (.traceSink m.sink)))
      ∧ (¬ reads → (∃ t, exec i s = .next t)
        ∧ (∀ a e, c = 1 → d = [a, e] → a.toNat % 4 < 2 → 8 ≤ e.toNat → e.toNat < 255 → said i (.mctp 1 [0, 0, e, 0]) { m with eid := e })
        ∧ (c = 2 → said i (.mctp 2 [0, m.eid, 0, 0]) m)
        ∧ (∀ t, c = 4 → d = [t] →
          (t = 0xFF ∨ t = 0 ∨ t = 1 ∨ t = 5 → said i (.mctp 4 ([0, 1] ++ (padTo 4 r).take 4)) m)
          ∧ (t ≠ 0xFF → t ≠ 0 → t ≠ 1 → t ≠ 5 → said i (.mctp 4 [0x80]) m))
        ∧ (c = 5 → said i (.mctp 5 [0, 2, 1, 5]) m)
        ∧ (c ≠ 1 → c ≠ 2 → c ≠ 4 → c ≠ 5 → said i (.mctp c.toNat [5]) m)))
    -- debug unlock (R365 to R367)
    ∧ (let m' := { m with nonce := Config.random s.fresh }
      let b := (s.homeRead (.host m.dbgTok.toNat) 3437).map fun x => x.getD 0
      let readable := m.dbgTok.toNat % 8 = 0 ∧ Config.hostCompletes s.now m.dbgTok.toNat = true
      let f := BitVec.ofNat 4 (u b 8 1)
      (¬ readable → exec .dbgGo s = .next (at_ { m' with dbgRes := 6 }))
      ∧ (readable → m.tokenCheck b ≠ 0 → exec .dbgGo s = .next (at_ { m' with dbgRes := BitVec.ofNat 8 (m.tokenCheck b) }))
      ∧ (readable → m.tokenCheck b = 0 → exec .dbgGo s = .next (at_ { m' with
        dbgRes := 0, mr := m.mr.set 5 (shake256 (m.mr[5] ++ shake256 b 64) 64)
        openPart := if u b 6 1 = 0 then m.openPart ||| f else m.openPart
        openFw := if u b 6 1 = 0 then m.openFw else m.openFw ||| f }))
      ∧ (m.tokenCheck b = 0 → u b 0 4 = 0x444B5431 ∧ u b 4 2 = 1 ∧ u b 80 32 = m.nonce.toNat
        ∧ keyVerifies false (b.take 128) (b.drop 128) = true ∧ ∃ k, m.identity = some k ∧ slice b 16 64 = shake256 k.pk 64))
    -- boundary scan and fuses (R364)
    ∧ exec .bypass s = .next { s with mod := { m with jtag := .bypass } } ∧ exec .idcode s = .next { s with mod := { m with jtag := .idcode } }
    ∧ scans .sample .sample ∧ scans .preload .preload ∧ scans .extest .extest ∧ scans .clamp .clamp ∧ scans .highz .highz
    ∧ exec (.lifeCycleFuse state token) s = .next (if lifeNo state = lifeNo m.life + 1 ∧ (state = .returned → token = true) then
        { s with mod := { m with life := state } } else s)

/-- R373 to R384, R229: power samples, diodes, the shutdown of a thermal trip, stack temperatures, undervolting, heartbeats, the
copies of the sediment record, PLDM and the links. The model's choices stand in assumptions 6 (the layout of PLDM answers), 64 (the
order of a shutdown), 111 (whether the firmware goes on), 113 (the base replies of PLDM) and 114 (the 1 ms average). -/
def Obligations.FleetEvents : Prop :=
  ∀ (s : State) (p : Fin 4) (watts id v port count cmd ty : Nat) (core base codes : List Nat) (data : List Byte) (milli : Fin 1000),
    let m := s.mod
    let limit := max 800 (min 2200 m.pwrLim.toNat)
    let tells (i : Instr) (cmd cc : Nat) (data : List Byte) : Prop := exec i s = .next (s.emit (.pldm 2 cmd cc data))
    let sets (i : Instr) (f : Module) : Prop := exec i s = .next ({ s with mod := f }.emit (.pldm 2 0x31 0 []))
    let mw := 1000 * watts + milli.val
    let last := (mw :: m.samples).take 10
    let replies (data' : List Byte) : Prop := exec (.pldmBaseRequest ⟨cmd, data⟩) s = .next (s.emit (.pldm 0 cmd 0 data'))
    (∃ t, exec (.powerSample watts milli) s = .next t ∧ t.mod.p100 = BitVec.ofNat 16 watts ∧ t.mod.samples = last
      ∧ t.mod.p1ms = BitVec.ofNat 16 (last.sum / (1000 * last.length))
      ∧ (1000 * limit < mw → m.cpow < 4 → m.riseAt = none → t.mod.cpow = m.cpow + 1 ∧ t.mod.riseAt = some s.now)
      ∧ (mw ≤ 1000 * limit → 9000 * limit * last.length < 10 * last.sum → t.mod.cpow = m.cpow)
      ∧ (∀ c, mw ≤ 1000 * limit → 10 * last.sum ≤ 9000 * limit * last.length → m.lowFrom = some c → 1 < m.cpow →
        max c (m.cpowAt.getD 0) + 8000000 ≤ s.now → t.mod.cpow = m.cpow - 1 ∧ t.mod.cpowAt = some s.now))
    ∧ (∃ t, exec (.thermalPoll core base) s = .next t ∧ t.mod.coreTemp = (core ++ List.replicate 96 0).take 96
      ∧ (t.mod.tripping = true → m.tripped = false → t.mod.tripped = true ∧ t.mod.offAt = some (s.now + 800000)
        ∧ (let part := s.part p
          m.partOf p = p.val → part.seq = .phase → part.abort = none →
          (t.part p).abort = some ⟨⟨0, 1, none, none, 0, 0, []⟩, s.eventTick p, s.now, s.eventTick p + cdiv 24 (max 1 part.cad), true⟩)))
    ∧ (∃ t, exec (.hbmTempRead codes) s = .next t ∧ (∀ i : Fin 12, t.mod.hbmCode[i] = min 2 (nth codes i.val 0)) ∧ t.parts = s.parts)
    ∧ (∃ t, exec .undervoltStep s = .next t ∧ t.mod.uvErr = Vector.replicate 16 0
      ∧ ∀ d : Fin 16, (m.uvEn.getLsbD d.val = false ∨ m.uvDis.getLsbD d.val = true → t.mod.uvOff[d] = m.uvOff[d])
        ∧ (m.uvEn.getLsbD d.val = true → m.uvDis.getLsbD d.val = false →
          (m.uvErr[d] = 0 → m.uvOff[d] < min 12 m.uvLim.toNat → t.mod.uvOff[d] = m.uvOff[d] + 1)
          ∧ (4 ≤ m.uvErr[d] → 0 < m.uvOff[d] → t.mod.uvOff[d] = m.uvOff[d] - 1)))
    ∧ (∃ t, exec .firmwareHeartbeat s = .next t ∧ t.mod.hbCnt = m.hbCnt + 1 ∧ t.mod.hbAt = s.now
      ∧ (∃ e, e ∈ t.agenda ∧ e.ev = .heartbeatLoss) ∧ (∀ e, e ∈ t.agenda → e.ev = .heartbeatLoss → e.cycle = s.now + 80000000)
      ∧ (s.fwFeatures.getLsbD 2 = false → t.mod.sink = m.sink ∧ (Config.firmwareRuns s.fresh = true →
        ∃ e, e ∈ t.agenda ∧ e.ev = .firmwareHeartbeat ∧ e.cycle = s.now + 800000))
      ∧ (s.fwFeatures.getLsbD 2 = true → let all := m.sink ++ Config.firmwareTrace s.fresh
        t.mod.sink = all.drop (all.length - 65536)))
    ∧ (s.now < m.hbAt + 80000000 → exec .heartbeatLoss s = .next s)
    ∧ (m.hbAt + 80000000 ≤ s.now → ∃ t, exec .heartbeatLoss s = .next t ∧ t.mod.stage = 2 ∧ ∀ p : Fin 4, (t.parts[p]).job = none)
    ∧ (∀ c, m.offAt = some c → c ≤ s.now → ∃ t, exec .flashCopy s = .next t ∧ t.hbm = Mem.empty ∧ t.outputs = s.outputs ++ [.linkDown]
      ∧ (∀ d : Fin 8, t.mod.powered[d] = false) ∧ t.mod.offAt = none ∧ t.mod.flashBusy = m.flashBusy)
    ∧ (m.offAt = none → m.flashBusy = true → 0 < m.flashWait → ∃ t, exec .flashCopy s = .next t ∧ t.mod.flashWait = m.flashWait - 1
      ∧ t.mod.flashBusy = true ∧ t.mod.flashed = m.flashed + 1 ∧ t.mod.flash = mapSet m.flash (m.flashed % 128) m.flashSnap)
    ∧ (m.offAt = none → m.flashBusy = true → m.flashWait = 0 → m.tripped = false → exec .flashCopy s = .next { s with mod := { m with
        flash := mapSet m.flash (m.flashed % 128) m.flashSnap, flashed := m.flashed + 1, flashBusy := false, flashSnap := [] } })
    ∧ (m.offAt = none → m.flashBusy = true → m.flashWait = 0 → m.tripped = true → ∃ t, exec .flashCopy s = .next t ∧ t.mod.hubPower = false)
    ∧ (m.offAt = none → m.flashBusy = false → exec .flashCopy s = .next s)
    ∧ (∀ x, s.sensor id = some x → tells (.getsensorreading id) 0x11 0 (leBytes 4 x))
    ∧ (s.sensor id = none → tells (.getsensorreading id) 0x11 0x80 [])
    ∧ (∀ x, s.effecter id = some x → tells (.getnumericeffectervalue id) 0x32 0 (leBytes 4 x))
    ∧ (s.effecter id = none → tells (.getnumericeffectervalue id) 0x32 0x80 [])
    ∧ (v < 4096 → sets (.setnumericeffectervalue 1 v) { m with pwrLim := BitVec.ofNat 12 v })
    ∧ (2 ≤ id → id < 6 → 1 ≤ v → v ≤ 4 → sets (.setnumericeffectervalue id v) { m with cmin := setCmin m.cmin (id - 2) (v - 1) })
    ∧ (v < 2 → sets (.setnumericeffectervalue 6 v) { m with tsrc := v == 1 })
    ∧ (6 < id → tells (.setnumericeffectervalue id v) 0x31 0x80 [])
    ∧ (m.pldmEvents = [] → tells .pollforplatformeventmessage 0x0B 0 [])
    ∧ (∀ a e es, m.pldmEvents = (a, e) :: es → exec .pollforplatformeventmessage s
      = .next ({ s with mod := { m with pldmEvents := es } }.emit (.pldm 2 0x0B 0 (leBytes 2 a ++ [BitVec.ofNat 8 e]))))
    ∧ ((s.sensor id).isSome = true → exec (.getpdr id) s = .next ({ s with fresh := s.fresh + 1 }.emit
        (.pldm 2 0x51 0 (Config.standardReply s.fresh ++ s.pdrThresholds id))))
    ∧ (cmd = 1 → exec (.pldmBaseRequest ⟨cmd, data⟩) s = .next ({ s with mod := { m with tid := data.headD 0 } }.emit (.pldm 0 1 0 [])))
    ∧ (cmd = 2 → replies [m.tid])
    ∧ (cmd = 4 → replies (0x05 :: List.replicate 7 0))
    ∧ (cmd = 5 → u data 0 1 = 0 → replies (0x3E :: List.replicate 31 0))
    ∧ (cmd = 5 → u data 0 1 = 2 → replies (leBytes 32 (2 ^ 0x0B + 2 ^ 0x11 + 2 ^ 0x31 + 2 ^ 0x32 + 2 ^ 0x51)))
    ∧ (cmd = 5 → u data 0 1 ≠ 0 → u data 0 1 ≠ 2 → exec (.pldmBaseRequest ⟨cmd, data⟩) s = .next (s.emit (.pldm 0 5 0x83 [])))
    ∧ (cmd = 0 ∨ cmd = 3 ∨ 6 ≤ cmd → exec (.pldmBaseRequest ⟨cmd, data⟩) s
      = .next ({ s with fresh := s.fresh + 1 }.emit (.pldm 0 cmd 0 (Config.standardReply s.fresh))))
    ∧ exec (.pldmUnsupportedRequest ty cmd) s = .next (s.emit (.pldm ty cmd (if ty = 0 ∨ ty = 2 then 5 else 0x20) []))
    ∧ (∃ t, exec (.linkRetrain port) s = .next t ∧ t.mod.linkBlocks = m.linkBlocks ∧ t.mod.sedHead = (m.sedHead + 1) % 2 ^ 32)
    ∧ (∃ t, exec (.linkCorrectedBlocks port count) s = .next t ∧ ∀ i : Fin 6,
        t.mod.linkBlocks[i] = if i.val = port then m.linkBlocks[i] + count else m.linkBlocks[i])

/-! ### The machine as a whole -/

/-- A step runs the decoded word: where the tick of partition p is due, no event comes before it (a tick comes before an event of its
cycle and landings before words, assumption 16), nothing of it is due in a core and
the word of an entry of an engine queue is the first one due, no breakpoint stops it (R367), then a step is the meaning of the
instruction that the word decodes to, in the state in which the word has left its queue; a word that decodes to none traps
with code 0x01 (R63). Where an event is due first, a step is its meaning; where nothing is due yet, time passes. -/
def Obligations.StepRunsDecodedWord : Prop :=
  ∀ (s : State),
    (∀ p b c e x, s.firstTick = some (p, b) → b ≤ s.now → (∀ y ys, s.agenda = y :: ys → b ≤ y.cycle) →
      (s.part p).reexec = none → s.dueCore p = none → s.unmatched p = none → s.dueWord p = some (c, e, x) → s.bpHit p c e = false →
      (∀ i, decodeWord x.word.toNat = some i → step s = exec i (s.atWord c e x))
      ∧ (decodeWord x.word.toNat = none → step s = .next ((s.atWord c e x).trap ⟨0x01, 0, 0, 0⟩)))
    ∧ (∀ p b c x, s.firstTick = some (p, b) → b ≤ s.now → (∀ y ys, s.agenda = y :: ys → b ≤ y.cycle) →
      (s.part p).reexec = none → s.dueCore p = some (c, x) → step s = exec (actEvent x.act) (s.atItem c x))
    ∧ (∀ y ys, s.agenda = y :: ys → y.cycle ≤ s.now → (∀ p b, s.firstTick = some (p, b) → y.cycle < b) →
      step s = exec y.ev { s with agenda := ys })
    ∧ (∀ y ys, s.agenda = y :: ys → s.now < y.cycle → (∀ p b, s.firstTick = some (p, b) → y.cycle < b) →
      step s = .next { s with now := y.cycle })
    ∧ (s.firstTick = none → s.agenda = [] → s.mod.hubPower = false → step s = .fault .noPower)

/-- Words written out from the encodings decode to what they stand for: the worked words of the specification. -/
def Obligations.DecodeSamples : Prop :=
  let f : Frame := ⟨0, 0⟩
  let no : Tok := ⟨false, false, false, false⟩
  decodeWord 0x0100000006002400 = some (.sLoop 0 0 (.imm 6) 18)
  ∧ decodeWord 0x2004000000000000 = some (.yRdv 0)
  ∧ decodeWord 0x2028003A00000003 = some (.yExport f (.both 7 8))
  ∧ decodeWord 0x400C806508AC1D02 = some (.mMacS9 ⟨0, 2⟩ no 3 5 ⟨0, .c, .reg 5 true⟩ 7 .x72 false true)
  ∧ decodeWord 0x4624028000000001 = some (.mFeed ⟨3, 0⟩ no (.reg 4 true))
  ∧ decodeWord 0x6410C90109158800 = some (.vFma ⟨2, 3⟩ .f32 ⟨1, .r, .imm 4⟩ ⟨2, .c, .reg 5 true⟩ ⟨0, .d, .imm 0⟩)
  ∧ decodeWord 0x605C0301C407314E = some (.vRshr f .s36 ⟨3, .r, .imm 7⟩ ⟨1, .r, .imm 7⟩ 12 14 (some 2))
  ∧ decodeWord 0x6A8818000516B403 = some (.vSliceF64 ⟨5, 0⟩ 3 ⟨1, .c, .reg 6 true⟩ 13)
  ∧ decodeWord 0xA0040002C0086080 = some (.wTile f no (.ab ⟨0, false⟩) 22 67 128)
  ∧ decodeWord 0xA010001AA5800000 = some (.wSig f no .set .dev true 10 11)
  ∧ decodeWord 0xC0040000200400A0 = some (.xSend f .mesh (.ab ⟨2, false⟩) 4 20)
  ∧ decodeWord 0xC008000038050000 = some (.xRecv f .mesh (.ab ⟨3, true⟩) 5)
  ∧ decodeWord 0xE20804000C000046 = some (.gStep ⟨1, 0⟩ 4 (.ab ⟨6, false⟩) 70)
  ∧ decodeWord 0xE00C04000E00E048 = some (.gMask f 4 ⟨7, false⟩ 7 72)

/-- Every well-formed word instruction decodes from its own encoding: no bit of an operand is lost. -/
def Obligations.DecodeEncodeRoundTrip : Prop :=
  ∀ (i : Instr) (w : Nat), i.WellFormed → encode i = some w → w < 2 ^ 64 ∧ decodeWord w = some i

/-- The frame of a word at its issue (R35, R42, R341): one that leaves its core running changes no register that results land in, no
MRF slot and no buffer of its core, GM only if it is a word of engine G, no other core (but that `x.align` stops the core whose beat
finds its torus port taken, R291), and no byte of device, host or peer memory; only its landings do. One that is predicated off
leaves only the timetable's books pending and starts nothing (R42); bits 49:46 of
the word name its predicate. One that traps changes no memory and no other core either. -/
def Obligations.FrameAtIssue : Prop :=
  ∀ (i : Instr) (s t : State) (w : Nat), encode i = some w → exec i s = .next t →
    let c := s.slot.core
    s.sameMemory t ∧ t.now = s.now
    ∧ (∀ d : Fin 96, d ≠ c → t.core d = s.core d ∨ ((t.core d).halted = true ∧ ∃ fr path x, i = .xAlign fr path x))
    ∧ (t.live = true → (s.core c).sameData (t.core c) ∧ (fld w 63 61 ≠ 7 → (t.core c).gm = (s.core c).gm))
    ∧ (t.live = true → s.predOff (Fin.ofNat 16 (fld w 49 46)) = true →
      (s.core c).booksOnly (t.core c) ∧ t.agenda = s.agenda ∧ t.outputs = s.outputs ∧ t.mod = s.mod)

/-- What reset leaves, as the specification gives it (R27, R30, R137, R326, R328, R344, R360, R372): registers of a core at the start
of a job, queues disabled, the mode of four partitions, limits and thresholds, no quarter available, start-up due; every memory
is in canonical form. -/
def Obligations.ResetState : Prop :=
  let s := State.reset
  s.memWf = true ∧ s.mod.qpp = 0 ∧ s.mod.stage = 0 ∧ s.mod.pwrLim = 2200 ∧ s.mod.cmin = 0 ∧ s.mod.tsrc = true
  ∧ s.mod.coreThr = 0x506E645F ∧ s.mod.baseThr = 0x50695F55 ∧ s.mod.uvEn = 0 ∧ s.mod.uvLim = 8
  ∧ (∀ q : Fin 4, (s.parts[q]).wdlim = 1000 ∧ (s.parts[q]).pcap = 0x100000 ∧ (s.parts[q]).pten = false ∧ (s.parts[q]).frec = none
    ∧ s.mod.qavail[q] = false ∧ ∀ n : Fin 64, ((s.parts[q]).queues[n]).enable = false ∧ ((s.parts[q]).queues[n]).lsize = 4)
  ∧ (∀ c : Fin 96, (∀ n, (s.cores[c]).regs.getS n = some 0) ∧ (s.cores[c]).regs.getP 0 = ⟨true, false⟩
    ∧ (s.cores[c]).mrf = [] ∧ (∀ a, (s.cores[c]).ab.get true 64 a = none) ∧ (s.cores[c]).regs.bands = 15)
  ∧ (∀ a, s.hbm.get false 64 a = some 0)

/-- Every step keeps every memory in its canonical form: device, host and peer memory, the buffers, MRF and banked contexts of the
cores, and the core kept for a precise trap. -/
def Obligations.MemWfInvariant : Prop :=
  ∀ s t : State, s.memWf = true → step s = .next t → t.memWf = true
end

