-- ==== Sys2Proof/Laws/State.lean ====
section
/-! SUPPORT. One lemma per field of the state, of a core and of its registers for each update of them: what the update
leaves, by computation, so that no proof need open a record update. -/

namespace Sys2Proof.Machine

/-! ### Updates of the state -/

@[simp] theorem State.setCore_parts (s : State) (c : Nat) (v : Core) : (s.setCore c v).parts = s.parts := rfl
@[simp] theorem State.setCore_mod (s : State) (c : Nat) (v : Core) : (s.setCore c v).mod = s.mod := rfl
@[simp] theorem State.setCore_hbm (s : State) (c : Nat) (v : Core) : (s.setCore c v).hbm = s.hbm := rfl
@[simp] theorem State.setCore_host (s : State) (c : Nat) (v : Core) : (s.setCore c v).host = s.host := rfl
@[simp] theorem State.setCore_peer (s : State) (c : Nat) (v : Core) : (s.setCore c v).peer = s.peer := rfl
@[simp] theorem State.setCore_now (s : State) (c : Nat) (v : Core) : (s.setCore c v).now = s.now := rfl
@[simp] theorem State.setCore_pgood (s : State) (c : Nat) (v : Core) : (s.setCore c v).pgood = s.pgood := rfl
@[simp] theorem State.setCore_agenda (s : State) (c : Nat) (v : Core) : (s.setCore c v).agenda = s.agenda := rfl
@[simp] theorem State.setCore_evSeq (s : State) (c : Nat) (v : Core) : (s.setCore c v).evSeq = s.evSeq := rfl
@[simp] theorem State.setCore_outputs (s : State) (c : Nat) (v : Core) : (s.setCore c v).outputs = s.outputs := rfl
@[simp] theorem State.setCore_slot (s : State) (c : Nat) (v : Core) : (s.setCore c v).slot = s.slot := rfl
@[simp] theorem State.setCore_undo (s : State) (c : Nat) (v : Core) : (s.setCore c v).undo = s.undo := rfl
@[simp] theorem State.setCore_fresh (s : State) (c : Nat) (v : Core) : (s.setCore c v).fresh = s.fresh := rfl

@[simp] theorem State.setPart_cores (s : State) (p : Nat) (v : Part) : (s.setPart p v).cores = s.cores := rfl
@[simp] theorem State.setPart_mod (s : State) (p : Nat) (v : Part) : (s.setPart p v).mod = s.mod := rfl
@[simp] theorem State.setPart_hbm (s : State) (p : Nat) (v : Part) : (s.setPart p v).hbm = s.hbm := rfl
@[simp] theorem State.setPart_host (s : State) (p : Nat) (v : Part) : (s.setPart p v).host = s.host := rfl
@[simp] theorem State.setPart_peer (s : State) (p : Nat) (v : Part) : (s.setPart p v).peer = s.peer := rfl
@[simp] theorem State.setPart_now (s : State) (p : Nat) (v : Part) : (s.setPart p v).now = s.now := rfl
@[simp] theorem State.setPart_pgood (s : State) (p : Nat) (v : Part) : (s.setPart p v).pgood = s.pgood := rfl
@[simp] theorem State.setPart_agenda (s : State) (p : Nat) (v : Part) : (s.setPart p v).agenda = s.agenda := rfl
@[simp] theorem State.setPart_evSeq (s : State) (p : Nat) (v : Part) : (s.setPart p v).evSeq = s.evSeq := rfl
@[simp] theorem State.setPart_outputs (s : State) (p : Nat) (v : Part) : (s.setPart p v).outputs = s.outputs := rfl
@[simp] theorem State.setPart_slot (s : State) (p : Nat) (v : Part) : (s.setPart p v).slot = s.slot := rfl
@[simp] theorem State.setPart_undo (s : State) (p : Nat) (v : Part) : (s.setPart p v).undo = s.undo := rfl
@[simp] theorem State.setPart_fresh (s : State) (p : Nat) (v : Part) : (s.setPart p v).fresh = s.fresh := rfl

@[simp] theorem State.schedule_cores (s : State) (n : Nat) (e : Instr) : (s.schedule n e).cores = s.cores := rfl
@[simp] theorem State.schedule_parts (s : State) (n : Nat) (e : Instr) : (s.schedule n e).parts = s.parts := rfl
@[simp] theorem State.schedule_mod (s : State) (n : Nat) (e : Instr) : (s.schedule n e).mod = s.mod := rfl
@[simp] theorem State.schedule_hbm (s : State) (n : Nat) (e : Instr) : (s.schedule n e).hbm = s.hbm := rfl
@[simp] theorem State.schedule_host (s : State) (n : Nat) (e : Instr) : (s.schedule n e).host = s.host := rfl
@[simp] theorem State.schedule_peer (s : State) (n : Nat) (e : Instr) : (s.schedule n e).peer = s.peer := rfl
@[simp] theorem State.schedule_now (s : State) (n : Nat) (e : Instr) : (s.schedule n e).now = s.now := rfl
@[simp] theorem State.schedule_pgood (s : State) (n : Nat) (e : Instr) : (s.schedule n e).pgood = s.pgood := rfl
@[simp] theorem State.schedule_outputs (s : State) (n : Nat) (e : Instr) : (s.schedule n e).outputs = s.outputs := rfl
@[simp] theorem State.schedule_slot (s : State) (n : Nat) (e : Instr) : (s.schedule n e).slot = s.slot := rfl
@[simp] theorem State.schedule_undo (s : State) (n : Nat) (e : Instr) : (s.schedule n e).undo = s.undo := rfl
@[simp] theorem State.schedule_fresh (s : State) (n : Nat) (e : Instr) : (s.schedule n e).fresh = s.fresh := rfl

@[simp] theorem State.cancel_cores (s : State) (f : Instr → Bool) : (s.cancel f).cores = s.cores := rfl
@[simp] theorem State.cancel_parts (s : State) (f : Instr → Bool) : (s.cancel f).parts = s.parts := rfl
@[simp] theorem State.cancel_mod (s : State) (f : Instr → Bool) : (s.cancel f).mod = s.mod := rfl
@[simp] theorem State.cancel_hbm (s : State) (f : Instr → Bool) : (s.cancel f).hbm = s.hbm := rfl
@[simp] theorem State.cancel_host (s : State) (f : Instr → Bool) : (s.cancel f).host = s.host := rfl
@[simp] theorem State.cancel_peer (s : State) (f : Instr → Bool) : (s.cancel f).peer = s.peer := rfl
@[simp] theorem State.cancel_now (s : State) (f : Instr → Bool) : (s.cancel f).now = s.now := rfl
@[simp] theorem State.cancel_pgood (s : State) (f : Instr → Bool) : (s.cancel f).pgood = s.pgood := rfl
@[simp] theorem State.cancel_evSeq (s : State) (f : Instr → Bool) : (s.cancel f).evSeq = s.evSeq := rfl
@[simp] theorem State.cancel_outputs (s : State) (f : Instr → Bool) : (s.cancel f).outputs = s.outputs := rfl
@[simp] theorem State.cancel_slot (s : State) (f : Instr → Bool) : (s.cancel f).slot = s.slot := rfl
@[simp] theorem State.cancel_undo (s : State) (f : Instr → Bool) : (s.cancel f).undo = s.undo := rfl
@[simp] theorem State.cancel_fresh (s : State) (f : Instr → Bool) : (s.cancel f).fresh = s.fresh := rfl

@[simp] theorem State.emit_cores (s : State) (x : Output) : (s.emit x).cores = s.cores := rfl
@[simp] theorem State.emit_parts (s : State) (x : Output) : (s.emit x).parts = s.parts := rfl
@[simp] theorem State.emit_mod (s : State) (x : Output) : (s.emit x).mod = s.mod := rfl
@[simp] theorem State.emit_hbm (s : State) (x : Output) : (s.emit x).hbm = s.hbm := rfl
@[simp] theorem State.emit_host (s : State) (x : Output) : (s.emit x).host = s.host := rfl
@[simp] theorem State.emit_peer (s : State) (x : Output) : (s.emit x).peer = s.peer := rfl
@[simp] theorem State.emit_now (s : State) (x : Output) : (s.emit x).now = s.now := rfl
@[simp] theorem State.emit_pgood (s : State) (x : Output) : (s.emit x).pgood = s.pgood := rfl
@[simp] theorem State.emit_agenda (s : State) (x : Output) : (s.emit x).agenda = s.agenda := rfl
@[simp] theorem State.emit_evSeq (s : State) (x : Output) : (s.emit x).evSeq = s.evSeq := rfl
@[simp] theorem State.emit_slot (s : State) (x : Output) : (s.emit x).slot = s.slot := rfl
@[simp] theorem State.emit_undo (s : State) (x : Output) : (s.emit x).undo = s.undo := rfl
@[simp] theorem State.emit_fresh (s : State) (x : Output) : (s.emit x).fresh = s.fresh := rfl

@[simp] theorem State.tick_cores (s : State)  : (s.tick).cores = s.cores := rfl
@[simp] theorem State.tick_parts (s : State)  : (s.tick).parts = s.parts := rfl
@[simp] theorem State.tick_mod (s : State)  : (s.tick).mod = s.mod := rfl
@[simp] theorem State.tick_hbm (s : State)  : (s.tick).hbm = s.hbm := rfl
@[simp] theorem State.tick_host (s : State)  : (s.tick).host = s.host := rfl
@[simp] theorem State.tick_peer (s : State)  : (s.tick).peer = s.peer := rfl
@[simp] theorem State.tick_now (s : State)  : (s.tick).now = s.now := rfl
@[simp] theorem State.tick_pgood (s : State)  : (s.tick).pgood = s.pgood := rfl
@[simp] theorem State.tick_agenda (s : State)  : (s.tick).agenda = s.agenda := rfl
@[simp] theorem State.tick_evSeq (s : State)  : (s.tick).evSeq = s.evSeq := rfl
@[simp] theorem State.tick_outputs (s : State)  : (s.tick).outputs = s.outputs := rfl
@[simp] theorem State.tick_slot (s : State)  : (s.tick).slot = s.slot := rfl
@[simp] theorem State.tick_undo (s : State)  : (s.tick).undo = s.undo := rfl

@[simp] theorem State.msix_cores (s : State) (f v : Nat) : (s.msix f v).cores = s.cores := by
  unfold State.msix; dsimp only; split <;> rfl
@[simp] theorem State.msix_parts (s : State) (f v : Nat) : (s.msix f v).parts = s.parts := by
  unfold State.msix; dsimp only; split <;> rfl
@[simp] theorem State.msix_hbm (s : State) (f v : Nat) : (s.msix f v).hbm = s.hbm := by
  unfold State.msix; dsimp only; split <;> rfl
@[simp] theorem State.msix_host (s : State) (f v : Nat) : (s.msix f v).host = s.host := by
  unfold State.msix; dsimp only; split <;> rfl
@[simp] theorem State.msix_peer (s : State) (f v : Nat) : (s.msix f v).peer = s.peer := by
  unfold State.msix; dsimp only; split <;> rfl
@[simp] theorem State.msix_now (s : State) (f v : Nat) : (s.msix f v).now = s.now := by
  unfold State.msix; dsimp only; split <;> rfl
@[simp] theorem State.msix_pgood (s : State) (f v : Nat) : (s.msix f v).pgood = s.pgood := by
  unfold State.msix; dsimp only; split <;> rfl
@[simp] theorem State.msix_agenda (s : State) (f v : Nat) : (s.msix f v).agenda = s.agenda := by
  unfold State.msix; dsimp only; split <;> rfl
@[simp] theorem State.msix_evSeq (s : State) (f v : Nat) : (s.msix f v).evSeq = s.evSeq := by
  unfold State.msix; dsimp only; split <;> rfl
@[simp] theorem State.msix_slot (s : State) (f v : Nat) : (s.msix f v).slot = s.slot := by
  unfold State.msix; dsimp only; split <;> rfl
@[simp] theorem State.msix_undo (s : State) (f v : Nat) : (s.msix f v).undo = s.undo := by
  unfold State.msix; dsimp only; split <;> rfl
@[simp] theorem State.msix_fresh (s : State) (f v : Nat) : (s.msix f v).fresh = s.fresh := by
  unfold State.msix; dsimp only; split <;> rfl

@[simp] theorem State.interrupt_cores (s : State) (p v : Nat) : (s.interrupt p v).cores = s.cores := by simp [State.interrupt]
@[simp] theorem State.interrupt_parts (s : State) (p v : Nat) : (s.interrupt p v).parts = s.parts := by simp [State.interrupt]
@[simp] theorem State.interrupt_hbm (s : State) (p v : Nat) : (s.interrupt p v).hbm = s.hbm := by simp [State.interrupt]
@[simp] theorem State.interrupt_host (s : State) (p v : Nat) : (s.interrupt p v).host = s.host := by simp [State.interrupt]
@[simp] theorem State.interrupt_peer (s : State) (p v : Nat) : (s.interrupt p v).peer = s.peer := by simp [State.interrupt]
@[simp] theorem State.interrupt_now (s : State) (p v : Nat) : (s.interrupt p v).now = s.now := by simp [State.interrupt]
@[simp] theorem State.interrupt_pgood (s : State) (p v : Nat) : (s.interrupt p v).pgood = s.pgood := by simp [State.interrupt]
@[simp] theorem State.interrupt_agenda (s : State) (p v : Nat) : (s.interrupt p v).agenda = s.agenda := by simp [State.interrupt]
@[simp] theorem State.interrupt_evSeq (s : State) (p v : Nat) : (s.interrupt p v).evSeq = s.evSeq := by simp [State.interrupt]
@[simp] theorem State.interrupt_slot (s : State) (p v : Nat) : (s.interrupt p v).slot = s.slot := by simp [State.interrupt]
@[simp] theorem State.interrupt_undo (s : State) (p v : Nat) : (s.interrupt p v).undo = s.undo := by simp [State.interrupt]
@[simp] theorem State.interrupt_fresh (s : State) (p v : Nat) : (s.interrupt p v).fresh = s.fresh := by simp [State.interrupt]

@[simp] theorem State.advance_cores (s : State) (n : Nat) : (s.advance n).cores = s.cores := rfl
@[simp] theorem State.advance_parts (s : State) (n : Nat) : (s.advance n).parts = s.parts := rfl
@[simp] theorem State.advance_mod (s : State) (n : Nat) : (s.advance n).mod = s.mod := rfl
@[simp] theorem State.advance_hbm (s : State) (n : Nat) : (s.advance n).hbm = s.hbm := rfl
@[simp] theorem State.advance_host (s : State) (n : Nat) : (s.advance n).host = s.host := rfl
@[simp] theorem State.advance_peer (s : State) (n : Nat) : (s.advance n).peer = s.peer := rfl
@[simp] theorem State.advance_pgood (s : State) (n : Nat) : (s.advance n).pgood = s.pgood := rfl
@[simp] theorem State.advance_agenda (s : State) (n : Nat) : (s.advance n).agenda = s.agenda := rfl
@[simp] theorem State.advance_evSeq (s : State) (n : Nat) : (s.advance n).evSeq = s.evSeq := rfl
@[simp] theorem State.advance_outputs (s : State) (n : Nat) : (s.advance n).outputs = s.outputs := rfl
@[simp] theorem State.advance_slot (s : State) (n : Nat) : (s.advance n).slot = s.slot := rfl
@[simp] theorem State.advance_fresh (s : State) (n : Nat) : (s.advance n).fresh = s.fresh := rfl

@[simp] theorem State.sediment_cores (s : State) (k p c : Nat) (f : Bool) (bs : List Byte) : (s.sediment k p c f bs).cores = s.cores := rfl
@[simp] theorem State.sediment_parts (s : State) (k p c : Nat) (f : Bool) (bs : List Byte) : (s.sediment k p c f bs).parts = s.parts := rfl
@[simp] theorem State.sediment_hbm (s : State) (k p c : Nat) (f : Bool) (bs : List Byte) : (s.sediment k p c f bs).hbm = s.hbm := rfl
@[simp] theorem State.sediment_host (s : State) (k p c : Nat) (f : Bool) (bs : List Byte) : (s.sediment k p c f bs).host = s.host := rfl
@[simp] theorem State.sediment_peer (s : State) (k p c : Nat) (f : Bool) (bs : List Byte) : (s.sediment k p c f bs).peer = s.peer := rfl
@[simp] theorem State.sediment_now (s : State) (k p c : Nat) (f : Bool) (bs : List Byte) : (s.sediment k p c f bs).now = s.now := rfl
@[simp] theorem State.sediment_pgood (s : State) (k p c : Nat) (f : Bool) (bs : List Byte) : (s.sediment k p c f bs).pgood = s.pgood := rfl
@[simp] theorem State.sediment_agenda (s : State) (k p c : Nat) (f : Bool) (bs : List Byte) : (s.sediment k p c f bs).agenda = s.agenda := rfl
@[simp] theorem State.sediment_evSeq (s : State) (k p c : Nat) (f : Bool) (bs : List Byte) : (s.sediment k p c f bs).evSeq = s.evSeq := rfl
@[simp] theorem State.sediment_outputs (s : State) (k p c : Nat) (f : Bool) (bs : List Byte) : (s.sediment k p c f bs).outputs = s.outputs := rfl
@[simp] theorem State.sediment_slot (s : State) (k p c : Nat) (f : Bool) (bs : List Byte) : (s.sediment k p c f bs).slot = s.slot := rfl
@[simp] theorem State.sediment_undo (s : State) (k p c : Nat) (f : Bool) (bs : List Byte) : (s.sediment k p c f bs).undo = s.undo := rfl
@[simp] theorem State.sediment_fresh (s : State) (k p c : Nat) (f : Bool) (bs : List Byte) : (s.sediment k p c f bs).fresh = s.fresh := rfl

/-! ### What another core or partition holds after an update -/

theorem State.core_setCore (s : State) (c d : Nat) (v : Core) :
    (s.setCore c v).core d = if Fin.ofNat 96 c = Fin.ofNat 96 d then v else s.core d := by
  simp only [State.core, State.setCore, Fin.getElem_fin, Vector.getElem_set, Fin.ext_iff]

theorem State.part_setPart (s : State) (p q : Nat) (v : Part) :
    (s.setPart p v).part q = if Fin.ofNat 4 p = Fin.ofNat 4 q then v else s.part q := by
  simp only [State.part, State.setPart, Fin.getElem_fin, Vector.getElem_set, Fin.ext_iff]

@[simp] theorem State.core_setCore_self (s : State) (c : Nat) (v : Core) : (s.setCore c v).core c = v := by
  simp [State.core_setCore]

@[simp] theorem State.part_setPart_self (s : State) (p : Nat) (v : Part) : (s.setPart p v).part p = v := by
  simp [State.part_setPart]

@[simp] theorem State.setPart_core (s : State) (p : Nat) (v : Part) (d : Nat) : (s.setPart p v).core d = s.core d := rfl
@[simp] theorem State.schedule_core (s : State) (n : Nat) (e : Instr) (d : Nat) : (s.schedule n e).core d = s.core d := rfl
@[simp] theorem State.cancel_core (s : State) (f : Instr → Bool) (d : Nat) : (s.cancel f).core d = s.core d := rfl
@[simp] theorem State.emit_core (s : State) (x : Output) (d : Nat) : (s.emit x).core d = s.core d := rfl
@[simp] theorem State.interrupt_core (s : State) (p v : Nat) (d : Nat) : (s.interrupt p v).core d = s.core d := by simp [State.core]
@[simp] theorem State.sediment_core (s : State) (k p c : Nat) (f : Bool) (bs : List Byte) (d : Nat) : (s.sediment k p c f bs).core d = s.core d := rfl
@[simp] theorem State.advance_core (s : State) (n : Nat) (d : Nat) : (s.advance n).core d = s.core d := rfl
@[simp] theorem State.setCore_part (s : State) (c : Nat) (v : Core) (q : Nat) : (s.setCore c v).part q = s.part q := rfl
@[simp] theorem State.schedule_part (s : State) (n : Nat) (e : Instr) (q : Nat) : (s.schedule n e).part q = s.part q := rfl
@[simp] theorem State.cancel_part (s : State) (f : Instr → Bool) (q : Nat) : (s.cancel f).part q = s.part q := rfl
@[simp] theorem State.emit_part (s : State) (x : Output) (q : Nat) : (s.emit x).part q = s.part q := rfl
@[simp] theorem State.interrupt_part (s : State) (p v : Nat) (q : Nat) : (s.interrupt p v).part q = s.part q := by simp [State.part]
@[simp] theorem State.sediment_part (s : State) (k p c : Nat) (f : Bool) (bs : List Byte) (q : Nat) : (s.sediment k p c f bs).part q = s.part q := rfl
@[simp] theorem State.advance_part (s : State) (n : Nat) (q : Nat) : (s.advance n).part q = s.part q := rfl

/-! ### Updates of a core -/

@[simp] theorem Core.due_regs (c : Core) (x : Src) (t r : Nat) (a : Act) : (c.due x t r a).regs = c.regs := rfl
@[simp] theorem Core.due_mrf (c : Core) (x : Src) (t r : Nat) (a : Act) : (c.due x t r a).mrf = c.mrf := rfl
@[simp] theorem Core.due_ab (c : Core) (x : Src) (t r : Nat) (a : Act) : (c.due x t r a).ab = c.ab := rfl
@[simp] theorem Core.due_wb (c : Core) (x : Src) (t r : Nat) (a : Act) : (c.due x t r a).wb = c.wb := rfl
@[simp] theorem Core.due_sdm (c : Core) (x : Src) (t r : Nat) (a : Act) : (c.due x t r a).sdm = c.sdm := rfl
@[simp] theorem Core.due_sdm0 (c : Core) (x : Src) (t r : Nat) (a : Act) : (c.due x t r a).sdm0 = c.sdm0 := rfl
@[simp] theorem Core.due_gm (c : Core) (x : Src) (t r : Nat) (a : Act) : (c.due x t r a).gm = c.gm := rfl
@[simp] theorem Core.due_w0 (c : Core) (x : Src) (t r : Nat) (a : Act) : (c.due x t r a).w0 = c.w0 := rfl
@[simp] theorem Core.due_w1 (c : Core) (x : Src) (t r : Nat) (a : Act) : (c.due x t r a).w1 = c.w1 := rfl
@[simp] theorem Core.due_wact (c : Core) (x : Src) (t r : Nat) (a : Act) : (c.due x t r a).wact = c.wact := rfl
@[simp] theorem Core.due_waking (c : Core) (x : Src) (t r : Nat) (a : Act) : (c.due x t r a).waking = c.waking := rfl
@[simp] theorem Core.due_im0 (c : Core) (x : Src) (t r : Nat) (a : Act) : (c.due x t r a).im0 = c.im0 := rfl
@[simp] theorem Core.due_im1 (c : Core) (x : Src) (t r : Nat) (a : Act) : (c.due x t r a).im1 = c.im1 := rfl
@[simp] theorem Core.due_half (c : Core) (x : Src) (t r : Nat) (a : Act) : (c.due x t r a).half = c.half := rfl
@[simp] theorem Core.due_image0 (c : Core) (x : Src) (t r : Nat) (a : Act) : (c.due x t r a).image0 = c.image0 := rfl
@[simp] theorem Core.due_image1 (c : Core) (x : Src) (t r : Nat) (a : Act) : (c.due x t r a).image1 = c.image1 := rfl
@[simp] theorem Core.due_plan (c : Core) (x : Src) (t r : Nat) (a : Act) : (c.due x t r a).plan = c.plan := rfl
@[simp] theorem Core.due_loops (c : Core) (x : Src) (t r : Nat) (a : Act) : (c.due x t r a).loops = c.loops := rfl
@[simp] theorem Core.due_pos (c : Core) (x : Src) (t r : Nat) (a : Act) : (c.due x t r a).pos = c.pos := rfl
@[simp] theorem Core.due_iters (c : Core) (x : Src) (t r : Nat) (a : Act) : (c.due x t r a).iters = c.iters := rfl
@[simp] theorem Core.due_queues (c : Core) (x : Src) (t r : Nat) (a : Act) : (c.due x t r a).queues = c.queues := rfl
@[simp] theorem Core.due_qmin (c : Core) (x : Src) (t r : Nat) (a : Act) : (c.due x t r a).qmin = c.qmin := rfl
@[simp] theorem Core.due_qcap (c : Core) (x : Src) (t r : Nat) (a : Act) : (c.due x t r a).qcap = c.qcap := rfl
@[simp] theorem Core.due_retired (c : Core) (x : Src) (t r : Nat) (a : Act) : (c.due x t r a).retired = c.retired := rfl
@[simp] theorem Core.due_running (c : Core) (x : Src) (t r : Nat) (a : Act) : (c.due x t r a).running = c.running := rfl
@[simp] theorem Core.due_takes (c : Core) (x : Src) (t r : Nat) (a : Act) : (c.due x t r a).takes = c.takes := rfl
@[simp] theorem Core.due_rdv (c : Core) (x : Src) (t r : Nat) (a : Act) : (c.due x t r a).rdv = c.rdv := rfl
@[simp] theorem Core.due_signed (c : Core) (x : Src) (t r : Nat) (a : Act) : (c.due x t r a).signed = c.signed := rfl
@[simp] theorem Core.due_halted (c : Core) (x : Src) (t r : Nat) (a : Act) : (c.due x t r a).halted = c.halted := rfl
@[simp] theorem Core.due_lag (c : Core) (x : Src) (t r : Nat) (a : Act) : (c.due x t r a).lag = c.lag := rfl
@[simp] theorem Core.due_frozen (c : Core) (x : Src) (t r : Nat) (a : Act) : (c.due x t r a).frozen = c.frozen := rfl
@[simp] theorem Core.due_stalled (c : Core) (x : Src) (t r : Nat) (a : Act) : (c.due x t r a).stalled = c.stalled := rfl
@[simp] theorem Core.due_owed (c : Core) (x : Src) (t r : Nat) (a : Act) : (c.due x t r a).owed = c.owed := rfl
@[simp] theorem Core.due_froze (c : Core) (x : Src) (t r : Nat) (a : Act) : (c.due x t r a).froze = c.froze := rfl
@[simp] theorem Core.due_claims (c : Core) (x : Src) (t r : Nat) (a : Act) : (c.due x t r a).claims = c.claims := rfl
@[simp] theorem Core.due_landed (c : Core) (x : Src) (t r : Nat) (a : Act) : (c.due x t r a).landed = c.landed := rfl
@[simp] theorem Core.due_used (c : Core) (x : Src) (t r : Nat) (a : Act) : (c.due x t r a).used = c.used := rfl
@[simp] theorem Core.due_outb (c : Core) (x : Src) (t r : Nat) (a : Act) : (c.due x t r a).outb = c.outb := rfl
@[simp] theorem Core.due_fences (c : Core) (x : Src) (t r : Nat) (a : Act) : (c.due x t r a).fences = c.fences := rfl
@[simp] theorem Core.due_arrivals (c : Core) (x : Src) (t r : Nat) (a : Act) : (c.due x t r a).arrivals = c.arrivals := rfl
@[simp] theorem Core.due_regions (c : Core) (x : Src) (t r : Nat) (a : Act) : (c.due x t r a).regions = c.regions := rfl
@[simp] theorem Core.due_digest (c : Core) (x : Src) (t r : Nat) (a : Act) : (c.due x t r a).digest = c.digest := rfl
@[simp] theorem Core.due_stalls (c : Core) (x : Src) (t r : Nat) (a : Act) : (c.due x t r a).stalls = c.stalls := rfl
@[simp] theorem Core.due_profile (c : Core) (x : Src) (t r : Nat) (a : Act) : (c.due x t r a).profile = c.profile := rfl
@[simp] theorem Core.due_exits (c : Core) (x : Src) (t r : Nat) (a : Act) : (c.due x t r a).exits = c.exits := rfl
@[simp] theorem Core.due_stamps (c : Core) (x : Src) (t r : Nat) (a : Act) : (c.due x t r a).stamps = c.stamps := rfl
@[simp] theorem Core.due_stampOver (c : Core) (x : Src) (t r : Nat) (a : Act) : (c.due x t r a).stampOver = c.stampOver := rfl
@[simp] theorem Core.due_bank (c : Core) (x : Src) (t r : Nat) (a : Act) : (c.due x t r a).bank = c.bank := rfl
@[simp] theorem Core.due_wbSpill (c : Core) (x : Src) (t r : Nat) (a : Act) : (c.due x t r a).wbSpill = c.wbSpill := rfl
@[simp] theorem Core.due_brk (c : Core) (x : Src) (t r : Nat) (a : Act) : (c.due x t r a).brk = c.brk := rfl
@[simp] theorem Core.due_flying (c : Core) (x : Src) (t r : Nat) (a : Act) : (c.due x t r a).flying = c.flying := rfl
@[simp] theorem Core.due_holds (c : Core) (x : Src) (t r : Nat) (a : Act) : (c.due x t r a).holds = c.holds := rfl

@[simp] theorem Core.digestWord_regs (c : Core) (e : Eng) (w : W64) (t : Nat) : (c.digestWord e w t).regs = c.regs := rfl
@[simp] theorem Core.digestWord_mrf (c : Core) (e : Eng) (w : W64) (t : Nat) : (c.digestWord e w t).mrf = c.mrf := rfl
@[simp] theorem Core.digestWord_ab (c : Core) (e : Eng) (w : W64) (t : Nat) : (c.digestWord e w t).ab = c.ab := rfl
@[simp] theorem Core.digestWord_wb (c : Core) (e : Eng) (w : W64) (t : Nat) : (c.digestWord e w t).wb = c.wb := rfl
@[simp] theorem Core.digestWord_sdm (c : Core) (e : Eng) (w : W64) (t : Nat) : (c.digestWord e w t).sdm = c.sdm := rfl
@[simp] theorem Core.digestWord_sdm0 (c : Core) (e : Eng) (w : W64) (t : Nat) : (c.digestWord e w t).sdm0 = c.sdm0 := rfl
@[simp] theorem Core.digestWord_gm (c : Core) (e : Eng) (w : W64) (t : Nat) : (c.digestWord e w t).gm = c.gm := rfl
@[simp] theorem Core.digestWord_w0 (c : Core) (e : Eng) (w : W64) (t : Nat) : (c.digestWord e w t).w0 = c.w0 := rfl
@[simp] theorem Core.digestWord_w1 (c : Core) (e : Eng) (w : W64) (t : Nat) : (c.digestWord e w t).w1 = c.w1 := rfl
@[simp] theorem Core.digestWord_wact (c : Core) (e : Eng) (w : W64) (t : Nat) : (c.digestWord e w t).wact = c.wact := rfl
@[simp] theorem Core.digestWord_waking (c : Core) (e : Eng) (w : W64) (t : Nat) : (c.digestWord e w t).waking = c.waking := rfl
@[simp] theorem Core.digestWord_im0 (c : Core) (e : Eng) (w : W64) (t : Nat) : (c.digestWord e w t).im0 = c.im0 := rfl
@[simp] theorem Core.digestWord_im1 (c : Core) (e : Eng) (w : W64) (t : Nat) : (c.digestWord e w t).im1 = c.im1 := rfl
@[simp] theorem Core.digestWord_half (c : Core) (e : Eng) (w : W64) (t : Nat) : (c.digestWord e w t).half = c.half := rfl
@[simp] theorem Core.digestWord_image0 (c : Core) (e : Eng) (w : W64) (t : Nat) : (c.digestWord e w t).image0 = c.image0 := rfl
@[simp] theorem Core.digestWord_image1 (c : Core) (e : Eng) (w : W64) (t : Nat) : (c.digestWord e w t).image1 = c.image1 := rfl
@[simp] theorem Core.digestWord_plan (c : Core) (e : Eng) (w : W64) (t : Nat) : (c.digestWord e w t).plan = c.plan := rfl
@[simp] theorem Core.digestWord_loops (c : Core) (e : Eng) (w : W64) (t : Nat) : (c.digestWord e w t).loops = c.loops := rfl
@[simp] theorem Core.digestWord_pos (c : Core) (e : Eng) (w : W64) (t : Nat) : (c.digestWord e w t).pos = c.pos := rfl
@[simp] theorem Core.digestWord_iters (c : Core) (e : Eng) (w : W64) (t : Nat) : (c.digestWord e w t).iters = c.iters := rfl
@[simp] theorem Core.digestWord_queues (c : Core) (e : Eng) (w : W64) (t : Nat) : (c.digestWord e w t).queues = c.queues := rfl
@[simp] theorem Core.digestWord_qmin (c : Core) (e : Eng) (w : W64) (t : Nat) : (c.digestWord e w t).qmin = c.qmin := rfl
@[simp] theorem Core.digestWord_qcap (c : Core) (e : Eng) (w : W64) (t : Nat) : (c.digestWord e w t).qcap = c.qcap := rfl
@[simp] theorem Core.digestWord_retired (c : Core) (e : Eng) (w : W64) (t : Nat) : (c.digestWord e w t).retired = c.retired := rfl
@[simp] theorem Core.digestWord_running (c : Core) (e : Eng) (w : W64) (t : Nat) : (c.digestWord e w t).running = c.running := rfl
@[simp] theorem Core.digestWord_takes (c : Core) (e : Eng) (w : W64) (t : Nat) : (c.digestWord e w t).takes = c.takes := rfl
@[simp] theorem Core.digestWord_rdv (c : Core) (e : Eng) (w : W64) (t : Nat) : (c.digestWord e w t).rdv = c.rdv := rfl
@[simp] theorem Core.digestWord_signed (c : Core) (e : Eng) (w : W64) (t : Nat) : (c.digestWord e w t).signed = c.signed := rfl
@[simp] theorem Core.digestWord_halted (c : Core) (e : Eng) (w : W64) (t : Nat) : (c.digestWord e w t).halted = c.halted := rfl
@[simp] theorem Core.digestWord_lag (c : Core) (e : Eng) (w : W64) (t : Nat) : (c.digestWord e w t).lag = c.lag := rfl
@[simp] theorem Core.digestWord_frozen (c : Core) (e : Eng) (w : W64) (t : Nat) : (c.digestWord e w t).frozen = c.frozen := rfl
@[simp] theorem Core.digestWord_stalled (c : Core) (e : Eng) (w : W64) (t : Nat) : (c.digestWord e w t).stalled = c.stalled := rfl
@[simp] theorem Core.digestWord_owed (c : Core) (e : Eng) (w : W64) (t : Nat) : (c.digestWord e w t).owed = c.owed := rfl
@[simp] theorem Core.digestWord_froze (c : Core) (e : Eng) (w : W64) (t : Nat) : (c.digestWord e w t).froze = c.froze := rfl
@[simp] theorem Core.digestWord_pend (c : Core) (e : Eng) (w : W64) (t : Nat) : (c.digestWord e w t).pend = c.pend := rfl
@[simp] theorem Core.digestWord_seq (c : Core) (e : Eng) (w : W64) (t : Nat) : (c.digestWord e w t).seq = c.seq := rfl
@[simp] theorem Core.digestWord_claims (c : Core) (e : Eng) (w : W64) (t : Nat) : (c.digestWord e w t).claims = c.claims := rfl
@[simp] theorem Core.digestWord_landed (c : Core) (e : Eng) (w : W64) (t : Nat) : (c.digestWord e w t).landed = c.landed := rfl
@[simp] theorem Core.digestWord_used (c : Core) (e : Eng) (w : W64) (t : Nat) : (c.digestWord e w t).used = c.used := rfl
@[simp] theorem Core.digestWord_outb (c : Core) (e : Eng) (w : W64) (t : Nat) : (c.digestWord e w t).outb = c.outb := rfl
@[simp] theorem Core.digestWord_fences (c : Core) (e : Eng) (w : W64) (t : Nat) : (c.digestWord e w t).fences = c.fences := rfl
@[simp] theorem Core.digestWord_arrivals (c : Core) (e : Eng) (w : W64) (t : Nat) : (c.digestWord e w t).arrivals = c.arrivals := rfl
@[simp] theorem Core.digestWord_regions (c : Core) (e : Eng) (w : W64) (t : Nat) : (c.digestWord e w t).regions = c.regions := rfl
@[simp] theorem Core.digestWord_stalls (c : Core) (e : Eng) (w : W64) (t : Nat) : (c.digestWord e w t).stalls = c.stalls := rfl
@[simp] theorem Core.digestWord_profile (c : Core) (e : Eng) (w : W64) (t : Nat) : (c.digestWord e w t).profile = c.profile := rfl
@[simp] theorem Core.digestWord_exits (c : Core) (e : Eng) (w : W64) (t : Nat) : (c.digestWord e w t).exits = c.exits := rfl
@[simp] theorem Core.digestWord_stamps (c : Core) (e : Eng) (w : W64) (t : Nat) : (c.digestWord e w t).stamps = c.stamps := rfl
@[simp] theorem Core.digestWord_stampOver (c : Core) (e : Eng) (w : W64) (t : Nat) : (c.digestWord e w t).stampOver = c.stampOver := rfl
@[simp] theorem Core.digestWord_bank (c : Core) (e : Eng) (w : W64) (t : Nat) : (c.digestWord e w t).bank = c.bank := rfl
@[simp] theorem Core.digestWord_wbSpill (c : Core) (e : Eng) (w : W64) (t : Nat) : (c.digestWord e w t).wbSpill = c.wbSpill := rfl
@[simp] theorem Core.digestWord_brk (c : Core) (e : Eng) (w : W64) (t : Nat) : (c.digestWord e w t).brk = c.brk := rfl
@[simp] theorem Core.digestWord_flying (c : Core) (e : Eng) (w : W64) (t : Nat) : (c.digestWord e w t).flying = c.flying := rfl
@[simp] theorem Core.digestWord_holds (c : Core) (e : Eng) (w : W64) (t : Nat) : (c.digestWord e w t).holds = c.holds := rfl

@[simp] theorem Core.digestChunks_regs (c : Core) (e : Eng) (vs : List W64) : (c.digestChunks e vs).regs = c.regs := rfl
@[simp] theorem Core.digestChunks_mrf (c : Core) (e : Eng) (vs : List W64) : (c.digestChunks e vs).mrf = c.mrf := rfl
@[simp] theorem Core.digestChunks_ab (c : Core) (e : Eng) (vs : List W64) : (c.digestChunks e vs).ab = c.ab := rfl
@[simp] theorem Core.digestChunks_wb (c : Core) (e : Eng) (vs : List W64) : (c.digestChunks e vs).wb = c.wb := rfl
@[simp] theorem Core.digestChunks_sdm (c : Core) (e : Eng) (vs : List W64) : (c.digestChunks e vs).sdm = c.sdm := rfl
@[simp] theorem Core.digestChunks_sdm0 (c : Core) (e : Eng) (vs : List W64) : (c.digestChunks e vs).sdm0 = c.sdm0 := rfl
@[simp] theorem Core.digestChunks_gm (c : Core) (e : Eng) (vs : List W64) : (c.digestChunks e vs).gm = c.gm := rfl
@[simp] theorem Core.digestChunks_w0 (c : Core) (e : Eng) (vs : List W64) : (c.digestChunks e vs).w0 = c.w0 := rfl
@[simp] theorem Core.digestChunks_w1 (c : Core) (e : Eng) (vs : List W64) : (c.digestChunks e vs).w1 = c.w1 := rfl
@[simp] theorem Core.digestChunks_wact (c : Core) (e : Eng) (vs : List W64) : (c.digestChunks e vs).wact = c.wact := rfl
@[simp] theorem Core.digestChunks_waking (c : Core) (e : Eng) (vs : List W64) : (c.digestChunks e vs).waking = c.waking := rfl
@[simp] theorem Core.digestChunks_im0 (c : Core) (e : Eng) (vs : List W64) : (c.digestChunks e vs).im0 = c.im0 := rfl
@[simp] theorem Core.digestChunks_im1 (c : Core) (e : Eng) (vs : List W64) : (c.digestChunks e vs).im1 = c.im1 := rfl
@[simp] theorem Core.digestChunks_half (c : Core) (e : Eng) (vs : List W64) : (c.digestChunks e vs).half = c.half := rfl
@[simp] theorem Core.digestChunks_image0 (c : Core) (e : Eng) (vs : List W64) : (c.digestChunks e vs).image0 = c.image0 := rfl
@[simp] theorem Core.digestChunks_image1 (c : Core) (e : Eng) (vs : List W64) : (c.digestChunks e vs).image1 = c.image1 := rfl
@[simp] theorem Core.digestChunks_plan (c : Core) (e : Eng) (vs : List W64) : (c.digestChunks e vs).plan = c.plan := rfl
@[simp] theorem Core.digestChunks_loops (c : Core) (e : Eng) (vs : List W64) : (c.digestChunks e vs).loops = c.loops := rfl
@[simp] theorem Core.digestChunks_pos (c : Core) (e : Eng) (vs : List W64) : (c.digestChunks e vs).pos = c.pos := rfl
@[simp] theorem Core.digestChunks_iters (c : Core) (e : Eng) (vs : List W64) : (c.digestChunks e vs).iters = c.iters := rfl
@[simp] theorem Core.digestChunks_queues (c : Core) (e : Eng) (vs : List W64) : (c.digestChunks e vs).queues = c.queues := rfl
@[simp] theorem Core.digestChunks_qmin (c : Core) (e : Eng) (vs : List W64) : (c.digestChunks e vs).qmin = c.qmin := rfl
@[simp] theorem Core.digestChunks_qcap (c : Core) (e : Eng) (vs : List W64) : (c.digestChunks e vs).qcap = c.qcap := rfl
@[simp] theorem Core.digestChunks_retired (c : Core) (e : Eng) (vs : List W64) : (c.digestChunks e vs).retired = c.retired := rfl
@[simp] theorem Core.digestChunks_running (c : Core) (e : Eng) (vs : List W64) : (c.digestChunks e vs).running = c.running := rfl
@[simp] theorem Core.digestChunks_takes (c : Core) (e : Eng) (vs : List W64) : (c.digestChunks e vs).takes = c.takes := rfl
@[simp] theorem Core.digestChunks_rdv (c : Core) (e : Eng) (vs : List W64) : (c.digestChunks e vs).rdv = c.rdv := rfl
@[simp] theorem Core.digestChunks_signed (c : Core) (e : Eng) (vs : List W64) : (c.digestChunks e vs).signed = c.signed := rfl
@[simp] theorem Core.digestChunks_halted (c : Core) (e : Eng) (vs : List W64) : (c.digestChunks e vs).halted = c.halted := rfl
@[simp] theorem Core.digestChunks_lag (c : Core) (e : Eng) (vs : List W64) : (c.digestChunks e vs).lag = c.lag := rfl
@[simp] theorem Core.digestChunks_frozen (c : Core) (e : Eng) (vs : List W64) : (c.digestChunks e vs).frozen = c.frozen := rfl
@[simp] theorem Core.digestChunks_stalled (c : Core) (e : Eng) (vs : List W64) : (c.digestChunks e vs).stalled = c.stalled := rfl
@[simp] theorem Core.digestChunks_owed (c : Core) (e : Eng) (vs : List W64) : (c.digestChunks e vs).owed = c.owed := rfl
@[simp] theorem Core.digestChunks_froze (c : Core) (e : Eng) (vs : List W64) : (c.digestChunks e vs).froze = c.froze := rfl
@[simp] theorem Core.digestChunks_pend (c : Core) (e : Eng) (vs : List W64) : (c.digestChunks e vs).pend = c.pend := rfl
@[simp] theorem Core.digestChunks_seq (c : Core) (e : Eng) (vs : List W64) : (c.digestChunks e vs).seq = c.seq := rfl
@[simp] theorem Core.digestChunks_claims (c : Core) (e : Eng) (vs : List W64) : (c.digestChunks e vs).claims = c.claims := rfl
@[simp] theorem Core.digestChunks_landed (c : Core) (e : Eng) (vs : List W64) : (c.digestChunks e vs).landed = c.landed := rfl
@[simp] theorem Core.digestChunks_used (c : Core) (e : Eng) (vs : List W64) : (c.digestChunks e vs).used = c.used := rfl
@[simp] theorem Core.digestChunks_outb (c : Core) (e : Eng) (vs : List W64) : (c.digestChunks e vs).outb = c.outb := rfl
@[simp] theorem Core.digestChunks_fences (c : Core) (e : Eng) (vs : List W64) : (c.digestChunks e vs).fences = c.fences := rfl
@[simp] theorem Core.digestChunks_arrivals (c : Core) (e : Eng) (vs : List W64) : (c.digestChunks e vs).arrivals = c.arrivals := rfl
@[simp] theorem Core.digestChunks_regions (c : Core) (e : Eng) (vs : List W64) : (c.digestChunks e vs).regions = c.regions := rfl
@[simp] theorem Core.digestChunks_stalls (c : Core) (e : Eng) (vs : List W64) : (c.digestChunks e vs).stalls = c.stalls := rfl
@[simp] theorem Core.digestChunks_profile (c : Core) (e : Eng) (vs : List W64) : (c.digestChunks e vs).profile = c.profile := rfl
@[simp] theorem Core.digestChunks_exits (c : Core) (e : Eng) (vs : List W64) : (c.digestChunks e vs).exits = c.exits := rfl
@[simp] theorem Core.digestChunks_stamps (c : Core) (e : Eng) (vs : List W64) : (c.digestChunks e vs).stamps = c.stamps := rfl
@[simp] theorem Core.digestChunks_stampOver (c : Core) (e : Eng) (vs : List W64) : (c.digestChunks e vs).stampOver = c.stampOver := rfl
@[simp] theorem Core.digestChunks_bank (c : Core) (e : Eng) (vs : List W64) : (c.digestChunks e vs).bank = c.bank := rfl
@[simp] theorem Core.digestChunks_wbSpill (c : Core) (e : Eng) (vs : List W64) : (c.digestChunks e vs).wbSpill = c.wbSpill := rfl
@[simp] theorem Core.digestChunks_brk (c : Core) (e : Eng) (vs : List W64) : (c.digestChunks e vs).brk = c.brk := rfl
@[simp] theorem Core.digestChunks_flying (c : Core) (e : Eng) (vs : List W64) : (c.digestChunks e vs).flying = c.flying := rfl
@[simp] theorem Core.digestChunks_holds (c : Core) (e : Eng) (vs : List W64) : (c.digestChunks e vs).holds = c.holds := rfl

@[simp] theorem Core.dropWord_regs (c : Core) (x : Src) : (c.dropWord x).regs = c.regs := rfl
@[simp] theorem Core.dropWord_mrf (c : Core) (x : Src) : (c.dropWord x).mrf = c.mrf := rfl
@[simp] theorem Core.dropWord_ab (c : Core) (x : Src) : (c.dropWord x).ab = c.ab := rfl
@[simp] theorem Core.dropWord_wb (c : Core) (x : Src) : (c.dropWord x).wb = c.wb := rfl
@[simp] theorem Core.dropWord_sdm (c : Core) (x : Src) : (c.dropWord x).sdm = c.sdm := rfl
@[simp] theorem Core.dropWord_sdm0 (c : Core) (x : Src) : (c.dropWord x).sdm0 = c.sdm0 := rfl
@[simp] theorem Core.dropWord_gm (c : Core) (x : Src) : (c.dropWord x).gm = c.gm := rfl
@[simp] theorem Core.dropWord_w0 (c : Core) (x : Src) : (c.dropWord x).w0 = c.w0 := rfl
@[simp] theorem Core.dropWord_w1 (c : Core) (x : Src) : (c.dropWord x).w1 = c.w1 := rfl
@[simp] theorem Core.dropWord_wact (c : Core) (x : Src) : (c.dropWord x).wact = c.wact := rfl
@[simp] theorem Core.dropWord_waking (c : Core) (x : Src) : (c.dropWord x).waking = c.waking := rfl
@[simp] theorem Core.dropWord_im0 (c : Core) (x : Src) : (c.dropWord x).im0 = c.im0 := rfl
@[simp] theorem Core.dropWord_im1 (c : Core) (x : Src) : (c.dropWord x).im1 = c.im1 := rfl
@[simp] theorem Core.dropWord_half (c : Core) (x : Src) : (c.dropWord x).half = c.half := rfl
@[simp] theorem Core.dropWord_image0 (c : Core) (x : Src) : (c.dropWord x).image0 = c.image0 := rfl
@[simp] theorem Core.dropWord_image1 (c : Core) (x : Src) : (c.dropWord x).image1 = c.image1 := rfl
@[simp] theorem Core.dropWord_plan (c : Core) (x : Src) : (c.dropWord x).plan = c.plan := rfl
@[simp] theorem Core.dropWord_loops (c : Core) (x : Src) : (c.dropWord x).loops = c.loops := rfl
@[simp] theorem Core.dropWord_pos (c : Core) (x : Src) : (c.dropWord x).pos = c.pos := rfl
@[simp] theorem Core.dropWord_iters (c : Core) (x : Src) : (c.dropWord x).iters = c.iters := rfl
@[simp] theorem Core.dropWord_queues (c : Core) (x : Src) : (c.dropWord x).queues = c.queues := rfl
@[simp] theorem Core.dropWord_qmin (c : Core) (x : Src) : (c.dropWord x).qmin = c.qmin := rfl
@[simp] theorem Core.dropWord_qcap (c : Core) (x : Src) : (c.dropWord x).qcap = c.qcap := rfl
@[simp] theorem Core.dropWord_retired (c : Core) (x : Src) : (c.dropWord x).retired = c.retired := rfl
@[simp] theorem Core.dropWord_running (c : Core) (x : Src) : (c.dropWord x).running = c.running := rfl
@[simp] theorem Core.dropWord_takes (c : Core) (x : Src) : (c.dropWord x).takes = c.takes := rfl
@[simp] theorem Core.dropWord_rdv (c : Core) (x : Src) : (c.dropWord x).rdv = c.rdv := rfl
@[simp] theorem Core.dropWord_signed (c : Core) (x : Src) : (c.dropWord x).signed = c.signed := rfl
@[simp] theorem Core.dropWord_halted (c : Core) (x : Src) : (c.dropWord x).halted = c.halted := rfl
@[simp] theorem Core.dropWord_lag (c : Core) (x : Src) : (c.dropWord x).lag = c.lag := rfl
@[simp] theorem Core.dropWord_frozen (c : Core) (x : Src) : (c.dropWord x).frozen = c.frozen := rfl
@[simp] theorem Core.dropWord_stalled (c : Core) (x : Src) : (c.dropWord x).stalled = c.stalled := rfl
@[simp] theorem Core.dropWord_owed (c : Core) (x : Src) : (c.dropWord x).owed = c.owed := rfl
@[simp] theorem Core.dropWord_froze (c : Core) (x : Src) : (c.dropWord x).froze = c.froze := rfl
@[simp] theorem Core.dropWord_seq (c : Core) (x : Src) : (c.dropWord x).seq = c.seq := rfl
@[simp] theorem Core.dropWord_claims (c : Core) (x : Src) : (c.dropWord x).claims = c.claims := rfl
@[simp] theorem Core.dropWord_landed (c : Core) (x : Src) : (c.dropWord x).landed = c.landed := rfl
@[simp] theorem Core.dropWord_used (c : Core) (x : Src) : (c.dropWord x).used = c.used := rfl
@[simp] theorem Core.dropWord_outb (c : Core) (x : Src) : (c.dropWord x).outb = c.outb := rfl
@[simp] theorem Core.dropWord_fences (c : Core) (x : Src) : (c.dropWord x).fences = c.fences := rfl
@[simp] theorem Core.dropWord_arrivals (c : Core) (x : Src) : (c.dropWord x).arrivals = c.arrivals := rfl
@[simp] theorem Core.dropWord_regions (c : Core) (x : Src) : (c.dropWord x).regions = c.regions := rfl
@[simp] theorem Core.dropWord_digest (c : Core) (x : Src) : (c.dropWord x).digest = c.digest := rfl
@[simp] theorem Core.dropWord_stalls (c : Core) (x : Src) : (c.dropWord x).stalls = c.stalls := rfl
@[simp] theorem Core.dropWord_profile (c : Core) (x : Src) : (c.dropWord x).profile = c.profile := rfl
@[simp] theorem Core.dropWord_exits (c : Core) (x : Src) : (c.dropWord x).exits = c.exits := rfl
@[simp] theorem Core.dropWord_stamps (c : Core) (x : Src) : (c.dropWord x).stamps = c.stamps := rfl
@[simp] theorem Core.dropWord_stampOver (c : Core) (x : Src) : (c.dropWord x).stampOver = c.stampOver := rfl
@[simp] theorem Core.dropWord_bank (c : Core) (x : Src) : (c.dropWord x).bank = c.bank := rfl
@[simp] theorem Core.dropWord_wbSpill (c : Core) (x : Src) : (c.dropWord x).wbSpill = c.wbSpill := rfl
@[simp] theorem Core.dropWord_brk (c : Core) (x : Src) : (c.dropWord x).brk = c.brk := rfl
@[simp] theorem Core.dropWord_holds (c : Core) (x : Src) : (c.dropWord x).holds = c.holds := rfl

@[simp] theorem Core.putOp_regs (c : Core) (x : OutOp) : (c.putOp x).regs = c.regs := rfl
@[simp] theorem Core.putOp_mrf (c : Core) (x : OutOp) : (c.putOp x).mrf = c.mrf := rfl
@[simp] theorem Core.putOp_ab (c : Core) (x : OutOp) : (c.putOp x).ab = c.ab := rfl
@[simp] theorem Core.putOp_wb (c : Core) (x : OutOp) : (c.putOp x).wb = c.wb := rfl
@[simp] theorem Core.putOp_sdm (c : Core) (x : OutOp) : (c.putOp x).sdm = c.sdm := rfl
@[simp] theorem Core.putOp_sdm0 (c : Core) (x : OutOp) : (c.putOp x).sdm0 = c.sdm0 := rfl
@[simp] theorem Core.putOp_gm (c : Core) (x : OutOp) : (c.putOp x).gm = c.gm := rfl
@[simp] theorem Core.putOp_w0 (c : Core) (x : OutOp) : (c.putOp x).w0 = c.w0 := rfl
@[simp] theorem Core.putOp_w1 (c : Core) (x : OutOp) : (c.putOp x).w1 = c.w1 := rfl
@[simp] theorem Core.putOp_wact (c : Core) (x : OutOp) : (c.putOp x).wact = c.wact := rfl
@[simp] theorem Core.putOp_waking (c : Core) (x : OutOp) : (c.putOp x).waking = c.waking := rfl
@[simp] theorem Core.putOp_im0 (c : Core) (x : OutOp) : (c.putOp x).im0 = c.im0 := rfl
@[simp] theorem Core.putOp_im1 (c : Core) (x : OutOp) : (c.putOp x).im1 = c.im1 := rfl
@[simp] theorem Core.putOp_half (c : Core) (x : OutOp) : (c.putOp x).half = c.half := rfl
@[simp] theorem Core.putOp_image0 (c : Core) (x : OutOp) : (c.putOp x).image0 = c.image0 := rfl
@[simp] theorem Core.putOp_image1 (c : Core) (x : OutOp) : (c.putOp x).image1 = c.image1 := rfl
@[simp] theorem Core.putOp_plan (c : Core) (x : OutOp) : (c.putOp x).plan = c.plan := rfl
@[simp] theorem Core.putOp_loops (c : Core) (x : OutOp) : (c.putOp x).loops = c.loops := rfl
@[simp] theorem Core.putOp_pos (c : Core) (x : OutOp) : (c.putOp x).pos = c.pos := rfl
@[simp] theorem Core.putOp_iters (c : Core) (x : OutOp) : (c.putOp x).iters = c.iters := rfl
@[simp] theorem Core.putOp_queues (c : Core) (x : OutOp) : (c.putOp x).queues = c.queues := rfl
@[simp] theorem Core.putOp_qmin (c : Core) (x : OutOp) : (c.putOp x).qmin = c.qmin := rfl
@[simp] theorem Core.putOp_qcap (c : Core) (x : OutOp) : (c.putOp x).qcap = c.qcap := rfl
@[simp] theorem Core.putOp_retired (c : Core) (x : OutOp) : (c.putOp x).retired = c.retired := rfl
@[simp] theorem Core.putOp_running (c : Core) (x : OutOp) : (c.putOp x).running = c.running := rfl
@[simp] theorem Core.putOp_takes (c : Core) (x : OutOp) : (c.putOp x).takes = c.takes := rfl
@[simp] theorem Core.putOp_rdv (c : Core) (x : OutOp) : (c.putOp x).rdv = c.rdv := rfl
@[simp] theorem Core.putOp_signed (c : Core) (x : OutOp) : (c.putOp x).signed = c.signed := rfl
@[simp] theorem Core.putOp_halted (c : Core) (x : OutOp) : (c.putOp x).halted = c.halted := rfl
@[simp] theorem Core.putOp_lag (c : Core) (x : OutOp) : (c.putOp x).lag = c.lag := rfl
@[simp] theorem Core.putOp_frozen (c : Core) (x : OutOp) : (c.putOp x).frozen = c.frozen := rfl
@[simp] theorem Core.putOp_stalled (c : Core) (x : OutOp) : (c.putOp x).stalled = c.stalled := rfl
@[simp] theorem Core.putOp_owed (c : Core) (x : OutOp) : (c.putOp x).owed = c.owed := rfl
@[simp] theorem Core.putOp_froze (c : Core) (x : OutOp) : (c.putOp x).froze = c.froze := rfl
@[simp] theorem Core.putOp_pend (c : Core) (x : OutOp) : (c.putOp x).pend = c.pend := rfl
@[simp] theorem Core.putOp_seq (c : Core) (x : OutOp) : (c.putOp x).seq = c.seq := rfl
@[simp] theorem Core.putOp_claims (c : Core) (x : OutOp) : (c.putOp x).claims = c.claims := rfl
@[simp] theorem Core.putOp_landed (c : Core) (x : OutOp) : (c.putOp x).landed = c.landed := rfl
@[simp] theorem Core.putOp_used (c : Core) (x : OutOp) : (c.putOp x).used = c.used := rfl
@[simp] theorem Core.putOp_fences (c : Core) (x : OutOp) : (c.putOp x).fences = c.fences := rfl
@[simp] theorem Core.putOp_arrivals (c : Core) (x : OutOp) : (c.putOp x).arrivals = c.arrivals := rfl
@[simp] theorem Core.putOp_regions (c : Core) (x : OutOp) : (c.putOp x).regions = c.regions := rfl
@[simp] theorem Core.putOp_digest (c : Core) (x : OutOp) : (c.putOp x).digest = c.digest := rfl
@[simp] theorem Core.putOp_stalls (c : Core) (x : OutOp) : (c.putOp x).stalls = c.stalls := rfl
@[simp] theorem Core.putOp_profile (c : Core) (x : OutOp) : (c.putOp x).profile = c.profile := rfl
@[simp] theorem Core.putOp_exits (c : Core) (x : OutOp) : (c.putOp x).exits = c.exits := rfl
@[simp] theorem Core.putOp_stamps (c : Core) (x : OutOp) : (c.putOp x).stamps = c.stamps := rfl
@[simp] theorem Core.putOp_stampOver (c : Core) (x : OutOp) : (c.putOp x).stampOver = c.stampOver := rfl
@[simp] theorem Core.putOp_bank (c : Core) (x : OutOp) : (c.putOp x).bank = c.bank := rfl
@[simp] theorem Core.putOp_wbSpill (c : Core) (x : OutOp) : (c.putOp x).wbSpill = c.wbSpill := rfl
@[simp] theorem Core.putOp_brk (c : Core) (x : OutOp) : (c.putOp x).brk = c.brk := rfl
@[simp] theorem Core.putOp_flying (c : Core) (x : OutOp) : (c.putOp x).flying = c.flying := rfl
@[simp] theorem Core.putOp_holds (c : Core) (x : OutOp) : (c.putOp x).holds = c.holds := rfl

@[simp] theorem Core.dropOp_regs (c : Core) (n : Nat) : (c.dropOp n).regs = c.regs := rfl
@[simp] theorem Core.dropOp_mrf (c : Core) (n : Nat) : (c.dropOp n).mrf = c.mrf := rfl
@[simp] theorem Core.dropOp_ab (c : Core) (n : Nat) : (c.dropOp n).ab = c.ab := rfl
@[simp] theorem Core.dropOp_wb (c : Core) (n : Nat) : (c.dropOp n).wb = c.wb := rfl
@[simp] theorem Core.dropOp_sdm (c : Core) (n : Nat) : (c.dropOp n).sdm = c.sdm := rfl
@[simp] theorem Core.dropOp_sdm0 (c : Core) (n : Nat) : (c.dropOp n).sdm0 = c.sdm0 := rfl
@[simp] theorem Core.dropOp_gm (c : Core) (n : Nat) : (c.dropOp n).gm = c.gm := rfl
@[simp] theorem Core.dropOp_w0 (c : Core) (n : Nat) : (c.dropOp n).w0 = c.w0 := rfl
@[simp] theorem Core.dropOp_w1 (c : Core) (n : Nat) : (c.dropOp n).w1 = c.w1 := rfl
@[simp] theorem Core.dropOp_wact (c : Core) (n : Nat) : (c.dropOp n).wact = c.wact := rfl
@[simp] theorem Core.dropOp_waking (c : Core) (n : Nat) : (c.dropOp n).waking = c.waking := rfl
@[simp] theorem Core.dropOp_im0 (c : Core) (n : Nat) : (c.dropOp n).im0 = c.im0 := rfl
@[simp] theorem Core.dropOp_im1 (c : Core) (n : Nat) : (c.dropOp n).im1 = c.im1 := rfl
@[simp] theorem Core.dropOp_half (c : Core) (n : Nat) : (c.dropOp n).half = c.half := rfl
@[simp] theorem Core.dropOp_image0 (c : Core) (n : Nat) : (c.dropOp n).image0 = c.image0 := rfl
@[simp] theorem Core.dropOp_image1 (c : Core) (n : Nat) : (c.dropOp n).image1 = c.image1 := rfl
@[simp] theorem Core.dropOp_plan (c : Core) (n : Nat) : (c.dropOp n).plan = c.plan := rfl
@[simp] theorem Core.dropOp_loops (c : Core) (n : Nat) : (c.dropOp n).loops = c.loops := rfl
@[simp] theorem Core.dropOp_pos (c : Core) (n : Nat) : (c.dropOp n).pos = c.pos := rfl
@[simp] theorem Core.dropOp_iters (c : Core) (n : Nat) : (c.dropOp n).iters = c.iters := rfl
@[simp] theorem Core.dropOp_queues (c : Core) (n : Nat) : (c.dropOp n).queues = c.queues := rfl
@[simp] theorem Core.dropOp_qmin (c : Core) (n : Nat) : (c.dropOp n).qmin = c.qmin := rfl
@[simp] theorem Core.dropOp_qcap (c : Core) (n : Nat) : (c.dropOp n).qcap = c.qcap := rfl
@[simp] theorem Core.dropOp_retired (c : Core) (n : Nat) : (c.dropOp n).retired = c.retired := rfl
@[simp] theorem Core.dropOp_running (c : Core) (n : Nat) : (c.dropOp n).running = c.running := rfl
@[simp] theorem Core.dropOp_takes (c : Core) (n : Nat) : (c.dropOp n).takes = c.takes := rfl
@[simp] theorem Core.dropOp_rdv (c : Core) (n : Nat) : (c.dropOp n).rdv = c.rdv := rfl
@[simp] theorem Core.dropOp_signed (c : Core) (n : Nat) : (c.dropOp n).signed = c.signed := rfl
@[simp] theorem Core.dropOp_halted (c : Core) (n : Nat) : (c.dropOp n).halted = c.halted := rfl
@[simp] theorem Core.dropOp_lag (c : Core) (n : Nat) : (c.dropOp n).lag = c.lag := rfl
@[simp] theorem Core.dropOp_frozen (c : Core) (n : Nat) : (c.dropOp n).frozen = c.frozen := rfl
@[simp] theorem Core.dropOp_stalled (c : Core) (n : Nat) : (c.dropOp n).stalled = c.stalled := rfl
@[simp] theorem Core.dropOp_owed (c : Core) (n : Nat) : (c.dropOp n).owed = c.owed := rfl
@[simp] theorem Core.dropOp_froze (c : Core) (n : Nat) : (c.dropOp n).froze = c.froze := rfl
@[simp] theorem Core.dropOp_pend (c : Core) (n : Nat) : (c.dropOp n).pend = c.pend := rfl
@[simp] theorem Core.dropOp_seq (c : Core) (n : Nat) : (c.dropOp n).seq = c.seq := rfl
@[simp] theorem Core.dropOp_claims (c : Core) (n : Nat) : (c.dropOp n).claims = c.claims := rfl
@[simp] theorem Core.dropOp_landed (c : Core) (n : Nat) : (c.dropOp n).landed = c.landed := rfl
@[simp] theorem Core.dropOp_used (c : Core) (n : Nat) : (c.dropOp n).used = c.used := rfl
@[simp] theorem Core.dropOp_arrivals (c : Core) (n : Nat) : (c.dropOp n).arrivals = c.arrivals := rfl
@[simp] theorem Core.dropOp_regions (c : Core) (n : Nat) : (c.dropOp n).regions = c.regions := rfl
@[simp] theorem Core.dropOp_digest (c : Core) (n : Nat) : (c.dropOp n).digest = c.digest := rfl
@[simp] theorem Core.dropOp_stalls (c : Core) (n : Nat) : (c.dropOp n).stalls = c.stalls := rfl
@[simp] theorem Core.dropOp_profile (c : Core) (n : Nat) : (c.dropOp n).profile = c.profile := rfl
@[simp] theorem Core.dropOp_exits (c : Core) (n : Nat) : (c.dropOp n).exits = c.exits := rfl
@[simp] theorem Core.dropOp_stamps (c : Core) (n : Nat) : (c.dropOp n).stamps = c.stamps := rfl
@[simp] theorem Core.dropOp_stampOver (c : Core) (n : Nat) : (c.dropOp n).stampOver = c.stampOver := rfl
@[simp] theorem Core.dropOp_bank (c : Core) (n : Nat) : (c.dropOp n).bank = c.bank := rfl
@[simp] theorem Core.dropOp_wbSpill (c : Core) (n : Nat) : (c.dropOp n).wbSpill = c.wbSpill := rfl
@[simp] theorem Core.dropOp_brk (c : Core) (n : Nat) : (c.dropOp n).brk = c.brk := rfl
@[simp] theorem Core.dropOp_flying (c : Core) (n : Nat) : (c.dropOp n).flying = c.flying := rfl
@[simp] theorem Core.dropOp_holds (c : Core) (n : Nat) : (c.dropOp n).holds = c.holds := rfl

@[simp] theorem Core.countStall_regs (c : Core) (r k : Nat) : (c.countStall r k).regs = c.regs := rfl
@[simp] theorem Core.countStall_mrf (c : Core) (r k : Nat) : (c.countStall r k).mrf = c.mrf := rfl
@[simp] theorem Core.countStall_ab (c : Core) (r k : Nat) : (c.countStall r k).ab = c.ab := rfl
@[simp] theorem Core.countStall_wb (c : Core) (r k : Nat) : (c.countStall r k).wb = c.wb := rfl
@[simp] theorem Core.countStall_sdm (c : Core) (r k : Nat) : (c.countStall r k).sdm = c.sdm := rfl
@[simp] theorem Core.countStall_sdm0 (c : Core) (r k : Nat) : (c.countStall r k).sdm0 = c.sdm0 := rfl
@[simp] theorem Core.countStall_gm (c : Core) (r k : Nat) : (c.countStall r k).gm = c.gm := rfl
@[simp] theorem Core.countStall_w0 (c : Core) (r k : Nat) : (c.countStall r k).w0 = c.w0 := rfl
@[simp] theorem Core.countStall_w1 (c : Core) (r k : Nat) : (c.countStall r k).w1 = c.w1 := rfl
@[simp] theorem Core.countStall_wact (c : Core) (r k : Nat) : (c.countStall r k).wact = c.wact := rfl
@[simp] theorem Core.countStall_waking (c : Core) (r k : Nat) : (c.countStall r k).waking = c.waking := rfl
@[simp] theorem Core.countStall_im0 (c : Core) (r k : Nat) : (c.countStall r k).im0 = c.im0 := rfl
@[simp] theorem Core.countStall_im1 (c : Core) (r k : Nat) : (c.countStall r k).im1 = c.im1 := rfl
@[simp] theorem Core.countStall_half (c : Core) (r k : Nat) : (c.countStall r k).half = c.half := rfl
@[simp] theorem Core.countStall_image0 (c : Core) (r k : Nat) : (c.countStall r k).image0 = c.image0 := rfl
@[simp] theorem Core.countStall_image1 (c : Core) (r k : Nat) : (c.countStall r k).image1 = c.image1 := rfl
@[simp] theorem Core.countStall_plan (c : Core) (r k : Nat) : (c.countStall r k).plan = c.plan := rfl
@[simp] theorem Core.countStall_loops (c : Core) (r k : Nat) : (c.countStall r k).loops = c.loops := rfl
@[simp] theorem Core.countStall_pos (c : Core) (r k : Nat) : (c.countStall r k).pos = c.pos := rfl
@[simp] theorem Core.countStall_iters (c : Core) (r k : Nat) : (c.countStall r k).iters = c.iters := rfl
@[simp] theorem Core.countStall_queues (c : Core) (r k : Nat) : (c.countStall r k).queues = c.queues := rfl
@[simp] theorem Core.countStall_qmin (c : Core) (r k : Nat) : (c.countStall r k).qmin = c.qmin := rfl
@[simp] theorem Core.countStall_qcap (c : Core) (r k : Nat) : (c.countStall r k).qcap = c.qcap := rfl
@[simp] theorem Core.countStall_retired (c : Core) (r k : Nat) : (c.countStall r k).retired = c.retired := rfl
@[simp] theorem Core.countStall_running (c : Core) (r k : Nat) : (c.countStall r k).running = c.running := rfl
@[simp] theorem Core.countStall_takes (c : Core) (r k : Nat) : (c.countStall r k).takes = c.takes := rfl
@[simp] theorem Core.countStall_rdv (c : Core) (r k : Nat) : (c.countStall r k).rdv = c.rdv := rfl
@[simp] theorem Core.countStall_signed (c : Core) (r k : Nat) : (c.countStall r k).signed = c.signed := rfl
@[simp] theorem Core.countStall_halted (c : Core) (r k : Nat) : (c.countStall r k).halted = c.halted := rfl
@[simp] theorem Core.countStall_lag (c : Core) (r k : Nat) : (c.countStall r k).lag = c.lag := rfl
@[simp] theorem Core.countStall_frozen (c : Core) (r k : Nat) : (c.countStall r k).frozen = c.frozen := rfl
@[simp] theorem Core.countStall_stalled (c : Core) (r k : Nat) : (c.countStall r k).stalled = c.stalled := rfl
@[simp] theorem Core.countStall_owed (c : Core) (r k : Nat) : (c.countStall r k).owed = c.owed := rfl
@[simp] theorem Core.countStall_froze (c : Core) (r k : Nat) : (c.countStall r k).froze = c.froze := rfl
@[simp] theorem Core.countStall_pend (c : Core) (r k : Nat) : (c.countStall r k).pend = c.pend := rfl
@[simp] theorem Core.countStall_seq (c : Core) (r k : Nat) : (c.countStall r k).seq = c.seq := rfl
@[simp] theorem Core.countStall_claims (c : Core) (r k : Nat) : (c.countStall r k).claims = c.claims := rfl
@[simp] theorem Core.countStall_landed (c : Core) (r k : Nat) : (c.countStall r k).landed = c.landed := rfl
@[simp] theorem Core.countStall_used (c : Core) (r k : Nat) : (c.countStall r k).used = c.used := rfl
@[simp] theorem Core.countStall_outb (c : Core) (r k : Nat) : (c.countStall r k).outb = c.outb := rfl
@[simp] theorem Core.countStall_fences (c : Core) (r k : Nat) : (c.countStall r k).fences = c.fences := rfl
@[simp] theorem Core.countStall_arrivals (c : Core) (r k : Nat) : (c.countStall r k).arrivals = c.arrivals := rfl
@[simp] theorem Core.countStall_regions (c : Core) (r k : Nat) : (c.countStall r k).regions = c.regions := rfl
@[simp] theorem Core.countStall_digest (c : Core) (r k : Nat) : (c.countStall r k).digest = c.digest := rfl
@[simp] theorem Core.countStall_profile (c : Core) (r k : Nat) : (c.countStall r k).profile = c.profile := rfl
@[simp] theorem Core.countStall_exits (c : Core) (r k : Nat) : (c.countStall r k).exits = c.exits := rfl
@[simp] theorem Core.countStall_stamps (c : Core) (r k : Nat) : (c.countStall r k).stamps = c.stamps := rfl
@[simp] theorem Core.countStall_stampOver (c : Core) (r k : Nat) : (c.countStall r k).stampOver = c.stampOver := rfl
@[simp] theorem Core.countStall_bank (c : Core) (r k : Nat) : (c.countStall r k).bank = c.bank := rfl
@[simp] theorem Core.countStall_wbSpill (c : Core) (r k : Nat) : (c.countStall r k).wbSpill = c.wbSpill := rfl
@[simp] theorem Core.countStall_brk (c : Core) (r k : Nat) : (c.countStall r k).brk = c.brk := rfl
@[simp] theorem Core.countStall_flying (c : Core) (r k : Nat) : (c.countStall r k).flying = c.flying := rfl
@[simp] theorem Core.countStall_holds (c : Core) (r k : Nat) : (c.countStall r k).holds = c.holds := rfl

/-- What becomes due changes the pending list and its counter only. -/
@[simp] theorem Core.dueAll_regs (c : Core) (x : Src) (t : Nat) (ds : List Due) : (c.dueAll x t ds).regs = c.regs := by
  induction ds generalizing c <;> simp_all [Core.dueAll]
@[simp] theorem Core.dueAll_mrf (c : Core) (x : Src) (t : Nat) (ds : List Due) : (c.dueAll x t ds).mrf = c.mrf := by
  induction ds generalizing c <;> simp_all [Core.dueAll]
@[simp] theorem Core.dueAll_ab (c : Core) (x : Src) (t : Nat) (ds : List Due) : (c.dueAll x t ds).ab = c.ab := by
  induction ds generalizing c <;> simp_all [Core.dueAll]
@[simp] theorem Core.dueAll_wb (c : Core) (x : Src) (t : Nat) (ds : List Due) : (c.dueAll x t ds).wb = c.wb := by
  induction ds generalizing c <;> simp_all [Core.dueAll]
@[simp] theorem Core.dueAll_sdm (c : Core) (x : Src) (t : Nat) (ds : List Due) : (c.dueAll x t ds).sdm = c.sdm := by
  induction ds generalizing c <;> simp_all [Core.dueAll]
@[simp] theorem Core.dueAll_sdm0 (c : Core) (x : Src) (t : Nat) (ds : List Due) : (c.dueAll x t ds).sdm0 = c.sdm0 := by
  induction ds generalizing c <;> simp_all [Core.dueAll]
@[simp] theorem Core.dueAll_gm (c : Core) (x : Src) (t : Nat) (ds : List Due) : (c.dueAll x t ds).gm = c.gm := by
  induction ds generalizing c <;> simp_all [Core.dueAll]
@[simp] theorem Core.dueAll_w0 (c : Core) (x : Src) (t : Nat) (ds : List Due) : (c.dueAll x t ds).w0 = c.w0 := by
  induction ds generalizing c <;> simp_all [Core.dueAll]
@[simp] theorem Core.dueAll_w1 (c : Core) (x : Src) (t : Nat) (ds : List Due) : (c.dueAll x t ds).w1 = c.w1 := by
  induction ds generalizing c <;> simp_all [Core.dueAll]
@[simp] theorem Core.dueAll_wact (c : Core) (x : Src) (t : Nat) (ds : List Due) : (c.dueAll x t ds).wact = c.wact := by
  induction ds generalizing c <;> simp_all [Core.dueAll]
@[simp] theorem Core.dueAll_waking (c : Core) (x : Src) (t : Nat) (ds : List Due) : (c.dueAll x t ds).waking = c.waking := by
  induction ds generalizing c <;> simp_all [Core.dueAll]
@[simp] theorem Core.dueAll_im0 (c : Core) (x : Src) (t : Nat) (ds : List Due) : (c.dueAll x t ds).im0 = c.im0 := by
  induction ds generalizing c <;> simp_all [Core.dueAll]
@[simp] theorem Core.dueAll_im1 (c : Core) (x : Src) (t : Nat) (ds : List Due) : (c.dueAll x t ds).im1 = c.im1 := by
  induction ds generalizing c <;> simp_all [Core.dueAll]
@[simp] theorem Core.dueAll_half (c : Core) (x : Src) (t : Nat) (ds : List Due) : (c.dueAll x t ds).half = c.half := by
  induction ds generalizing c <;> simp_all [Core.dueAll]
@[simp] theorem Core.dueAll_image0 (c : Core) (x : Src) (t : Nat) (ds : List Due) : (c.dueAll x t ds).image0 = c.image0 := by
  induction ds generalizing c <;> simp_all [Core.dueAll]
@[simp] theorem Core.dueAll_image1 (c : Core) (x : Src) (t : Nat) (ds : List Due) : (c.dueAll x t ds).image1 = c.image1 := by
  induction ds generalizing c <;> simp_all [Core.dueAll]
@[simp] theorem Core.dueAll_plan (c : Core) (x : Src) (t : Nat) (ds : List Due) : (c.dueAll x t ds).plan = c.plan := by
  induction ds generalizing c <;> simp_all [Core.dueAll]
@[simp] theorem Core.dueAll_loops (c : Core) (x : Src) (t : Nat) (ds : List Due) : (c.dueAll x t ds).loops = c.loops := by
  induction ds generalizing c <;> simp_all [Core.dueAll]
@[simp] theorem Core.dueAll_pos (c : Core) (x : Src) (t : Nat) (ds : List Due) : (c.dueAll x t ds).pos = c.pos := by
  induction ds generalizing c <;> simp_all [Core.dueAll]
@[simp] theorem Core.dueAll_iters (c : Core) (x : Src) (t : Nat) (ds : List Due) : (c.dueAll x t ds).iters = c.iters := by
  induction ds generalizing c <;> simp_all [Core.dueAll]
@[simp] theorem Core.dueAll_queues (c : Core) (x : Src) (t : Nat) (ds : List Due) : (c.dueAll x t ds).queues = c.queues := by
  induction ds generalizing c <;> simp_all [Core.dueAll]
@[simp] theorem Core.dueAll_qmin (c : Core) (x : Src) (t : Nat) (ds : List Due) : (c.dueAll x t ds).qmin = c.qmin := by
  induction ds generalizing c <;> simp_all [Core.dueAll]
@[simp] theorem Core.dueAll_qcap (c : Core) (x : Src) (t : Nat) (ds : List Due) : (c.dueAll x t ds).qcap = c.qcap := by
  induction ds generalizing c <;> simp_all [Core.dueAll]
@[simp] theorem Core.dueAll_retired (c : Core) (x : Src) (t : Nat) (ds : List Due) : (c.dueAll x t ds).retired = c.retired := by
  induction ds generalizing c <;> simp_all [Core.dueAll]
@[simp] theorem Core.dueAll_running (c : Core) (x : Src) (t : Nat) (ds : List Due) : (c.dueAll x t ds).running = c.running := by
  induction ds generalizing c <;> simp_all [Core.dueAll]
@[simp] theorem Core.dueAll_takes (c : Core) (x : Src) (t : Nat) (ds : List Due) : (c.dueAll x t ds).takes = c.takes := by
  induction ds generalizing c <;> simp_all [Core.dueAll]
@[simp] theorem Core.dueAll_rdv (c : Core) (x : Src) (t : Nat) (ds : List Due) : (c.dueAll x t ds).rdv = c.rdv := by
  induction ds generalizing c <;> simp_all [Core.dueAll]
@[simp] theorem Core.dueAll_signed (c : Core) (x : Src) (t : Nat) (ds : List Due) : (c.dueAll x t ds).signed = c.signed := by
  induction ds generalizing c <;> simp_all [Core.dueAll]
@[simp] theorem Core.dueAll_halted (c : Core) (x : Src) (t : Nat) (ds : List Due) : (c.dueAll x t ds).halted = c.halted := by
  induction ds generalizing c <;> simp_all [Core.dueAll]
@[simp] theorem Core.dueAll_lag (c : Core) (x : Src) (t : Nat) (ds : List Due) : (c.dueAll x t ds).lag = c.lag := by
  induction ds generalizing c <;> simp_all [Core.dueAll]
@[simp] theorem Core.dueAll_frozen (c : Core) (x : Src) (t : Nat) (ds : List Due) : (c.dueAll x t ds).frozen = c.frozen := by
  induction ds generalizing c <;> simp_all [Core.dueAll]
@[simp] theorem Core.dueAll_stalled (c : Core) (x : Src) (t : Nat) (ds : List Due) : (c.dueAll x t ds).stalled = c.stalled := by
  induction ds generalizing c <;> simp_all [Core.dueAll]
@[simp] theorem Core.dueAll_owed (c : Core) (x : Src) (t : Nat) (ds : List Due) : (c.dueAll x t ds).owed = c.owed := by
  induction ds generalizing c <;> simp_all [Core.dueAll]
@[simp] theorem Core.dueAll_froze (c : Core) (x : Src) (t : Nat) (ds : List Due) : (c.dueAll x t ds).froze = c.froze := by
  induction ds generalizing c <;> simp_all [Core.dueAll]
@[simp] theorem Core.dueAll_claims (c : Core) (x : Src) (t : Nat) (ds : List Due) : (c.dueAll x t ds).claims = c.claims := by
  induction ds generalizing c <;> simp_all [Core.dueAll]
@[simp] theorem Core.dueAll_landed (c : Core) (x : Src) (t : Nat) (ds : List Due) : (c.dueAll x t ds).landed = c.landed := by
  induction ds generalizing c <;> simp_all [Core.dueAll]
@[simp] theorem Core.dueAll_used (c : Core) (x : Src) (t : Nat) (ds : List Due) : (c.dueAll x t ds).used = c.used := by
  induction ds generalizing c <;> simp_all [Core.dueAll]
@[simp] theorem Core.dueAll_outb (c : Core) (x : Src) (t : Nat) (ds : List Due) : (c.dueAll x t ds).outb = c.outb := by
  induction ds generalizing c <;> simp_all [Core.dueAll]
@[simp] theorem Core.dueAll_fences (c : Core) (x : Src) (t : Nat) (ds : List Due) : (c.dueAll x t ds).fences = c.fences := by
  induction ds generalizing c <;> simp_all [Core.dueAll]
@[simp] theorem Core.dueAll_arrivals (c : Core) (x : Src) (t : Nat) (ds : List Due) : (c.dueAll x t ds).arrivals = c.arrivals := by
  induction ds generalizing c <;> simp_all [Core.dueAll]
@[simp] theorem Core.dueAll_regions (c : Core) (x : Src) (t : Nat) (ds : List Due) : (c.dueAll x t ds).regions = c.regions := by
  induction ds generalizing c <;> simp_all [Core.dueAll]
@[simp] theorem Core.dueAll_digest (c : Core) (x : Src) (t : Nat) (ds : List Due) : (c.dueAll x t ds).digest = c.digest := by
  induction ds generalizing c <;> simp_all [Core.dueAll]
@[simp] theorem Core.dueAll_stalls (c : Core) (x : Src) (t : Nat) (ds : List Due) : (c.dueAll x t ds).stalls = c.stalls := by
  induction ds generalizing c <;> simp_all [Core.dueAll]
@[simp] theorem Core.dueAll_profile (c : Core) (x : Src) (t : Nat) (ds : List Due) : (c.dueAll x t ds).profile = c.profile := by
  induction ds generalizing c <;> simp_all [Core.dueAll]
@[simp] theorem Core.dueAll_exits (c : Core) (x : Src) (t : Nat) (ds : List Due) : (c.dueAll x t ds).exits = c.exits := by
  induction ds generalizing c <;> simp_all [Core.dueAll]
@[simp] theorem Core.dueAll_stamps (c : Core) (x : Src) (t : Nat) (ds : List Due) : (c.dueAll x t ds).stamps = c.stamps := by
  induction ds generalizing c <;> simp_all [Core.dueAll]
@[simp] theorem Core.dueAll_stampOver (c : Core) (x : Src) (t : Nat) (ds : List Due) : (c.dueAll x t ds).stampOver = c.stampOver := by
  induction ds generalizing c <;> simp_all [Core.dueAll]
@[simp] theorem Core.dueAll_bank (c : Core) (x : Src) (t : Nat) (ds : List Due) : (c.dueAll x t ds).bank = c.bank := by
  induction ds generalizing c <;> simp_all [Core.dueAll]
@[simp] theorem Core.dueAll_wbSpill (c : Core) (x : Src) (t : Nat) (ds : List Due) : (c.dueAll x t ds).wbSpill = c.wbSpill := by
  induction ds generalizing c <;> simp_all [Core.dueAll]
@[simp] theorem Core.dueAll_brk (c : Core) (x : Src) (t : Nat) (ds : List Due) : (c.dueAll x t ds).brk = c.brk := by
  induction ds generalizing c <;> simp_all [Core.dueAll]
@[simp] theorem Core.dueAll_flying (c : Core) (x : Src) (t : Nat) (ds : List Due) : (c.dueAll x t ds).flying = c.flying := by
  induction ds generalizing c <;> simp_all [Core.dueAll]
@[simp] theorem Core.dueAll_holds (c : Core) (x : Src) (t : Nat) (ds : List Due) : (c.dueAll x t ds).holds = c.holds := by
  induction ds generalizing c <;> simp_all [Core.dueAll]

/-! ### Updates of the registers -/

@[simp] theorem Regs.takeTok_s (r : Regs) (x : Fin 6) (n : Nat) : (r.takeTok x n).s = r.s := rfl
@[simp] theorem Regs.takeTok_p (r : Regs) (x : Fin 6) (n : Nat) : (r.takeTok x n).p = r.p := rfl
@[simp] theorem Regs.takeTok_a (r : Regs) (x : Fin 6) (n : Nat) : (r.takeTok x n).a = r.a := rfl
@[simp] theorem Regs.takeTok_k (r : Regs) (x : Fin 6) (n : Nat) : (r.takeTok x n).k = r.k := rfl
@[simp] theorem Regs.takeTok_q (r : Regs) (x : Fin 6) (n : Nat) : (r.takeTok x n).q = r.q := rfl
@[simp] theorem Regs.takeTok_vm (r : Regs) (x : Fin 6) (n : Nat) : (r.takeTok x n).vm = r.vm := rfl
@[simp] theorem Regs.takeTok_sem (r : Regs) (x : Fin 6) (n : Nat) : (r.takeTok x n).sem = r.sem := rfl
@[simp] theorem Regs.takeTok_ctl (r : Regs) (x : Fin 6) (n : Nat) : (r.takeTok x n).ctl = r.ctl := rfl
@[simp] theorem Regs.takeTok_gates (r : Regs) (x : Fin 6) (n : Nat) : (r.takeTok x n).gates = r.gates := rfl
@[simp] theorem Regs.takeTok_feed (r : Regs) (x : Fin 6) (n : Nat) : (r.takeTok x n).feed = r.feed := rfl
@[simp] theorem Regs.takeTok_beta (r : Regs) (x : Fin 6) (n : Nat) : (r.takeTok x n).beta = r.beta := rfl
@[simp] theorem Regs.takeTok_bands (r : Regs) (x : Fin 6) (n : Nat) : (r.takeTok x n).bands = r.bands := rfl

@[simp] theorem Regs.ringPop_s (r : Regs) (q : Fin 32) (n : Nat) : (r.ringPop q n).s = r.s := rfl
@[simp] theorem Regs.ringPop_p (r : Regs) (q : Fin 32) (n : Nat) : (r.ringPop q n).p = r.p := rfl
@[simp] theorem Regs.ringPop_a (r : Regs) (q : Fin 32) (n : Nat) : (r.ringPop q n).a = r.a := rfl
@[simp] theorem Regs.ringPop_k (r : Regs) (q : Fin 32) (n : Nat) : (r.ringPop q n).k = r.k := rfl
@[simp] theorem Regs.ringPop_vm (r : Regs) (q : Fin 32) (n : Nat) : (r.ringPop q n).vm = r.vm := rfl
@[simp] theorem Regs.ringPop_sem (r : Regs) (q : Fin 32) (n : Nat) : (r.ringPop q n).sem = r.sem := rfl
@[simp] theorem Regs.ringPop_ctl (r : Regs) (q : Fin 32) (n : Nat) : (r.ringPop q n).ctl = r.ctl := rfl
@[simp] theorem Regs.ringPop_tok (r : Regs) (q : Fin 32) (n : Nat) : (r.ringPop q n).tok = r.tok := rfl
@[simp] theorem Regs.ringPop_gates (r : Regs) (q : Fin 32) (n : Nat) : (r.ringPop q n).gates = r.gates := rfl
@[simp] theorem Regs.ringPop_feed (r : Regs) (q : Fin 32) (n : Nat) : (r.ringPop q n).feed = r.feed := rfl
@[simp] theorem Regs.ringPop_beta (r : Regs) (q : Fin 32) (n : Nat) : (r.ringPop q n).beta = r.beta := rfl
@[simp] theorem Regs.ringPop_bands (r : Regs) (q : Fin 32) (n : Nat) : (r.ringPop q n).bands = r.bands := rfl

@[simp] theorem Regs.ringPush_s (r : Regs) (q : Fin 32) (g : Option (BitVec 16)) : (r.ringPush q g).s = r.s := rfl
@[simp] theorem Regs.ringPush_p (r : Regs) (q : Fin 32) (g : Option (BitVec 16)) : (r.ringPush q g).p = r.p := rfl
@[simp] theorem Regs.ringPush_a (r : Regs) (q : Fin 32) (g : Option (BitVec 16)) : (r.ringPush q g).a = r.a := rfl
@[simp] theorem Regs.ringPush_k (r : Regs) (q : Fin 32) (g : Option (BitVec 16)) : (r.ringPush q g).k = r.k := rfl
@[simp] theorem Regs.ringPush_vm (r : Regs) (q : Fin 32) (g : Option (BitVec 16)) : (r.ringPush q g).vm = r.vm := rfl
@[simp] theorem Regs.ringPush_sem (r : Regs) (q : Fin 32) (g : Option (BitVec 16)) : (r.ringPush q g).sem = r.sem := rfl
@[simp] theorem Regs.ringPush_ctl (r : Regs) (q : Fin 32) (g : Option (BitVec 16)) : (r.ringPush q g).ctl = r.ctl := rfl
@[simp] theorem Regs.ringPush_tok (r : Regs) (q : Fin 32) (g : Option (BitVec 16)) : (r.ringPush q g).tok = r.tok := rfl
@[simp] theorem Regs.ringPush_gates (r : Regs) (q : Fin 32) (g : Option (BitVec 16)) : (r.ringPush q g).gates = r.gates := rfl
@[simp] theorem Regs.ringPush_feed (r : Regs) (q : Fin 32) (g : Option (BitVec 16)) : (r.ringPush q g).feed = r.feed := rfl
@[simp] theorem Regs.ringPush_beta (r : Regs) (q : Fin 32) (g : Option (BitVec 16)) : (r.ringPush q g).beta = r.beta := rfl
@[simp] theorem Regs.ringPush_bands (r : Regs) (q : Fin 32) (g : Option (BitVec 16)) : (r.ringPush q g).bands = r.bands := rfl

@[simp] theorem Regs.setS_p (r : Regs) (n : Fin 32) (v : Option W64) : (r.setS n v).p = r.p := by unfold Regs.setS; split <;> rfl
@[simp] theorem Regs.setS_a (r : Regs) (n : Fin 32) (v : Option W64) : (r.setS n v).a = r.a := by unfold Regs.setS; split <;> rfl
@[simp] theorem Regs.setS_k (r : Regs) (n : Fin 32) (v : Option W64) : (r.setS n v).k = r.k := by unfold Regs.setS; split <;> rfl
@[simp] theorem Regs.setS_q (r : Regs) (n : Fin 32) (v : Option W64) : (r.setS n v).q = r.q := by unfold Regs.setS; split <;> rfl
@[simp] theorem Regs.setS_vm (r : Regs) (n : Fin 32) (v : Option W64) : (r.setS n v).vm = r.vm := by unfold Regs.setS; split <;> rfl
@[simp] theorem Regs.setS_sem (r : Regs) (n : Fin 32) (v : Option W64) : (r.setS n v).sem = r.sem := by unfold Regs.setS; split <;> rfl
@[simp] theorem Regs.setS_ctl (r : Regs) (n : Fin 32) (v : Option W64) : (r.setS n v).ctl = r.ctl := by unfold Regs.setS; split <;> rfl
@[simp] theorem Regs.setS_tok (r : Regs) (n : Fin 32) (v : Option W64) : (r.setS n v).tok = r.tok := by unfold Regs.setS; split <;> rfl
@[simp] theorem Regs.setS_gates (r : Regs) (n : Fin 32) (v : Option W64) : (r.setS n v).gates = r.gates := by unfold Regs.setS; split <;> rfl
@[simp] theorem Regs.setS_feed (r : Regs) (n : Fin 32) (v : Option W64) : (r.setS n v).feed = r.feed := by unfold Regs.setS; split <;> rfl
@[simp] theorem Regs.setS_beta (r : Regs) (n : Fin 32) (v : Option W64) : (r.setS n v).beta = r.beta := by unfold Regs.setS; split <;> rfl
@[simp] theorem Regs.setS_bands (r : Regs) (n : Fin 32) (v : Option W64) : (r.setS n v).bands = r.bands := by unfold Regs.setS; split <;> rfl
@[simp] theorem Regs.setP_s (r : Regs) (n : Fin 16) (v : PReg) : (r.setP n v).s = r.s := by unfold Regs.setP; split <;> rfl
@[simp] theorem Regs.setP_a (r : Regs) (n : Fin 16) (v : PReg) : (r.setP n v).a = r.a := by unfold Regs.setP; split <;> rfl
@[simp] theorem Regs.setP_k (r : Regs) (n : Fin 16) (v : PReg) : (r.setP n v).k = r.k := by unfold Regs.setP; split <;> rfl
@[simp] theorem Regs.setP_q (r : Regs) (n : Fin 16) (v : PReg) : (r.setP n v).q = r.q := by unfold Regs.setP; split <;> rfl
@[simp] theorem Regs.setP_vm (r : Regs) (n : Fin 16) (v : PReg) : (r.setP n v).vm = r.vm := by unfold Regs.setP; split <;> rfl
@[simp] theorem Regs.setP_sem (r : Regs) (n : Fin 16) (v : PReg) : (r.setP n v).sem = r.sem := by unfold Regs.setP; split <;> rfl
@[simp] theorem Regs.setP_ctl (r : Regs) (n : Fin 16) (v : PReg) : (r.setP n v).ctl = r.ctl := by unfold Regs.setP; split <;> rfl
@[simp] theorem Regs.setP_tok (r : Regs) (n : Fin 16) (v : PReg) : (r.setP n v).tok = r.tok := by unfold Regs.setP; split <;> rfl
@[simp] theorem Regs.setP_gates (r : Regs) (n : Fin 16) (v : PReg) : (r.setP n v).gates = r.gates := by unfold Regs.setP; split <;> rfl
@[simp] theorem Regs.setP_feed (r : Regs) (n : Fin 16) (v : PReg) : (r.setP n v).feed = r.feed := by unfold Regs.setP; split <;> rfl
@[simp] theorem Regs.setP_beta (r : Regs) (n : Fin 16) (v : PReg) : (r.setP n v).beta = r.beta := by unfold Regs.setP; split <;> rfl
@[simp] theorem Regs.setP_bands (r : Regs) (n : Fin 16) (v : PReg) : (r.setP n v).bands = r.bands := by unfold Regs.setP; split <;> rfl

/-- R27: what a written s register reads as: s0 reads zero. -/
theorem Regs.getS_setS (r : Regs) (n m : Fin 32) (v : Option W64) :
    (r.setS n v).getS m = if m = 0 then some 0 else if m = n then v else r.getS m := by
  by_cases h : m = 0
  · simp [Regs.getS, h]
  · by_cases hn : n = 0
    · subst hn; simp [Regs.setS, h]
    · by_cases hm : m = n
      · subst hm; simp [Regs.setS, Regs.getS, h]
      · have hv : n.val ≠ m.val := fun e => hm (Fin.ext e.symm)
        simp [Regs.setS, Regs.getS, h, hn, hm, hv]

/-- R27: what a written predicate reads as: p0 reads true. -/
theorem Regs.getP_setP (r : Regs) (n m : Fin 16) (v : PReg) :
    (r.setP n v).getP m = if m = 0 then ⟨true, false⟩ else if m = n then v else r.getP m := by
  by_cases h : m = 0
  · simp [Regs.getP, h]
  · by_cases hn : n = 0
    · subst hn; simp [Regs.setP, h]
    · by_cases hm : m = n
      · subst hm; simp [Regs.setP, Regs.getP, h]
      · have hv : n.val ≠ m.val := fun e => hm (Fin.ext e.symm)
        simp [Regs.setP, Regs.getP, h, hn, hm, hv]

end Sys2Proof.Machine
end

