-- ==== Sys2Proof/Laws/Issue.lean ====
section
/-! SUPPORT. What issuing a word can do (R42, R64, R108, R297): one lemma for each way it ends, and the frames of issue,
traps and the start of an abort. -/

namespace Sys2Proof.Machine

/-! ### Small facts -/

theorem State.predOn_iff (s : State) (p : Fin 16) :
    s.predOn p = true ↔ (s.regs.getP p).val = true ∧ (s.regs.getP p).mark = false := by
  simp [State.predOn]

theorem State.predOff_iff (s : State) (p : Fin 16) :
    s.predOff p = true ↔ (s.regs.getP p).val = false ∧ (s.regs.getP p).mark = false := by
  simp [State.predOff]

/-- A word that asks for no bank meets no other. -/
@[simp] theorem State.banksFree_nil (s : State) : s.banksFree [] = true := by simp [State.banksFree]

/-- A word whose landings are not judged against the rendezvous is in time. -/
@[simp] theorem State.inTime_zero (s : State) : s.inTime 0 = true := by simp [State.inTime]

theorem State.busy_eq_none (s : State) (p : Plan) (h : s.banksFree p.banks = true) : s.busy p = none := by
  simp only [State.banksFree, List.all_eq_true, Bool.or_eq_true, Bool.not_eq_true', Option.isNone_iff_eq_none] at h
  simp only [State.busy, List.findSome?_eq_none_iff]
  intro k hk
  rcases h k hk with h | h
  · rw [h]; rfl
  · simp [h]

/-! ### Lists of checks -/

@[simp] theorem firstOf_nil {α : Type} : firstOf ([] : List (Option α)) = none := rfl
@[simp] theorem firstOf_none {α : Type} (ts : List (Option α)) : firstOf (none :: ts) = firstOf ts := rfl
@[simp] theorem firstOf_some {α : Type} (t : α) (ts : List (Option α)) : firstOf (some t :: ts) = some t := rfl

/-- One check. -/
@[simp] theorem firstOf_one {α : Type} (t : Option α) : firstOf [t] = t := by cases t <;> rfl

/-- No check of a list fails when none of the first does and none of the rest does. -/
theorem firstOf_cons_eq_none {α : Type} (t : Option α) (ts : List (Option α)) :
    firstOf (t :: ts) = none ↔ t = none ∧ firstOf ts = none := by
  cases t <;> simp

/-- The checks of a list that ends in another. -/
theorem firstOf_append {α : Type} (ts us : List (Option α)) : firstOf (ts ++ us) = (firstOf ts).or (firstOf us) := by
  induction ts with
  | nil => simp
  | cons t ts ih => cases t <;> simp [ih]

/-- A list of checks as one check before another. -/
theorem firstOf_nest {α : Type} (ts us : List (Option α)) : firstOf (firstOf ts :: us) = firstOf (ts ++ us) := by
  rw [firstOf_append]
  cases h : firstOf ts <;> simp

theorem failIf_eq_none (b : Bool) (t : Trap) : failIf b t = none ↔ b = false := by cases b <;> simp [failIf]
@[simp] theorem failIf_false (t : Trap) : failIf false t = none := rfl
@[simp] theorem failIf_true (t : Trap) : failIf true t = some t := rfl

theorem guardAll_ok {α : Type} (ts : List (Option Trap)) (v : α) (h : firstOf ts = none) : guardAll ts v = .ok v := by
  simp [guardAll, h]

theorem guardAll_error {α : Type} (ts : List (Option Trap)) (v : α) (t : Trap) (h : firstOf ts = some t) :
    guardAll ts v = .error t := by
  simp [guardAll, h]

@[simp] theorem needS_some (v : W64) : needS (some v) = none := rfl
@[simp] theorem needS_none : needS none = some ⟨0x18, 0, 0, 0⟩ := rfl

/-- A descriptor that is there and fits its word passes. -/
theorem descTrap_ok (i : Fin 2048) (d : Desc) (f : Desc → Bool) (h : f d = true) : descTrap i (some d) f = none := by
  simp [descTrap, h]

/-! ### Issue -/

/-- Where no check fails and the predicate is true, the word does what its plan says. -/
theorem State.issue_on (s : State) (p : Plan) (ds : List Due) (hd : p.dec = none) (ht : s.inTime p.span = true)
    (hv : p.dev = none) (hb : s.banksFree p.banks = true) (hp : s.predOn p.pred = true) (ho : p.on = .ok ds) :
    s.issue p = s.commit p ds := by
  have hq := (s.predOn_iff p.pred).mp hp
  have hs : ¬ (p.span ≠ 0 ∧ s.slot.tick + p.span > (s.core s.slot.core).rdv) := by
    intro h
    simp [State.inTime, h.1] at ht
    omega
  simp only [State.regs] at hq
  simp only [State.issue, hd, if_neg hs, hv, s.busy_eq_none p hb, State.predicated, hq.1, hq.2, ho,
    Bool.false_eq_true, if_false, if_true]

/-- With a true predicate, a data check that fails is the trap. -/
theorem State.issue_on_error (s : State) (p : Plan) (t : Trap) (hd : p.dec = none) (ht : s.inTime p.span = true)
    (hv : p.dev = none) (hb : s.banksFree p.banks = true) (hp : s.predOn p.pred = true) (ho : p.on = .error t) :
    s.issue p = s.trap t := by
  have hq := (s.predOn_iff p.pred).mp hp
  have hs : ¬ (p.span ≠ 0 ∧ s.slot.tick + p.span > (s.core s.slot.core).rdv) := by
    intro h
    simp [State.inTime, h.1] at ht
    omega
  simp only [State.regs] at hq
  simp only [State.issue, hd, if_neg hs, hv, s.busy_eq_none p hb, State.predicated, hq.1, hq.2, ho,
    Bool.false_eq_true, if_false, if_true]

/-- A word that is predicated off leaves only what its plan keeps (R42). -/
theorem State.issue_off (s : State) (p : Plan) (hd : p.dec = none) (ht : s.inTime p.span = true)
    (hv : p.dev = none) (hb : s.banksFree p.banks = true) (hp : s.predOff p.pred = true) :
    s.issue p = s.commit p p.off := by
  have hq := (s.predOff_iff p.pred).mp hp
  have hs : ¬ (p.span ≠ 0 ∧ s.slot.tick + p.span > (s.core s.slot.core).rdv) := by
    intro h
    simp [State.inTime, h.1] at ht
    omega
  simp only [State.regs] at hq
  simp only [State.issue, hd, if_neg hs, hv, s.busy_eq_none p hb, State.predicated, hq.1, hq.2,
    Bool.false_eq_true, if_false]

/-- A decode check that fails is the trap, whatever the predicate (R64). -/
theorem State.issue_dec (s : State) (p : Plan) (t : Trap) (hd : p.dec = some t) : s.issue p = s.trap t := by
  simp only [State.issue, hd]

/-- A poisoned predicate traps (R108). -/
theorem State.issue_poisoned (s : State) (p : Plan) (hd : p.dec = none) (ht : s.inTime p.span = true)
    (hv : p.dev = none) (hb : s.banksFree p.banks = true) (hp : (s.regs.getP p.pred).mark = true) :
    s.issue p = s.trap ⟨0x18, 0, 0, 0⟩ := by
  have hs : ¬ (p.span ≠ 0 ∧ s.slot.tick + p.span > (s.core s.slot.core).rdv) := by
    intro h
    simp [State.inTime, h.1] at ht
    omega
  simp only [State.regs] at hp
  simp only [State.issue, hd, if_neg hs, hv, s.busy_eq_none p hb, State.predicated, hp, if_true]

/-- Where no check fails and the predicate is true, the word runs. -/
theorem State.runs_on (s : State) (p : Plan) (ds : List Due) (hd : p.dec = none) (ht : s.inTime p.span = true)
    (hv : p.dev = none) (hb : s.banksFree p.banks = true) (hp : s.predOn p.pred = true) (ho : p.on = .ok ds) :
    s.runs p = true := by
  have hq := (s.predOn_iff p.pred).mp hp
  have hs : decide (p.span ≠ 0 ∧ s.slot.tick + p.span > (s.core s.slot.core).rdv) = false := by
    rw [decide_eq_false_iff_not]
    intro h
    simp [State.inTime, h.1] at ht
    omega
  simp only [State.regs] at hq
  simp only [State.runs, hd, hs, hv, s.busy_eq_none p hb, hq.1, hq.2, ho, Option.isNone_none, Bool.not_false, Bool.and_self]

/-- The word does what its plan says, and what else it does when it runs. -/
theorem State.issueThen_on (s : State) (p : Plan) (ds : List Due) (f : State → State) (hd : p.dec = none)
    (ht : s.inTime p.span = true) (hv : p.dev = none) (hb : s.banksFree p.banks = true) (hp : s.predOn p.pred = true)
    (ho : p.on = .ok ds) : s.issueThen p f = f (s.commit p ds) := by
  simp only [State.issueThen, s.runs_on p ds hd ht hv hb hp ho, if_true, s.issue_on p ds hd ht hv hb hp ho]

/-- A word that is predicated off does nothing else. -/
theorem State.issueThen_off (s : State) (p : Plan) (f : State → State) (hd : p.dec = none)
    (ht : s.inTime p.span = true) (hv : p.dev = none) (hb : s.banksFree p.banks = true) (hp : s.predOff p.pred = true) :
    s.issueThen p f = s.commit p p.off := by
  have hq := (s.predOff_iff p.pred).mp hp
  have hr : s.runs p = false := by
    simp only [State.regs] at hq
    simp [State.runs, hq.1]
  simp only [State.issueThen, hr, Bool.false_eq_true, if_false, s.issue_off p hd ht hv hb hp]

/-- The same from the conditions that statements name. -/
theorem State.issue_ready (s : State) (p : Plan) (ds : List Due) {dec : List (Option Trap)}
    {dev : List (Option (Trap × Bool))} (h : s.ready p.pred dec p.span dev p.banks) (hd : p.dec = firstOf dec)
    (hv : p.dev = firstOf dev) (ho : p.on = .ok ds) : s.issue p = s.commit p ds :=
  s.issue_on p ds (hd.trans h.1) h.2.1 (hv.trans h.2.2.1) h.2.2.2.1 h.2.2.2.2 ho

theorem State.issue_ready_error (s : State) (p : Plan) (t : Trap) {dec : List (Option Trap)}
    {dev : List (Option (Trap × Bool))} (h : s.ready p.pred dec p.span dev p.banks) (hd : p.dec = firstOf dec)
    (hv : p.dev = firstOf dev) (ho : p.on = .error t) : s.issue p = s.trap t :=
  s.issue_on_error p t (hd.trans h.1) h.2.1 (hv.trans h.2.2.1) h.2.2.2.1 h.2.2.2.2 ho

theorem State.issueThen_ready (s : State) (p : Plan) (ds : List Due) (f : State → State) {dec : List (Option Trap)}
    {dev : List (Option (Trap × Bool))} (h : s.ready p.pred dec p.span dev p.banks) (hd : p.dec = firstOf dec)
    (hv : p.dev = firstOf dev) (ho : p.on = .ok ds) : s.issueThen p f = f (s.commit p ds) :=
  s.issueThen_on p ds f (hd.trans h.1) h.2.1 (hv.trans h.2.2.1) h.2.2.2.1 h.2.2.2.2 ho

/-- What `s.commit` leaves depends on the tokens, banks and bookkeeping of the plan only. -/
theorem State.commit_eq_issued (s : State) (p : Plan) (ds : List Due) :
    s.commit p ds = s.issued p.toks p.banks (p.books ++ ds) := rfl

/-- A word whose plan lands one effect, or traps for its flags. -/
theorem State.landsOrTraps_of_plan {s : State} {i : Instr} {p : Plan} {pr : Fin 16} {dec : List (Option Trap)}
    {banks : List Nat} {books : List Due} {lat : Nat} {e : Effect} {f : Flags} {sn : Bool}
    (h : s.ready pr dec 0 [] banks) (hx : exec i s = .next (s.issue p)) (hpr : p.pred = pr) (hb : p.banks = banks)
    (hs : p.span = 0) (ht : p.toks = []) (hd : p.dec = firstOf dec) (hv : p.dev = none) (hk : p.books = books)
    (ho : p.on = guardAll [ieeeTrap s.regs.ctl.ftrap f sn] (landAt lat [e] :: flagsAt lat f)) :
    s.landsOrTraps i banks books lat e f sn := by
  subst hpr hb hk
  have h' : s.ready p.pred dec p.span [] p.banks := by rw [hs]; exact h
  constructor
  · intro hn
    rw [hx, s.issue_ready p _ h' hd hv (by rw [ho]; exact guardAll_ok _ _ (by simp [hn])), State.commit_eq_issued, ht]
  · intro t hn
    rw [hx, s.issue_ready_error p t h' hd hv (by rw [ho]; exact guardAll_error _ _ _ (by simp [hn]))]

/-! ### The frame of a word that issues -/

/-- Of the state, a word that issues changes its core. -/
@[simp] theorem State.commit_parts (s : State) (p : Plan) (ds : List Due) : (s.commit p ds).parts = s.parts := rfl
@[simp] theorem State.commit_mod (s : State) (p : Plan) (ds : List Due) : (s.commit p ds).mod = s.mod := rfl
@[simp] theorem State.commit_hbm (s : State) (p : Plan) (ds : List Due) : (s.commit p ds).hbm = s.hbm := rfl
@[simp] theorem State.commit_host (s : State) (p : Plan) (ds : List Due) : (s.commit p ds).host = s.host := rfl
@[simp] theorem State.commit_peer (s : State) (p : Plan) (ds : List Due) : (s.commit p ds).peer = s.peer := rfl
@[simp] theorem State.commit_now (s : State) (p : Plan) (ds : List Due) : (s.commit p ds).now = s.now := rfl
@[simp] theorem State.commit_agenda (s : State) (p : Plan) (ds : List Due) : (s.commit p ds).agenda = s.agenda := rfl
@[simp] theorem State.commit_outputs (s : State) (p : Plan) (ds : List Due) : (s.commit p ds).outputs = s.outputs := rfl
@[simp] theorem State.commit_slot (s : State) (p : Plan) (ds : List Due) : (s.commit p ds).slot = s.slot := rfl
@[simp] theorem State.commit_undo (s : State) (p : Plan) (ds : List Due) : (s.commit p ds).undo = s.undo := rfl
@[simp] theorem State.commit_fresh (s : State) (p : Plan) (ds : List Due) : (s.commit p ds).fresh = s.fresh := rfl

theorem State.commit_core_other (s : State) (p : Plan) (ds : List Due) (c : Nat)
    (h : Fin.ofNat 96 c ≠ Fin.ofNat 96 s.slot.core.val) : (s.commit p ds).core c = s.core c := by
  rw [State.commit, State.core_setCore, if_neg (fun e => h e.symm)]

/-- Popping tokens changes the token FIFOs only. -/
theorem foldl_takeTok_keeps {α : Type} (f : Regs → α) (hf : ∀ r x n, f (Regs.takeTok r x n) = f r) :
    ∀ (ts : List (Fin 6 × Nat)) (r : Regs),
      f (ts.foldl (fun (r : Regs) (t : Fin 6 × Nat) => r.takeTok t.1 t.2) r) = f r
  | [], _ => rfl
  | t :: ts, r => by rw [List.foldl_cons, foldl_takeTok_keeps f hf ts, hf]

/-- Issue changes none of the registers that land later, and no memory of the core. -/
theorem State.commit_sameData (s : State) (p : Plan) (ds : List Due) :
    ((s.commit p ds).core s.slot.core).sameData (s.core s.slot.core) := by
  have k : ∀ {α : Type} (f : Regs → α), (∀ r x n, f (Regs.takeTok r x n) = f r) →
      f ((s.commit p ds).core s.slot.core).regs = f (s.core s.slot.core).regs := by
    intro α f hf
    simp only [State.commit, State.core_setCore_self, Core.dueAll_regs, Core.digestWord_regs]
    exact foldl_takeTok_keeps f hf _ _
  and_intros
  all_goals first
    | exact k _ fun _ _ _ => rfl
    | simp [State.commit]

end Sys2Proof.Machine
end

