-- ==== Sys2Proof/Laws/Memory.lean ====
section
/-! SUPPORT. The sparse maps and sets and the memories with poison: a read after a write, what a write leaves alone, and that
every operation keeps the canonical form. -/

namespace Sys2Proof.Machine

/-! ### Maps: order -/

/-- Every key of a map is above `a`. -/
abbrev mapAbove {α : Type} (a : Nat) (m : SMap α) : Prop := ∀ c ∈ m, a < c.1

theorem mapSorted_cons {α : Type} (k : Nat) (v : α) (m : SMap α) :
    mapSorted ((k, v) :: m) = true ↔ mapAbove k m ∧ mapSorted m = true := by
  induction m generalizing k v with
  | nil => simp [mapSorted, mapAbove]
  | cons c m ih =>
    obtain ⟨b, w⟩ := c
    simp only [mapSorted, Bool.and_eq_true, decide_eq_true_eq]
    constructor
    · rintro ⟨h, hs⟩
      refine ⟨fun c hc => ?_, hs⟩
      rcases List.mem_cons.mp hc with rfl | hc
      · exact h
      · exact Nat.lt_trans h (((ih b w).mp hs).1 c hc)
    · rintro ⟨h, hs⟩
      exact ⟨h (b, w) (List.mem_cons_self ..), hs⟩

/-- A map whose keys are all above `x` holds nothing there. -/
theorem mapGet_above {α : Type} (m : SMap α) (x : Nat) (h : mapAbove x m) : mapGet m x = none := by
  cases m with
  | nil => rfl
  | cons c m => simp [mapGet, h c (List.mem_cons_self ..)]

/-- What is in a map after a key is set: the new pair or an old one. -/
theorem mem_mapSet {α : Type} (m : SMap α) (x : Nat) (v : α) : ∀ c ∈ mapSet m x v, c = (x, v) ∨ c ∈ m := by
  induction m with
  | nil => simp [mapSet]
  | cons d m ih =>
    obtain ⟨k, w⟩ := d
    intro c hc
    unfold mapSet at hc
    split at hc
    · simpa using hc
    · split at hc
      · rcases List.mem_cons.mp hc with h | h
        · exact .inl h
        · exact .inr (List.mem_cons_of_mem _ h)
      · rcases List.mem_cons.mp hc with h | h
        · exact .inr (by simp [h])
        · exact (ih c h).imp id (List.mem_cons_of_mem _)

/-- What is in a map after a key is removed was in it before. -/
theorem mem_mapDel {α : Type} (m : SMap α) (x : Nat) : ∀ c ∈ mapDel m x, c ∈ m := by
  induction m with
  | nil => simp [mapDel]
  | cons d m ih =>
    obtain ⟨k, w⟩ := d
    intro c hc
    unfold mapDel at hc
    split at hc
    · exact hc
    · split at hc
      · exact List.mem_cons_of_mem _ hc
      · rcases List.mem_cons.mp hc with h | h
        · simp [h]
        · exact List.mem_cons_of_mem _ (ih c h)

theorem mapSet_sorted {α : Type} (m : SMap α) (x : Nat) (v : α) (h : mapSorted m = true) : mapSorted (mapSet m x v) = true := by
  induction m with
  | nil => rfl
  | cons d m ih =>
    obtain ⟨k, w⟩ := d
    obtain ⟨ha, hm⟩ := (mapSorted_cons k w m).mp h
    unfold mapSet
    split
    · rename_i hx
      refine (mapSorted_cons x v _).mpr ⟨fun c hc => ?_, h⟩
      rcases List.mem_cons.mp hc with rfl | hc
      · exact hx
      · exact Nat.lt_trans hx (ha c hc)
    · split
      · rename_i _ hx
        exact (mapSorted_cons x v m).mpr ⟨hx ▸ ha, hm⟩
      · refine (mapSorted_cons k w _).mpr ⟨fun c hc => ?_, ih hm⟩
        rcases mem_mapSet m x v c hc with rfl | hc
        · simp only; omega
        · exact ha c hc

theorem mapDel_sorted {α : Type} (m : SMap α) (x : Nat) (h : mapSorted m = true) : mapSorted (mapDel m x) = true := by
  induction m with
  | nil => rfl
  | cons d m ih =>
    obtain ⟨k, w⟩ := d
    obtain ⟨ha, hm⟩ := (mapSorted_cons k w m).mp h
    unfold mapDel
    split
    · exact h
    · split
      · exact hm
      · exact (mapSorted_cons k w _).mpr ⟨fun c hc => ha c (mem_mapDel m x c hc), ih hm⟩

theorem mapPut_sorted {α : Type} [DecidableEq α] (d : α) (m : SMap α) (x : Nat) (v : α) (h : mapSorted m = true) :
    mapSorted (mapPut d m x v) = true := by
  unfold mapPut
  split
  · exact mapDel_sorted m x h
  · exact mapSet_sorted m x v h

/-- Any choice of a map's pairs keeps their order. -/
theorem filter_sorted {α : Type} (m : SMap α) (f : Nat × α → Bool) (h : mapSorted m = true) : mapSorted (m.filter f) = true := by
  induction m with
  | nil => rfl
  | cons d m ih =>
    obtain ⟨k, w⟩ := d
    obtain ⟨ha, hm⟩ := (mapSorted_cons k w m).mp h
    by_cases hf : f (k, w) = true
    · rw [List.filter_cons_of_pos hf]
      exact (mapSorted_cons k w _).mpr ⟨fun c hc => ha c ((List.mem_filter.mp hc).1), ih hm⟩
    · rw [List.filter_cons_of_neg hf]
      exact ih hm

/-- Two maps one after another, every key of the first below every key of the second. -/
theorem append_sorted {α : Type} (m n : SMap α) (hm : mapSorted m = true) (hn : mapSorted n = true)
    (h : ∀ c ∈ m, ∀ d ∈ n, c.1 < d.1) : mapSorted (m ++ n) = true := by
  induction m with
  | nil => exact hn
  | cons c m ih =>
    obtain ⟨k, w⟩ := c
    obtain ⟨ha, hs⟩ := (mapSorted_cons k w m).mp hm
    refine (mapSorted_cons k w (m ++ n)).mpr ⟨fun c hc => ?_, ih hs fun c hc => h c (List.mem_cons_of_mem _ hc)⟩
    rcases List.mem_append.mp hc with hc | hc
    · exact ha c hc
    · exact h (k, w) (List.mem_cons_self ..) c hc

/-! ### Maps: reads after writes -/

/-- A map reads at a key what was set there, and elsewhere as before. -/
theorem mapGet_mapSet {α : Type} (m : SMap α) (x y : Nat) (v : α) (h : mapSorted m = true) :
    mapGet (mapSet m x v) y = if y = x then some v else mapGet m y := by
  induction m with
  | nil =>
    simp only [mapSet, mapGet]
    split
    · rename_i hy; simp [Nat.ne_of_lt hy]
    · rfl
  | cons d m ih =>
    obtain ⟨k, w⟩ := d
    obtain ⟨_, hm⟩ := (mapSorted_cons k w m).mp h
    unfold mapSet
    split
    · simp only [mapGet]
      repeat' split
      all_goals first | rfl | omega
    · split
      · simp only [mapGet]
        repeat' split
        all_goals first | rfl | omega
      · simp only [mapGet, ih hm]
        repeat' split
        all_goals first | rfl | omega

/-- A map reads nothing at a key removed, and elsewhere as before. -/
theorem mapGet_mapDel {α : Type} (m : SMap α) (x y : Nat) (h : mapSorted m = true) :
    mapGet (mapDel m x) y = if y = x then none else mapGet m y := by
  induction m with
  | nil => simp [mapDel, mapGet]
  | cons d m ih =>
    obtain ⟨k, w⟩ := d
    obtain ⟨ha, hm⟩ := (mapSorted_cons k w m).mp h
    unfold mapDel
    split
    · simp only [mapGet]
      repeat' split
      all_goals first | rfl | omega
    · split
      · rename_i _ hk
        subst hk
        simp only [mapGet]
        by_cases hy : y < x
        · have : mapGet m y = none := mapGet_above m y fun c hc => Nat.lt_trans hy (ha c hc)
          simp [hy, Nat.ne_of_lt hy, this]
        · by_cases hy' : y = x
          · subst hy'; simp [mapGet_above m y ha]
          · simp [hy, hy']
      · simp only [mapGet, ih hm]
        repeat' split
        all_goals first | rfl | omega

/-- A map with a default reads at a key what was put there, and elsewhere as before. -/
theorem mapGet_mapPut {α : Type} [DecidableEq α] (d : α) (m : SMap α) (x y : Nat) (v : α) (h : mapSorted m = true) :
    (mapGet (mapPut d m x v) y).getD d = if y = x then v else (mapGet m y).getD d := by
  unfold mapPut
  split
  · rename_i hv
    rw [mapGet_mapDel m x y h]
    split <;> simp [hv]
  · rw [mapGet_mapSet m x y v h]
    split <;> simp

/-- A map that lists no default lists none after a put. -/
theorem mapPut_all_ne {α : Type} [DecidableEq α] (d : α) (m : SMap α) (x : Nat) (v : α) (h : ∀ c ∈ m, c.2 ≠ d) :
    ∀ c ∈ mapPut d m x v, c.2 ≠ d := by
  intro c hc
  unfold mapPut at hc
  split at hc
  · exact h c (mem_mapDel m x c hc)
  · rename_i hv
    rcases mem_mapSet m x v c hc with rfl | hc
    · exact hv
    · exact h c hc

/-! ### Sets -/

theorem setSorted_cons (k : Nat) (s : List Nat) : setSorted (k :: s) = true ↔ (∀ c ∈ s, k < c) ∧ setSorted s = true := by
  induction s generalizing k with
  | nil => simp [setSorted]
  | cons b s ih =>
    simp only [setSorted, Bool.and_eq_true, decide_eq_true_eq]
    constructor
    · rintro ⟨h, hs⟩
      refine ⟨fun c hc => ?_, hs⟩
      rcases List.mem_cons.mp hc with rfl | hc
      · exact h
      · exact Nat.lt_trans h (((ih b).mp hs).1 c hc)
    · rintro ⟨h, hs⟩
      exact ⟨h b (List.mem_cons_self ..), hs⟩

theorem mem_setAdd (s : List Nat) (x : Nat) : ∀ c ∈ setAdd s x, c = x ∨ c ∈ s := by
  induction s with
  | nil => simp [setAdd]
  | cons k s ih =>
    intro c hc
    unfold setAdd at hc
    split at hc
    · simpa using hc
    · split at hc
      · exact .inr hc
      · rcases List.mem_cons.mp hc with h | h
        · exact .inr (by simp [h])
        · exact (ih c h).imp id (List.mem_cons_of_mem _)

theorem mem_setDel (s : List Nat) (x : Nat) : ∀ c ∈ setDel s x, c ∈ s := by
  induction s with
  | nil => simp [setDel]
  | cons k s ih =>
    intro c hc
    unfold setDel at hc
    split at hc
    · exact hc
    · split at hc
      · exact List.mem_cons_of_mem _ hc
      · rcases List.mem_cons.mp hc with h | h
        · simp [h]
        · exact List.mem_cons_of_mem _ (ih c h)

theorem setAdd_sorted (s : List Nat) (x : Nat) (h : setSorted s = true) : setSorted (setAdd s x) = true := by
  induction s with
  | nil => rfl
  | cons k s ih =>
    obtain ⟨ha, hs⟩ := (setSorted_cons k s).mp h
    unfold setAdd
    split
    · rename_i hx
      refine (setSorted_cons x _).mpr ⟨fun c hc => ?_, h⟩
      rcases List.mem_cons.mp hc with rfl | hc
      · exact hx
      · exact Nat.lt_trans hx (ha c hc)
    · split
      · exact h
      · refine (setSorted_cons k _).mpr ⟨fun c hc => ?_, ih hs⟩
        rcases mem_setAdd s x c hc with rfl | hc
        · omega
        · exact ha c hc

theorem setDel_sorted (s : List Nat) (x : Nat) (h : setSorted s = true) : setSorted (setDel s x) = true := by
  induction s with
  | nil => rfl
  | cons k s ih =>
    obtain ⟨ha, hs⟩ := (setSorted_cons k s).mp h
    unfold setDel
    split
    · exact h
    · split
      · exact hs
      · exact (setSorted_cons k _).mpr ⟨fun c hc => ha c (mem_setDel s x c hc), ih hs⟩

theorem setHas_above (s : List Nat) (x : Nat) (h : ∀ c ∈ s, x < c) : setHas s x = false := by
  cases s with
  | nil => rfl
  | cons c s => simp [setHas, h c (List.mem_cons_self ..)]

theorem setHas_setAdd (s : List Nat) (x y : Nat) : setHas (setAdd s x) y = (decide (y = x) || setHas s y) := by
  induction s with
  | nil =>
    simp only [setAdd, setHas]
    repeat' split
    all_goals simp_all
    all_goals omega
  | cons k s ih =>
    unfold setAdd
    repeat' split
    all_goals simp only [setHas, ih]
    all_goals repeat' split
    all_goals simp_all
    all_goals omega

theorem setHas_setDel (s : List Nat) (x y : Nat) (h : setSorted s = true) :
    setHas (setDel s x) y = (!decide (y = x) && setHas s y) := by
  induction s with
  | nil => simp [setDel, setHas]
  | cons k s ih =>
    obtain ⟨ha, hs⟩ := (setSorted_cons k s).mp h
    unfold setDel
    split
    · simp only [setHas]
      repeat' split
      all_goals simp_all
      all_goals omega
    · split
      · rename_i _ hk
        subst hk
        simp only [setHas]
        by_cases hy : y < x
        · simp [hy, setHas_above s y fun c hc => Nat.lt_trans hy (ha c hc)]
        · by_cases hy' : y = x
          · subst hy'; simp [setHas_above s y ha]
          · simp [hy, hy']
      · simp only [setHas, ih hs]
        repeat' split
        all_goals simp_all
        all_goals omega

/-! ### Memories with poison -/

theorem Mem.wf_iff (m : Mem) :
    m.wf = true ↔ mapSorted m.cells = true ∧ (∀ c ∈ m.cells, c.2 ≠ 0) ∧ setSorted m.marks = true := by
  simp [Mem.wf, and_assoc]

@[simp] theorem Mem.empty_wf : Mem.empty.wf = true := rfl

/-- A memory with nothing listed reads zero bytes. -/
@[simp] theorem Mem.empty_byte (a : Nat) : Mem.empty.byte a = 0 := rfl

/-- A read after a write of one byte. -/
theorem Mem.byte_put (m : Mem) (a x : Nat) (b : Byte) (h : m.wf = true) :
    (m.put a b).byte x = if x = a then b else m.byte x :=
  mapGet_mapPut 0 m.cells a x b ((Mem.wf_iff m).mp h).1

@[simp] theorem Mem.put_marks (m : Mem) (a : Nat) (b : Byte) : (m.put a b).marks = m.marks := rfl
@[simp] theorem Mem.mark_cells (dp : Bool) (m : Mem) (u : Nat) (p : Bool) : (m.mark dp u p).cells = m.cells := rfl
@[simp] theorem Mem.mark_byte (dp : Bool) (m : Mem) (u : Nat) (p : Bool) (a : Nat) : (m.mark dp u p).byte a = m.byte a := rfl
@[simp] theorem Mem.zeroUnit_marks (m : Mem) (u n : Nat) : (m.zeroUnit u n).marks = m.marks := rfl
@[simp] theorem Mem.put_poisoned (m : Mem) (a : Nat) (b : Byte) (dp : Bool) (u x : Nat) :
    (m.put a b).poisoned dp u x = m.poisoned dp u x := rfl

theorem Mem.put_wf (m : Mem) (a : Nat) (b : Byte) (h : m.wf = true) : (m.put a b).wf = true := by
  obtain ⟨h1, h2, h3⟩ := (Mem.wf_iff m).mp h
  exact (Mem.wf_iff _).mpr ⟨mapPut_sorted 0 m.cells a b h1, mapPut_all_ne 0 m.cells a b h2, h3⟩

theorem Mem.mark_wf (dp : Bool) (m : Mem) (u : Nat) (p : Bool) (h : m.wf = true) : (m.mark dp u p).wf = true := by
  obtain ⟨h1, h2, h3⟩ := (Mem.wf_iff m).mp h
  refine (Mem.wf_iff _).mpr ⟨h1, h2, ?_⟩
  unfold Mem.mark
  by_cases hp : p = dp
  · simpa [hp] using setDel_sorted m.marks u h3
  · simpa [hp] using setAdd_sorted m.marks u h3

/-- The unit marked has the mark, and every other unit the mark it had. -/
theorem Mem.mark_poisoned (dp : Bool) (m : Mem) (n : Nat) (p : Bool) (u a : Nat) (h : m.wf = true) :
    (m.mark dp n p).poisoned dp u a = if a / u = n then p else m.poisoned dp u a := by
  obtain ⟨_, _, h3⟩ := (Mem.wf_iff m).mp h
  unfold Mem.mark Mem.poisoned
  by_cases hp : p = dp
  · subst hp
    simp only [if_true, setHas_setDel _ _ _ h3]
    by_cases hu : a / u = n <;> simp [hu]
  · simp only [hp, if_false, setHas_setAdd]
    by_cases hu : a / u = n
    · cases p <;> cases dp <;> simp_all
    · simp [hu]

theorem Mem.zeroUnit_wf (u n : Nat) (m : Mem) (h : m.wf = true) : (m.zeroUnit u n).wf = true := by
  obtain ⟨h1, h2, h3⟩ := (Mem.wf_iff m).mp h
  exact (Mem.wf_iff _).mpr ⟨filter_sorted _ _ h1, fun c hc => h2 c ((List.mem_filter.mp hc).1), h3⟩

theorem Mem.putAll_wf (ws : List BW) (m : Mem) (h : m.wf = true) : (m.putAll ws).wf = true := by
  induction ws generalizing m with
  | nil => exact h
  | cons w ws ih =>
    obtain ⟨a, _ | b⟩ := w
    · exact ih m h
    · exact ih _ (m.put_wf a b h)

/-- Bytes that no write of the list names read as before. -/
theorem Mem.putAll_byte (ws : List BW) (m : Mem) (x : Nat) (h : m.wf = true) (hx : ∀ w ∈ ws, w.1 ≠ x) :
    (m.putAll ws).byte x = m.byte x := by
  induction ws generalizing m with
  | nil => rfl
  | cons w ws ih =>
    have ht : ∀ w ∈ ws, w.1 ≠ x := fun w hw => hx w (List.mem_cons_of_mem _ hw)
    obtain ⟨a, _ | b⟩ := w
    · exact ih m h ht
    · have ha : x ≠ a := (hx (a, some b) (List.mem_cons_self ..)).symm
      exact (ih _ (m.put_wf a b h) ht).trans ((m.byte_put a x b h).trans (by simp [ha]))

@[simp] theorem Mem.putAll_marks (ws : List BW) (m : Mem) : (m.putAll ws).marks = m.marks := by
  induction ws generalizing m with
  | nil => rfl
  | cons w ws ih =>
    obtain ⟨a, _ | b⟩ := w
    · exact ih m
    · exact ih _

theorem Mem.storeUnit_wf (dp : Bool) (u : Nat) (ws : List BW) (m : Mem) (n : Nat) (h : m.wf = true) :
    (m.storeUnit dp u ws n).wf = true := by
  unfold Mem.storeUnit
  dsimp only
  split
  · exact Mem.mark_wf _ _ _ _ (Mem.zeroUnit_wf _ _ _ h)
  · refine Mem.mark_wf _ _ _ _ (Mem.putAll_wf _ _ ?_)
    split
    · exact Mem.zeroUnit_wf _ _ _ h
    · exact h

/-- Some steps over a list keep what each of them keeps. -/
theorem foldl_keeps {α β : Type} (P : α → Prop) (f : α → β → α) (l : List β) (a : α) (h : P a) (hf : ∀ a b, P a → P (f a b)) :
    P (l.foldl f a) := by
  induction l generalizing a with
  | nil => exact h
  | cons b l ih => exact ih _ (hf a b h)

/-- A store keeps the form. -/
theorem Mem.store_wf (dp : Bool) (u : Nat) (m : Mem) (ws : List BW) (h : m.wf = true) : (m.store dp u ws).wf = true :=
  foldl_keeps (fun m => Mem.wf m = true) _ _ _ h fun m n hm => Mem.storeUnit_wf dp u ws m n hm

/-- What `zeroUnit` leaves alone: the bytes of the other units. -/
theorem Mem.zeroUnit_byte (u n : Nat) (m : Mem) (x : Nat) (h : m.wf = true) (hx : x / u ≠ n) : (m.zeroUnit u n).byte x = m.byte x := by
  obtain ⟨hs, -, -⟩ := (Mem.wf_iff m).mp h
  unfold Mem.byte Mem.zeroUnit
  simp only
  congr 1
  generalize m.cells = l at hs
  induction l with
  | nil => rfl
  | cons d l ih =>
    obtain ⟨k, w⟩ := d
    obtain ⟨ha, hm⟩ := (mapSorted_cons k w l).mp hs
    by_cases hk : k / u = n
    · rw [List.filter_cons_of_neg (by simp [hk]), ih hm]
      have hne : x ≠ k := fun e => hx (e ▸ hk)
      by_cases hlt : x < k
      · simp [mapGet, hlt, mapGet_above l x fun c hc => Nat.lt_trans hlt (ha c hc)]
      · simp [mapGet, hlt, hne]
    · rw [List.filter_cons_of_pos (by simp [hk])]
      simp only [mapGet, ih hm]

/-- A store into one unit leaves every other unit as it was. -/
theorem Mem.storeUnit_get (dp : Bool) (u : Nat) (ws : List BW) (m : Mem) (n x : Nat) (h : m.wf = true) (hx : x / u ≠ n) :
    (m.storeUnit dp u ws n).byte x = m.byte x ∧ (m.storeUnit dp u ws n).poisoned dp u x = m.poisoned dp u x := by
  have hz := Mem.zeroUnit_wf u n m h
  unfold Mem.storeUnit
  dsimp only
  split
  · refine ⟨by simpa using Mem.zeroUnit_byte u n m x h hx, ?_⟩
    rw [Mem.mark_poisoned _ _ _ _ _ _ hz, if_neg hx]; rfl
  · have hb : ∀ m' : Mem, m'.wf = true →
        (m'.putAll (ws.filter fun w => w.1 / u = n)).byte x = m'.byte x := fun m' h' =>
      Mem.putAll_byte _ _ _ h' fun w hw e => hx (by simpa [← e] using (List.mem_filter.mp hw).2)
    split
    · refine ⟨by simpa [hb _ hz] using Mem.zeroUnit_byte u n m x h hx, ?_⟩
      rw [Mem.mark_poisoned _ _ _ _ _ _ (Mem.putAll_wf _ _ hz), if_neg hx]
      simp [Mem.poisoned]
    · refine ⟨by simp [hb _ h], ?_⟩
      rw [Mem.mark_poisoned _ _ _ _ _ _ (Mem.putAll_wf _ _ h), if_neg hx]
      simp [Mem.poisoned]

/-- A store leaves every unit that it does not touch as it was. -/
theorem Mem.store_get (dp : Bool) (u : Nat) (m : Mem) (ws : List BW) (x : Nat) (h : m.wf = true)
    (hx : x / u ∉ unitsOf u ws) :
    (m.store dp u ws).byte x = m.byte x ∧ (m.store dp u ws).poisoned dp u x = m.poisoned dp u x := by
  unfold Mem.store
  generalize unitsOf u ws = us at hx
  induction us generalizing m with
  | nil => exact ⟨rfl, rfl⟩
  | cons n us ih =>
    have h1 := Mem.storeUnit_get dp u ws m n x h fun e => hx (e ▸ List.mem_cons_self ..)
    have h2 := ih (m.storeUnit dp u ws n) (Mem.storeUnit_wf dp u ws m n h) fun hm => hx (List.mem_cons_of_mem _ hm)
    exact ⟨h2.1.trans h1.1, h2.2.trans h1.2⟩

/-! ### The memories of a core and of the machine -/

theorem Core.memWf_iff (c : Core) : c.memWf = true ↔ c.ab.wf = true ∧ c.wb.wf = true ∧ c.sdm.wf = true ∧ c.sdm0.wf = true
    ∧ mapSorted c.mrf = true ∧ ∀ x, c.bank = some x → mapSorted x.mrf = true := by
  unfold Core.memWf
  cases c.bank <;> simp [and_assoc]

theorem State.memWf_iff (s : State) : s.memWf = true ↔ s.hbm.wf = true ∧ mapSorted s.host = true ∧ mapSorted s.peer = true
    ∧ (∀ c ∈ s.cores.toList, Core.memWf c = true) ∧ ∀ u ∈ s.undo, u.2.memWf = true := by
  unfold State.memWf
  simp only [Bool.and_eq_true, List.all_eq_true, and_assoc]

/-- A store into a buffer keeps the form. -/
theorem Core.bufStore_memWf (c : Core) (b : Buf) (ws : List BW) (h : c.memWf = true) : (c.bufStore b ws).memWf = true := by
  obtain ⟨h1, h2, h3, h4, h5, h6⟩ := (Core.memWf_iff c).mp h
  cases b
  · exact (Core.memWf_iff _).mpr ⟨Mem.store_wf _ _ _ _ h1, h2, h3, h4, h5, h6⟩
  · exact (Core.memWf_iff _).mpr ⟨h1, Mem.store_wf _ _ _ _ h2, h3, h4, h5, h6⟩
  · exact (Core.memWf_iff _).mpr ⟨h1, h2, Mem.store_wf _ _ _ _ h3, h4, h5, h6⟩
  · exact h

/-- A core in form put in place of another keeps the form. -/
theorem State.setCore_memWf (s : State) (c : Nat) (v : Core) (h : s.memWf = true) (hv : v.memWf = true) :
    (s.setCore c v).memWf = true := by
  obtain ⟨h1, h2, h3, h4, h5⟩ := (State.memWf_iff s).mp h
  refine (State.memWf_iff _).mpr ⟨h1, h2, h3, fun x hx => ?_, h5⟩
  simp only [State.setCore, Vector.toList_set] at hx
  rcases List.mem_or_eq_of_mem_set hx with hx | hx
  · exact h4 x hx
  · exact hx ▸ hv

/-- Every core of a machine in form is. -/
theorem State.core_memWf (s : State) (c : Nat) (h : s.memWf = true) : (s.core c).memWf = true := by
  obtain ⟨-, -, -, h4, -⟩ := (State.memWf_iff s).mp h
  exact h4 _ (by simp [State.core])

/-- Only the memories and the cores matter to the form. -/
theorem State.memWf_congr (s t : State) (h1 : s.hbm = t.hbm) (h2 : s.host = t.host) (h3 : s.peer = t.peer) (h4 : s.cores = t.cores)
    (h5 : s.undo = t.undo) : s.memWf = t.memWf := by
  unfold State.memWf
  rw [h1, h2, h3, h4, h5]

@[simp] theorem State.setPart_memWf (s : State) (p : Nat) (v : Part) : (s.setPart p v).memWf = s.memWf := rfl
@[simp] theorem State.schedule_memWf (s : State) (n : Nat) (e : Instr) : (s.schedule n e).memWf = s.memWf := rfl
@[simp] theorem State.cancel_memWf (s : State) (f : Instr → Bool) : (s.cancel f).memWf = s.memWf := rfl
@[simp] theorem State.emit_memWf (s : State) (o : Output) : (s.emit o).memWf = s.memWf := rfl
@[simp] theorem State.interrupt_memWf (s : State) (p v : Nat) : (s.interrupt p v).memWf = s.memWf :=
  State.memWf_congr _ _ (by simp) (by simp) (by simp) (by simp) (by simp)
@[simp] theorem State.tick_memWf (s : State) : s.tick.memWf = s.memWf := rfl
@[simp] theorem State.sediment_memWf (s : State) (k p c : Nat) (f : Bool) (bs : List Byte) :
    (s.sediment k p c f bs).memWf = s.memWf := rfl
@[simp] theorem State.flashCopy_memWf (s : State) : s.flashCopy.memWf = s.memWf := by
  unfold State.flashCopy
  split <;> rfl
@[simp] theorem State.sedFault_memWf (s : State) (p : Nat) (f : FaultInfo) (n : Nat) : (s.sedFault p f n).memWf = s.memWf := by
  unfold State.sedFault
  split <;> rfl
@[simp] theorem State.noteFault_memWf (s : State) (p : Nat) (f : FaultInfo) : (s.noteFault p f).memWf = s.memWf := by
  unfold State.noteFault
  dsimp only
  cases (s.part p).frec <;> (dsimp only; split <;> simp)
@[simp] theorem State.notify_memWf (s : State) (h : Home) (n : Nat) : (s.notify h n).memWf = s.memWf := by
  unfold State.notify
  split
  · exact foldl_keeps (fun t : State => t.memWf = s.memWf) _ _ _ rfl fun t _ ht => ht
  · rfl

/-- The memory after reset is in form: nothing is listed. -/
theorem State.reset_memWf : State.reset.memWf = true := by
  refine (State.memWf_iff _).mpr ⟨rfl, rfl, rfl, fun c hc => ?_, fun u hu => by cases hu⟩
  have : c = Core.reset := by
    have := List.eq_of_mem_replicate (show c ∈ List.replicate 96 Core.reset by simpa [State.reset] using hc)
    exact this
  subst this
  rfl

@[simp] theorem State.tellGroup_memWf (s : State) (p : Nat) : (s.tellGroup p).memWf = s.memWf := by
  unfold State.tellGroup
  split <;> simp

/-- A fault taken touches no memory. -/
@[simp] theorem State.takeFault_memWf (s : State) (p k : Nat) (f : FaultInfo) : (s.takeFault p k f).memWf = s.memWf := by
  unfold State.takeFault
  dsimp only
  split <;> simp

/-- The start of an abort touches no memory. -/
@[simp] theorem State.beginAbort_memWf (s : State) (p : Nat) (f : FaultInfo) : (s.beginAbort p f).memWf = s.memWf := by
  unfold State.beginAbort
  dsimp only
  split <;> simp

/-- What a map holds under a key is one of its entries. -/
theorem mapGet_mem {α : Type} (m : SMap α) (x : Nat) (v : α) (h : mapGet m x = some v) : ∃ d ∈ m, d.2 = v := by
  induction m with
  | nil => cases h
  | cons d m ih =>
    obtain ⟨k, w⟩ := d
    simp only [mapGet] at h
    repeat' split at h
    all_goals first
      | (cases h; done)
      | exact ⟨(k, w), List.mem_cons_self .., Option.some.inj h⟩
      | (obtain ⟨d, hd, hv⟩ := ih h; exact ⟨d, List.mem_cons_of_mem _ hd, hv⟩)

/-- A deletion leaves entries of the map only. -/
theorem mapDel_mem {α : Type} (m : SMap α) (x : Nat) (d : Nat × α) (h : d ∈ mapDel m x) : d ∈ m := by
  induction m with
  | nil => exact h
  | cons e m ih =>
    obtain ⟨k, w⟩ := e
    simp only [mapDel] at h
    repeat' split at h
    all_goals first
      | exact h
      | exact List.mem_cons_of_mem _ h
      | (rcases List.mem_cons.mp h with h | h
         · exact h ▸ List.mem_cons_self ..
         · exact List.mem_cons_of_mem _ (ih h))

/-- A core goes back to how it stood before its first word of the tick: both are in form. -/
theorem State.undoCore_memWf (s : State) (c : Fin 96) (t : Nat) (h : s.memWf = true) : (s.undoCore c t).memWf = true := by
  have h5 := ((State.memWf_iff s).mp h).2.2.2.2
  have hb : ((mapGet s.undo c.val).getD (s.core c)).memWf = true := by
    cases hg : mapGet s.undo c.val with
    | none => exact s.core_memWf c h
    | some b =>
      obtain ⟨d, hd, hv⟩ := mapGet_mem _ _ _ hg
      exact hv ▸ h5 d hd
  have key : ∀ u : State, u.memWf = true → ∀ b : Core, b.memWf = true → ∀ l : SMap Core, (∀ d ∈ l, d.2.memWf = true) →
      State.memWf { (u.setCore c { b with halted := true }) with undo := l } = true := fun u hu b hb l hl => by
    obtain ⟨g1, g2, g3, g4, -⟩ := (State.memWf_iff _).mp (u.setCore_memWf c { b with halted := true } hu hb)
    exact (State.memWf_iff _).mpr ⟨g1, g2, g3, g4, hl⟩
  exact key _ (by simpa using h) _ hb _ fun d hd => h5 d (mapDel_mem _ _ _ hd)

theorem State.undoTick_memWf (s : State) (c : Fin 96) (h : s.memWf = true) : (s.undoTick c).memWf = true := s.undoCore_memWf c _ h

/-- A trap keeps the form. -/
theorem State.trap_memWf (s : State) (t : Trap) (h : s.memWf = true) : (s.trap t).memWf = true := by
  unfold State.trap
  simpa using s.undoTick_memWf _ h

theorem mapSet_foldl_sorted {α β : Type} (l : List β) (k : β → Nat) (v : β → α) (m : SMap α) (h : mapSorted m = true) :
    mapSorted (l.foldl (fun m w => mapSet m (k w) (v w)) m) = true :=
  foldl_keeps (fun m => mapSorted m = true) _ _ _ h fun m w hm => mapSet_sorted m (k w) (v w) hm

/-- A store into HBM keeps the form. -/
theorem State.hbmStore_memWf (s : State) (ws : List BW) (h : s.memWf = true) :
    State.memWf { s with hbm := s.hbm.store false 64 ws } = true := by
  obtain ⟨h1, h2⟩ := (State.memWf_iff s).mp h
  exact (State.memWf_iff _).mpr ⟨Mem.store_wf _ _ _ _ h1, h2⟩

theorem State.journalOne_memWf (s : State) (p g : Nat) (h : s.memWf = true) : (s.journalOne p g).memWf = true := by
  unfold State.journalOne
  dsimp only
  repeat' split
  all_goals first | exact h | exact State.hbmStore_memWf (s.setPart p _) _ h

/-- The journal keeps the form. -/
theorem State.journalise_memWf (s : State) (p : Nat) (gs : List Nat) (h : s.memWf = true) : (s.journalise p gs).memWf = true :=
  foldl_keeps (fun t : State => t.memWf = true) _ _ _ h fun t g ht => t.journalOne_memWf p g ht

/-- Bytes written at a home keep the form. -/
theorem State.homeWrite_memWf (s : State) (w : Writer) (h : Home) (bs : List (Option Byte)) (hs : s.memWf = true) :
    (s.homeWrite w h bs).memWf = true := by
  unfold State.homeWrite
  cases h with
  | hbm pa =>
    simp only [State.notify_memWf]
    refine State.hbmStore_memWf _ _ ?_
    split
    · exact s.journalise_memWf _ _ hs
    · exact hs
  | host ba =>
    dsimp only
    split
    · exact hs
    · simp only [State.notify_memWf, State.emit_memWf]
      obtain ⟨h1, h2, h3⟩ := (State.memWf_iff s).mp hs
      exact (State.memWf_iff _).mpr ⟨h1, mapSet_foldl_sorted _ _ _ _ h2, h3⟩
  | peer x y z pa =>
    dsimp only
    split
    · exact hs
    · simp only [State.notify_memWf, State.emit_memWf]
      obtain ⟨h1, h2, h3, h4⟩ := (State.memWf_iff s).mp hs
      exact (State.memWf_iff _).mpr ⟨h1, h2, foldl_keeps (fun m => mapSorted m = true) _ _ _ h3
        fun m g hm => mapSet_foldl_sorted _ _ _ _ hm, h4⟩

theorem State.homeWrites_memWf (hs : List (Home × Nat)) (s : State) (w : Writer) (bs : List (Option Byte)) (h : s.memWf = true) :
    (s.homeWrites w hs bs).memWf = true := by
  induction hs generalizing s bs with
  | nil => exact h
  | cons x hs ih =>
    obtain ⟨h', n⟩ := x
    exact ih _ _ (s.homeWrite_memWf w h' _ h)

end Sys2Proof.Machine
end

