-- ==== Sys2Proof/Laws/Frame.lean ====
section
/-! SUPPORT. What a word can do at its issue tick, said once: the machine beside its core stays as it is, and so do the data of
the core as long as it runs. One lemma for each operation that the meanings of words are made of. -/

namespace Sys2Proof.Machine

/-! ### Updates that keep the data of a core -/

theorem Core.sameData_refl (a : Core) : a.sameData a := ⟨rfl, rfl, rfl, rfl, rfl, rfl, rfl, rfl, rfl, rfl, rfl, rfl, rfl, rfl, rfl⟩

theorem Core.sameData_trans (a b c : Core) (h : a.sameData b) (k : b.sameData c) : a.sameData c := by
  obtain ⟨a1, a2, a3, a4, a5, a6, a7, a8, a9, a10, a11, a12, a13, a14, a15⟩ := h
  obtain ⟨b1, b2, b3, b4, b5, b6, b7, b8, b9, b10, b11, b12, b13, b14, b15⟩ := k
  exact ⟨a1.trans b1, a2.trans b2, a3.trans b3, a4.trans b4, a5.trans b5, a6.trans b6, a7.trans b7, a8.trans b8, a9.trans b9,
    a10.trans b10, a11.trans b11, a12.trans b12, a13.trans b13, a14.trans b14, a15.trans b15⟩

theorem Core.sameData_symm (a b : Core) (h : a.sameData b) : b.sameData a := by
  obtain ⟨a1, a2, a3, a4, a5, a6, a7, a8, a9, a10, a11, a12, a13, a14, a15⟩ := h
  exact ⟨a1.symm, a2.symm, a3.symm, a4.symm, a5.symm, a6.symm, a7.symm, a8.symm, a9.symm, a10.symm, a11.symm, a12.symm,
    a13.symm, a14.symm, a15.symm⟩

/-! ### The relation -/

/-- From s to t a word of core c has changed nothing but core c, partitions, agenda, outputs and counters; where core c still runs
in t, it ran in s, and its data are the same; memories in form stay so. -/
structure State.Keeps (c : Fin 96) (s t : State) : Prop where
  mem : s.sameMemory t
  others : ∀ d : Fin 96, d ≠ c → t.core d = s.core d
  now : t.now = s.now
  slot : t.slot = s.slot
  runs : (t.core c).halted = false → (s.core c).halted = false
  data : (t.core c).halted = false → (s.core c).sameData (t.core c)
  wf : s.memWf = true → t.memWf = true

theorem State.Keeps.refl (c : Fin 96) (s : State) : s.Keeps c s :=
  ⟨⟨rfl, rfl, rfl⟩, fun _ _ => rfl, rfl, rfl, id, fun _ => Core.sameData_refl _, id⟩

theorem State.Keeps.trans {c : Fin 96} {s t u : State} (h : s.Keeps c t) (k : t.Keeps c u) : s.Keeps c u where
  mem := ⟨h.mem.1.trans k.mem.1, h.mem.2.1.trans k.mem.2.1, h.mem.2.2.trans k.mem.2.2⟩
  others d hd := (k.others d hd).trans (h.others d hd)
  now := k.now.trans h.now
  slot := k.slot.trans h.slot
  runs hu := h.runs (k.runs hu)
  data hu := Core.sameData_trans _ _ _ (h.data (k.runs hu)) (k.data hu)
  wf hs := k.wf (h.wf hs)

theorem Fin.ofNat_val96 (c : Fin 96) : Fin.ofNat 96 c.val = c := by
  apply Fin.ext; simp [Fin.ofNat, Nat.mod_eq_of_lt c.isLt]

theorem State.core_set_ne (s : State) (c d : Fin 96) (v : Core) (h : d ≠ c) : (s.setCore c v).core d = s.core d := by
  rw [State.core_setCore, if_neg]
  intro e
  rw [Fin.ofNat_val96, Fin.ofNat_val96] at e
  exact h e.symm

/-- A new core in place c that keeps the data, or is halted. -/
theorem State.Keeps.setCore (s : State) (c : Fin 96) (v : Core) (hr : v.halted = false → (s.core c).halted = false)
    (hd : v.halted = false → (s.core c).sameData v) (hw : (s.core c).memWf = true → v.memWf = true) :
    s.Keeps c (s.setCore c v) where
  mem := ⟨rfl, rfl, rfl⟩
  others d h := s.core_set_ne c d v h
  now := rfl
  slot := rfl
  runs := by rw [State.core_setCore_self]; exact hr
  data := by rw [State.core_setCore_self]; exact hd
  wf hs := s.setCore_memWf c v hs (hw (s.core_memWf c hs))

/-- Nothing that the relation speaks of changes. -/
theorem State.Keeps.congr (c : Fin 96) (s t : State) (h1 : t.hbm = s.hbm) (h2 : t.host = s.host) (h3 : t.peer = s.peer)
    (h4 : t.cores = s.cores) (h5 : t.undo = s.undo) (h6 : t.now = s.now) (h7 : t.slot = s.slot) : s.Keeps c t where
  mem := ⟨h1.symm, h2.symm, h3.symm⟩
  others d _ := by simp only [State.core, h4]
  now := h6
  slot := h7
  runs h := by simpa only [State.core, h4] using h
  data _ := by
    have : t.core c = s.core c := by simp only [State.core, h4]
    rw [this]; exact Core.sameData_refl _
  wf hs := by rw [State.memWf_congr t s h1 h2 h3 h4 h5]; exact hs

theorem State.Keeps.setPart (c : Fin 96) (s : State) (p : Nat) (v : Part) : s.Keeps c (s.setPart p v) :=
  .congr c s _ rfl rfl rfl rfl rfl rfl rfl
theorem State.Keeps.schedule (c : Fin 96) (s : State) (n : Nat) (e : Instr) : s.Keeps c (s.schedule n e) :=
  .congr c s _ rfl rfl rfl rfl rfl rfl rfl
theorem State.Keeps.emit (c : Fin 96) (s : State) (o : Output) : s.Keeps c (s.emit o) :=
  .congr c s _ rfl rfl rfl rfl rfl rfl rfl
theorem State.Keeps.sediment (c : Fin 96) (s : State) (k p d : Nat) (f : Bool) (bs : List Byte) : s.Keeps c (s.sediment k p d f bs) :=
  .congr c s _ rfl rfl rfl rfl rfl rfl rfl
theorem State.Keeps.sedFault (c : Fin 96) (s : State) (p : Nat) (f : FaultInfo) (n : Nat) : s.Keeps c (s.sedFault p f n) := by
  unfold State.sedFault
  split <;> exact .sediment ..

theorem State.Keeps.flashCopy (c : Fin 96) (s : State) : s.Keeps c s.flashCopy := by
  unfold State.flashCopy
  split
  · exact .congr c s _ rfl rfl rfl rfl rfl rfl rfl
  · exact .congr c s _ rfl rfl rfl rfl rfl rfl rfl

theorem State.Keeps.tellGroup (c : Fin 96) (s : State) (p : Nat) : s.Keeps c (s.tellGroup p) := by
  unfold State.tellGroup
  split
  · exact .emit ..
  · exact .refl ..

/-- The note that is taken of a fault. -/
theorem State.Keeps.noteFault (c : Fin 96) (s : State) (p : Nat) (f : FaultInfo) : s.Keeps c (s.noteFault p f) := by
  have k : ∀ t : State, s.Keeps c t → s.Keeps c (if f.cls = 4 then t.flashCopy else t) := fun t h => by
    split
    · exact .trans h (.flashCopy ..)
    · exact h
  unfold State.noteFault
  dsimp only
  cases (s.part p).frec with
  | some r => exact k _ (.trans (.setPart ..) (.sedFault ..))
  | none => exact k _ (.sedFault ..)

/-- A fault taken by its partition. -/
theorem State.Keeps.takeFault (c : Fin 96) (s : State) (p k : Nat) (f : FaultInfo) : s.Keeps c (s.takeFault p k f) := by
  unfold State.takeFault
  dsimp only
  split <;> exact .trans (.noteFault ..) (.setPart ..)

/-- The start of an abort. -/
theorem State.Keeps.beginAbort (c : Fin 96) (s : State) (p : Nat) (f : FaultInfo) : s.Keeps c (s.beginAbort p f) := by
  unfold State.beginAbort
  dsimp only
  split
  · exact .trans (.takeFault ..) (.tellGroup ..)
  · exact .takeFault ..

/-- The core goes back to the start of the tick, and halts. -/
theorem State.Keeps.undoTick (c : Fin 96) (s : State) : s.Keeps c (s.undoTick c) where
  mem := ⟨rfl, rfl, rfl⟩
  others d h := State.core_set_ne _ c d _ h
  now := rfl
  slot := rfl
  runs h := by simp [State.undoTick, State.undoCore, State.core, State.setCore] at h
  data h := by simp [State.undoTick, State.undoCore, State.core, State.setCore] at h
  wf := s.undoTick_memWf c

theorem State.undoTick_halted (s : State) (c : Fin 96) : ((s.undoTick c).core c).halted = true := by
  simp [State.undoTick, State.undoCore, State.core, State.setCore]

/-- A precise trap. -/
theorem State.Keeps.trap (s : State) (t : Trap) : s.Keeps s.slot.core (s.trap t) := .trans (.undoTick ..) (.beginAbort ..)

theorem State.Keeps.debugFreeze (s : State) (c : Fin 96) (e : Eng) : s.Keeps c (s.debugFreeze c e) := by
  unfold State.debugFreeze
  dsimp only
  split
  · exact .undoTick ..
  · exact .trans (.undoTick ..) (.trans (.setPart ..) (.tellGroup ..))

theorem Core.dropWord_memWf (c : Core) (x : Src) : (c.dropWord x).memWf = c.memWf := rfl

/-- A word stopped when a fault of it is found late. -/
theorem State.Keeps.stopWord (s : State) (c : Fin 96) (x : Src) (t : Trap) (cls : Nat) : s.Keeps c (s.stopWord c x t cls) :=
  .trans (.setCore s c (let d := (s.core c).dropWord x; { d with halted := true }) (fun h => absurd h (by simp))
    (fun h => absurd h (by simp)) id) (.trans (.setPart ..) (.beginAbort ..))

theorem State.Keeps.lateFault (s : State) (c : Fin 96) (x : Src) (t : Trap) : s.Keeps c (s.lateFault c x t) := .stopWord ..

theorem State.Keeps.freeze (s : State) (n : Nat) : s.Keeps s.slot.core (s.freeze n) :=
  .setCore s _ _ id (fun _ => ⟨rfl, rfl, rfl, rfl, rfl, rfl, rfl, rfl, rfl, rfl, rfl, rfl, rfl, rfl, rfl⟩) id

theorem State.Keeps.deviate (s : State) (t : Trap) (w : Bool) : s.Keeps s.slot.core (s.deviate t w) := by
  unfold State.deviate
  split
  · exact .freeze ..
  · exact .trap ..

theorem State.Keeps.bankTrap (s : State) (r : Nat) (y : Src) : s.Keeps s.slot.core (s.bankTrap r y) := by
  unfold State.bankTrap
  split
  · exact .trap ..
  · exact .trans (.undoTick ..) (.lateFault ..)

theorem Core.dueAll_keeps (x : Src) (t : Nat) (ds : List Due) (c : Core) :
    (c.dueAll x t ds).halted = c.halted ∧ c.sameData (c.dueAll x t ds) ∧ (c.dueAll x t ds).memWf = c.memWf := by
  induction ds generalizing c with
  | nil => exact ⟨rfl, Core.sameData_refl _, rfl⟩
  | cons d ds ih =>
    obtain ⟨o, r, a⟩ := d
    obtain ⟨h1, h2, h3⟩ := ih (c.due x (t + o) r a)
    exact ⟨h1, Core.sameData_trans _ _ _ ⟨rfl, rfl, rfl, rfl, rfl, rfl, rfl, rfl, rfl, rfl, rfl, rfl, rfl, rfl, rfl⟩ h2, h3⟩

/-- The issue of a word. -/
theorem State.Keeps.commit (s : State) (p : Plan) (ds : List Due) : s.Keeps s.slot.core (s.commit p ds) := by
  have hc := s.commit_sameData p ds
  refine .setCore s s.slot.core _ (fun h => ?_) (fun _ => ?_) fun h => ?_
  · rw [(Core.dueAll_keeps _ _ _ _).1] at h
    exact h
  · have : (s.commit p ds).core s.slot.core = _ := State.core_setCore_self ..
    rw [← this]
    exact Core.sameData_symm _ _ hc
  · rw [(Core.dueAll_keeps _ _ _ _).2.2]
    exact h

theorem State.Keeps.predicated (s : State) (p : Plan) : s.Keeps s.slot.core (s.predicated p) := by
  unfold State.predicated
  dsimp only
  repeat' split
  all_goals first | exact .trap .. | exact .commit ..

theorem State.Keeps.issue (s : State) (p : Plan) : s.Keeps s.slot.core (s.issue p) := by
  unfold State.issue
  repeat' split
  all_goals first | exact .trap .. | exact .deviate .. | exact .bankTrap .. | exact .predicated ..

theorem State.issue_slot (s : State) (p : Plan) : (s.issue p).slot = s.slot := (State.Keeps.issue s p).slot

/-- A word that does something else besides, which keeps the rest. -/
theorem State.Keeps.issueThen (s : State) (p : Plan) (f : State → State)
    (h : ∀ t : State, t.slot = s.slot → t.Keeps s.slot.core (f t)) : s.Keeps s.slot.core (s.issueThen p f) := by
  unfold State.issueThen
  split
  · exact .trans (.issue s p) (h _ (s.issue_slot p))
  · exact .issue s p

theorem State.Keeps.chargeBeat (c : Fin 96) (s : State) (out : Bool) (h : Home) (n o k l : Nat) :
    s.Keeps c (s.chargeBeat out h n o k l) := by
  unfold State.chargeBeat
  dsimp only
  repeat' split
  all_goals first | exact .setPart .. | exact .refl ..

theorem State.Keeps.addBeat (s : State) (out : Bool) (h : Home) (n o k l : Nat) :
    s.Keeps s.slot.core (s.addBeat out h n o k l) := by
  have key : ∀ fs, s.Keeps s.slot.core (s.setCore s.slot.core { s.core s.slot.core with flying := fs }) := fun fs =>
    .setCore s s.slot.core { s.core s.slot.core with flying := fs } id
      (fun _ => ⟨rfl, rfl, rfl, rfl, rfl, rfl, rfl, rfl, rfl, rfl, rfl, rfl, rfl, rfl, rfl⟩) id
  exact .trans (key _) (.chargeBeat ..)

/-- Some updates one after another, each at the core of the slot. -/
theorem State.Keeps.foldl {β : Type} (f : State → β → State) (hf : ∀ (s : State) b, s.Keeps s.slot.core (f s b)) (l : List β)
    (s : State) : s.Keeps s.slot.core (l.foldl f s) := by
  induction l generalizing s with
  | nil => exact .refl ..
  | cons b l ih =>
    have h := ih (f s b)
    rw [(hf s b).slot] at h
    exact .trans (hf s b) h

theorem State.Keeps.addBeats (s : State) (out : Bool) (k : Home → Nat) (bs : List (Nat × Nat × List (Home × Nat))) :
    s.Keeps s.slot.core (s.addBeats out k bs) := by
  induction bs generalizing s with
  | nil => exact .refl ..
  | cons b bs ih =>
    have h1 := State.Keeps.foldl (fun (s : State) p => s.addBeat out p.1 p.2 b.1 (k p.1) b.2.1) (fun s p => .addBeat ..) b.2.2 s
    have h2 := ih (b.2.2.foldl (fun (s : State) p => s.addBeat out p.1 p.2 b.1 (k p.1) b.2.1) s)
    rw [h1.slot] at h2
    exact .trans h1 h2

theorem State.Keeps.holdBeats (c : Fin 96) (s : State) (a n : Nat) : s.Keeps c (s.holdBeats a n) := by
  unfold State.holdBeats
  dsimp only
  repeat' split
  all_goals first | exact .setPart .. | exact .refl ..

theorem State.Keeps.setGM (s : State) (g : GM) : s.Keeps s.slot.core (s.setGM g) :=
  .setCore s _ _ id (fun _ => ⟨rfl, rfl, rfl, rfl, rfl, rfl, rfl, rfl, rfl, rfl, rfl, rfl, rfl, rfl, rfl⟩) id

theorem State.Keeps.setGates (s : State) (gs : List GateReg) : s.Keeps s.slot.core (s.setGates gs) :=
  .setCore s _ _ id (fun _ => ⟨rfl, rfl, rfl, rfl, rfl, rfl, rfl, rfl, rfl, rfl, rfl, rfl, rfl, rfl, rfl⟩) id

/-- An operation put among those under way. -/
theorem State.Keeps.newOp (s : State) (k : OpKind) (va : Nat) (h : Option Home) (hs : List Home) (sc : Scope) (rel : Bool) :
    s.Keeps s.slot.core (s.newOp k va h hs sc rel) := by
  have put : ∀ (os : List OutOp) (t : State), t.cores = (s.setCore s.slot.core { s.core s.slot.core with outb := os }).cores →
      t.hbm = s.hbm → t.host = s.host → t.peer = s.peer → t.undo = s.undo → t.now = s.now → t.slot = s.slot →
      s.Keeps s.slot.core t := fun os t h1 h2 h3 h4 h5 h6 h7 =>
    .trans (.setCore s s.slot.core { s.core s.slot.core with outb := os } id
      (fun _ => ⟨rfl, rfl, rfl, rfl, rfl, rfl, rfl, rfl, rfl, rfl, rfl, rfl, rfl, rfl, rfl⟩) id) (.congr _ _ _ h2 h3 h4 h1 h5 h6 h7)
  unfold State.newOp
  dsimp only
  repeat' split
  all_goals first
    | exact .refl ..
    | exact put _ _ rfl rfl rfl rfl rfl rfl rfl

/-- The beats that a receiving word takes leave the landing buffer. -/
theorem State.Keeps.takeUp (s : State) (path : Path) (peer : Nat) : s.Keeps s.slot.core (s.takeUp path peer) :=
  .setCore s _ _ id (fun _ => ⟨rfl, rfl, rfl, rfl, rfl, rfl, rfl, rfl, rfl, rfl, rfl, rfl, rfl, rfl, rfl⟩) id

/-- A gather or scatter of elements. -/
theorem State.Keeps.issueLoaded (s : State) (p : Plan) (l : List Nat) : s.Keeps s.slot.core (s.issueLoaded p l) := by
  unfold State.issueLoaded
  dsimp only
  split
  · exact .trans (.issue s p) (.setCore _ _ _ id
      (fun _ => ⟨rfl, rfl, rfl, rfl, rfl, rfl, rfl, rfl, rfl, rfl, rfl, rfl, rfl, rfl, rfl⟩) id)
  · exact .issue ..

/-- A receiving word. -/
theorem State.Keeps.receive (s t : State) (fr : Frame) (path : Path) (d : Desc) (dec : List (Option Trap))
    (dev : List (Option (Trap × Bool))) (span : Nat) (inc : List Due) (banks : List (Nat × List Nat)) (data : List (Option Trap))
    (jobs : List (Nat × Nat × RecvJob)) (h : s.receive fr path d dec dev span inc banks data jobs = .next t) :
    s.Keeps s.slot.core t := by
  have key : ∀ p : Plan, s.Keeps s.slot.core (if ((s.issue p).core s.slot.core).halted || ((s.issue p).core s.slot.core).stalled.isSome
      then s.issue p else (s.issue p).takeUp path d.peer) := by
    intro p
    split
    · exact .issue ..
    · exact .trans (.issue s p) (s.issue_slot p ▸ .takeUp ..)
  unfold State.receive at h
  injection h with h
  exact h ▸ key _

end Sys2Proof.Machine
end

