-- ==== Sys2Proof/Laws/Form.lean ====
section
/-! SUPPORT. That landings, contexts and copies of buffers keep the memories in form: one lemma for each operation. -/

namespace Sys2Proof.Machine

/-! ### Landing effects -/

theorem putSlot_sorted (fresh : Nat) (m : SMap W36) (w : SlotWrite) (h : mapSorted m = true) : mapSorted (putSlot fresh m w) = true := by
  unfold putSlot
  repeat' split
  all_goals first | exact h | exact mapSet_sorted _ _ _ h | exact mapDel_sorted _ _ h

theorem orBits_wf (ws : List (Nat × Byte)) (m : Mem) (h : m.wf = true) : (orBits m ws).wf = true := by
  induction ws generalizing m with
  | nil => exact h
  | cons w ws ih =>
    obtain ⟨a, b⟩ := w
    refine ih _ ?_
    split
    · exact h
    · exact Mem.put_wf _ _ _ h

/-- What a landing writes into a core keeps the form. -/
theorem Core.land_memWf (c : Core) (fresh : Nat) (e : Effect) (h : c.memWf = true) : (c.land fresh e).memWf = true := by
  obtain ⟨h1, h2, h3, h4, h5, h6⟩ := (Core.memWf_iff c).mp h
  cases e
  case push q entry tag =>
    unfold Core.land
    dsimp only
    split
    · exact c.bufStore_memWf _ _ h
    · exact h
  case slots ws =>
    exact (Core.memWf_iff _).mpr ⟨h1, h2, h3, h4, foldl_keeps (fun m => mapSorted m = true) _ _ _ h5
      fun m w hm => putSlot_sorted fresh m w hm, h6⟩
  case store b ws => exact c.bufStore_memWf b ws h
  case setBits ws => exact (Core.memWf_iff _).mpr ⟨orBits_wf _ _ h1, h2, h3, h4, h5, h6⟩
  all_goals (unfold Core.land; dsimp only; exact (Core.memWf_iff _).mpr ⟨h1, h2, h3, h4, h5, h6⟩)

theorem State.lateFault_memWf (s : State) (c : Fin 96) (x : Src) (t : Trap) (h : s.memWf = true) : (s.lateFault c x t).memWf = true :=
  (State.Keeps.lateFault s c x t).wf h

theorem State.claimNow_memWf (s : State) (c : Fin 96) (x : Src) (rs : List Nat) (h : s.memWf = true) :
    (s.claimNow c x rs).memWf = true := by
  unfold State.claimNow
  dsimp only
  split
  · exact s.setCore_memWf c { s.core c with claims := _ } h (s.core_memWf c h)
  · exact s.lateFault_memWf c _ _ h

/-- The digest is no memory. -/
@[simp] theorem Core.digestChunks_memWf (c : Core) (e : Eng) (vs : List W64) : (c.digestChunks e vs).memWf = c.memWf := rfl

/-- One landing keeps the form. -/
theorem State.landOne_memWf (s : State) (c : Fin 96) (x : Src) (e : Effect) (h : s.memWf = true) : (s.landOne c x e).memWf = true := by
  have hc := s.core_memWf c h
  have put : ∀ v : Core, v.memWf = true → ∀ n, State.memWf { (s.setCore c v) with fresh := n } = true := fun v hv n =>
    s.setCore_memWf c v h hv
  unfold State.landOne
  split
  · exact s.homeWrite_memWf _ _ _ h
  · exact s.claimNow_memWf _ _ _ h
  · exact s.lateFault_memWf _ _ _ h
  · dsimp only
    split
    · exact s.lateFault_memWf _ _ _ h
    · exact put _ ((Core.digestChunks_memWf ..).trans (Core.bufStore_memWf _ _ _ hc)) _
  · dsimp only
    split
    · exact s.lateFault_memWf _ _ _ h
    · exact s.setCore_memWf _ _ h (Core.land_memWf _ _ _ hc)
  · exact put _ (Core.land_memWf _ _ _ hc) _

theorem State.landAll_memWf (es : List Effect) (s : State) (c : Fin 96) (x : Src) (h : s.memWf = true) :
    (s.landAll c x es).memWf = true := by
  induction es generalizing s with
  | nil => exact h
  | cons e es ih =>
    unfold State.landAll
    dsimp only
    split
    · exact s.landOne_memWf c x e h
    · exact ih _ (s.landOne_memWf c x e h)

/-- The landings of a word keep the form. -/
theorem State.landEffects_memWf (s : State) (c : Fin 96) (x : Src) (back : Pend) (es : List Effect) (h : s.memWf = true) :
    (s.landEffects c x back es).memWf = true := by
  have hc := s.core_memWf c h
  have put : ∀ (v : Core) (n : Nat), v.memWf = true → State.memWf { (s.setCore c v) with fresh := n } = true := fun v n hv =>
    s.setCore_memWf c v h hv
  unfold State.landEffects
  dsimp only
  generalize ((s.core c).effectsKeys es).any (fun k => (s.core c).landed.contains k) = clash
  cases clash
  · rw [if_neg (by simp)]
    cases firstOf (es.map (s.landDev c x)) with
    | none => exact State.landAll_memWf _ _ _ _ (s.setCore_memWf _ _ h hc)
    | some t =>
      dsimp only
      cases x.elastic
      · rw [if_neg (by simp)]; exact s.lateFault_memWf _ _ _ h
      · rw [if_pos rfl]; exact put _ _ hc
  · rw [if_pos rfl]; exact s.lateFault_memWf _ _ _ h

/-- An item taken from a list leaves the form. -/
theorem State.takeItem_memWf (s t : State) (p : Pend) (h : s.memWf = true) (ht : s.takeItem = some (p, t)) : t.memWf = true := by
  unfold State.takeItem at ht
  dsimp only at ht
  split at ht
  · cases ht
  · cases ht
    exact s.setCore_memWf _ _ h (s.core_memWf _ h)

/-! ### Contexts -/

theorem range'_mem (n : Nat) : ∀ a x, x ∈ range' a n → a ≤ x ∧ x < a + n := by
  induction n with
  | zero => intro a x h; cases h
  | succ n ih =>
    intro a x h
    rcases List.mem_cons.mp h with rfl | h
    · omega
    · have := ih (a + 1) x h
      omega

/-- Maps in rising blocks of keys, one after another. -/
theorem flatMap_sorted {α : Type} (f : Nat → SMap α) (o w : Nat) (n a : Nat) (hs : ∀ i, mapSorted (f i) = true)
    (hk : ∀ i, i < a + n → ∀ c ∈ f i, o + i * w ≤ c.1 ∧ c.1 < o + (i + 1) * w) : mapSorted ((range' a n).flatMap f) = true := by
  induction n generalizing a with
  | zero => rfl
  | succ n ih =>
    refine append_sorted _ _ (hs a) (ih (a + 1) fun i hi => hk i (by omega)) fun c hc d hd => ?_
    obtain ⟨i, hi, hd⟩ := List.mem_flatMap.mp hd
    have h3 := range'_mem n (a + 1) i hi
    have h1 := (hk a (by omega) c hc).2
    have h2 := (hk i (by omega) d hd).1
    have h4 := Nat.mul_le_mul_right w h3.1
    omega

/-- The slots of a tile row rise, and lie in their row. -/
theorem rowSlots_sorted (b : List Byte) (tile row : Nat) : mapSorted (rowSlots b tile row) = true
    ∧ ∀ c ∈ rowSlots b tile row, tile * 65536 + row * 256 ≤ c.1 ∧ c.1 < tile * 65536 + row * 256 + 256 := by
  have key : ∀ (p : Nat → Bool) (v : Nat → W36) (n a : Nat), a + n ≤ 256 →
      mapSorted ((range' a n).filterMap fun j => if p j then none else some (slotKey tile row j, v j)) = true
      ∧ ∀ c ∈ (range' a n).filterMap (fun j => if p j then none else some (slotKey tile row j, v j)),
        tile * 65536 + row * 256 + a ≤ c.1 ∧ c.1 < tile * 65536 + row * 256 + 256 := by
    intro p v n
    induction n with
    | zero => intro a _; exact ⟨rfl, fun c hc => by cases hc⟩
    | succ n ih =>
      intro a ha
      obtain ⟨h1, h2⟩ := ih (a + 1) (by omega)
      have hl : ∀ c ∈ (range' (a + 1) n).filterMap (fun j => if p j then none else some (slotKey tile row j, v j)),
          tile * 65536 + row * 256 + a ≤ c.1 ∧ c.1 < tile * 65536 + row * 256 + 256 := fun c hc => by
        have := h2 c hc; omega
      by_cases hp : p a = true
      · simpa [range', hp] using And.intro h1 hl
      · have hk : slotKey tile row a = tile * 65536 + row * 256 + a := by unfold slotKey; omega
        have he : (range' a (n + 1)).filterMap (fun j => if p j then none else some (slotKey tile row j, v j))
            = (slotKey tile row a, v a) :: (range' (a + 1) n).filterMap
              (fun j => if p j then none else some (slotKey tile row j, v j)) := by
          simp [range', hp]
        rw [he]
        refine ⟨(mapSorted_cons _ _ _).mpr ⟨fun c hc => by have := h2 c hc; omega, h1⟩, fun c hc => ?_⟩
        rcases List.mem_cons.mp hc with rfl | hc
        · simp only [hk]; omega
        · exact hl c hc
  have := key (fun j => decide (fld (u b 1152 32) j j = 1)) (fun j => BitVec.ofNat 36 (u b 0 1152 / 2 ^ (36 * j))) 256 0 (by omega)
  simpa [rowSlots] using this

/-- The MRF of a context read from a save area is in form. -/
theorem State.readContext_sorted (s : State) (pa : Nat) : mapSorted (s.readContext pa).mrf = true := by
  unfold State.readContext
  dsimp only
  refine flatMap_sorted _ 0 65536 _ 0 (fun t => ?_) (fun t _ c hc => ?_)
  · refine flatMap_sorted _ (t * 65536) 256 256 0 (fun i => (rowSlots_sorted _ t i).1) fun i _ c hc => ?_
    have h1 := (rowSlots_sorted _ t i).2 c hc
    exact ⟨by omega, by omega⟩
  · obtain ⟨i, hi, hc⟩ := List.mem_flatMap.mp hc
    have h1 := (rowSlots_sorted _ t i).2 c hc
    have h2 := range'_mem 256 0 i hi
    omega

/-- A core with a context in form restored is in form. -/
theorem Core.restore_memWf (c : Core) (k : Bool) (x : Ctx) (h : c.memWf = true) (hx : mapSorted x.mrf = true) :
    (c.restore k x).memWf = true := by
  obtain ⟨h1, h2, h3, h4, -, h6⟩ := (Core.memWf_iff c).mp h
  exact (Core.memWf_iff _).mpr ⟨h1, h2, h3, h4, hx, h6⟩

theorem State.saveBanks_memWf (s : State) (p t : Nat) (h : s.memWf = true) : (s.saveBanks p t).memWf = true := by
  unfold State.saveBanks
  refine foldl_keeps (fun s => State.memWf s = true) _ _ _ h fun s c hs => ?_
  obtain ⟨h1, h2, h3, h4, h5, -⟩ := (Core.memWf_iff _).mp (s.core_memWf c hs)
  refine s.setCore_memWf _ _ hs ((Core.memWf_iff _).mpr ⟨h1, h2, h3, h4, h5, fun x hx => ?_⟩)
  cases hx
  exact h5

theorem State.restoreBanks_memWf (s : State) (p : Nat) (k : Bool) (h : s.memWf = true) : (s.restoreBanks p k).memWf = true := by
  unfold State.restoreBanks
  refine foldl_keeps (fun s => State.memWf s = true) _ _ _ h fun s c hs => ?_
  have hc := s.core_memWf c hs
  dsimp only
  split
  · rename_i x hx
    exact s.setCore_memWf _ _ hs (Core.restore_memWf _ k x hc (((Core.memWf_iff _).mp hc).2.2.2.2.2 x hx))
  · exact hs

/-! ### Spill and refill -/

/-- The live-in bytes of a core written to its spill area. -/
theorem State.spillCore_memWf (s : State) (b i c : Nat) (live : List (Buf × Nat × Nat)) (h : s.memWf = true) :
    (s.spillCore b i c live).memWf = true := by
  have put : ∀ t : State, t.memWf = true → ∀ l, (t.setCore c { s.core c with wbSpill := l }).memWf = true := fun t ht l =>
    t.setCore_memWf c { s.core c with wbSpill := l } ht (s.core_memWf c h)
  unfold State.spillCore
  dsimp only
  refine put _ ?_ _
  refine foldl_keeps (fun s => State.memWf s = true) _ _ _ ?_ fun s x hs => s.homeWrite_memWf _ _ _ hs
  exact State.homeWrite_memWf _ _ _ _ (s.homeWrite_memWf _ _ _ h)

theorem State.refillCore_memWf (s : State) (b i c : Nat) (live : List (Buf × Nat × Nat)) (h : s.memWf = true) :
    (s.refillCore b i c live).memWf = true := by
  obtain ⟨-, -, -, h4, h5, h6⟩ := (Core.memWf_iff _).mp (s.core_memWf c h)
  unfold State.refillCore
  refine s.setCore_memWf _ _ h ?_
  refine foldl_keeps (fun c => Core.memWf c = true) _ _ _ ?_ fun c x hc => c.bufStore_memWf _ _ hc
  exact Core.bufStore_memWf _ _ _ ((Core.memWf_iff _).mpr ⟨rfl, rfl, rfl, h4, h5, h6⟩)

end Sys2Proof.Machine
end

