-- ==== Sys2Proof/Tests/Slice0.lean ====
section
/-! SUPPORT. Tests: words written out from the encodings, ill-formed instructions, and for every statement with hypotheses states
and operands that meet them, clause by clause. -/

namespace Sys2Proof.Tests

-- One test after another: the kernel evaluates long ones, and many at once would need too many threads.
set_option Elab.async false

open Sys2Proof Sys2Proof.Machine

/-! ### Ill-formed instructions -/

/-- The values that formats and chapters reserve are refused, one for each check. -/
theorem test_ill_formed_scalar_and_sync :
    let f : Frame := ⟨0, 0⟩
    (([.sCmp f 1 .uo 2 3, .sCmpi f 1 .uo 2 0, .sCmpF64 f 1 .ltu 2 3, .sCmpF64 f 1 .geu 2 3, .sLd f 1 2 0 .d true,
      .sLdm f 1 2 0 .d true 200, .sLdm f 1 2 0 .w true 0, .sStm f 1 2 0 .w 0, .sLoop 0 1 (.imm 5) 0, .yTokpush f 0 0,
      .yTokpop f 5 0] : List Instr)).all (fun i => !i.wf) = true := by decide

theorem test_ill_formed_matrix_and_vector :
    let f : Frame := ⟨0, 0⟩
    let t : Tok := ⟨false, false, false, false⟩
    let l : Line := ⟨0, .r, .imm 0⟩
    (([.mMacS9 f t 1 2 ⟨0, .d, .imm 0⟩ 3 .s36 false false, .mMacS5 f t 1 2 l 3 .x72 false false,
      .mSpmacS9 f t 1 2 ⟨0, .c, .imm 0⟩ 128 .x72 false, .mWake f t 0, .mSleep f t 0, .vMul f .x72 l l l, .vAnd f .x72 l l l,
      .vDiv f .s36 l l l, .vSqrt f .bf16 l l none, .vNot f .f32 l l none, .vShl f .f64 l l 1 2 none, .vCmp f .s36 .uo 0 l l none,
      .vCmp f .x72 .ltu 0 l l none, .vCvt f .f32 .f32 l l none, .vCvt f .f32 .f16 l l none, .vCvt f .x72 .s64 l l none] : List Instr)
    ++ ([.vCvte f .f64 .f16 true true l l none, .vCvte f .s36 .f32 true true l l none, .vScale f .s36 l l 1 0 none,
      .vCvtx f .f16 true l l 1 none, .vCvtx f .x72 true l l 1 none, .vNarrow f .s36 l 1 .s9 0 .b16 false .rne none,
      .vRot f .f32 l none 0 .b16 false .sr, .vGather f .f32 ⟨6, .r, .imm 0⟩ ⟨1, false⟩ 0 none, .vBset f .f32 l ⟨1, false⟩ 0 none,
      .vRndfill f .bf16 l 31 none, .vMcount f 1 2 .uo 3] : List Instr)).all (fun i => !i.wf) = true := by decide

theorem test_ill_formed_copy_link_grammar :
    let f : Frame := ⟨0, 0⟩
    let t : Tok := ⟨false, false, false, false⟩
    let x : BufAddr := ⟨1, false⟩
    (([.lTile f t false x 3 0 0, .lHalo f t .zero x 3 0 0, .lNarrow f t 0 5 3 0 0, .lGather f t x 3 0 0, .lRow f t .f32 0 x 3 0 0,
      .lRing f t 5 3 0 0, .lCsr f t 5 x 3 0 0, .lCsr f t 31 x 3 0 200, .wTile f t (.ab x) 3 0 0, .wAcc f t .addS32 x 3 0 0,
      .wFilt f t true x 3 0 0, .wRow f t .f32 0 x 3 0 0, .wAmo f t .and .f32 .core false 3 1 0, .wAmo f t .add .s64 .core false 3 1 2] : List Instr)
    ++ ([.xSend f .mesh (.ab x) 0 0, .xFwd f .mesh 0 0, .xAlign f .die x, .xAlign f .mesh x, .gStep f 1 (.reg 3) 0, .gFork f 7 7,
      .thermalPoll [0] [], .hbmTempRead [0, 1], .hbmTempRead (List.replicate 12 3), .registerWrite 0 0xE04 0,
      .hostApertureWrite 1 0 [] false, .hostAbWrite 0 0 [] false, .registerWrite 0 4 0, .getsensorreading 256] : List Instr)).all (fun i => !i.wf) = true := by decide

/-! ### Words written out from the encodings (R49 to R62, R208, R216, R223, R237) -/

/-- R62: words written out from the formats, and the worked words of the specification. -/
theorem test_decode_nops :
    (([(0x0800000AF0000000, .sNop 4 700),
     (0x2800000AF0000000, .yNop 4 700),
     (0x6800000AF0000000, .vNop 4 700),
     (0xC800000AF0000000, .xNop 4 700),
     (0xE800000AF0000000, .gNop 4 700),
     (0x48002800AF000000, .mNop 4 ⟨true, false, true, false⟩ 700),
     (0x88002800AF000000, .lNop 4 ⟨true, false, true, false⟩ 700),
     (0xA8002800AF000000, .wNop 4 ⟨true, false, true, false⟩ 700) ] : List (Nat × Instr))).all (fun x => decodeWord x.1 == some x.2) = true := by
  decide +kernel

/-- R54, R110, R111: words written out from the formats, and the worked words of the specification. -/
theorem test_decode_scalar_integer :
    (([(0x060563E480000000, .sAdd ⟨3, 5⟩ 17 30 9),
     (0x060963E480000000, .sSub ⟨3, 5⟩ 17 30 9),
     (0x060D63E480000000, .sMul ⟨3, 5⟩ 17 30 9),
     (0x061163E480000000, .sMulh ⟨3, 5⟩ 17 30 9),
     (0x061563E480000000, .sMulhu ⟨3, 5⟩ 17 30 9),
     (0x061963E480000000, .sDiv ⟨3, 5⟩ 17 30 9),
     (0x061D63E480000000, .sDivu ⟨3, 5⟩ 17 30 9),
     (0x062163E480000000, .sRem ⟨3, 5⟩ 17 30 9),
     (0x062563E480000000, .sRemu ⟨3, 5⟩ 17 30 9),
     (0x062963E480000000, .sAnd ⟨3, 5⟩ 17 30 9),
     (0x062D63E480000000, .sOr ⟨3, 5⟩ 17 30 9),
     (0x063163E480000000, .sXor ⟨3, 5⟩ 17 30 9),
     (0x063563E480000000, .sShl ⟨3, 5⟩ 17 30 9),
     (0x063963E480000000, .sShr ⟨3, 5⟩ 17 30 9),
     (0x063D63E480000000, .sSar ⟨3, 5⟩ 17 30 9),
     (0x064163E480000000, .sMin ⟨3, 5⟩ 17 30 9),
     (0x064563E480000000, .sMax ⟨3, 5⟩ 17 30 9),
     (0x064963E480000000, .sMinu ⟨3, 5⟩ 17 30 9),
     (0x064D63E480000000, .sMaxu ⟨3, 5⟩ 17 30 9),
     (0x065163E000000000, .sClz ⟨3, 5⟩ 17 30),
     (0x065563E000000000, .sPopc ⟨3, 5⟩ 17 30),
     (0x066163EFFFFFFFFE, .sAddi ⟨3, 5⟩ 17 30 (-2)),
     (0x066563EFFFFFFFFE, .sAndi ⟨3, 5⟩ 17 30 (-2)),
     (0x066963EFFFFFFFFE, .sOri ⟨3, 5⟩ 17 30 (-2)) ] : List (Nat × Instr)) ++
     ([(0x066D63EFFFFFFFFE, .sXori ⟨3, 5⟩ 17 30 (-2)),
     (0x067D63EFFFFFFFFE, .sMuli ⟨3, 5⟩ 17 30 (-2)),
     (0x067163E00000003F, .sShli ⟨3, 5⟩ 17 30 63),
     (0x067563E00000003F, .sShri ⟨3, 5⟩ 17 30 63),
     (0x067963E00000003F, .sSari ⟨3, 5⟩ 17 30 63),
     (0x0080120000020000, .sLi ⟨0, 0⟩ 9 0x100),
     (0x0084120000000E00, .sLih ⟨0, 0⟩ 9 7) ] : List (Nat × Instr))).all (fun x => decodeWord x.1 == some x.2) = true := by
  decide +kernel

/-- R54 to R56, R112 to R125: words written out from the formats, and the worked words of the specification. -/
theorem test_decode_scalar_rest :
    (([(0x0689727920000000, .sCmp ⟨3, 5⟩ 12 .ltu 30 9),
     (0x068D71781FFFFFFF, .sCmpi ⟨3, 5⟩ 12 .lt 30 (-1)),
     (0x069170E800000000, .sPand ⟨3, 5⟩ 12 3 10),
     (0x069570E800000000, .sPor ⟨3, 5⟩ 12 3 10),
     (0x069970E800000000, .sPxor ⟨3, 5⟩ 12 3 10),
     (0x069D70C000000000, .sPnot ⟨3, 5⟩ 12 3),
     (0x06A163E480000000, .sAddF64 ⟨3, 5⟩ 17 30 9),
     (0x06A563E480000000, .sSubF64 ⟨3, 5⟩ 17 30 9),
     (0x06A963E480000000, .sMulF64 ⟨3, 5⟩ 17 30 9),
     (0x06AD63E480000000, .sDivF64 ⟨3, 5⟩ 17 30 9),
     (0x06B163E480000000, .sFmaF64 ⟨3, 5⟩ 17 30 9),
     (0x06B963E480000000, .sMinF64 ⟨3, 5⟩ 17 30 9),
     (0x06BD63E480000000, .sMaxF64 ⟨3, 5⟩ 17 30 9),
     (0x06B563E000000000, .sSqrtF64 ⟨3, 5⟩ 17 30),
     (0x06C1737920000000, .sCmpF64 ⟨3, 5⟩ 12 .uo 30 9),
     (0x06C563E000000000, .sCvtF64S64 ⟨3, 5⟩ 17 30),
     (0x06C963E000000000, .sCvtS64F64 ⟨3, 5⟩ 17 30),
     (0x06CD63E000000000, .sClassF64 ⟨3, 5⟩ 17 30),
     (0x06E162EFFFFCA000, .sLd ⟨3, 5⟩ 17 14 (-4) .w true),
     (0x06E562E00008C000, .sSt ⟨3, 5⟩ 17 14 8 .d),
     (0x06E963EFFFFE7FFF, .sLdm ⟨3, 5⟩ 17 30 (-2) .h true 8191),
     (0x06ED63E0000100C8, .sStm ⟨3, 5⟩ 17 30 1 .b 200),
     (0x0100000002003C00, .sLoop 0 0 (.imm 2) 30),
     (0x050030003CFFFF00, .sLoop 2 3 (.const 60) 32767) ] : List (Nat × Instr)) ++
     ([(0x0721620500000000, .sRdctl ⟨3, 5⟩ 17 (.ctl .size)),
     (0x0721620120000000, .sRdctl ⟨3, 5⟩ 17 (.lc 2)),
     (0x072541E140000000, .sWrctl ⟨3, 5⟩ .round .clr 30),
     (0x07296206E0000000, .sRda ⟨3, 5⟩ 17 13 .wrap),
     (0x072D41E6C0000000, .sWra ⟨3, 5⟩ 13 .stride 30),
     (0x0731620EA0000000, .sRdq ⟨3, 5⟩ 17 29 true),
     (0x073541EE80000000, .sWrq ⟨3, 5⟩ 29 false 30),
     (0x0739620320000000, .sRdk ⟨3, 5⟩ 17 6 true),
     (0x013C009180000000, .sWrk ⟨0, 0⟩ 3 9),
     (0x0741620EA0000000, .sRnd ⟨3, 5⟩ 17 29 true) ] : List (Nat × Instr))).all (fun x => decodeWord x.1 == some x.2) = true := by
  decide +kernel

/-- R57, R126: words written out from the formats, and the worked words of the specification. -/
theorem test_decode_sync :
    (([(0x2C04000000000000, .yRdv 6),
     (0x26095500002AF340, .ySeminit ⟨3, 5⟩ 21 0xABCD),
     (0x260D40F000000000, .ySemclr ⟨3, 5⟩ 30),
     (0x2611450000000008, .yTokpush ⟨3, 5⟩ 5 8),
     (0x2615420000000001, .yTokpop ⟨3, 5⟩ 2 1),
     (0x26197F0000000000, .yGate ⟨3, 5⟩ 63 none),
     (0x261968F000000001, .yGate ⟨3, 5⟩ 40 (some 30)),
     (0x261D5F00003FFFC0, .yGatesem ⟨3, 5⟩ 31 0xFFFF),
     (0x26217F0000000000, .yGateclr ⟨3, 5⟩ (.signal 63)),
     (0x26215F0000000001, .yGateclr ⟨3, 5⟩ (.sem 31)),
     (0x2621400000000002, .yGateclr ⟨3, 5⟩ .all),
     (0x2624000000000003, .yFence 3 .sys),
     (0x262940F000000001, .yExport ⟨3, 5⟩ (.size 30)),
     (0x2629400240000002, .yExport ⟨3, 5⟩ (.sel 9)),
     (0x2028003A00000003, .yExport ⟨0, 0⟩ (.both 7 8)),
     (0x262D40002AF37BC0, .yTrap ⟨3, 5⟩ 0xABCDEF),
     (0x263140002AF37BC0, .yBrk ⟨3, 5⟩ 0xABCDEF),
     (0x263540002AF37BC0, .yStamp ⟨3, 5⟩ 0xABCDEF) ] : List (Nat × Instr))).all (fun x => decodeWord x.1 == some x.2) = true := by
  decide +kernel

/-- R59, R140: words written out from the formats, and the worked words of the specification. -/
theorem test_decode_matrix :
    (([(0x460567A600000001, .mWld ⟨3, 5⟩ ⟨true, false, false, true⟩ 29 6 true),
     (0x4609640000000000, .mSwap ⟨3, 5⟩ ⟨true, false, false, true⟩),
     (0x420CA4654801FD01, .mMacS9 ⟨1, 2⟩ ⟨true, false, false, true⟩ 3 5 ⟨2, .c, .imm 0⟩ 127 .x72 true false),
     (0x400C00650003EC02, .mMacS9 ⟨0, 0⟩ ⟨false, false, false, false⟩ 3 5 ⟨0, .r, .imm 0⟩ 251 .s36 false true),
     (0x461167A688DFFE03, .mMacS5 ⟨3, 5⟩ ⟨true, false, false, true⟩ 29 6 ⟨4, .c, .reg 11 true⟩ 255 .f32 true true),
     (0x461567A6C643FF01, .mSpmacS9 ⟨3, 5⟩ ⟨true, false, false, true⟩ 29 6 ⟨6, .r, .imm 200⟩ 255 .nd true),
     (0x461964000000000B, .mShape ⟨3, 5⟩ ⟨true, false, false, true⟩ 11),
     (0x461D64000000000B, .mWake ⟨3, 5⟩ ⟨true, false, false, true⟩ 11),
     (0x462164000000000B, .mSleep ⟨3, 5⟩ ⟨true, false, false, true⟩ 11),
     (0x4625640080000000, .mFeed ⟨3, 5⟩ ⟨true, false, false, true⟩ (.imm (-8192))),
     (0x4024036000000001, .mFeed ⟨0, 0⟩ ⟨false, false, false, false⟩ (.reg 11 true)),
     (0x462964000003EC00, .mXbase ⟨3, 5⟩ ⟨true, false, false, true⟩ (-20)) ] : List (Nat × Instr))).all (fun x => decodeWord x.1 == some x.2) = true := by
  decide +kernel

/-- R51, R58, R161 to R173, R194: words written out from the formats, and the worked words of the specification. -/
theorem test_decode_vector_lines :
    (([(0x660551010915EC3E, .vAdd ⟨3, 5⟩ .x72 ⟨1, .r, .imm 4⟩ ⟨2, .c, .reg 5 true⟩ ⟨6, .a, .reg 15 false⟩),
     (0x660979010915EC3E, .vSub ⟨3, 5⟩ .s16 ⟨1, .r, .imm 4⟩ ⟨2, .c, .reg 5 true⟩ ⟨6, .a, .reg 15 false⟩),
     (0x660D69010915EC3E, .vMul ⟨3, 5⟩ .bf16 ⟨1, .r, .imm 4⟩ ⟨2, .c, .reg 5 true⟩ ⟨6, .a, .reg 15 false⟩),
     (0x661149010915EC3E, .vFma ⟨3, 5⟩ .f32 ⟨1, .r, .imm 4⟩ ⟨2, .c, .reg 5 true⟩ ⟨6, .a, .reg 15 false⟩),
     (0x661571010915EC3E, .vFms ⟨3, 5⟩ .f16 ⟨1, .r, .imm 4⟩ ⟨2, .c, .reg 5 true⟩ ⟨6, .a, .reg 15 false⟩),
     (0x661941010915EC3E, .vMin ⟨3, 5⟩ .s36 ⟨1, .r, .imm 4⟩ ⟨2, .c, .reg 5 true⟩ ⟨6, .a, .reg 15 false⟩),
     (0x661D59010915EC3E, .vMax ⟨3, 5⟩ .f64 ⟨1, .r, .imm 4⟩ ⟨2, .c, .reg 5 true⟩ ⟨6, .a, .reg 15 false⟩),
     (0x662161010915EC3E, .vAnd ⟨3, 5⟩ .s64 ⟨1, .r, .imm 4⟩ ⟨2, .c, .reg 5 true⟩ ⟨6, .a, .reg 15 false⟩),
     (0x662541010915EC3E, .vOr ⟨3, 5⟩ .s36 ⟨1, .r, .imm 4⟩ ⟨2, .c, .reg 5 true⟩ ⟨6, .a, .reg 15 false⟩),
     (0x662979010915EC3E, .vXor ⟨3, 5⟩ .s16 ⟨1, .r, .imm 4⟩ ⟨2, .c, .reg 5 true⟩ ⟨6, .a, .reg 15 false⟩),
     (0x662D59010915EC3E, .vDiv ⟨3, 5⟩ .f64 ⟨1, .r, .imm 4⟩ ⟨2, .c, .reg 5 true⟩ ⟨6, .a, .reg 15 false⟩),
     (0x6641510109158340, .vAbs ⟨3, 5⟩ .x72 ⟨1, .r, .imm 4⟩ ⟨2, .c, .reg 5 true⟩ (some 6)),
     (0x6645790109158340, .vNeg ⟨3, 5⟩ .s16 ⟨1, .r, .imm 4⟩ ⟨2, .c, .reg 5 true⟩ (some 6)),
     (0x6649410109158340, .vNot ⟨3, 5⟩ .s36 ⟨1, .r, .imm 4⟩ ⟨2, .c, .reg 5 true⟩ (some 6)),
     (0x664D490109158340, .vMov ⟨3, 5⟩ .f32 ⟨1, .r, .imm 4⟩ ⟨2, .c, .reg 5 true⟩ (some 6)),
     (0x665141010915FB7F, .vShl ⟨3, 5⟩ .s36 ⟨1, .r, .imm 4⟩ ⟨2, .c, .reg 5 true⟩ 30 63 (some 6)),
     (0x665561010915FB7F, .vShr ⟨3, 5⟩ .s64 ⟨1, .r, .imm 4⟩ ⟨2, .c, .reg 5 true⟩ 30 63 (some 6)),
     (0x665979010915FB7F, .vSar ⟨3, 5⟩ .s16 ⟨1, .r, .imm 4⟩ ⟨2, .c, .reg 5 true⟩ 30 63 (some 6)),
     (0x605C0301C407314E, .vRshr ⟨0, 0⟩ .s36 ⟨3, .r, .imm 7⟩ ⟨1, .r, .imm 7⟩ 12 14 (some 2)),
     (0x666149010915836E, .vCmp ⟨3, 5⟩ .f32 .uo 5 ⟨2, .c, .reg 5 true⟩ ⟨1, .r, .imm 4⟩ (some 6)),
     (0x666569010915FB40, .vSel ⟨3, 5⟩ .bf16 ⟨1, .r, .imm 4⟩ ⟨2, .c, .reg 5 true⟩ 30 6),
     (0x666969010915FB60, .vBcast ⟨3, 5⟩ .bf16 ⟨1, .r, .imm 4⟩ ⟨2, .c, .reg 5 true⟩ 30 (-32) (some 6)) ] : List (Nat × Instr))).all (fun x => decodeWord x.1 == some x.2) = true := by
  decide +kernel

/-- R58, R174 to R193: words written out from the formats, and the worked words of the specification. -/
theorem test_decode_vector_conversions_and_data :
    (([(0x6681490109158343, .vCvt ⟨3, 5⟩ .f32 .f64 ⟨1, .r, .imm 4⟩ ⟨2, .c, .reg 5 true⟩ (some 6)),
     (0x668549010915835D, .vCvte ⟨3, 5⟩ .f32 .bf16 true true ⟨1, .r, .imm 4⟩ ⟨2, .c, .reg 5 true⟩ (some 6)),
     (0x6A8818000516B403, .vSliceF64 ⟨5, 0⟩ 3 ⟨1, .c, .reg 6 true⟩ 13),
     (0x668D71010915FB7F, .vScale ⟨3, 5⟩ .f16 ⟨1, .r, .imm 4⟩ ⟨2, .c, .reg 5 true⟩ 30 (-1) (some 6)),
     (0x749019400117BC00, .vCvtx ⟨10, 0⟩ .f64 false ⟨1, .c, .imm 0⟩ ⟨0, .c, .reg 7 true⟩ 15 none),
     (0x66A14A457D4D2BE0, .vNarrow ⟨3, 5⟩ .f32 ⟨2, .c, .reg 5 true⟩ 29 .e2m1 6 .b256 true .sr (some 7)),
     (0x74A4080065129E00, .vRot ⟨10, 0⟩ .f32 ⟨0, .r, .reg 1 false⟩ (some 5) 1 .b64 true .dyn),
     (0x66A97A457D0001E0, .vPop ⟨3, 5⟩ .s16 ⟨2, .c, .reg 5 true⟩ 29 (some 7)),
     (0x66AD52457D000000, .vPush ⟨3, 5⟩ .x72 ⟨2, .c, .reg 5 true⟩ 29 none),
     (0x66C1490109158340, .vExp2 ⟨3, 5⟩ ⟨1, .r, .imm 4⟩ ⟨2, .c, .reg 5 true⟩ (some 6)),
     (0x66C5490109158340, .vLog2 ⟨3, 5⟩ ⟨1, .r, .imm 4⟩ ⟨2, .c, .reg 5 true⟩ (some 6)),
     (0x66C9490109158340, .vRecip ⟨3, 5⟩ ⟨1, .r, .imm 4⟩ ⟨2, .c, .reg 5 true⟩ (some 6)),
     (0x66CD490109158340, .vRsqrt ⟨3, 5⟩ ⟨1, .r, .imm 4⟩ ⟨2, .c, .reg 5 true⟩ (some 6)),
     (0x66D5490109158340, .vSinpi ⟨3, 5⟩ ⟨1, .r, .imm 4⟩ ⟨2, .c, .reg 5 true⟩ (some 6)),
     (0x66D9490109158340, .vCospi ⟨3, 5⟩ ⟨1, .r, .imm 4⟩ ⟨2, .c, .reg 5 true⟩ (some 6)),
     (0x66D1590109158340, .vSqrt ⟨3, 5⟩ .f64 ⟨1, .r, .imm 4⟩ ⟨2, .c, .reg 5 true⟩ (some 6)),
     (0x66E152457D8000D0, .vLd ⟨3, 5⟩ .x72 ⟨2, .c, .reg 5 true⟩ ⟨14, true⟩ 0x8000 (some 6)),
     (0x66E56A457D8000D0, .vSt ⟨3, 5⟩ .bf16 ⟨2, .c, .reg 5 true⟩ ⟨14, true⟩ 0x8000 (some 6)),
     (0x66E94A457D8000D0, .vGather ⟨3, 5⟩ .f32 ⟨2, .c, .reg 5 true⟩ ⟨14, true⟩ 0x8000 (some 6)),
     (0x66ED5A457D8000D0, .vScatter ⟨3, 5⟩ .f64 ⟨2, .c, .reg 5 true⟩ ⟨14, true⟩ 0x8000 (some 6)),
     (0x66F142457D8000D0, .vBset ⟨3, 5⟩ .s36 ⟨2, .c, .reg 5 true⟩ ⟨14, true⟩ 0x8000 (some 6)),
     (0x66F57A457D8000D0, .vBtest ⟨3, 5⟩ .s16 ⟨2, .c, .reg 5 true⟩ ⟨14, true⟩ 0x8000 (some 6)) ] : List (Nat × Instr))).all (fun x => decodeWord x.1 == some x.2) = true := by
  decide +kernel

/-- R58, R194 to R201: words written out from the formats, and the worked words of the specification. -/
theorem test_decode_vector_lanes_and_masks :
    (([(0x6701610109158340, .vPerm ⟨3, 5⟩ .s64 .rev ⟨1, .r, .imm 4⟩ ⟨2, .c, .reg 5 true⟩ (some 6)),
     (0x670161010915FB41, .vPerm ⟨3, 5⟩ .s64 (.xor 30) ⟨1, .r, .imm 4⟩ ⟨2, .c, .reg 5 true⟩ (some 6)),
     (0x6701610109158342, .vPerm ⟨3, 5⟩ .s64 .zip ⟨1, .r, .imm 4⟩ ⟨2, .c, .reg 5 true⟩ (some 6)),
     (0x6701610109158343, .vPerm ⟨3, 5⟩ .s64 .unzip ⟨1, .r, .imm 4⟩ ⟨2, .c, .reg 5 true⟩ (some 6)),
     (0x670561010915FB5F, .vLshift ⟨3, 5⟩ .s64 ⟨1, .r, .imm 4⟩ ⟨2, .c, .reg 5 true⟩ 30 31 (some 6)),
     (0x670961010915FB7F, .vLrot ⟨3, 5⟩ .s64 ⟨1, .r, .imm 4⟩ ⟨2, .c, .reg 5 true⟩ 30 (-1) (some 6)),
     (0x610C3D00100050D5, .vMatch ⟨0, 0⟩ 5 true ⟨5, .r, .imm 0⟩ ⟨4, .r, .imm 0⟩ 20 (some 1)),
     (0x671159010000035D, .vRndfill ⟨3, 5⟩ .f64 ⟨1, .r, .imm 4⟩ 29 (some 6)),
     (0x6721710109158349, .vRsum ⟨3, 5⟩ .f16 ⟨1, .r, .imm 4⟩ ⟨2, .c, .reg 5 true⟩ 9 (some 6)),
     (0x6725710109158349, .vRmax ⟨3, 5⟩ .f16 ⟨1, .r, .imm 4⟩ ⟨2, .c, .reg 5 true⟩ 9 (some 6)),
     (0x6729710109158349, .vRmin ⟨3, 5⟩ .f16 ⟨1, .r, .imm 4⟩ ⟨2, .c, .reg 5 true⟩ 9 (some 6)),
     (0x672D710109158349, .vScan ⟨3, 5⟩ .f16 ⟨1, .r, .imm 4⟩ ⟨2, .c, .reg 5 true⟩ 9 (some 6)),
     (0x6731710109158349, .vArgmax ⟨3, 5⟩ .f16 ⟨1, .r, .imm 4⟩ ⟨2, .c, .reg 5 true⟩ 9 (some 6)),
     (0x6735710109158349, .vArgmin ⟨3, 5⟩ .f16 ⟨1, .r, .imm 4⟩ ⟨2, .c, .reg 5 true⟩ 9 (some 6)),
     (0x674173A000000000, .vMand ⟨3, 5⟩ 6 3 5),
     (0x674573A000000000, .vMor ⟨3, 5⟩ 6 3 5),
     (0x674973A000000000, .vMxor ⟨3, 5⟩ 6 3 5),
     (0x674D730000000000, .vMnot ⟨3, 5⟩ 6 3),
     (0x6751701E00000000, .vMset ⟨3, 5⟩ 6 30),
     (0x6154122000000000, .vMcount ⟨0, 0⟩ 2 2 .ne 0) ] : List (Nat × Instr))).all (fun x => decodeWord x.1 == some x.2) = true := by
  decide +kernel

/-- R60, R208: words written out from the formats, and the worked words of the specification. -/
theorem test_decode_load_copy :
    (([(0x86056CF7C0FFFFFF, .lTile ⟨3, 5⟩ ⟨true, false, true, true⟩ true ⟨14, true⟩ 30 2047 8191),
     (0x86096D77C0FFFFFF, .lHalo ⟨3, 5⟩ ⟨true, false, true, true⟩ .edge ⟨14, true⟩ 30 2047 8191),
     (0x860D6F03DDFFFFFF, .lNarrow ⟨3, 5⟩ ⟨true, false, true, true⟩ 6 29 30 2047 8191),
     (0x86116C77DDFFFFFF, .lCsr ⟨3, 5⟩ ⟨true, false, true, true⟩ 29 ⟨14, true⟩ 30 2047 8191),
     (0x86156C77C0FFFFFF, .lGather ⟨3, 5⟩ ⟨true, false, true, true⟩ ⟨14, true⟩ 30 2047 8191),
     (0x86196DF7C6FFFFFF, .lRow ⟨3, 5⟩ ⟨true, false, true, true⟩ .f64 6 ⟨14, true⟩ 30 2047 8191),
     (0x801C800323082080, .lRing ⟨0, 2⟩ ⟨false, false, false, false⟩ 3 25 65 128) ] : List (Nat × Instr))).all (fun x => decodeWord x.1 == some x.2) = true := by
  decide +kernel

/-- R60, R216 to R221: words written out from the formats, and the worked words of the specification. -/
theorem test_decode_store_copy :
    (([(0xA0040002C0086080, .wTile ⟨0, 0⟩ ⟨false, false, false, false⟩ (.ab ⟨0, false⟩) 22 67 128),
     (0xA6056C83DDFFFFFF, .wTile ⟨3, 5⟩ ⟨true, false, true, true⟩ (.ring 29) 30 2047 8191),
     (0xA6096EF7C0FFFFFF, .wAcc ⟨3, 5⟩ ⟨true, false, true, true⟩ .minF32 ⟨14, true⟩ 30 2047 8191),
     (0xA60D6DDBE4C40000, .wAmo ⟨3, 5⟩ ⟨true, false, true, true⟩ .cas .s64 .dev true 30 9 17),
     (0xA010001AA5800000, .wSig ⟨0, 0⟩ ⟨false, false, false, false⟩ .set .dev true 10 11),
     (0xA016009EC0088078, .wFilt ⟨0, 8⟩ ⟨false, false, false, false⟩ true ⟨3, true⟩ 22 68 120),
     (0xA01803EF42088080, .wRow ⟨0, 0⟩ ⟨false, false, false, false⟩ .s16 2 ⟨13, true⟩ 26 68 128) ] : List (Nat × Instr))).all (fun x => decodeWord x.1 == some x.2) = true := by
  decide +kernel

/-- R61, R223: words written out from the formats, and the worked words of the specification. -/
theorem test_decode_link :
    (([(0xC004000210410AA0, .xSend ⟨0, 0⟩ .px (.ab ⟨1, false⟩) 65 340),
     (0xC6057A0707FFFFF9, .xSend ⟨3, 5⟩ .nz (.ring 29) 2047 8191),
     (0xC008000310410000, .xRecv ⟨0, 0⟩ .nx (.ab ⟨1, false⟩) 65),
     (0xC6094001EFFF0001, .xRecv ⟨3, 5⟩ .die (.wb ⟨14, true⟩) 2047),
     (0xC6097A0007FF0002, .xRecv ⟨3, 5⟩ .mesh (.ring 29) 2047),
     (0xC00C000320420000, .xRed ⟨0, 0⟩ .nx .addF32 ⟨2, false⟩ 66),
     (0xC011009820440000, .xPut ⟨0, 4⟩ 0 ⟨2, false⟩ 9 68),
     (0xC01500A800450001, .xSig ⟨0, 4⟩ .add 10 69),
     (0xC6194005E8000000, .xAlign ⟨3, 5⟩ .ny ⟨14, true⟩),
     (0xC61D400607FFFFF8, .xFwd ⟨3, 5⟩ .pz 2047 8191),
     (0xC61541E807FF0003, .xSig ⟨3, 5⟩ .max 30 2047) ] : List (Nat × Instr))).all (fun x => decodeWord x.1 == some x.2) = true := by
  decide +kernel

/-- R61, R237: words written out from the formats, and the worked words of the specification. -/
theorem test_decode_grammar :
    (([(0xE6056803C0000000, .gBind ⟨3, 5⟩ 40 30),
     (0xE20804000C000046, .gStep ⟨1, 0⟩ 4 (.ab ⟨6, false⟩) 70),
     (0xE6096803C0801FFF, .gStep ⟨3, 5⟩ 40 (.reg 30) 8191),
     (0xE00C04000E00E048, .gMask ⟨0, 0⟩ 4 ⟨7, false⟩ 7 72),
     (0xE61168FC00000000, .gFork ⟨3, 5⟩ 63 40),
     (0xE615680000000000, .gMark ⟨3, 5⟩ 40),
     (0xE619680000000000, .gRollback ⟨3, 5⟩ 40),
     (0xE61D680000000000, .gCommit ⟨3, 5⟩ 40),
     (0xE621680000000000, .gFree ⟨3, 5⟩ 40),
     (0xE62568001D000001, .gSave ⟨3, 5⟩ 40 ⟨14, true⟩ true),
     (0xE62968001D000001, .gRestore ⟨3, 5⟩ 40 ⟨14, true⟩ true),
     (0xE62D68001D000000, .gState ⟨3, 5⟩ 40 ⟨14, true⟩) ] : List (Nat × Instr))).all (fun x => decodeWord x.1 == some x.2) = true := by
  decide +kernel

/-! ### States for the statements -/

/-- Core 0 of the state after reset, changed. -/
def withCore (f : Core → Core) : State := State.reset.setCore 0 (f Core.reset)
def withRegs (f : Regs → Regs) : State := withCore fun k => { k with regs := f k.regs }

/-- Partition 0 of a state, changed. -/
def onPart (s : State) (f : Part → Part) : State := s.setPart 0 (f (s.part 0))

/-- A queue control word (R30). -/
def ringWord (count tail depth esize buf base : Nat) : BitVec 128 :=
  BitVec.ofNat 128 (base + 2 ^ 23 * buf + 2 ^ 32 * esize + 2 ^ 48 * depth + 2 ^ 80 * tail + 2 ^ 96 * count)

/-- A transfer descriptor (R202). -/
def descBytes (aux bstride par conv peer dstride rows rbytes doff : Nat) : List Byte :=
  leBytes 32 (doff + 2 ^ 64 * rbytes + 2 ^ 80 * rows + 2 ^ 96 * dstride + 2 ^ 128 * peer + 2 ^ 140 * conv + 2 ^ 144 * par
    + 2 ^ 160 * bstride + 2 ^ 192 * aux)

/-- A memory of these bytes from an address on, in whole granules, poisoned where nothing is written if `dp`. -/
def memOf (dp : Bool) (a : Nat) (bs : List Byte) : Mem :=
  ⟨(place a bs).filter fun e => e.2 != 0, if dp then range' (a / 64) ((bs.length + 63) / 64) else []⟩

/-- The answer of a check is this one. -/
def okIs {α : Type} [DecidableEq α] (e : Except Trap α) (v : α) : Bool :=
  match e with
  | .ok x => decide (x = v)
  | .error _ => false

/-- The check passes. -/
def passes {α : Type} (e : Except Trap α) : Bool :=
  match e with
  | .ok _ => true
  | .error _ => false

/-- Scalars: 5, poisoned, addresses of HBM, misaligned, of a grammar image, of a peer, of a shared region, of no region. -/
def richS : Vector (Option W64) 32 :=
  (Vector.replicate 32 (some 0)).set 1 (some 5) |>.set 2 none |>.set 4 (some 3) |>.set 5 (some 0x1000) |>.set 6 (some 0x200000)
    |>.set 7 (some 0x110000) |>.set 8 (some 0x800000)

/-- Address registers: 0, a granule of SDM in a region, the last byte of SDM, misaligned, the end of AB. -/
def richA : Vector AReg 16 :=
  (Vector.replicate 16 ⟨0, 0, 0, 0⟩).set 2 ⟨0x1000, 0, 64, 0⟩ |>.set 3 ⟨0xFFFF, 0, 0, 0⟩ |>.set 4 ⟨1, 0, 0, 0⟩ |>.set 5 ⟨0x600000, 0, 0, 0⟩

/-- Rings of each kind; q5 and q9 are empty. -/
def richQ : Vector (BitVec 128) 32 :=
  (Vector.replicate 32 0).set 1 (ringWord 2 2 4 40 1 0x12000) |>.set 2 (ringWord 1 1 4 144 2 0) |>.set 3 (ringWord 1 1 2 64 1 0x14000)
    |>.set 4 (ringWord 1 1 4 1 1 0x15000) |>.set 5 (ringWord 0 0 4 40 1 0x10000) |>.set 6 (ringWord 0 0 4 1 1 0x16000)
    |>.set 7 (ringWord 1 1 4 32 1 0x17000) |>.set 8 (ringWord 1 1 4 128 1 0x18000) |>.set 9 (ringWord 0 0 4 128 1 0x1A000)
    |>.set 30 (ringWord 2 2 4 1 3 0x2000) |>.set 31 (ringWord 600 600 1024 1 3 0x3000)

/-- Descriptors: 0 rows of 1,024 bytes; 1 two rows of 256 bytes as blocks; 2 a halo; 3 a narrowing of F32; 4 a segment; 5 a gather;
6 a transfer to core 1; 7 a filter; 8 a put; 9 a forward to core 2; 10 rows of 320 bytes; 11 of 144 x 8 bytes; 12 a release of
signal value 7 in scope 3. -/
def richDesc : List Byte :=
  descBytes 0 0x400 0 0 0 0x400 0 1024 0 ++ descBytes 0 0 0 1 0 256 1 256 0
  ++ descBytes (4 * 2 ^ 32 + 16) 64 0 0 0 16 1 64 0 ++ descBytes 0 0 1 0 0 1024 0 1024 0
  ++ descBytes (2 ^ 32 + 128) 0 0 0 0 0 1 0 0x2000 ++ descBytes (100 * 2 ^ 32 + 0x20000) 64 0 0 0 64 0 64 0
  ++ descBytes 0 256 0 0 1 0 0 256 0 ++ descBytes (0x30000 * 2 ^ 32 + 512) 0x31000 4 0 0 0 0 0 0
  ++ descBytes 0 256 0 0 0 256 0 256 0 ++ descBytes 2 0 0 0 1 0 0 256 0
  ++ descBytes 0 0 0 0 0 320 0 320 0 ++ descBytes 0 0 0 0 0 1152 0 1152 0 ++ descBytes 7 0 0 7 0 0 0 0 0

/-- A grammar image of two states over 512 tokens: token 5 leads from state 0 to state 1 and pushes symbol 9. -/
def richImage : List Byte :=
  let h : List Byte := leBytes 4 0x47524131 ++ leBytes 2 1 ++ leBytes 2 0 ++ leBytes 4 2 ++ leBytes 4 512 ++ leBytes 2 4 ++ leBytes 2 0
    ++ leBytes 2 0 ++ leBytes 1 1 ++ leBytes 1 1 ++ leBytes 8 64 ++ leBytes 8 256 ++ leBytes 8 320 ++ leBytes 12 0
  let st : List Byte := leBytes 8 128 ++ leBytes 8 192 ++ leBytes 8 0 ++ leBytes 8 0
  h ++ leBytes 4 (crc32c h) ++ st ++ st ++ leBytes 64 (2 ^ 5) ++ leBytes 64 0
    ++ (leBytes 2 1 ++ leBytes 1 0 ++ leBytes 1 1 ++ leBytes 2 9 ++ leBytes 58 0)

/-- The regions of the core: HBM, a shared one, a peer's and one of SDM. -/
def richRegions : List Region :=
  [⟨0, 2, 0, 0, 0x100000⟩, ⟨0, 4, 0, 0x100000, 0x100000⟩, ⟨0, 4, 0, 0x200000, 0x10000⟩, ⟨3, 2, 0, 0x1000, 0x1000⟩]

def richCore (k : Core) : Core :=
  { k with
    regs := { k.regs with s := richS, p := k.regs.p.set 2 ⟨false, true⟩, a := richA, q := richQ, vm := k.regs.vm.set 1 1 }
    rdv := 1000, mrf := place 0 (List.replicate 4 5) ++ [(65536, 0xFFFFFFFFF)], regions := richRegions
    ab := memOf true 0x20000 (List.replicate 64 0), sdm := memOf true 0x1000 [1, 2, 3, 4], sdm0 := memOf true 0 richDesc
    w0 := { k.w0 with fmt := some false, ring := some 2 }
    gm := { k.gm with ctx := k.gm.ctx.set 1 { GCtx.reset with image := 0x1000, bound := true, pmax := 1, umax := 1 }
                                  |>.set 2 { GCtx.reset with image := 0x1000, bound := true, mark := true } } }

/-- Core 0 with all of these, and translations of 2 MiB of HBM and of a page of a peer. -/
def rich : State :=
  onPart { (withCore richCore) with hbm := memOf false 0x1000 richImage } fun x => { x with
    cache := [⟨0, 0x200000, .hbm 0, true, true, true, true⟩, ⟨0x200000, 0x10000, .peer 1 0 0 0, true, true, true, true⟩] }

/-- No wait, always on. -/
def fr : Frame := ⟨0, 0⟩
def noTok : Tok := ⟨false, false, false, false⟩
def row0 : Line := ⟨0, .r, .imm 0⟩

/-! ### Scalar and sync words -/

theorem wit_scalar : rich.predOn 0 = true ∧ rich.regs.getS 1 = some 5 ∧ rich.regs.getS 31 = some 0 ∧ rich.regs.getS 2 = none := by
  decide +kernel

/-- R90: a division by zero in FP64 traps only where the trap is enabled; both clauses are met. -/
theorem wit_ieeeTrap : ieeeTrap 0 8 false = none ∧ (ieeeTrap 63 8 false).isSome = true := by decide

theorem wit_SdmLoadAndStore :
    let co := rich.core rich.slot.core
    (co.inRegion 3 0x1FF8 8 .load = true ∧ co.inRegion 3 0x1FF8 8 .store = true ∧ 0x1FF8 % 8 = 0)
    ∧ ((co.regs.a[2]).ea = 0x1000 ∧ co.inRegion 3 0x1000 8 .load = true) ∧ (co.regs.a[4]).ea % 2 ≠ 0
    ∧ ((co.regs.a[3]).ea % 1 = 0 ∧ co.inRegion 3 0xFFFF 1 .load = false ∧ co.inRegion 3 0xFFFF 1 .store = false) := by decide +kernel

theorem wit_DeviceLoadAndStore :
    let bare := withCore richCore
    let e : TEntry := ⟨0, 0x200000, .hbm 0, true, false, false, true⟩
    let readOnly := onPart bare fun x => { x with cache := [e] }
    let late (s : State) (va land : Nat) (isLoad : Bool) : Bool := match s.translate (s.partOf 0) va with
      | .ok e => decide (land < s.pathLatency 0 isLoad 1 (e.at' va))
      | .fail _ _ _ => false
    (late rich 8 119 true = true ∧ late rich 8 119 false = true) ∧ (late rich 3 120 true = false ∧ late rich 3 120 false = false)
    ∧ (late rich 0x800000 1 true = false ∧ (rich.core 0).inRegion 0 0x800000 8 .load = false)
    ∧ ((bare.core 0).inRegion 0 0 8 .load = true ∧ (match bare.translate (bare.partOf 0) 0 with | .fail code _ _ => code == 0x22 | .ok _ => false) = true)
    ∧ ((match readOnly.translate (readOnly.partOf 0) 0 with | .ok x => x == e | .fail _ _ _ => false) = true ∧ Access.store.lacks e ≠ 0 ∧ late readOnly 0 120 false = false)
    ∧ rich.regs.getS 2 = none ∧ okIs (rich.devCheck 0 .load 0 8) [(.hbm 0, 8)] = true ∧ okIs (rich.devCheck 0 .store 0xFFFF8 8) [(.hbm 0xFFFF8, 8)] = true
    ∧ rich.pathLatency 0 true 1 (.hbm 0) = 120 ∧ rich.pathLatency 0 false 1 (.hbm 0xFFFF8) = 120
    ∧ rich.regs.getS 3 = some 0 ∧ rich.regs.getS 4 = some 3 := by decide +kernel

theorem wit_SpecialRegisters :
    ringFault (setHalf 0 true 7) = none ∧ ringFault (setHalf ((rich.core 0).regs.q[1]) false (2 ^ 63)) = some 0x01
    ∧ ringFault (setHalf ((rich.core 0).regs.q[1]) false ((rich.core 0).regs.q[1].setWidth 64 ||| 1)) = some 0x02
    ∧ ringFault (setHalf ((rich.core 0).regs.q[1]) false ((rich.core 0).regs.q[1].setWidth 64 ||| 0x600000)) = some 0x20
    ∧ rich.regs.getS 2 = none
    ∧ ctlWritable .fflags = true ∧ (wrValue .write 0 6).toNat % 8 = 6 ∧ (wrValue .set 0 5).toNat % 8 = 5 := by decide +kernel

theorem wit_RandomWordPop :
    let g := (rich.core 0).regs.ring 30
    g.depth ≠ 0 ∧ g.buf = 3 ∧ g.esize = 1 ∧ 2 ≤ g.count ∧ rich.predOn 0 = true ∧ rich.predOff 1 = true := by decide +kernel

theorem wit_SyncRegisterWords :
    rich.regs.tok[0] < 1 ∧ rich.regs.ctl.elastic = false ∧ (withRegs fun r => { r with tok := r.tok.set 5 8 }).regs.tok[5] = 8 := by
  decide +kernel

/-- One gate declared, one registration. -/
def gated : State :=
  onPart (withRegs fun r => { r with gates := [⟨true, 3, some 9⟩] }) fun x => { x with job := some {
    id := 1, queue := 0, ridx := 0, launch := ⟨0, false, 0, false, false, false, false, true, 0, 0, 0, 0, 0, 0, 0, 0, 0, 0, 0⟩,
    table := ⟨[⟨true, true, true, [], 0, 0, [], [⟨0, 5, 0, true⟩], []⟩], 0, 1, []⟩, pidx := 0, infl := 0, phase := 0, z := 0, q := 0,
    marked := false, replays := 0, start := 0, rank := 0, members := 2, hops := 1, done := false, csigHome := none } }

theorem wit_GateRegistrations :
    gated.predOn 0 = true ∧ gated.regs.getS 1 = some 0 ∧ (gated.gateDecls gated.slot.core).length = 1 ∧ gated.regs.gates.length < 8
    ∧ (let full := { gated with cores := (gated.setCore 0 { gated.core 0 with regs := { (gated.core 0).regs with
        s := richS, gates := (range' 0 8).map fun n => ⟨true, n, none⟩ } }).cores };
      full.regs.gates.length = 8 ∧ (full.gateDecls full.slot.core).length = 1 ∧ full.predOn 0 = true
        ∧ full.regs.getS 1 = some 5 ∧ full.regs.getS 2 = none
        ∧ full.regs.gates.all (fun r => r.sem && r.n != 9) = true ∧ full.regs.gates.any (fun r => r.sem && r.n == 7) = true) := by
  decide +kernel

theorem wit_SignOffFenceBreakStamp :
    (((State.reset.core 0).leftWords 0).all (· == 0) = true)
    ∧ ((((withCore fun k => { k with queues := k.queues.set 3 [⟨0, 0, 9⟩] }).core 0).leftWords 0).any (0 < ·) = true)
    ∧ State.reset.predOn 0 = true ∧ (State.reset.part 0).dbgOn.getLsbD 0 = false
    ∧ (let x := (onPart State.reset fun x => { x with dbgOn := 1 }).part 0;
      x.dbgOn.getLsbD 0 = true ∧ x.skipBrk = none ∧ x.reexec = none)
    ∧ ((onPart State.reset fun x => { x with dbgOn := 1, reexec := some 5 }).part 0).reexec ≠ none
    ∧ ((onPart State.reset fun x => { x with dbgOn := 1, skipBrk := some (0, .Y, 0) }).part 0).skipBrk
      = some (State.reset.slot.core.val, Eng.Y, (State.reset.core 0).retired[(1 : Fin 8)]) := by decide +kernel

theorem wit_UserTrap : State.reset.predOn 0 = true ∧ (State.reset.part (State.reset.partOf 0)).abort = none
    ∧ mapGet State.reset.undo 0 = none
    ∧ mapGet ({ State.reset with undo := [(0, Core.reset)] } : State).undo State.reset.slot.core.val = some Core.reset := by
  decide +kernel

/-! ### Matrix and vector words -/

theorem wit_MatrixSettings : rich.ready 0 [] 0 [rich.regs.tokDev (tokPops .M noTok)] [] ∧ (rich.core 0).holds = []
    ∧ rich.slot.tick < 1 ∧ (1 : BitVec 4) &&& 1 ≠ 0
    ∧ ((withCore fun k => { k with holds := [(1, 1)] }).core 0).holds = [(1, 1)] := by
  unfold State.ready; decide +kernel

theorem wit_WeightLoad :
    let k := rich.core rich.slot.core
    let rb := k.regs.ring 3
    rich.ready 0 [k.regs.ringCheck 2 (ringIs 2 144), k.regs.ringCheck 3 (ringIs 1 64)] 0
      [k.regs.tokDev (tokPops .M noTok), k.regs.popDev 3 1, k.regs.popDev 2 1] (wbPort ++ abBanks (rb.addr rb.head) 8) := by
  unfold State.ready; decide +kernel

/-- The first row of a block of four lanes, of the formats S9 and S5, dense and sparse. -/
theorem wit_MultiplyAccumulate :
    let r := rich.regs
    let ra := r.ring 1
    let w := (rich.core 0).wset (rich.core 0).wact
    let job (sparse on : Bool) : RowJob := ⟨false, sparse, 1, if sparse then 4 else 2, false, true, .s36, 0, false, 0, 0, 256, false,
      r.ctl.shape, r.beta.toInt, r.feed.toInt, 0, 0, on⟩
    rich.ready 0 [r.lineOdd .s36 row0, r.lineTile row0, r.ringCheck 1 (ringIs 1 40), r.ringCheck 2 (ringIs 2 144),
      failIf (w.fmt != some false) ⟨0x03, 0, 0, 0⟩] 0 [r.tokDev (tokPops .M noTok)] (abBanks (ra.addr ((rowEntry ra false 0 0).getD 0)) 5)
    ∧ (rich.core 0).rowTrap (job false false) = none ∧ (rich.core 0).rowTrap (job false true) = none
    ∧ rich.ready 0 [r.lineOdd .s36 row0, r.lineTile row0, r.ringCheck 1 (ringIs 1 40), r.ringCheck 4 (ringIs 1 1),
      failIf (w.fmt != some false) ⟨0x03, 0, 0, 0⟩] 0 [r.tokDev (tokPops .M noTok)] (abBanks (ra.addr ((rowEntry ra false 0 0).getD 0)) 5)
    ∧ w.ring = some 2 ∧ tagMatch ra.rtag w.tag = true ∧ r.ctl.ftrap.getLsbD 5 = false := by
  unfold State.ready; decide +kernel

/-- The sparse row: its entry of q4 is not poisoned. -/
theorem wit_SparseRow :
    let s := withCore fun k => { richCore k with ab := memOf true 0x15000 (List.replicate 64 0) }
    (s.core 0).rowTrap ⟨false, true, 1, 4, false, true, .s36, 0, false, 0, 0, 256, false, 15, 0, 0, 0, 0, true⟩ = none := by
  decide +kernel

/-- The checks of every vector word without a ring or a buffer. -/
theorem wit_vector :
    rich.ready 0 [rich.regs.linesCheck [(.f32, row0), (.f32, row0), (.f32, row0)]] 0 [] []
    ∧ rich.ready 0 [rich.regs.linesCheck [(.f64, ⟨5, .c, .imm 254⟩), (.f64, row0)]] 0 [] [50]
    ∧ rich.ready 0 [rich.regs.linesCheck [(.f32, row0), (.x72, row0)]] 0 [] [] ∧ ((rich.core 0).line .s36 row0).take 5 = [some 5, some 5, some 5, some 5, none] := by
  unfold State.ready; decide +kernel

theorem wit_VectorIntegerSaturates : VOp.fms ∈ [VOp.add, .sub, .mul, .fma, .fms, .min, .max] ∧ VTy.s16 ∈ [VTy.s36, .s64, .s16] := by decide

theorem wit_VectorNarrowRotateSlice :
    let block (r : Ring) : Bool := r.buf == 1 && r.esize == 40
    rich.ready 0 [rich.regs.linesCheck [(.f32, row0)], rich.regs.ringCheck 5 block, none] 0 [none] []
    ∧ rich.ready 0 [rich.regs.linesCheck [(.f32, row0)], rich.regs.ringCheck 5 block, rich.regs.ringCheck 31 (fun r => r.buf == 3 && r.esize == 1)] 0
      [rich.regs.popDev 31 256] []
    ∧ (rich.core 0).tagCheck 5 (tagOf true .b256 0 255) 8 = none ∧ rich.regs.ctl.ftrap = 0 ∧ (∀ f sn, ieeeTrap 0 f sn = none)
    ∧ (rich.regs.ring 5).rtag = 0 ∧ (rich.regs.ring 5).rtag ≠ tagOf true .b16 0 0 := by
  unfold State.ready; decide +kernel

theorem wit_VectorLoadStore :
    let bk := lineBanks 0 1024
    rich.ready 0 [rich.regs.linesCheck [(.f32, row0)]] 0 [] bk.1 ∧ rich.regs.vdAddr ⟨1, false⟩ 0 % 64 = 0
    ∧ rich.regs.vdAddr ⟨4, false⟩ 0 % 64 ≠ 0 ∧ rich.regs.vdAddr ⟨5, false⟩ 0 = Config.abBytes
    ∧ rich.regs.vdAddr ⟨5, false⟩ (-16) + 1024 = Config.abBytes
    ∧ rich.ready 0 [rich.regs.linesCheck [(.f32, row0)]] 0 [] (lineBanks (rich.regs.vdAddr ⟨4, false⟩ 0) 1024).1
    ∧ rich.ready 0 [rich.regs.linesCheck [(.f32, row0)]] 0 [] (lineBanks Config.abBytes 1024).1 := by
  unfold State.ready; decide +kernel

theorem wit_VectorRingLines :
    let ok (g : Ring) : Bool := g.buf == 1 && g.ebytes == 1024
    let r := rich.regs.ring 8
    1 ≤ r.count ∧ rich.ready 0 [rich.regs.linesCheck [(.f32, row0)], rich.regs.ringCheck 8 ok] 0 [] (lineBanks (r.addr r.head) 1024).1
    ∧ (let at_ := (rich.core 0).ringAt 8 1
      rich.ready 0 [rich.regs.linesCheck [(.f32, row0)], rich.regs.ringCheck 8 ok] 0 [] (lineBanks (at_.addr (at_.tail % max 1 at_.depth)) 1024).1
        ∧ 0 < at_.count ∧ at_.rtag = 0)
    ∧ (let s := withRegs fun k => { k with q := richQ.set 8 (richQ[8] ||| BitVec.ofNat 128 (5 * 2 ^ 112)) }
      let at_ := (s.core 0).ringAt 8 1
      s.ready 0 [s.regs.linesCheck [(.f32, row0)], s.regs.ringCheck 8 ok] 0 [] (lineBanks (at_.addr (at_.tail % max 1 at_.depth)) 1024).1
        ∧ 0 < at_.count ∧ at_.rtag = 5)
    ∧ (rich.regs.ring 9).count = 0 ∧ rich.regs.ctl.elastic = false
    ∧ firstOf [rich.regs.linesCheck [(.f32, row0)], rich.regs.ringCheck 9 ok] = none := by
  unfold State.ready; decide +kernel

theorem wit_VectorGatherScatter :
    rich.regs.ctl.elastic = false ∧ rich.regs.vdAddr ⟨1, false⟩ 0 % 64 = 0
    ∧ rich.ready 0 [rich.regs.linesCheck [(.f32, row0), (idxType .f32, idxLine row0)]] 0 [] (range' 0 32)
    ∧ bankOver (bankLoad (rich.liveAddrs fr (some 1) (rich.gsAddrs .f32 row0 0).2)) 8 = none
    ∧ gatherTrap (rich.regs.enabled none) false 4 0 (rich.gsAddrs .f32 row0 0).1 (rich.gsAddrs .f32 row0 0).2 ≠ none
    ∧ gatherTrap (rich.regs.enabled (some 0)) false 4 0 (rich.gsAddrs .f32 row0 0).1 (rich.gsAddrs .f32 row0 0).2 = none
    ∧ gatherTrap (rich.regs.enabled (some 0)) true 4 0 (rich.gsAddrs .f32 row0 0).1 (rich.gsAddrs .f32 row0 0).2 = none
    ∧ gatherTrap (rich.regs.enabled none) true 4 0 (rich.gsAddrs .f32 row0 0).1 (rich.gsAddrs .f32 row0 0).2 ≠ none := by
  unfold State.ready; decide +kernel

theorem wit_MatchRandomFill :
    rich.ready 0 [rich.regs.linesCheck [(.s16, row0), (.s16, row0)]] 0 [] []
    ∧ rich.ready 0 [rich.regs.linesCheck [(.f64, row0)], rich.regs.ringCheck 31 fun r => r.buf == 3 && r.esize == 1] 0 [rich.regs.popDev 31 256] [] := by
  unfold State.ready; decide +kernel

/-! ### Copy, link and grammar words -/

/-- The descriptor of a number. -/
def descAt (s : State) (n : Fin 2048) : Desc := ((s.core 0).desc n).getD Desc.none

/-- The fields that the descriptors name, each within what its word may use. -/
theorem wit_descriptors :
    let d (n : Fin 2048) := descAt rich n
    (List.range 13).all (fun n => ((rich.core 0).desc (Fin.ofNat 2048 n)).isSome) = true
    ∧ (d 0).fits [.bstride, .dstride, .rows, .rbytes, .doff] = true ∧ (d 0).rbytes = 1024 ∧ (d 0).rows = 0
    ∧ (d 1).fits [.conv, .dstride, .rows, .rbytes, .doff] = true ∧ (d 1).conv = 1 ∧ (d 1).rbytes = 256 ∧ (d 1).rows = 1
    ∧ (d 2).fits [.aux, .bstride, .conv, .dstride, .rows, .rbytes, .doff] = true ∧ (d 2).aux / 2 ^ 32 = 4 ∧ (d 2).aux % 2 ^ 32 = 16
    ∧ (d 3).narrowOk 0 = true ∧ nsrcOf ((d 3).par % 16) = some (.ty .f32) ∧ nfmtOf (d 3).conv = some .s9
    ∧ (d 4).fits [.aux, .rows, .doff] = true ∧ (d 5).fits [.aux, .bstride, .dstride, .rows, .rbytes, .doff] = true
    ∧ (d 5).rows < 1024 ∧ (d 5).aux % 64 = 0 ∧ (d 6).fits [.bstride, .peer, .rows, .rbytes] = true
    ∧ (d 7).fits [.aux, .bstride, .par, .doff] = true ∧ (d 7).par ≤ 64 ∧ (d 7).aux % 2 ^ 32 = 512
    ∧ (d 9).fits [.aux, .conv, .peer, .rows, .rbytes] = true ∧ pathOf (d 9).conv = some .mesh ∧ (d 9).aux < 256
    ∧ (d 12).fits [.aux, .conv, .doff] = true ∧ (d 12).conv < 8 := by decide +kernel

/-- A load or store of the 1,024 bytes at 0 in two beats, with the least land of its path. -/
theorem wit_LoadRows :
    let d := descAt rich 0
    let v := rich.regs.getS 3
    rich.ready 0 [] (120 + 2 - 1) [rich.regs.tokDev (tokPops .L noTok), rich.lSlotDev 120 2] []
    ∧ okIs (rich.rowChecks .load v [failIf (d.va v 0 % 8 != 0) ⟨0x02, 0, d.va v 0, 0⟩, bufAlign .ab d.rbytes (d.ba 0 0)]
        [bufRange .ab d.rbytes (d.ba 0 0)] [(d.va v 0, d.rbytes)] true 120 2) [[(.hbm 0, 1024)]] = true
    ∧ rich.ready 0 [rich.regs.ringCheck 5 fun g => g.buf == 1 && g.esize == 40] (120 + 2 - 1)
        [rich.regs.tokDev (tokPops .L noTok), rich.lSlotDev 120 2] []
    ∧ okIs (rich.rowChecks .load v [none, none] [] [(0, 256), (256, 256)] true 120 2) [[(.hbm 0, 256)], [(.hbm 256, 256)]] = true
    ∧ (descAt rich 1).va v 1 = 256 ∧ (rich.core 0).tagCheck 5 0 (120 + 1 - 1) = none
    ∧ rich.ready 0 [rich.regs.lineTile ⟨0, .r, .imm 0⟩] (120 + 1 - 1) [rich.regs.tokDev (tokPops .L noTok), rich.lSlotDev 120 1] []
    ∧ lineBytes .f32 .r = 1024 := by
  unfold State.ready; decide +kernel

/-- A tile of two rows of 64 bytes of an image of 4 rows of 16. -/
theorem wit_LoadHalo :
    let d := descAt rich 2
    let span (r : Nat) := haloSpan .zero 4 16 (0 + r) 0 64
    rich.ready 0 [] (120 + 2 - 1) [rich.regs.tokDev (tokPops .L noTok), rich.lSlotDev 120 2] []
    ∧ passes (rich.rowChecks .load (rich.regs.getS 3) [bufAlign .ab 64 0, bufAlign .ab 64 64] [bufRange .ab 64 0, bufRange .ab 64 64]
        [d.haloRow 1 (span 0), d.haloRow 1 (span 1)] true 120 2) = true
    ∧ d.haloRow 1 (span 1) = (16, 16) := by
  unfold State.ready; decide +kernel

theorem wit_LoadNarrow :
    let d := descAt rich 3
    nrndOf (fld d.par 6 4) 0 = some .rne ∧ blkOf (fld d.par 8 7) = some .b16 ∧ (NSrc.ty .f32).count d.rbytes = 256
    ∧ rich.ready 0 [rich.regs.ringCheck 5 fun g => g.buf == 1 && g.esize == 40] (120 + 1 - 1)
      [rich.regs.tokDev (tokPops .L noTok), rich.lSlotDev 120 1] []
    ∧ okIs (rich.rowChecks .load (rich.regs.getS 3) [none] [] [(0, 1024), (0, 0)] true 120 1) [[(.hbm 0, 1024)], []] = true
    ∧ (rich.core 0).tagCheck 5 (tagOf false .b16 0 0) 120 = none := by
  unfold State.ready; decide +kernel

/-- A segment of one block, whose bounds are 0 and 1, and a gather of row 0 through the list at 0x20000. -/
theorem wit_LoadIndexed :
    let s : State := { rich with hbm := memOf false 0x2000 [0, 0, 0, 0, 1, 0, 0, 0] }
    let g : Gather := ⟨0x20000, 1, 100, 0, 64, 64, 0, 64, 120⟩
    s.ready 0 [s.regs.ringCheck 5 fun g => g.buf == 1 && g.esize == 40, s.regs.ringCheck 6 fun g => g.buf == 1 && g.esize == 1]
      (120 + 2 - 1) [s.regs.tokDev (tokPops .L noTok), s.lSlotDev 120 2] []
    ∧ passes (s.csrSegment (descAt rich 4) (some 0) 0 2 120) = true
    ∧ (s.core 0).tagCheck 5 0 120 = none ∧ (s.core 0).tagCheck 6 0 120 = none
    ∧ s.ready 0 [] (120 + 1 - 1) [s.regs.tokDev (tokPops .L noTok), s.lSlotDev 120 1] [0]
    ∧ firstOf [bufAlign .ab 64 0, bufRange .ab 64 0, bufRange .ab 4 g.list] = none ∧ passes (s.gatherGroup g s 0) = true
    ∧ cdiv (cdiv 1 16) 8 < 120 := by
  unfold State.ready; decide +kernel

/-- The stores of descriptor 0 from AB, of a ring of 1,024 bytes and of a row, each on its path. -/
theorem wit_StoreRows :
    let v := rich.regs.getS 3
    let reads : List (Nat × List Nat) := [(0, bufBanks .ab 0 512), (1, bufBanks .ab 512 512)]
    rich.storeReady fr noTok [] [] reads [120, 121] 121
    ∧ okIs (rich.rowChecks .store v [none, bufAlign .ab 1024 0] [bufRange .ab 1024 0] [(0, 1024)] false 120 2) [[(.hbm 0, 1024)]] = true
    ∧ okIs (rich.rowChecks (.acc (accNo .addS32)) v [none, bufAlign .ab 1024 0] [bufRange .ab 1024 0] [(0, 1024)] false 120 2)
      [[(.hbm 0, 1024)]] = true
    ∧ rich.storeReady fr noTok [rich.regs.ringCheck 8 fun g => g.buf == 1 && g.ebytes == 1024] [rich.regs.popDev 8 1]
      [(0, []), (1, [])] [120, 121] 121
    ∧ okIs (rich.rowChecks .store v [none] [] [(0, 1024)] false 120 2) [[(.hbm 0, 1024)]] = true
    ∧ rich.storeReady fr noTok [rich.regs.lineTile ⟨0, .r, .imm 0⟩] [] [(0, [48])] [120] 120
    ∧ okIs (rich.rowChecks .store v [none] [] [(0, 1024)] false 120 1) [[(.hbm 0, 1024)]] = true := by
  unfold State.storeReady State.ready; decide +kernel

theorem wit_StoreFilter :
    let f : FiltJob := ⟨0x30000, 0, 0x31000, [], false, 512, 4, 120, [], 0, 0, 0, [], false, false⟩
    let d := descAt rich 7
    d.aux / 2 ^ 32 = f.bitmap ∧ ubits 32 d.bstride = f.record ∧ d.par = f.len ∧ d.va (some 0) 0 = 0
    ∧ rich.storeReady fr noTok [] [] ((range' 0 f.beats).map fun j => (j, bufBanks .ab (f.beat j).1 (f.beat j).2))
      ((range' f.maps (f.beats - f.maps)).map fun j => 120 + j) (120 + f.beats - 1 + 320)
    ∧ okIs (rich.devPieces .store true 0 (f.v * f.size)) [(.hbm 0, 2048)] = true
    ∧ firstOf [bufRange .ab 2048 0, bufRange .ab 64 f.bitmap, bufRange .ab 512 f.record,
      rich.landTrap false 120 f.beats [(0, 2048)]] = none := by
  unfold State.storeReady State.ready; decide +kernel

/-- An atomic addition in HBM and in a shared region, one at a peer, and a misaligned one. -/
theorem wit_AtomicWords :
    rich.ready 0 [] 0 [rich.regs.tokDev (tokPops .W noTok)] [] ∧ okIs (rich.devCheck 0 .amo 0 8) [(.hbm 0, 8)] = true
    ∧ okIs (rich.devCheck 0 .sig 0x110000 8) [(.hbm 0x110000, 8)] = true ∧ okIs (rich.devCheck 0 .amo 0x200000 4) [(.peer 1 0 0 0, 4)] = true
    ∧ rich.regs.getS 3 = some 0 ∧ rich.regs.getS 7 = some 0x110000 ∧ rich.regs.getS 6 = some 0x200000
    ∧ ((rich.regs.getS 4).getD 0).toNat % 4 ≠ 0 ∧ rich.regs.getS 1 = some 5 := by
  unfold State.ready; decide +kernel

/-- A transfer of one beat to core 1 of the die, at the least land of the mesh. -/
theorem wit_LinkSend :
    leastLand 0 .mesh 1 = some 10 ∧ (descAt rich 6).peer = 1
    ∧ rich.ready 0 [rich.pathTrap .mesh 1] 10 [rich.xSlotDev 54 [0]] (54 :: bufBanks .ab 0 256)
    ∧ firstOf [bufAlign .ab 256 0, bufRange .ab 256 0] = none
    ∧ rich.ready 0 [rich.pathTrap .mesh 1, rich.regs.ringCheck 7 fun g => g.buf == 1 && g.ebytes == 256] 10
      [rich.regs.popDev 7 1, rich.xSlotDev 54 [0]] [54] := by
  unfold State.ready; decide +kernel

/-- The core with a beat from core 1 that is due at its tick. -/
def receiver : State :=
  { rich with cores := (rich.setCore 0 { rich.core 0 with
      rdv := 20, arrivals := [(false, ⟨0, .mesh, 1, 0, 256, 0, List.replicate 256 (some 0), false, 0, false⟩)] }).cores }

theorem wit_LinkReceive :
    let s := receiver
    let co := s.core 0
    s.active ∧ (co.firstBeat (sendTick 0 s.src) .mesh 1).map (fun b => (b.rows, b.rbytes, b.empty)) = some (0, 256, false)
    ∧ (co.regs.ctl.elastic || !co.slotTaken .X 566 s.slot.tick 1) = true
    ∧ s.ready 0 [s.pathTrap .mesh 1] 0 [] (566 :: bufBanks .ab 0 256).eraseDups
    ∧ s.ready 0 [s.pathTrap .mesh 1] 2 [] (566 :: bufBanks .ab 0 256).eraseDups
    ∧ s.ready 0 [s.pathTrap .mesh 1, co.regs.ringCheck 7 fun g => (g.buf == 1 || g.buf == 2) && g.ebytes == 256] 0 [] [566, 29, 30, 31, 0]
    ∧ s.ready 0 [s.pathTrap .mesh 1, s.pathTrap .mesh 2] 13 [s.xSlotDev 54 [1], s.leastDev .mesh 2 13 1] [566]
    ∧ firstOf [bufAlign .ab 256 0, bufRange .ab 256 0] = none ∧ co.tagCheck 7 0 0 = none := by
  unfold State.ready State.active; decide +kernel

/-- A system phase, in which torus paths may be used. -/
theorem wit_LinkUntimetabled :
    let v := rich.regs.getS 3
    rich.ready 0 [] 0 [rich.xSlotDev 54 [0]] (54 :: bufBanks .ab 0 256) ∧ (descAt rich 8).rbytes = 256
    ∧ passes (rich.rowChecks .store v [none, bufAlign .ab 256 0] [bufRange .ab 256 0] [(0, 256)] false (2 ^ 40) 1) = true
    ∧ rich.ready 0 [] 0 [] [] ∧ (descAt rich 12).va v 0 = 0 ∧ gated.sysPhase 0 = true
    ∧ (withCore fun k => { k with rdv := 352 }).ready 0 [] 352 [State.reset.xSlotDev 54 [0]] [54] := by
  unfold State.ready; decide +kernel

/-- The image is good: token 5 is allowed in state 0, and its step pushes symbol 9. -/
theorem wit_GrammarImageWords :
    let g := (rich.core 0).gm
    let x := g.ctx[(1 : Fin 64)]
    rich.active ∧ rich.regs.getS 5 = some 0x1000 ∧ (rich.core 0).inRegion 0 0x1000 64 .image = true ∧ g.poison [ctxGranule 1] = none
    ∧ okIs (rich.imageHead 0x1000) ⟨2, 512, 4, 0, 0, 1, 1, 64, 256, 320⟩ = true ∧ rich.imageExtent 0x1000 320 = true
    ∧ rich.ready 0 [] 0 [] [51] ∧ x.bound = true ∧ x.umax ≤ g.free ∧ 64 + x.pmax + x.umax = 66 ∧ rich.regs.getS 1 = some 5
    ∧ okIs (rich.stepPlan g 1 x 5 (g.peekNodes x.umax g.head)) ⟨some (.step 1 0 1 1), 0x4000, [(0, 9)], [], []⟩ = true
    ∧ g.refTrap [] [] = none
    ∧ okIs ((rich.allowedMap g x).map (·.take 2)) [0x20, 0] = true ∧ x.vcode = 0 ∧ 64 + 1 + cdiv x.dmax 4 = 65
    ∧ passes (rich.allowedMap g x) = true := by
  unfold State.ready State.active; decide +kernel

/-- The token in AB. -/
theorem wit_GrammarStepFromAb :
    let s := withCore fun k => { richCore k with ab := memOf true 0 [5, 0, 0, 0] }
    leNat? ((s.core 0).bufRead .ab 0 4) = some 5 ∧ s.ready 0 [] 0 [] [51, 0] := by
  unfold State.ready; decide +kernel

theorem wit_GrammarContextWords :
    let g := (rich.core 0).gm
    (g.ctx[(1 : Fin 64)]).bound = true ∧ (g.ctx[(1 : Fin 64)]).mark = false ∧ (g.ctx[(2 : Fin 64)]).mark = true
    ∧ (g.ctx[(63 : Fin 64)]).bound = false ∧ g.refTrap [] [] = none ∧ g.refTrap [0, 0, 16383] [16383] = none := by decide +kernel

/-- A record of context 1 in AB, and the last place that a record takes. -/
theorem wit_GrammarRecordWords :
    let bs := ({ GCtx.reset with image := 0x1000, bound := true } : GCtx).record true
    let s := withCore fun k => { richCore k with ab := memOf true 0 (bs ++ bs) }
    s.ready 0 [] 0 [] [] ∧ s.ready 0 [] 0 [] [0] ∧ (s.core 0).bufRead .ab 0 32 = bs.map some ∧ (bs.getD 7 0).getLsbD 3 = true
    ∧ (ctxOfRecord bs).bound = true ∧ leNat (slice bs 30 2) = crc32c (bs.take 30) % 65536
    ∧ (s.core 0).gm.refTrap (ctxOfRecord bs).ptrs [] = none ∧ (0x5FFFE0 : Nat) % 32 = 0 ∧ 0x5FFFE0 + 32 = Config.abBytes := by
  unfold State.ready; decide +kernel

/-! ### Events of cores, of the sequencer and of faults -/

/-- A word of core 0 with something pending, issued in strict or in elastic mode. -/
def pendOf (elastic : Bool) (a : Act) : Pend := ⟨3, 1, 0, ⟨.S, 0, 0, 0, 0, elastic⟩, a⟩
def pending (a : Act) : State := withCore fun k => { k with pend := [pendOf false a] }

/-- A landing that clashes, one that lacks nothing, one without room in strict and in elastic mode, and each kind of item. -/
theorem wit_LandingEvents :
    let co : Core := { richCore Core.reset with pend := [] }
    let es : List Effect := [.setS 1 (some 7)]
    let keys := co.effectsKeys es
    let src (elastic : Bool) : Src := (pendOf elastic (.land [])).src
    let full := withRegs fun r => { r with q := r.q.set 1 (ringWord 4 0 4 40 1 0) }
    (keys.any fun k => (keys.contains k : Bool) && !co.landed.contains k) = true ∧ co.landed = []
    ∧ (keys.any fun k => ({ co with landed := keys } : Core).landed.contains k) = true
    ∧ firstOf (es.map (rich.landDev 0 (src false))) = none
    ∧ (firstOf ([.push 1 none 0].map (full.landDev 0 (src false)))).isSome = true ∧ (src false).elastic = false
    ∧ (firstOf ([.push 1 none 0].map (full.landDev 0 (src true)))).isSome = true ∧ (src true).elastic = true
    ∧ (full.regs.ring 1).count = (full.regs.ring 1).depth ∧ (full.part 0).abort = none
    ∧ (let f : FiltJob := ⟨0, 0, 0x31000, [], false, 512, 4, 120, [], 0, 0, 0, [], false, false⟩
      [.land es, .lBeat es, .filt f].all (fun a => ((pending a).core 0).pend.map (fun x => x.act) == [a]) = true) := by
  decide +kernel

/-- Rings with room and with entries, memories and a map in their form, units that differ, slots that are poisoned and not. -/
theorem wit_LandedEffects :
    let r := rich.regs.ring 1
    let co := rich.core 0
    r.count < r.depth ∧ r.tail < r.depth ∧ 2 ≤ r.count ∧ r.head < r.depth ∧ r.buffer = some .ab ∧ co.ab.wf = true ∧ rich.hbm.wf = true
    ∧ Buf.wb ≠ Buf.gm ∧ (71 : Nat) / Buf.wb.unit ≠ 72 / Buf.wb.unit ∧ (71 : Nat) / Buf.wb.unit = 0 / Buf.wb.unit
    ∧ (range' 0 1).all (fun i => (0xFFF + i) / 64 != 0x1000 / 64) = true ∧ (rich.part (rich.partOf 0)).journals = false
    ∧ mapSorted co.mrf = true ∧ mapGet co.mrf 3 = some 5 ∧ mapGet co.mrf 4 = none
    ∧ (([⟨3, 7, 6, false, false⟩, ⟨4, 7, 6, false, true⟩, ⟨5, 7, 6, true, false⟩] : List SlotWrite).map (·.key)).Nodup
    ∧ mapSorted co.gm.nodes = true ∧ (co.gm.ctx[(1 : Fin 64)]).bound = true
    ∧ co.gm.queue.length + (co.gm.ctx[(1 : Fin 64)]).ptrs.length ≤ 4096 := by decide +kernel

/-- A row that may enter, one whose bands sleep, one whose ring is empty in strict and in elastic mode; the other items; a frozen
core. -/
theorem wit_CoreItemEvents :
    let r : RowJob := ⟨false, false, 1, 2, false, true, .s36, 0, false, 0, 0, 256, false, 15, 0, 0, 0, 0, true⟩
    let ops : List Act := [.wake 1, .loopExit 0 5, .home (.hbm 0) [] .write]
    let held := onPart State.reset fun x => { x with deferred := [{ src := .part 0, act := .write (.hbm 0) [] }] }
    let lane : DrainJob := ⟨r, 0, 3, List.replicate 256 (5, 0, false, false, false)⟩
    ((rich.core 0).rowTrap { r with shape := 0 }).isNone = true
    ∧ rowEntry ((rich.core 0).regs.ring 1) false 0 0 = some ((rich.core 0).regs.ring 1).head
    ∧ ((pending (.drain lane)).core 0).pend.map (fun x => x.act) == [.drain lane]
    ∧ lane.lanes[lane.c]? = some (5, 0, false, false, false) ∧ drainTrap (rich.core 0).mrf [lane] (drainLane (rich.core 0).mrf lane).2 = none
    ∧ (rich.core 0).landed = [] ∧ (rich.core 0).memWf = true
    ∧ ((withRegs fun x => { x with q := richQ, bands := 0 }).core 0).rowTrap r = some ⟨0x07, 0, 0, 1⟩
    ∧ (rich.core 0).rowTrap { r with qa := 5 } = some ⟨0x05, 5, 0, 1⟩ ∧ (pendOf true (.row r)).src.elastic = true
    ∧ ops.all (fun a => ((pending a).core 0).pend.map (fun x => x.act) == [a]) = true
    ∧ State.reset.deferrer (.part 0) (.hbm 0) 8 = none ∧ held.deferrer (.part 0) (.hbm 0) 8 = some 0
    ∧ ((receiver.core 0).arrivals.find? (isBeat 0 .mesh 1 0)).isSome = true ∧ Core.reset.arrivals.find? (isBeat 0 .mesh 1 0) = none
    ∧ ({ Core.reset with stalled := some ⟨.V, 48, []⟩ } : Core).stalled = some ⟨.V, 48, []⟩ := by decide +kernel

/-- Core 0 with an operation in a state. -/
def outgoing (st : OpState) (kind : OpKind) (va : Nat) : State :=
  { rich with cores := (rich.setCore 0 { rich.core 0 with
      outb := [⟨4, ⟨.W, 0, 0, 0, 0, false⟩, 0, 0, [], kind, va, some (.hbm 0), .core, false, [], false, st⟩] }).cores }

/-- An operation held, with and without a fence before it; sent, within a tick and at its start, and behind a phase that declared its
place; on its way back; a put; an `x.sig` to a peer and beyond the address space; writes that arrive. -/
theorem wit_OutboundAndInbound :
    let amo : OpKind := .amo .add .s64 1 0
    let s := outgoing .held amo 0
    let declared (t : State) : State := onPart t fun x => { x with guarded := [(0, 64)] }
    let peerPage : TEntry := ⟨0x200000, 0x10000, .peer 1 0 0 0, true, true, true, true⟩
    ((s.core 0).op 4).map (fun o => (o.st, o.isPut)) = some (.held, false) ∧ ((s.core 0).op 4).map (s.maySend 0) = some true
    ∧ (let t : State := { s with cores := (s.setCore 0 { s.core 0 with outb := (s.core 0).outb.map fun (o : OutOp) => { o with fences := [(4, .core)] } }).cores };
      ((t.core 0).op 4).map (t.maySend 0) = some false)
    ∧ (let t := outgoing .sent amo 0;
      ((t.core 0).op 4).map (fun o => t.mayApply 0 o (.hbm 0)) = some true ∧ t.homeTick 0 (.hbm 0) = none
        ∧ t.deferrer (t.sourceOf 0) (.hbm 0) 8 = none
        ∧ (onPart t fun x => { x with seq := .phase, base := 9 }).homeTick 0 (.hbm 0) = some 9
        ∧ (onPart t fun x => { x with deferred := [{ src := t.sourceOf 0, act := .write (.hbm 0) [] }] }).deferrer (t.sourceOf 0) (.hbm 0) 8 = some 0)
    ∧ (let e : OutOp := ⟨3, ⟨.W, 0, 0, 0, 0, false⟩, 0, 0, [], amo, 0, some (.hbm 0), .core, false, [], false, .held⟩
      let t : State := { s with cores := (s.setCore 0 { s.core 0 with outb := e :: (s.core 0).outb.map fun (o : OutOp) => { o with st := .sent } }).cores };
      ((t.core 0).op 4).map (fun o => (o.st, o.isPut, o.home, t.mayApply 0 o (.hbm 0))) = some (.sent, false, some (.hbm 0), false))
    ∧ (let t := outgoing .translating (.sig .add 1) 0x200000;
      t.translate (t.partOf 0) 0x200000 = .ok peerPage ∧ peerPage.at' 0x200000 = .peer 1 0 0 0 ∧ Access.sig.lacks peerPage = 0)
    ∧ ((outgoing .translating (.sig .add 1) (2 ^ 52)).core 0).op 4 ≠ none
    ∧ (((outgoing .performed amo 0).core 0).op 4).map (·.isPut) = some false
    ∧ (((outgoing .performed (.put 3 [] 0) 0).core 0).op 4).map (·.isPut) = some true
    ∧ (((outgoing .acked (.put 3 [] 0) 0).core 0).op 4).map (fun o => (o.st, o.again)) = some (.acked, false)
    ∧ State.reset.deferrer (.fn 1) (.hbm 0) 8 = none ∧ (declared State.reset).deferrer (.fn 1) (.hbm 0) 8 = some 0
    ∧ State.reset.mod.posted = []
    ∧ ({ State.reset.mod with posted := [{ src := .fn 1, act := .signal (.hbm 0) .add 1 }] } : Module).posted.any (fun w => w.src == .fn 1) = true
    ∧ leNat? (State.reset.homeRead (.hbm 0) 8) = some 0
    ∧ leNat? (({ State.reset with hbm := State.reset.hbm.mark false 0 true } : State).homeRead (.hbm 0) 8) = none
    ∧ (let t := outgoing .sent (.sig .max 1) 0
      ((t.core 0).op 4).map (fun o => (o.st, o.kind, t.mayApply 0 o (.hbm 0))) = some (.sent, .sig .max 1, true)
        ∧ leNat? (t.homeRead (.hbm 0) 8) = some 0
        ∧ leNat? (({ t with hbm := t.hbm.mark false 0 true } : State).homeRead (.hbm 0) 8) = none) := by decide +kernel

/-! ### The phase sequencer -/

/-- The table of the job in `gated`, with successors and inflections. -/
def tableOf (succ : List Nat) (infls : List Infl) : PTable :=
  ⟨[⟨true, true, true, succ, 0, 0, infls, [⟨0x100, 5, 0, true⟩], []⟩], 0, 1, []⟩
def inflOf (bound : Nat) : Infl := ⟨bound, [], [], [], []⟩

/-- The sequencer of partition 0 at a step, with its job and registrations changed. -/
def seqAt (q : Seq) (gates : List GateReg) (f : Job → Job) (g : Part → Part) : State :=
  let s := { gated with cores := (gated.setCore 0 { gated.core 0 with regs := { (gated.core 0).regs with gates := gates } }).cores }
  let job (x : Part) : Option Job := x.job.map fun j => f { j with table := tableOf [] [inflOf 0] }
  onPart s fun x => g { x with seq := q, next := some ⟨0, 0, 0, 0, 0, false⟩, gateHomes := [(0, .hbm 0x100)], job := job x }

/-- Steps 3 and 4: a marked phase, no successor, the second of two inflections, and none. -/
theorem wit_SequencerSteps :
    let sized (t : State) : State := { t with cores := (t.setCore 0 { t.core 0 with regs := { (t.core 0).regs with
      ctl := { (t.core 0).regs.ctl with size := 5, expSize := true } } }).cores }
    let step4 (succ : List Nat) (infls : List Infl) : State := sized (seqAt (.slack 4) [] (fun j => { j with table := tableOf succ infls }) id)
    let next (t : State) : Option Nat := (t.part 0).job.map fun j => (j.entry.map fun e => nth e.succ (t.exports 0).2 0xFFFF).getD 0xFFFF
    let bounds (t : State) : List Nat := (((t.part 0).job.bind fun j => j.table.phases[0]?).map fun e => e.infls.map (·.bound)).getD []
    ((seqAt (.slack 3) [] (fun j => { j with marked := true }) id).part 0).job.map (fun j => (j.marked, (j.entry.map (·.replayable)).getD false, j.replays))
      = some (true, true, 0)
    ∧ ((seqAt (.slack 9) [] id id).part 0).expired = false
    ∧ next (step4 [] []) = some 0xFFFF
    ∧ next (step4 [0] [inflOf 3, inflOf 7]) = some 0 ∧ (step4 [0] [inflOf 3, inflOf 7]).exports 0 = (5, 0) ∧ bounds (step4 [0] [inflOf 3, inflOf 7]) = [3, 7]
    ∧ next (step4 [0] [inflOf 3]) = some 0 ∧ bounds (step4 [0] [inflOf 3]) = [3] ∧ ((step4 [0] [inflOf 3]).part 0).frec = none := by
  decide +kernel

/-- Registrations whose gates hold, wait, are invalid and are poisoned; the evaluations that these end. -/
theorem wit_SequencerGates :
    let reg : GateReg := ⟨false, 0, none⟩
    let s (v : Nat) (gates : List GateReg) : State := { seqAt (.slack 5) gates id id with hbm := memOf false 0x100 (leBytes 8 v) }
    let bad (gates : List GateReg) : State := { seqAt (.slack 5) gates id id with hbm := ⟨[], [4]⟩ }
    (s 5 [reg]).endedGates 0 = [⟨0x100, 5, 0, true⟩] ∧ mapGet ((s 5 [reg]).part 0).gateHomes 0 = some (.hbm 0x100)
    ∧ leNat? ((s 5 [reg]).homeRead (.hbm 0x100) 8) = some 5
    ∧ (leNat? ((s (2 ^ 63) [reg]).homeRead (.hbm 0x100) 8) = some (2 ^ 63) ∧ (BitVec.ofNat 64 (2 ^ 63) : W64) = 0x8000000000000000)
    ∧ leNat? ((bad [reg]).homeRead (.hbm 0x100) 8) = none
    ∧ (s 5 [reg]).judge 0 (0, reg) = .holds ∧ (s 4 [reg]).judge 0 (0, reg) = .waits true
    ∧ (s 5 [⟨true, 3, some 0⟩]).judge 0 (0, ⟨true, 3, some 0⟩) = .holds ∧ (s 5 [⟨true, 3, some 9⟩]).judge 0 (0, ⟨true, 3, some 9⟩) = .waits false
    ∧ (s 5 [reg]).registrations 0 = [(0, reg)]
    ∧ (bad [reg]).registrations 0 = [] ++ (0, reg) :: [] ∧ (match (bad [reg]).judge 0 (0, reg) with | .fault _ => true | _ => false) = true
    ∧ ((bad [reg]).part 0).frec = none ∧ ((bad [reg]).part 0).expired = false := by decide +kernel

/-- Sign-offs, barriers, readiness and the start of a phase. -/
theorem wit_SequencerBarriers :
    let p (q : Seq) (f : Job → Job) (g : Part → Part) : Part := (seqAt q [] f g).part 0
    let three (j : Job) : Job := { j with members := 3 }
    let busy := pending (.land [])
    let ranks (rs : List (Nat × Nat × Nat × Nat)) (x : Part) : Part := { x with readyRanks := rs }
    (p .signing id fun x => { x with abort := some ⟨⟨0x3C, 0, none, none, 0, 0, []⟩, 0, 0, 24, false⟩ }).abort.isSome = true
    ∧ ((onPart busy fun x => { x with seq := .signing }).part 0).abort = none ∧ (onPart busy fun x => { x with seq := .signing }).drained 0 = false
    ∧ (p .signing id id).abort = none ∧ (seqAt .signing [] id id).drained 0 = true ∧ (p .signing id id).dmodeOn = 0
    ∧ (p (.slack 2) id id).job.isSome = true
    ∧ (p (.slack 9) three (ranks [(0, 0, 0, 1)])).job.map (fun j => (j.rank, j.members)) = some (0, 3)
    ∧ (p (.slack 9) id (ranks [(0, 0, 0, 1)])).readyRanks.all (fun r => r.1 != 1) = true
    ∧ (p (.slack 9) id (ranks [(0, 0, 0, 1)])).readyRanks.any (fun r => r.1 == 0) = true
    ∧ (p (.slack 9) id id).job.map (·.members) = some 2 ∧ (p (.slack 9) id id).next = some ⟨0, 0, 0, 0, 0, false⟩
    ∧ ([(0, 0, 0, 1), (1, 0, 0, 2)] : List (Nat × Nat × Nat × Nat)).all (fun r => r.2.1 == 0 && r.2.2.1 == 0) = true
    ∧ ([(0, 0, 0, 1), (1, 4, 0, 2)] : List (Nat × Nat × Nat × Nat)).any (fun r => r.2.1 != 0) = true ∧ (p (.slack 9) id id).frec = none
    ∧ (p (.slack 9) id id).announced = false ∧ (p (.slack 9) id (ranks [(0, 0, 0, 1)])).announced = true
    ∧ (p (.slack 10) id id).dmode = 0 ∧ (p (.slack 10) id fun x => { x with dmode := 2, snap := true }).snap = true
    ∧ ((p (.slack 10) id fun x => { x with dmode := 1 }).dmode = 1 ∧ (p (.slack 10) id fun x => { x with dmode := 1 }).snap = false)
    ∧ (seqAt (.slack 10) [] (fun j => { j with table := ⟨[⟨true, true, false, [], 0, 0, [inflOf 0], [], []⟩], 0, 1, []⟩ }) id).nextSystem 0 = false
    ∧ (p (.slack 10) id id).dstopReq = false ∧ (p (.slack 10) id id).next.isSome = true ∧ (p .phase id id).seq = .phase := by decide +kernel

/-- A queue whose gated head record waits for the object at 0x100. -/
def waitingQueue : Queue :=
  { Queue.reset with
    qstate := 1, enable := true, gateHome := some (.hbm 0x100), gateFrom := some 0
    head1 := some ⟨0, false, 0, false, false, true, false, false, 0, 0, 0, 0, 0, 0, 0, 0, 0, 0, 0⟩ }

/-- Notifications of a gate's line, before and during an evaluation, of another line, and of a launch gate. -/
theorem wit_SequencerNotifications :
    let s (due : Nat) : State := { seqAt (.slack 5) [⟨false, 0, none⟩] id id with agenda := [⟨due, 0, .gateEvaluation 0⟩] }
    let q := onPart State.reset fun x => { x with queues := x.queues.set 3 waitingQueue }
    ((s 100).part 0).gateHomes = [(0, .hbm 0x100)] ∧ ((s 100).part 0).expired = false ∧ (0x100 : Nat) / 64 = 0x138 / 64 ∧ (0x100 : Nat) / 64 ≠ 0x140 / 64
    ∧ (s 100).evalDue 0 = some 100 ∧ (s 100).now + 16 < 100 ∧ (s 10).evalDue 0 = some 10 ∧ 10 ≤ (s 10).now + 16
    ∧ ((q.part 0).queues[(3 : Fin 64)]).gateWaits = true ∧ ((q.part 0).queues[(3 : Fin 64)]).gateHome = some (.hbm 0x100) := by decide +kernel

/-- The watchdog: not counting; expired beside an evaluation of its cycle, with a request for pre-emption, with the bank free and with
it taken, at step 9; and that of a launch gate. -/
theorem wit_SequencerWatchdog :
    let late (n : Nat) (f : Part → Part) : State :=
      { seqAt (.slack n) [⟨true, 3, some 9⟩] id (fun x => f { x with wdFrom := some 0 }) with now := 800000000 }
    let s := late 5 id
    let due : State := { s with agenda := [⟨800000000, 0, .gateEvaluation 0⟩] }
    let asked := late 5 fun x => { x with pend := true, sval := true, pval := true }
    let taken := late 5 fun x => { x with held := 1 }
    let q : State := { onPart State.reset fun x => { x with queues := x.queues.set 3 waitingQueue } with now := 800000000 }
    (range' 0 64).all (fun n => !(((s.part 0).queues[(Fin.ofNat 64 n)]).gateWaits)) = true ∧ (State.reset.part 0).wdFrom = none
    ∧ (s.part 0).wdFrom = some 0 ∧ (s.part 0).wdCycles ≤ (s.part 0).wd + (s.now - 0)
    ∧ due.evalDue 0 = some due.now ∧ s.evalDue 0 ≠ some s.now
    ∧ ((asked.part 0).pend = true ∧ asked.preemptible 0 = true ∧ (asked.part 0).sval = true ∧ (asked.part 0).pval = true)
    ∧ ((s.part 0).pend = false ∧ (s.part 0).held ≠ 1 ∧ (s.part 0).frec = none)
    ∧ ((taken.part 0).pend = false ∧ (taken.part 0).held = 1 ∧ 0 < taken.saveCycles 0 ∧ (taken.part 0).frec = none)
    ∧ (((late 9 id).part 0).held ≠ 1 ∧ ((late 9 id).part 0).frec = none)
    ∧ ((late 5 fun x => { x with expired := true }).part 0).expired = true
    ∧ (range' 0 64).all (fun n => n == 3 || !(((q.part 0).queues[(Fin.ofNat 64 n)]).gateWaits)) = true
    ∧ ((q.part 0).queues[(3 : Fin 64)]).gateFrom = some 0 ∧ (q.part 0).wdCycles ≤ q.now - 0
    ∧ q.agenda.all (fun e => e.ev != .launchGateEvaluation 0 3) = true ∧ (q.part 0).wdFrom = none := by decide +kernel

/-- A partition stopped by a fault of a class. -/
def stoppedBy (cls step : Nat) (banked replayable : Bool) : State :=
  onPart gated fun x => { x with seq := .stopped, frec := some ⟨1, ⟨0x20, cls, none, none, 0, 0, []⟩, replayable, false, banked, 0, 0, 0, 0, 0, 0, 0, 0, 0, step, 0, false⟩ }

theorem wit_TrapEntry :
    let first : Abort := ⟨⟨0x3C, 0, none, none, 0, 0, []⟩, 5, 9, 29, false⟩
    let held (a : Abort) : State := onPart State.reset fun x => { x with abort := some a }
    ((held first).part 0).abort = some first ∧ first.cycle ≠ State.reset.now ∧ ((held first).part 0).frec = none
    ∧ ((held { first with cycle := 0 }).part 0).abort = some { first with cycle := 0 } ∧ State.reset.now = 0
    ∧ ((stoppedBy 3 0 false false).part 0).frec.isSome = true
    ∧ (State.reset.part 0).abort = none ∧ mapGet State.reset.undo 0 = none
    ∧ mapGet ({ State.reset with undo := [(0, Core.reset)] } : State).undo 0 = some Core.reset := by decide +kernel

/-- Aborts whose capture finds the bank free and taken, and abort messages in a phase, at its closing barrier and at step 9. -/
theorem wit_Aborts :
    let a : Abort := ⟨⟨0x3C, 0, none, none, 0, 0, []⟩, 0, 0, 24, false⟩
    let once (j : Job) : Job := { j with table := ⟨[⟨false, true, true, [], 0, 0, [inflOf 0], [], []⟩], 0, 1, []⟩ }
    let s (f : Job → Job) (held : Nat) : State := seqAt .phase [] f fun x => { x with abort := some a, held := held }
    let replayable (t : State) : Bool := (((t.part 0).job.bind Job.entry).map (·.replayable)).getD false
    ((s id 0).part 0).abort = some a ∧ ((s id 0).part 0).deferred = [] ∧ ((s id 0).part 0).waiting = [] ∧ ((s id 0).part 0).frec = none
    ∧ replayable (s id 0) = true ∧ (replayable (s once 0) = false ∧ ((s once 0).part 0).held ≠ 1)
    ∧ (replayable (s once 1) = false ∧ ((s once 1).part 0).held = 1 ∧ 0 < (s once 1).saveCycles 0)
    ∧ ((seqAt .phase [] id id).sysPhase 0 = true ∧ ((seqAt .phase [] id id).part 0).abort = none)
    ∧ (let t := seqAt (.slack 2) [] once id
      replayable t = false ∧ (t.part 0).held ≠ 1 ∧ (t.part 0).deferred = [] ∧ (t.part 0).waiting = [] ∧ (t.part 0).frec = none)
    ∧ ((seqAt (.slack 9) [] id id).part 0).frec = none := by decide +kernel

/-- Records that permit an abandonment, with and without a test, a retry and a replay, and ones that do not; memory errors; a
heartbeat read once and twice. -/
theorem wit_FaultAndDebugEvents :
    let rec_ (s : State) : Option (Nat × Bool × Bool × Nat) := (s.part 0).frec.map fun r => (r.info.cls, r.replayable, r.banked, r.step)
    let plain (s : State) : Bool := ((s.part 0).frec.map fun r => !r.launch && r.info.code != 0x3F).getD false && s.tested 0
    let stale := seqAt (.slack 7) [] id fun x => { x with stale := 1, lastProg := some x.progress }
    rec_ (stoppedBy 3 0 false false) = some (3, false, false, 0) ∧ plain (stoppedBy 3 0 false false) = true
    ∧ rec_ (stoppedBy 4 0 false false) = some (4, false, false, 0) ∧ (onPart (stoppedBy 3 0 false false) fun x => { x with tested := false }).tested 0 = false ∧ (stoppedBy 4 0 false false).agenda.all (fun e => match e.ev with | .dieWake _ _ => false | _ => true) = true
    ∧ rec_ (stoppedBy 2 8 false false) = some (2, false, false, 8) ∧ plain (stoppedBy 2 8 false false) = true
    ∧ rec_ (stoppedBy 1 0 false true) = some (1, true, false, 0) ∧ plain (stoppedBy 1 0 false true) = true
    ∧ ((stoppedBy 1 0 false true).part 0).job.isSome = true
    ∧ Config.hbmBytes - 1 < Config.hbmBytes ∧ (gated.partOf 5 = 0 ∧ ((seqAt .phase [] id id).part 0).abort = none)
    ∧ (gated.part 0).stale = 0
    ∧ ((stale.part 0).stale = 1 ∧ (stale.part 0).lastProg = some (stale.part 0).progress ∧ (stale.part 0).held = 0 ∧ (stale.part 0).frec = none) := by
  decide +kernel

/-- Debug stops of both kinds, the steps of pre-emption, invalidation and dumps. -/
theorem wit_DebugStops :
    let stop : Abort := ⟨⟨0, 1, none, none, 0, 0, []⟩, 0, 0, 24, true⟩
    let observe (j : Job) : Job := { j with table := ⟨[⟨true, true, false, [], 0, 0, [inflOf 0], [], []⟩], 0, 1, []⟩ }
    let at_ (q : Seq) (a : Option Abort) (mode : BitVec 2) : State :=
      seqAt q [] observe fun x => { x with abort := a, dbgOn := 1, dmodeOn := mode }
    let signed (t : State) : State := { t with cores := Vector.replicate 96 { Core.reset with signed := true } }
    let held := onPart gated fun x => { x with held := 1, heldJob := x.job, heldSel := some ⟨0, 0, 0, 0, 0, false⟩ }
    (((at_ .phase (some stop) 0).part 0).abort = some stop ∧ ((at_ .phase (some stop) 0).part 0).dmodeOn = 0)
    ∧ (at_ .phase (some stop) 0).outstanding 0 = false ∧ (at_ .phase (some stop) 1).outstanding 0 = false
    ∧ (let o : OutOp := ⟨4, ⟨.W, 0, 0, 0, 0, false⟩, 0, 0, [], .sig .add 1, 0, some (.hbm 0), .core, false, [], false, .sent⟩
      let t : State := { at_ .phase (some stop) 0 with cores := Vector.replicate 96 { Core.reset with outb := [o] } }
      (t.part 0).abort = some stop ∧ t.outstanding 0 = true)
    ∧ (((at_ .phase (some stop) 1).part 0).dmodeOn = 1 ∧ (at_ .phase (some stop) 1).sysPhase 0 = false
      ∧ ((at_ .phase (some stop) 1).part 0).jfull = false ∧ (at_ .phase (some stop) 1).mod.tripped = false ∧ ((at_ .phase (some stop) 1).part 0).job.isSome = true)
    ∧ (State.reset.part 0).dbgOn.getLsbD 0 = false
    ∧ (((at_ .phase none 0).part 0).dbgOn.getLsbD 0 = true ∧ ((at_ .phase none 0).part 0).abort = none)
    ∧ ((at_ (.slack 5) none 0).part 0).seq = .slack 5
    ∧ (((at_ (.debug true) none 0).coresOf 0).any fun k => !((at_ (.debug true) none 0).core k).signed) = true
    ∧ (((signed (at_ (.debug true) none 0)).coresOf 0).all fun k => ((signed (at_ (.debug true) none 0)).core k).signed) = true
    ∧ ((held.part 0).heldJob = (held.part 0).job ∧ (held.part 0).heldJob.isSome = true ∧ (held.part 0).heldSel.isSome = true ∧ (held.part 0).held = 1)
    ∧ ((State.reset.part 0).seq = .idle ∧ (State.reset.part 0).inval = [])
    ∧ (((stoppedBy 1 0 false true).part 0).dbusy = false ∧ ((at_ .phase none 0).part 0).job.isSome = true) := by decide +kernel

/-! ### The host port, launches, and the whole machine -/

/-- A module that has started up, with a window of partition 0 on the first GiB. -/
def ready0 : State :=
  onPart { rich with mod := { rich.mod with stage := 5, qavail := Vector.replicate 4 true } } fun x => { x with win := x.win.set 0 0x8000000000000000 }

/-- A module that presents its windows, one that has not started up, and one in recovery; the windows, their waits and their ends. -/
theorem wit_HostPortEvents :
    let presents (s : State) : Bool := s.mod.stage == 5 && !s.mod.recovery
    let recovering : State := { ready0 with mod := { ready0.mod with stage := 2, recovery := true } }
    (range' 0 4).all (fun q => !(ready0.parts[(Fin.ofNat 4 q)]).started && ready0.mod.qavail[(Fin.ofNat 4 q)]
      && (ready0.parts[(Fin.ofNat 4 q)]).queues.toList.all fun x => !x.enable) = true
    ∧ fld (2 : W64).toNat 1 0 < 3 ∧ (gated.part 0).started = true ∧ (ready0.part 0).started = false
    ∧ presents ready0 = true ∧ (State.reset.mod.stage < 5 ∧ State.reset.mod.recovery = false ∧ presents State.reset = false)
    ∧ (recovering.mod.recovery = true ∧ presents recovering = false)
    ∧ (let x := onPart ready0 fun x => { x with tktSel := 2047 };
      (x.part 0).tktSel.toNat / 2048 < 0 + x.mod.quarters)
    ∧ (let x := onPart ready0 fun x => { x with tktSel := 2048 };
      0 + x.mod.quarters ≤ (x.part 0).tktSel.toNat / 2048)
    ∧ ready0.aperture 0 .store 0x1FFFF8 8 = some [(.hbm 0x1FFFF8, 8)] ∧ ready0.aperture 0 .store 0x40000000 8 = none
    ∧ ready0.aperture 0 .load 0x1FFFF8 8 = some [(.hbm 0x1FFFF8, 8)] ∧ ready0.aperture 0 .load 0x40000000 8 = none
    ∧ bar4 0 0x5FFFFF = some (0, 0x5FFFFF) ∧ 0x5FFFFF + 1 = Config.abBytes ∧ bar4 0 0x30000000 = none ∧ ready0.hostWaits 0 0 8 = none
    ∧ (onPart { (withCore fun k => { k with used := [0] }) with now := 0 } fun x => { x with seq := .phase }).hostWaits 0 0 8 = some 0
    ∧ ready0.mod.uvOff = Vector.replicate 16 0
    ∧ ready0.mod.posted = [] ∧ (range' 0 4).all (fun q => !(ready0.part q).holds (.fn 1)) = true
    ∧ (let w : InWrite := { src := .fn 1, act := .ab 0 0 [some 0] }
      (onPart ready0 fun x => { x with deferred := [w] }).parts[0].holds (.fn 1) = true
      ∧ ({ ready0.mod with posted := [w] } : Module).posted.any (fun v => v.src == .fn 1) = true)
    ∧ (let t : State := { recovering with agenda := [⟨0, 0, .winErrClear 0⟩] }
      t.firstTick = none ∧ t.agenda = [⟨0, 0, .winErrClear 0⟩] ∧ 0 ≤ t.now ∧ presents t = false) := by decide +kernel

/-- A launch record of the sequence number 0, good, and queue 0 of a partition that has it at its head. -/
def record0 : List Byte :=
  let b := leBytes 124 0
  b ++ leBytes 4 (crc32c b)

/-- Queue 0 of partition 0 with a head record. -/
def queued (n : Queue) : State := onPart ready0 fun x => { x with queues := x.queues.set 0 n }
def headQueue : Queue := { Queue.reset with qstate := 1, loc := true, tail := 1 }

theorem wit_LaunchEvents :
    let l : Launch := ⟨0, false, 0, false, false, true, false, false, 0, 0, 0, 0, 0, 0, 0, 0, 0, 0, 0⟩
    let s : State := { queued headQueue with hbm := memOf false 0 record0 }
    let t := queued { headQueue with head1 := some { l with gated := false } }
    ((0 : BitVec 32).toNat = Queue.reset.tail ∧ (16 : BitVec 32).toNat ≤ Queue.reset.entries ∧ Queue.reset.entries < (17 : BitVec 32).toNat)
    ∧ headQueue.head ≠ headQueue.tail ∧ headQueue.head1 = none ∧ s.headRecord 0 headQueue = some record0
    ∧ (u record0 0 4 = headQueue.head ∧ u record0 124 4 = crc32c (record0.take 124)) ∧ (parseRecord record0).map (·.gated) = some false
    ∧ s.headRecord 0 { headQueue with base := 0x800000 } = none ∧ parseRecord (record0.set 4 0x40) = none
    ∧ (u (record0.set 0 1) 0 4 ≠ headQueue.head ∧ headQueue.fetches < 8 ∧ 8 ≤ ({ headQueue with fetches := 8 } : Queue).fetches)
    ∧ (let x := ((queued waitingQueue).part 0).queues[(0 : Fin 64)];
      x.head1 = some l ∧ l.gated = true ∧ x.gateOk = false ∧ x.qstate = 1 ∧ x.gateHome = some (.hbm 0x100))
    ∧ s.homeRead (.hbm 0x100) 8 = (leBytes 8 0).map some ∧ condHolds l.gcond 0 l.gval = true
    ∧ (let x : State := { s with hbm := memOf false 0x100 (leBytes 8 (2 ^ 63)) };
      x.homeRead (.hbm 0x100) 8 = (leBytes 8 (2 ^ 63)).map some)
    ∧ ready0.canLaunch 0 = true ∧ (ready0.part 0).pick (ready0.part 0).eligible = none
    ∧ ((t.part 0).pick (t.part 0).eligible = some (0, 0, some { l with gated := false }) ∧ t.canLaunch 0 = true ∧ t.available 0 = true
      ∧ ({ t with mod := { t.mod with qavail := Vector.replicate 4 false } } : State).available 0 = false)
    ∧ ((queued { headQueue with qstate := 2 }).part 0).queues[(0 : Fin 64)].qstate = 2 := by decide +kernel

/-- A phase table of one phase that no core takes part in: 24 entries of its core map, then its inflection, phase and header. -/
def table0 : List Byte :=
  let h : List Byte := leBytes 4 0x46544231 ++ leBytes 2 1 ++ leBytes 2 1 ++ leBytes 2 0 ++ leBytes 1 1 ++ leBytes 5 0
    ++ leBytes 8 64 ++ leBytes 8 64 ++ leBytes 8 384 ++ leBytes 20 0
  let phase : List Byte := leBytes 1 0 ++ leBytes 1 1 ++ leBytes 2 0 ++ leBytes 8 (2 ^ 64 - 1) ++ leBytes 4 0 ++ leBytes 8 128 ++ leBytes 40 0
  let infl : List Byte := leBytes 24 0 ++ leBytes 8 192 ++ leBytes 32 0
  h ++ leBytes 4 (crc32c h) ++ phase ++ infl ++ (range' 0 24).flatMap fun _ => leBytes 8 0xFFFF

/-- The launch whose table stands at 0x2000 and whose arguments are the zeros at 0x4000. -/
def launch0 : Launch := ⟨0, false, 0, false, false, false, false, false, 0, 0x2000, 0x4000, 0, 0, 0, 0, 0, 0, 0, 0⟩

/-- It is read; a launch whose table has no page is not. -/
theorem wit_LaunchStart :
    let s : State := { queued { headQueue with head1 := some launch0 } with hbm := memOf false 0x2000 table0 }
    (s.part 0).pick (s.part 0).eligible = some (0, 0, some launch0) ∧ s.canLaunch 0 = true ∧ s.available 0 = true
    ∧ (match s.readLaunch 0 launch0 with
      | .ok (t, a, g) => t.phases.length == 1 && t.first == 0 && a.length == 4096 && (parseGroup g).isSome
      | .error _ => false) = true
    ∧ (match s.readLaunch 0 { launch0 with ptab := 0x800000 } with
      | .ok _ => false
      | .error e => e.code == 0x22) = true := by decide +kernel

/-- A job that has ended, and one whose completion signal is under way. -/
theorem wit_JobCompletion :
    let j : Job := (gated.part 0).job.getD ⟨0, 0, 0, launch0, ⟨[], 0, 0, []⟩, 0, 0, 0, 0, 0, false, 0, 0, 0, 1, 0, false, none⟩
    let s := onPart gated fun x => { x with ended := [j] }
    let k : Job := { j with csigHome := some (.hbm 0x100), done := true }
    let t := onPart gated fun x => { x with ended := [k] }
    (s.part 0).ended.find? (fun k => k.id == j.id) = some j ∧ j.done = false ∧ j.launch.csig = 0
    ∧ (s.coresOf 0).all (fun c => (s.core c).outb.isEmpty) = true
    ∧ (t.part 0).ended.find? (fun x => x.id == k.id) = some k ∧ (range' 0 4).all (fun q => !(t.part q).holds (.part 0)) = true
    ∧ t.deferrer (.part 0) (.hbm 0x100) 8 = none ∧ t.homeRead (.hbm 0x100) 8 = (leBytes 8 0).map some
    ∧ (let v : State := { t with hbm := memOf false 0x100 (leBytes 8 0x8000000000000000) }
      v.homeRead (.hbm 0x100) 8 = (leBytes 8 0x8000000000000000).map some) := by decide +kernel

/-- A slot object at 0x4000 with two drafts, its verdict at 0x8000 that accepts them, and an empty delivery ring of 16 entries in the
host page at 0x400000. What the host's memory holds is a free value (assumption 3): the ring's header is given beside the state. -/
theorem wit_DecodeService :
    let slot : List Byte := leBytes 48 0 ++ leBytes 8 0x400000 ++ leBytes 4 0 ++ leBytes 1 1 ++ leBytes 1 0 ++ leBytes 1 2 ++ leBytes 449 0
    let verdict : List Byte := leBytes 3072 0 ++ leBytes 4 2 ++ leBytes 12 0
    let header : List Byte := leBytes 4 16 ++ leBytes 60 0
    let s : State := onPart { seqAt (.slack 5) [⟨false, 0, none⟩] id id with hbm := ⟨(memOf false 0x4000 slot).cells ++ (memOf false 0x8000 verdict).cells, []⟩ }
      fun x => { x with cache := [⟨0, 0x200000, .hbm 0, true, true, true, true⟩, ⟨0x400000, 0x10000, .host 0x1000000, true, true, true, true⟩] }
    (s.part 0).job.isSome = true ∧ s.atService 0 0x100 = true ∧ gated.atService 0 0x100 = false ∧ s.devBytes 0 0x800000 512 = none
    ∧ s.devBytes 0 0x4000 512 = some slot ∧ slot.length = 512 ∧ u slot 60 1 % 4 = 1 ∧ u slot 61 1 = 0 ∧ u slot 48 8 = 0x400000
    ∧ (s.devBytes 0 0x8000 3088).map (fun v => u v 3072 4) = some 2
    ∧ parseDelivery 0x400000 header = some (16, 0, 0, 0)
    ∧ (match s.hostPieces 0 .store 0x400000 320 with
      | .ok ps => ps.all fun h => isAway h.1
      | .error _ => false) = true
    ∧ min 4 2 ≤ 16 - (0 + 2 ^ 64 - 0) % 2 ^ 64 := by decide +kernel

/-- A state of the life cycle in which the module answers and one in which it does not, a module in recovery, a token's bounds. That an
image or a token is accepted rests on a key that the module was made with, a free value (assumption 6), and so is its certificate. -/
theorem wit_StartupAndTrustEvents :
    let m := State.reset.mod
    m.life = .field ∧ ({ m with life := .returned } : Module).life = .returned ∧ m.recovery = false ∧ ({ m with recovery := true } : Module).recovery = true
    ∧ m.stage ≤ 3 ∧ 23 % 24 = 23 ∧ m.openPart.getLsbD 3 = false
    ∧ (7 : W64).toNat % 8 ≠ 0 ∧ (8 : W64).toNat % 8 = 0 ∧ m.tokenCheck (List.replicate 3437 0) ≠ 0 ∧ lifeNo .returned = lifeNo m.life + 1
    ∧ (8 < 9 ∧ (9 ≤ 9 ∧ 9 < 0xFF)) ∧ u [0x13, 0x82, 0, 0] 2 1 % 16 = 0 ∧ u [0x13, 0x82, 1, 0] 2 1 % 16 ≠ 0
    ∧ State.reset.fwFeatures.getLsbD 2 = false := by decide +kernel

/-- Power samples above, near and below the limit; a trip; undervolting; the copies of the sediment record; PLDM. -/
theorem wit_FleetEvents :
    let m := State.reset.mod
    let limit := max 800 (min 2200 m.pwrLim.toNat)
    let low : Module := { m with cpow := 2, lowFrom := some 0, cpowAt := some 0 }
    let sum (l : List Nat) : Nat := l.sum
    (1000 * limit < 2200001 ∧ m.cpow < 4 ∧ m.riseAt = none) ∧ (2200000 ≤ 1000 * limit ∧ 9000 * limit * 1 < 10 * sum ((2200000 :: m.samples).take 10))
    ∧ (1980000 ≤ 1000 * limit ∧ 10 * sum ((1980000 :: m.samples).take 10) ≤ 9000 * limit * 1 ∧ low.lowFrom = some 0 ∧ 1 < low.cpow
      ∧ max 0 (low.cpowAt.getD 0) + 8000000 ≤ 8000000)
    ∧ (({ m with coreSet := m.coreSet.set 0 (false, false, true) } : Module).tripping = true ∧ m.tripped = false)
    ∧ (m.partOf 0 = 0 ∧ ((seqAt .phase [] id id).part 0).abort = none)
    ∧ m.uvEn.getLsbD 15 = false ∧ (({ m with uvEn := 1, uvErr := m.uvErr.set 0 4, uvOff := m.uvOff.set 0 1 } : Module).uvEn.getLsbD 0 = true)
    ∧ m.uvDis.getLsbD 0 = false ∧ m.uvErr[15] = 0 ∧ m.uvOff[15] < min 12 m.uvLim.toNat
    ∧ (State.reset.now < m.hbAt + 80000000 ∧ m.hbAt + 80000000 ≤ ({ State.reset with now := 80000000 } : State).now)
    ∧ ({ m with offAt := some 0 } : Module).offAt = some 0 ∧ m.offAt = none
    ∧ (({ m with flashBusy := true, flashWait := 1 } : Module).flashWait = 1 ∧ m.flashWait = 0 ∧ m.flashBusy = false)
    ∧ (State.reset.sensor 1).isSome = true ∧ State.reset.sensor 255 = none
    ∧ (State.reset.effecter 1).isSome = true ∧ State.reset.effecter 7 = none ∧ m.pldmEvents = []
    ∧ ({ m with pldmEvents := [(1, 2)] } : Module).pldmEvents = (1, 2) :: [] := by decide +kernel

/-- The word S_LI s9, 0x100 at the head of its queue; what is due later, and a module without power. -/
theorem wit_StepRunsDecodedWord :
    let s := State.reset.withFetchWord 64 0x0080120000020000
    let x : QEntry := ⟨0, 0x0080120000020000, 0⟩
    s.firstTick = some (0, 0) ∧ (s.part 0).base ≤ s.now ∧ s.agenda.map (·.cycle) = [0] ∧ (s.part 0).reexec = none ∧ s.dueCore 0 = none
    ∧ s.unmatched 0 = none ∧ s.dueWord 0 = some (0, 0, x) ∧ s.bpHit 0 0 0 = false
    ∧ decodeWord x.word.toNat = some (.sLi ⟨0, 0⟩ 9 0x100) ∧ decodeWord 0x00FC000000000000 = none
    ∧ (let t := onPart (pending (.land [])) fun y => { y with seq := .phase, k := 19 };
      t.firstTick = some (0, 0) ∧ (t.dueCore 0).map (·.1) = some 0)
    ∧ State.reset.firstTick = none ∧ State.reset.agenda = [⟨0, 0, .powerGood⟩]
    ∧ ({ State.reset with mod := { State.reset.mod with hubPower := false }, agenda := [] } : State).mod.hubPower = false := by
  decide +kernel

/-- One step from reset with the word placed issues it: its result is pending for tick 1 of core 0. -/
theorem test_step_issues_word :
    (match step (State.reset.withFetchWord 64 0x0080120000020000) with
      | .next t => (t.core 0).pend.map fun p => (p.tick, p.act)
      | _ => []) = [(1, .land [.setS 9 (some 0x100)])] := by decide +kernel

/-- A well-formed word that the encodings give, and a state whose memories are in their form, for the statements about all words and
steps. -/
theorem wit_machine :
    let i : Instr := .sLi ⟨0, 0⟩ 9 0x100
    i.WellFormed ∧ encode i = some 0x0080120000020000 ∧ rich.memWf = true ∧ rich.hbm.cells ≠ []
    ∧ (match exec i State.reset with
      | .next t => t.live && !t.predOff (Fin.ofNat 16 (fld 0x0080120000020000 49 46))
      | _ => false) = true
    ∧ (match exec (.sLi ⟨0, 1⟩ 9 0x100) State.reset with
      | .next t => t.live && State.reset.predOff (Fin.ofNat 16 (fld 0x0080520000020000 49 46))
      | _ => false) = true ∧ encode (.sLi ⟨0, 1⟩ 9 0x100) = some 0x0080520000020000 := by
  decide +kernel

end Sys2Proof.Tests
end

section
/-! The words that write a predicate register: the compares of R112 and the predicate logic of R113. -/

namespace Sys2Proof.Machine

/-! ### Issue of a word that makes no check and only lands effects -/

/-- With a true predicate, a plan that takes no token and no bank leaves its landings pending (R42, R64). -/
theorem State.issue_lands (s : State) (pr : Fin 16) (ds : List Due) (hp : s.predOn pr = true) :
    s.issue { pred := pr, on := .ok ds } = s.issued [] [] ds := by
  rw [s.issue_on _ ds rfl s.inTime_zero rfl s.banksFree_nil hp rfl, State.commit_eq_issued, List.nil_append]

theorem State.predWord_on (s : State) (fr : Frame) (pd : Fin 16) (v : PReg) (hp : s.predOn fr.pred = true) :
    s.predWord fr pd v = .next (s.issued [] [] [landAt 1 [.setP pd v]]) :=
  congrArg _ (s.issue_lands fr.pred _ hp)

/-! ### What each word leaves pending when its predicate is true -/

section
variable (s : State) (fr : Frame) (pd pa pb : Fin 16) (cc : Cc) (a b : Fin 32) (imm : BitVec 29)
  (hp : s.predOn fr.pred = true)
include hp

theorem exec_sCmp_on : exec (.sCmp fr pd cc a b) s
    = .next (s.issued [] [] [landAt 1 [.setP pd (cmpReg cc (s.regs.getS a) (s.regs.getS b))]]) :=
  s.predWord_on fr pd _ hp

theorem exec_sCmpi_on : exec (.sCmpi fr pd cc a imm) s
    = .next (s.issued [] [] [landAt 1 [.setP pd (cmpReg cc (s.regs.getS a) (some (imm.signExtend 64)))]]) :=
  s.predWord_on fr pd _ hp

/-- The shared form of the two-register words: the marks read are OR-ed, whatever the operation. -/
theorem State.pp_on (f : Bool → Bool → Bool) : s.pp fr pd pa pb f
    = .next (s.issued [] [] [landAt 1 [.setP pd
        ⟨f (s.regs.getP pa).val (s.regs.getP pb).val, (s.regs.getP pa).mark || (s.regs.getP pb).mark⟩]]) :=
  s.predWord_on fr pd _ hp

theorem exec_sPnot_on : exec (.sPnot fr pd pa) s
    = .next (s.issued [] [] [landAt 1 [.setP pd ⟨!(s.regs.getP pa).val, (s.regs.getP pa).mark⟩]]) :=
  s.predWord_on fr pd _ hp

end

/-! ### Compares (R112) -/

/-- The relation that a condition code names between two integers (R56); the unordered one is false of any two. -/
def wordRel (cc : Cc) (x y : W64) : Prop :=
  match cc with
  | .eq => x = y
  | .ne => x ≠ y
  | .lt => x.toInt < y.toInt
  | .ge => y.toInt ≤ x.toInt
  | .ltu => x.toNat < y.toNat
  | .geu => y.toNat ≤ x.toNat
  | .uo => False

theorem intCc_eq_true_iff (cc : Cc) (x y : W64) : intCc cc x y = true ↔ wordRel cc x y := by
  cases cc with
  | eq => exact beq_iff_eq
  | ne => exact bne_iff_ne
  | lt => exact BitVec.slt_iff_toInt_lt
  | ge => simp [intCc, wordRel, BitVec.slt]
  | ltu => exact BitVec.ult_iff_toNat_lt
  | geu => simp [intCc, wordRel, BitVec.ult]
  | uo => exact Bool.false_eq_true.to_iff

theorem forInt_eq_true_iff (cc : Cc) : cc.forInt = true ↔ cc ≠ .uo := by
  cases cc <;> decide

theorem cmpReg_some (cc : Cc) (x y : W64) : cmpReg cc (some x) (some y) = ⟨intCc cc x y, false⟩ := rfl

theorem cmpReg_poisoned (cc : Cc) (x y : Option W64) (h : x = none ∨ y = none) : cmpReg cc x y = ⟨false, true⟩ := by
  obtain rfl | rfl := h
  · rfl
  · cases x <;> rfl

/-- Settles O4: a compare is one write of pD, whose bit `intCc` is true just when the relation of its code holds. -/
theorem compareWritesPredicate : Obligations.CompareWritesPredicate := by
  intro s fr pd a b imm hp holds gives
  refine ⟨?values, ?immediate, ?poisoned, ?poisonedImmediate, forInt_eq_true_iff, forInt_eq_true_iff,
    fun _ => rfl, fun _ => rfl⟩
  case values =>
    intro cc x y _ hx hy
    have hg := exec_sCmp_on s fr pd cc a b hp
    rw [hx, hy, cmpReg_some] at hg
    exact ⟨intCc cc x y, hg, intCc_eq_true_iff cc x y⟩
  case immediate =>
    intro cc x _ hx
    have hg := exec_sCmpi_on s fr pd cc a imm hp
    rw [hx, cmpReg_some] at hg
    exact ⟨intCc cc x (imm.signExtend 64), hg, intCc_eq_true_iff cc x _⟩
  case poisoned =>
    intro cc h
    have hg := exec_sCmp_on s fr pd cc a b hp
    rwa [cmpReg_poisoned cc _ _ h] at hg
  case poisonedImmediate =>
    intro cc h
    have hg := exec_sCmpi_on s fr pd cc a imm hp
    rwa [cmpReg_poisoned cc _ _ (.inl h)] at hg

/-! ### Predicate logic (R113) -/

/-- Settles O5: each word is one write of pD, and no write of a predicate register changes what p0 reads. -/
theorem predicateLogic : Obligations.PredicateLogic := by
  intro s fr pd pa pb hp
  exact ⟨s.pp_on fr pd pa pb hp and, s.pp_on fr pd pa pb hp or, s.pp_on fr pd pa pb hp xor, exec_sPnot_on s fr pd pa hp,
    rfl, rfl, rfl, rfl, fun r n v => r.getP_setP n pd v⟩

end Sys2Proof.Machine
end

section
/-! The words that compute an s register: the integer words of R110 and R111, the FP64 words of R114 and R115, and what a poisoned
operand does to each of them (R108). -/

namespace Sys2Proof.Machine

/-! ### The shared forms with a true predicate -/

section
variable (s : State) (fr : Frame) (d a b : Fin 32) (lat : Nat)

theorem State.intWord_on (v : Option W64) (hp : s.predOn fr.pred = true) :
    s.intWord fr d lat v = .next (s.issued [] [] [landAt lat [.setS d v]]) :=
  congrArg _ (s.issue_lands fr.pred _ hp)

theorem State.rr_on (f : W64 → W64 → W64) {x y : W64} (hp : s.predOn fr.pred = true) (ha : s.regs.getS a = some x)
    (hb : s.regs.getS b = some y) :
    s.rr fr d a b lat f = .next (s.issued [] [] [landAt lat [.setS d (some (f x y))]]) := by
  rw [State.rr, s.intWord_on fr d lat _ hp, ha, hb, both]

theorem State.ri_on (imm : BitVec 36) (f : W64 → W64 → W64) {x : W64} (hp : s.predOn fr.pred = true)
    (ha : s.regs.getS a = some x) :
    s.ri fr d a imm lat f = .next (s.issued [] [] [landAt lat [.setS d (some (f x (imm.signExtend 64)))]]) := by
  rw [State.ri, s.intWord_on fr d lat _ hp, ha, Option.map_some]

theorem State.rsh_on (n : Fin 64) (f : W64 → Nat → W64) {x : W64} (hp : s.predOn fr.pred = true)
    (ha : s.regs.getS a = some x) :
    s.rsh fr d a n f = .next (s.issued [] [] [landAt 1 [.setS d (some (f x n.val))]]) := by
  rw [State.rsh, s.intWord_on fr d 1 _ hp, ha, Option.map_some]

/-- A word with one source register. -/
theorem State.intMap_on (f : W64 → W64) {x : W64} (hp : s.predOn fr.pred = true) (ha : s.regs.getS a = some x) :
    s.intWord fr d lat ((s.regs.getS a).map f) = .next (s.issued [] [] [landAt lat [.setS d (some (f x))]]) := by
  rw [s.intWord_on fr d lat _ hp, ha, Option.map_some]

end

/-! ### Values (R110) -/

theorem mulHighS_eq (x y : W64) : mulHighS x y = BitVec.ofInt 64 (x.toInt * y.toInt / 2 ^ 64) := rfl

theorem divS_eq (x y : W64) :
    divS x y = if y = 0 then BitVec.allOnes 64 else BitVec.ofInt 64 (x.toInt.tdiv y.toInt) := by
  unfold divS
  split
  · rfl
  · exact BitVec.eq_of_toInt_eq (by rw [BitVec.toInt_sdiv, BitVec.toInt_ofInt])

theorem divU_eq (x y : W64) :
    divU x y = if y = 0 then BitVec.allOnes 64 else BitVec.ofNat 64 (x.toNat / y.toNat) := by
  unfold divU
  split
  · rfl
  · rw [← BitVec.toNat_udiv, BitVec.ofNat_toNat, BitVec.setWidth_eq]

theorem remS_eq (x y : W64) : remS x y = if y = 0 then x else BitVec.ofInt 64 (x.toInt.tmod y.toInt) := by
  unfold remS
  split
  next h => rw [h]; exact BitVec.srem_zero
  next => rw [← BitVec.toInt_srem, BitVec.ofInt_toInt]

theorem remU_eq (x y : W64) : remU x y = if y = 0 then x else BitVec.ofNat 64 (x.toNat % y.toNat) := by
  unfold remU
  split
  next h => rw [h]; exact BitVec.umod_zero
  next => rw [← BitVec.toNat_umod, BitVec.ofNat_toNat, BitVec.setWidth_eq]

/-- The choice that a signed compare makes, read on the integers. -/
theorem ite_slt (x y u v : W64) : (if BitVec.slt x y then u else v) = if x.toInt < y.toInt then u else v := by
  simp [BitVec.slt]

theorem ite_ult (x y u v : W64) : (if BitVec.ult x y then u else v) = if x.toNat < y.toNat then u else v := by
  simp [BitVec.ult]

/-! ### Two registers (O1) -/

/-- Settles O1: each word is its operation on the two values read, at its latency; the operations are those of R110. -/
theorem scalarRegisterArithmetic : Obligations.ScalarRegisterArithmetic := by
  intro s fr d a b x y hp ha hb
  have word : ∀ (lat : Nat) (f : W64 → W64 → W64) (v : W64), f x y = v →
      s.rr fr d a b lat f = .next (s.issued [] [] [landAt lat [.setS d (some v)]]) := fun lat f v h =>
    h ▸ s.rr_on fr d a b lat f hp ha hb
  exact ⟨word 1 _ _ rfl, word 1 _ _ rfl, word 3 _ _ rfl, word 4 _ _ rfl, word 4 _ _ rfl, word 18 _ _ (divS_eq x y),
    word 18 _ _ (divU_eq x y), word 18 _ _ (remS_eq x y), word 18 _ _ (remU_eq x y), word 1 _ _ rfl, word 1 _ _ rfl,
    word 1 _ _ rfl, word 1 _ _ rfl, word 1 _ _ rfl, word 1 _ _ rfl, word 1 _ _ (ite_slt y x y x), word 1 _ _ (ite_slt x y y x),
    word 1 _ _ (ite_ult y x y x), word 1 _ _ (ite_ult x y y x)⟩

/-! ### One register or an immediate (O2) -/

/-- Settles O2: an immediate form is its operation on the value read and the immediate extended; `s.lih` keeps the low half. -/
theorem scalarImmediateArithmetic : Obligations.ScalarImmediateArithmetic := by
  intro s fr d a imm n k x z hp ha hd
  have ri := fun lat f => s.ri_on fr d a lat imm f hp ha
  have rsh := fun f => s.rsh_on fr d a n f hp ha
  have one := fun f => s.intMap_on fr d a 1 f hp ha
  exact ⟨ri 1 _, ri 1 _, ri 1 _, ri 1 _, ri 3 _, rsh _, rsh _, rsh _, one clz64, one _, s.intWord_on fr d 1 _ hp,
    s.intMap_on fr d d 1 _ hp hd⟩

/-! ### Poisoned operands (O3) -/

theorem both_poisoned (f : W64 → W64 → W64) {a b : Option W64} (h : a = none ∨ b = none) : both f a b = none := by
  obtain rfl | rfl := h
  · rfl
  · cases a <;> rfl

theorem f64Two_poisoned (f : Nat → Nat → Nat × Flags) {a b : Option W64} (h : a = none ∨ b = none) : f64Two f a b = none := by
  obtain rfl | rfl := h
  · rfl
  · cases a <;> rfl

theorem State.fpWord_poisoned (s : State) (fr : Frame) (d : Fin 32) (lat : Nat) (hp : s.predOn fr.pred = true) :
    s.fpWord fr d lat none = .next (s.issued [] [] [landAt lat [.setS d none]]) :=
  congrArg _ (s.issue_lands fr.pred _ hp)

/-- A poisoned operand makes a compare write 0 with its mark. -/
theorem exec_sCmpF64_poisoned (s : State) (fr : Frame) (pd : Fin 16) (cc : Cc) (a b : Fin 32) (hp : s.predOn fr.pred = true)
    (h : s.regs.getS a = none ∨ s.regs.getS b = none) :
    exec (.sCmpF64 fr pd cc a b) s = .next (s.issued [] [] [landAt 2 [.setP pd ⟨false, true⟩]]) := by
  refine congrArg _ (s.issue_on _ _ rfl s.inTime_zero rfl s.banksFree_nil hp ?_)
  obtain h | h := h
  · simp only [h]
  · cases ha : s.regs.getS a <;> simp only [h]

theorem exec_sFmaF64_poisoned (s : State) (fr : Frame) (d a b : Fin 32) (hp : s.predOn fr.pred = true)
    (h : s.regs.getS a = none ∨ s.regs.getS b = none ∨ s.regs.getS d = none) :
    exec (.sFmaF64 fr d a b) s = .next (s.issued [] [] [landAt 5 [.setS d none]]) := by
  rw [← s.fpWord_poisoned fr d 5 hp]
  refine congrArg (s.fpWord fr d 5) ?_
  obtain h | h | h := h
  · rw [h]
  · rw [h]; cases s.regs.getS a <;> rfl
  · rw [h]; cases s.regs.getS a <;> cases s.regs.getS b <;> rfl

/-- Settles O3: a word's result is none where an operand is, and such a word issues with that result and no flag. -/
theorem scalarPoisonSpreads : Obligations.ScalarPoisonSpreads := by
  intro s fr d a b pd cc imm k n hp
  have word : ∀ (lat : Nat) (v : Option W64), v = none →
      s.intWord fr d lat v = .next (s.issued [] [] [landAt lat [.setS d none]]) := fun lat v h =>
    h ▸ s.intWord_on fr d lat v hp
  have fp : ∀ (lat : Nat) (v : Option Elem), v = none →
      s.fpWord fr d lat v = .next (s.issued [] [] [landAt lat [.setS d none]]) := fun lat v h =>
    h ▸ s.fpWord_poisoned fr d lat hp
  have map1 : ∀ {α : Type} {v : Option W64} (f : W64 → α), v = none → v.map f = none := fun f h => by rw [h, Option.map_none]
  refine ⟨fun h => ?_, exec_sFmaF64_poisoned s fr d a b hp, fun h => word 1 _ (map1 _ h), fun h => ?_⟩
  · have two := fun lat f => word lat _ (both_poisoned f h)
    have fp2 := fun lat f => fp lat _ (f64Two_poisoned f h)
    exact ⟨two 1 _, two 1 _, two 3 _, two 4 _, two 4 _, two 18 _, two 18 _, two 18 _, two 18 _, two 1 _, two 1 _, two 1 _,
      two 1 _, two 1 _, two 1 _, two 1 _, two 1 _, two 1 _, two 1 _, fp2 4 _, fp2 4 _, fp2 4 _, fp2 22 _, fp2 4 _, fp2 4 _,
      exec_sCmpF64_poisoned s fr pd cc a b hp h⟩
  · have one := fun lat (f : W64 → W64) => word lat _ (map1 f h)
    have fp1 := fun lat (f : W64 → Elem) => fp lat _ (map1 f h)
    exact ⟨one 1 _, one 1 _, one 1 _, one 3 _, one 1 _, one 1 _, one 1 _, one 1 _, one 1 _, one 1 _, fp1 26 _, fp1 4 _, fp1 4 _,
      one 2 _⟩

/-! ### FP64 words (O6) -/

/-- A word without decode checks, scoreboard checks or banks is ready when its predicate is true. -/
theorem State.ready_of_predOn (s : State) (pr : Fin 16) (hp : s.predOn pr = true) : s.ready pr [] 0 [] [] :=
  ⟨rfl, s.inTime_zero, rfl, s.banksFree_nil, hp⟩

theorem State.fpWord_lands (s : State) (fr : Frame) (d : Fin 32) (lat : Nat) {i : Instr} {v : Nat × Flags} {sn : Bool}
    (hp : s.predOn fr.pred = true) (hx : exec i s = s.fpWord fr d lat (some (elemOf v sn))) :
    s.landsOrTraps i [] [] lat (.setS d (some (BitVec.ofNat 64 v.1))) v.2 sn :=
  State.landsOrTraps_of_plan (s.ready_of_predOn fr.pred hp) hx rfl rfl rfl rfl rfl rfl rfl rfl

theorem exec_sCmpF64_lands (s : State) (fr : Frame) (pd : Fin 16) (cc : Cc) (a b : Fin 32) {x y : W64} (hp : s.predOn fr.pred = true)
    (ha : s.regs.getS a = some x) (hb : s.regs.getS b = some y) :
    let r := FFmt.f64.compare cc x.toNat y.toNat
    s.landsOrTraps (.sCmpF64 fr pd cc a b) [] [] 2 (.setP pd ⟨r.1, false⟩) r.2 (FFmt.f64.snan x.toNat || FFmt.f64.snan y.toNat) :=
  State.landsOrTraps_of_plan (s.ready_of_predOn fr.pred hp) rfl rfl rfl rfl rfl rfl rfl rfl (by simp only [ha, hb])

/-- Settles O6: a word's result and flags are those of its operation on the patterns read, in the mode of the issue tick. -/
theorem scalarFloatWords : Obligations.ScalarFloatWords := by
  intro s fr d a b pd cc x y z hp ha hb hd
  have word : ∀ {i : Instr} (lat : Nat) (r : Option Elem) (v : Nat × Flags) (sn : Bool), exec i s = s.fpWord fr d lat r →
      r = some (elemOf v sn) → s.landsOrTraps i [] [] lat (.setS d (some (BitVec.ofNat 64 v.1))) v.2 sn :=
    fun lat r v sn hx hr => s.fpWord_lands fr d lat hp (hr ▸ hx)
  have two : ∀ f, f64Two f (s.regs.getS a) (s.regs.getS b)
      = some (elemOf (f x.toNat y.toNat) (FFmt.f64.snan x.toNat || FFmt.f64.snan y.toNat)) := fun f => by rw [ha, hb, f64Two]
  have one : ∀ f, f64One f (s.regs.getS a) = some (elemOf (f x.toNat) (FFmt.f64.snan x.toNat)) := fun f => by
    rw [ha, f64One, Option.map_some]
  exact ⟨word 4 _ _ _ rfl (two _), word 4 _ _ _ rfl (two _), word 4 _ _ _ rfl (two _), word 22 _ _ _ rfl (two _),
    word 5 _ (FFmt.f64.fma s.rmode false x.toNat y.toNat z.toNat) _ rfl (by rw [ha, hb, hd]), word 26 _ _ _ rfl (one _),
    word 4 _ _ _ rfl (two _), word 4 _ _ _ rfl (two _),
    word 4 _ (FFmt.f64.roundInt s.rmode x.toInt 0 false) false rfl (by rw [ha, Option.map_some]), word 4 _ _ _ rfl (one _),
    s.intMap_on fr d a 2 (fun x => BitVec.ofNat 64 (2 ^ FFmt.f64.classOf x.toNat)) hp ha, exec_sCmpF64_lands s fr pd cc a b hp ha hb⟩

end Sys2Proof.Machine
end

section
/-! Words whose only checks are of their decode and their data: scalar loads and stores of SDM (R116 to R119), the words of control
and special registers (R122 to R125), loads and stores of device memory (R118), no-operation words and loops (R62, R120). -/

namespace Sys2Proof.Machine

/-! ### Issue of a word with decode and data checks only -/

section
variable (s : State) (pr : Fin 16) (dec : Option Trap) (ts : List (Option Trap)) (ds : List Due)

/-- With a true predicate, a word whose checks pass leaves its effects pending. -/
theorem State.issue_guard_ok (hp : s.predOn pr = true) (hd : dec = none) (h : firstOf ts = none) :
    s.issue { pred := pr, dec := dec, on := guardAll ts ds } = s.issued [] [] ds := by
  rw [s.issue_on _ ds hd s.inTime_zero rfl s.banksFree_nil hp (guardAll_ok ts ds h), State.commit_eq_issued, List.nil_append]

/-- With a true predicate, the first data check that fails is the trap. -/
theorem State.issue_guard_error (t : Trap) (hp : s.predOn pr = true) (hd : dec = none) (h : firstOf ts = some t) :
    s.issue { pred := pr, dec := dec, on := guardAll ts ds } = s.trap t :=
  s.issue_on_error _ t hd s.inTime_zero rfl s.banksFree_nil hp (guardAll_error ts ds t h)

end

/-! ### SDM (O7) -/

/-- The range and region check of an SDM access passes exactly inside SDM, in the argument block or a region (R117). -/
theorem Core.sdmTrap_eq (c : Core) (addr n : Nat) (acc : Access) :
    c.sdmTrap addr n acc = if addr + n ≤ 65536 ∧ (addr + n ≤ 4096 ∨ c.inRegion 3 addr n acc = true) then none
      else some ⟨0x20, 0, addr, 0⟩ := by
  have hb : Config.sdmBytes = 65536 := rfl
  unfold Core.sdmTrap failIf
  rw [hb]
  by_cases h1 : addr + n ≤ 65536
  · by_cases h2 : addr + n ≤ 4096
    · simp [h1, h2, Nat.not_lt.mpr h1]
    · cases h3 : c.inRegion 3 addr n acc <;> simp [h1, h2, Nat.not_lt.mpr h1]
  · simp [h1, Nat.lt_of_not_le h1]

/-- Settles O7: alignment is the decode check of both words, range and region their data check. -/
theorem sdmLoadAndStore : Obligations.SdmLoadAndStore := by
  intro s fr d a off sz sx hp co n addr inside
  have aligned : addr % n = 0 → failIf (addr % n != 0) ⟨0x02, 0, addr, 0⟩ = none := fun h => by simp [h]
  have pass : ∀ acc, inside acc → firstOf [co.sdmTrap addr n acc] = none := fun acc h => by
    rw [firstOf_one, Core.sdmTrap_eq, if_pos h]
  have fail : ∀ acc, ¬ inside acc → firstOf [co.sdmTrap addr n acc] = some ⟨0x20, 0, addr, 0⟩ := fun acc h => by
    rw [firstOf_one, Core.sdmTrap_eq, if_neg h]
  have odd : addr % n ≠ 0 → failIf (addr % n != 0) ⟨0x02, 0, addr, 0⟩ = some ⟨0x02, 0, addr, 0⟩ := fun h => by
    rw [bne_iff_ne.mpr h]; rfl
  exact ⟨fun ha hi => congrArg _ (s.issue_guard_ok _ _ _ _ hp (aligned ha) (pass .load hi)),
    fun ha hi => congrArg _ (s.issue_guard_ok _ _ _ _ hp (aligned ha) (pass .store hi)),
    fun ha => ⟨congrArg _ (s.issue_dec _ _ (odd ha)), congrArg _ (s.issue_dec _ _ (odd ha))⟩,
    fun ha hi => congrArg _ (s.issue_guard_error _ _ _ _ _ hp (aligned ha) (fail .load hi)),
    fun ha hi => congrArg _ (s.issue_guard_error _ _ _ _ _ hp (aligned ha) (fail .store hi))⟩

/-! ### Control, address, seed and queue registers (O10) -/

/-- The checks of `s.wrctl` with a source that is not poisoned (R123). -/
def wrctlChecks (s : State) (r : CtlReg) (m : WrMode) (v : W64) : List (Option Trap) :=
  [none, failIf (!ctlWritable r) ⟨0x23, 8, 0, 0⟩,
    failIf (r == .round && decide (6 ≤ (wrValue m (s.regs.ctl.round.setWidth 64) v).toNat % 8)) ⟨0x01, 0, 0, 0⟩]

theorem exec_sWrctl_eq (s : State) (fr : Frame) (r : CtlReg) (m : WrMode) (a : Fin 32) (v : W64) (hv : s.regs.getS a = some v) :
    exec (.sWrctl fr r m a) s
      = .next (s.issue { pred := fr.pred, on := (guardAll (wrctlChecks s r m v) [landAt 1 [.setCtl r m v]]) }) := by
  change execSWrctl fr r m a s = _
  simp only [execSWrctl, hv, Option.getD_some, needS_some, wrctlChecks]

theorem ctlWritable_eq_false (r : CtlReg) (h : r ∈ [.cadence, .core, .tick, .phase, .inflect]) : ctlWritable r = false := by
  cases r <;> simp_all [ctlWritable]

/-- Settles O10: a read is a result of the issue tick, a write one effect behind the checks of its source and of what it leaves. -/
theorem controlAndSpecialRegisters : Obligations.ControlAndSpecialRegisters := by
  intro s fr d a q n k hi gen src f r m hp co reads writes traps
  refine ⟨s.intWord_on fr d 1 _ hp, s.intWord_on fr d 1 _ hp, s.intWord_on fr d 1 _ hp, s.intWord_on fr d 1 _ hp,
    fun v hv => ?values, fun hn => ?poisoned⟩
  case values =>
    have ok : needS (s.regs.getS a) = none := by rw [hv]; rfl
    have get : (s.regs.getS a).getD 0 = v := by rw [hv]; rfl
    refine ⟨?_, ?_, ⟨fun hr => ?_, fun code hr => ?_⟩, fun hw hm => ?_, fun hr => ?_, fun hr h6 => ?_⟩
    · change execSWra fr n f a s = _
      rw [execSWra, get]
      exact congrArg _ (s.issue_guard_ok _ _ _ _ hp rfl (by rw [firstOf_one, ok]))
    · change execSWrk fr k a s = _
      rw [execSWrk, get]
      exact congrArg _ (s.issue_guard_ok _ _ _ _ hp rfl (by rw [firstOf_one, ok]))
    · change execSWrq fr q hi a s = _
      simp only [execSWrq, get, ok]
      exact congrArg _ (s.issue_guard_ok _ _ _ _ hp rfl (by rw [firstOf_none, firstOf_one]; exact Option.map_eq_none_iff.mpr hr))
    · change execSWrq fr q hi a s = _
      simp only [execSWrq, get, ok]
      exact congrArg _ (s.issue_guard_error _ _ _ _ _ hp rfl
        (by rw [firstOf_none, firstOf_one]; exact Option.map_eq_some_iff.mpr ⟨code, hr, rfl⟩))
    · have hr : (r == .round && decide (6 ≤ (wrValue m (s.regs.ctl.round.setWidth 64) v).toNat % 8)) = false := by
        cases h : r == CtlReg.round with
        | false => rfl
        | true => exact decide_eq_false (Nat.not_le.mpr (hm (beq_iff_eq.mp h)))
      exact (exec_sWrctl_eq s fr r m a v hv).trans (congrArg _ (s.issue_guard_ok _ _ _ _ hp rfl (by rw [wrctlChecks, hw, hr]; rfl)))
    · exact (exec_sWrctl_eq s fr r m a v hv).trans
        (congrArg _ (s.issue_guard_error _ _ _ _ _ hp rfl (by rw [wrctlChecks, ctlWritable_eq_false r hr]; rfl)))
    · subst hr
      have h6 : decide (6 ≤ (wrValue m (s.regs.ctl.round.setWidth 64) v).toNat % 8) = true := decide_eq_true h6
      exact (exec_sWrctl_eq s fr .round m a v hv).trans (congrArg _ (s.issue_guard_error _ _ _ _ _ hp rfl (by rw [wrctlChecks, h6]; rfl)))
  case poisoned =>
    have bad : ∀ ts, firstOf (needS (s.regs.getS a) :: ts) = some ⟨0x18, 0, 0, 0⟩ := fun ts => by rw [hn]; rfl
    exact ⟨congrArg _ (s.issue_guard_error _ _ _ _ _ hp rfl (bad _)), congrArg _ (s.issue_guard_error _ _ _ _ _ hp rfl (bad _)),
      congrArg _ (s.issue_guard_error _ _ _ _ _ hp rfl (bad _)), congrArg _ (s.issue_guard_error _ _ _ _ _ hp rfl (bad _))⟩

/-! ### Random words (O11) -/

/-- Settles O11: the ring is a random ring with entries enough, so that only the predicate decides what is written. -/
theorem randomWordPop : Obligations.RandomWordPop := by
  intro s fr d q pair co g n hdepth hbuf hsize hcount
  have hring : co.regs.ringCheck q (fun r => r.buf == 3 && r.esize == 1) = none := by
    have hd : (g.depth == 0) = false := beq_false_of_ne hdepth
    unfold Regs.ringCheck
    change failIf (g.depth == 0 || !(g.buf == 3 && g.esize == 1)) _ = none
    rw [hd, hbuf, hsize]
    rfl
  have hpop : co.regs.popDev q n = none := if_neg (Nat.not_lt.mpr hcount)
  exact ⟨fun hp => congrArg _ (s.issue_on _ _ hring s.inTime_zero hpop s.banksFree_nil hp rfl),
    fun hp => congrArg _ (s.issue_off _ hring s.inTime_zero hpop s.banksFree_nil hp)⟩

/-! ### No-operation words and loops (O9) -/

/-- p0 is true (R27). -/
theorem State.predOn_zero (s : State) : s.predOn 0 = true := rfl

/-- A word of the reserved predicate without checks issues. -/
theorem State.issue_plain (s : State) (ds : List Due) : s.issue { on := .ok ds } = s.issued [] [] ds :=
  s.issue_lands 0 ds s.predOn_zero

/-- A word that only moves tokens (R41, R62). -/
theorem State.issue_tokens (s : State) (toks : List (Fin 6 × Nat)) (ds : List Due) (h : s.regs.tokDev toks = none) :
    s.issue { dev := s.regs.tokDev toks, toks := toks, on := .ok ds } = s.issued toks [] ds :=
  s.issue_on _ _ rfl s.inTime_zero h s.banksFree_nil s.predOn_zero rfl

theorem State.issue_tokens_books (s : State) (toks : List (Fin 6 × Nat)) (ds : List Due) (h : s.regs.tokDev toks = none) :
    s.issue { dev := s.regs.tokDev toks, toks := toks, books := ds } = s.issued toks [] ds := by
  rw [s.issue_on _ [] rfl s.inTime_zero h s.banksFree_nil s.predOn_zero rfl, State.commit_eq_issued, List.append_nil]

/-- Settles O9: p0 is true, so that these words issue whenever their FIFOs hold the tokens they pop. -/
theorem nopsAndLoop : Obligations.NopsAndLoop := by
  intro s w idle tok depth trip words
  have nop : s.issue {} = s.issued [] [] [] := s.issue_plain []
  refine ⟨congrArg _ nop, congrArg _ nop, congrArg _ nop, congrArg _ nop, congrArg _ nop,
    fun h => congrArg _ (s.issue_tokens_books _ _ h), fun h => congrArg _ (s.issue_tokens _ _ h),
    fun h => congrArg _ (s.issue_tokens _ _ h), fun l hl => ?loop⟩
  case loop =>
    change execSLoop w depth trip words s = _
    simp only [execSLoop, hl]
    rw [s.issueThen_on _ _ _ rfl s.inTime_zero rfl s.banksFree_nil s.predOn_zero rfl]
    rfl

end Sys2Proof.Machine
end

section
/-! Scalar loads and stores of device memory (R116 to R118): what their checks come to, and what they leave. -/

namespace Sys2Proof.Machine

/-! ### The checks of a device interval -/

theorem State.devCheck_outside (s : State) (c : Fin 96) (acc : Access) (va n : Nat)
    (h : 2 ^ 52 ≤ va ∨ (s.core c).inRegion 0 va n acc = false) : s.devCheck c acc va n = .error ⟨0x20, 0, va, 0⟩ := by
  unfold State.devCheck
  rw [if_pos]
  obtain h | h := h
  · exact .inl h
  · exact .inr (by rw [h]; rfl)

theorem State.devCheck_inside (s : State) (c : Fin 96) (acc : Access) (va n : Nat) (hv : va < 2 ^ 52)
    (hr : (s.core c).inRegion 0 va n acc = true) : s.devCheck c acc va n = s.pieces (s.partOf c) acc 4 va n := by
  unfold State.devCheck
  rw [if_neg]
  rw [hr]
  rintro (h | h)
  · omega
  · exact absurd h (by simp)

/-- An interval whose first page has no translation, or forbids the access. -/
theorem State.pieces_fail (s : State) (p k va n : Nat) (acc : Access) (hn : n ≠ 0) {code level addr : Nat}
    (h : s.translate p va = .fail code level addr) : s.pieces p acc (k + 1) va n = .error ⟨code, level, addr, 0⟩ := by
  rw [State.pieces, if_neg hn, h]

theorem State.pieces_lacks (s : State) (p k va n : Nat) (acc : Access) (hn : n ≠ 0) {e : TEntry} (h : s.translate p va = .ok e)
    (hl : acc.lacks e ≠ 0) : s.pieces p acc (k + 1) va n = .error ⟨0x23, acc.lacks e, va, 0⟩ := by
  rw [State.pieces, if_neg hn, h]
  exact if_pos hl

theorem szBytes_ne_zero (sz : Sz) : szBytes sz ≠ 0 := by cases sz <;> decide

/-! ### The land of a scalar access (R64, R118) -/

/-- The land is shorter than the path latency of the home, where that can be formed. -/
def State.landShort (s : State) (va land : Nat) (acc : Access) : Prop :=
  ∃ e, va < 2 ^ 52 ∧ s.translate (s.partOf s.slot.core) va = .ok e
    ∧ land < s.pathLatency s.slot.core (acc == .load) 1 (e.at' va)

theorem State.scalarLand_short (s : State) (va land : Nat) (acc : Access) (h : s.landShort va land acc) :
    s.scalarLand va land acc = some ⟨0x09, 3, va, 0⟩ := by
  obtain ⟨e, hv, ht, hl⟩ := h
  rw [State.scalarLand, if_neg (Nat.not_le.mpr hv), ht]
  exact if_pos (decide_eq_true hl)

theorem State.scalarLand_enough (s : State) (va land : Nat) (acc : Access) (h : ¬ s.landShort va land acc) :
    s.scalarLand va land acc = none := by
  unfold State.scalarLand
  split
  · rfl
  next hv =>
    cases ht : s.translate (s.partOf s.slot.core) va with
    | fail code level addr => rfl
    | ok e => exact if_neg (by simpa using fun hl => h ⟨e, Nat.lt_of_not_le hv, ht, hl⟩)

/-! ### The home of a scalar access: its checks in order -/

section
variable (s : State) (a : Fin 32) (off : BitVec 20) (n land : Nat) (acc : Access) (b : W64)

theorem State.scalarHome_poisoned (h : s.regs.getS a = none) : s.scalarHome a off n land acc = .error ⟨0x18, 0, 0, 0⟩ := by
  rw [State.scalarHome, h]

variable (h : s.regs.getS a = some b)
include h

variable {va : Nat} (hva : (b + off.signExtend 64).toNat = va)
include hva

theorem State.scalarHome_short (hs : s.landShort va land acc) : s.scalarHome a off n land acc = .error ⟨0x09, 3, va, 0⟩ := by
  subst hva
  simp only [State.scalarHome, h, s.scalarLand_short _ _ _ hs, firstOf_some]

variable (hs : ¬ s.landShort va land acc)
include hs

theorem State.scalarHome_misaligned (ha : va % n ≠ 0) : s.scalarHome a off n land acc = .error ⟨0x02, 0, va, 0⟩ := by
  subst hva
  simp only [State.scalarHome, h, s.scalarLand_enough _ _ _ hs, bne_iff_ne.mpr ha, failIf_true, firstOf_none, firstOf_some]

theorem State.scalarHome_error (ha : va % n = 0) {t : Trap} (hd : s.devCheck s.slot.core acc va n = .error t) :
    s.scalarHome a off n land acc = .error t := by
  subst hva
  simp only [State.scalarHome, h, s.scalarLand_enough _ _ _ hs, ha, bne_self_eq_false, failIf_false, firstOf_none, firstOf_nil, hd]

theorem State.scalarHome_ok (ha : va % n = 0) {x : Home} {m : Nat} {l : List (Home × Nat)}
    (hd : s.devCheck s.slot.core acc va n = .ok ((x, m) :: l)) :
    s.scalarHome a off n land acc = .ok (x, va, s.pathLatency s.slot.core (acc == .load) 1 x) := by
  subst hva
  simp only [State.scalarHome, h, s.scalarLand_enough _ _ _ hs, ha, bne_self_eq_false, failIf_false, firstOf_none, firstOf_nil, hd]

end

/-! ### The words (O8) -/

section
variable (s : State) (fr : Frame) (d a : Fin 32) (off : BitVec 20) (sz : Sz) (sx : Bool) (land : Fin 8192)
  (hp : s.predOn fr.pred = true)
include hp

theorem exec_sLdm_error {t : Trap} (h : s.scalarHome a off (szBytes sz) land.val .load = .error t) :
    exec (.sLdm fr d a off sz sx land) s = .next (s.trap t) := by
  change execSLdm fr d a off sz sx land s = _
  rw [execSLdm, h]
  exact congrArg _ (s.issue_on_error _ t rfl s.inTime_zero rfl s.banksFree_nil hp rfl)

theorem exec_sStm_error {t : Trap} (h : s.scalarHome a off (szBytes sz) land.val .store = .error t) :
    exec (.sStm fr d a off sz land) s = .next (s.trap t) := by
  change execSStm fr d a off sz land s = _
  rw [execSStm, h]
  exact congrArg _ (s.issue_on_error _ t rfl s.inTime_zero rfl s.banksFree_nil hp rfl)

theorem exec_sLdm_ok {x : Home} {va l : Nat} (h : s.scalarHome a off (szBytes sz) land.val .load = .ok (x, va, l)) :
    exec (.sLdm fr d a off sz sx land) s = .next ((s.issued [] [] (s.lateDue x 0 land.val
      ++ [landAt land.val [.setS d (loadVal (s.homeRead x (szBytes sz)) sx)]])).addBeat false x (szBytes sz) 0 (land.val - l) land.val) := by
  change execSLdm fr d a off sz sx land s = _
  rw [execSLdm, h]
  exact congrArg _ (s.issueThen_on _ _ _ rfl s.inTime_zero rfl s.banksFree_nil hp rfl)

theorem exec_sStm_ok {x : Home} {va l : Nat} (h : s.scalarHome a off (szBytes sz) land.val .store = .ok (x, va, l)) :
    exec (.sStm fr d a off sz land) s = .next ((s.issued [] [] (s.lateDue x 0 land.val
      ++ [(land.val, 1, .home x (storeBytes (szBytes sz) (s.regs.getS d)) .write)])).addBeat true x (szBytes sz) 0 0 land.val) := by
  change execSStm fr d a off sz land s = _
  rw [execSStm, h]
  exact congrArg _ (s.issueThen_on _ _ _ rfl s.inTime_zero rfl s.banksFree_nil hp rfl)

end

/-- Settles O8: each check of a device access is one way in which its home cannot be formed. -/
theorem deviceLoadAndStore : Obligations.DeviceLoadAndStore := by
  intro s fr d a off sz sx land b hp n c va lat early traps stops
  have load {t} := @exec_sLdm_error s fr d a off sz sx land hp t
  have store {t} := @exec_sStm_error s fr d a off sz land hp t
  refine ⟨fun hn => ⟨load (s.scalarHome_poisoned a off n _ _ hn), store (s.scalarHome_poisoned a off n _ _ hn)⟩, fun hb => ?_⟩
  have word : ∀ (i : Instr) (acc : Access), (∀ t, s.scalarHome a off n land.val acc = .error t → traps i t) → stops i acc := by
    intro i acc trap
    refine ⟨fun he => trap _ (s.scalarHome_short a off n _ acc b hb rfl he),
      fun he hm => trap _ (s.scalarHome_misaligned a off n _ acc b hb rfl he hm),
      fun he ha ho => trap _ (s.scalarHome_error a off n _ acc b hb rfl he ha (s.devCheck_outside c acc va n ho)),
      fun ha hv hr => ⟨fun code level addr ht => ?noPage, fun e ht he hl => ?forbids⟩⟩
    case noPage =>
      refine trap _ (s.scalarHome_error a off n _ acc b hb rfl ?_ ha ?_)
      · rintro ⟨e, -, hok, -⟩
        exact Walk.noConfusion (ht.symm.trans hok)
      · rw [s.devCheck_inside c acc va n hv hr, s.pieces_fail _ 3 va n acc (szBytes_ne_zero sz) ht]
    case forbids =>
      refine trap _ (s.scalarHome_error a off n _ acc b hb rfl he ha ?_)
      rw [s.devCheck_inside c acc va n hv hr, s.pieces_lacks _ 3 va n acc (szBytes_ne_zero sz) ht hl]
  exact ⟨word _ .load fun t h => load h, word _ .store fun t h => store h,
    fun h m hs ha hd he => exec_sLdm_ok s fr d a off sz sx land hp (s.scalarHome_ok a off n _ .load b hb rfl he ha hd),
    fun h m hs ha hd he => exec_sStm_ok s fr d a off sz land hp (s.scalarHome_ok a off n _ .store b hb rfl he ha hd)⟩

end Sys2Proof.Machine
end

section
/-! What the start of an abort leaves (R338, R341): of the machine beside its core, the record that stands and the abort of one
partition, the note in the sediment record, and what the group is told. -/

namespace Sys2Proof.Machine

/-! ### Frames -/

theorem State.setPart_self (s : State) (p : Nat) : (s.setPart p (s.part p)).parts = s.parts := by
  simp [State.setPart, State.part]

theorem State.setPart_setPart (s : State) (p : Nat) (x y : Part) : ((s.setPart p x).setPart p y).parts = (s.setPart p y).parts := by
  simp [State.setPart]

theorem State.part_congr {s t : State} (h : s.parts = t.parts) (p : Nat) : s.part p = t.part p := by
  simp only [State.part, h]

theorem State.core_congr {s t : State} (h : s.cores = t.cores) (c : Nat) : s.core c = t.core c := by
  simp only [State.core, h]

theorem State.setPart_parts_congr {s t : State} (h : s.parts = t.parts) (p : Nat) (x : Part) :
    (s.setPart p x).parts = (t.setPart p x).parts := by
  simp only [State.setPart, h]

@[simp] theorem State.flashCopy_parts (s : State) : s.flashCopy.parts = s.parts := by
  unfold State.flashCopy; split <;> rfl
@[simp] theorem State.flashCopy_cores (s : State) : s.flashCopy.cores = s.cores := by
  unfold State.flashCopy; split <;> rfl
@[simp] theorem State.flashCopy_now (s : State) : s.flashCopy.now = s.now := by
  unfold State.flashCopy; split <;> rfl
@[simp] theorem State.flashCopy_outputs (s : State) : s.flashCopy.outputs = s.outputs := by
  unfold State.flashCopy; split <;> rfl
@[simp] theorem State.flashCopy_fresh (s : State) : s.flashCopy.fresh = s.fresh := by
  unfold State.flashCopy; split <;> rfl
@[simp] theorem State.flashCopy_qpp (s : State) : s.flashCopy.mod.qpp = s.mod.qpp := by
  unfold State.flashCopy; split <;> rfl

@[simp] theorem State.sedFault_parts (s : State) (p : Nat) (f : FaultInfo) (n : Nat) : (s.sedFault p f n).parts = s.parts := by
  unfold State.sedFault; split <;> rfl
@[simp] theorem State.sedFault_cores (s : State) (p : Nat) (f : FaultInfo) (n : Nat) : (s.sedFault p f n).cores = s.cores := by
  unfold State.sedFault; split <;> rfl
@[simp] theorem State.sedFault_now (s : State) (p : Nat) (f : FaultInfo) (n : Nat) : (s.sedFault p f n).now = s.now := by
  unfold State.sedFault; split <;> rfl
@[simp] theorem State.sedFault_agenda (s : State) (p : Nat) (f : FaultInfo) (n : Nat) : (s.sedFault p f n).agenda = s.agenda := by
  unfold State.sedFault; split <;> rfl
@[simp] theorem State.sedFault_outputs (s : State) (p : Nat) (f : FaultInfo) (n : Nat) : (s.sedFault p f n).outputs = s.outputs := by
  unfold State.sedFault; split <;> rfl
@[simp] theorem State.sedFault_fresh (s : State) (p : Nat) (f : FaultInfo) (n : Nat) : (s.sedFault p f n).fresh = s.fresh := by
  unfold State.sedFault; split <;> rfl
@[simp] theorem State.sedFault_qpp (s : State) (p : Nat) (f : FaultInfo) (n : Nat) : (s.sedFault p f n).mod.qpp = s.mod.qpp := by
  unfold State.sedFault; rfl

@[simp] theorem State.tellGroup_parts (s : State) (p : Nat) : (s.tellGroup p).parts = s.parts := by
  unfold State.tellGroup; split <;> rfl
@[simp] theorem State.tellGroup_cores (s : State) (p : Nat) : (s.tellGroup p).cores = s.cores := by
  unfold State.tellGroup; split <;> rfl
@[simp] theorem State.tellGroup_mod (s : State) (p : Nat) : (s.tellGroup p).mod = s.mod := by
  unfold State.tellGroup; split <;> rfl
@[simp] theorem State.tellGroup_agenda (s : State) (p : Nat) : (s.tellGroup p).agenda = s.agenda := by
  unfold State.tellGroup; split <;> rfl
@[simp] theorem State.tellGroup_now (s : State) (p : Nat) : (s.tellGroup p).now = s.now := by
  unfold State.tellGroup; split <;> rfl
@[simp] theorem State.tellGroup_fresh (s : State) (p : Nat) : (s.tellGroup p).fresh = s.fresh := by
  unfold State.tellGroup; split <;> rfl

/-! ### The note of a fault -/

/-- A partition in which one more fault counts in the record that stands (R338). -/
def Part.noted (x : Part) : Part := { x with frec := x.frec.map fun r => { r with more := min 255 (r.more + 1) } }

theorem State.noteFault_parts (s : State) (p : Nat) (f : FaultInfo) :
    (s.noteFault p f).parts = (s.setPart p (s.part p).noted).parts := by
  have flash : ∀ t : State, (if f.cls = 4 then t.flashCopy else t).parts = t.parts := fun t => by split <;> simp
  unfold State.noteFault
  dsimp only
  rw [flash]
  cases h : (s.part p).frec with
  | some r => simp only [State.sedFault_parts, Part.noted, h, Option.map_some]
  | none =>
    have : (s.part p).noted = s.part p := by
      unfold Part.noted; rw [h, Option.map_none, ← h]
    rw [this, State.setPart_self, State.sedFault_parts]

/-- What the note of a fault leaves of everything that no partition holds. -/
theorem State.noteFault_frame (s : State) (p : Nat) (f : FaultInfo) : (s.noteFault p f).cores = s.cores
    ∧ (s.noteFault p f).now = s.now ∧ (s.noteFault p f).outputs = s.outputs ∧ (s.noteFault p f).fresh = s.fresh
    ∧ (s.noteFault p f).mod.qpp = s.mod.qpp ∧ (f.cls ≠ 4 → (s.noteFault p f).agenda = s.agenda) := by
  unfold State.noteFault
  dsimp only
  cases (s.part p).frec <;> split <;> simp_all

/-! ### A fault taken -/

/-- A partition that takes a fault at tick counter k (R338, R341). -/
def Part.faulted (x : Part) (k now : Nat) (f : FaultInfo) : Part :=
  match x.abort with
  | none => { x.noted with abort := some (x.abortAt k now f false), more := 0 }
  | some a => { x.noted with
      abort := some (if a.cycle = now && f.before a.info && !a.debug then { a with info := f } else a)
      more := if x.frec.isSome then x.more else min 255 (x.more + 1) }

theorem State.takeFault_parts (s : State) (p k : Nat) (f : FaultInfo) :
    (s.takeFault p k f).parts = (s.setPart p ((s.part p).faulted k s.now f)).parts := by
  have hparts := s.noteFault_parts p f
  have hpart : (s.noteFault p f).part p = (s.part p).noted := by
    rw [State.part_congr hparts, State.part_setPart_self]
  have hnow : (s.noteFault p f).now = s.now := (s.noteFault_frame p f).2.1
  have put : ∀ x, ((s.noteFault p f).setPart p x).parts = (s.setPart p x).parts := fun x => by
    rw [State.setPart_parts_congr hparts, State.setPart_setPart]
  unfold State.takeFault
  dsimp only
  rw [hpart, hnow]
  unfold Part.faulted
  cases h : (s.part p).abort with
  | none =>
    have : (s.part p).noted.abort = none := h
    simp only [this, put]
    rfl
  | some a =>
    have : (s.part p).noted.abort = some a := h
    have hs : (s.part p).noted.frec.isSome = (s.part p).frec.isSome := Option.isSome_map
    simp only [this, put, hs]
    rfl

theorem State.takeFault_frame (s : State) (p k : Nat) (f : FaultInfo) : (s.takeFault p k f).cores = s.cores
    ∧ (s.takeFault p k f).now = s.now ∧ (s.takeFault p k f).outputs = s.outputs ∧ (s.takeFault p k f).fresh = s.fresh
    ∧ (s.takeFault p k f).mod.qpp = s.mod.qpp ∧ (f.cls ≠ 4 → (s.takeFault p k f).agenda = s.agenda) := by
  have h := s.noteFault_frame p f
  unfold State.takeFault
  dsimp only
  split <;> exact h

theorem State.beginAbort_parts (s : State) (p : Nat) (f : FaultInfo) :
    (s.beginAbort p f).parts = (s.setPart p ((s.part p).faulted (s.part p).k s.now f)).parts := by
  unfold State.beginAbort
  dsimp only
  split <;> simp only [State.tellGroup_parts, State.takeFault_parts]

theorem State.beginAbort_frame (s : State) (p : Nat) (f : FaultInfo) : (s.beginAbort p f).cores = s.cores
    ∧ (s.beginAbort p f).now = s.now ∧ (s.beginAbort p f).fresh = s.fresh
    ∧ (s.beginAbort p f).mod.qpp = s.mod.qpp ∧ (f.cls ≠ 4 → (s.beginAbort p f).agenda = s.agenda) := by
  obtain ⟨hc, hn, -, hf, hq, ha⟩ := s.takeFault_frame p (s.part p).k f
  unfold State.beginAbort
  dsimp only
  split
  · simp only [State.tellGroup_cores, State.tellGroup_now, State.tellGroup_fresh, State.tellGroup_mod, State.tellGroup_agenda]
    exact ⟨hc, hn, hf, hq, ha⟩
  · exact ⟨hc, hn, hf, hq, ha⟩

theorem State.beginAbort_part (s : State) (p : Nat) (f : FaultInfo) :
    (s.beginAbort p f).part p = (s.part p).faulted (s.part p).k s.now f := by
  rw [State.part_congr (s.beginAbort_parts p f), State.part_setPart_self]

@[simp] theorem State.beginAbort_core (s : State) (p : Nat) (f : FaultInfo) (c : Nat) : (s.beginAbort p f).core c = s.core c :=
  State.core_congr (s.beginAbort_frame p f).1 c

/-! ### The partition after a fault -/

theorem Part.faulted_fresh (x : Part) (k now : Nat) (f : FaultInfo) (h : x.abort = none) :
    (x.faulted k now f).abort = some (x.abortAt k now f false) ∧ (x.faulted k now f).more = 0 := by
  simp only [Part.faulted, h, and_self]

/-- A fault that finds an abort under way: one of the same cycle that comes first takes its place, unless it is a debug stop's. -/
theorem Part.faulted_again (x : Part) (k now : Nat) (f : FaultInfo) (a : Abort) (h : x.abort = some a) :
    (x.faulted k now f).abort = some (if a.cycle = now && f.before a.info && !a.debug then { a with info := f } else a)
    ∧ (x.faulted k now f).more = (if x.frec.isSome then x.more else min 255 (x.more + 1)) := by
  simp only [Part.faulted, h, and_self]

theorem Part.faulted_frec (x : Part) (k now : Nat) (f : FaultInfo) :
    (x.faulted k now f).frec = x.frec.map fun r => { r with more := min 255 (r.more + 1) } := by
  unfold Part.faulted
  split <;> rfl

/-! ### The core that is taken back -/

theorem State.undoCore_core (s : State) (c : Fin 96) (t : Nat) :
    (s.undoCore c t).core c = { (mapGet s.undo c.val).getD (s.core c) with halted := true } := by
  simp [State.undoCore, State.core, State.setCore, State.setPart]

theorem State.undoCore_core_other (s : State) (c d : Fin 96) (t : Nat) (h : d ≠ c) : (s.undoCore c t).core d = s.core d :=
  State.core_set_ne _ c d _ h

/-- Of a partition, only its beats at stacks change: those of the words taken back leave. -/
theorem State.undoCore_part (s : State) (c : Fin 96) (t : Nat) : (s.undoCore c t).part (s.partOf c)
    = { s.part (s.partOf c) with beats := (s.part (s.partOf c)).beats.filter fun b => !(b.core == c.val && b.src.tick == t) } := by
  exact State.part_setPart_self ..

/-- A trap is a fault of its partition, in which only the beats of the words taken back are gone. -/
theorem State.trap_part (s : State) (f : Trap) :
    ∃ x : Part, x.abort = (s.part (s.partOf s.slot.core)).abort ∧ x.frec = (s.part (s.partOf s.slot.core)).frec
      ∧ x.more = (s.part (s.partOf s.slot.core)).more ∧ x.cad = (s.part (s.partOf s.slot.core)).cad
      ∧ (s.trap f).part (s.partOf s.slot.core) = x.faulted (s.part (s.partOf s.slot.core)).k s.now
        ⟨f.code, f.cls, some s.slot.core.val, some s.src, f.detail, f.addr,
          if f.code = 0x0A then (s.core s.slot.core).wordsLeft else []⟩ := by
  refine ⟨(s.undoTick s.slot.core).part (s.partOf s.slot.core), ?_, ?_, ?_, ?_, ?_⟩
  iterate 4 rw [State.undoTick, State.undoCore_part]
  rw [State.trap, State.beginAbort_part, State.undoTick, State.undoCore_part]
  rfl

theorem State.trap_core (s : State) (f : Trap) : (s.trap f).core s.slot.core
    = { (mapGet s.undo s.slot.core.val).getD (s.core s.slot.core) with halted := true } := by
  unfold State.trap
  dsimp only
  rw [State.beginAbort_core, State.undoTick, State.undoCore_core]

/-- Settles O49: the frame is that of every word that traps; the record and the abort are those of a fault taken at the tick. -/
theorem trapEntry : Obligations.TrapEntry := by
  intro s f c p part t
  have k := State.Keeps.trap s f
  obtain ⟨x, habort, hfrec, hmore, hcad, hpart⟩ := s.trap_part f
  have hpart : t.part p = _ := hpart
  rw [hpart]
  refine ⟨by rw [show t.core c = _ from s.trap_core f], k.mem.1.symm, k.mem.2.1.symm, k.mem.2.2.symm, k.now, s.trap_core f, k.others,
    fun h => ?fresh, fun a h => ?again, fun r hr => ?standing⟩
  case fresh =>
    rw [(Part.faulted_fresh x _ _ _ (habort.trans h)).1, Part.abortAt, hcad]
    rfl
  case again =>
    have ha := fun k now f => Part.faulted_again x k now f a (habort.trans h)
    refine ⟨fun hk => ?_, ?_, fun hf => ?_⟩
    · rw [(ha _ _ _).1, if_neg]
      obtain hk | hk := hk <;> simp [hk]
    · intro hc hd g
      rw [(ha _ _ _).1, hd, hc]
      simp [g]
      rfl
    · rw [(ha _ _ _).2, hfrec, hmore, if_neg]
      rw [show (s.part (s.partOf s.slot.core)).frec = none from hf]
      exact Bool.false_ne_true
  case standing => rw [Part.faulted_frec, hfrec, hr, Option.map_some]

/-! ### The user trap (R134) -/

/-- Settles O15: the plan of `y.trap` fails with its trap whenever the word is predicated on. -/
theorem userTrap : Obligations.UserTrap := by
  intro s fr v hp hn
  have hx : exec (.yTrap fr v) s = .next (s.trap ⟨0x3C, v.toNat, 0, 0⟩) :=
    congrArg _ (s.issue_on_error _ _ rfl s.inTime_zero rfl s.banksFree_nil hp rfl)
  obtain ⟨x, habort, -, -, -, hpart⟩ := s.trap_part ⟨0x3C, v.toNat, 0, 0⟩
  refine ⟨_, x.abortAt (s.part (s.partOf s.slot.core)).k s.now
    ⟨0x3C, 0, some s.slot.core.val, some s.src, v.toNat, 0, []⟩ false, hx, ?_, rfl, rfl, ?_, s.trap_core _⟩
  · rw [hpart, (Part.faulted_fresh x _ _ _ (habort.trans hn)).1]
    rfl
  · rw [s.trap_core]

end Sys2Proof.Machine
end

section
/-! The sync words (R126 to R136): semaphores, tokens and exports, gate registrations, sign-off, fence, breakpoint and stamp. -/

namespace Sys2Proof.Machine

/-! ### Semaphores, tokens and exports (O12) -/

theorem Regs.tokDev_one (r : Regs) (f : Fin 6) (n : Nat) :
    r.tokDev [(f, n)] = if r.tok[f] < n then some (⟨0x06, f.val, 0, 0⟩, true) else none := by
  by_cases h : r.tok[f] < n <;> simp [Regs.tokDev, h]

/-- In strict mode a deviation is a trap (R38). -/
theorem State.deviate_strict (s : State) (t : Trap) (w : Bool) (h : s.regs.ctl.elastic = false) : s.deviate t w = s.trap t := by
  have h : (s.core s.slot.core).regs.ctl.elastic = false := h
  rw [State.deviate, h, Bool.and_false, if_neg Bool.false_ne_true]

/-- A word in time whose scoreboard check fails deviates. -/
theorem State.issue_dev (s : State) (p : Plan) (t : Trap) (w : Bool) (hd : p.dec = none) (ht : p.span = 0)
    (hv : p.dev = some (t, w)) : s.issue p = s.deviate t w := by
  simp only [State.issue, hd, ht, hv, ne_eq, not_true_eq_false, false_and, if_false]

/-- Settles O12: each word is its effects behind the poison of what it reads; a pop is judged by the scoreboard. -/
theorem syncRegisterWords : Obligations.SyncRegisterWords := by
  intro s fr n v a b f c hp gives
  refine ⟨congrArg _ (s.issue_lands _ _ hp), ?push, fun h => ?pop, fun h he => ?few, fun x y hx hy => ?values, fun hn => ?poisoned⟩
  case push => exact congrArg _ (s.issue_on _ _ rfl s.inTime_zero rfl s.banksFree_nil hp rfl)
  case pop =>
    have hd : s.regs.tokDev [(f, c.val)] = none := by rw [Regs.tokDev_one, if_neg (Nat.not_lt.mpr h)]
    exact congrArg _ (s.issue_on _ _ rfl s.inTime_zero hd s.banksFree_nil hp rfl)
  case few =>
    have hd : s.regs.tokDev [(f, c.val)] = some (⟨0x06, f.val, 0, 0⟩, true) := by rw [Regs.tokDev_one, if_pos h]
    refine congrArg _ ((s.issue_dev _ _ true rfl rfl hd).trans (s.deviate_strict _ _ he))
  case values =>
    have gx : (s.regs.getS a).getD 0 = x := by rw [hx]; rfl
    have ok : ∀ ts ds, firstOf ts = none → s.issue { pred := fr.pred, on := guardAll ts ds } = s.issued [] [] ds := fun ts ds h =>
      s.issue_guard_ok fr.pred none ts ds hp rfl h
    refine ⟨?_, ?_, ?_, ?_⟩
    · change execYSemclr fr a s = _
      rw [execYSemclr, gx, hx, ok _ _ rfl]
    · change execYExport fr (.size a) s = _
      simp only [execYExport, hx, ok [needS (some x)] _ rfl]
      rfl
    · change execYExport fr (.sel b) s = _
      simp only [execYExport, hy, ok [needS (some y)] _ rfl]
      rfl
    · change execYExport fr (.both a b) s = _
      simp only [execYExport, hx, hy, ok [needS (some x), needS (some y)] _ rfl]
      rfl
  case poisoned =>
    have bad : ∀ ts ds, s.issue { pred := fr.pred, on := guardAll (needS (s.regs.getS a) :: ts) ds } = s.trap ⟨0x18, 0, 0, 0⟩ :=
      fun ts ds => s.issue_guard_error fr.pred none _ ds _ hp rfl (by rw [hn]; rfl)
    exact ⟨congrArg _ (bad _ _), congrArg _ (bad _ _), congrArg _ (bad _ _)⟩

/-! ### Gate registrations (O13) -/

/-- There is room for a registration exactly when fewer than 8 are made or one of the same gate is (R130). -/
theorem gateFull_eq_false_iff (gs : List GateReg) (g : GateReg) :
    gateFull gs g = false ↔ gs.length < 8 ∨ ∃ r ∈ gs, r.sem = g.sem ∧ r.n = g.n := by
  rw [gateFull, Bool.and_eq_false_iff, decide_eq_false_iff_not, Nat.not_le, Bool.not_eq_false', List.any_eq_true]
  simp only [Bool.and_eq_true, beq_iff_eq]

section
variable (s : State) (fr : Frame) (dec pre : Option Trap) (g : GateReg) (hp : s.predOn fr.pred = true)

theorem State.register_undeclared (t : Trap) (hd : dec = some t) : s.register fr dec pre g = .next (s.trap t) := by
  have hr : s.runs { pred := fr.pred, dec := dec, on := guardAll [pre, failIf (gateFull s.regs.gates g) ⟨0x03, 0x200 + g.n, 0, 0⟩] [] } = false := by
    simp only [State.runs, hd, Option.isNone_some, Bool.false_and]
  rw [State.register, State.issueThen, hr, if_neg Bool.false_ne_true, s.issue_dec _ t hd]

include hp

theorem State.register_made (hd : dec = none) (hpre : pre = none) (hroom : gateFull s.regs.gates g = false) :
    s.register fr dec pre g = .next ((s.issued [] [] []).setGates (putGate g s.regs.gates)) := by
  rw [State.register, s.issueThen_on _ [] _ hd s.inTime_zero rfl s.banksFree_nil hp (guardAll_ok _ _ (by rw [hpre, hroom]; rfl))]
  rfl

theorem State.register_error (hd : dec = none) (t : Trap)
    (h : firstOf [pre, failIf (gateFull s.regs.gates g) ⟨0x03, 0x200 + g.n, 0, 0⟩] = some t) :
    s.register fr dec pre g = .next (s.trap t) := by
  have ho := guardAll_error (α := List Due) _ [] t h
  have hr : s.runs { pred := fr.pred, dec := dec, on := guardAll [pre, failIf (gateFull s.regs.gates g) ⟨0x03, 0x200 + g.n, 0, 0⟩] [] } = false := by
    simp only [State.runs, ho, Bool.and_false]
  rw [State.register, State.issueThen, hr, if_neg Bool.false_ne_true, s.issue_on_error _ t hd s.inTime_zero rfl s.banksFree_nil hp ho]

end

/-- Settles O13: a registration is made where its gate is declared and finds room; a gate that is withdrawn is filtered out. -/
theorem gateRegistrations : Obligations.GateRegistrations := by
  intro s fr g n v a x hp gs room made left refused declared
  have full : ∀ r : GateReg, ¬ room r.sem r.n → gateFull s.regs.gates r = true := fun r h => by
    cases hf : gateFull s.regs.gates r with
    | true => rfl
    | false => exact absurd ((gateFull_eq_false_iff _ _).mp hf) h
  have free : ∀ r : GateReg, room r.sem r.n → gateFull s.regs.gates r = false := fun r h => (gateFull_eq_false_iff _ _).mpr h
  have known : g.val < declared → failIf (decide (declared ≤ g.val)) ⟨0x03, 0x200 + g.val, 0, 0⟩ = none := fun h => by
    rw [decide_eq_false (Nat.not_le.mpr h)]; rfl
  have unknown : declared ≤ g.val → failIf (decide (declared ≤ g.val)) ⟨0x03, 0x200 + g.val, 0, 0⟩ = some ⟨0x03, 0x200 + g.val, 0, 0⟩ :=
    fun h => by rw [decide_eq_true h]; rfl
  have clear : ∀ k : List GateReg, .next (s.issueThen { pred := fr.pred } fun t => t.setGates k)
      = (.next ((s.issued [] [] []).setGates k) : Result) := fun k =>
    congrArg _ (s.issueThen_on _ [] _ rfl s.inTime_zero rfl s.banksFree_nil hp rfl)
  refine ⟨fun hg hr => ⟨s.register_made fr _ _ _ hp (known hg) rfl (free _ hr), fun ha => ?_⟩,
    fun hr => s.register_made fr _ _ _ hp rfl rfl (free _ hr),
    fun hg => ⟨s.register_undeclared fr _ _ _ _ (unknown hg), s.register_undeclared fr _ _ _ _ (unknown hg)⟩,
    fun hg hr => ⟨s.register_error fr _ _ _ hp (known hg) _ (by rw [full _ hr]; rfl), fun ha => ?_⟩,
    fun hg ha => s.register_error fr _ _ _ hp (known hg) _ (by rw [ha]; rfl),
    fun hr => s.register_error fr _ _ _ hp rfl _ (by rw [full _ hr]; rfl), ?_, clear _, clear _⟩
  · have := s.register_made fr _ (needS (s.regs.getS a)) ⟨false, g.val, some x⟩ hp (known hg) (by rw [ha]; rfl) (free _ hr)
    refine Eq.trans ?_ this
    change execYGate fr g (some a) s = _
    rw [execYGate, ha]
    rfl
  · exact s.register_error fr _ _ _ hp (known hg) _ (by rw [ha, full _ hr]; rfl)
  · refine (clear []).trans ?_
    rw [List.filter_eq_nil_iff.mpr fun _ _ => Bool.false_ne_true]

/-! ### Sign-off, fence, breakpoint and stamp (O14) -/

/-- Settles O14: each word is its plan without checks and what it does besides; `y.brk` stops unless it is quiet. -/
theorem signOffFenceBreakStamp : Obligations.SignOffFenceBreakStamp := by
  intro s w fr sc v c t co
  refine ⟨fun h => ?sign, fun h => ?left, ?fence, fun hp => ?brk, fun hp => ?stamp⟩
  case sign =>
    have h : ((s.core c).leftWords s.slot.tick).any (0 < ·) = false := by
      rw [List.any_eq_false]
      intro x hx
      have := beq_iff_eq.mp (List.all_eq_true.mp h x hx)
      simp [this]
    change execYRdv w s = _
    simp only [execYRdv]
    rw [if_neg (by rw [h]; exact Bool.false_ne_true),
      s.issueThen_on _ [] _ rfl s.inTime_zero rfl s.banksFree_nil s.predOn_zero rfl]
    rfl
  case left =>
    change execYRdv w s = _
    simp only [execYRdv]
    rw [if_pos h]
    rfl
  case fence => exact congrArg _ (s.issueThen_on _ [] _ rfl s.inTime_zero rfl s.banksFree_nil s.predOn_zero rfl)
  case brk =>
    have hr : s.runs { pred := fr.pred } = true := s.runs_on _ [] rfl s.inTime_zero rfl s.banksFree_nil hp rfl
    have hi : s.issue { pred := fr.pred } = t := s.issue_lands fr.pred [] hp
    intro part quiet
    constructor
    · intro hq
      change execYBrk fr v s = _
      simp only [execYBrk]
      rw [if_neg, hi]
      obtain hq | hq | hq := hq
      · rw [show (s.part (s.partOf s.slot.core)).dbgOn.getLsbD 0 = false from hq]; simp
      · rw [show (s.part (s.partOf s.slot.core)).skipBrk = _ from hq]; simp [c]
      · rw [Option.isNone_eq_false_iff.mpr (Option.isSome_iff_ne_none.mpr hq)]; simp
    · intro hq
      simp only [quiet, not_or, Bool.not_eq_false, ne_eq, Classical.not_not] at hq
      obtain ⟨h1, h2, h3⟩ := hq
      change execYBrk fr v s = _
      simp only [execYBrk]
      rw [if_pos]
      rw [hr, show (s.part (s.partOf s.slot.core)).dbgOn.getLsbD 0 = true from h1,
        show (s.part (s.partOf s.slot.core)).reexec = none from h3]
      have h2 : ((s.part (s.partOf s.slot.core)).skipBrk != some (s.slot.core.val, Eng.Y, (s.core s.slot.core).retired[(1 : Fin 8)]))
        = true := bne_iff_ne.mpr h2
      rw [h2]
      rfl
  case stamp => exact congrArg _ (s.issueThen_on _ [] _ rfl s.inTime_zero rfl s.banksFree_nil hp rfl)

end Sys2Proof.Machine
end

section
/-! The vector compute words (R156 to R185): words that write a line or a mask, and their IEEE traps. -/

namespace Sys2Proof.Machine

/-! ### Vector words land their effect with its flags, or take the IEEE trap -/

section
variable {s : State} {fr : Frame} {i : Instr} {ls : List (VTy × Line)} {books : List Due} {lat : Nat}
  {vs : List (Option (Option Elem))}

/-- A vector word whose lines pass their checks. -/
theorem State.vecPlan_lands {e : Effect} (h : s.ready fr.pred [s.regs.linesCheck ls] 0 [] [])
    (hx : exec i s = .next (s.issue (s.vecPlan fr ls books (s.vecDue lat vs e)))) :
    s.landsOrTraps i [] (s.regs.lineIncs (ls.map Prod.snd) ++ books) lat e (elemFlags vs) (elemSnan vs) :=
  State.landsOrTraps_of_plan h hx rfl rfl rfl rfl (firstOf_one _).symm rfl rfl rfl

/-- The same for one that writes a line. -/
theorem State.vecPlan_writes {ty : VTy} {d : Line} (h : s.ready fr.pred [s.regs.linesCheck ls] 0 [] [])
    (hx : exec i s = .next (s.issue (s.vecPlan fr ls books (s.lineDue ty d lat vs)))) :
    s.writesLine i [] (s.regs.lineIncs (ls.map Prod.snd) ++ books) ty d lat vs :=
  State.vecPlan_lands h hx

/-- The same for a word with one source line. -/
theorem State.vbWord_writes {dt st : VTy} {d a : Line} {mk : Option (Fin 8)} {bad : Bool} {f : Nat → Elem}
    (h : s.ready fr.pred [s.regs.linesCheck [(dt, d), (st, a)]] 0 [] [])
    (hx : exec i s = .next (s.issue (s.vbWord fr dt st d a mk lat bad f))) :
    s.writesLine i [] (s.regs.lineIncs [d, a] ++ portDue lat) dt d lat (s.elems mk (lineCount dt d.dir) fun j =>
      if bad then none else (at1 ((s.core s.slot.core).line st a) j).map f) :=
  State.vecPlan_writes h hx

end

/-! ### The F64 pipeline (R160) -/

/-- F64 arithmetic takes the pipeline at its tick, and on a line of 256 elements at the next. -/
theorem pipe64_eq (ty : VTy) (d : Line) (p : Plan) : pipe64 ty d p = { p with
    banks := p.banks ++ (if ty = .f64 then [50] else [])
    books := p.books ++ (if wide64 ty d then banksAt 1 .V [50] else []) } := by
  by_cases h : ty = .f64
  · rw [pipe64, if_pos h, if_pos h]
  · have hw : wide64 ty d = false := by rw [wide64, beq_false_of_ne h, Bool.false_and]
    simp [pipe64, h, hw]

/-- The same for a word that is F64 arithmetic or not. -/
theorem pipe64_ite (b : Bool) (ty : VTy) (d : Line) (p : Plan) : (if b then pipe64 ty d p else p) = { p with
    banks := p.banks ++ (if b && ty == .f64 then [50] else [])
    books := p.books ++ (if b && ty == .f64 && wide64 ty d then banksAt 1 .V [50] else []) } := by
  cases b with
  | false => simp
  | true => by_cases h : ty = .f64 <;> simp [pipe64_eq, h, wide64]

/-! ### Two sources (O18) -/

/-- Settles O18: a two-source word is the plan of its lines and its elements; arithmetic on F64 takes the pipeline besides. -/
theorem vectorTwoSource : Obligations.VectorTwoSource := by
  intro s fr ty d a b c f64 gives
  have word : ∀ i op lat, exec i s = s.vaWord op fr ty d a b → lat = latTwo op ty → gives i op lat := by
    intro i op lat hx hlat
    subst hlat
    intro h
    simp only [State.vaWord, pipe64_ite] at hx
    exact State.landsOrTraps_of_plan h hx rfl rfl rfl rfl (firstOf_one _).symm rfl rfl (by cases op <;> rfl)
  intro fast sum prod
  have hsum : sum = latTwo .add ty := by cases ty <;> rfl
  have hprod : prod = latTwo .mul ty := by cases ty <;> rfl
  have hdiv : (if f64 then 24 else 12) = latTwo .div ty := by cases ty <;> rfl
  exact ⟨word _ .add _ rfl hsum, word _ .sub _ rfl hsum, word _ .mul _ rfl hprod, word _ .fma _ rfl hprod, word _ .fms _ rfl hprod,
    word _ .min _ rfl rfl, word _ .max _ rfl rfl, word _ .and _ rfl rfl, word _ .or _ rfl rfl, word _ .xor _ rfl rfl,
    word _ .div _ rfl hdiv⟩

/-! ### One source (O20) -/

/-- Settles O20: each word is its function of the elements of one line, poisoned where its scalar is. -/
theorem vectorOneSource : Obligations.VectorOneSource := by
  intro s fr ty d a sc n mk h xs w v k gives
  have word : ∀ i lat bad f, exec i s = .next (s.issue (s.vbWord fr ty ty d a mk lat bad f)) → gives i lat bad f :=
    fun i lat bad f hx => State.vbWord_writes h hx
  exact ⟨word _ 2 _ _ rfl, word _ 2 _ _ rfl, word _ 2 _ _ rfl, word _ 2 _ _ rfl, word _ 2 _ _ rfl, word _ 2 _ _ rfl,
    word _ 2 _ _ rfl, word _ 3 _ _ rfl⟩

/-! ### Compare and select (O21) -/

/-- Settles O21: `v.cmp` lands the mask of its elements, `v.sel` a line. -/
theorem vectorCompareSelect : Obligations.VectorCompareSelect := by
  intro s fr ty cc vmE vm d a b sc mk c xs vs v
  refine ⟨fun h => ?_, fun h => State.vecPlan_writes h rfl⟩
  have := State.vecPlan_lands (i := .vCmp fr ty cc vmE a b mk) (books := []) (vs := vs) (lat := 2)
    (e := .setVm vmE (BitVec.ofNat 512 (maskNat (elemVals vs)))) h rfl
  rwa [List.append_nil] at this

/-! ### Conversions (O22) -/

/-- Settles O22: each conversion is a word with one source line; `v.cvte` to H16 writes half-slots. -/
theorem vectorConversions : Obligations.VectorConversions := by
  intro s fr dt st h16 hi d a sc n mk c v sigma k incs la gives
  exact ⟨fun h => State.vbWord_writes h rfl, fun h => State.vbWord_writes h rfl, fun h => State.vbWord_writes h rfl,
    fun h => State.vbWord_writes h rfl, fun h => ⟨State.vecPlan_lands h rfl, State.vecPlan_writes h rfl⟩⟩

/-! ### Special functions (O23) -/

/-- Settles O23: each special function is a word with one source line; `v.sqrt` of F64 takes the pipeline. -/
theorem vectorSpecialFunctions : Obligations.VectorSpecialFunctions := by
  intro s fr ty d a mk gives f32
  have word : ∀ i f, exec i s = .next (s.issue (s.specWord fr .f32 d a mk 10 f)) → f32 i f := by
    intro i f hx h
    rw [List.append_nil]
    exact State.vbWord_writes h hx
  refine ⟨word _ _ rfl, word _ _ rfl, word _ _ rfl, word _ _ rfl, word _ _ rfl, word _ _ rfl, fun h => ?_⟩
  have hx := congrArg (fun p => (.next (s.issue p) : Result)) (pipe64_eq ty d (s.specWord fr ty d a mk
    (if ty = .f64 then (if wide64 ty d then 29 else 28) else 12) (FFmt.sqrt (fmtOf ty))))
  exact State.landsOrTraps_of_plan h hx rfl rfl rfl rfl (firstOf_one _).symm rfl rfl rfl

/-! ### Narrowing, rotation and slices (O24) -/

/-- Settles O24: the pushes and the line of each word, behind the check of the tag that it would meet. -/
theorem vectorNarrowRotateSlice : Obligations.VectorNarrowRotateSlice := by
  intro s fr ty l q fmt k blk free inv rnd mk sc tagq c key n md block
  refine ⟨?narrow, ?rot, ?slice⟩
  case narrow =>
    intro tag ws r h htag hieee
    refine congrArg _ (s.issue_ready _ _ h rfl (firstOf_one _).symm (guardAll_ok _ _ ?_))
    exact (firstOf_cons_eq_none _ _).mpr ⟨htag, (firstOf_one _).trans hieee⟩
  case rot =>
    intro want xs vs h
    refine ⟨fun hm => State.vecPlan_writes h ?_, fun x hq hm => ?_⟩
    · change execVRot fr ty l tagq k blk inv rnd s = _
      cases tagq with
      | none => rfl
      | some x => simp only [execVRot, Option.bind_some, hm x rfl, want, key, bne_self_eq_false, failIf_false]; rfl
    · subst hq
      refine congrArg _ (s.issue_ready_error _ _ h (firstOf_one _).symm rfl ?_)
      have hm : ((s.regs.ring x).rtag != tagOf true blk k (s.regs.k[k]).gen) = true := bne_iff_ne.mpr hm
      simp only [State.vecPlan, Option.bind_some, hm, failIf_true, want, key]
  case slice =>
    intro v x m i xs ok src b fl h htag hieee
    have hchecks : firstOf [c.tagCheck q 0 (s.slot.tick + 6), ieeeTrap s.regs.ctl.ftrap fl (ok && src.any FVal.isSnan)] = none :=
      (firstOf_cons_eq_none _ _).mpr ⟨htag, (firstOf_one _).trans hieee⟩
    change execVSliceF64 fr q l sc s = _
    unfold execVSliceF64
    dsimp only
    refine congrArg Host.Outcome.next (Eq.trans (s.issue_ready _ _ h rfl rfl (guardAll_ok _ _ hchecks)) ?_)
    rw [State.commit_eq_issued]
    simp only [State.vecPlan, List.append_nil]
    rfl

end Sys2Proof.Machine
end

section
/-! Integer elements (R166) and the vector words that move data: line accesses of AB and of rings (R186 to R190), gather and scatter
(R191 to R193), lanes (R194), reductions and scans (R195 to R198), matches, random fill and masks (R199 to R201). -/

namespace Sys2Proof.Machine

/-! ### Two's complement of w bits -/

theorem ubits_lt (w : Nat) (v : Int) : ubits w v < 2 ^ w := by
  have hpos : (0 : Int) < ((2 ^ w : Nat) : Int) := by exact_mod_cast Nat.two_pow_pos w
  have h1 := Int.emod_nonneg v (Int.ne_of_gt hpos)
  have h2 := Int.emod_lt_of_pos v hpos
  unfold ubits
  omega

/-- A value in range is read back from its bits. -/
theorem sint_ubits (w : Nat) (hw : 0 < w) (v : Int) (hlo : -((2 ^ (w - 1) : Nat) : Int) ≤ v) (hhi : v < ((2 ^ (w - 1) : Nat) : Int)) :
    sint w (ubits w v) = v := by
  have hp : 2 ^ w = 2 * 2 ^ (w - 1) := by rw [← Nat.pow_add_one', Nat.sub_add_cancel hw]
  have hlt := ubits_lt w v
  unfold sint
  rw [Nat.mod_eq_of_lt hlt]
  unfold ubits at hlt ⊢
  rw [hp] at hlt ⊢
  generalize 2 ^ (w - 1) = P at *
  by_cases h : v < 0
  · have hm : v % ((2 * P : Nat) : Int) = v + (2 * P : Nat) := by
      rw [← Int.add_emod_right, Int.emod_eq_of_lt] <;> omega
    rw [hm, if_neg] <;> omega
  · have hm : v % ((2 * P : Nat) : Int) = v := Int.emod_eq_of_lt (Int.not_lt.mp h) (by omega)
    rw [hm, if_pos] <;> omega

/-- An integer element holds its saturated value and raises nothing (R166). -/
theorem intElem_spec (ty : VTy) (v : Int) (hw : 0 < intBits ty) :
    sint (intBits ty) (intElem ty v).val = max (-(2 : Int) ^ (intBits ty - 1)) (min ((2 : Int) ^ (intBits ty - 1) - 1) v)
    ∧ (intElem ty v).flags = 0 ∧ (intElem ty v).snan = false ∧ (intElem ty v).val < 2 ^ intBits ty := by
  refine ⟨?_, rfl, rfl, ubits_lt _ _⟩
  have hs : satS (intBits ty) v = max (-(2 : Int) ^ (intBits ty - 1)) (min ((2 : Int) ^ (intBits ty - 1) - 1) v) := by
    unfold satS; push_cast; rfl
  have hpos := Nat.two_pow_pos (intBits ty - 1)
  have hcast : ((2 ^ (intBits ty - 1) : Nat) : Int) = (2 : Int) ^ (intBits ty - 1) := by push_cast; rfl
  rw [← hs]
  refine sint_ubits _ hw _ ?_ ?_ <;> rw [hs, hcast] <;> rw [hcast.symm] <;> omega

/-- Settles O19: the operation is exact on integers, and its result an integer element. -/
theorem vectorIntegerSaturates : Obligations.VectorIntegerSaturates := by
  intro op ty md ftz a b d hop hty w v r
  have hint : ty.isFloat = false ∧ ty ≠ .x72 ∧ 0 < intBits ty := by
    simp only [List.mem_cons, List.not_mem_nil, or_false] at hty
    obtain rfl | rfl | rfl := hty <;> exact ⟨rfl, by decide, by decide⟩
  obtain ⟨hfloat, hx72, hw⟩ := hint
  have hr : r = intElem ty v := by
    have hmin : ∀ x y : Int, (if y < x then y else x) = min x y := fun x y => by omega
    have hmax : ∀ x y : Int, (if x < y then y else x) = max x y := fun x y => by omega
    simp only [List.mem_cons, List.not_mem_nil, or_false] at hop
    obtain rfl | rfl | rfl | rfl | rfl | rfl | rfl := hop <;>
      simp only [r, v, w, twoOp, hfloat, hx72, intOp, Bool.false_eq_true, if_false, hmin, hmax]
  rw [hr]
  exact intElem_spec ty v hw

/-! ### Line accesses of AB (O25) -/

/-- A line access of AB whose address is aligned: what its plan leaves, and its trap outside AB. -/
theorem State.vdPlan_issue (s : State) (fr : Frame) (ls : List (VTy × Line)) (x : List BufAddr) (banks : List Nat)
    (books ds : List Due) {align check : Option Trap} (h : s.ready fr.pred [s.regs.linesCheck ls] 0 [] banks)
    (ha : align = none) :
    (check = none → s.issue (s.vdPlan fr ls x align banks books (guardAll [check] ds))
      = s.issued [] banks (((ls.map Prod.snd).map s.regs.lineInc ++ x.map s.regs.postInc).flatten.eraseDups ++ books ++ ds))
    ∧ (∀ t, check = some t → s.issue (s.vdPlan fr ls x align banks books (guardAll [check] ds)) = s.trap t) := by
  subst ha
  exact ⟨fun hc => s.issue_ready _ _ h rfl rfl (guardAll_ok _ _ ((firstOf_one _).trans hc)),
    fun t hc => s.issue_ready_error _ t h rfl rfl (guardAll_error _ _ _ ((firstOf_one _).trans hc))⟩

theorem State.vdPlan_misaligned (s : State) (fr : Frame) (ls : List (VTy × Line)) (x : List BufAddr) (banks : List Nat)
    (books : List Due) (on : Except Trap (List Due)) {align : Option Trap} {t : Trap} (ha : align = some t) :
    s.issue (s.vdPlan fr ls x align banks books on) = s.trap t :=
  s.issue_dec _ t (by rw [State.vdPlan, ha, firstOf_some])

theorem abRange_eq_none (x n : Nat) (h : x + n ≤ Config.abBytes) : abRange x n = none := by
  rw [abRange, decide_eq_false (Nat.not_lt.mpr h), failIf_false]

theorem abRange_eq_some (x n : Nat) (h : Config.abBytes < x + n) : abRange x n = some ⟨0x20, 0, x, 0⟩ := by
  rw [abRange, decide_eq_true h, failIf_true]

/-- An alignment check passes at a multiple, and is its trap elsewhere. -/
theorem failIf_mod_eq_none {a n : Nat} (t : Trap) (h : a % n = 0) : failIf (a % n != 0) t = none := by
  rw [h, bne_self_eq_false, failIf_false]

theorem failIf_mod_eq_some {a n : Nat} (t : Trap) (h : a % n ≠ 0) : failIf (a % n != 0) t = some t := by
  rw [bne_iff_ne.mpr h, failIf_true]

/-- Settles O25: alignment is a decode check, the range a data check, of both words. -/
theorem vectorLoadStore : Obligations.VectorLoadStore := by
  intro s fr ty l x off mk c a n bk incs la en h
  have line := fun books ds (ha : a % 64 = 0) => s.vdPlan_issue fr [(ty, l)] [x] bk.1 books ds (check := abRange a n) h
    (failIf_mod_eq_none ⟨0x02, 0, a, 0⟩ ha)
  have odd := fun books on (ha : a % 64 ≠ 0) => s.vdPlan_misaligned fr [(ty, l)] [x] bk.1 books on
    (failIf_mod_eq_some ⟨0x02, 0, a, 0⟩ ha)
  exact ⟨fun ha hr => ⟨congrArg _ ((line _ _ ha).1 (abRange_eq_none a n hr)), congrArg _ ((line _ _ ha).1 (abRange_eq_none a n hr))⟩,
    fun ha => ⟨congrArg _ (odd _ _ ha), congrArg _ (odd _ _ ha)⟩,
    fun ha hr => ⟨congrArg _ ((line _ _ ha).2 _ (abRange_eq_some a n hr)), congrArg _ ((line _ _ ha).2 _ (abRange_eq_some a n hr))⟩⟩

/-! ### Line accesses of a ring (O26) -/

theorem Regs.popDev_eq_none (r : Regs) (q : Fin 32) (n : Nat) (h : n ≤ (r.ring q).count) : r.popDev q n = none :=
  if_neg (Nat.not_lt.mpr h)

theorem Regs.popDev_eq_some (r : Regs) (q : Fin 32) (n : Nat) (h : (r.ring q).count < n) :
    r.popDev q n = some (⟨0x05, q.val, 0, 0⟩, true) :=
  if_pos h

/-- The tag check passes at an empty ring and at one whose entries carry the tag (R95). -/
theorem Core.tagCheck_eq_none (c : Core) (q : Fin 32) (tag : BitVec 16) (land : Nat)
    (h : 0 < (c.ringAt q land).count → (c.ringAt q land).rtag = tag) : c.tagCheck q tag land = none := by
  unfold Core.tagCheck
  by_cases hc : 0 < (c.ringAt q land).count
  · simp [h hc]
  · simp [hc]

theorem Core.tagCheck_eq_some (c : Core) (q : Fin 32) (tag : BitVec 16) (land : Nat) (hc : 0 < (c.ringAt q land).count)
    (h : (c.ringAt q land).rtag ≠ tag) :
    c.tagCheck q tag land = some ⟨0x04, tag.toNat + 65536 * (c.ringAt q land).rtag.toNat, 0, 0⟩ := by
  simp only [Core.tagCheck, hc, decide_true, Bool.true_and, bne_iff_ne.mpr h, failIf_true]

/-- Settles O26: the pop's entries are a scoreboard check, the push's tag is a data check. -/
theorem vectorRingLines : Obligations.VectorRingLines := by
  intro s fr ty l q mk c n r ring incs lat bp at_ bq
  have hinc : [s.regs.lineInc l].flatten.eraseDups = incs := by rw [List.flatten_cons, List.flatten_nil, List.append_nil]
  have hd : firstOf [firstOf [none, s.regs.linesCheck [(ty, l)]], s.regs.lineRing q n]
      = firstOf [s.regs.linesCheck [(ty, l)], ring] := firstOf_nest [none, _] [_]
  refine ⟨fun hc h => ?pop, fun h hc ht => ?met, fun h ht => ?push, fun hc he hn => ?empty⟩
  case pop =>
    rw [← hinc]
    exact congrArg _ (s.issue_ready _ _ h hd (s.regs.popDev_eq_none q 1 hc) rfl)
  case met =>
    refine congrArg _ (s.issue_ready_error _ _ h hd rfl (guardAll_error _ _ _ ((firstOf_one _).trans ?_)))
    refine (c.tagCheck_eq_some q 0 _ hc ht).trans ?_
    rw [show (0 : BitVec 16).toNat = 0 from rfl, Nat.zero_add]
  case push =>
    rw [← hinc]
    exact congrArg _ (s.issue_ready _ _ h hd rfl (guardAll_ok _ _ ((firstOf_one _).trans (c.tagCheck_eq_none q 0 _ ht))))
  case empty =>
    refine congrArg _ ((s.issue_dev _ _ true (hd.trans hn) rfl (s.regs.popDev_eq_some q 1 ?_)).trans (s.deviate_strict _ _ he))
    exact hc.symm ▸ Nat.one_pos

/-! ### Gather, scatter and bitmaps (O27) -/

/-- In strict mode a word whose banks hold at most eight granules each is a word on lines and an address. -/
theorem State.issueLoaded_strict (s : State) (p : Plan) (load : List Nat) (he : s.regs.ctl.elastic = false) :
    s.issueLoaded p load = s.issue p := by
  rw [State.issueLoaded, he, Bool.false_and, if_neg Bool.false_ne_true]

theorem State.loadDev_eq_none (s : State) (load : List Nat) (h : bankOver load 8 = none) : s.loadDev load = none := by
  rw [State.loadDev, h]
  split <;> rfl

/-- Settles O27: the four words differ in their lines, addresses and landings; their checks have one form. -/
theorem vectorGatherScatter : Obligations.VectorGatherScatter := by
  intro s fr ty l x off mk c x0 g ids as_ en gl gi bi does
  have word : ∀ (i : Instr) ls al addrs more check d,
      exec i s = .next (s.issueLoaded { s.vdPlan fr ls [x] (failIf (x0 % al != 0) ⟨0x02, 0, x0, 0⟩) (range' 0 32) more
        (guardAll [check] [d]) with dev := s.loadDev (bankLoad (s.liveAddrs fr mk addrs)) } (bankLoad (s.liveAddrs fr mk addrs))) →
      does i ls al addrs ((ls.map Prod.snd).map s.regs.lineInc ++ [x].map s.regs.postInc).flatten.eraseDups more check d := by
    intro i ls al addrs more check d hx he ha hb h
    rw [hx, s.issueLoaded_strict _ _ he, s.loadDev_eq_none _ hb]
    obtain ⟨hok, htrap⟩ := s.vdPlan_issue fr ls [x] (range' 0 32) more [d] (check := check) h
      (failIf_mod_eq_none ⟨0x02, 0, x0, 0⟩ ha)
    exact ⟨fun hc => congrArg _ (hok hc), fun t hc => congrArg _ (htrap t hc)⟩
  exact ⟨word _ gl _ _ _ _ _ rfl, word _ gl _ _ _ _ _ rfl, word _ [(ty, l)] _ _ _ _ _ rfl, word _ [(ty, l)] _ _ _ _ _ rfl⟩

/-! ### Lanes (O28) -/

/-- Settles O28: each word is a lane word, with the place that each element comes from. -/
theorem vectorLanes : Obligations.VectorLanes := by
  intro s fr ty d a sc x k mk h xs n v sh m gives
  have word : ∀ i lat bad j, exec i s = s.laneWord fr ty d a mk lat bad j → gives i lat bad j := fun i lat bad j hx =>
    State.vecPlan_writes h hx
  exact ⟨word _ 2 _ _ rfl, word _ 2 _ _ rfl, word _ 2 _ _ rfl, word _ 3 _ _ rfl, word _ 3 _ _ rfl, word _ 3 _ _ rfl,
    word _ 3 _ _ rfl⟩

/-! ### Reductions and scans (O29) -/

/-- Settles O29: a reduction writes one element for each group, a scan a line. -/
theorem vectorReductions : Obligations.VectorReductions := by
  intro s fr ty d a g mk h gs tree books one idx
  have word : ∀ i wty lat f, exec i s = s.groupWord fr ty wty d a g lat mk f → one i wty lat f := by
    intro i wty lat f hx
    have := State.vecPlan_writes (ty := wty) h hx
    rwa [List.length_map] at this
  exact ⟨word _ _ _ _ rfl, word _ _ _ _ rfl, word _ _ _ _ rfl, word _ _ _ _ rfl, word _ _ _ _ rfl, State.vecPlan_writes h rfl⟩

/-! ### Matches, random fill and masks (O30) -/

/-- Settles O30: `v.match` and the mask words are results of the issue tick; `v.rndfill` writes a line. -/
theorem matchRandomFillAndMasks : Obligations.MatchRandomFillAndMasks := by
  refine ⟨?lines, ?masks⟩
  case lines =>
    intro s fr ty pe part pat win d sc q mk c v e ps ws hit poison n k
    refine ⟨fun h => ?_, fun h => ?_⟩
    · refine congrArg _ ((s.issue_ready _ _ h (firstOf_one _).symm rfl rfl).trans ?_)
      rw [State.commit_eq_issued]
      exact congrArg (fun b => s.issued [] [] (b ++ _)) (List.append_nil _)
    · refine ⟨fun hf => ?_, fun t hf => ?_⟩
      · refine congrArg _ ((s.issue_ready _ _ h rfl (firstOf_one _).symm (guardAll_ok _ _ ((firstOf_one _).trans hf))).trans ?_)
        exact State.commit_eq_issued s _ _
      · exact congrArg _ (s.issue_ready_error _ _ h rfl (firstOf_one _).symm (guardAll_error _ _ _ ((firstOf_one _).trans hf)))
  case masks =>
    intro s fr d a b cc sc hp x y gives count
    have mask : ∀ v, s.maskWord fr d v = .next (s.issued [] [] [landAt 1 [.setVm d v]]) := fun v =>
      congrArg _ (s.issue_lands fr.pred _ hp)
    have hd : Fin.ofNat 16 d.val = d.castLE (by decide) := Fin.ext (Nat.mod_eq_of_lt (Nat.lt_trans d.isLt (by decide)))
    refine ⟨mask _, mask _, mask _, mask _, fun v hv => ⟨?_, ?_⟩, fun hn => ⟨?_, ?_⟩⟩
    · change execVMset fr d sc s = _
      rw [execVMset, hv]
      exact congrArg _ (s.issue_guard_ok _ _ _ _ hp rfl rfl)
    · change execVMcount fr d a cc sc s = _
      simp only [execVMcount, hv, hd]
      exact congrArg _ (s.issue_lands fr.pred _ hp)
    · exact congrArg _ (s.issue_guard_error _ _ _ _ _ hp rfl (by rw [hn]; rfl))
    · change execVMcount fr d a cc sc s = _
      simp only [execVMcount, hn, hd]
      exact congrArg _ (s.issue_lands fr.pred _ hp)

end Sys2Proof.Machine
end

section
/-! PROOF. The matrix words (O16, O17): a matrix word is a plan of its tokens, and what it starts is due from its issue tick on. -/

namespace Sys2Proof.Machine

/-- A matrix word whose tokens are there, and whose data checks pass, issues and leaves what it starts. -/
theorem State.mWord_issue {s : State} {fr : Frame} {tok : Tok} (last : Nat) (books on : List Due)
    (h : s.ready fr.pred [] 0 [s.regs.tokDev (tokPops .M tok)] []) :
    s.issue (s.mWord fr tok last books on) = s.issued (tokPops .M tok) [] (books ++ (on ++ tokPushes .M tok last)) :=
  (s.issue_ready _ _ h rfl (firstOf_one _).symm rfl).trans (s.commit_eq_issued _ _)

/-- The same for one that changes the core too. -/
theorem State.mWord_issueThen {s : State} {fr : Frame} {tok : Tok} (last : Nat) (books on : List Due) (f : State → State)
    (h : s.ready fr.pred [] 0 [s.regs.tokDev (tokPops .M tok)] []) :
    s.issueThen (s.mWord fr tok last books on) f
      = f (s.issued (tokPops .M tok) [] (books ++ (on ++ tokPushes .M tok last))) :=
  (s.issueThen_ready _ _ f h rfl (firstOf_one _).symm rfl).trans (congrArg f (s.commit_eq_issued _ _))

/-- Whether a row holds a band, as a proposition. -/
theorem Core.holdsBand_eq_true (c : Core) (m : BitVec 4) (t : Nat) :
    c.holdsBand m t = true ↔ ∃ h, h ∈ c.holds ∧ t ≤ h.1 ∧ h.2 &&& m ≠ 0 := by
  simp [Core.holdsBand, List.any_eq_true]

/-- Settles O16: settings are matrix words with one effect; the swap, the wake and the weight load change their core too. -/
theorem matrixSettingsAndWeightLoad : Obligations.MatrixSettingsAndWeightLoad := by
  refine ⟨?settings, ?load⟩
  case settings =>
    intro s fr tok mask imm a post beta h m t upd woken
    have set : ∀ books on, s.issue (s.mWord fr tok 1 books on) = t books on := fun books on => State.mWord_issue 1 books on h
    refine ⟨congrArg _ (set _ _), fun hh => ?_, fun hh => ?_, congrArg _ (set _ _), congrArg _ (set _ _), congrArg _ (set _ _),
      congrArg _ (State.mWord_issueThen 1 _ _ _ h), congrArg _ (State.mWord_issueThen 1 _ _ _ h)⟩
    · have hb : (s.core s.slot.core).holdsBand m (s.slot.tick + 1) = false := by
        rw [← Bool.not_eq_true, Core.holdsBand_eq_true]
        exact fun ⟨x, hx, ht, hm⟩ => hm (hh x hx ht)
      refine congrArg _ ((s.issue_ready _ _ h rfl (firstOf_one _).symm (guardAll_ok _ _ ?_)).trans (s.commit_eq_issued _ _))
      rw [firstOf_one, hb]; rfl
    · have hb : (s.core s.slot.core).holdsBand m (s.slot.tick + 1) = true := (Core.holdsBand_eq_true _ _ _).mpr hh
      refine congrArg _ (s.issue_ready_error _ _ h rfl (firstOf_one _).symm (guardAll_error _ _ _ ?_))
      rw [firstOf_one, hb]; rfl
  case load =>
    intro s fr tok qa qb s5 c ra rb banks h lines t
    refine congrArg _ ((s.issueThen_ready _ _ _ h rfl rfl rfl).trans ?_)
    rw [State.commit_eq_issued]
    rfl

/-- A last check that passes changes nothing. -/
theorem firstOf_concat_none {α : Type} (ts : List (Option α)) : firstOf (ts ++ [none]) = firstOf ts := by
  rw [firstOf_append]
  exact Option.or_none

/-- Settles O17: the checks of a mac word are those of its hypotheses; its first row is checked on and off. -/
theorem multiplyAccumulate : Obligations.MultiplyAccumulate := by
  intro s fr tok qa qb l rows dm init peek c r ra w runs
  have word : ∀ i s5 sparse peek, exec i s = s.macWord fr tok qa qb l rows dm init peek s5 sparse → runs i s5 sparse peek := by
    intro i s5 sparse peek hx h hoff hon hring htag hsnan
    refine hx.trans (congrArg _ ((s.issue_ready _ _ h rfl ?dev (guardAll_ok _ _ ?data)).trans (s.commit_eq_issued _ _)))
    case dev => rw [hoff]; exact firstOf_concat_none [_]
    case data =>
      rw [hon]
      have hr : (!sparse && w.ring != some qb) = false := by
        cases sparse
        · rw [hring rfl, bne_self_eq_false, Bool.and_false]
        · rfl
      have hs : (r.ctl.ftrap.getLsbD 5 && w.snan) = false := by
        cases hf : r.ctl.ftrap.getLsbD 5
        · rfl
        · rw [hsnan hf, Bool.and_false]
      refine (firstOf_cons_eq_none _ _).mpr ⟨(failIf_eq_none _ _).mpr hr, (firstOf_cons_eq_none _ _).mpr ⟨?_,
        (firstOf_cons_eq_none _ _).mpr ⟨(failIf_eq_none _ _).mpr hs, rfl⟩⟩⟩
      exact (failIf_eq_none _ _).mpr (by rw [show tagMatch _ _ = true from htag]; rfl)
  exact ⟨word _ _ _ _ rfl, word _ _ _ _ rfl, word _ _ _ _ rfl⟩

end Sys2Proof.Machine
end

section
/-! PROOF. Reset, the worked words, steps, and the words of the outbound path (O37, O40, O55, O56, O59). -/

namespace Sys2Proof.Machine

/-! ### The worked words (O56) -/

/-- Settles O56, by evaluation of the decoder. -/
theorem decodeSamples : Obligations.DecodeSamples := by
  refine ⟨?_, ?_, ?_, ?_, ?_, ?_, ?_, ?_, ?_, ?_, ?_, ?_, ?_, ?_⟩ <;> decide +kernel

/-! ### Reset (O59) -/

/-- Settles O59, register by register. -/
theorem resetState : Obligations.ResetState := by
  refine ⟨State.reset_memWf, rfl, rfl, rfl, rfl, rfl, rfl, rfl, rfl, rfl, fun q => ?quarter, fun c => ?core, fun a => ?hbm⟩
  case quarter =>
    have hq : (State.reset.parts[q]) = Part.reset := by simp [State.reset]
    rw [hq]
    refine ⟨rfl, rfl, rfl, rfl, Vector.getElem_replicate _, fun n => ?_⟩
    have hn : (Part.reset.queues[n]) = Queue.reset := by simp [Part.reset]
    rw [hn]
    exact ⟨rfl, rfl⟩
  case core =>
    have hc : (State.reset.cores[c]) = Core.reset := by simp [State.reset]
    rw [hc]
    refine ⟨fun n => ?_, rfl, rfl, fun a => rfl, rfl⟩
    simp [Core.reset, Regs.reset, Regs.getS]
  case hbm => rfl

/-! ### Steps (O55) -/

/-- A state in which an event is due at cycle 5, while the core of a tick that has run is still kept for a precise trap. -/
def keptCore : State := { State.reset with agenda := [⟨5, 0, .powerGood⟩], undo := [(0, Core.reset)] }

/-- Refutes O55: where time passes, a step also lets go of the cores kept for a precise trap (`State.advance`), which the
statement says stay. -/
theorem not_stepRunsDecodedWord : ¬ Obligations.StepRunsDecodedWord := by
  intro h
  have hidle : keptCore.firstTick = none := by decide +kernel
  obtain ⟨-, -, -, hwait, -⟩ := h keptCore
  have hstep : step keptCore = .next (keptCore.advance 5) := by
    unfold step State.todo
    rw [hidle]
    rfl
  have := hwait ⟨5, 0, .powerGood⟩ [] rfl (by decide) fun p b hp => absurd (hidle.symm.trans hp) (by simp)
  rw [hstep] at this
  exact absurd (congrArg State.undo (Host.Outcome.next.inj this)) (by simp [State.advance, keptCore])

/-! ### Atomics and signals (O37) -/

/-- Whole operands, an aligned address, and pieces at homes: the first home takes the operation, unless it is a peer's. -/
theorem State.atomicHome_aligned {s : State} {va : W64} {vs : List (Option W64)} {n m : Nat} {acc : Access} {h : Home}
    {hs : List (Home × Nat)} (hv : firstOf (vs.map needS) = none) (ha : va.toNat % n = 0)
    (hd : s.devCheck s.slot.core acc va.toNat n = .ok ((h, m) :: hs)) :
    ((∀ x y z pa, h ≠ .peer x y z pa) → s.atomicHome (some va) vs n acc = .ok (h, va.toNat))
    ∧ (∀ x y z pa, h = .peer x y z pa → s.atomicHome (some va) vs n acc = .error ⟨0x20, 0, va.toNat, 0⟩) := by
  constructor
  · intro hp
    cases h with
    | peer x y z pa => exact absurd rfl (hp x y z pa)
    | hbm pa => simp [State.atomicHome, hv, ha, hd]
    | host ba => simp [State.atomicHome, hv, ha, hd]
  · rintro x y z pa rfl
    simp [State.atomicHome, hv, ha, hd]

theorem State.atomicHome_misaligned {s : State} {va : W64} {vs : List (Option W64)} {n : Nat} {acc : Access}
    (hv : firstOf (vs.map needS) = none) (ha : va.toNat % n ≠ 0) :
    s.atomicHome (some va) vs n acc = .error ⟨0x02, 0, va.toNat, 0⟩ := by
  simp [State.atomicHome, hv, ha]

/-- A word of format WA whose home is found hands its operation over; one whose is not traps. -/
theorem State.atomicWord_ok {s : State} {fr : Frame} {tok : Tok} {h : Except Trap (Home × Nat)} (kind : OpKind) (sc : Scope)
    (rel : Bool) (hr : s.ready fr.pred [] 0 [s.regs.tokDev (tokPops .W tok)] []) :
    (∀ x, h = .ok x → s.atomicWord fr tok h kind sc rel
      = .next ((s.issued (tokPops .W tok) [] (tokPushes .W tok 1)).newOp kind x.2 (some x.1) [] sc rel))
    ∧ (∀ t, h = .error t → s.atomicWord fr tok h kind sc rel = .next (s.trap t)) := by
  constructor
  · rintro x rfl
    exact congrArg _ ((s.issueThen_ready _ _ _ hr rfl (firstOf_one _).symm rfl).trans rfl)
  · rintro t rfl
    exact congrArg _ (s.issue_ready_error _ _ hr rfl (firstOf_one _).symm rfl)

/-- Settles O37: both words are words of format WA, and differ in their operands. -/
theorem atomicWords : Obligations.AtomicWords := by
  intro s fr tok op ty sg sc rel a v c va x y hr hva hx hy t word
  have wa : ∀ i n vs acc kind, exec i s = s.atomicWord fr tok (s.atomicHome (some va) vs n acc) kind sc rel →
      firstOf (vs.map needS) = none → word i n acc kind := by
    intro i n vs acc kind hi hv
    refine ⟨fun h m hs ha hd => ⟨fun hp => ?_, fun x y z pa hp => ?_⟩, fun ha => ?_⟩
    · exact hi.trans ((State.atomicWord_ok kind sc rel hr).1 _ ((State.atomicHome_aligned hv ha hd).1 hp))
    · exact hi.trans ((State.atomicWord_ok kind sc rel hr).2 _ ((State.atomicHome_aligned hv ha hd).2 x y z pa hp))
    · exact hi.trans ((State.atomicWord_ok kind sc rel hr).2 _ (State.atomicHome_misaligned hv ha))
  constructor
  · refine wa _ _ (some x :: match op with | .cas => [some y] | _ => []) _ _ ?_ ?_
    · change execWAmo fr tok op ty sc rel a v c s = _
      unfold execWAmo
      dsimp only
      rw [hva, hx, hy]
      cases ty <;> rfl
    · cases op <;> rfl
  · refine wa _ _ [some x] _ _ ?_ rfl
    change execWSig fr tok sg sc rel a v s = _
    unfold execWSig
    dsimp only
    rw [hva, hx]
    rfl

/-! ### Untimetabled operations and `x.align` (O40) -/

/-- Core 0 in a system phase of two members, with a descriptor of zeros. -/
def aligning : State :=
  let s := State.reset.setCore 0 { Core.reset with rdv := 352, sdm0 := ⟨[], [0]⟩ }
  s.setPart 0 { s.part 0 with job := some {
    id := 1, queue := 0, ridx := 0, launch := ⟨0, false, 0, false, false, false, false, true, 0, 0, 0, 0, 0, 0, 0, 0, 0, 0, 0⟩,
    table := ⟨[⟨true, true, true, [], 0, 0, [], [], []⟩], 0, 1, []⟩, pidx := 0, infl := 0, phase := 0, z := 0, q := 0,
    marked := false, replays := 0, start := 0, rank := 0, members := 2, hops := 1, done := false, csigHome := none } }

/-- The beats that have taken a torus port of partition 0. -/
def portsTaken : Result → Nat
  | .next t => (t.part 0).ports.length
  | _ => 0

/-- Refutes O40: the beat of `x.align` also takes its torus port at the tick (R291), which the statement leaves out. -/
theorem not_linkUntimetabled : ¬ Obligations.LinkUntimetabled := by
  intro h
  have hdesc : (aligning.core 0).desc 0 = some Desc.none := by decide +kernel
  obtain ⟨-, -, halign⟩ := h aligning ⟨0, 0⟩ .px 0 .set ⟨0, false⟩ 0 0 Desc.none 0 [] hdesc (by decide +kernel)
  have hexec := halign (by decide +kernel) (by decide +kernel) (by decide +kernel) (by unfold State.ready; decide +kernel)
  have hports : portsTaken (exec (.xAlign ⟨0, 0⟩ .px ⟨0, false⟩) aligning) = 1 := by decide +kernel
  rw [hexec] at hports
  revert hports
  decide +kernel

end Sys2Proof.Machine
end

section
/-! PROOF. Load-copy words (O31 to O34): a load-copy word whose checks pass leaves its beats to land. -/

namespace Sys2Proof.Machine

/-- A load-copy word whose checks pass: what it reads at its issue tick is charged, and its beats are in flight. -/
theorem State.loadWord_reads {s : State} {fr : Frame} {tok : Tok} {land nb : Nat} {dec dec' : List (Option Trap)} {inc : List Due}
    {banks : List (Nat × List Nat)} {off : List Due} {bs : List LBeat} {reads : List (Home × Nat)} {u : State}
    (h : s.ready fr.pred dec' (land + nb - 1) [s.regs.tokDev (tokPops .L tok), s.lSlotDev land nb] [])
    (hd : firstOf dec = firstOf dec')
    (hu : reads.foldl (fun t p => t.chargeBeat false p.1 p.2 0 (t.readSlack land p.1) land)
      (s.issued (tokPops .L tok) [] (inc ++ lSlots land banks ++ (s.lDues land bs ++ tokPushes .L tok (land + nb - 1)))) = u) :
    s.loadWord fr tok land nb dec [] inc banks off (.ok bs) reads
      = .next (u.addBeats false (u.readSlack land) (bs.map fun b => (b.j, land + b.j, b.homes))) := by
  subst hu
  exact congrArg _ (s.issueThen_ready _ _ _ h hd rfl rfl)

/-- A load-copy word whose checks pass, and which reads nothing but its beats. -/
theorem State.loadWord_ok {s : State} {fr : Frame} {tok : Tok} {land nb : Nat} {dec dec' : List (Option Trap)} {inc : List Due}
    {banks : List (Nat × List Nat)} {off : List Due} {bs : List LBeat}
    (h : s.ready fr.pred dec' (land + nb - 1) [s.regs.tokDev (tokPops .L tok), s.lSlotDev land nb] [])
    (hd : firstOf dec = firstOf dec') :
    s.loadWord fr tok land nb dec [] inc banks off (.ok bs) = .next (s.loadIssued tok land nb inc banks bs []) := by
  rw [State.loadIssued, List.append_nil]
  exact State.loadWord_reads h hd rfl

/-- Settles O31. -/
theorem loadRows : Obligations.LoadRows := by
  intro s fr tok wb x sc q ty tile desc land d ps
  dsimp only
  intro hdesc
  refine ⟨fun hfit h hps => ?tile, fun hfit hc hb h hps ht => ?ring, fun hfit hn h hps => ?row⟩
  case tile =>
    change execLTile fr tok wb x sc desc land s = _
    simp only [execLTile, hdesc, Option.getD_some, hps]
    exact State.loadWord_ok h (by rw [firstOf_one, descTrap_ok _ _ _ hfit]; rfl)
  case ring =>
    change execLRing fr tok q sc desc land s = _
    simp only [execLRing, hdesc, Option.getD_some, hps, ht]
    refine State.loadWord_ok h ?_
    rw [descTrap_ok _ _ _ (by simp [hfit, hc]; exact (Nat.le_one_iff_eq_zero_or_eq_one.mp hc).imp_right hb), firstOf_none]
  case row =>
    change execLRow fr tok ty tile x sc desc land s = _
    simp only [execLRow, hdesc, Option.getD_some, hps]
    refine State.loadWord_ok h ?_
    rw [descTrap_ok _ _ _ (by rw [hfit, hn, beq_self_eq_true, Bool.and_self]), firstOf_none]

/-- An alignment check that passes, before the others of a word on rows, changes nothing. -/
theorem State.rowChecks_cons_none (s : State) (a : Access) (v : Option W64) (aligns ranges : List (Option Trap))
    (rows : List (Nat × Nat)) (isLoad : Bool) (land nb : Nat) :
    s.rowChecks a v (none :: aligns) ranges rows isLoad land nb = s.rowChecks a v aligns ranges rows isLoad land nb := by
  have hf : firstOf (needS v :: s.landTrap isLoad land nb rows :: none :: aligns)
      = firstOf (needS v :: s.landTrap isLoad land nb rows :: aligns) := by
    cases needS v <;> cases s.landTrap isLoad land nb rows <;> rfl
  unfold State.rowChecks
  rw [hf]

/-- Settles O32. -/
theorem loadHalo : Obligations.LoadHalo := by
  intro s fr tok pad x sc desc land d v ps
  dsimp only
  intro hdesc hv hfit hconv hstride hsize hoff h hps
  change execLHalo fr tok pad x sc desc land s = _
  simp only [execLHalo, hdesc, hv, Option.getD_some, hoff, bne_self_eq_false, failIf_false, State.rowChecks_cons_none, hps]
  refine State.loadWord_ok h ?_
  rw [firstOf_one, descTrap_ok _ _ _ (by simp only [hfit, hconv, hstride, hsize, beq_self_eq_true, decide_true, and_self, Bool.and_self]), firstOf_nil]

/-- Settles O33. -/
theorem loadNarrow : Obligations.LoadNarrow := by
  intro s fr tok k q sc desc land d src md fmt blk ps
  dsimp only
  intro hdesc hok hsrc hmd hfmt hblk h hps ht
  change execLNarrow fr tok k q sc desc land s = _
  have hchecks : firstOf [descTrap desc (some d) fun d => d.narrowOk (s.core s.slot.core).regs.ctl.round.toNat,
      (s.core s.slot.core).regs.ringCheck q fun g => g.buf == 1 && g.esize == 40]
      = firstOf [(s.core s.slot.core).regs.ringCheck q fun g => g.buf == 1 && g.esize == 40] := by
    rw [descTrap_ok _ _ _ hok, firstOf_none]
  simp only [execLNarrow, hdesc, Option.getD_some, hsrc, hmd, hfmt, hblk, ht]
  cases src with
  | ty t =>
    dsimp only at hps ⊢
    rw [hps]
    exact State.loadWord_ok h hchecks
  | mx f =>
    dsimp only at hps ⊢
    rw [hps]
    exact State.loadWord_ok h hchecks

/-- Settles O34: `l.csr` is a load-copy word that reads its pointers too, `l.gather` a word of its own that reads its index list. -/
theorem loadIndexed : Obligations.LoadIndexed := by
  intro s fr tok q sc x desc land d v
  dsimp only
  intro hdesc hv
  refine ⟨fun pp ps hfit h hseg ht ht1 => ?csr, fun bs hfit hrows haux hland h hok hbs => ?gather⟩
  case csr =>
    change execLCsr fr tok q x sc desc land s = _
    simp only [execLCsr, hdesc, hv, Option.getD_some, needS_some, hseg, ht, ht1, firstOf_none, firstOf_nil]
    refine State.loadWord_reads h ?_ rfl
    rw [descTrap_ok _ _ _ hfit, firstOf_none]
  case gather =>
    change execLGather fr tok x sc desc land s = _
    simp only [execLGather, hdesc, hv, Option.getD_some, needS_some, hok, hbs]
    refine congrArg _ ((s.issueThen_ready _ _ _ h ?_ ?_ rfl).trans ?_)
    · rw [firstOf_one, descTrap_ok _ _ _ (by simp [hfit, hrows, haux])]
      rfl
    · rw [if_neg (Nat.not_le.mpr hland)]
      exact firstOf_concat_none [_, _]
    · rw [State.commit_eq_issued]
      rfl

end Sys2Proof.Machine
end

section
/-! PROOF. Store-copy words (O35, O36): a store-copy word whose checks pass leaves its reads, its landings and its beats. -/

namespace Sys2Proof.Machine

/-- A store-copy word whose checks pass. -/
theorem State.storeWord_ok {s : State} {w : StoreForm} {dec' : List (Option Trap)} {jobs : List Due}
    {beats : List (Nat × List (Home × Nat))} (h : s.storeReady w.fr w.tok dec' w.dev w.reads w.lands w.last)
    (hd : firstOf w.dec = firstOf dec') (ho : w.on = .ok (jobs, beats)) :
    s.storeWord w = .next (s.storeIssued w.tok w.reads w.land w.lands w.last w.books jobs beats w.source) := by
  unfold State.storeWord
  simp only [ho]
  exact congrArg _ (s.issueThen_ready _ _ _ h hd rfl rfl)

/-- Rows of AB to their homes. -/
theorem State.abStore_ok {s : State} {fr : Frame} {tok : Tok} {a : Access} {op : HomeOp} {x : BufAddr} {sc : Fin 32}
    {desc : Fin 2048} {land : Fin 8192} {d : Desc} {ps : List (List (Home × Nat))} (hdesc : (s.core s.slot.core).desc desc = some d)
    (hfit : d.fits [.bstride, .dstride, .rows, .rbytes, .doff] = true) :
    let c := s.core s.slot.core
    let v := c.regs.getS sc
    let ea := c.regs.ea x
    let rs := range' 0 (d.rows + 1)
    let bs := beatsOf (d.rows + 1) d.rbytes 512
    let reads := bs.map fun k => (k.j, bufBanks .ab (d.ba ea k.row + k.lo) k.n)
    let lands := bs.map fun k => land.val + k.j
    let last := land.val + bs.length - 1
    let cut (k : RowBeat) := cutPieces (nth ps k.row []) k.lo k.n
    s.storeReady fr tok [] [] reads lands last →
    s.rowChecks a v (rs.flatMap fun r => [failIf (d.va v r % 8 != 0) ⟨0x02, 0, d.va v r, 0⟩, bufAlign .ab d.rbytes (d.ba ea r)])
      (rs.map fun r => bufRange .ab d.rbytes (d.ba ea r)) (rs.map fun r => (d.va v r, d.rbytes)) false land.val bs.length = .ok ps →
    s.abStore fr tok a op x sc desc land = .next (s.storeIssued tok reads land.val lands last (s.incs x)
      (bs.map fun k => (k.j, 3, .read (.ab (d.ba ea k.row + k.lo) k.n (cut k) (s.slot.tick + land.val + k.j) op)))
      (bs.map fun k => (land.val + k.j, cut k))) := by
  dsimp only
  intro h hps
  unfold State.abStore
  simp only [hdesc, Option.getD_some, hps]
  exact State.storeWord_ok h (by rw [firstOf_one, descTrap_ok _ _ _ hfit]; rfl) rfl

/-- Settles O35: rows of AB, entries of a ring and rows of the MRF. -/
theorem storeRows : Obligations.StoreRows := by
  intro s fr tok x sc q op ty tile desc land d ps
  dsimp only
  intro hdesc
  refine ⟨fun hfit h hps => State.abStore_ok hdesc hfit h hps, fun hfit h hps => State.abStore_ok hdesc hfit h hps,
    fun hfit h hps => ?ring, fun hfit hn h hps => ?row⟩
  case ring =>
    change s.ringStore fr tok q sc desc land = _
    unfold State.ringStore
    simp only [hdesc, Option.getD_some, hps]
    exact State.storeWord_ok h (by rw [descTrap_ok _ _ _ hfit, firstOf_none]) rfl
  case row =>
    change execWRow fr tok ty tile x sc desc land s = _
    unfold execWRow
    simp only [hdesc, Option.getD_some, hps]
    refine State.storeWord_ok h ?_ rfl
    rw [descTrap_ok _ _ _ (by rw [hfit, hn, beq_self_eq_true, Bool.and_self]), firstOf_none]

/-- Settles O36. -/
theorem storeFilter : Obligations.StoreFilter := by
  intro s fr tok bf16 x sc desc land d v ps
  dsimp only
  intro hdesc hv hfit hpar hmul hsize hmap hrec h hva hea hps hchecks
  change execWFilt fr tok bf16 x sc desc land s = _
  unfold execWFilt
  simp only [firstOf_cons_eq_none, firstOf_nil] at hchecks
  obtain ⟨hlogits, hbitmap, hrecord, hland, -⟩ := hchecks
  simp only [hdesc, hv, Option.getD_some, needS_some, hland, failIf_mod_eq_none _ hva, failIf_mod_eq_none _ hea, firstOf_none,
    firstOf_nil, hps, guardAll, hlogits, hbitmap, hrecord]
  refine State.storeWord_ok h ?_ rfl
  rw [firstOf_one, descTrap_ok, firstOf_nil]
  simp only [hfit, hpar, hmul, hsize, hmap, hrec, beq_self_eq_true, decide_true, and_self, Bool.and_self]

end Sys2Proof.Machine
end

section
/-! PROOF. Timetabled link words (O38, O39): a sending word leaves its reads, a receiving word takes up its transfer. -/

namespace Sys2Proof.Machine

/-! ### Sending (O38) -/

/-- A land at or above the least of its path is no deviation. -/
theorem State.leastDev_eq_none {s : State} {path : Path} {peer land : Nat}
    (h : ∀ n, leastLand s.slot.core path peer = some n → n ≤ land) : s.leastDev path peer land 0 = none := by
  refine if_neg (Nat.not_lt.mpr ?_)
  cases hn : leastLand s.slot.core path peer with
  | none => exact Nat.zero_le _
  | some n => exact h n hn

/-- Settles O38. -/
theorem linkSend : Obligations.LinkSend := by
  intro s fr path x q desc land d
  dsimp only
  intro hdesc hleast
  have hland : s.leastDev path d.peer land.val 0 = none := State.leastDev_eq_none hleast
  refine ⟨fun hfit h hdata => ?ab, fun hfit h => ?ring⟩
  case ab =>
    change execXSend fr path (.ab x) desc land s = _
    simp only [execXSend, hdesc, Option.getD_some, hland]
    refine congrArg _ ((s.issue_ready _ _ h ?_ (firstOf_concat_none [_]) (guardAll_ok _ _ hdata)).trans (s.commit_eq_issued _ _))
    rw [descTrap_ok _ _ _ hfit, firstOf_none]
  case ring =>
    change execXSend fr path (.ring q) desc land s = _
    simp only [execXSend, hdesc, Option.getD_some, hland]
    refine congrArg _ ((s.issue_ready _ _ h ?_ (firstOf_concat_none [_, _]) rfl).trans (s.commit_eq_issued _ _))
    rw [descTrap_ok _ _ _ hfit, firstOf_none]

/-! ### Receiving (O39) -/

/-- A word that issues neither halts its core nor freezes it. -/
theorem State.issued_active (s : State) (toks : List (Fin 6 × Nat)) (banks : List Nat) (ds : List Due) :
    ((s.issued toks banks ds).core s.slot.core).halted = (s.core s.slot.core).halted
    ∧ ((s.issued toks banks ds).core s.slot.core).stalled = (s.core s.slot.core).stalled := by
  simp [State.issued, State.commit]

/-- A transfer that is due at the tick of a receiving word, of the word's size, matches. -/
theorem State.matchDev_eq_none {s : State} {path : Path} {d : Desc} {b : LinkBeat}
    (hb : (s.core s.slot.core).firstBeat (sendTick s.slot.core s.src) path d.peer = some b)
    (hs : b.rows = d.rows ∧ b.rbytes = d.rbytes) : s.matchDev path d = none := by
  simp only [State.matchDev, hb, if_pos hs]

/-- Codes 0 to 7 name paths. -/
theorem lt_eight_of_pathOf {n : Nat} {path : Path} (h : pathOf n = some path) : n < 8 := by
  unfold pathOf at h
  split at h
  case h_9 => exact absurd h (by simp)
  all_goals decide

/-- A receiving word whose transfer is due and whose checks pass takes it up. -/
theorem State.receive_ok {s : State} {fr : Frame} {path : Path} {d : Desc} {dec dec' : List (Option Trap)}
    {dev : List (Option (Trap × Bool))} {span : Nat} {inc : List Due} {banks : List (Nat × List Nat)} {data : List (Option Trap)}
    {jobs : List (Nat × Nat × RecvJob)} {b : LinkBeat} (ha : s.active)
    (hb : (s.core s.slot.core).firstBeat (sendTick s.slot.core s.src) path d.peer = some b)
    (hs : b.rows = d.rows ∧ b.rbytes = d.rbytes)
    (hslot : ((s.core s.slot.core).regs.ctl.elastic
      || !(s.core s.slot.core).slotTaken .X 566 s.slot.tick ((d.rows + 1) * cdiv d.rbytes 256)) = true)
    (h : s.ready fr.pred dec' span dev ((566 :: (banks.filter fun b => b.1 == 0).flatMap Prod.snd).eraseDups))
    (hdec : firstOf dec = firstOf dec') (hdata : b.empty = false → firstOf data = none) :
    s.receive fr path d dec dev span inc banks data jobs
      = .next ((s.issued [] ((566 :: (banks.filter fun b => b.1 == 0).flatMap Prod.snd).eraseDups)
        (inc ++ (range' 1 ((d.rows + 1) * cdiv d.rbytes 256 - 1)).flatMap (fun o => banksAt o .X [566])
          ++ ((banks.filter fun b => b.1 != 0).flatMap fun b => banksAt b.1 .X b.2)
          ++ jobs.map fun j => (j.1, j.2.1, .link (sendTick s.slot.core s.src) path d.peer j.1 j.2.2 true))).takeUp path d.peer) := by
  have hslot' : (!(s.core s.slot.core).regs.ctl.elastic
      && (s.core s.slot.core).slotTaken .X 566 s.slot.tick ((d.rows + 1) * cdiv d.rbytes 256)) = false := by
    revert hslot
    cases (s.core s.slot.core).regs.ctl.elastic <;> simp
  have hon : ∀ v : List Due, (if b.empty then Except.ok v else guardAll data v) = .ok v := by
    intro v
    cases he : b.empty with
    | true => rfl
    | false => exact guardAll_ok _ _ (hdata he)
  obtain ⟨hrun, hgo⟩ := ha
  unfold State.receive
  simp only [hb, s.matchDev_eq_none hb hs, hslot', hon, firstOf_none, Bool.false_eq_true, if_false]
  rw [s.issue_ready _ _ h hdec rfl rfl, State.commit_eq_issued]
  obtain ⟨hh, hst⟩ := s.issued_active [] ((566 :: (banks.filter fun b => b.1 == 0).flatMap Prod.snd).eraseDups)
    (inc ++ (range' 1 ((d.rows + 1) * cdiv d.rbytes 256 - 1)).flatMap (fun o => banksAt o .X [566])
          ++ ((banks.filter fun b => b.1 != 0).flatMap fun b => banksAt b.1 .X b.2)
          ++ jobs.map fun j => (j.1, j.2.1, .link (sendTick s.slot.core s.src) path d.peer j.1 j.2.2 true))
  rw [if_neg (by rw [hh, hst, hrun, hgo]; simp)]

/-- Settles O39: each word is a receiving word with checks, banks and jobs of its own. -/
theorem linkReceive : Obligations.LinkReceive := by
  intro s fr path x q desc op land d b
  dsimp only
  intro hdesc
  refine ⟨fun hfit ha hb hs hslot h hdata => ?ab, fun hfit ha hb hs hslot h hdata => ?wb, fun hfit ha hb hs hslot h hdata => ?ring,
    fun hpar hfit ha hb hs hslot h hdata => ?red, fun inPath hpath haux hfit ha hb hs hslot h hdata => ?fwd⟩
  case ab =>
    change execXRecv fr path (.ab x) desc s = _
    simp only [execXRecv, hdesc, Option.getD_some]
    exact State.receive_ok ha hb hs hslot h (by rw [descTrap_ok _ _ _ hfit, firstOf_none]) hdata
  case wb =>
    change execXRecv fr path (.wb x) desc s = _
    simp only [execXRecv, hdesc, Option.getD_some]
    exact State.receive_ok ha hb hs hslot h (by rw [descTrap_ok _ _ _ hfit, firstOf_none]) hdata
  case ring =>
    change execXRecv fr path (.ring q) desc s = _
    simp only [execXRecv, hdesc, Option.getD_some, hb]
    exact State.receive_ok ha hb hs hslot h (by rw [descTrap_ok _ _ _ hfit, firstOf_none]) hdata
  case red =>
    change execXRed fr path op x desc s = _
    simp only [execXRed, hdesc, Option.getD_some]
    exact State.receive_ok ha hb hs hslot h (by rw [descTrap_ok _ _ _ (by simp only [hfit, hpar, decide_true, Bool.and_self]), firstOf_none]) hdata
  case fwd =>
    change execXFwd fr path desc land s = _
    simp only [execXFwd, hdesc, Option.getD_some, hpath]
    have hconv : d.conv < 8 := lt_eight_of_pathOf hpath
    exact State.receive_ok ha hb hs hslot h
      (by rw [descTrap_ok _ _ _ (by simp only [hfit, hconv, haux, decide_true, Bool.and_self]), firstOf_none]) hdata

end Sys2Proof.Machine
end

section
/-! PROOF. Grammar words (O41 to O43): image words, context words and record words. -/

namespace Sys2Proof.Machine

/-! ### Image words (O41) -/

/-- A context that is bound passes the check of R238. -/
theorem GM.unbound_eq_none {g : GM} {n : Fin 64} (h : (g.ctx[n]).bound = true) : g.unbound n = none := by
  rw [GM.unbound, h]; rfl

theorem GM.unbound_eq_some {g : GM} {n : Fin 64} (h : (g.ctx[n]).bound = false) :
    g.unbound n = some ⟨0x03, 0x500 + n.val, 0, 0⟩ := by
  rw [GM.unbound, h]; rfl

/-- Settles O41. -/
theorem grammarImageWords : Obligations.GrammarImageWords := by
  intro s fr n a x vc land
  dsimp only
  intro hact
  refine ⟨fun v h hv halign hva hreg hpoison hhead hext hr => ?bind,
    fun v p hv hb hreg hfree hland hplan href hr => ?stepReg,
    fun tok p htok halign hrange hb hreg hfree hland hplan href hr => ?stepAb,
    fun bm hbm hpoison halign hrange hb hreg hvc hland hr => ?mask⟩
  case bind =>
    change execGBind fr n a s = _
    simp only [execGBind, hv, Option.getD_some, hpoison, hhead, hext, if_true]
    refine congrArg _ (congrArg (State.holdBeats · v.toNat 64) ((s.issue_ready _ _ hr rfl rfl (guardAll_ok _ _ ?_)).trans (s.commit_eq_issued _ _)))
    simp [failIf_eq_none, halign, hreg]
    exact hva
  case stepReg =>
    change execGStep fr n (.reg a) land s = _
    have hv' : (s.core s.slot.core).regs.getS a = some v := hv
    simp only [execGStep, Core.token, hv', Option.map_some, Option.getD_some, hplan]
    refine congrArg _ (congrArg (State.holdBeats · _ land.val) ((s.issueThen_ready _ _ _ hr ?_ rfl (guardAll_ok _ _ ?_)).trans ?_))
    · rw [GM.unbound_eq_none hb]; rfl
    · simp [firstOf_cons_eq_none, failIf_eq_none, href]
      exact ⟨hreg, hfree, hland⟩
    · rw [State.commit_eq_issued]; rfl
  case stepAb =>
    change execGStep fr n (.ab x) land s = _
    simp only [execGStep, Core.token, htok, Option.getD_some, hplan]
    refine congrArg _ (congrArg (State.holdBeats · _ land.val) ((s.issueThen_ready _ _ _ hr ?_ rfl (guardAll_ok _ _ ?_)).trans ?_))
    · rw [GM.unbound_eq_none hb]
      simp [halign]
    · simp [firstOf_cons_eq_none, failIf_eq_none, href, hrange]
      exact ⟨hreg, hfree, hland⟩
    · rw [State.commit_eq_issued] <;> rfl
  case mask =>
    change execGMask fr n x vc land s = _
    simp only [execGMask, hpoison, hbm]
    refine congrArg _ (congrArg (State.holdBeats · _ land.val) ((s.issue_ready _ _ hr ?_ rfl (guardAll_ok _ _ ?_)).trans ?_))
    · rw [GM.unbound_eq_none hb, failIf_mod_eq_none _ halign]; rfl
    · simp [firstOf_cons_eq_none, failIf_eq_none, hrange]
      exact ⟨hreg, hvc, hland⟩
    · rw [State.commit_eq_issued]

/-! ### Context words (O42) -/

/-- A context word whose checks pass makes its references and drops at once, and leaves its update. -/
theorem State.ctxWord_ok {s : State} {fr : Frame} {dec : List (Option Trap)} {refs drops : List Nat} {es : List Effect}
    (hp : s.predOn fr.pred = true) (hd : firstOf dec = none) (hr : (s.core s.slot.core).gm.refTrap refs drops = none) :
    s.ctxWord fr dec refs drops 2 es = .next ((s.issued [] [] (if es = [] then [] else [landAt 2 es])).setGM
      (((s.core s.slot.core).gm.refAll refs).dropAll drops)) := by
  refine congrArg _ ((s.issueThen_ready _ _ _ (s.ready_of_predOn _ hp) hd rfl (guardAll_ok _ _ ((firstOf_one _).trans hr))).trans ?_)
  rw [State.commit_eq_issued]
  cases es <;> rfl

/-- A word that fails a check of decode traps, and does nothing else. -/
theorem State.issueThen_dec (s : State) (p : Plan) (t : Trap) (f : State → State) (hd : p.dec = some t) :
    s.issueThen p f = s.trap t := by
  have hr : s.runs p = false := by simp [State.runs, hd]
  rw [State.issueThen, hr, if_neg Bool.false_ne_true, s.issue_dec p t hd]

/-- One whose context is not as it needs it traps. -/
theorem State.ctxWord_trap {s : State} {fr : Frame} {dec : List (Option Trap)} {refs drops : List Nat} {es : List Effect} {t : Trap}
    (hd : firstOf dec = some t) : s.ctxWord fr dec refs drops 2 es = .next (s.trap t) :=
  congrArg _ (s.issueThen_dec _ t _ hd)

/-- Settles O42. -/
theorem grammarContextWords : Obligations.GrammarContextWords := by
  intro s fr e n hp g x y mtop does
  have trapped : ∀ {i dec refs drops es}, exec i s = s.ctxWord fr dec refs drops 2 es →
      firstOf dec = some ⟨0x03, 0x500 + n.val, 0, 0⟩ → exec i s = .next (s.trap ⟨0x03, 0x500 + n.val, 0, 0⟩) :=
    fun hi hd => hi.trans (State.ctxWord_trap hd)
  have done : ∀ {i dec refs drops es}, exec i s = s.ctxWord fr dec refs drops 2 es → firstOf dec = none → does i refs drops es :=
    fun hi hd hr => hi.trans (State.ctxWord_ok hp hd hr)
  constructor
  · intro hb
    have hu : firstOf [g.unbound n] = none := (firstOf_one _).trans (GM.unbound_eq_none hb)
    have hfree : exec (.gFree fr n) s = s.ctxWord fr [] [] x.ptrs 2 [.ctx n (.whole GCtx.reset)] := by
      change execGFree fr n s = _
      unfold execGFree
      dsimp only
      rw [if_pos hb, if_pos hb]
    refine ⟨done rfl hu, done rfl hu, fun hm => done rfl ?_, fun hm => trapped rfl ?_, done rfl hu, done hfree rfl⟩
    · rw [GM.unbound_eq_none hb, firstOf_none, show x.mark = true from hm]; rfl
    · rw [GM.unbound_eq_none hb, firstOf_none, show x.mark = false from hm]; rfl
  · intro hb
    have hu : firstOf [g.unbound n] = some ⟨0x03, 0x500 + n.val, 0, 0⟩ := (firstOf_one _).trans (GM.unbound_eq_some hb)
    have hfree : exec (.gFree fr n) s = s.ctxWord fr [] [] [] 2 [] := by
      change execGFree fr n s = _
      unfold execGFree
      dsimp only
      rw [if_neg (Bool.not_eq_true _ ▸ hb), if_neg (Bool.not_eq_true _ ▸ hb)]
    refine ⟨done hfree rfl, trapped rfl hu, trapped rfl hu, trapped rfl ?_, trapped rfl hu⟩
    rw [GM.unbound_eq_some hb]; rfl

/-! ### Record words (O43) -/

/-- A record word that stores: its bank is taken at the landing. -/
theorem State.recordWord_stores {s : State} {fr : Frame} {x : BufAddr} {dec : List (Option Trap)} {refs drops : List Nat}
    {es : List Effect} (ha : (s.core s.slot.core).regs.ea x % 32 = 0)
    (hr : (s.core s.slot.core).regs.ea x + 32 ≤ Config.abBytes) (hd : firstOf dec = none) (h : s.ready fr.pred [] 0 [] [])
    (hg : (s.core s.slot.core).gm.refTrap refs drops = none) :
    s.recordWord fr x dec [] 4 refs drops es = .next ((s.issued [] [] (s.incs x
      ++ banksAt 4 .G [(s.core s.slot.core).regs.ea x / 64 % 32] ++ [landAt 4 es])).setGM
        (((s.core s.slot.core).gm.refAll refs).dropAll drops)) := by
  refine congrArg _ ((s.issueThen_ready _ _ _ h ?_ rfl (guardAll_ok _ _ ?_)).trans rfl)
  · rw [failIf_mod_eq_none _ ha, firstOf_none, hd]; rfl
  · rw [hg]
    simp [firstOf_cons_eq_none, failIf_eq_none, hr]

/-- A record word that reads a good record: its bank is taken at once. -/
theorem State.recordWord_reads {s : State} {fr : Frame} {x : BufAddr} {data : List (Option Trap)} {refs drops : List Nat}
    {es : List Effect} (ha : (s.core s.slot.core).regs.ea x % 32 = 0)
    (hr : (s.core s.slot.core).regs.ea x + 32 ≤ Config.abBytes) (hd : firstOf data = none)
    (h : s.ready fr.pred [] 0 [] [(s.core s.slot.core).regs.ea x / 64 % 32])
    (hg : (s.core s.slot.core).gm.refTrap refs drops = none) :
    s.recordWord fr x [] data 0 refs drops es = .next ((s.issued [] [(s.core s.slot.core).regs.ea x / 64 % 32]
      (s.incs x ++ [landAt 4 es])).setGM (((s.core s.slot.core).gm.refAll refs).dropAll drops)) := by
  refine congrArg _ ((s.issueThen_ready _ _ _ h ?_ rfl (guardAll_ok _ _ ?_)).trans ?_)
  · rw [failIf_mod_eq_none _ ha]; rfl
  · rw [List.cons_append, firstOf_cons_eq_none, firstOf_append, hd, hg]
    simp [failIf_eq_none, hr]
  · rw [State.commit_eq_issued]
    simp only [if_true, List.append_nil]

@[simp] theorem leBytes_length (n w : Nat) : (leBytes n w).length = n := by
  induction n generalizing w with
  | zero => rfl
  | succ n ih => rw [leBytes, List.length_cons, ih]

/-- The status record fills 32 bytes with zeros. -/
theorem statusBytes_eq (g : GM) (c : GCtx) : statusBytes g c = leBytes 2 c.state ++ leBytes 2 c.depth
    ++ leBytes 2 (if isEmptyPtr c.top then 0 else g.node c.top / 65536) ++ leBytes 1 (c.flags false + 8 * (isEmptyPtr c.top).toNat)
    ++ [0] ++ leBytes 2 c.steps ++ leBytes 2 g.free ++ leBytes 2 g.queue.length ++ List.replicate 18 0 := by
  simp only [statusBytes, padTo, List.length_append, leBytes_length, List.length_singleton]

/-- A byte whose bit 3 is set. -/
theorem bit3_of_getLsbD {b : Byte} (h : b.getLsbD 3 = true) : b.toNat / 8 % 2 = 1 := by
  rw [BitVec.getLsbD, Nat.testBit_eq_decide_div_mod_eq] at h
  simpa using h

/-- Settles O43. -/
theorem grammarRecordWords : Obligations.GrammarRecordWords := by
  intro s fr n x move copy co g c a bank halign hrange stores
  have stored : ∀ {i : Instr} {refs : List Nat} {bytes : List Byte} {more : List Effect},
      exec i s = s.recordWord fr x [g.unbound n] [] 4 refs [] (.store .ab (place a (bytes.map some)) :: more) →
      stores i refs bytes more := by
    intro i refs bytes more hi hb h hg
    exact hi.trans (State.recordWord_stores halign hrange ((firstOf_one _).trans (GM.unbound_eq_none hb)) h hg)
  refine ⟨stored rfl, stored ?state, fun bs hbs hfl hbound hcrc h hg => ?restore⟩
  case state =>
    rw [← statusBytes_eq]
    rfl
  case restore =>
    have hraw : ((s.core s.slot.core).bufRead .ab ((s.core s.slot.core).regs.ea x) 32).map (fun b => b.getD 0) = bs := by
      rw [show (s.core s.slot.core).bufRead .ab ((s.core s.slot.core).regs.ea x) 32 = bs.map some from hbs, List.map_map]
      exact List.map_id _
    change execGRestore fr n x copy s = _
    unfold execGRestore
    dsimp only
    rw [hraw]
    refine State.recordWord_reads halign hrange ?_ h hg
    rw [show (s.core s.slot.core).bufRead .ab ((s.core s.slot.core).regs.ea x) 32 = bs.map some from hbs, hcrc, hbound,
      bit3_of_getLsbD hfl]
    simp [firstOf_cons_eq_none, failIf_eq_none]

end Sys2Proof.Machine
end

section
/-! PROOF. Decoding the encoding of a word gives the word back (O57): fields read what was packed, codes decode to what they encode,
each format's body is read back, and the opcode map finds the format. -/

namespace Sys2Proof

/-! ### Fields -/

/-- The fields of packed values are the values, cut to their widths. -/
theorem unpack_pack (fs : List (Nat × Nat)) : unpack (fs.map Prod.fst) (pack fs) = fs.map fun f => f.2 % 2 ^ f.1 := by
  induction fs with
  | nil => rfl
  | cons f fs ih =>
    obtain ⟨n, v⟩ := f
    have hpos : 0 < 2 ^ n := Nat.two_pow_pos n
    have hmod : (v % 2 ^ n + 2 ^ n * pack fs) % 2 ^ n = v % 2 ^ n := by
      rw [Nat.add_mul_mod_self_left, Nat.mod_mod]
    have hdiv : (v % 2 ^ n + 2 ^ n * pack fs) / 2 ^ n = pack fs := by
      rw [Nat.add_mul_div_left _ _ hpos, Nat.div_eq_of_lt (Nat.mod_lt _ hpos), Nat.zero_add]
    simp only [List.map_cons, pack, unpack, hmod, hdiv, ih]

/-- Packed values fill their widths at most. -/
theorem pack_lt (fs : List (Nat × Nat)) : pack fs < 2 ^ (fs.map Prod.fst).sum := by
  induction fs with
  | nil => exact Nat.one_pos
  | cons f fs ih =>
    obtain ⟨n, v⟩ := f
    have hv : v % 2 ^ n < 2 ^ n := Nat.mod_lt _ (Nat.two_pow_pos n)
    calc v % 2 ^ n + 2 ^ n * pack fs < 2 ^ n + 2 ^ n * pack fs := Nat.add_lt_add_right hv _
      _ = 2 ^ n * (pack fs + 1) := by rw [Nat.mul_add, Nat.mul_one, Nat.add_comm]
      _ ≤ 2 ^ n * 2 ^ (fs.map Prod.fst).sum := Nat.mul_le_mul_left _ ih
      _ = 2 ^ (((n, v) :: fs).map Prod.fst).sum := by rw [List.map_cons, List.sum_cons, Nat.pow_add]

@[simp] theorem fin_mod_of_le {n m : Nat} (a : Fin n) (h : n ≤ m) : a.val % m = a.val := Nat.mod_eq_of_lt (Nat.lt_of_lt_of_le a.isLt h)
@[simp] theorem toNat_mod_of_le {n m : Nat} (a : BitVec n) (h : 2 ^ n ≤ m) : a.toNat % m = a.toNat :=
  Nat.mod_eq_of_lt (Nat.lt_of_lt_of_le a.isLt h)
@[simp] theorem bit_toNat (b : Bool) : bit b.toNat = b := by cases b <;> rfl
@[simp] theorem bool_toNat_mod (b : Bool) : b.toNat % 2 = b.toNat := by cases b <;> rfl

/-! ### Codes -/

@[simp] theorem Eng.ofCode_code (e : Eng) : Eng.ofCode e.code = some e := by cases e <;> rfl
@[simp] theorem VTy.ofCode_code (c : VTy) : VTy.ofCode c.code = some c := by cases c <;> rfl
@[simp] theorem VTy.code_mod (c : VTy) : c.code % 8 = c.code := by cases c <;> rfl
@[simp] theorem Dir.ofCode_code (x : Dir) : Dir.ofCode x.code = some x := by cases x <;> rfl
@[simp] theorem Dir.code_mod (x : Dir) : x.code % 4 = x.code := by cases x <;> rfl
@[simp] theorem Cc.ofCode_code (c : Cc) : Cc.ofCode c.code = some c := by cases c <;> rfl
@[simp] theorem Cc.code_mod (c : Cc) : c.code % 8 = c.code := by cases c <;> rfl
@[simp] theorem NFmt.ofCode_code (c : NFmt) : NFmt.ofCode c.code = some c := by cases c <;> rfl
@[simp] theorem NFmt.code_mod (c : NFmt) : c.code % 16 = c.code := by cases c <;> rfl
@[simp] theorem Rnd.ofCode_code (c : Rnd) : Rnd.ofCode c.code = some c := by cases c <;> rfl
@[simp] theorem Rnd.code_mod (c : Rnd) : c.code % 8 = c.code := by cases c <;> rfl
@[simp] theorem Blk.ofCode_code (c : Blk) : Blk.ofCode c.code = some c := by cases c <;> rfl
@[simp] theorem Blk.code_mod (c : Blk) : c.code % 4 = c.code := by cases c <;> rfl
@[simp] theorem CtlReg.ofCode_code (c : CtlReg) : CtlReg.ofCode c.code = some c := by cases c <;> rfl
@[simp] theorem CtlReg.code_mod (c : CtlReg) : c.code % 32 = c.code := by cases c <;> rfl
@[simp] theorem AField.ofCode_code (c : AField) : AField.ofCode c.code = some c := by cases c <;> rfl
@[simp] theorem AField.code_mod (c : AField) : c.code % 4 = c.code := by cases c <;> rfl
@[simp] theorem Sz.ofCode_code (c : Sz) : Sz.ofCode c.code = some c := by cases c <;> rfl
@[simp] theorem Sz.code_mod (c : Sz) : c.code % 4 = c.code := by cases c <;> rfl
@[simp] theorem WrMode.ofCode_code (c : WrMode) : WrMode.ofCode c.code = some c := by cases c <;> rfl
@[simp] theorem WrMode.code_mod (c : WrMode) : c.code % 4 = c.code := by cases c <;> rfl
@[simp] theorem Drain.ofCode_code (c : Drain) : Drain.ofCode c.code = some c := by cases c <;> rfl
@[simp] theorem Drain.code_mod (c : Drain) : c.code % 4 = c.code := by cases c <;> rfl
@[simp] theorem Scope.ofCode_code (c : Scope) : Scope.ofCode c.code = some c := by cases c <;> rfl
@[simp] theorem Scope.code_mod (c : Scope) : c.code % 4 = c.code := by cases c <;> rfl
@[simp] theorem Pad.ofCode_code (c : Pad) : Pad.ofCode c.code = some c := by cases c <;> rfl
@[simp] theorem Pad.code_mod (c : Pad) : c.code % 8 = c.code := by cases c <;> rfl
@[simp] theorem AccOp.ofCode_code (c : AccOp) : AccOp.ofCode c.code = some c := by cases c <;> rfl
@[simp] theorem AccOp.code_mod (c : AccOp) : c.code % 8 = c.code := by cases c <;> rfl
@[simp] theorem AmoOp.ofCode_code (c : AmoOp) : AmoOp.ofCode c.code = some c := by cases c <;> rfl
@[simp] theorem AmoOp.code_mod (c : AmoOp) : c.code % 16 = c.code := by cases c <;> rfl
@[simp] theorem AmoTy.ofCode_code (c : AmoTy) : AmoTy.ofCode c.code = some c := by cases c <;> rfl
@[simp] theorem AmoTy.code_mod (c : AmoTy) : c.code % 4 = c.code := by cases c <;> rfl
@[simp] theorem SigOp.ofCode_code (c : SigOp) : SigOp.ofCode c.code = some c := by cases c <;> rfl
@[simp] theorem SigOp.code_mod (c : SigOp) : c.code % 16 = c.code := by cases c <;> rfl
@[simp] theorem SigOp.code_mod_eight (c : SigOp) : c.code % 8 = c.code := by cases c <;> rfl
@[simp] theorem Path.ofCode_code (c : Path) : Path.ofCode c.code = some c := by cases c <;> rfl
@[simp] theorem Path.code_mod (c : Path) : c.code % 16 = c.code := by cases c <;> rfl
@[simp] theorem RedOp.ofCode_code (c : RedOp) : RedOp.ofCode c.code = some c := by cases c <;> rfl
@[simp] theorem RedOp.code_mod (c : RedOp) : c.code % 8 = c.code := by cases c <;> rfl

@[simp] theorem RdSrc.ofFields_fields (r : RdSrc) : RdSrc.ofFields (r.n % 32) (r.f % 4) = some r := by
  cases r with
  | ctl r => simp [RdSrc.n, RdSrc.f, RdSrc.ofFields]
  | lc n => simp [RdSrc.n, RdSrc.f, RdSrc.ofFields]

@[simp] theorem Perm.ofFields_fields (p : Perm) : Perm.ofFields (p.code % 64) (p.sreg % 32) = some p := by
  cases p with
  | xor s => simp [Perm.code, Perm.sreg, Perm.ofFields]
  | rev | zip | unzip => rfl

@[simp] theorem Tok.ofCode_code (t : Tok) : Tok.ofCode (t.code % 16) = t := by
  obtain ⟨a, b, c, d⟩ := t
  cases a <;> cases b <;> cases c <;> cases d <;> rfl

@[simp] theorem maskOf_mask (mk : Option (Fin 8)) : maskOf (maskMk mk % 2) (maskVm mk % 8) = some mk := by
  cases mk with
  | none => rfl
  | some v => simp [maskMk, maskVm, maskOf]

@[simp] theorem bufAddr_fields (x : BufAddr) : bufAddr x.a x.post.toNat = x := by simp [bufAddr]

/-- The index of a line operand is read back from its two fields. -/
theorem LineIx.ofFields_fields (ix : LineIx) : LineIx.ofFields (ix.ind % 2) (ix.code % 256) = some ix := by
  cases ix with
  | imm i => simp [LineIx.ind, LineIx.code, LineIx.ofFields]
  | reg a post =>
    have hcode : (a.val + 16 * post.toNat) % 256 = pack [(4, a), (1, post.toNat), (3, 0)] := by
      have hp : post.toNat < 2 := post.toNat_lt
      simp [pack]
      omega
    have hread : unpack [4, 1, 3] (pack [(4, a.val), (1, post.toNat), (3, 0)]) = [a.val, post.toNat, 0] :=
      (unpack_pack [(4, a.val), (1, post.toNat), (3, 0)]).trans (by simp)
    change LineIx.ofFields 1 ((a.val + 16 * post.toNat) % 256) = _
    unfold LineIx.ofFields
    rw [hcode]
    simp [hread]

@[simp] theorem Line.code_mod (l : Line) : l.code % 16384 = l.code :=
  Nat.mod_eq_of_lt (show l.code < 2 ^ 14 from pack_lt [(1, l.ix.ind), (8, l.ix.code), (2, l.dir.code), (3, l.tile)])

@[simp] theorem Line.ofCode_code (l : Line) : Line.ofCode l.code = some l := by
  have hf : unpack [1, 8, 2, 3] l.code = [l.ix.ind % 2, l.ix.code % 256, l.dir.code % 4, l.tile.val % 8] :=
    unpack_pack [(1, l.ix.ind), (8, l.ix.code), (2, l.dir.code), (3, l.tile)]
  unfold Line.ofCode
  rw [hf]
  simp [LineIx.ofFields_fields]

/-! ### The frame (R49) -/

/-- A word whose body is read back decodes, where it is well formed. -/
theorem decodeWord_wordOf {e : Eng} {op : Nat} {w p : Fin 16} {body : Nat} {i : Instr} (hop : op < 128) (hb : body < 2 ^ 46)
    (hd : decEngine e op w p body = some i) (hwf : i.wf = true) :
    wordOf e op w p body < 2 ^ 64 ∧ decodeWord (wordOf e op w p body) = some i := by
  have he : e.code < 8 := by cases e <;> decide
  have hf : unpack [46, 4, 7, 4, 3] (wordOf e op w p body) = [body, p.val, op, w.val, e.code] := by
    refine (unpack_pack [(46, body), (4, p.val), (7, op), (4, w.val), (3, e.code)]).trans ?_
    simp only [List.map_cons, List.map_nil, Nat.mod_eq_of_lt hb, Nat.mod_eq_of_lt (show op < 2 ^ 7 from hop),
      Nat.mod_eq_of_lt (show e.code < 2 ^ 3 from he), fin_mod_of_le p (show 16 ≤ 2 ^ 4 by decide),
      fin_mod_of_le w (show 16 ≤ 2 ^ 4 by decide)]
  refine ⟨pack_lt [(46, body), (4, p.val), (7, op), (4, w.val), (3, e.code)], ?_⟩
  unfold decodeWord
  rw [hf]
  simp [hd, hwf]

end Sys2Proof
end

section
/-! PROOF. Decoding the encoding of a word gives it back (O57), formats: the fields of each body are read back (R54 to R62), and
each format's reader gives the operands that were written. -/

namespace Sys2Proof

/-! ### Bodies, read back -/

@[simp] theorem unpack_nopBody (i : Fin 1048576) : unpack [26, 20] (nopBody i) = [0, i.val] :=
  (unpack_pack [(26, 0), (20, i.val)]).trans (by simp)
@[simp] theorem unpack_tokNopBody (t : Tok) (i : Fin 1048576) : unpack [22, 20, 4] (tokNopBody t i) = [0, i.val, t.code % 16] :=
  (unpack_pack [(22, 0), (20, i.val), (4, t.code)]).trans (by simp)
@[simp] theorem unpack_srBody (d a b : Fin 32) : unpack [31, 5, 5, 5] (srBody d a b) = [0, b.val, a.val, d.val] :=
  (unpack_pack [(31, 0), (5, b.val), (5, a.val), (5, d.val)]).trans (by simp)
@[simp] theorem unpack_siBody (d a : Fin 32) (imm : BitVec 36) : unpack [36, 5, 5] (siBody d a imm.toNat) = [imm.toNat, a.val, d.val] :=
  (unpack_pack [(36, imm.toNat), (5, a.val), (5, d.val)]).trans (by simp)
@[simp] theorem unpack_slBody (d : Fin 32) (imm : BitVec 32) : unpack [9, 32, 5] (slBody d imm) = [0, imm.toNat, d.val] :=
  (unpack_pack [(9, 0), (32, imm.toNat), (5, d.val)]).trans (by simp)
@[simp] theorem unpack_spBody (pd : Fin 16) (cc : Cc) (a b : Fin 32) (imm : Nat) :
    unpack [29, 5, 5, 3, 4] (spBody pd cc a b imm) = [imm % 2 ^ 29, b.val, a.val, cc.code, pd.val] :=
  (unpack_pack [(29, imm), (5, b.val), (5, a.val), (3, cc.code), (4, pd.val)]).trans (by simp)
@[simp] theorem unpack_sqBody (pd pa pb : Fin 16) : unpack [34, 4, 4, 4] (sqBody pd pa pb) = [0, pb.val, pa.val, pd.val] :=
  (unpack_pack [(34, 0), (4, pb.val), (4, pa.val), (4, pd.val)]).trans (by simp)
@[simp] theorem unpack_smBody (d : Fin 32) (a : Nat) (off : BitVec 20) (sz : Sz) (sx : Bool) (land : Fin 8192) :
    unpack [13, 1, 2, 20, 5, 5] (smBody d a off sz sx land) = [land.val, sx.toNat, sz.code, off.toNat, a % 32, d.val] :=
  (unpack_pack [(13, land.val), (1, sx.toNat), (2, sz.code), (20, off.toNat), (5, a), (5, d.val)]).trans (by simp)
@[simp] theorem scFields_scBody (d a : Fin 32) (n f : Nat) : scFields (scBody d a n f) = some (d.val, a.val, n % 32, f % 4) := by
  have h : unpack [29, 2, 5, 5, 5] (scBody d a n f) = [0, f % 4, n % 32, a.val, d.val] :=
    (unpack_pack [(29, 0), (2, f), (5, n), (5, a.val), (5, d.val)]).trans (by simp)
  simp [scFields, h]
@[simp] theorem yaFields_yaBody (n : Nat) (a b : Fin 32) (imm f : Nat) :
    yaFields (yaBody n a b imm f) = some (n % 64, a.val, b.val, imm % 2 ^ 24, f % 64) := by
  have h : unpack [6, 24, 5, 5, 6] (yaBody n a b imm f) = [f % 64, imm % 2 ^ 24, b.val, a.val, n % 64] :=
    (unpack_pack [(6, f), (24, imm), (5, b.val), (5, a.val), (6, n)]).trans (by simp)
  simp [yaFields, h]
@[simp] theorem mFields_mBody (t : Tok) (qa qb l rows mode f : Nat) :
    mFields (mBody t qa qb l rows mode f) = some ⟨t, qa % 32, qb % 32, l % 16384, rows % 256, mode % 4, f % 256⟩ := by
  have h : unpack [8, 2, 8, 14, 5, 5, 4] (mBody t qa qb l rows mode f)
      = [f % 256, mode % 4, rows % 256, l % 16384, qb % 32, qa % 32, t.code % 16] :=
    unpack_pack [(8, f), (2, mode), (8, rows), (14, l), (5, qb), (5, qa), (4, t.code)]
  simp [mFields, h]
@[simp] theorem unpack_vaBody (ty : VTy) (d a b : Line) : unpack [1, 14, 14, 14, 3] (vaBody ty d a b) = [0, b.code, a.code, d.code, ty.code] :=
  (unpack_pack [(1, 0), (14, b.code), (14, a.code), (14, d.code), (3, ty.code)]).trans (by simp)
@[simp] theorem vbFields_vbBody (ty d a s : Nat) (mk : Option (Fin 8)) (imm : Nat) :
    vbFields (vbBody ty d a s mk imm) = some ⟨ty % 8, d % 16384, a % 16384, s % 32, mk, imm % 64⟩ := by
  have h : unpack [6, 1, 3, 5, 14, 14, 3] (vbBody ty d a s mk imm)
      = [imm % 64, maskMk mk % 2, maskVm mk % 8, s % 32, a % 16384, d % 16384, ty % 8] :=
    unpack_pack [(6, imm), (1, maskMk mk), (3, maskVm mk), (5, s), (14, a), (14, d), (3, ty)]
  simp [vbFields, h]
@[simp] theorem vcFields_vcBody (ty : VTy) (l : Line) (q fmt k blk axis inv rnd : Nat) (mk : Option (Fin 8)) :
    vcFields (vcBody ty l q fmt k blk axis inv rnd mk)
      = some ⟨ty, l, q % 32, fmt % 16, k % 8, blk % 4, axis % 4, inv % 2, rnd % 8, mk⟩ := by
  have h : unpack [5, 1, 3, 3, 1, 2, 2, 3, 4, 5, 14, 3] (vcBody ty l q fmt k blk axis inv rnd mk)
      = [0, maskMk mk % 2, maskVm mk % 8, rnd % 8, inv % 2, axis % 4, blk % 4, k % 8, fmt % 16, q % 32, l.code % 16384, ty.code % 8] :=
    unpack_pack [(5, 0), (1, maskMk mk), (3, maskVm mk), (3, rnd), (1, inv), (2, axis), (2, blk), (3, k), (4, fmt), (5, q),
      (14, l.code), (3, ty.code)]
  simp [vcFields, h]
@[simp] theorem unpack_vdBody (ty : VTy) (l : Line) (x : BufAddr) (off : BitVec 16) (mk : Option (Fin 8)) :
    unpack [4, 1, 3, 16, 1, 4, 14, 3] (vdBody ty l x off mk)
      = [0, maskMk mk % 2, maskVm mk % 8, off.toNat, x.post.toNat % 2, x.a % 16, l.code, ty.code] :=
  (unpack_pack [(4, 0), (1, maskMk mk), (3, maskVm mk), (16, off.toNat), (1, x.post.toNat), (4, x.a.val), (14, l.code),
    (3, ty.code)]).trans (by simp)
@[simp] theorem vmFields_vmBody (d a : Fin 8) (b : Nat) (s : Fin 32) : vmFields (vmBody d a b s) = some (d.val, a.val, b % 8, s.val) := by
  have h : unpack [32, 5, 3, 3, 3] (vmBody d a b s) = [0, s.val, b % 8, a.val, d.val] :=
    (unpack_pack [(32, 0), (5, s.val), (3, b), (3, a.val), (3, d.val)]).trans (by simp)
  simp [vmFields, h]
@[simp] theorem lwFields_lwBody (t : Tok) (k : Nat) (x : BufAddr) (s : Fin 32) (q : Nat) (desc : Fin 2048) (land : Fin 8192) :
    lwFields (lwBody t k x s q desc land) = some ⟨t, k % 8, x, s, q % 32, desc, land⟩ := by
  have h : unpack [13, 11, 5, 5, 1, 4, 3, 4] (lwBody t k x s q desc land)
      = [land.val % 8192, desc.val % 2048, q % 32, s.val % 32, x.post.toNat % 2, x.a.val % 16, k % 8, t.code % 16] :=
    unpack_pack [(13, land.val), (11, desc.val), (5, q), (5, s.val), (1, x.post.toNat), (4, x.a.val), (3, k), (4, t.code)]
  simp [lwFields, h]
@[simp] theorem waFields_waBody (t : Tok) (op ty : Nat) (sc : Scope) (rel : Bool) (s v c : Fin 32) :
    waFields (waBody t op ty sc rel s v c) = some ⟨t, op % 16, ty % 4, sc, rel, s, v, c⟩ := by
  have h : unpack [13, 5, 5, 5, 5, 1, 2, 2, 4, 4] (waBody t op ty sc rel s v c)
      = [0, 0, c.val % 32, v.val % 32, s.val % 32, rel.toNat % 2, sc.code % 4, ty % 4, op % 16, t.code % 16] :=
    unpack_pack [(13, 0), (5, 0), (5, c.val), (5, v.val), (5, s.val), (1, rel.toNat), (2, sc.code), (2, ty), (4, op), (4, t.code)]
  simp [waFields, h]
@[simp] theorem xFields_xBody (q s : Fin 32) (path : Nat) (x : BufAddr) (desc : Fin 2048) (land : Fin 8192) (op : Nat) :
    xFields (xBody q s path x desc land op) = some ⟨q.val, s.val, path % 16, x, desc.val, land.val, op % 8⟩ := by
  have h : unpack [3, 13, 11, 1, 4, 4, 5, 5] (xBody q s path x desc land op)
      = [op % 8, land.val % 8192, desc.val % 2048, x.post.toNat % 2, x.a.val % 16, path % 16, s.val % 32, q.val % 32] :=
    unpack_pack [(3, op), (13, land.val), (11, desc.val), (1, x.post.toNat), (4, x.a.val), (4, path), (5, s.val), (5, q.val)]
  simp [xFields, h]
@[simp] theorem gFields_gBody (c e : Fin 64) (s : Fin 32) (x : BufAddr) (imm : Nat) :
    gFields (gBody c e s x imm) = some ⟨c.val, e.val, s.val, x, imm % 2 ^ 24⟩ := by
  have h : unpack [24, 1, 4, 5, 6, 6] (gBody c e s x imm)
      = [imm % 2 ^ 24, x.post.toNat % 2, x.a.val % 16, s.val % 32, e.val % 64, c.val % 64] :=
    unpack_pack [(24, imm), (1, x.post.toNat), (4, x.a.val), (5, s.val), (6, e.val), (6, c.val)]
  simp [gFields, h]

/-! ### Engine S -/

theorem decNop_nopBody (mk w i) : decNop mk w 0 (nopBody i) = some (mk w i) := by simp [decNop]
theorem decSR_srBody (mk fr d a b) : decSR mk fr (srBody d a b) = some (mk fr d a b) := by simp [decSR]
theorem decSU_srBody (mk fr d a) : decSU mk fr (srBody d a 0) = some (mk fr d a) := by simp [decSU]
theorem decSI_siBody (mk fr d a) (imm : BitVec 36) : decSI mk fr (siBody d a imm.toNat) = some (mk fr d a imm) := by simp [decSI]
theorem decSH_siBody (mk fr d a) (imm : Fin 64) : decSH mk fr (siBody d a imm) = some (mk fr d a imm) := by
  have h : unpack [6, 30, 5, 5] (siBody d a imm) = [imm.val, 0, a.val, d.val] := by
    have hwide : siBody d a imm = pack [(6, imm.val), (30, 0), (5, a.val), (5, d.val)] := by simp [siBody, pack]; omega
    rw [hwide]
    exact (unpack_pack [(6, imm.val), (30, 0), (5, a.val), (5, d.val)]).trans (by simp)
  simp [decSH, h]
theorem decSL_slBody (mk fr d imm) : decSL mk fr (slBody d imm) = some (mk fr d imm) := by simp [decSL]
theorem decSP_spBody (mk fr pd cc a b) : decSP mk fr (spBody pd cc a b 0) = some (mk fr pd cc a b) := by simp [decSP]
theorem decSPI_spBody (fr pd cc a) (imm : BitVec 29) : decSPI fr (spBody pd cc a 0 imm.toNat) = some (.sCmpi fr pd cc a imm) := by
  simp [decSPI]
theorem decSQ_sqBody (mk fr pd pa pb) : decSQ mk fr (sqBody pd pa pb) = some (mk fr pd pa pb) := by simp [decSQ]
theorem decSQ1_sqBody (fr pd pa) : decSQ1 fr (sqBody pd pa 0) = some (.sPnot fr pd pa) := by simp [decSQ1]
theorem decLd_smBody (fr d) (a : Fin 16) (off sz sx) : decLd fr (smBody d a off sz sx 0) = some (.sLd fr d a off sz sx) := by
  simp [decLd]
theorem decSt_smBody (fr d) (a : Fin 16) (off sz) : decSt fr (smBody d a off sz false 0) = some (.sSt fr d a off sz) := by
  simp [decSt]
theorem decLdm_smBody (fr d) (a : Fin 32) (off sz sx land) :
    decLdm fr (smBody d a off sz sx land) = some (.sLdm fr d a off sz sx land) := by simp [decLdm]
theorem decStm_smBody (fr d) (a : Fin 32) (off sz land) :
    decStm fr (smBody d a off sz false land) = some (.sStm fr d a off sz land) := by simp [decStm]
theorem decLoop_loopBody (w depth trip words) : decLoop w 0 (loopBody depth trip words) = some (.sLoop w depth trip words) := by
  cases trip with
  | imm n =>
    have h : unpack [8, 1, 15, 20, 2] (loopBody depth (.imm n) words) = [0, 0, words.val, n.val, depth.val] :=
      (unpack_pack [(8, 0), (1, 0), (15, words.val), (20, n.val), (2, depth.val)]).trans (by simp)
    simp [decLoop, h]
  | const i =>
    have h : unpack [8, 1, 15, 20, 2] (loopBody depth (.const i) words) = [0, 1, words.val, i.val, depth.val] :=
      (unpack_pack [(8, 0), (1, 1), (15, words.val), (20, i.val), (2, depth.val)]).trans (by simp)
    simp [decLoop, h]
theorem decRdctl_scBody (fr d) (r : RdSrc) : decRdctl fr (scBody d 0 r.n r.f) = some (.sRdctl fr d r) := by simp [decRdctl]
theorem decWrctl_scBody (fr a) (r : CtlReg) (m : WrMode) : decWrctl fr (scBody 0 a r.code m.code) = some (.sWrctl fr r m a) := by
  simp [decWrctl]
theorem decRda_scBody (fr d) (n : Fin 16) (f : AField) : decRda fr (scBody d 0 n f.code) = some (.sRda fr d n f) := by simp [decRda]
theorem decWra_scBody (fr a) (n : Fin 16) (f : AField) : decWra fr (scBody 0 a n f.code) = some (.sWra fr n f a) := by simp [decWra]

theorem bool_toNat_mod_four (b : Bool) : b.toNat % 4 = b.toNat := by cases b <;> rfl

theorem decRdq_scBody (fr d) (n : Fin 32) (hi : Bool) : decRdq fr (scBody d 0 n hi.toNat) = some (.sRdq fr d n hi) := by
  simp [decRdq, bool_toNat_mod_four, Bool.toNat_le, Bool.toNat_lt]
theorem decWrq_scBody (fr a) (n : Fin 32) (hi : Bool) : decWrq fr (scBody 0 a n hi.toNat) = some (.sWrq fr n hi a) := by
  simp [decWrq, bool_toNat_mod_four, Bool.toNat_le, Bool.toNat_lt]
theorem decRdk_scBody (fr d) (n : Fin 8) (gen : Bool) : decRdk fr (scBody d 0 n gen.toNat) = some (.sRdk fr d n gen) := by
  simp [decRdk, bool_toNat_mod_four, Bool.toNat_le, Bool.toNat_lt]
theorem decWrk_scBody (fr a) (n : Fin 8) : decWrk fr (scBody 0 a n 0) = some (.sWrk fr n a) := by simp [decWrk]
theorem decRnd_scBody (fr d) (q : Fin 32) (pair : Bool) : decRnd fr (scBody d 0 q pair.toNat) = some (.sRnd fr d q pair) := by
  simp [decRnd, bool_toNat_mod_four, Bool.toNat_le, Bool.toNat_lt]

/-! ### Engine Y -/

theorem decRdv_yaBody (w) : decRdv w 0 (yaBody 0 0 0 0 0) = some (.yRdv w) := rfl
theorem decSemV_yaBody (mk fr) (n : Fin 32) (v : BitVec 16) : decSemV mk fr (yaBody n 0 0 v.toNat 0) = some (mk fr n v) := by
  simp [decSemV, v.isLt]
theorem decSemclr_yaBody (fr a) : decSemclr fr (yaBody 0 a 0 0 0) = some (.ySemclr fr a) := by simp [decSemclr]
theorem decTokOp_yaBody (mk fr) (f : Fin 6) (c : Fin 9) : decTokOp mk fr (yaBody f 0 0 0 c) = some (mk fr f c) := by simp [decTokOp]
theorem decGate_yaBody_none (fr) (g : Fin 64) : decGate fr (yaBody g 0 0 0 0) = some (.yGate fr g none) := by simp [decGate]
theorem decGate_yaBody_some (fr) (g : Fin 64) (a) : decGate fr (yaBody g a 0 0 1) = some (.yGate fr g (some a)) := by simp [decGate]
theorem decGateclr_yaBody_signal (fr) (g : Fin 64) : decGateclr fr (yaBody g 0 0 0 0) = some (.yGateclr fr (.signal g)) := by
  simp [decGateclr]
theorem decGateclr_yaBody_sem (fr) (n : Fin 32) : decGateclr fr (yaBody n 0 0 0 1) = some (.yGateclr fr (.sem n)) := by
  simp [decGateclr]
theorem decGateclr_yaBody_all (fr) : decGateclr fr (yaBody 0 0 0 0 2) = some (.yGateclr fr .all) := by simp [decGateclr]
theorem decFence_yaBody (w) (sc : Scope) : decFence w 0 (yaBody 0 0 0 0 sc.code) = some (.yFence w sc) := by
  cases sc <;> rfl
theorem decExport_yaBody_size (fr a) : decExport fr (yaBody 0 a 0 0 1) = some (.yExport fr (.size a)) := by simp [decExport]
theorem decExport_yaBody_sel (fr b) : decExport fr (yaBody 0 0 b 0 2) = some (.yExport fr (.sel b)) := by simp [decExport]
theorem decExport_yaBody_both (fr a b) : decExport fr (yaBody 0 a b 0 3) = some (.yExport fr (.both a b)) := by simp [decExport]
theorem decYv_yaBody (mk fr) (v : BitVec 24) : decYv mk fr (yaBody 0 0 0 v.toNat 0) = some (mk fr v) := by simp [decYv]

/-! ### Engine M -/

theorem decTokNop_tokNopBody (mk w t i) : decTokNop mk w 0 (tokNopBody t i) = some (mk w t i) := by simp [decTokNop]
theorem bool_toNat_mod_256 (b : Bool) : b.toNat % 256 = b.toNat := by cases b <;> rfl
theorem decWld_mBody (fr t) (qa qb : Fin 32) (s5 : Bool) : decWld fr (mBody t qa qb 0 0 0 s5.toNat) = some (.mWld fr t qa qb s5) := by
  simp [decWld, bool_toNat_mod_256, Bool.toNat_le, Bool.toNat_lt]
theorem decSwap_mBody (fr t) : decSwap fr (mBody t 0 0 0 0 0 0) = some (.mSwap fr t) := by simp [decSwap]
theorem decMac_mBody (mk fr t) (qa qb : Fin 32) (l : Line) (rows : Fin 256) (dm : Drain) (init peek : Bool) :
    decMac mk fr (mBody t qa qb l.code rows dm.code (init.toNat + 2 * peek.toNat)) = some (mk fr t qa qb l rows dm init peek) := by
  cases init <;> cases peek <;> simp [decMac] <;> rfl
theorem decSpmac_mBody (fr t) (qa qb : Fin 32) (l : Line) (rows : Fin 256) (dm : Drain) (init : Bool) :
    decSpmac fr (mBody t qa qb l.code rows dm.code init.toNat) = some (.mSpmacS9 fr t qa qb l rows dm init) := by
  cases init <;> simp [decSpmac]
theorem decMask_mBody (mk fr t) (mask : Fin 16) : decMask mk fr (mBody t 0 0 0 0 0 mask) = some (mk fr t mask) := by simp [decMask]
theorem decFeed_mBody_imm (fr t) (i : BitVec 14) : decFeed fr (mBody t 0 0 i.toNat 0 0 0) = some (.mFeed fr t (.imm i)) := by
  simp [decFeed]
theorem decFeed_mBody_reg (fr t) (a : Fin 16) (post : Bool) :
    decFeed fr (mBody t (a + 16 * post.toNat) 0 0 0 0 1) = some (.mFeed fr t (.reg a post)) := by
  have ha : (a.val + 16 * post.toNat) % 32 = a.val + 16 * post.toNat := by have := post.toNat_lt; omega
  have hlow : (a.val + 16 * post.toNat) % 16 = a.val := by omega
  have hhigh : (a.val + 16 * post.toNat) / 16 = post.toNat := by omega
  simp [decFeed, ha, hlow, hhigh]
theorem decXbase_mBody (fr t) (imm : BitVec 10) :
    decXbase fr (mBody t 0 0 0 (imm.toNat / 4) (imm.toNat % 4) 0) = some (.mXbase fr t imm) := by
  have himm : imm.toNat % 4 + 4 * (imm.toNat / 4 % 256) = imm.toNat := by have := imm.isLt; omega
  simp [decXbase, himm]

/-! ### Engine V -/

theorem decVA_vaBody (mk fr ty d a b) : decVA mk fr (vaBody ty d a b) = some (mk fr ty d a b) := by simp [decVA]
theorem decVB1_vbBody (mk fr) (ty : VTy) (d a : Line) (m) : decVB1 mk fr (vbBody ty.code d.code a.code 0 m 0) = some (mk fr ty d a m) := by
  simp [decVB1]
theorem decVBs_vbBody (mk fr) (ty : VTy) (d a : Line) (s : Fin 32) (n : Fin 64) (m) :
    decVBs mk fr (vbBody ty.code d.code a.code s m n) = some (mk fr ty d a s n m) := by simp [decVBs]
theorem decVBk_vbBody (mk fr) (ty : VTy) (d a : Line) (s : Fin 32) (k : BitVec 6) (m) :
    decVBk mk fr (vbBody ty.code d.code a.code s m k.toNat) = some (mk fr ty d a s k m) := by simp [decVBk]
theorem decVcmp_vbBody (fr) (ty : VTy) (cc : Cc) (e : Fin 8) (a b : Line) (m) :
    decVcmp fr (vbBody ty.code b.code a.code 0 m (cc.code + 8 * e)) = some (.vCmp fr ty cc e a b m) := by
  have hcc : cc.code < 8 := by cases cc <;> decide
  have himm : (cc.code + 8 * e.val) % 64 = cc.code + 8 * e.val := by omega
  have hhigh : (cc.code + 8 * e.val) / 8 = e.val := by omega
  simp [decVcmp, himm, hhigh]
theorem decVsel_vbBody (fr) (ty : VTy) (d a : Line) (s : Fin 32) (vm) :
    decVsel fr (vbBody ty.code d.code a.code s (some vm) 0) = some (.vSel fr ty d a s vm) := by simp [decVsel]
theorem decVcvt_vbBody (fr) (dt st : VTy) (d a : Line) (m) :
    decVcvt fr (vbBody dt.code d.code a.code 0 m st.code) = some (.vCvt fr dt st d a m) := by
  have hst : st.code % 64 = st.code := by cases st <;> rfl
  simp [decVcvt, hst]
theorem decVcvte_vbBody (fr) (ty h16 : VTy) (toH16 hi : Bool) (d a : Line) (m) :
    decVcvte fr (vbBody ty.code d.code a.code 0 m (h16.code + 8 * toH16.toNat + 16 * hi.toNat))
      = some (.vCvte fr ty h16 toH16 hi d a m) := by
  have himm : (h16.code + 8 * toH16.toNat + 16 * hi.toNat) % 64 = pack [(3, h16.code), (1, toH16.toNat), (1, hi.toNat), (1, 0)] := by
    cases h16 <;> cases toH16 <;> cases hi <;> rfl
  have hread : unpack [3, 1, 1, 1] (pack [(3, h16.code), (1, toH16.toNat), (1, hi.toNat), (1, 0)])
      = [h16.code, toH16.toNat, hi.toNat, 0] :=
    (unpack_pack [(3, h16.code), (1, toH16.toNat), (1, hi.toNat), (1, 0)]).trans (by simp)
  simp [decVcvte, himm, hread]
theorem decVslice_of_fields (fr) (q : Fin 32) (a : Line) (s : Fin 32) (b) (h : vbFields b = some ⟨3, 0, a.code, s, none, q⟩) :
    decVslice fr b = some (.vSliceF64 fr q a s) := by simp [decVslice, h]
theorem decVslice_vbBody (fr) (q : Fin 32) (a : Line) (s : Fin 32) :
    decVslice fr (vbBody 3 0 a.code s none q) = some (.vSliceF64 fr q a s) :=
  decVslice_of_fields _ _ _ _ _ (by simp)
theorem decVcvtx_vbBody (fr) (ty : VTy) (toX : Bool) (d a : Line) (s : Fin 32) (m) :
    decVcvtx fr (vbBody ty.code d.code a.code s m toX.toNat) = some (.vCvtx fr ty toX d a s m) := by
  have htoX : toX.toNat % 64 = toX.toNat := by cases toX <;> rfl
  simp [decVcvtx, htoX, Bool.toNat_le, Bool.toNat_lt]
theorem decVsp_of_fields (mk fr) (d a : Line) (m b) (h : vbFields b = some ⟨1, d.code, a.code, 0, m, 0⟩) :
    decVsp mk fr b = some (mk fr d a m) := by simp [decVsp, h]
theorem decVsp_vbBody (mk fr) (d a : Line) (m) : decVsp mk fr (vbBody 1 d.code a.code 0 m 0) = some (mk fr d a m) :=
  decVsp_of_fields _ _ _ _ _ _ (by simp)
theorem decVperm_vbBody (fr) (ty : VTy) (p : Perm) (d a : Line) (m) :
    decVperm fr (vbBody ty.code d.code a.code p.sreg m p.code) = some (.vPerm fr ty p d a m) := by simp [decVperm]
theorem decVmatch_of_fields (fr) (pe : Fin 16) (part : Bool) (pat win : Line) (s : Fin 32) (m b)
    (h : vbFields b = some ⟨7, pat.code, win.code, s, m, pack [(4, pe), (1, part.toNat), (1, 0)]⟩) :
    decVmatch fr b = some (.vMatch fr pe part pat win s m) := by
  have hread : unpack [4, 1, 1] (pack [(4, pe.val), (1, part.toNat), (1, 0)]) = [pe.val, part.toNat, 0] :=
    (unpack_pack [(4, pe.val), (1, part.toNat), (1, 0)]).trans (by simp)
  simp [decVmatch, h, hread]
theorem decVmatch_vbBody (fr) (pe : Fin 16) (part : Bool) (pat win : Line) (s : Fin 32) (m) :
    decVmatch fr (vbBody 7 pat.code win.code s m (pe + 16 * part.toNat)) = some (.vMatch fr pe part pat win s m) := by
  have himm : (pe.val + 16 * part.toNat) % 64 = pack [(4, pe.val), (1, part.toNat), (1, 0)] := by
    have := part.toNat_le
    simp [pack]
    omega
  exact decVmatch_of_fields _ _ _ _ _ _ _ _ (by simp [himm])
theorem decVrnd_vbBody (fr) (ty : VTy) (d : Line) (q : Fin 32) (m) :
    decVrnd fr (vbBody ty.code d.code 0 0 m q) = some (.vRndfill fr ty d q m) := by simp [decVrnd]
theorem decVred_vbBody (mk fr) (ty : VTy) (d a : Line) (g : Fin 16) (m) :
    decVred mk fr (vbBody ty.code d.code a.code 0 m g) = some (mk fr ty d a g m) := by simp [decVred]
theorem decVnarrow_vcBody (fr ty l) (q : Fin 32) (fmt : NFmt) (k : Fin 8) (blk : Blk) (free : Bool) (rnd : Rnd) (m) :
    decVnarrow fr (vcBody ty l q fmt.code k blk.code free.toNat 0 rnd.code m) = some (.vNarrow fr ty l q fmt k blk free rnd m) := by
  simp [decVnarrow, bool_toNat_mod_four, Bool.toNat_le, Bool.toNat_lt]
theorem decVrot_vcBody_none (fr ty l) (k : Fin 8) (blk : Blk) (inv : Bool) (rnd : Rnd) :
    decVrot fr (vcBody ty l 0 0 k blk.code 0 inv.toNat rnd.code none) = some (.vRot fr ty l none k blk inv rnd) := by simp [decVrot]
theorem decVrot_vcBody_some (fr ty l) (q : Fin 32) (k : Fin 8) (blk : Blk) (inv : Bool) (rnd : Rnd) :
    decVrot fr (vcBody ty l q 1 k blk.code 0 inv.toNat rnd.code none) = some (.vRot fr ty l (some q) k blk inv rnd) := by
  simp [decVrot]
theorem decVring_vcBody (mk fr ty l) (q : Fin 32) (m) : decVring mk fr (vcBody ty l q 0 0 0 0 0 0 m) = some (mk fr ty l q m) := by
  simp [decVring]
theorem decVD_vdBody (mk fr ty l x off m) : decVD mk fr (vdBody ty l x off m) = some (mk fr ty l x off m) := by simp [decVD]
theorem decVM_vmBody (mk fr d a) (b : Fin 8) : decVM mk fr (vmBody d a b 0) = some (mk fr d a b) := by simp [decVM]
theorem decVmnot_vmBody (fr d a) : decVmnot fr (vmBody d a 0 0) = some (.vMnot fr d a) := by simp [decVmnot]
theorem decVmset_vmBody (fr d s) : decVmset fr (vmBody d 0 0 s) = some (.vMset fr d s) := by simp [decVmset]
theorem decVmcount_vmBody (fr pd a) (cc : Cc) (s) : decVmcount fr (vmBody pd a cc.code s) = some (.vMcount fr pd a cc s) := by
  simp [decVmcount]

/-! ### Engines L and W -/

theorem decLtile_lwBody (fr t) (wb : Bool) (x s desc land) :
    decLtile fr (lwBody t wb.toNat x s 0 desc land) = some (.lTile fr t wb x s desc land) := by
  cases wb <;> simp [decLtile] <;> rfl
theorem decLhalo_lwBody (fr t) (pad : Pad) (x s desc land) :
    decLhalo fr (lwBody t pad.code x s 0 desc land) = some (.lHalo fr t pad x s desc land) := by simp [decLhalo]
theorem decLnarrow_lwBody (fr t) (k : Fin 8) (q : Fin 32) (s desc land) :
    decLnarrow fr (lwBody t k BufAddr.none s q desc land) = some (.lNarrow fr t k q s desc land) := by simp [decLnarrow, BufAddr.none]
theorem decLcsr_lwBody (fr t) (q : Fin 32) (x s desc land) :
    decLcsr fr (lwBody t 0 x s q desc land) = some (.lCsr fr t q x s desc land) := by simp [decLcsr]
theorem decLgather_lwBody (fr t x s desc land) : decLgather fr (lwBody t 0 x s 0 desc land) = some (.lGather fr t x s desc land) := by
  simp [decLgather]
theorem decRow_lwBody (mk fr t) (ty : VTy) (tile : Fin 7) (x s desc land) :
    decRow mk fr (lwBody t ty.code x s tile desc land) = some (mk fr t ty tile x s desc land) := by simp [decRow]
theorem decLring_lwBody (fr t) (q : Fin 32) (s desc land) :
    decLring fr (lwBody t 0 BufAddr.none s q desc land) = some (.lRing fr t q s desc land) := by simp [decLring, BufAddr.none]
theorem decWtile_lwBody_ab (fr t x s desc land) : decWtile fr (lwBody t 0 x s 0 desc land) = some (.wTile fr t (.ab x) s desc land) := by
  simp [decWtile]
theorem decWtile_lwBody_ring (fr t) (q : Fin 32) (s desc land) :
    decWtile fr (lwBody t 1 BufAddr.none s q desc land) = some (.wTile fr t (.ring q) s desc land) := by simp [decWtile, BufAddr.none]
theorem decWacc_lwBody (fr t) (op : AccOp) (x s desc land) :
    decWacc fr (lwBody t op.code x s 0 desc land) = some (.wAcc fr t op x s desc land) := by simp [decWacc]
theorem decWfilt_lwBody (fr t) (bf16 : Bool) (x s desc land) :
    decWfilt fr (lwBody t bf16.toNat x s 0 desc land) = some (.wFilt fr t bf16 x s desc land) := by
  cases bf16 <;> simp [decWfilt] <;> rfl
theorem decWamo_waBody (fr t) (op : AmoOp) (ty : AmoTy) (sc rel s v c) :
    decWamo fr (waBody t op.code ty.code sc rel s v c) = some (.wAmo fr t op ty sc rel s v c) := by simp [decWamo]
theorem decWsig_waBody (fr t) (op : SigOp) (sc rel s v) :
    decWsig fr (waBody t op.code 1 sc rel s v 0) = some (.wSig fr t op sc rel s v) := by simp [decWsig]

/-! ### Engines X and G -/

theorem decXsend_xBody_ab (fr) (p : Path) (x desc land) :
    decXsend fr (xBody 0 0 p.code x desc land 0) = some (.xSend fr p (.ab x) desc land) := by simp [decXsend]
theorem decXsend_xBody_ring (fr) (p : Path) (q desc land) :
    decXsend fr (xBody q 0 p.code BufAddr.none desc land 1) = some (.xSend fr p (.ring q) desc land) := by simp [decXsend, BufAddr.none]
theorem decXrecv_xBody_ab (fr) (p : Path) (x desc) : decXrecv fr (xBody 0 0 p.code x desc 0 0) = some (.xRecv fr p (.ab x) desc) := by
  simp [decXrecv]
theorem decXrecv_xBody_wb (fr) (p : Path) (x desc) : decXrecv fr (xBody 0 0 p.code x desc 0 1) = some (.xRecv fr p (.wb x) desc) := by
  simp [decXrecv]
theorem decXrecv_xBody_ring (fr) (p : Path) (q desc) :
    decXrecv fr (xBody q 0 p.code BufAddr.none desc 0 2) = some (.xRecv fr p (.ring q) desc) := by simp [decXrecv, BufAddr.none]
theorem decXred_xBody (fr) (p : Path) (op : RedOp) (x desc) :
    decXred fr (xBody 0 0 p.code x desc 0 op.code) = some (.xRed fr p op x desc) := by simp [decXred]
theorem decXput_xBody (fr sem x s desc) : decXput fr (xBody sem s 8 x desc 0 0) = some (.xPut fr sem x s desc) := by simp [decXput]
theorem decXsig_xBody (fr) (op : SigOp) (s desc) : decXsig fr (xBody 0 s 8 BufAddr.none desc 0 op.code) = some (.xSig fr op s desc) := by
  simp [decXsig, BufAddr.none]
theorem decXalign_xBody (fr) (p : Path) (x) : decXalign fr (xBody 0 0 p.code x 0 0 0) = some (.xAlign fr p x) := by simp [decXalign]
theorem decXfwd_xBody (fr) (p : Path) (desc land) :
    decXfwd fr (xBody 0 0 p.code BufAddr.none desc land 0) = some (.xFwd fr p desc land) := by simp [decXfwd, BufAddr.none]

theorem decGbind_gBody (fr c s) : decGbind fr (gBody c 0 s BufAddr.none 0) = some (.gBind fr c s) := by simp [decGbind, BufAddr.none]
theorem decGstep_gBody_ab (fr c x) (ls : Fin 8192) : decGstep fr (gBody c 0 0 x ls) = some (.gStep fr c (.ab x) ls) := by
  have himm : ls.val = pack [(13, ls.val), (10, 0), (1, 0)] := by simp [pack]
  have hread : unpack [13, 10, 1] ls.val = [ls.val, 0, 0] := by
    conv => lhs; rw [himm]
    exact (unpack_pack [(13, ls.val), (10, 0), (1, 0)]).trans (by simp)
  simp [decGstep, hread]
theorem decGstep_gBody_reg (fr c s) (ls : Fin 8192) :
    decGstep fr (gBody c 0 s BufAddr.none (ls + 8388608)) = some (.gStep fr c (.reg s) ls) := by
  have himm : (ls.val + 8388608) % 16777216 = pack [(13, ls.val), (10, 0), (1, 1)] := by simp [pack]; omega
  have hread : unpack [13, 10, 1] (pack [(13, ls.val), (10, 0), (1, 1)]) = [ls.val, 0, 1] :=
    (unpack_pack [(13, ls.val), (10, 0), (1, 1)]).trans (by simp)
  simp [decGstep, himm, hread]
theorem decGmask_gBody (fr c x) (v : Fin 512) (lm : Fin 8192) :
    decGmask fr (gBody c 0 0 x (lm + 8192 * v)) = some (.gMask fr c x v lm) := by
  have himm : (lm.val + 8192 * v.val) % 16777216 = pack [(13, lm.val), (9, v.val), (2, 0)] := by simp [pack]; omega
  have hread : unpack [13, 9, 2] (pack [(13, lm.val), (9, v.val), (2, 0)]) = [lm.val, v.val, 0] :=
    (unpack_pack [(13, lm.val), (9, v.val), (2, 0)]).trans (by simp)
  simp [decGmask, himm, hread]
theorem decGfork_gBody (fr e c) : decGfork fr (gBody c e 0 BufAddr.none 0) = some (.gFork fr e c) := by simp [decGfork, BufAddr.none]
theorem decGc_gBody (mk fr c) : decGc mk fr (gBody c 0 0 BufAddr.none 0) = some (mk fr c) := by simp [decGc, BufAddr.none]
theorem decGrec_gBody (mk fr c x) (b : Bool) : decGrec mk fr (gBody c 0 0 x b.toNat) = some (mk fr c x b) := by
  cases b <;> simp [decGrec] <;> rfl
theorem decGstate_gBody (fr c x) : decGstate fr (gBody c 0 0 x 0) = some (.gState fr c x) := by simp [decGstate]

end Sys2Proof
end

section
/-! PROOF. Decoding the encoding of a word gives it back (O57): the word of each instruction, by the format of its opcode (R65). -/

namespace Sys2Proof

/-! ### Bodies fit 46 bits -/

theorem nopBody_lt (idle : Fin 1048576) :
    nopBody idle < 2 ^ 46 := pack_lt _
theorem tokNopBody_lt (tok : Tok) (idle : Fin 1048576) :
    tokNopBody tok idle < 2 ^ 46 := pack_lt _
theorem srBody_lt (d a b : Fin 32) :
    srBody d a b < 2 ^ 46 := pack_lt _
theorem siBody_lt (d a : Fin 32) (imm : Nat) :
    siBody d a imm < 2 ^ 46 := pack_lt _
theorem slBody_lt (d : Fin 32) (imm : BitVec 32) :
    slBody d imm < 2 ^ 46 := pack_lt _
theorem spBody_lt (pd : Fin 16) (cc : Cc) (a b : Fin 32) (imm : Nat) :
    spBody pd cc a b imm < 2 ^ 46 := pack_lt _
theorem sqBody_lt (pd pa pb : Fin 16) :
    sqBody pd pa pb < 2 ^ 46 := pack_lt _
theorem smBody_lt (d : Fin 32) (a : Nat) (off : BitVec 20) (sz : Sz) (sx : Bool) (land : Fin 8192) :
    smBody d a off sz sx land < 2 ^ 46 := pack_lt _
theorem scBody_lt (d a : Fin 32) (n f : Nat) :
    scBody d a n f < 2 ^ 46 := pack_lt _
theorem yaBody_lt (n : Nat) (a b : Fin 32) (imm f : Nat) :
    yaBody n a b imm f < 2 ^ 46 := pack_lt _
theorem mBody_lt (tok : Tok) (qa qb l rows mode f : Nat) :
    mBody tok qa qb l rows mode f < 2 ^ 46 := pack_lt _
theorem vaBody_lt (ty : VTy) (d a b : Line) :
    vaBody ty d a b < 2 ^ 46 := pack_lt _
theorem vbBody_lt (ty d a s : Nat) (mk : Option (Fin 8)) (imm : Nat) : vbBody ty d a s mk imm < 2 ^ 46 := pack_lt _
theorem vcBody_lt (ty : VTy) (l : Line) (q fmt k blk axis inv rnd : Nat) (mk : Option (Fin 8)) :
    vcBody ty l q fmt k blk axis inv rnd mk < 2 ^ 46 := pack_lt _
theorem vdBody_lt (ty : VTy) (l : Line) (x : BufAddr) (off : BitVec 16) (mk : Option (Fin 8)) :
    vdBody ty l x off mk < 2 ^ 46 := pack_lt _
theorem vmBody_lt (d a : Fin 8) (b : Nat) (s : Fin 32) :
    vmBody d a b s < 2 ^ 46 := pack_lt _
theorem lwBody_lt (tok : Tok) (k : Nat) (x : BufAddr) (s : Fin 32) (q : Nat) (desc : Fin 2048) (land : Fin 8192) :
    lwBody tok k x s q desc land < 2 ^ 46 := pack_lt _
theorem waBody_lt (tok : Tok) (op ty : Nat) (sc : Scope) (rel : Bool) (s v c : Fin 32) :
    waBody tok op ty sc rel s v c < 2 ^ 46 := pack_lt _
theorem xBody_lt (q s : Fin 32) (path : Nat) (x : BufAddr) (desc : Fin 2048) (land : Fin 8192) (op : Nat) :
    xBody q s path x desc land op < 2 ^ 46 := pack_lt _
theorem gBody_lt (c e : Fin 64) (s : Fin 32) (x : BufAddr) (imm : Nat) :
    gBody c e s x imm < 2 ^ 46 := pack_lt _

/-- A well-formed instruction decodes from its word, where its opcode maps to a reader that gives it back from
its body. -/
theorem decodes_of_encode {i : Instr} {x : Nat} {e : Eng} {op : Nat} {w p : Fin 16} {body : Nat} {dec : Nat → Option Instr}
    (henc : encode i = some (wordOf e op w p body)) (hop : op < 128) (hb : body < 2 ^ 46)
    (hd : dec body = some i) (hmap : ∀ b, decEngine e op w p b = dec b) (h : encode i = some x) (hwf : i.wf = true) :
    x < 2 ^ 64 ∧ decodeWord x = some i := by
  obtain rfl : wordOf e op w p body = x := Option.some.inj (henc.symm.trans h)
  exact decodeWord_wordOf hop hb ((hmap body).trans hd) hwf

/-- Settles O57: every format's reader gives back what was written, and the opcode map finds the reader; events have no word. -/
theorem decodeEncodeRoundTrip : Obligations.DecodeEncodeRoundTrip := by
  unfold Obligations.DecodeEncodeRoundTrip
  intro i x hwf h
  cases i with
  | sNop w i | yNop w i | vNop w i | xNop w i | gNop w i =>
    exact decodes_of_encode rfl (by decide) (nopBody_lt ..) (decNop_nopBody ..) (fun _ => rfl) h hwf
  | sAdd fr d a b | sSub fr d a b | sMul fr d a b | sMulh fr d a b | sMulhu fr d a b | sDiv fr d a b | sDivu fr d a b
  | sRem fr d a b | sRemu fr d a b | sAnd fr d a b | sOr fr d a b | sXor fr d a b | sShl fr d a b | sShr fr d a b
  | sSar fr d a b | sMin fr d a b | sMax fr d a b | sMinu fr d a b | sMaxu fr d a b | sAddF64 fr d a b
  | sSubF64 fr d a b | sMulF64 fr d a b | sDivF64 fr d a b | sFmaF64 fr d a b | sMinF64 fr d a b | sMaxF64 fr d a b =>
    exact decodes_of_encode rfl (by decide) (srBody_lt ..) (decSR_srBody ..) (fun _ => rfl) h hwf
  | sClz fr d a | sPopc fr d a | sSqrtF64 fr d a | sCvtF64S64 fr d a | sCvtS64F64 fr d a | sClassF64 fr d a =>
    exact decodes_of_encode rfl (by decide) (srBody_lt ..) (decSU_srBody ..) (fun _ => rfl) h hwf
  | sAddi fr d a imm | sAndi fr d a imm | sOri fr d a imm | sXori fr d a imm | sMuli fr d a imm =>
    exact decodes_of_encode rfl (by decide) (siBody_lt ..) (decSI_siBody ..) (fun _ => rfl) h hwf
  | sShli fr d a imm | sShri fr d a imm | sSari fr d a imm =>
    exact decodes_of_encode rfl (by decide) (siBody_lt ..) (decSH_siBody ..) (fun _ => rfl) h hwf
  | sLi fr d imm | sLih fr d imm =>
    exact decodes_of_encode rfl (by decide) (slBody_lt ..) (decSL_slBody ..) (fun _ => rfl) h hwf
  | sCmp fr pd cc a b | sCmpF64 fr pd cc a b =>
    exact decodes_of_encode rfl (by decide) (spBody_lt ..) (decSP_spBody ..) (fun _ => rfl) h hwf
  | sCmpi fr pd cc a imm =>
    exact decodes_of_encode rfl (by decide) (spBody_lt ..) (decSPI_spBody ..) (fun _ => rfl) h hwf
  | sPand fr pd pa pb | sPor fr pd pa pb | sPxor fr pd pa pb =>
    exact decodes_of_encode rfl (by decide) (sqBody_lt ..) (decSQ_sqBody ..) (fun _ => rfl) h hwf
  | sPnot fr pd pa =>
    exact decodes_of_encode rfl (by decide) (sqBody_lt ..) (decSQ1_sqBody ..) (fun _ => rfl) h hwf
  | sLd fr d a off sz sx =>
    exact decodes_of_encode rfl (by decide) (smBody_lt ..) (decLd_smBody ..) (fun _ => rfl) h hwf
  | sSt fr d a off sz =>
    exact decodes_of_encode rfl (by decide) (smBody_lt ..) (decSt_smBody ..) (fun _ => rfl) h hwf
  | sLdm fr d a off sz sx land =>
    exact decodes_of_encode rfl (by decide) (smBody_lt ..) (decLdm_smBody ..) (fun _ => rfl) h hwf
  | sStm fr d a off sz land =>
    exact decodes_of_encode rfl (by decide) (smBody_lt ..) (decStm_smBody ..) (fun _ => rfl) h hwf
  | sLoop w depth trip words =>
    cases trip with
    | imm n | const n => exact decodes_of_encode rfl (by decide) (pack_lt _) (decLoop_loopBody ..) (fun _ => rfl) h hwf
  | sRdctl fr d src =>
    exact decodes_of_encode rfl (by decide) (scBody_lt ..) (decRdctl_scBody ..) (fun _ => rfl) h hwf
  | sWrctl fr r m a =>
    exact decodes_of_encode rfl (by decide) (scBody_lt ..) (decWrctl_scBody ..) (fun _ => rfl) h hwf
  | sRda fr d n f =>
    exact decodes_of_encode rfl (by decide) (scBody_lt ..) (decRda_scBody ..) (fun _ => rfl) h hwf
  | sWra fr n f a =>
    exact decodes_of_encode rfl (by decide) (scBody_lt ..) (decWra_scBody ..) (fun _ => rfl) h hwf
  | sRdq fr d n hi =>
    exact decodes_of_encode rfl (by decide) (scBody_lt ..) (decRdq_scBody ..) (fun _ => rfl) h hwf
  | sWrq fr n hi a =>
    exact decodes_of_encode rfl (by decide) (scBody_lt ..) (decWrq_scBody ..) (fun _ => rfl) h hwf
  | sRdk fr d n gen =>
    exact decodes_of_encode rfl (by decide) (scBody_lt ..) (decRdk_scBody ..) (fun _ => rfl) h hwf
  | sWrk fr n a =>
    exact decodes_of_encode rfl (by decide) (scBody_lt ..) (decWrk_scBody ..) (fun _ => rfl) h hwf
  | sRnd fr d q pair =>
    exact decodes_of_encode rfl (by decide) (scBody_lt ..) (decRnd_scBody ..) (fun _ => rfl) h hwf
  | yRdv w =>
    exact decodes_of_encode rfl (by decide) (yaBody_lt ..) (decRdv_yaBody ..) (fun _ => rfl) h hwf
  | ySeminit fr n v | yGatesem fr n v =>
    exact decodes_of_encode rfl (by decide) (yaBody_lt ..) (decSemV_yaBody ..) (fun _ => rfl) h hwf
  | ySemclr fr a =>
    exact decodes_of_encode rfl (by decide) (yaBody_lt ..) (decSemclr_yaBody ..) (fun _ => rfl) h hwf
  | yTokpush fr f c | yTokpop fr f c =>
    exact decodes_of_encode rfl (by decide) (yaBody_lt ..) (decTokOp_yaBody ..) (fun _ => rfl) h hwf
  | yGate fr g a =>
    cases a with
    | none => exact decodes_of_encode rfl (by decide) (yaBody_lt ..) (decGate_yaBody_none ..) (fun _ => rfl) h hwf
    | some a => exact decodes_of_encode rfl (by decide) (yaBody_lt ..) (decGate_yaBody_some ..) (fun _ => rfl) h hwf
  | yGateclr fr t =>
    cases t with
    | signal g => exact decodes_of_encode rfl (by decide) (yaBody_lt ..) (decGateclr_yaBody_signal ..) (fun _ => rfl) h hwf
    | sem n => exact decodes_of_encode rfl (by decide) (yaBody_lt ..) (decGateclr_yaBody_sem ..) (fun _ => rfl) h hwf
    | all => exact decodes_of_encode rfl (by decide) (yaBody_lt ..) (decGateclr_yaBody_all ..) (fun _ => rfl) h hwf
  | yFence w sc =>
    exact decodes_of_encode rfl (by decide) (yaBody_lt ..) (decFence_yaBody ..) (fun _ => rfl) h hwf
  | yExport fr x =>
    cases x with
    | size a => exact decodes_of_encode rfl (by decide) (yaBody_lt ..) (decExport_yaBody_size ..) (fun _ => rfl) h hwf
    | sel b => exact decodes_of_encode rfl (by decide) (yaBody_lt ..) (decExport_yaBody_sel ..) (fun _ => rfl) h hwf
    | both a b => exact decodes_of_encode rfl (by decide) (yaBody_lt ..) (decExport_yaBody_both ..) (fun _ => rfl) h hwf
  | yTrap fr v | yBrk fr v | yStamp fr v =>
    exact decodes_of_encode rfl (by decide) (yaBody_lt ..) (decYv_yaBody ..) (fun _ => rfl) h hwf
  | mNop w tok i | lNop w tok i | wNop w tok i =>
    exact decodes_of_encode rfl (by decide) (tokNopBody_lt ..) (decTokNop_tokNopBody ..) (fun _ => rfl) h hwf
  | mWld fr tok qa qb s5 =>
    exact decodes_of_encode rfl (by decide) (mBody_lt ..) (decWld_mBody ..) (fun _ => rfl) h hwf
  | mSwap fr tok =>
    exact decodes_of_encode rfl (by decide) (mBody_lt ..) (decSwap_mBody ..) (fun _ => rfl) h hwf
  | mMacS9 fr tok qa qb l rows dm init peek | mMacS5 fr tok qa qb l rows dm init peek =>
    exact decodes_of_encode rfl (by decide) (mBody_lt ..) (decMac_mBody ..) (fun _ => rfl) h hwf
  | mSpmacS9 fr tok qa qb l rows dm init =>
    exact decodes_of_encode rfl (by decide) (mBody_lt ..) (decSpmac_mBody ..) (fun _ => rfl) h hwf
  | mShape fr tok mask | mWake fr tok mask | mSleep fr tok mask =>
    exact decodes_of_encode rfl (by decide) (mBody_lt ..) (decMask_mBody ..) (fun _ => rfl) h hwf
  | mFeed fr tok x =>
    cases x with
    | imm i => exact decodes_of_encode rfl (by decide) (mBody_lt ..) (decFeed_mBody_imm ..) (fun _ => rfl) h hwf
    | reg a post => exact decodes_of_encode rfl (by decide) (mBody_lt ..) (decFeed_mBody_reg ..) (fun _ => rfl) h hwf
  | mXbase fr tok imm =>
    exact decodes_of_encode rfl (by decide) (mBody_lt ..) (decXbase_mBody ..) (fun _ => rfl) h hwf
  | vAdd fr ty d a b | vSub fr ty d a b | vMul fr ty d a b | vFma fr ty d a b | vFms fr ty d a b | vMin fr ty d a b
  | vMax fr ty d a b | vAnd fr ty d a b | vOr fr ty d a b | vXor fr ty d a b | vDiv fr ty d a b =>
    exact decodes_of_encode rfl (by decide) (vaBody_lt ..) (decVA_vaBody ..) (fun _ => rfl) h hwf
  | vAbs fr ty d a mk | vNeg fr ty d a mk | vNot fr ty d a mk | vMov fr ty d a mk | vSqrt fr ty d a mk =>
    exact decodes_of_encode rfl (by decide) (vbBody_lt ..) (decVB1_vbBody ..) (fun _ => rfl) h hwf
  | vShl fr ty d a s n mk | vShr fr ty d a s n mk | vSar fr ty d a s n mk | vRshr fr ty d a s n mk =>
    exact decodes_of_encode rfl (by decide) (vbBody_lt ..) (decVBs_vbBody ..) (fun _ => rfl) h hwf
  | vCmp fr ty cc vmE a b mk =>
    exact decodes_of_encode rfl (by decide) (vbBody_lt ..) (decVcmp_vbBody ..) (fun _ => rfl) h hwf
  | vSel fr ty d a s vm =>
    exact decodes_of_encode rfl (by decide) (vbBody_lt ..) (decVsel_vbBody ..) (fun _ => rfl) h hwf
  | vBcast fr ty d a s k mk | vScale fr ty d a s k mk | vLshift fr ty d a s k mk | vLrot fr ty d a s k mk =>
    exact decodes_of_encode rfl (by decide) (vbBody_lt ..) (decVBk_vbBody ..) (fun _ => rfl) h hwf
  | vCvt fr dt st d a mk =>
    exact decodes_of_encode rfl (by decide) (vbBody_lt ..) (decVcvt_vbBody ..) (fun _ => rfl) h hwf
  | vCvte fr ty h16 toH16 hi d a mk =>
    exact decodes_of_encode rfl (by decide) (vbBody_lt ..) (decVcvte_vbBody ..) (fun _ => rfl) h hwf
  | vSliceF64 fr q a s =>
    exact decodes_of_encode rfl (by decide) (vbBody_lt ..) (decVslice_vbBody ..) (fun _ => rfl) h hwf
  | vCvtx fr ty toX d a s mk =>
    exact decodes_of_encode rfl (by decide) (vbBody_lt ..) (decVcvtx_vbBody ..) (fun _ => rfl) h hwf
  | vNarrow fr ty l q fmt k blk free rnd mk =>
    exact decodes_of_encode rfl (by decide) (vcBody_lt ..) (decVnarrow_vcBody ..) (fun _ => rfl) h hwf
  | vRot fr ty l q k blk inv rnd =>
    cases q with
    | none => exact decodes_of_encode rfl (by decide) (vcBody_lt ..) (decVrot_vcBody_none ..) (fun _ => rfl) h hwf
    | some q => exact decodes_of_encode rfl (by decide) (vcBody_lt ..) (decVrot_vcBody_some ..) (fun _ => rfl) h hwf
  | vPop fr ty l q mk | vPush fr ty l q mk =>
    exact decodes_of_encode rfl (by decide) (vcBody_lt ..) (decVring_vcBody ..) (fun _ => rfl) h hwf
  | vExp2 fr d a mk | vLog2 fr d a mk | vRecip fr d a mk | vRsqrt fr d a mk | vSinpi fr d a mk | vCospi fr d a mk =>
    exact decodes_of_encode rfl (by decide) (vbBody_lt ..) (decVsp_vbBody ..) (fun _ => rfl) h hwf
  | vLd fr ty l x off mk | vSt fr ty l x off mk | vGather fr ty l x off mk | vScatter fr ty l x off mk
  | vBset fr ty l x off mk | vBtest fr ty l x off mk =>
    exact decodes_of_encode rfl (by decide) (vdBody_lt ..) (decVD_vdBody ..) (fun _ => rfl) h hwf
  | vPerm fr ty p d a mk =>
    exact decodes_of_encode rfl (by decide) (vbBody_lt ..) (decVperm_vbBody ..) (fun _ => rfl) h hwf
  | vMatch fr pe part pat win s mk =>
    exact decodes_of_encode rfl (by decide) (vbBody_lt ..) (decVmatch_vbBody ..) (fun _ => rfl) h hwf
  | vRndfill fr ty d q mk =>
    exact decodes_of_encode rfl (by decide) (vbBody_lt ..) (decVrnd_vbBody ..) (fun _ => rfl) h hwf
  | vRsum fr ty d a g mk | vRmax fr ty d a g mk | vRmin fr ty d a g mk | vScan fr ty d a g mk
  | vArgmax fr ty d a g mk | vArgmin fr ty d a g mk =>
    exact decodes_of_encode rfl (by decide) (vbBody_lt ..) (decVred_vbBody ..) (fun _ => rfl) h hwf
  | vMand fr d a b | vMor fr d a b | vMxor fr d a b =>
    exact decodes_of_encode rfl (by decide) (vmBody_lt ..) (decVM_vmBody ..) (fun _ => rfl) h hwf
  | vMnot fr d a =>
    exact decodes_of_encode rfl (by decide) (vmBody_lt ..) (decVmnot_vmBody ..) (fun _ => rfl) h hwf
  | vMset fr d s =>
    exact decodes_of_encode rfl (by decide) (vmBody_lt ..) (decVmset_vmBody ..) (fun _ => rfl) h hwf
  | vMcount fr pd a cc s =>
    exact decodes_of_encode rfl (by decide) (vmBody_lt ..) (decVmcount_vmBody ..) (fun _ => rfl) h hwf
  | lTile fr tok wb x s desc land =>
    exact decodes_of_encode rfl (by decide) (lwBody_lt ..) (decLtile_lwBody ..) (fun _ => rfl) h hwf
  | lHalo fr tok pad x s desc land =>
    exact decodes_of_encode rfl (by decide) (lwBody_lt ..) (decLhalo_lwBody ..) (fun _ => rfl) h hwf
  | lNarrow fr tok k q s desc land =>
    exact decodes_of_encode rfl (by decide) (lwBody_lt ..) (decLnarrow_lwBody ..) (fun _ => rfl) h hwf
  | lCsr fr tok q x s desc land =>
    exact decodes_of_encode rfl (by decide) (lwBody_lt ..) (decLcsr_lwBody ..) (fun _ => rfl) h hwf
  | lGather fr tok x s desc land =>
    exact decodes_of_encode rfl (by decide) (lwBody_lt ..) (decLgather_lwBody ..) (fun _ => rfl) h hwf
  | lRow fr tok ty tile x s desc land | wRow fr tok ty tile x s desc land =>
    exact decodes_of_encode rfl (by decide) (lwBody_lt ..) (decRow_lwBody ..) (fun _ => rfl) h hwf
  | lRing fr tok q s desc land =>
    exact decodes_of_encode rfl (by decide) (lwBody_lt ..) (decLring_lwBody ..) (fun _ => rfl) h hwf
  | wTile fr tok x s desc land =>
    cases x with
    | ab x => exact decodes_of_encode rfl (by decide) (lwBody_lt ..) (decWtile_lwBody_ab ..) (fun _ => rfl) h hwf
    | ring q => exact decodes_of_encode rfl (by decide) (lwBody_lt ..) (decWtile_lwBody_ring ..) (fun _ => rfl) h hwf
  | wAcc fr tok op x s desc land =>
    exact decodes_of_encode rfl (by decide) (lwBody_lt ..) (decWacc_lwBody ..) (fun _ => rfl) h hwf
  | wAmo fr tok op ty sc rel s v c =>
    exact decodes_of_encode rfl (by decide) (waBody_lt ..) (decWamo_waBody ..) (fun _ => rfl) h hwf
  | wSig fr tok op sc rel s v =>
    exact decodes_of_encode rfl (by decide) (waBody_lt ..) (decWsig_waBody ..) (fun _ => rfl) h hwf
  | wFilt fr tok bf16 x s desc land =>
    exact decodes_of_encode rfl (by decide) (lwBody_lt ..) (decWfilt_lwBody ..) (fun _ => rfl) h hwf
  | xSend fr path x desc land =>
    cases x with
    | ab x => exact decodes_of_encode rfl (by decide) (xBody_lt ..) (decXsend_xBody_ab ..) (fun _ => rfl) h hwf
    | ring q => exact decodes_of_encode rfl (by decide) (xBody_lt ..) (decXsend_xBody_ring ..) (fun _ => rfl) h hwf
  | xRecv fr path x desc =>
    cases x with
    | ab x => exact decodes_of_encode rfl (by decide) (xBody_lt ..) (decXrecv_xBody_ab ..) (fun _ => rfl) h hwf
    | wb x => exact decodes_of_encode rfl (by decide) (xBody_lt ..) (decXrecv_xBody_wb ..) (fun _ => rfl) h hwf
    | ring q => exact decodes_of_encode rfl (by decide) (xBody_lt ..) (decXrecv_xBody_ring ..) (fun _ => rfl) h hwf
  | xRed fr path op x desc =>
    exact decodes_of_encode rfl (by decide) (xBody_lt ..) (decXred_xBody ..) (fun _ => rfl) h hwf
  | xPut fr sem x s desc =>
    exact decodes_of_encode rfl (by decide) (xBody_lt ..) (decXput_xBody ..) (fun _ => rfl) h hwf
  | xSig fr op s desc =>
    exact decodes_of_encode rfl (by decide) (xBody_lt ..) (decXsig_xBody ..) (fun _ => rfl) h hwf
  | xAlign fr path x =>
    exact decodes_of_encode rfl (by decide) (xBody_lt ..) (decXalign_xBody ..) (fun _ => rfl) h hwf
  | xFwd fr path desc land =>
    exact decodes_of_encode rfl (by decide) (xBody_lt ..) (decXfwd_xBody ..) (fun _ => rfl) h hwf
  | gBind fr c s =>
    exact decodes_of_encode rfl (by decide) (gBody_lt ..) (decGbind_gBody ..) (fun _ => rfl) h hwf
  | gStep fr c x ls =>
    cases x with
    | ab x => exact decodes_of_encode rfl (by decide) (gBody_lt ..) (decGstep_gBody_ab ..) (fun _ => rfl) h hwf
    | reg s => exact decodes_of_encode rfl (by decide) (gBody_lt ..) (decGstep_gBody_reg ..) (fun _ => rfl) h hwf
  | gMask fr c x v lm =>
    exact decodes_of_encode rfl (by decide) (gBody_lt ..) (decGmask_gBody ..) (fun _ => rfl) h hwf
  | gFork fr e c =>
    exact decodes_of_encode rfl (by decide) (gBody_lt ..) (decGfork_gBody ..) (fun _ => rfl) h hwf
  | gMark fr c | gRollback fr c | gCommit fr c | gFree fr c =>
    exact decodes_of_encode rfl (by decide) (gBody_lt ..) (decGc_gBody ..) (fun _ => rfl) h hwf
  | gSave fr c x move | gRestore fr c x copy =>
    exact decodes_of_encode rfl (by decide) (gBody_lt ..) (decGrec_gBody ..) (fun _ => rfl) h hwf
  | gState fr c x =>
    exact decodes_of_encode rfl (by decide) (gBody_lt ..) (decGstate_gBody ..) (fun _ => rfl) h hwf
  | _ => cases h

end Sys2Proof
end

section
/-! PROOF. The frame of a word at its issue (O58): what a word leaves of its core when it is predicated off keeps the books only,
and only a word of engine G changes GM at its issue tick. -/

namespace Sys2Proof.Machine

/-! ### Dues that keep the books -/

/-- What a word leaves pending keeps the books only. -/
def bookish (ds : List Due) : Bool := ds.all fun d => d.2.2.isBook

@[simp] theorem bookish_nil : bookish [] = true := rfl
@[simp] theorem bookish_cons (d : Due) (ds : List Due) : bookish (d :: ds) = (d.2.2.isBook && bookish ds) := rfl
@[simp] theorem bookish_append (ds es : List Due) : bookish (ds ++ es) = (bookish ds && bookish es) := List.all_append
theorem bookish_flatMap {α : Type} (xs : List α) (f : α → List Due) (h : ∀ x, bookish (f x) = true) :
    bookish (xs.flatMap f) = true := by
  simp only [bookish, List.all_eq_true, List.mem_flatMap] at *
  rintro d ⟨x, -, hd⟩
  exact h x d hd
theorem bookish_map {α : Type} (xs : List α) (f : α → Due) (h : ∀ x, (f x).2.2.isBook = true) : bookish (xs.map f) = true := by
  simp only [bookish, List.all_eq_true, List.mem_map]
  rintro d ⟨x, -, rfl⟩
  exact h x
theorem bookish_mono {ds es : List Due} (h : bookish ds = true) (hs : ∀ d ∈ es, d ∈ ds) : bookish es = true := by
  simp only [bookish, List.all_eq_true] at *
  exact fun d hd => h d (hs d hd)

@[simp] theorem bookish_ite (c : Prop) [Decidable c] (ds es : List Due) :
    bookish (if c then ds else es) = if c then bookish ds else bookish es := apply_ite ..

@[simp] theorem isBook_land (o : Nat) (es : List Effect) : (landAt o es).2.2.isBook = es.all Effect.isBook := rfl
@[simp] theorem bookish_popDue (q : Fin 32) (n : Nat) : (popDue q n).2.2.isBook = true := rfl
@[simp] theorem bookish_tokPushes (e : Eng) (t : Tok) (o : Nat) : bookish (tokPushes e t o) = true := by
  simp [tokPushes, Effect.isBook]
@[simp] theorem bookish_postInc (r : Regs) (x : BufAddr) : bookish (r.postInc x) = true := by
  simp [Regs.postInc, Effect.isBook]
@[simp] theorem bookish_incs (s : State) (x : BufAddr) : bookish (s.incs x) = true := bookish_postInc ..
@[simp] theorem bookish_lineInc (r : Regs) (l : Line) : bookish (r.lineInc l) = true := by
  unfold Regs.lineInc
  split <;> rfl
@[simp] theorem bookish_banksAt (o : Nat) (e : Eng) (rs : List Nat) : bookish (banksAt o e rs) = true := by
  simp [banksAt, Effect.isBook]
@[simp] theorem bookish_portDue (lat : Nat) : bookish (portDue lat) = true := bookish_banksAt ..
@[simp] theorem bookish_allBanks (n : Nat) : bookish (allBanks n) = true := bookish_flatMap _ _ fun _ => bookish_banksAt ..
@[simp] theorem bookish_holdDues (n : Nat) : bookish (holdDues n) = true := bookish_flatMap _ _ fun _ => bookish_banksAt ..
@[simp] theorem bookish_lSlots (land : Nat) (bs : List (Nat × List Nat)) : bookish (lSlots land bs) = true := bookish_map _ _ fun _ => rfl
@[simp] theorem bookish_wSlots (reads : List (Nat × List Nat)) (lands : List Nat) : bookish (wSlots reads lands) = true := by
  unfold wSlots
  rw [bookish_append, bookish_flatMap _ _ fun _ => bookish_banksAt .., bookish_flatMap _ _ fun _ => bookish_banksAt ..]
  rfl
@[simp] theorem bookish_xSlots (reads : List (Nat × List Nat)) : bookish (xSlots reads) = true :=
  bookish_flatMap _ _ fun _ => bookish_banksAt ..

/-- Entries without data pushed one after another. -/
@[simp] theorem bookish_pushesFrom (q : Fin 32) (tag : BitVec 16) (o n : Nat) :
    bookish (pushesFrom q tag o (List.replicate n none)) = true := by
  induction n generalizing o with
  | zero => rfl
  | succ n ih => simp [List.replicate_succ, pushesFrom, Effect.isBook, ih]

/-- Post-increments, each once. -/
theorem bookish_flatten (dss : List (List Due)) (h : ∀ ds ∈ dss, bookish ds = true) : bookish dss.flatten.eraseDups = true := by
  refine bookish_mono (ds := dss.flatten) ?_ fun d hd => List.mem_eraseDups.mp hd
  simp only [bookish, List.all_eq_true, List.mem_flatten] at *
  rintro d ⟨ds, hds, hd⟩
  exact h ds hds d hd
@[simp] theorem bookish_lineIncs (r : Regs) (ls : List Line) : bookish (r.lineIncs ls) = true := by
  refine bookish_flatten _ fun ds hds => ?_
  obtain ⟨l, -, rfl⟩ := List.mem_map.mp hds
  exact bookish_lineInc ..

/-! ### Pending items -/

theorem mem_insertPend {x p : Pend} {ps : List Pend} (h : x ∈ insertPend p ps) : x = p ∨ x ∈ ps := by
  induction ps with
  | nil => exact .inl (by simpa [insertPend] using h)
  | cons q qs ih =>
    unfold insertPend at h
    split at h
    · exact List.mem_cons.mp h
    · rcases List.mem_cons.mp h with rfl | h
      · exact .inr (by simp)
      · exact (ih h).imp id (List.mem_cons_of_mem _)

/-- What becomes due is added to what was. -/
theorem Core.mem_dueAll {c : Core} {x : Src} {t : Nat} {ds : List Due} {y : Pend} (h : y ∈ (c.dueAll x t ds).pend) :
    y ∈ c.pend ∨ ∃ d ∈ ds, y.act = d.2.2 := by
  induction ds generalizing c with
  | nil => exact .inl h
  | cons d ds ih =>
    obtain ⟨o, r, a⟩ := d
    rcases ih (c := c.due x (t + o) r a) h with h | ⟨d, hd, e⟩
    · rcases mem_insertPend h with rfl | h
      · exact .inr ⟨_, List.mem_cons_self, rfl⟩
      · exact .inl h
    · exact .inr ⟨d, List.mem_cons_of_mem _ hd, e⟩

/-- What becoming due leaves alone. -/
theorem Core.dueAll_frame (c : Core) (x : Src) (t : Nat) (ds : List Due) :
    (c.dueAll x t ds).outb = c.outb ∧ (c.dueAll x t ds).fences = c.fences ∧ (c.dueAll x t ds).regs = c.regs
      ∧ (c.dueAll x t ds).gm = c.gm ∧ (c.dueAll x t ds).stamps = c.stamps ∧ (c.dueAll x t ds).w0 = c.w0
      ∧ (c.dueAll x t ds).w1 = c.w1 ∧ (c.dueAll x t ds).wact = c.wact := by
  induction ds generalizing c with
  | nil => exact ⟨rfl, rfl, rfl, rfl, rfl, rfl, rfl, rfl⟩
  | cons d ds ih => exact ih (c.due x (t + d.1) d.2.1 d.2.2)

theorem Core.booksOnly_refl (c : Core) : c.booksOnly c := ⟨fun _ h => .inl h, rfl, rfl, rfl, rfl, rfl, rfl, rfl, rfl⟩

theorem Regs.takeToks_gates (r : Regs) (ts : List (Fin 6 × Nat)) :
    (ts.foldl (fun (r : Regs) (t : Fin 6 × Nat) => r.takeTok t.1 t.2) r).gates = r.gates := by
  induction ts generalizing r with
  | nil => rfl
  | cons t ts ih => exact ih _

/-! ### The frame of a word -/

/-- What a word whose predicate is pr leaves alone at its issue, one of engine G or not. -/
structure State.WordFrame (g : Bool) (pr : Fin 16) (s t : State) : Prop where
  keeps : s.Keeps s.slot.core t
  gm : (t.core s.slot.core).halted = false → g = false → (t.core s.slot.core).gm = (s.core s.slot.core).gm
  off : (t.core s.slot.core).halted = false → s.predOff pr = true →
    (s.core s.slot.core).booksOnly (t.core s.slot.core) ∧ t.agenda = s.agenda ∧ t.outputs = s.outputs ∧ t.mod = s.mod

theorem State.Keeps.halted {c : Fin 96} {s t : State} (h : s.Keeps c t) (k : (s.core c).halted = true) : (t.core c).halted = true := by
  cases e : (t.core c).halted with
  | true => rfl
  | false => exact absurd (h.runs e) (by simp [k])

/-- A word that halts its core. -/
theorem State.WordFrame.halts {g : Bool} {pr : Fin 16} {s t : State} (h : s.Keeps s.slot.core t)
    (k : (t.core s.slot.core).halted = true) : s.WordFrame g pr t :=
  ⟨h, fun e => by simp [k] at e, fun e => by simp [k] at e⟩

theorem State.trap_halted (s : State) (t : Trap) : ((s.trap t).core s.slot.core).halted = true :=
  State.Keeps.halted (State.Keeps.beginAbort ..) (s.undoTick_halted _)

theorem State.bankTrap_halted (s : State) (r : Nat) (y : Src) : ((s.bankTrap r y).core s.slot.core).halted = true := by
  unfold State.bankTrap
  split
  · exact s.trap_halted _
  · exact State.Keeps.halted (State.Keeps.lateFault ..) (s.undoTick_halted _)

theorem State.freeze_frame {g : Bool} {pr : Fin 16} (s : State) (n : Nat) : s.WordFrame g pr (s.freeze n) := by
  have hc : (s.freeze n).core s.slot.core = _ := State.core_setCore_self ..
  refine ⟨.freeze s n, fun _ _ => by rw [hc], fun _ _ => ⟨?_, rfl, rfl, rfl⟩⟩
  rw [hc]
  exact Core.booksOnly_refl _

/-- A word that issues, with what it leaves pending when off. -/
theorem State.commit_frame {g : Bool} {pr : Fin 16} (s : State) (p : Plan) (ds : List Due)
    (h : s.predOff pr = true → bookish (p.books ++ ds) = true) : s.WordFrame g pr (s.commit p ds) := by
  have hc : (s.commit p ds).core s.slot.core = _ := State.core_setCore_self ..
  refine ⟨.commit s p ds, fun _ _ => ?_, fun _ hoff => ⟨?_, rfl, rfl, rfl⟩⟩ <;> rw [hc]
  · obtain ⟨-, -, -, hgm, -⟩ := Core.dueAll_frame (Core.digestWord _ s.slot.eng s.slot.word s.slot.tick) s.src s.slot.tick (p.books ++ ds)
    rw [hgm]; rfl
  · obtain ⟨hout, hfen, hregs, hgm, hst, hw0, hw1, hwa⟩ :=
      Core.dueAll_frame (Core.digestWord _ s.slot.eng s.slot.word s.slot.tick) s.src s.slot.tick (p.books ++ ds)
    refine ⟨fun y hy => ?_, hout, hfen, ?_, hgm, hst, hw0, hw1, hwa⟩
    · rcases Core.mem_dueAll hy with hy | ⟨d, hd, e⟩
      · exact .inl hy
      · exact .inr (e ▸ List.all_eq_true.mp (h hoff) d hd)
    · rw [hregs]
      exact Regs.takeToks_gates ..

/-- A word whose plan says all it does. -/
theorem State.issue_frame {g : Bool} {pr : Fin 16} (s : State) (p : Plan)
    (h : s.predOff pr = true → s.predOff p.pred = true ∧ bookish (p.books ++ p.off) = true) : s.WordFrame g pr (s.issue p) := by
  have htrap (t : Trap) : s.WordFrame g pr (s.trap t) := .halts (.trap s t) (s.trap_halted t)
  unfold State.issue
  split
  · exact htrap _
  split
  · exact htrap _
  split
  · unfold State.deviate
    split
    · exact s.freeze_frame _
    · exact htrap _
  split
  · exact .halts (.bankTrap ..) (s.bankTrap_halted ..)
  unfold State.predicated
  dsimp only
  split
  · exact htrap _
  split
  · rename_i hval
    have hno : s.predOff pr ≠ true := fun hoff => by
      have := (h hoff).1
      simp [State.predOff, State.regs, hval] at this
    split
    · exact htrap _
    · exact s.commit_frame p _ fun hoff => absurd hoff hno
  · exact s.commit_frame p _ fun hoff => (h hoff).2

/-- Something else that a word does when it runs: it keeps the data of its core, and GM but for a word of engine G. -/
def State.Beside (g : Bool) (c : Fin 96) (t u : State) : Prop := t.Keeps c u ∧ (g = false → (u.core c).gm = (t.core c).gm)

theorem State.runs_not_off {s : State} {p : Plan} (h : s.runs p = true) : s.predOff p.pred ≠ true := by
  simp only [State.runs, Bool.and_eq_true] at h
  obtain ⟨⟨-, hval⟩, -⟩ := h
  simp [State.predOff, State.regs, hval]

/-- A word that does something else when it runs. -/
theorem State.issueThen_frame {g : Bool} {pr : Fin 16} (s : State) (p : Plan) (f : State → State)
    (h : s.predOff pr = true → s.predOff p.pred = true ∧ bookish (p.books ++ p.off) = true)
    (hf : ∀ t : State, t.slot = s.slot → t.Beside g s.slot.core (f t)) : s.WordFrame g pr (s.issueThen p f) := by
  have hi := s.issue_frame (g := g) p h
  obtain ⟨hk, hg⟩ := hf _ (s.issue_slot p)
  unfold State.issueThen
  split
  · rename_i hr
    refine ⟨hi.keeps.trans hk, fun e hn => (hg hn).trans (hi.gm (hk.runs e) hn), fun _ hoff => ?_⟩
    exact absurd (h hoff).1 (State.runs_not_off hr)
  · exact hi

end Sys2Proof.Machine
end

section
/-! PROOF. The frame of a word at its issue (O58), word by word. -/

namespace Sys2Proof.Machine

/-! ### Plans and results -/

/-- A plan with predicate pr that leaves only books when it is off. -/
structure Plan.Quiet (pr : Fin 16) (p : Plan) : Prop where
  pred : p.pred = pr
  books : bookish p.books = true
  off : bookish p.off = true

/-- A result that meets the frame of a word. -/
structure Result.Frames (g : Bool) (pr : Fin 16) (s : State) (r : Result) : Prop where
  of_next : ∀ t, r = .next t → s.WordFrame g pr t

section
variable {g : Bool} {pr : Fin 16} {s : State} {p : Plan}

theorem Result.Frames.next {t : State} (h : s.WordFrame g pr t) : Result.Frames g pr s (.next t) := ⟨fun u e => by
  cases e
  exact h⟩

theorem Plan.Quiet.frame (h : p.Quiet pr) : s.predOff pr = true → s.predOff p.pred = true ∧ bookish (p.books ++ p.off) = true :=
  fun hoff => ⟨h.pred ▸ hoff, by simp [h.books, h.off]⟩

theorem Result.Frames.issue (h : p.Quiet pr) : Result.Frames g pr s (.next (s.issue p)) := .next (s.issue_frame p h.frame)

theorem Result.Frames.issueThen {f : State → State} (h : p.Quiet pr)
    (hf : ∀ t : State, t.slot = s.slot → t.Beside g s.slot.core (f t)) : Result.Frames g pr s (.next (s.issueThen p f)) :=
  .next (s.issueThen_frame p f h.frame hf)

end

/-! ### What words do besides -/

section
variable {g : Bool} {c : Fin 96}

theorem State.Beside.refl (t : State) : t.Beside g c t := ⟨.refl .., fun _ => rfl⟩
theorem State.Beside.trans {t u v : State} (h : t.Beside g c u) (k : u.Beside g c v) : t.Beside g c v :=
  ⟨h.1.trans k.1, fun e => (k.2 e).trans (h.2 e)⟩

/-- A change of partitions. -/
theorem State.Beside.cores {t u : State} (h : t.Keeps c u) (k : u.cores = t.cores) : t.Beside g c u :=
  ⟨h, fun _ => by simp only [State.core, k]⟩

/-- A change of the core that keeps its data and GM. -/
theorem State.Beside.setCore {t : State} {v : Core} (hr : v.halted = (t.core c).halted) (hd : (t.core c).sameData v)
    (hw : v.memWf = (t.core c).memWf) (hg : v.gm = (t.core c).gm) : t.Beside g c (t.setCore c v) :=
  ⟨.setCore t c v (fun h => hr ▸ h) (fun _ => hd) fun h => hw ▸ h, fun _ => by rw [State.core_setCore_self, hg]⟩

theorem State.chargeBeat_cores (t : State) (out : Bool) (h : Home) (n o k l : Nat) : (t.chargeBeat out h n o k l).cores = t.cores := by
  unfold State.chargeBeat
  dsimp only
  repeat' split
  all_goals rfl

theorem State.Beside.chargeBeat (t : State) (out : Bool) (h : Home) (n o k l : Nat) : t.Beside g c (t.chargeBeat out h n o k l) :=
  .cores (.chargeBeat ..) (t.chargeBeat_cores ..)

theorem State.Beside.addBeat (t : State) (out : Bool) (h : Home) (n o k l : Nat) :
    t.Beside g t.slot.core (t.addBeat out h n o k l) := by
  have hs (fs : List _) : t.Beside g t.slot.core (t.setCore t.slot.core { t.core t.slot.core with flying := fs }) :=
    .setCore rfl ⟨rfl, rfl, rfl, rfl, rfl, rfl, rfl, rfl, rfl, rfl, rfl, rfl, rfl, rfl, rfl⟩ rfl rfl
  exact (hs _).trans (.chargeBeat ..)

/-- Some changes one after another. -/
theorem State.Beside.foldl {β : Type} (f : State → β → State) (hf : ∀ (t : State) b, t.Beside g t.slot.core (f t b)) (l : List β)
    (t : State) : t.Beside g t.slot.core (l.foldl f t) := by
  induction l generalizing t with
  | nil => exact .refl _
  | cons b l ih =>
    have h := ih (f t b)
    rw [(hf t b).1.slot] at h
    exact (hf t b).trans h

theorem State.Beside.addBeats (t : State) (out : Bool) (k : Home → Nat) (bs : List (Nat × Nat × List (Home × Nat))) :
    t.Beside g t.slot.core (t.addBeats out k bs) := by
  induction bs generalizing t with
  | nil => exact .refl _
  | cons b bs ih =>
    have h1 := State.Beside.foldl (g := g) (fun (s : State) p => s.addBeat out p.1 p.2 b.1 (k p.1) b.2.1)
      (fun s p => .addBeat ..) b.2.2 t
    have h2 := ih (b.2.2.foldl (fun (s : State) p => s.addBeat out p.1 p.2 b.1 (k p.1) b.2.1) t)
    rw [h1.1.slot] at h2
    exact h1.trans h2

theorem State.Beside.setGates (t : State) (gs : List GateReg) : t.Beside g t.slot.core (t.setGates gs) :=
  .setCore rfl ⟨rfl, rfl, rfl, rfl, rfl, rfl, rfl, rfl, rfl, rfl, rfl, rfl, rfl, rfl, rfl⟩ rfl rfl

theorem State.Beside.setGM (t : State) (m : GM) : t.Beside true t.slot.core (t.setGM m) := ⟨.setGM .., nofun⟩

theorem State.Beside.newOp (t : State) (k : OpKind) (va : Nat) (h : Option Home) (hs : List Home) (sc : Scope) (rel : Bool) :
    t.Beside g t.slot.core (t.newOp k va h hs sc rel) := by
  refine ⟨.newOp .., fun _ => ?_⟩
  have put (os : List OutOp) : ((t.setCore t.slot.core { t.core t.slot.core with outb := os }).core t.slot.core).gm
      = (t.core t.slot.core).gm := by rw [State.core_setCore_self]
  unfold State.newOp
  dsimp only
  repeat' split
  all_goals first
    | rfl
    | exact put _

end

/-- Its beats are in flight. -/
theorem State.Beside.addBeats_at {g : Bool} {s t : State} (e : t.slot = s.slot) (out : Bool) (k : Home → Nat)
    (bs : List (Nat × Nat × List (Home × Nat))) : t.Beside g s.slot.core (t.addBeats out k bs) := e ▸ .addBeats ..
theorem State.Beside.addBeat_at {g : Bool} {s t : State} (e : t.slot = s.slot) (out : Bool) (h : Home) (n o k l : Nat) :
    t.Beside g s.slot.core (t.addBeat out h n o k l) := e ▸ .addBeat ..
theorem State.Beside.setGates_at {g : Bool} {s t : State} (e : t.slot = s.slot) (gs : List GateReg) :
    t.Beside g s.slot.core (t.setGates gs) := e ▸ .setGates ..
theorem State.Beside.setGM_at {s t : State} (e : t.slot = s.slot) (m : GM) : t.Beside true s.slot.core (t.setGM m) := e ▸ .setGM ..
theorem State.Beside.newOp_at {g : Bool} {s t : State} (e : t.slot = s.slot) (k : OpKind) (va : Nat) (h : Option Home)
    (hs : List Home) (sc : Scope) (rel : Bool) : t.Beside g s.slot.core (t.newOp k va h hs sc rel) := e ▸ .newOp ..
theorem State.Beside.setCore_at {g : Bool} {s t : State} {v : Core} (e : t.slot = s.slot)
    (hr : v.halted = (t.core t.slot.core).halted) (hd : (t.core t.slot.core).sameData v)
    (hw : v.memWf = (t.core t.slot.core).memWf) (hg : v.gm = (t.core t.slot.core).gm) :
    t.Beside g s.slot.core (t.setCore t.slot.core v) := e ▸ .setCore hr hd hw hg

/-! ### Plans -/

theorem bookish_vecPlan (s : State) (ls : List (VTy × Line)) {books : List Due} (h : bookish books = true) :
    bookish (s.regs.lineIncs (ls.map Prod.snd) ++ books) = true := by simp [h]

theorem Plan.Quiet.vec (s : State) (fr : Frame) (ls : List (VTy × Line)) {books : List Due} (on : Except Trap (List Due))
    (h : bookish books = true) : (s.vecPlan fr ls books on).Quiet fr.pred :=
  ⟨rfl, bookish_vecPlan s ls h, rfl⟩

theorem bookish_vdPlan (s : State) (ls : List (VTy × Line)) (xs : List BufAddr) {books : List Due} (h : bookish books = true) :
    bookish (((ls.map Prod.snd).map s.regs.lineInc ++ xs.map s.regs.postInc).flatten.eraseDups ++ books) = true := by
  have hinc : bookish ((ls.map Prod.snd).map s.regs.lineInc ++ xs.map s.regs.postInc).flatten.eraseDups = true := by
    refine bookish_flatten _ fun ds hds => ?_
    rcases List.mem_append.mp hds with hds | hds <;> obtain ⟨l, -, rfl⟩ := List.mem_map.mp hds
    · exact bookish_lineInc ..
    · exact bookish_postInc ..
  rw [bookish_append, hinc, h]
  rfl

theorem Plan.Quiet.vd (s : State) (fr : Frame) (ls : List (VTy × Line)) (xs : List BufAddr) (align : Option Trap) (banks : List Nat)
    {books : List Due} (on : Except Trap (List Due)) (h : bookish books = true) :
    (s.vdPlan fr ls xs align banks books on).Quiet fr.pred := ⟨rfl, bookish_vdPlan s ls xs h, rfl⟩

theorem Plan.Quiet.pipe64 {pr : Fin 16} {p : Plan} (ty : VTy) (d : Line) (h : p.Quiet pr) : (pipe64 ty d p).Quiet pr := by
  unfold Machine.pipe64
  split
  · exact ⟨h.pred, by simp [h.books], h.off⟩
  · exact h

theorem Plan.Quiet.ite {pr : Fin 16} {b : Bool} {p q : Plan} (h : p.Quiet pr) (k : q.Quiet pr) :
    (if b then p else q).Quiet pr := by
  cases b
  · exact k
  · exact h

theorem Plan.Quiet.mWord (s : State) (fr : Frame) (tok : Tok) (last : Nat) {books : List Due} (on : List Due)
    (h : bookish books = true) : (s.mWord fr tok last books on).Quiet fr.pred := ⟨rfl, h, bookish_tokPushes ..⟩

/-! ### Words of one shape -/

theorem Result.Frames.vaWord {g : Bool} (s : State) (op : VOp) (fr : Frame) (ty : VTy) (d a b : Line) :
    Result.Frames g fr.pred s (s.vaWord op fr ty d a b) := by
  have h : ∀ on, (s.vecPlan fr [(ty, d), (ty, a), (ty, b)]
      (portDue (latTwo op ty + (if op.arith && wide64 ty d then 1 else 0))) on).Quiet fr.pred :=
    fun on => .vec _ _ _ _ (bookish_portDue _)
  exact .issue (.ite (.pipe64 _ _ (h _)) (h _))

/-- A gather or scatter. -/
theorem Result.Frames.issueLoaded {g : Bool} {pr : Fin 16} {s : State} {p : Plan} {load : List Nat} (h : p.Quiet pr) :
    Result.Frames g pr s (.next (s.issueLoaded p load)) := by
  have hi := s.issue_frame (g := g) p h.frame
  have hc (os : List Owed) : ((s.issue p).setCore s.slot.core { (s.issue p).core s.slot.core with owed := os }).core s.slot.core = _ :=
    State.core_setCore_self ..
  refine .next ⟨.issueLoaded .., ?_, ?_⟩ <;> unfold State.issueLoaded <;> dsimp only <;> split
  · rw [hc]; exact hi.gm
  · exact hi.gm
  · rw [hc]; exact hi.off
  · exact hi.off

theorem Result.Frames.loadWord {g : Bool} (s : State) (fr : Frame) (tok : Tok) (land nb : Nat) (dec : List (Option Trap))
    (dev : List (Option (Trap × Bool))) (inc : List Due) (banks : List (Nat × List Nat)) (off : List Due)
    (on : Except Trap (List LBeat)) (reads : List (Home × Nat)) (hinc : bookish inc = true) (hoff : bookish off = true) :
    Result.Frames g fr.pred s (s.loadWord fr tok land nb dec dev inc banks off on reads) := by
  unfold State.loadWord
  cases on with
  | error t => exact .issue ⟨rfl, by simp [hinc], by simp [hoff]⟩
  | ok bs =>
    refine .issueThen ⟨rfl, by simp [hinc], by simp [hoff]⟩ fun t e => ?_
    have h1 := State.Beside.foldl (g := g) (fun (t : State) p => t.chargeBeat false p.1 p.2 0 (t.readSlack land p.1) land)
      (fun t p => .chargeBeat ..) reads t
    rw [e] at h1
    exact h1.trans (.addBeats_at (h1.1.slot.trans e) ..)

theorem Result.Frames.storeWord {g : Bool} {pr : Fin 16} (s : State) (w : StoreForm) (hp : w.fr.pred = pr)
    (hb : bookish w.books = true) (ho : bookish w.off = true) : Result.Frames g pr s (s.storeWord w) := by
  subst hp
  unfold State.storeWord
  dsimp only
  split
  · exact .issue ⟨rfl, by simp [hb], by simp [ho]⟩
  · exact .issueThen ⟨rfl, by simp [hb], by simp [ho]⟩ fun t e => .addBeats_at e ..

theorem Result.Frames.atomicWord {g : Bool} (s : State) (fr : Frame) (tok : Tok) (h : Except Trap (Home × Nat)) (k : OpKind)
    (sc : Scope) (rel : Bool) : Result.Frames g fr.pred s (s.atomicWord fr tok h k sc rel) := by
  unfold State.atomicWord
  cases h with
  | error t => exact .issue ⟨rfl, rfl, bookish_tokPushes ..⟩
  | ok x => exact .issueThen ⟨rfl, rfl, bookish_tokPushes ..⟩ fun t e => .newOp_at e ..

theorem Result.Frames.ctxWord (s : State) (fr : Frame) (dec : List (Option Trap)) (refs drops : List Nat) (lat : Nat)
    (es : List Effect) : Result.Frames true fr.pred s (s.ctxWord fr dec refs drops lat es) :=
  .issueThen ⟨rfl, rfl, rfl⟩ fun t e => .setGM_at e ..

theorem Result.Frames.recordWord (s : State) (fr : Frame) (x : BufAddr) (dec data : List (Option Trap)) (bankAt : Nat)
    (refs drops : List Nat) (es : List Effect) : Result.Frames true fr.pred s (s.recordWord fr x dec data bankAt refs drops es) :=
  .issueThen ⟨rfl, by simp, rfl⟩ fun t e => .setGM_at e ..

theorem Result.Frames.register {g : Bool} (s : State) (fr : Frame) (dec pre : Option Trap) (r : GateReg) :
    Result.Frames g fr.pred s (s.register fr dec pre r) := .issueThen ⟨rfl, rfl, rfl⟩ fun t e => .setGates_at e ..

/-- The image port held. -/
theorem State.holdBeats_frame {pr : Fin 16} {s t : State} (a n : Nat) (h : s.WordFrame true pr t) :
    s.WordFrame true pr (t.holdBeats a n) := by
  have hc : (t.holdBeats a n).cores = t.cores ∧ (t.holdBeats a n).agenda = t.agenda ∧ (t.holdBeats a n).outputs = t.outputs
      ∧ (t.holdBeats a n).mod = t.mod := by
    unfold State.holdBeats
    dsimp only
    repeat' split
    all_goals exact ⟨rfl, rfl, rfl, rfl⟩
  obtain ⟨hcores, hag, hout, hmod⟩ := hc
  have hcore : (t.holdBeats a n).core s.slot.core = t.core s.slot.core := by simp only [State.core, hcores]
  refine ⟨h.keeps.trans (.holdBeats ..), nofun, fun hl hoff => ?_⟩
  rw [hcore] at hl ⊢
  obtain ⟨hb, h1, h2, h3⟩ := h.off hl hoff
  exact ⟨hb, hag.trans h1, hout.trans h2, hmod.trans h3⟩

/-- A receiving word. -/
theorem Result.Frames.receive {g : Bool} (s : State) (fr : Frame) (path : Path) (d : Desc) (dec : List (Option Trap))
    (dev : List (Option (Trap × Bool))) (span : Nat) (inc : List Due) (banks : List (Nat × List Nat)) (data : List (Option Trap))
    (jobs : List (Nat × Nat × RecvJob)) (hinc : bookish inc = true) :
    Result.Frames g fr.pred s (s.receive fr path d dec dev span inc banks data jobs) := by
  refine ⟨fun t h => ?_⟩
  have hk := State.Keeps.receive s t _ _ _ _ _ _ _ _ _ _ h
  unfold State.receive at h
  have hq : ∀ plan : Plan, plan.Quiet fr.pred → Host.Outcome.next (if ((s.issue plan).core s.slot.core).halted
      || ((s.issue plan).core s.slot.core).stalled.isSome then s.issue plan else (s.issue plan).takeUp path d.peer) = (.next t : Result) →
      s.WordFrame g fr.pred t := by
    intro plan hp e
    have hi := s.issue_frame (g := g) plan hp.frame
    have hs := s.issue_slot plan
    split at e <;> obtain rfl := Host.Outcome.next.inj e
    · exact hi
    · have hc : ((s.issue plan).takeUp path d.peer).core s.slot.core = { (s.issue plan).core s.slot.core with
          arrivals := (((s.issue plan).takeUp path d.peer).core s.slot.core).arrivals } := by
        unfold State.takeUp
        rw [hs, State.core_setCore_self]
      refine ⟨hk, ?_, ?_⟩ <;> rw [hc]
      · exact hi.gm
      · exact hi.off
  refine hq _ ⟨rfl, ?_, ?_⟩ h
  · simp [hinc, bookish_flatMap, bookish_banksAt]
  · exact bookish_map _ _ fun _ => rfl

end Sys2Proof.Machine
end

section
/-! PROOF. The frame of a word at its issue (O58): every word, by its format. -/

namespace Sys2Proof.Machine

/-! ### The fields of a word -/

theorem fld_wordOf_engine (e : Eng) (op : Nat) (w p : Fin 16) (body : Nat) : fld (wordOf e op w p body) 63 61 = e.code := by
  have he : e.code < 8 := by cases e <;> decide
  simp only [fld, wordOf, pack]
  omega

theorem fld_wordOf_pred (e : Eng) (op : Nat) (w p : Fin 16) (body : Nat) : Fin.ofNat 16 (fld (wordOf e op w p body) 49 46) = p := by
  apply Fin.ext
  have hp := p.isLt
  simp only [fld, wordOf, pack, Fin.ofNat]
  omega

/-- The frame of a result, for the word that encodes its instruction. -/
theorem Result.Frames.of_encode {i : Instr} {x : Nat} {e : Eng} {op : Nat} {w p : Fin 16} {body : Nat} {s : State}
    (henc : encode i = some (wordOf e op w p body)) (h : encode i = some x) (hf : Result.Frames (e == .G) p s (exec i s)) :
    Result.Frames (fld x 63 61 == 7) (Fin.ofNat 16 (fld x 49 46)) s (exec i s) := by
  obtain rfl : wordOf e op w p body = x := Option.some.inj (henc.symm.trans h)
  rw [fld_wordOf_engine, fld_wordOf_pred]
  have : (e.code == 7) = (e == .G) := by cases e <;> rfl
  rwa [this]

/-! ### Words of several forms -/

/-- The predicate p0 is always true (R27). -/
theorem State.predOff_zero (s : State) : s.predOff 0 = false := rfl

/-- A word without a predicate is never off. -/
theorem Result.Frames.always {g : Bool} {s : State} {p : Plan} (hp : p.pred = 0) {f : State → State}
    (hf : ∀ t : State, t.slot = s.slot → t.Beside g s.slot.core (f t)) : Result.Frames g 0 s (.next (s.issueThen p f)) :=
  .next (s.issueThen_frame p f (fun h => by simp [s.predOff_zero] at h) hf)
theorem Result.Frames.plain {g : Bool} {s : State} {p : Plan} (hp : p.pred = 0) : Result.Frames g 0 s (.next (s.issue p)) :=
  .next (s.issue_frame p fun h => by simp [s.predOff_zero] at h)

theorem execSLdm_frames {g : Bool} (fr d a off sz sx land) (s : State) :
    Result.Frames g fr.pred s (execSLdm fr d a off sz sx land s) := by
  unfold execSLdm
  dsimp only
  split
  · exact .issue ⟨rfl, rfl, rfl⟩
  · exact .issueThen ⟨rfl, rfl, rfl⟩ fun t e => .addBeat_at e ..

theorem execSStm_frames {g : Bool} (fr d a off sz land) (s : State) : Result.Frames g fr.pred s (execSStm fr d a off sz land s) := by
  unfold execSStm
  dsimp only
  split
  · exact .issue ⟨rfl, rfl, rfl⟩
  · exact .issueThen ⟨rfl, rfl, rfl⟩ fun t e => .addBeat_at e ..

theorem execSLoop_frames {g : Bool} (w depth trip words) (s : State) : Result.Frames g 0 s (execSLoop w depth trip words s) := by
  unfold execSLoop
  dsimp only
  split
  · exact .plain rfl
  · refine .always rfl fun t e => State.Beside.setCore_at e rfl ?_ rfl rfl
    exact ⟨rfl, rfl, rfl, rfl, rfl, rfl, rfl, rfl, rfl, rfl, rfl, rfl, rfl, rfl, rfl⟩

/-- `y.rdv` signs its core off, or stops it. -/
theorem execYRdv_frames {g : Bool} (w) (s : State) : Result.Frames g 0 s (execYRdv w s) := by
  unfold execYRdv
  dsimp only
  split
  · have h1 : (s.undoTick s.slot.core).Keeps s.slot.core ((s.undoTick s.slot.core).setCore s.slot.core
        { (s.undoTick s.slot.core).core s.slot.core with signed := true }) :=
      .setCore _ _ _ id (fun _ => ⟨rfl, rfl, rfl, rfl, rfl, rfl, rfl, rfl, rfl, rfl, rfl, rfl, rfl, rfl, rfl⟩) id
    have h2 := h1.trans (State.Keeps.beginAbort s.slot.core _ ((s.undoTick s.slot.core).partOf s.slot.core)
      ⟨0x0A, 1, some s.slot.core, some s.src, 0, 0,
        ((s.core s.slot.core).leftWords s.slot.tick).flatMap (leBytes 2)⟩)
    exact .next (.halts ((State.Keeps.undoTick ..).trans h2) (h2.halted (s.undoTick_halted _)))
  · refine .always rfl fun t e => .setCore rfl ?_ rfl rfl
    exact ⟨rfl, rfl, rfl, rfl, rfl, rfl, rfl, rfl, rfl, rfl, rfl, rfl, rfl, rfl, rfl⟩

/-- `y.brk` halts its core, or has no effect. -/
theorem execYBrk_frames {g : Bool} (fr v) (s : State) : Result.Frames g fr.pred s (execYBrk fr v s) := by
  unfold execYBrk
  dsimp only
  split
  · have h1 := State.Keeps.debugFreeze s s.slot.core .Y
    have h2 : ((s.debugFreeze s.slot.core .Y).core s.slot.core).halted = true := by
      unfold State.debugFreeze
      dsimp only
      split
      · exact s.undoTick_halted _
      · exact ((State.Keeps.setPart ..).trans (State.Keeps.tellGroup ..)).halted (s.undoTick_halted _)
    have h3 : (s.debugFreeze s.slot.core .Y).Keeps s.slot.core ((s.debugFreeze s.slot.core .Y).setCore s.slot.core
        { (s.debugFreeze s.slot.core .Y).core s.slot.core with brk := some v.toNat }) :=
      .setCore _ _ _ id (fun _ => ⟨rfl, rfl, rfl, rfl, rfl, rfl, rfl, rfl, rfl, rfl, rfl, rfl, rfl, rfl, rfl⟩) id
    exact .next (.halts (h1.trans h3) (h3.halted h2))
  · exact .issue ⟨rfl, rfl, rfl⟩

theorem execMFeed_frames {g : Bool} (fr tok src) (s : State) : Result.Frames g fr.pred s (execMFeed fr tok src s) := by
  cases src with
  | imm i => exact .issue (.mWord _ _ _ _ _ rfl)
  | reg a post => exact .issue (.mWord _ _ _ _ _ (bookish_postInc ..))

theorem macWord_frames {g : Bool} (s : State) (fr tok qa qb l rows dm init peek s5 sparse) :
    Result.Frames g fr.pred s (s.macWord fr tok qa qb l rows dm init peek s5 sparse) := by
  refine .issue ⟨rfl, bookish_lineInc .., ?_⟩
  rw [bookish_append, bookish_map _ _ fun _ => rfl, bookish_tokPushes]
  rfl

theorem execMWld_frames {g : Bool} (fr tok qa qb s5) (s : State) : Result.Frames g fr.pred s (execMWld fr tok qa qb s5 s) := by
  refine .issueThen ⟨rfl, rfl, ?_⟩ fun t e => State.Beside.setCore_at e ?_ ?_ ?_ ?_
  · rw [bookish_append, bookish_map _ _ fun _ => rfl, bookish_tokPushes]
    rfl
  all_goals unfold Core.setWset; split
  all_goals first | rfl | exact ⟨rfl, rfl, rfl, rfl, rfl, rfl, rfl, rfl, rfl, rfl, rfl, rfl, rfl, rfl, rfl⟩

theorem execVCvte_frames {g : Bool} (fr ty h16 toH16 hi d a mk) (s : State) :
    Result.Frames g fr.pred s (execVCvte fr ty h16 toH16 hi d a mk s) := by
  cases toH16 <;> exact .issue (.vec _ _ _ _ (bookish_portDue _))

theorem execLGather_frames {g : Bool} (fr tok x sc desc land) (s : State) :
    Result.Frames g fr.pred s (execLGather fr tok x sc desc land s) := by
  unfold execLGather
  dsimp only
  split
  · exact .issue ⟨rfl, by simp [bookish_flatMap], bookish_tokPushes ..⟩
  · exact .issueThen ⟨rfl, by simp [bookish_flatMap], bookish_tokPushes ..⟩ fun t e => .addBeats_at e ..

theorem execXPut_frames {g : Bool} (fr sem x sc desc) (s : State) : Result.Frames g fr.pred s (execXPut fr sem x sc desc s) := by
  unfold execXPut
  dsimp only
  split
  · exact .issue ⟨rfl, by simp, rfl⟩
  · exact .issueThen ⟨rfl, by simp, rfl⟩ fun t e => .newOp_at e ..

theorem execXSend_frames {g : Bool} (fr path src desc land) (s : State) :
    Result.Frames g fr.pred s (execXSend fr path src desc land s) := by
  cases src with
  | ab x => exact .issue ⟨rfl, by simp, bookish_map _ _ fun _ => rfl⟩
  | ring q => exact .issue ⟨rfl, by simp, bookish_map _ _ fun _ => rfl⟩

theorem execGStep_frames (fr c src ls) (s : State) : Result.Frames true fr.pred s (execGStep fr c src ls s) := by
  have h : ∀ (p : Plan) (m : State → GM), p.Quiet fr.pred →
      s.WordFrame true fr.pred (s.issueThen p fun t => t.setGM (m t)) := fun p m hp =>
    s.issueThen_frame p _ hp.frame fun t e => .setGM_at e ..
  refine .next (State.holdBeats_frame _ _ (h _ _ ⟨rfl, ?_, rfl⟩))
  cases src <;> simp

theorem execGMask_frames (fr c x v lm) (s : State) : Result.Frames true fr.pred s (execGMask fr c x v lm s) :=
  .next (State.holdBeats_frame _ _ (s.issue_frame _ (Plan.Quiet.frame ⟨rfl, by simp [bookish_flatMap], rfl⟩)))

theorem execGBind_frames (fr c sc) (s : State) : Result.Frames true fr.pred s (execGBind fr c sc s) :=
  .next (State.holdBeats_frame _ _ (s.issue_frame _ (Plan.Quiet.frame ⟨rfl, bookish_holdDues _, rfl⟩)))

/-- Every word but `x.align` meets the frame. -/
theorem exec_frames {i : Instr} {s : State} {w : Nat} (h : encode i = some w) (hi : ∀ fr path x, i ≠ .xAlign fr path x) :
    Result.Frames (fld w 63 61 == 7) (Fin.ofNat 16 (fld w 49 46)) s (exec i s) := by
  cases i with
  | sNop | yNop | vNop | xNop | gNop => exact .of_encode rfl h (.plain rfl)
  | sLdm fr d a off sz sx land => exact .of_encode rfl h (execSLdm_frames ..)
  | sStm fr d a off sz land => exact .of_encode rfl h (execSStm_frames ..)
  | sLoop w depth trip words => exact .of_encode rfl h (execSLoop_frames w depth trip words s)
  | sAdd | sSub | sMul | sMulh | sMulhu | sDiv | sDivu | sRem | sRemu | sAnd | sOr | sXor | sShl | sShr | sSar | sMin | sMax
  | sMinu | sMaxu | sClz | sPopc | sAddi | sAndi | sOri | sXori | sShli | sShri | sSari | sMuli | sLi | sLih | sCmp | sCmpi
  | sPand | sPor | sPxor | sPnot | sAddF64 | sSubF64 | sMulF64 | sDivF64 | sFmaF64 | sSqrtF64 | sMinF64 | sMaxF64 | sCmpF64
  | sCvtF64S64 | sCvtS64F64 | sClassF64 | sLd | sSt | sRdctl | sWrctl | sRda | sWra | sRdq | sWrq | sRdk | sWrk | sRnd
  | ySeminit | ySemclr | yTokpush | yTokpop | yTrap =>
    exact .of_encode rfl h (.issue ⟨rfl, rfl, rfl⟩)
  | yExport fr e => cases e <;> exact .of_encode rfl h (.issue ⟨rfl, rfl, rfl⟩)
  | yRdv w => exact .of_encode rfl h (execYRdv_frames w s)
  | yGate fr g src => cases src <;> exact .of_encode rfl h (.register ..)
  | yGatesem fr n v => exact .of_encode rfl h (.register ..)
  | yGateclr fr g => cases g <;> exact .of_encode rfl h (.issueThen ⟨rfl, rfl, rfl⟩ fun t e => .setGates_at e ..)
  | yFence w sc => exact .of_encode rfl h (.always rfl fun t e => State.Beside.setCore_at e rfl
      ⟨rfl, rfl, rfl, rfl, rfl, rfl, rfl, rfl, rfl, rfl, rfl, rfl, rfl, rfl, rfl⟩ rfl rfl)
  | yBrk fr v => exact .of_encode rfl h (execYBrk_frames ..)
  | yStamp fr v => exact .of_encode rfl h (.issueThen ⟨rfl, rfl, rfl⟩ fun t e => State.Beside.setCore_at e rfl
      ⟨rfl, rfl, rfl, rfl, rfl, rfl, rfl, rfl, rfl, rfl, rfl, rfl, rfl, rfl, rfl⟩ rfl rfl)
  | mNop w tok idle => exact .of_encode rfl h (.plain rfl)
  | mWld fr tok qa qb s5 => exact .of_encode rfl h (execMWld_frames ..)
  | mSwap fr tok => exact .of_encode rfl h (.issueThen (.mWord _ _ _ _ _ rfl) fun t e => State.Beside.setCore_at e rfl
      ⟨rfl, rfl, rfl, rfl, rfl, rfl, rfl, rfl, rfl, rfl, rfl, rfl, rfl, rfl, rfl⟩ rfl rfl)
  | mMacS9 | mMacS5 | mSpmacS9 => exact .of_encode rfl h (macWord_frames ..)
  | mShape | mXbase => exact .of_encode rfl h (.issue (.mWord _ _ _ _ _ rfl))
  | mWake fr tok mask => exact .of_encode rfl h (.issueThen (.mWord _ _ _ _ _ rfl) fun t e => State.Beside.setCore_at e rfl
      ⟨rfl, rfl, rfl, rfl, rfl, rfl, rfl, rfl, rfl, rfl, rfl, rfl, rfl, rfl, rfl⟩ rfl rfl)
  | mSleep fr tok mask => exact .of_encode rfl h (.issue ⟨rfl, rfl, bookish_tokPushes ..⟩)
  | mFeed fr tok src =>
    cases src with
    | imm i => exact .of_encode rfl h (execMFeed_frames fr tok (.imm i) s)
    | reg a post => exact .of_encode rfl h (execMFeed_frames fr tok (.reg a post) s)
  | vAdd | vSub | vMul | vFma | vFms | vMin | vMax | vAnd | vOr | vXor | vDiv => exact .of_encode rfl h (.vaWord ..)
  | vAbs | vNeg | vNot | vMov | vShl | vShr | vSar | vRshr | vSel | vBcast | vCvt | vScale | vExp2 | vLog2 | vRecip | vRsqrt
  | vSinpi | vCospi | vPerm | vLshift | vLrot | vRsum | vRmax | vRmin | vScan | vArgmax | vArgmin =>
    exact .of_encode rfl h (.issue (.vec _ _ _ _ (bookish_portDue _)))
  | vRot fr ty l tagq k blk inv rnd => cases tagq <;> exact .of_encode rfl h (.issue (.vec _ _ _ _ (bookish_portDue _)))
  | vCmp | vMatch => exact .of_encode rfl h (.issue (.vec _ _ _ _ rfl))
  | vCvte fr ty h16 toH16 hi d a mk => exact .of_encode rfl h (execVCvte_frames ..)
  | vCvtx fr ty toX d a sc mk =>
    exact .of_encode rfl h (.issue (.ite (.vec _ _ _ _ (bookish_portDue _)) (.vec _ _ _ _ (bookish_portDue _))))
  | vSqrt fr ty d a mk => exact .of_encode rfl h (.issue (.pipe64 _ _ (.vec _ _ _ _ (bookish_portDue _))))
  | vSliceF64 fr q a sc => exact .of_encode rfl h (.issue ⟨rfl, bookish_vecPlan _ _ rfl, rfl⟩)
  | vNarrow fr ty l q fmt k blk free rnd mk =>
    exact .of_encode rfl h (.issue ⟨rfl, bookish_vecPlan _ _ (by split <;> rfl), bookish_pushesFrom ..⟩)
  | vRndfill fr ty d q mk => exact .of_encode rfl h (.issue ⟨rfl, bookish_vecPlan _ _ (by simp), rfl⟩)
  | vLd | vSt => exact .of_encode rfl h (.issue (.vd _ _ _ _ _ _ _ (by simp)))
  | vPop | vPush => exact .of_encode rfl h (.issue ⟨rfl, bookish_vdPlan _ _ _ (by simp), rfl⟩)
  | vGather | vBtest | vScatter | vBset =>
    exact .of_encode rfl h (.issueLoaded ⟨rfl, bookish_vdPlan _ _ _ (by simp), rfl⟩)
  | vMand | vMor | vMxor | vMnot | vMset | vMcount => exact .of_encode rfl h (.issue ⟨rfl, rfl, rfl⟩)
  | lNop | wNop => exact .of_encode rfl h (.plain rfl)
  | lTile | lHalo | lRow => exact .of_encode rfl h (.loadWord _ _ _ _ _ _ _ _ _ _ _ _ (bookish_incs ..) rfl)
  | lNarrow => exact .of_encode rfl h (.loadWord _ _ _ _ _ _ _ _ _ _ _ _ rfl (bookish_map _ _ fun _ => rfl))
  | lCsr => exact .of_encode rfl h (.loadWord _ _ _ _ _ _ _ _ _ _ _ _ (bookish_incs ..) (bookish_map _ _ fun _ => rfl))
  | lRing => exact .of_encode rfl h (.loadWord _ _ _ _ _ _ _ _ _ _ _ _ rfl (bookish_flatMap _ _ fun _ => by split <;> rfl))
  | lGather fr tok x sc desc land => exact .of_encode rfl h (execLGather_frames ..)
  | wTile fr tok src sc desc land =>
    cases src with
    | ab x => exact .of_encode rfl h (.storeWord _ _ rfl (bookish_incs ..) rfl)
    | ring q => exact .of_encode rfl h (.storeWord _ _ rfl rfl (bookish_map _ _ fun _ => rfl))
  | wAcc | wRow => exact .of_encode rfl h (.storeWord _ _ rfl (bookish_incs ..) rfl)
  | wFilt => exact .of_encode rfl h (.storeWord _ _ rfl (by simp [Act.isBook, Effect.isBook]) rfl)
  | wAmo | wSig => exact .of_encode rfl h (.atomicWord ..)
  | xSend fr path src desc land =>
    cases src with
    | ab x => exact .of_encode rfl h (execXSend_frames fr path (.ab x) desc land s)
    | ring q => exact .of_encode rfl h (execXSend_frames fr path (.ring q) desc land s)
  | xRecv fr path dst desc =>
    cases dst with
    | ab x | wb x => exact .of_encode rfl h (.receive _ _ _ _ _ _ _ _ _ _ _ (bookish_incs ..))
    | ring q => exact .of_encode rfl h (.receive _ _ _ _ _ _ _ _ _ _ _ rfl)
  | xRed => exact .of_encode rfl h (.receive _ _ _ _ _ _ _ _ _ _ _ (bookish_incs ..))
  | xFwd => exact .of_encode rfl h (.receive _ _ _ _ _ _ _ _ _ _ _ rfl)
  | xPut => exact .of_encode rfl h (execXPut_frames ..)
  | xSig => exact .of_encode rfl h (.issueThen ⟨rfl, rfl, rfl⟩ fun t e => .newOp_at e ..)
  | xAlign fr path x => exact absurd rfl (hi fr path x)
  | gBind => exact .of_encode rfl h (execGBind_frames ..)
  | gStep fr c src ls =>
    cases src with
    | ab x => exact .of_encode rfl h (execGStep_frames fr c (.ab x) ls s)
    | reg a => exact .of_encode rfl h (execGStep_frames fr c (.reg a) ls s)
  | gMask => exact .of_encode rfl h (execGMask_frames ..)
  | gFork | gMark | gRollback | gCommit | gFree => exact .of_encode rfl h (.ctxWord ..)
  | gSave | gRestore | gState => exact .of_encode rfl h (.recordWord ..)
  | _ => cases h

/-! ### The alignment beat -/

/-- A late fault changes only the core it stops. -/
theorem State.lateFault_others (s : State) (c d : Fin 96) (x : Src) (t : Trap) :
    (s.lateFault c x t).core d = s.core d ∨ ((s.lateFault c x t).core d).halted = true := by
  by_cases h : d = c
  · subst h
    exact .inr (((State.Keeps.setPart ..).trans (State.Keeps.beginAbort ..)).halted (by rw [State.core_setCore_self]))
  · exact .inl ((State.Keeps.lateFault s c x t).others d h)

/-- The torus port given to a beat: the state stays, but that a core may stop whose beat finds its port taken (R291). -/
structure State.PortFrame (s t : State) : Prop where
  mem : s.sameMemory t
  now : t.now = s.now
  slot : t.slot = s.slot
  cores : ∀ d : Fin 96, t.core d = s.core d ∨ (t.core d).halted = true
  wf : s.memWf = true → t.memWf = true

theorem State.torusPort_frame (s : State) (c : Fin 96) (x : Src) (path : Path) : s.PortFrame (s.torusPort c x path) := by
  have hset (p : Nat) (v : Part) : s.PortFrame (s.setPart p v) :=
    ⟨⟨rfl, rfl, rfl⟩, rfl, rfl, fun _ => .inl rfl, (State.Keeps.setPart c s p v).wf⟩
  unfold State.torusPort
  dsimp only
  split
  · exact hset _ _
  · have hk (e : Fin 96) (y : Src) (t : Trap) (u : State) (h : s.PortFrame u) : s.PortFrame (u.lateFault e y t) := by
      have k := State.Keeps.lateFault u e y t
      obtain ⟨⟨m1, m2, m3⟩, hnow, hslot, hcores, hwf⟩ := h
      obtain ⟨k1, k2, k3⟩ := k.mem
      refine ⟨⟨m1.trans k1, m2.trans k2, m3.trans k3⟩, k.now.trans hnow, k.slot.trans hslot, fun d => ?_, fun hs => k.wf (hwf hs)⟩
      rcases u.lateFault_others e d y t with h | h
      · rw [h]; exact hcores d
      · exact .inr h
    exact hk _ _ _ _ (hset _ _)

/-- The plan of `x.align`, and its beat. -/
theorem execXAlign_shape (fr : Frame) (path : Path) (x : BufAddr) (s : State) : ∃ p : Plan, p.Quiet fr.pred ∧
    execXAlign fr path x s = .next (s.issueThen p fun t => (t.torusPort t.slot.core t.src path).emit (.alignBeat t.slot.core path)) :=
  ⟨_, ⟨rfl, by simp, rfl⟩, rfl⟩

theorem State.issueThen_cases (s : State) (p : Plan) (f : State → State) :
    s.issueThen p f = s.issue p ∨ (s.runs p = true ∧ s.issueThen p f = f (s.issue p)) := by
  unfold State.issueThen
  split
  · exact .inr ⟨‹_›, rfl⟩
  · exact .inl rfl

/-! ### The frame -/

/-- What O58 says of a word with predicate pr, of engine G or not, where `stops` says which other cores it may stop. -/
def State.Framed (g : Bool) (pr : Fin 16) (stops : Core → Prop) (s t : State) : Prop :=
  s.sameMemory t ∧ t.now = s.now ∧ (∀ d : Fin 96, d ≠ s.slot.core → t.core d = s.core d ∨ stops (t.core d))
    ∧ (t.live = true → (s.core s.slot.core).sameData (t.core s.slot.core)
      ∧ (g = false → (t.core s.slot.core).gm = (s.core s.slot.core).gm))
    ∧ (t.live = true → s.predOff pr = true → (s.core s.slot.core).booksOnly (t.core s.slot.core) ∧ t.agenda = s.agenda
      ∧ t.outputs = s.outputs ∧ t.mod = s.mod)

theorem State.WordFrame.framed {g : Bool} {pr : Fin 16} {stops : Core → Prop} {s t : State} (h : s.WordFrame g pr t) :
    s.Framed g pr stops t := by
  have hl (hlive : t.live = true) : (t.core s.slot.core).halted = false := by
    simpa [State.live, h.keeps.slot] using hlive
  exact ⟨h.keeps.mem, h.keeps.now, fun d hd => .inl (h.keeps.others d hd), fun e => ⟨h.keeps.data (hl e), h.gm (hl e)⟩,
    fun e => h.off (hl e)⟩

/-- A core that runs after the port was given is the core that ran before. -/
theorem State.PortFrame.core_of_live {s t : State} {c : Fin 96} (h : s.PortFrame t) (hc : s.slot.core = c) (hl : t.live = true) :
    t.core c = s.core c ∧ s.live = true := by
  subst hc
  have hn : (t.core s.slot.core).halted = false := by simpa [State.live, h.slot] using hl
  rcases h.cores s.slot.core with e | e
  · exact ⟨e, by rw [e] at hn; simpa [State.live] using hn⟩
  · rw [e] at hn; cases hn

theorem execXAlign_framed {fr : Frame} {path : Path} {x : BufAddr} {s t : State} (h : execXAlign fr path x s = .next t) :
    s.Framed false fr.pred (fun c => c.halted = true) t := by
  obtain ⟨p, hq, hshape⟩ := execXAlign_shape fr path x s
  obtain rfl := Host.Outcome.next.inj (hshape.symm.trans h)
  have hissue := s.issue_frame (g := false) p hq.frame
  have hslot := hissue.keeps.slot
  rcases s.issueThen_cases p fun t => (t.torusPort t.slot.core t.src path).emit (.alignBeat t.slot.core path) with e | ⟨hruns, e⟩
  · rw [e]
    exact hissue.framed
  · rw [e]
    have hport := (s.issue p).torusPort_frame (s.issue p).slot.core (s.issue p).src path
    obtain ⟨⟨m1, m2, m3⟩, hnow, hothers, hdata, -⟩ := hissue.framed (stops := fun _ => False)
    obtain ⟨k1, k2, k3⟩ := hport.mem
    refine ⟨⟨m1.trans k1, m2.trans k2, m3.trans k3⟩, hport.now.trans hnow, fun d hd => ?_, fun hl => ?_, fun _ hoff => ?_⟩
    · exact (hport.cores d).imp_left fun e => e.trans ((hothers d hd).resolve_right id)
    · obtain ⟨hcore, hlive⟩ := hport.core_of_live (congrArg Slot.core hslot) hl
      have := hdata hlive
      rwa [← hcore] at this
    · exact absurd (hq.pred ▸ hoff) (State.runs_not_off hruns)

/-- Settles O58: every word but `x.align` keeps its frame by its format; `x.align` may also stop the core whose beat finds its torus
port taken. -/
theorem frameAtIssue : Obligations.FrameAtIssue := by
  unfold Obligations.FrameAtIssue
  intro i s t w henc hexec
  dsimp only
  by_cases hi : ∀ fr path x, i ≠ .xAlign fr path x
  · obtain ⟨hmem, hnow, hothers, hdata, hoff⟩ := ((exec_frames henc hi).of_next t hexec).framed (stops := fun _ => False)
    exact ⟨hmem, hnow, fun d hd => .inl ((hothers d hd).resolve_right id),
      fun e => ⟨(hdata e).1, fun hw => (hdata e).2 (by simpa using hw)⟩, hoff⟩
  · simp only [ne_eq, Classical.not_forall, Classical.not_not] at hi
    obtain ⟨fr, path, x, rfl⟩ := hi
    obtain ⟨hmem, hnow, hothers, hdata, hoff⟩ := execXAlign_framed hexec
    obtain rfl : wordOf .X 0x06 fr.wait fr.pred (xBody 0 0 path.code x 0 0 0) = w := Option.some.inj henc
    rw [fld_wordOf_pred, fld_wordOf_engine]
    exact ⟨hmem, hnow, fun d hd => (hothers d hd).imp_right fun h => ⟨h, fr, path, x, rfl⟩,
      fun e => ⟨(hdata e).1, fun _ => (hdata e).2 rfl⟩, hoff⟩

end Sys2Proof.Machine
end

section
/-! PROOF. Every step keeps every memory in canonical form (O60): faults, and the ticks of a phase. -/

namespace Sys2Proof.Machine

/-! ### Updates -/

/-- A core replaced by one with memories in form. -/
theorem State.put_memWf (s : State) (c : Nat) (v : Core) (h : s.memWf = true) (hv : v.memWf = (s.core c).memWf) :
    (s.setCore c v).memWf = true := s.setCore_memWf c v h (hv.trans (s.core_memWf c h))

@[simp] theorem Core.due_memWf (c : Core) (x : Src) (t o : Nat) (a : Act) : (c.due x t o a).memWf = c.memWf := rfl
@[simp] theorem Core.dueAll_memWf (c : Core) (x : Src) (t : Nat) (ds : List Due) : (c.dueAll x t ds).memWf = c.memWf :=
  (Core.dueAll_keeps x t ds c).2.2
@[simp] theorem Core.wset_memWf (c : Core) (b : Bool) (w : WSet) : (c.setWset b w).memWf = c.memWf := by
  cases b <;> rfl

/-- Changes one after another. -/
theorem State.foldl_memWf {β : Type} (f : State → β → State) (l : List β) (s : State) (h : s.memWf = true)
    (hf : ∀ (t : State) b, t.memWf = true → (f t b).memWf = true) : (l.foldl f s).memWf = true :=
  foldl_keeps (fun t : State => t.memWf = true) f l s h fun t b ht => hf t b ht

/-! ### Faults -/

@[simp] theorem State.interrupt_mem (s : State) (p v : Nat) : (s.msix p v).memWf = s.memWf := by
  unfold State.msix
  dsimp only
  split <;> rfl

@[simp] theorem State.putRecord_memWf (s : State) (p : Nat) (r : FaultRec) : (s.putRecord p r).memWf = s.memWf := by
  unfold State.putRecord
  dsimp only
  split
  · rfl
  · exact (State.interrupt_memWf ..).trans rfl

@[simp] theorem State.cancelSequencer_memWf (s : State) (p : Nat) : (s.cancelSequencer p).memWf = s.memWf := rfl

@[simp] theorem State.recordFault_memWf (s : State) (p : Nat) (f : FaultInfo) (n : Nat) (b : Bool) :
    (s.recordFault p f n b).memWf = s.memWf := by
  unfold State.recordFault
  simp

@[simp] theorem State.stopQueue_memWf (s : State) (p q e i : Nat) : (s.stopQueue p q e i).memWf = s.memWf := by
  unfold State.stopQueue
  simp

@[simp] theorem State.stopJob_memWf (s : State) (p n : Nat) (f : FaultInfo) (b : Bool) : (s.stopJob p n f b).memWf = s.memWf := by
  unfold State.stopJob
  dsimp only
  split <;> simp

@[simp] theorem State.slackFault_memWf (s : State) (p n : Nat) (f : FaultInfo) (b : Bool) :
    (s.slackFault p n f b).memWf = s.memWf := by simp [State.slackFault]

theorem State.undo_memWf {s : State} {c : Nat} {b : Core} (h : s.memWf = true) (hb : mapGet s.undo c = some b) : b.memWf = true := by
  obtain ⟨-, -, -, -, h5⟩ := (State.memWf_iff s).mp h
  obtain ⟨d, hd, rfl⟩ := mapGet_mem _ _ _ hb
  exact h5 d hd

theorem State.haltCore_memWf (s : State) (c : Fin 96) (h : s.memWf = true) : (s.haltCore c).memWf = true := by
  unfold State.haltCore
  split
  · rename_i base hb
    dsimp only
    split
    · obtain ⟨h1, h2, h3, -, h5, -⟩ := (Core.memWf_iff _).mp (s.core_memWf c h)
      obtain ⟨-, -, -, g4, -, g6⟩ := (Core.memWf_iff _).mp (State.undo_memWf h hb)
      exact State.setCore_memWf _ _ _ (s.undoCore_memWf c _ h) ((Core.memWf_iff _).mpr ⟨h1, h2, h3, g4, h5, g6⟩)
    · exact s.put_memWf _ _ h rfl
  · exact s.put_memWf _ _ h rfl

theorem State.eventFault_memWf (s : State) (p : Nat) (c : Option (Fin 96)) (f : FaultInfo) (h : s.memWf = true) :
    (s.eventFault p c f).memWf = true := by
  have hfault (t : State) (ht : t.memWf = true) :
      State.memWf (let u := t.takeFault p (s.eventTick p) f
        if (s.part p).abort.isNone then u.tellGroup p else u) = true := by
    dsimp only
    split <;> simpa using ht
  unfold State.eventFault
  split
  · cases c with
    | none => exact hfault _ h
    | some c => exact hfault _ (s.haltCore_memWf c h)
  · cases c with
    | none => exact hfault _ h
    | some c => exact hfault _ (s.haltCore_memWf c h)
  · simpa using h
  · simpa using h

theorem State.stopWord_memWf (s : State) (c : Fin 96) (x : Src) (t : Trap) (n : Nat) (h : s.memWf = true) :
    (s.stopWord c x t n).memWf = true := (State.Keeps.stopWord s c x t n).wf h

@[simp] theorem State.remoteFault_memWf (s : State) (c : Fin 96) (x : Src) (t : Trap) : (s.remoteFault c x t).memWf = s.memWf := by
  simp [State.remoteFault]

/-! ### Stacks -/

theorem State.lateBeat_memWf (s : State) (p k : Nat) (b : Beat) (h : s.memWf = true) : (s.lateBeat p k b).memWf = true := by
  unfold State.lateBeat
  dsimp only
  split
  · exact h
  split
  · exact s.put_memWf _ _ h rfl
  split
  · exact h
  · exact State.lateFault_memWf _ _ _ _ (s.undoCore_memWf _ _ h)

theorem State.servedLate_memWf (s : State) (k : Nat) (b : Beat) (h : s.memWf = true) : (s.servedLate k b).memWf = true := by
  unfold State.servedLate
  dsimp only
  split
  · exact s.put_memWf _ _ h rfl
  · exact h

theorem State.serveStacks_memWf (s : State) (p : Nat) (h : s.memWf = true) : (s.serveStacks p).memWf = true := by
  unfold State.serveStacks
  exact State.foldl_memWf _ _ _ (State.foldl_memWf _ _ _ h fun t b ht => t.servedLate_memWf _ b ht)
    fun t b ht => t.lateBeat_memWf _ _ b ht

/-! ### The end of a tick -/

@[simp] theorem Core.fetch_memWf (c : Core) (n : Nat) : (c.fetch n).memWf = c.memWf := by
  induction n generalizing c with
  | zero => rfl
  | succ n ih =>
    unfold Core.fetch
    split
    · rfl
    dsimp only
    split
    · exact (ih _).trans rfl
    · rfl

@[simp] theorem Core.endFrozen_memWf (c : Core) (t : Nat) : (c.endFrozen t).memWf = c.memWf := by
  have h : (if c.signed then c else c.fetch 4).memWf = c.memWf := by split <;> simp
  exact h

@[simp] theorem Core.endTick_memWf (c : Core) (t : Nat) (last : Bool) : (c.endTick t last).memWf = c.memWf := by
  have key (d : Core) (hd : d.memWf = c.memWf) : (if d.signed then d else d.fetch 4).memWf = c.memWf := by split <;> simp [hd]
  unfold Core.endTick
  refine key _ ?_
  dsimp only [Core.memWf]
  split
  · split <;> rfl
  · rfl

theorem State.endCore_memWf (s : State) (p c : Nat) (h : s.memWf = true) : (s.endCore p c).memWf = true := by
  unfold State.endCore
  dsimp only
  split
  · split
    · exact s.put_memWf _ _ h (by simp)
    · exact h
  split
  · split
    · exact s.put_memWf _ _ h rfl
    · exact h
  split
  · exact s.put_memWf _ _ h (by simp)
  · exact s.put_memWf _ _ h (by simp)

@[simp] theorem State.postpone_memWf (s : State) (b : MeshBeat) (n : Nat) : (s.postpone b n).memWf = s.memWf := by
  unfold State.postpone
  split <;> simp

theorem State.meshLoser_memWf (s : State) (p : Nat) (b : MeshBeat) (h : s.memWf = true) : (s.meshLoser p b).memWf = true := by
  unfold State.meshLoser
  dsimp only
  split
  · simpa using h
  · exact s.put_memWf _ _ h rfl

theorem State.meshHops_memWf (p : Nat) (bs : List MeshBeat) (s : State) (taken : List Nat) (h : s.memWf = true) :
    (s.meshHops p taken bs).memWf = true := by
  induction bs generalizing s taken with
  | nil => exact h
  | cons b bs ih =>
    unfold State.meshHops
    dsimp only
    split
    · exact ih _ _ (s.meshLoser_memWf p b h)
    · exact ih _ _ h

theorem State.nextTick_memWf (s : State) (p : Nat) (h : s.memWf = true) : (s.nextTick p).memWf = true :=
  State.meshHops_memWf _ _ _ _ h

theorem State.endTick_memWf (s : State) (p : Nat) (h : s.memWf = true) : (s.endTick p).memWf = true := by
  have h1 : (((s.coresOf p).foldl (fun s c => s.endCore p c) s).serveStacks p).memWf = true :=
    State.serveStacks_memWf _ _ (State.foldl_memWf _ _ _ h fun t c ht => t.endCore_memWf p c ht)
  unfold State.endTick
  generalize ((s.coresOf p).foldl (fun s c => s.endCore p c) s).serveStacks p = u at h1 ⊢
  dsimp only
  split
  · split
    · exact State.nextTick_memWf _ _ h1
    · exact State.nextTick_memWf _ _ h1
  · split
    · exact h1
    · exact State.nextTick_memWf _ _ h1

/-! ### What a tick does before its words -/

theorem State.unmatchedFault_memWf (s : State) (c : Nat) (b : LinkBeat) (h : s.memWf = true) : (s.unmatchedFault c b).memWf = true := by
  unfold State.unmatchedFault
  simpa using s.undoTick_memWf _ h

theorem State.overflowFault_memWf (s : State) (c : Nat) (h : s.memWf = true) : (s.overflowFault c).memWf = true := by
  unfold State.overflowFault
  split
  · exact s.lateFault_memWf _ _ _ h
  · simpa using s.put_memWf c { s.core c with halted := true } h rfl

theorem State.atWord_memWf (s : State) (c : Nat) (e : Fin 8) (x : QEntry) (h : s.memWf = true) : (s.atWord c e x).memWf = true := by
  have hset := s.put_memWf c { s.core c with queues := (s.core c).queues.set e ((s.core c).queues[e].tail) } h rfl
  obtain ⟨h1, h2, h3, h4, h5⟩ := (State.memWf_iff _).mp hset
  refine (State.memWf_iff _).mpr ⟨h1, h2, h3, h4, fun u hu => ?_⟩
  dsimp only [State.atWord] at hu
  split at hu
  · exact h5 u hu
  · rcases mem_mapSet _ _ _ u hu with rfl | hu
    · exact s.core_memWf c h
    · exact h5 u hu

theorem execElasticStall_memWf {s t : State} (h : s.memWf = true) (ht : execElasticStall s = .next t) : t.memWf = true := by
  unfold execElasticStall at ht
  dsimp only at ht
  split at ht <;> obtain rfl := Host.Outcome.next.inj ht
  · exact h
  · exact State.put_memWf _ _ _ h rfl

end Sys2Proof.Machine
end

section
/-! PROOF. Every step keeps every memory in canonical form (O60): what becomes due in a core, and what leaves and reaches it. -/

namespace Sys2Proof.Machine

/-- A result that leaves every memory in form. -/
structure Result.Wf (r : Result) : Prop where
  of_next : ∀ t, r = .next t → t.memWf = true

theorem Result.Wf.next {t : State} (h : t.memWf = true) : Result.Wf (.next t) := ⟨fun u e => by
  obtain rfl := Host.Outcome.next.inj e
  exact h⟩

/-! ### Reads of beats -/

@[simp] theorem sendHome_memWf (x : Src) (land : Nat) (op : HomeOp) (ps : List (Home × Nat)) (bs : List (Option Byte)) (c : Core) :
    (sendHome x land op ps bs c).memWf = c.memWf := by
  induction ps generalizing bs c with
  | nil => rfl
  | cons p ps ih =>
    obtain ⟨h, n⟩ := p
    exact ih _ _

@[simp] theorem Core.duesAt_memWf (c : Core) (x : Src) (ds : List (Nat × Nat × Act)) : (c.duesAt x ds).memWf = c.memWf := by
  induction ds generalizing c with
  | nil => rfl
  | cons d ds ih =>
    obtain ⟨t, o, a⟩ := d
    exact ih _

@[simp] theorem rowBeats_memWf (x : Src) (hs : List (Home × Nat)) (bs : List (Option Byte)) (land n : Nat) (c : Core) :
    (rowBeats x hs bs land n c).memWf = c.memWf := by
  induction n with
  | zero => rfl
  | succ n ih => simp [rowBeats, ih]

theorem State.readAb_memWf (s : State) (x : Src) (a n : Nat) (hs : List (Home × Nat)) (land : Nat) (op : HomeOp) (h : s.memWf = true) :
    (s.readAb x a n hs land op).memWf = true := s.put_memWf _ _ h (by simp)

theorem State.emptyRing_memWf (s : State) (p : Pend) (q : Fin 32) (h : s.memWf = true) : (s.emptyRing p q).memWf = true := by
  unfold State.emptyRing
  dsimp only
  split
  · exact s.put_memWf _ _ h rfl
  · exact s.lateFault_memWf _ _ _ h

theorem State.readRing_memWf (s : State) (p : Pend) (q : Fin 32) (n : Nat) (hs : List (Home × Nat)) (land : Nat) (h : s.memWf = true) :
    (s.readRing p q n hs land).memWf = true := by
  have hclaim (v : Core) (hv : v.memWf = (s.core s.slot.core).memWf) (rs : List Nat) :
      ((s.setCore s.slot.core v).claimNow s.slot.core p.src rs).memWf = true :=
    State.claimNow_memWf _ _ _ _ (s.put_memWf _ _ h hv)
  unfold State.readRing
  dsimp only
  split
  · exact s.emptyRing_memWf _ _ h
  split
  · exact hclaim _ (by simp) _
  · exact State.readAb_memWf _ _ _ _ _ _ _ (hclaim _ (by simp) _)

theorem State.readRow_memWf (s : State) (x : Src) (ty : VTy) (tile row : Nat) (hs : List (Home × Nat)) (land : Nat)
    (h : s.memWf = true) : (s.readRow x ty tile row hs land).memWf = true := s.put_memWf _ _ h (by simp)

theorem State.readFilt_memWf (s : State) (p : Pend) (f : FiltJob) (j : Nat) (h : s.memWf = true) : (s.readFilt p f j).memWf = true := by
  unfold State.readFilt
  dsimp only
  split
  · exact s.put_memWf _ _ h rfl
  · refine s.put_memWf _ _ h ?_
    split <;> split <;> simp

theorem State.torusPort_memWf (s : State) (c : Fin 96) (x : Src) (path : Path) (h : s.memWf = true) :
    (s.torusPort c x path).memWf = true := (s.torusPort_frame c x path).wf h

theorem State.sendBeat_memWf (s : State) (c : Fin 96) (x : Src) (path : Path) (dst : Nat) (b : LinkBeat) (h : s.memWf = true) :
    (s.sendBeat c x path dst b).memWf = true := by
  unfold State.sendBeat
  dsimp only
  split
  · split <;> simpa using h
  · simpa using h
  · simpa using s.torusPort_memWf c x path h

theorem State.readSend_memWf (s : State) (x : Src) (a n : Nat) (path : Path) (peer land rows rbytes j : Nat) (tag : BitVec 16)
    (on : Bool) (h : s.memWf = true) : (s.readSend x a n path peer land rows rbytes j tag on).memWf = true :=
  s.sendBeat_memWf _ _ _ _ _ h

theorem State.readSendRing_memWf (s : State) (p : Pend) (q : Fin 32) (path : Path) (peer land rows rbytes j : Nat) (tag : BitVec 16)
    (on : Bool) (h : s.memWf = true) : (s.readSendRing p q path peer land rows rbytes j tag on).memWf = true := by
  have hclaim (v : Core) (hv : v.memWf = (s.core s.slot.core).memWf) (rs : List Nat) :
      ((s.setCore s.slot.core v).claimNow s.slot.core p.src rs).memWf = true :=
    State.claimNow_memWf _ _ _ _ (s.put_memWf _ _ h hv)
  unfold State.readSendRing
  dsimp only
  split
  · exact s.emptyRing_memWf _ _ h
  split
  · exact hclaim _ (by simp) _
  · exact State.readSend_memWf _ _ _ _ _ _ _ _ _ _ _ _ (hclaim _ (by simp) _)

theorem State.readPut_memWf (s : State) (op a n : Nat) (hs : List (Home × Nat)) (h : s.memWf = true) :
    (s.readPut op a n hs).memWf = true := by
  unfold State.readPut
  dsimp only
  split
  · split
    · exact s.put_memWf _ _ h rfl
    · exact h
  · exact h

theorem Core.takeBack_memWf (c : Core) (es : List Effect) (h : c.memWf = true) : (c.takeBack es).memWf = true := by
  refine foldl_keeps (fun c : Core => c.memWf = true) _ _ _ h fun c e hc => ?_
  split
  · dsimp only
    split
    · exact c.land_memWf _ _ hc
    · exact hc
  · exact c.land_memWf _ _ hc

theorem State.addBeats_memWf (s : State) (out : Bool) (k : Home → Nat) (bs : List (Nat × Nat × List (Home × Nat)))
    (h : s.memWf = true) : (s.addBeats out k bs).memWf = true := (State.Keeps.addBeats s out k bs).wf h

theorem State.readIndex_memWf (s : State) (x : Pend) (g : Gather) (m : State) (k : Nat) (es : List Effect) (h : s.memWf = true) :
    (s.readIndex x g m k es).memWf = true := by
  unfold State.readIndex
  dsimp only
  split
  · exact State.stopWord_memWf _ _ _ _ _ (s.setCore_memWf _ _ h (Core.takeBack_memWf _ _ (s.core_memWf _ h)))
  · exact State.addBeats_memWf _ _ _ _ (s.put_memWf _ _ h (by simp))

theorem State.readJob_memWf (s : State) (p : Pend) (r : ReadJob) (h : s.memWf = true) : (s.readJob p r).memWf = true := by
  cases r with
  | ab => exact s.readAb_memWf _ _ _ _ _ _ h
  | ring => exact s.readRing_memWf _ _ _ _ _ h
  | row => exact s.readRow_memWf _ _ _ _ _ _ h
  | send => exact s.readSend_memWf _ _ _ _ _ _ _ _ _ _ _ h
  | sendRing => exact s.readSendRing_memWf _ _ _ _ _ _ _ _ _ _ h
  | put => exact s.readPut_memWf _ _ _ _ h
  | index => exact s.readIndex_memWf _ _ _ _ _ h
  | filt => exact s.readFilt_memWf _ _ _ h
  | leave => exact s.sendBeat_memWf _ _ _ _ _ h

/-! ### The matrix array -/

theorem State.wldLine_memWf (s : State) (p : Pend) (w : WldJob) (h : s.memWf = true) : (s.wldLine p w).memWf = true := by
  unfold State.wldLine
  dsimp only
  split
  · split
    · exact s.put_memWf _ _ h rfl
    · exact s.lateFault_memWf _ _ _ h
  · have hset (v : Core) (hv : v.memWf = (s.core s.slot.core).memWf) := s.put_memWf s.slot.core v h hv
    split
    · exact hset _ (by simp)
    · exact State.claimNow_memWf _ _ _ _ (hset _ (by simp))

theorem State.rowEnter_memWf (s : State) (p : Pend) (r : RowJob) (h : s.memWf = true) : (s.rowEnter p r).memWf = true := by
  unfold State.rowEnter
  dsimp only
  split
  · split
    · exact s.put_memWf _ _ h rfl
    · exact s.lateFault_memWf _ _ _ h
  · have hset (v : Core) (hv : v.memWf = (s.core s.slot.core).memWf) := s.put_memWf s.slot.core v h hv
    have hentered : ∀ (b1 b2 b3 : Bool) (es : List Effect) (t1 t2 : Nat) (dr : DrainJob) (hs : Core → List (Nat × BitVec 4)),
        let c1 := if b1 then s.core s.slot.core else (s.core s.slot.core).due p.src t1 0 (.land es)
        let c2 := if b2 then c1.due p.src t2 1 (.drain dr) else c1
        (if b3 then { c2 with holds := hs c2 } else c2).memWf = (s.core s.slot.core).memWf := by
      intro b1 b2 b3 es t1 t2 dr hs
      cases b1 <;> cases b2 <;> cases b3 <;> rfl
    split
    · exact hset _ (hentered _ _ _ _ _ _ _ fun c => (p.tick + 515, r.shape) :: c.holds.filter fun h => decide (p.tick ≤ h.1))
    · exact State.claimNow_memWf _ _ _ _ (hset _ (hentered _ _ _ _ _ _ _ fun c => (p.tick + 515, r.shape) :: c.holds.filter fun h => decide (p.tick ≤ h.1)))

theorem State.drainTick_memWf (s : State) (p : Pend) (d : DrainJob) (h : s.memWf = true) : (s.drainTick p d).memWf = true := by
  unfold State.drainTick
  dsimp only
  split
  · exact State.lateFault_memWf _ _ _ _ (s.put_memWf _ _ h rfl)
  · refine State.landEffects_memWf _ _ _ _ _ (s.put_memWf _ _ h ?_)
    refine foldl_keeps (fun c : Core => c.memWf = (s.core s.slot.core).memWf) _ _ _ ?_ fun c d hc => ?_
    · split <;> rfl
    · split
      · exact hc
      · exact hc

/-! ### Items that are due -/

theorem execResultLand_wf {s : State} (h : s.memWf = true) : Result.Wf (execResultLand s) := by
  unfold execResultLand
  split
  · rename_i p t ht
    have ht := s.takeItem_memWf t p h ht
    split
    · exact .next (State.landEffects_memWf _ _ _ _ _ ht)
    · exact .next (State.wldLine_memWf _ _ _ ht)
    · exact .next (State.readJob_memWf _ _ _ ht)
    · exact .next h
  · exact .next h

theorem execLoopExit_wf {s : State} (h : s.memWf = true) : Result.Wf (execLoopExit s) := by
  unfold execLoopExit
  split
  · rename_i p t ht
    have ht := s.takeItem_memWf t p h ht
    split
    · exact .next (State.put_memWf _ _ _ ht rfl)
    · exact .next h
  · exact .next h

theorem execMacRowEntry_wf {s : State} (h : s.memWf = true) : Result.Wf (execMacRowEntry s) := by
  unfold execMacRowEntry
  split
  · rename_i p t ht
    have ht := s.takeItem_memWf t p h ht
    split
    · exact .next (State.rowEnter_memWf _ _ _ ht)
    · exact .next h
  · exact .next h

theorem execDrainWrite_wf {s : State} (h : s.memWf = true) : Result.Wf (execDrainWrite s) := by
  unfold execDrainWrite
  split
  · rename_i p t ht
    have ht := s.takeItem_memWf t p h ht
    split
    · exact .next (State.drainTick_memWf _ _ _ ht)
    · exact .next h
  · exact .next h

theorem execBandWakeComplete_wf {s : State} (h : s.memWf = true) : Result.Wf (execBandWakeComplete s) := by
  unfold execBandWakeComplete
  split
  · rename_i p t ht
    have ht := s.takeItem_memWf t p h ht
    split
    · exact .next (State.put_memWf _ _ _ ht rfl)
    · exact .next h
  · exact .next h

theorem execLBeatLand_wf {s : State} (h : s.memWf = true) : Result.Wf (execLBeatLand s) := by
  unfold execLBeatLand
  split
  · rename_i p t ht
    have ht := s.takeItem_memWf t p h ht
    split
    · exact .next (State.landEffects_memWf _ _ _ _ _ ht)
    · exact .next h
  · exact .next h

theorem execFilterRecordLanding_wf {s : State} (h : s.memWf = true) : Result.Wf (execFilterRecordLanding s) := by
  unfold execFilterRecordLanding
  split
  · rename_i p t ht
    have ht := s.takeItem_memWf t p h ht
    split
    · exact .next (State.landEffects_memWf _ _ _ _ _ ht)
    · exact .next h
  · exact .next h

theorem execElasticStall_wf {s : State} (h : s.memWf = true) : Result.Wf (execElasticStall s) :=
  ⟨fun _ ht => execElasticStall_memWf h ht⟩

/-! ### Writes at homes -/

@[simp] theorem State.deferTo_memWf (s : State) (p : Nat) (w : InWrite) : (s.deferTo p w).memWf = s.memWf := rfl
@[simp] theorem State.later_memWf (s : State) (c : Fin 96) (n : Nat) : (s.later c n).memWf = s.memWf := rfl

theorem State.strayFault_memWf (s : State) (c : Fin 96) (x : Src) (t : Trap) (h : s.memWf = true) :
    (s.strayFault c x t).memWf = true := s.eventFault_memWf _ _ _ h

theorem State.performed_memWf (s : State) (c : Fin 96) (o : OutOp) (h : s.memWf = true) : (s.performed c o).memWf = true := by
  have := s.put_memWf c ((s.core c).putOp { o with st := .performed }) h rfl
  exact this

theorem State.poisonedHome_memWf (s : State) (c : Fin 96) (o : OutOp) (h : s.memWf = true) : (s.poisonedHome c o).memWf = true :=
  State.strayFault_memWf _ _ _ _ (s.performed_memWf c o h)

theorem State.signalAt_memWf (s : State) (w : Writer) (h : Home) (op : SigOp) (v : W64) (hs : s.memWf = true) :
    (s.signalAt w h op v).memWf = true := by
  unfold State.signalAt
  split
  · exact hs
  · exact s.homeWrite_memWf _ _ _ hs

@[simp] theorem State.journalKeep_memWf (s : State) (p a n : Nat) : (s.journalKeep p a n).memWf = s.memWf := rfl

theorem State.applyOp_memWf (s : State) (c : Fin 96) (o : OutOp) (h : Home) (hs : s.memWf = true) : (s.applyOp c o h).memWf = true := by
  unfold State.applyOp
  split
  · dsimp only
    split
    · exact s.poisonedHome_memWf c o hs
    · refine State.performed_memWf _ _ _ ?_
      split
      · simpa using s.homeWrite_memWf _ _ _ hs
      · exact s.homeWrite_memWf _ _ _ hs
  · split
    · exact s.poisonedHome_memWf c o hs
    · dsimp only
      refine State.performed_memWf _ _ _ ?_
      split
      · simpa using s.signalAt_memWf _ _ _ _ hs
      · exact s.signalAt_memWf _ _ _ _ hs
  · exact hs

theorem State.putOn_memWf (s : State) (c : Fin 96) (n : Nat) (h : s.memWf = true) : (s.putOn c n).memWf = true := by
  unfold State.putOn
  split
  · split
    · split
      · exact s.performed_memWf _ _ h
      · simpa using h
    · exact h
  · exact h

theorem State.putBeat_memWf (s : State) (c : Fin 96) (o : OutOp) (sem : Fin 32) (ready : List (List (Home × Nat) × List (Option Byte)))
    (n : Nat) (h : s.memWf = true) : (s.putBeat c o sem ready n).memWf = true := by
  unfold State.putBeat
  dsimp only
  split
  · exact h
  split
  · exact h
  split
  · exact h
  split
  · exact h
  split
  · exact s.put_memWf c ((s.core c).putOp { o with kind := .put sem _ _ }) h rfl
  · exact State.putOn_memWf _ _ _ (State.homeWrites_memWf _ _ _ _ (s.put_memWf _ _ h rfl))

theorem execUntimetabledWritePerformed_wf {s : State} (c : Fin 96) (op : Nat) (h : s.memWf = true) :
    Result.Wf (execUntimetabledWritePerformed c op s) := by
  unfold execUntimetabledWritePerformed
  dsimp only
  split
  · exact .next h
  refine .next ?_
  split
  · split
    · exact s.put_memWf _ _ h rfl
    · exact h
  · split
    · exact s.putBeat_memWf _ _ _ _ _ h
    split
    · exact h
    split
    · exact h
    split
    · exact h
    split
    · exact h
    · exact s.applyOp_memWf _ _ _ h
  · exact h

theorem State.completeJobs_memWf (s : State) (p : Nat) (h : s.memWf = true) : (s.completeJobs p).memWf = true := by
  refine State.foldl_memWf _ _ _ h fun t j ht => ?_
  split
  · exact ht
  · exact ht

theorem execAcknowledgement_wf {s : State} (c : Fin 96) (op : Nat) (h : s.memWf = true) : Result.Wf (execAcknowledgement c op s) := by
  unfold execAcknowledgement
  dsimp only
  split
  · exact .next h
  split
  · exact .next h
  split
  · exact .next (s.put_memWf _ _ h rfl)
  · exact .next (State.completeJobs_memWf _ _ (s.put_memWf _ _ h rfl))

theorem execPutCompletion_wf {s : State} (c : Fin 96) (op : Nat) (h : s.memWf = true) : Result.Wf (execPutCompletion c op s) := by
  unfold execPutCompletion
  dsimp only
  split
  · exact .next h
  split
  · exact .next (State.completeJobs_memWf _ _ (s.put_memWf _ _ h rfl))
  · exact .next h

theorem execXsigTranslation_wf {s : State} (c : Fin 96) (op : Nat) (h : s.memWf = true) : Result.Wf (execXsigTranslation c op s) := by
  unfold execXsigTranslation
  dsimp only
  split
  · exact .next h
  split
  · exact .next h
  have hstop (t : Trap) (o : OutOp) : Result.Wf (.next ((s.setCore c ((s.core c).dropOp op)).strayFault c o.src t)) :=
    .next (State.strayFault_memWf _ _ _ _ (s.put_memWf _ _ h rfl))
  split
  · exact hstop _ _
  split
  · exact hstop _ _
  split
  · exact hstop _ _
  split
  · exact .next (State.put_memWf (s.setPart _ _) _ _ h rfl)
  · exact hstop _ _

/-! ### Inbound writes -/

theorem State.orFlags_memWf (s : State) (c : Fin 96) (f : Flags) (h : s.memWf = true) : (s.orFlags c f).memWf = true :=
  s.setCore_memWf _ _ h (Core.land_memWf _ _ _ (s.core_memWf _ h))

theorem State.applyInbound_memWf (s : State) (w : InWrite) (h : s.memWf = true) : (s.applyInbound w).memWf = true := by
  unfold State.applyInbound
  dsimp only
  split
  · exact s.homeWrite_memWf _ _ _ h
  · exact s.signalAt_memWf _ _ _ _ h
  · exact State.homeWrite_memWf _ _ _ _ (s.orFlags_memWf _ _ h)
  · split
    · exact s.applyOp_memWf _ _ _ h
    · exact h
  · split
    · split
      · exact State.putOn_memWf _ _ _ (State.put_memWf _ _ _ (State.homeWrites_memWf _ _ _ _ h) rfl)
      · exact h
    · exact State.homeWrites_memWf _ _ _ _ h
  · exact s.setCore_memWf _ _ h (Core.bufStore_memWf _ _ _ (s.core_memWf _ h))

theorem State.hostWait_memWf (s : State) (c b : Nat) (i : Instr) (h : s.memWf = true) : (s.hostWait c b i).memWf = true :=
  s.put_memWf c ((s.core c).countStall 8 b) h rfl

theorem State.takePosted_memWf (ws : List InWrite) (s : State) (h : s.memWf = true) : (s.takePosted ws).memWf = true := by
  induction ws generalizing s with
  | nil => exact h
  | cons w ws ih =>
    unfold State.takePosted
    split
    · exact ih _ h
    · exact ih _ (s.applyInbound_memWf w h)
    · dsimp only
      split
      · exact State.hostWait_memWf _ _ _ _ h
      · exact h

theorem State.arrive_memWf (s : State) (w : InWrite) (h : s.memWf = true) : (s.arrive w).memWf = true := by
  unfold State.arrive
  split
  · exact h
  · exact State.takePosted_memWf _ _ h

theorem State.retryPosted_memWf (s : State) (f : Fin 5) (h : s.memWf = true) : (s.retryPosted f).memWf = true :=
  State.takePosted_memWf _ _ h

theorem State.applyDeferred_memWf (s : State) (p : Nat) (h : s.memWf = true) : (s.applyDeferred p).memWf = true :=
  State.foldl_memWf _ _ _ h fun t w ht => t.arrive_memWf w ht

theorem execInboundWrite_wf {s : State} (x : Source) (pa : Nat) (d : Inbound) (b : Bool) (h : s.memWf = true) :
    Result.Wf (execInboundWrite x pa d b s) := .next (s.arrive_memWf _ h)

theorem execInboundRead_wf {s : State} (x : Source) (pa n : Nat) (h : s.memWf = true) : Result.Wf (execInboundRead x pa n s) :=
  .next h

theorem State.flagsNow_memWf (s : State) (c : Fin 96) (p : Pend) (f : Flags) (h : s.memWf = true) : (s.flagsNow c p f).memWf = true := by
  unfold State.flagsNow
  split
  · exact h
  · exact s.put_memWf _ _ h rfl

theorem execWBeatHomeWrite_wf {s : State} (h : s.memWf = true) : Result.Wf (execWBeatHomeWrite s) := by
  unfold execWBeatHomeWrite
  split
  · rename_i p t ht
    have ht := s.takeItem_memWf t p h ht
    split
    · have hd (vs : List W64) : (t.setCore t.slot.core ((t.core t.slot.core).digestChunks p.src.eng vs)).memWf = true :=
        t.put_memWf _ _ ht rfl
      dsimp only
      split
      · exact .next (hd _)
      · exact .next (State.homeWrite_memWf _ _ _ _ (State.flagsNow_memWf _ _ _ _ (hd _)))
    · exact .next h
  · exact .next h

/-! ### Links -/

theorem State.countBad_memWf (s : State) (c : Nat) (path : Path) : (s.countBad c path).memWf = s.memWf := by
  unfold State.countBad
  split <;> rfl

theorem execLandingBufferArrival_wf {s : State} (c : Fin 96) (b : LinkBeat) (h : s.memWf = true) :
    Result.Wf (execLandingBufferArrival c b s) := by
  have hset (b : LinkBeat) : (s.setCore c { s.core c with arrivals := (s.core c).arrivals ++ [(false, b)] }).memWf = true :=
    s.put_memWf _ _ h rfl
  unfold execLandingBufferArrival
  cases b.bad with
  | false => exact .next (hset _)
  | true => exact .next ((State.countBad_memWf ..).trans (hset _))

theorem State.deliver_memWf (s : State) (x : Pend) (path : Path) (d peer j : Nat) (r : RecvJob) (on : Bool) (b : LinkBeat)
    (h : s.memWf = true) : (s.deliver x path d peer j r on b).memWf = true := by
  have hgone (lo hi : Nat) : (s.setCore s.slot.core ((s.core s.slot.core).dropArrivals d path peer lo hi)).memWf = true :=
    s.put_memWf _ _ h rfl
  unfold State.deliver
  dsimp only
  split
  · split
    · exact State.landEffects_memWf _ _ _ _ _ (hgone _ _)
    · exact hgone _ _
  · split
    · exact State.landEffects_memWf _ _ _ _ _ (hgone _ _)
    · exact hgone _ _
  · exact h
  · split
    · exact h
    · exact State.landEffects_memWf _ _ _ _ _ (hgone _ _)
  · split
    · refine State.put_memWf _ _ _ (hgone _ _) ?_
      split
      · split <;> rfl
      · split <;> rfl
    · exact hgone _ _
  · exact State.put_memWf _ _ _ (hgone _ _) rfl

theorem execLinkBeatDelivery_wf {s : State} (h : s.memWf = true) : Result.Wf (execLinkBeatDelivery s) := by
  unfold execLinkBeatDelivery
  split
  · rename_i p t ht
    have ht := s.takeItem_memWf t p h ht
    split
    · dsimp only
      split
      · exact .next (State.deliver_memWf _ _ _ _ _ _ _ _ _ ht)
      · exact .next (State.lateFault_memWf _ _ _ _ ht)
    · exact .next h
  · exact .next h

end Sys2Proof.Machine
end

section
/-! PROOF. Every step keeps every memory in canonical form (O60): the phase sequencer. -/

namespace Sys2Proof.Machine

/-! ### Small operations -/

@[simp] theorem State.onPart_memWf (s : State) (p : Nat) (f : Part → Part) : (s.onPart p f).memWf = s.memWf := rfl
@[simp] theorem State.stepDone_memWf (s : State) (p : Nat) : (s.stepDone p).memWf = s.memWf := rfl
@[simp] theorem State.goOn_memWf (s : State) (p n c : Nat) : (s.goOn p n c).memWf = s.memWf := rfl
@[simp] theorem State.tryLaunch_memWf (s : State) (p : Nat) : (s.tryLaunch p).memWf = s.memWf := rfl
@[simp] theorem State.sedReplay_memWf (s : State) (p r c : Nat) : (s.sedReplay p r c).memWf = s.memWf := rfl
@[simp] theorem State.sedGate_memWf (s : State) (p i o c : Nat) : (s.sedGate p i o c).memWf = s.memWf := rfl
@[simp] theorem State.setRefresh_memWf (s : State) (p c : Nat) : (s.setRefresh p c).memWf = s.memWf := rfl
@[simp] theorem State.step10_memWf (s : State) (p t : Nat) : (s.step10 p t).memWf = s.memWf := rfl

@[simp] theorem State.armDog_memWf (s : State) (p : Nat) : (s.armDog p).memWf = s.memWf := by
  unfold State.armDog
  dsimp only
  split <;> rfl

@[simp] theorem State.watch_memWf (s : State) (p : Nat) (on : Bool) (c : Nat) : (s.watch p on c).memWf = s.memWf := by
  unfold State.watch
  dsimp only
  split
  · simp
  · simp
  · rfl

@[simp] theorem State.ticketWrite_memWf (s : State) (p n : Nat) (v : W64) : (s.ticketWrite p n v).memWf = s.memWf := by
  unfold State.ticketWrite
  split <;> rfl

theorem State.setLimit_memWf (s : State) (o : Nat) (v : W64) (h : s.memWf = true) : (s.setLimit o v).memWf = true := by
  unfold State.setLimit
  split
  · exact s.put_memWf _ _ h (by split <;> rfl)
  · exact h

theorem State.applyHeld_memWf (s : State) (p : Nat) (h : s.memWf = true) : (s.applyHeld p).memWf = true := by
  unfold State.applyHeld
  split
  · exact h
  refine State.foldl_memWf _ _ _ h fun t w ht => ?_
  split
  · exact ht
  split
  · simpa using ht
  · exact t.setLimit_memWf _ _ ht

theorem State.onCores_memWf (s : State) (p : Nat) (f : Nat → Core → Core) (h : s.memWf = true)
    (hf : ∀ c (v : Core), v.memWf = true → (f c v).memWf = true) : (s.onCores p f).memWf = true :=
  State.foldl_memWf _ _ _ h fun t c ht => t.setCore_memWf _ _ ht (hf c _ (t.core_memWf c ht))

theorem State.spill_memWf (s : State) (p : Nat) (live : List (Buf × Nat × Nat)) (h : s.memWf = true) : (s.spill p live).memWf = true :=
  State.foldl_memWf _ _ _ h fun t x ht => t.spillCore_memWf _ _ _ _ ht

theorem State.refill_memWf (s : State) (p : Nat) (live : List (Buf × Nat × Nat)) (h : s.memWf = true) : (s.refill p live).memWf = true :=
  State.foldl_memWf _ _ _ h fun t x ht => t.refillCore_memWf _ _ _ _ ht

theorem State.writeParts_memWf (s : State) (pa : Nat) (ps : List (Nat × List Byte)) (h : s.memWf = true) :
    (s.writeParts pa ps).memWf = true := State.foldl_memWf _ _ _ h fun t x ht => t.homeWrite_memWf _ _ _ ht

theorem State.writeContexts_memWf (s : State) (p b : Nat) (ctx : Nat → Option Ctx) (ds : List GateDecl) (h : s.memWf = true) :
    (s.writeContexts p b ctx ds).memWf = true := by
  refine State.foldl_memWf _ _ _ h fun t x ht => ?_
  dsimp only
  split
  · exact State.writeParts_memWf _ _ _ ht
  · exact State.writeParts_memWf _ _ _ ht

theorem State.clearBank_memWf (s : State) (p : Nat) (h : s.memWf = true) : (s.clearBank p).1.memWf = true := by
  unfold State.clearBank
  dsimp only
  split
  · exact s.writeContexts_memWf _ _ _ _ h
  · exact h

/-! ### Steps 7 to 10 -/

theorem State.wakeHeld_memWf (s : State) (h : s.memWf = true) : s.wakeHeld.memWf = true :=
  State.foldl_memWf _ _ _ h fun t q ht => by
    split
    · exact ht
    · exact ht

theorem State.stopGroup_memWf (s : State) (p a b : Nat) (h : s.memWf = true) : (s.stopGroup p a b).memWf = true :=
  State.wakeHeld_memWf _ (by simpa using h)

theorem State.hearStop_memWf (s : State) (p : Nat) (h : s.memWf = true) : (s.hearStop p).memWf = true := by
  unfold State.hearStop
  rw [State.slackFault_memWf]
  exact h

theorem State.alignGroup_memWf (s : State) (p : Nat) (h : s.memWf = true) : (s.alignGroup p).memWf = true := by
  unfold State.alignGroup
  dsimp only
  split
  · split
    · exact h
    split
    · exact s.stopGroup_memWf _ _ _ h
    · exact h
  · exact h

theorem State.step9_memWf (s : State) (p : Nat) (h : s.memWf = true) : (s.step9 p).memWf = true := by
  unfold State.step9
  split
  · exact h
  dsimp only
  split
  · exact State.hearStop_memWf _ _ h
  split
  · exact h
  split
  · refine State.alignGroup_memWf _ _ ?_
    split
    · simpa using h
    · exact h
  · exact h

theorem State.releaseSystem_memWf (s : State) (h : s.memWf = true) : s.releaseSystem.memWf = true :=
  State.foldl_memWf _ _ _ h fun t p ht => by
    split
    · exact t.step9_memWf p ht
    · exact ht

theorem State.step8_memWf (s : State) (p : Nat) (h : s.memWf = true) : (s.step8 p).memWf = true := by
  unfold State.step8
  split
  · exact h
  · exact h

theorem State.end8_memWf (s : State) (p : Nat) (h : s.memWf = true) : (s.end8 p).memWf = true := by
  unfold State.end8
  split
  · dsimp only
    split
    · simpa using h
    · exact State.step9_memWf _ _ h
  · exact h

theorem Core.loadHalf_memWf (c : Core) (k : Nat × Nat) (ws : List W64) : (c.loadHalf k ws).memWf = c.memWf := by
  unfold Core.loadHalf
  split <;> rfl

theorem State.loadImages_memWf (s : State) (p : Nat) (j : Job) (x : Sel) (h : s.memWf = true) : (s.loadImages p j x).1.memWf = true := by
  refine s.onCores_memWf p _ h fun c v hv => ?_
  split
  · exact (Core.loadHalf_memWf ..).trans hv
  · exact hv

theorem State.step7_memWf (s : State) (p n : Nat) (h : s.memWf = true) : (s.step7 p n).memWf = true := by
  unfold State.step7
  split
  · rename_i j x _ _
    have hload (b : Bool) (l : Nat) : (if b then (s, l) else s.loadImages p j x).1.memWf = true := by
      cases b
      · exact s.loadImages_memWf p j x h
      · exact h
    have hclear (b : Bool) (t : State) (ht : t.memWf = true) : (if b then t.clearBank p else (t, 0)).1.memWf = true := by
      cases b
      · exact ht
      · exact t.clearBank_memWf p ht
    exact hclear _ _ (hload _ _)
  · exact h

theorem State.fillRing_memWf (s : State) (p c n : Nat) (q : Fin 32) (k : Nat) (h : s.memWf = true) :
    (s.fillRing p c n q k).memWf = true := by
  induction k generalizing s with
  | zero => exact h
  | succ k ih =>
    refine ih _ ?_
    exact s.setCore_memWf c { (s.core c).bufStore .sdm _ with regs := _ } h (Core.bufStore_memWf _ _ _ (s.core_memWf c h))

theorem State.fillMirror_memWf {s t : State} {p c : Nat} {m : Mirror} (h : s.memWf = true) (ht : s.fillMirror p c m = .ok t) :
    t.memWf = true := by
  unfold State.fillMirror at ht
  dsimp only at ht
  split at ht
  · cases ht
  split at ht
  · cases ht
  · obtain rfl := Except.ok.inj ht
    exact s.fillRing_memWf _ _ _ _ _ h

theorem State.fillAll_memWf {p : Nat} {ms : List (Nat × Mirror)} {s t : State} (h : s.memWf = true) (ht : s.fillAll p ms = .ok t) :
    t.memWf = true := by
  induction ms generalizing s with
  | nil =>
    obtain rfl := Except.ok.inj ht
    exact h
  | cons m ms ih =>
    obtain ⟨c, m⟩ := m
    unfold State.fillAll at ht
    split at ht
    · cases ht
    · rename_i u hu
      exact ih (State.fillMirror_memWf h hu) ht

theorem State.end7_memWf (s : State) (p : Nat) (h : s.memWf = true) : (s.end7 p).memWf = true := by
  unfold State.end7
  split
  · split
    · exact s.step8_memWf p h
    dsimp only
    split
    · simpa using h
    · rename_i t ht
      have ht := State.fillAll_memWf h ht
      refine State.step8_memWf _ _ ?_
      split
      · exact t.saveBanks_memWf p 16 ht
      · exact ht
  · exact h

/-! ### Steps 1 to 6 -/

theorem State.preempt_memWf (s : State) (p : Nat) (h : s.memWf = true) : (s.preempt p).memWf = true := by
  unfold State.preempt
  split
  · rename_i j x _ _
    have hspill := (s.watch p false s.now).spill_memWf p (j.live x) (by rw [State.watch_memWf]; exact h)
    dsimp only
    rw [State.goOn_memWf, State.onPart_memWf]
    exact State.saveBanks_memWf _ p 16 hspill
  · exact h

theorem State.hold_memWf (s : State) (p : Nat) (h : s.memWf = true) : (s.hold p).memWf = true := by
  unfold State.hold
  split
  · rename_i j x _ _
    have hw := s.homeWrite_memWf .hub (.hbm (s.part p).sbase) ((partitionRecord x 5 j.launch.tag).map some) h
    dsimp only
    rw [State.tryLaunch_memWf, State.stepDone_memWf, State.onPart_memWf, State.sediment_memWf]
    exact hw
  · exact h

theorem State.requeue_memWf (s : State) (p : Nat) (h : s.memWf = true) : (s.requeue p).memWf = true := by
  unfold State.requeue
  split
  · dsimp only
    split
    · exact h
    · exact h
  · exact h

theorem State.endJob_memWf (s : State) (p : Nat) (h : s.memWf = true) : (s.endJob p).memWf = true := by
  unfold State.endJob
  split
  · exact State.completeJobs_memWf _ _ (State.applyHeld_memWf _ _ (s.requeue_memWf p h))
  · exact h

theorem State.step6_memWf (s : State) (p : Nat) (h : s.memWf = true) : (s.step6 p).memWf = true := by
  unfold State.step6
  dsimp only
  split
  · exact State.endJob_memWf _ _ h
  split
  · split
    · exact s.preempt_memWf p h
    · exact State.step7_memWf _ _ _ h
  · exact State.step7_memWf _ _ _ h

theorem State.gateHomesOf_memWf {p : Nat} {rs : List (Nat × GateReg)} {s t : State} (h : s.memWf = true)
    (ht : s.gateHomesOf p rs = .ok t) : t.memWf = true := by
  induction rs generalizing s with
  | nil =>
    obtain rfl := Except.ok.inj ht
    exact h
  | cons r rs ih =>
    obtain ⟨c, g⟩ := r
    unfold State.gateHomesOf at ht
    split at ht
    · exact ih h ht
    split at ht
    · exact ih h ht
    split at ht
    · cases ht
    · exact ih (s := s.onPart p _) h ht

theorem State.step5_memWf (s : State) (p : Nat) (b : Bool) (h : s.memWf = true) : (s.step5 p b).memWf = true := by
  unfold State.step5
  dsimp only
  split
  · exact h
  split
  · simpa using h
  · rename_i t ht
    have ht : t.memWf = true := State.gateHomesOf_memWf (s := s.onPart p _) h ht
    simpa using ht

theorem State.nextEvaluation_memWf (s : State) (p : Nat) : (s.nextEvaluation p).memWf = s.memWf := rfl

theorem State.noteRemote_memWf (s : State) (p : Nat) (rs : List (Nat × GateReg)) (h : s.memWf = true) :
    (s.noteRemote p rs).memWf = true := by
  unfold State.noteRemote
  split
  · exact h
  · exact h

theorem State.evaluate_memWf (s : State) (p : Nat) (h : s.memWf = true) : (s.evaluate p).memWf = true := by
  unfold State.evaluate
  dsimp only
  split
  · simpa using h
  split
  · refine State.step6_memWf _ _ ?_
    rw [State.stepDone_memWf, State.watch_memWf]
    split
    · exact h
    · exact h
  · rw [State.nextEvaluation_memWf, State.watch_memWf]
    exact s.noteRemote_memWf p _ h

theorem State.step4_memWf (s : State) (p : Nat) (h : s.memWf = true) : (s.step4 p).memWf = true := by
  unfold State.step4
  split
  · exact h
  dsimp only
  split
  · exact State.step5_memWf _ _ _ h
  split
  · exact State.step5_memWf _ _ _ h
  · simpa using h

theorem State.rerun_memWf (s : State) (p : Nat) (k : Bool) (n : Nat) (h : s.memWf = true) : (s.rerun p k n).memWf = true := by
  unfold State.rerun
  split
  · exact s.restoreBanks_memWf p k h
  · exact h

theorem State.step3_memWf (s : State) (p : Nat) (h : s.memWf = true) : (s.step3 p).memWf = true := by
  unfold State.step3
  split
  · exact h
  dsimp only
  split
  · exact State.rerun_memWf _ _ _ _ h
  · refine State.step4_memWf _ _ ?_
    split
    · exact h
    · exact h

theorem State.logDigests_memWf (s : State) (p : Nat) (h : s.memWf = true) : (s.logDigests p).memWf = true :=
  State.foldl_memWf _ _ _ h fun t c ht => t.homeWrite_memWf _ _ _ ht

theorem State.compareDigests_memWf (s : State) (p : Nat) (h : s.memWf = true) : (s.compareDigests p).memWf = true := by
  unfold State.compareDigests
  split
  · exact h
  · exact h

theorem State.step1_memWf (s : State) (p : Nat) (h : s.memWf = true) : (s.step1 p).memWf = true := by
  have hsettle := s.onCores_memWf p (fun _ co => co.settle) h fun _ _ hv => hv
  unfold State.step1
  rw [State.stepDone_memWf, State.onPart_memWf]
  exact State.applyDeferred_memWf _ _ hsettle

theorem State.step2_memWf (s : State) (p : Nat) (h : s.memWf = true) : (s.step2 p).memWf = true := by
  unfold State.step2
  split
  · split
    · exact h
    · exact State.step3_memWf _ _ h
  · exact h

theorem execLastSignOff_wf {s : State} (p : Fin 4) (h : s.memWf = true) : Result.Wf (execLastSignOff p s) := by
  unfold execLastSignOff
  dsimp only
  split
  · exact .next h
  split
  · exact .next h
  split
  · exact .next h
  have hlog : State.memWf (if (s.part p).dmodeOn = 1 then s.logDigests p
      else if (s.part p).dmodeOn = 2 then s.compareDigests p else s) = true := by
    split
    · exact s.logDigests_memWf p h
    split
    · exact s.compareDigests_memWf p h
    · exact h
  revert hlog
  generalize (if (s.part p).dmodeOn = 1 then s.logDigests p else if (s.part p).dmodeOn = 2 then s.compareDigests p else s) = t
  intro ht
  split
  · exact .next ht
  · exact .next (State.releaseSystem_memWf _ (State.step2_memWf _ _ (State.step1_memWf _ _ ht)))

theorem execReplayMarkExchange_wf {s : State} (p : Fin 4) (m : Bool) (h : s.memWf = true) : Result.Wf (execReplayMarkExchange p m s) := by
  unfold execReplayMarkExchange
  dsimp only
  split
  · split
    · exact .next h
    · exact .next h
  · exact .next h

/-! ### Gates and their watchdog -/

theorem State.dogStop_memWf (s : State) (p : Nat) (h : s.memWf = true) : (s.dogStop p).memWf = true := by
  have hsave := s.saveBanks_memWf p 16 h
  unfold State.dogStop
  dsimp only
  split
  · exact State.releaseSystem_memWf _ (by simpa using hsave)
  · simpa using hsave

theorem execGateEvaluation_wf {s : State} (p : Fin 4) (h : s.memWf = true) : Result.Wf (execGateEvaluation p s) := by
  unfold execGateEvaluation
  split
  · exact .next (s.step3_memWf p h)
  · exact .next (s.step4_memWf p h)
  · refine .next ?_
    split
    · exact s.dogStop_memWf p h
    · exact s.evaluate_memWf p h
  · refine .next ?_
    split
    · exact s.dogStop_memWf p h
    split
    · exact h
    · exact s.step9_memWf p h
  · exact .next (s.hold_memWf p h)
  · exact .next (s.end7_memWf p h)
  · exact .next (s.end8_memWf p h)
  · exact .next h

theorem State.notifyPart_memWf (s : State) (p : Nat) (x : Home) (h : s.memWf = true) : (s.notifyPart p x).memWf = true := by
  unfold State.notifyPart
  dsimp only
  split
  · split
    · split
      · exact h
      · exact h
    · exact h
  · exact h

@[simp] theorem State.evalLaunch_memWf (s : State) (p n c : Nat) : (s.evalLaunch p n c).memWf = s.memWf := by
  unfold State.evalLaunch
  dsimp only
  split <;> rfl

theorem State.notifyQueues_memWf (s : State) (p : Nat) (x : Home) (h : s.memWf = true) : (s.notifyQueues p x).memWf = true :=
  State.foldl_memWf _ _ _ h fun t g ht => (State.evalLaunch_memWf ..).trans ht

theorem execWriteNotification_wf {s : State} (x : Home) (h : s.memWf = true) : Result.Wf (execWriteNotification x s) :=
  .next (State.foldl_memWf _ _ _ h fun t p ht => State.notifyQueues_memWf _ _ _ (t.notifyPart_memWf p x ht))

theorem execAlignmentReadiness_wf {s : State} (p : Fin 4) (r x i c : Nat) (h : s.memWf = true) :
    Result.Wf (execAlignmentReadiness p r x i c s) := by
  unfold execAlignmentReadiness
  dsimp only
  generalize (s.part p).readyRanks ++ [(r, x, i, c)] = rs
  generalize ((match (s.part p).job with | some j => j.rank != 0 | none => false) || (s.part p).readyRanks.any fun y => y.1 == r) = b
  cases b
  · exact .next (State.alignGroup_memWf _ _ h)
  · exact .next h

theorem execStartWave_wf {s : State} (p : Fin 4) (c n : Nat) (h : s.memWf = true) : Result.Wf (execStartWave p c n s) := by
  unfold execStartWave
  split
  · split
    · exact .next h
    · exact .next (by simpa using h)
  · exact .next h

/-! ### The start of a phase -/

theorem Core.start_memWf (c : Core) (first : Bool) (x : Sel) (cad : Nat) (ks : List Nat) (rs : List Region) (sp : Option (Nat × Nat))
    (h : c.memWf = true) : (c.start first x cad ks rs sp).memWf = true := by
  obtain ⟨h1, h2, h3, -, h5, h6⟩ := (Core.memWf_iff c).mp h
  unfold Core.start
  dsimp only
  split
  · rw [Core.fetch_memWf]
    exact (Core.memWf_iff _).mpr ⟨h1, h2, h3, h3, h5, h6⟩
  · exact (Core.memWf_iff _).mpr ⟨h1, h2, h3, h3, h5, h6⟩

theorem State.lateSnapshot_memWf (s : State) (p : Nat) (j : Job) (h : s.memWf = true) : (s.lateSnapshot p j).memWf = true :=
  State.saveBanks_memWf _ _ _ (s.clearBank_memWf p h)

/-- The images that a hint names are loaded. -/
theorem hinted_memWf (s : State) (p : Nat) (j : Job) (n : Nat) (h : s.memWf = true) :
    State.memWf (match j.hinted with
      | some h =>
        let (t, c) := s.loadImages p j h
        t.onPart p fun y => { y with loadedAt := n + c }
      | none => s) = true := by
  cases j.hinted with
  | none => exact h
  | some x => exact s.loadImages_memWf p j x h

theorem execPhaseStart_wf {s : State} (p : Fin 4) (h : s.memWf = true) : Result.Wf (execPhaseStart p s) := by
  unfold execPhaseStart
  dsimp only
  split
  · split
    · exact .next (s.lateSnapshot_memWf _ _ h)
    refine .next ?_
    simp only [State.schedule_memWf, State.cancel_memWf]
    refine State.requeue_memWf _ _ (hinted_memWf _ _ _ _ ?_)
    rw [State.setRefresh_memWf]
    have hcores (f : Nat → Core → Core) (hf : ∀ c (v : Core), v.memWf = true → (f c v).memWf = true) := s.onCores_memWf p f h hf
    split
    · rw [State.tellGroup_memWf, State.setPart_memWf]
      refine hcores _ fun c v hv => ?_
      split
      · exact Core.start_memWf _ _ _ _ _ _ _ hv
      · exact Core.start_memWf _ _ _ _ _ _ _ hv
    · rw [State.setPart_memWf]
      refine hcores _ fun c v hv => ?_
      split
      · exact Core.start_memWf _ _ _ _ _ _ _ hv
      · exact Core.start_memWf _ _ _ _ _ _ _ hv
  · exact .next h

theorem execRefreshSlot_wf {s : State} (p : Fin 4) (h : s.memWf = true) : Result.Wf (execRefreshSlot p s) := by
  unfold execRefreshSlot
  dsimp only
  split
  · exact .next h
  · exact .next h

theorem execSequencerProgress_wf {s : State} (p : Fin 4) (h : s.memWf = true) : Result.Wf (execSequencerProgress p s) := by
  unfold execSequencerProgress
  split
  · exact .next h
  · exact .next h
  · exact .next h

@[simp] theorem State.queueFault_memWf (s : State) (p n e : Nat) (x : Nat × Nat × Nat × Bool × Bool) (f : FaultInfo) :
    (s.queueFault p n e x f).memWf = s.memWf := by
  unfold State.queueFault
  simp

theorem State.dogQueues_memWf (s : State) (p : Nat) (h : s.memWf = true) : (s.dogQueues p).memWf = true :=
  State.foldl_memWf _ _ _ h fun t n ht => by
    dsimp only
    split
    · simpa using ht
    · exact ht

theorem State.dogPhase_memWf (s : State) (p : Nat) (h : s.memWf = true) : (s.dogPhase p).memWf = true := by
  have hclear (t : State) (ht : t.memWf = true) := t.clearBank_memWf p ht
  unfold State.dogPhase
  dsimp only
  split
  · split
    · exact h
    split
    · exact State.preempt_memWf _ _ h
    split
    · exact State.dogStop_memWf _ _ (hclear _ h)
    · exact hclear _ h
  · split
    · exact State.dogStop_memWf _ _ (hclear _ h)
    · exact hclear _ h
  · exact h

theorem execGateWatchdogExpiry_wf {s : State} (p : Fin 4) (h : s.memWf = true) : Result.Wf (execGateWatchdogExpiry p s) := by
  have hd := s.dogQueues_memWf p h
  unfold execGateWatchdogExpiry
  dsimp only
  refine .next ?_
  rw [State.armDog_memWf]
  split
  · exact State.dogPhase_memWf _ _ hd
  · exact hd

end Sys2Proof.Machine
end

section
/-! PROOF. Every step keeps every memory in canonical form (O60): faults and what is done about them. -/

namespace Sys2Proof.Machine

theorem Core.afterDrain_memWf (c : Core) : c.afterDrain.memWf = c.memWf := rfl

theorem Core.regs_memWf (c : Core) (r : Regs) : Core.memWf { c with regs := r } = c.memWf := rfl

/-! ### Capture and the driver's actions -/

theorem State.capture_memWf (s : State) (p : Nat) (h : s.memWf = true) : (s.capture p).memWf = true := by
  unfold State.capture
  dsimp only
  split
  · exact h
  rename_i a _
  have hd := s.applyDeferred_memWf p h
  generalize s.applyDeferred p = u at hd ⊢
  generalize (((s.part p).job.bind Job.entry).map (·.replayable)).getD false = r
  have hclear : (if r then (u, 0) else u.clearBank p).1.memWf = true := by
    cases r
    · exact u.clearBank_memWf p hd
    · exact hd
  generalize (if r then (u, 0) else u.clearBank p) = v at hclear ⊢
  obtain ⟨v, wait⟩ := v
  dsimp only at hclear ⊢
  split
  · exact hclear
  refine State.releaseSystem_memWf _ ?_
  rw [State.stopJob_memWf, State.onPart_memWf]
  refine State.onCores_memWf _ _ _ ?_ fun _ _ hv => hv
  cases r
  · exact State.saveBanks_memWf _ _ _ hclear
  · exact hclear

theorem execFaultCapture_wf {s : State} (p : Fin 4) (h : s.memWf = true) : Result.Wf (execFaultCapture p s) :=
  .next (s.capture_memWf p h)

theorem execAbortMessage_wf {s : State} (p : Fin 4) (h : s.memWf = true) : Result.Wf (execAbortMessage p s) := by
  have hmessage : Result.Wf (if !s.sysPhase p then .next (s.onPart p fun x => { x with groupStopped := true })
      else if (s.part p).abort.isNone then .next (s.takeFault p ((s.part p).k - 1) ⟨0x09, 1, none, none, 6, 0, []⟩)
      else .next s) := by
    split
    · exact .next h
    split
    · exact .next (by simpa using h)
    · exact .next h
  unfold execAbortMessage
  dsimp only
  split
  · exact hmessage
  · exact hmessage
  · exact .next (State.capture_memWf _ _ (by simpa using h))
  · exact .next (State.releaseSystem_memWf _ (State.hearStop_memWf _ _ h))
  · exact .next h
  · exact .next h
  · exact .next h
  · exact .next h
  · exact .next h

theorem State.dropJob_memWf (s : State) (p : Nat) (h : s.memWf = true) : (s.dropJob p).memWf = true := by
  unfold State.dropJob
  split
  · dsimp only
    have hc : ((s.cancelSequencer p).onCores p fun _ co => co.afterDrain).memWf = true :=
      State.onCores_memWf _ _ _ h fun _ _ hv => hv
    rw [State.onPart_memWf]
    split
    · exact hc
    · exact hc
  · exact h

theorem State.wakeDie_memWf (s : State) (d n : Nat) (h : s.memWf = true) : (s.wakeDie d n).memWf = true := by
  unfold State.wakeDie
  exact State.foldl_memWf _ _ _ h fun t c ht => ht

theorem State.testPartition_memWf (s : State) (p : Nat) (h : s.memWf = true) : (s.testPartition p).memWf = true := by
  unfold State.testPartition
  split
  · exact h
  · exact State.foldl_memWf _ _ _ h fun t i ht => t.wakeDie_memWf _ _ ht

theorem State.untest_memWf (s : State) (p : Nat) (h : s.memWf = true) : (s.untest p).memWf = true :=
  State.foldl_memWf _ _ _ h fun t q ht => ht

theorem State.abandon_memWf (s : State) (p : Nat) (h : s.memWf = true) : (s.abandon p).memWf = true := by
  unfold State.abandon
  dsimp only
  split
  · exact h
  generalize (((s.part p).frec.map (·.info.cls)) == some 4 || !s.tested p) = b
  have huntest : (if b then s.untest p else s).memWf = true := by
    cases b
    · exact h
    · exact s.untest_memWf p h
  generalize (if b then s.untest p else s) = u at huntest ⊢
  have hdrop : (if (s.part p).seq == .stopped || (s.part p).seq.isDebug then (u.onPart p fun x => { x with frec := none }).dropJob p
      else u.onPart p fun x => { x with frec := none }).memWf = true := by
    split
    · exact State.dropJob_memWf _ _ huntest
    · exact huntest
  generalize (if (s.part p).seq == .stopped || (s.part p).seq.isDebug then (u.onPart p fun x => { x with frec := none }).dropJob p
      else u.onPart p fun x => { x with frec := none }) = v at hdrop ⊢
  have hdone := State.completeJobs_memWf _ p (v.applyHeld_memWf p hdrop)
  rw [State.tryLaunch_memWf]
  refine State.releaseSystem_memWf _ ?_
  cases b
  · exact hdone
  · exact State.testPartition_memWf _ _ hdone

theorem State.retry_memWf (s : State) (p : Nat) (h : s.memWf = true) : (s.retry p).memWf = true := by
  unfold State.retry
  dsimp only
  split
  · exact h
  split
  · exact h
  split
  · exact h
  split
  · exact h
  rename_i r _ _ _ _
  have hr : (if r.banked then s.restoreBanks p false else s).memWf = true := by
    split
    · exact s.restoreBanks_memWf p false h
    · exact h
  generalize (if r.banked then s.restoreBanks p false else s) = u at hr ⊢
  split
  · exact State.step4_memWf _ _ hr
  · exact State.step5_memWf _ _ _ hr
  · exact State.step7_memWf _ _ _ hr
  · exact State.step8_memWf _ _ hr
  · exact State.step9_memWf _ _ hr

theorem State.replayPhase_memWf (s : State) (p : Nat) (h : s.memWf = true) : (s.replayPhase p).memWf = true := by
  unfold State.replayPhase
  dsimp only
  split
  · split
    · exact State.rerun_memWf _ _ _ _ h
    · exact h
  · exact h

theorem execAbandon_wf {s : State} (p : Fin 4) (h : s.memWf = true) : Result.Wf (execAbandon p s) := .next (s.abandon_memWf p h)
theorem execRetry_wf {s : State} (p : Fin 4) (h : s.memWf = true) : Result.Wf (execRetry p s) := .next (s.retry_memWf p h)
theorem execReplay_wf {s : State} (p : Fin 4) (h : s.memWf = true) : Result.Wf (execReplay p s) := .next (s.replayPhase_memWf p h)

/-! ### Machine checks and memory errors -/

theorem State.machineCheck_memWf (s : State) (p n : Nat) (c : Option Nat) (h : s.memWf = true) : (s.machineCheck p n c).memWf = true :=
  State.eventFault_memWf _ _ _ _ (s.untest_memWf p h)

@[simp] theorem State.sedEcc_memWf (s : State) (u : EccUnit) (c a : Nat) (b : Bool) : (s.sedEcc u c a b).memWf = s.memWf := rfl
@[simp] theorem State.stepVoltage_memWf (s : State) (d n c : Nat) : (s.stepVoltage d n c).memWf = s.memWf := rfl

theorem Core.poisonReg_memWf {c d : Core} {a : Nat} (h : c.poisonReg a = some d) : d.memWf = c.memWf := by
  unfold Core.poisonReg at h
  split at h
  · obtain rfl := Option.some.inj h
    exact c.regs_memWf _
  split at h
  · obtain rfl := Option.some.inj h
    exact c.regs_memWf _
  · cases h

theorem State.poisonAt_memWf (s : State) (u : EccUnit) (c a : Nat) (h : s.memWf = true) : (s.poisonAt u c a).1.memWf = true := by
  obtain ⟨h1, h2, h3, h4, h5, h6⟩ := (Core.memWf_iff _).mp (s.core_memWf c h)
  cases u with
  | mrf =>
    refine s.setCore_memWf _ _ h ((Core.memWf_iff _).mpr ⟨h1, h2, h3, h4, ?_, h6⟩)
    dsimp only
    split
    · exact mapDel_sorted _ _ h5
    · exact mapDel_sorted _ _ (mapDel_sorted _ _ h5)
  | ab => exact s.setCore_memWf _ _ h ((Core.memWf_iff _).mpr ⟨Mem.mark_wf _ _ _ _ h1, h2, h3, h4, h5, h6⟩)
  | wb => exact s.setCore_memWf _ _ h ((Core.memWf_iff _).mpr ⟨h1, Mem.mark_wf _ _ _ _ h2, h3, h4, h5, h6⟩)
  | sdm => exact s.setCore_memWf _ _ h ((Core.memWf_iff _).mpr ⟨h1, h2, Mem.mark_wf _ _ _ _ h3, h4, h5, h6⟩)
  | gm =>
    unfold State.poisonAt
    dsimp only
    split
    · exact h
    · exact s.put_memWf _ _ h rfl
  | hbm =>
    obtain ⟨g1, g⟩ := (State.memWf_iff s).mp h
    refine (State.memWf_iff _).mpr ⟨?_, g⟩
    dsimp only [State.poisonAt]
    split
    · exact Mem.mark_wf _ _ _ _ g1
    · exact g1
  | im | pool => exact h
  | hub => exact h
  | reg =>
    unfold State.poisonAt
    dsimp only
    split
    · rename_i d hd
      exact s.put_memWf _ _ h (Core.poisonReg_memWf hd)
    · exact h

theorem execUncorrectableError_wf {s : State} (u : EccUnit) (c : Fin 96) (a : Nat) (h : s.memWf = true) :
    Result.Wf (execUncorrectableError u c a s) := by
  have hp := s.poisonAt_memWf u c a h
  unfold execUncorrectableError
  generalize s.poisonAt u c a = r at hp ⊢
  obtain ⟨t, check⟩ := r
  have hstep : State.memWf (match domainOf u c with
      | some d =>
        if 0 < (t.sedEcc u c a true).mod.uvOff[(Fin.ofNat 16 d)] then
          let t := (t.sedEcc u c a true).stepVoltage d 0 2
          { t with mod := { t.mod with uvDis := t.mod.uvDis ||| BitVec.ofNat 16 (2 ^ d) } }
        else t.sedEcc u c a true
      | none => t.sedEcc u c a true) = true := by
    split
    · split
      · exact hp
      · exact hp
    · exact hp
  dsimp only at hstep ⊢
  refine .next ?_
  split
  · exact State.machineCheck_memWf _ _ _ _ hstep
  · exact State.machineCheck_memWf _ _ _ _ hstep
  · exact hstep

theorem execCorrectedError_wf {s : State} (u : EccUnit) (c : Fin 96) (a : Nat) (h : s.memWf = true) :
    Result.Wf (execCorrectedError u c a s) := by
  unfold execCorrectedError
  dsimp only
  refine .next ?_
  split
  · exact h
  · exact h

theorem execHeartbeatCheck_wf {s : State} (p : Fin 4) (h : s.memWf = true) : Result.Wf (execHeartbeatCheck p s) := by
  unfold execHeartbeatCheck
  dsimp only
  refine .next ?_
  generalize (if (s.part p).lastProg = some (s.part p).progress && !(s.part p).resting then (s.part p).stale + 1 else 0) = n
  split
  · exact State.machineCheck_memWf _ _ _ _ h
  · exact h

/-! ### Pre-emption, invalidations, dumps -/

theorem execPreemptRequest_wf {s : State} (p : Fin 4) (h : s.memWf = true) : Result.Wf (execPreemptRequest p s) := .next h

/-- The contexts of a partition's cores restored from the save area. -/
def State.readBack (s : State) (p base : Nat) : State :=
  (place 0 (s.coresOf p)).foldl (fun (s : State) c =>
    s.setCore c.2 ((s.core c.2).restore false (s.readContext (base + 0x400000 * (c.1 + 1))))) s

theorem State.readBack_memWf (s : State) (p b : Nat) (h : s.memWf = true) : (s.readBack p b).memWf = true :=
  State.foldl_memWf _ _ _ h fun t c ht =>
    t.setCore_memWf _ _ ht (Core.restore_memWf _ _ _ (t.core_memWf _ ht) (t.readContext_sorted _))

theorem execPreemptResume_wf {s : State} (p : Fin 4) (h : s.memWf = true) : Result.Wf (execPreemptResume p s) := by
  unfold execPreemptResume
  dsimp only
  split
  · split
    · exact .next h
    split
    · exact .next (s.machineCheck_memWf _ _ _ h)
    rename_i j x _ _ _ _
    have hr := s.refill_memWf p (j.live x) h
    have hback : (if (s.part p).held = 1 then (s.refill p (j.live x)).restoreBanks p false
        else (s.refill p (j.live x)).readBack p (s.part p).sbase).memWf = true := by
      split
      · exact State.restoreBanks_memWf _ _ _ hr
      · exact State.readBack_memWf _ _ _ hr
    exact .next (State.step5_memWf _ _ _ hback)
  · exact .next h

theorem State.invalidate_memWf (s : State) (p : Nat) (va : Option Nat) (h : s.memWf = true) : (s.invalidate p va).memWf = true := by
  unfold State.invalidate
  dsimp only
  split
  · exact h
  · exact h
  · exact h
  · exact h
  · exact h

theorem execInvalidateOne_wf {s : State} (p : Fin 4) (h : s.memWf = true) : Result.Wf (execInvalidateOne p s) :=
  .next (s.invalidate_memWf p _ h)
theorem execInvalidateAll_wf {s : State} (p : Fin 4) (h : s.memWf = true) : Result.Wf (execInvalidateAll p s) :=
  .next (s.invalidate_memWf p _ h)
theorem execCcntClear_wf {s : State} (p : Fin 4) (h : s.memWf = true) : Result.Wf (execCcntClear p s) := .next h

theorem execDumpStart_wf {s : State} (p : Fin 4) (h : s.memWf = true) : Result.Wf (execDumpStart p s) := by
  unfold execDumpStart
  dsimp only
  split
  · exact .next h
  · refine .next ?_
    rw [State.schedule_memWf, State.onPart_memWf]
    exact State.writeContexts_memWf _ _ _ _ _ (s.homeWrite_memWf _ _ _ h)

theorem execDumpComplete_wf {s : State} (p : Fin 4) (h : s.memWf = true) : Result.Wf (execDumpComplete p s) := .next h

end Sys2Proof.Machine
end

section
/-! PROOF. Every step keeps every memory in canonical form (O60): start-up, attestation, debug stops, the fleet operator's side. -/

namespace Sys2Proof.Machine

@[simp] theorem State.onMod_memWf (s : State) (f : Module → Module) : (s.onMod f).memWf = s.memWf := rfl
@[simp] theorem State.sedModule_memWf (s : State) (e : Nat) (b : Bool) : (s.sedModule e b).memWf = s.memWf := rfl

theorem Result.Wf.ite (b : Prop) [Decidable b] {q r : Result} (hq : q.Wf) (hr : r.Wf) : Result.Wf (if b then q else r) := by
  split
  · exact hq
  · exact hr

/-! ### Start-up -/

theorem State.startUp_memWf (s : State) (m : Module) (h : s.memWf = true) : (s.startUp m).memWf = true := by
  obtain ⟨-, -, -, g4, g5⟩ := (State.memWf_iff _).mp State.reset_memWf
  obtain ⟨h1, h2, h3, -, -⟩ := (State.memWf_iff _).mp h
  have hreset (v : Module) (b : List Ev) (q : List Output) (n k t u : Nat) : State.memWf { State.reset with
      mod := v, hbm := s.hbm, host := s.host, peer := s.peer, now := n, pgood := k, agenda := b, evSeq := t, outputs := q, fresh := u } = true :=
    (State.memWf_iff _).mpr ⟨h1, h2, h3, g4, g5⟩
  unfold State.startUp
  dsimp only
  split
  · rw [State.schedule_memWf]
    exact State.foldl_memWf _ _ _ (hreset ..) fun t d ht => t.wakeDie_memWf _ _ ht
  · exact hreset ..

theorem State.restart_memWf (s : State) (h : s.memWf = true) : s.restart.memWf = true := s.startUp_memWf _ h

theorem execPowerGood_wf {s : State} (h : s.memWf = true) : Result.Wf (execPowerGood s) := by
  have h0 : State.memWf { s with pgood := s.now } = true := h
  unfold execPowerGood
  dsimp only
  refine .next ?_
  rw [State.sedModule_memWf]
  exact State.startUp_memWf _ _ h0

theorem Core.afterTest_memWf (c : Core) (h : c.memWf = true) : c.afterTest.memWf = true := by
  obtain ⟨-, -, -, -, -, h6⟩ := (Core.memWf_iff c).mp h
  exact (Core.memWf_iff _).mpr ⟨rfl, rfl, rfl, rfl, rfl, h6⟩

theorem State.noHbm_memWf (s : State) (h : s.memWf = true) : State.memWf { s with hbm := Mem.empty } = true := by
  obtain ⟨-, g⟩ := (State.memWf_iff s).mp h
  exact (State.memWf_iff _).mpr ⟨rfl, g⟩

theorem execDieWake_wf {s : State} (d : Fin 8) (x : Fin 12 × Bool) (h : s.memWf = true) : Result.Wf (execDieWake d x s) := by
  unfold execDieWake
  have h1 : State.memWf (if s.mod.stage < 3 then (s.onMod fun m => { m with stage := 3 }) else s) = true := by
    split
    · exact h
    · exact h
  generalize (if s.mod.stage < 3 then (s.onMod fun m => { m with stage := 3 }) else s) = t at h1 ⊢
  dsimp only
  have h2 : State.memWf (if t.mod.stage = 3 ∧ 12 * d.val + x.1.val = 0 then { t with hbm := Mem.empty } else t) = true := by
    split
    · exact t.noHbm_memWf h1
    · exact h1
  generalize (if t.mod.stage = 3 ∧ 12 * d.val + x.1.val = 0 then { t with hbm := Mem.empty } else t) = u at h2 ⊢
  have h3 := u.setCore_memWf (12 * d.val + x.1.val) _ h2 (Core.afterTest_memWf _ (u.core_memWf (12 * d.val + x.1.val) h2))
  generalize u.setCore (12 * d.val + x.1.val) (u.core (12 * d.val + x.1.val)).afterTest = v at h3 ⊢
  refine .next ?_
  rw [State.tryLaunch_memWf]
  split
  · rw [State.onMod_memWf, State.onPart_memWf]
    split
    · exact h3
    · exact h3
  · split
    · exact h3
    · exact h3

theorem execStartupDone_wf {s : State} (h : s.memWf = true) : Result.Wf (execStartupDone s) := by
  unfold execStartupDone
  extract_lets t u
  have ht : t.memWf = true := (State.sedModule_memWf ..).trans h
  have hu : u.memWf = true := State.foldl_memWf _ _ _ ht fun v p hv => (State.schedule_memWf ..).trans hv
  refine .next ?_
  rw [State.schedule_memWf, State.schedule_memWf, State.schedule_memWf]
  exact hu

theorem execRecGo_wf {s : State} (h : s.memWf = true) : Result.Wf (execRecGo s) := by
  unfold execRecGo
  split
  · exact .next h
  dsimp only
  split
  · exact .next (State.restart_memWf _ h)
  · exact .next h

theorem execPcieConfigRequest_wf {s : State} (h : s.memWf = true) : Result.Wf (execPcieConfigRequest s) := .next h

/-! ### Attestation, boundary scan and fuses -/

theorem State.spdm_wf {s : State} (q r : Nat) (f : List Byte → List Byte) (k : List Byte → Module → Module) (h : s.memWf = true) :
    Result.Wf (s.spdm q r f k) := by
  unfold State.spdm
  split
  · exact .next h
  · exact .next h

theorem execGetMeasurements_wf {s : State} (i : Nat) (sg : Option (List Byte)) (h : s.memWf = true) :
    Result.Wf (execGetMeasurements i sg s) := by
  unfold execGetMeasurements
  dsimp only
  split
  · exact s.spdm_wf _ _ _ _ h
  · exact s.spdm_wf _ _ _ _ h

theorem State.trace_memWf (s : State) : s.trace.memWf = s.memWf := by
  unfold State.trace
  split
  · exact State.onMod_memWf _ _
  · rfl

theorem execMctpControlMessage_wf {s : State} (q : List Byte) (h : s.memWf = true) : Result.Wf (execMctpControlMessage q s) := by
  unfold execMctpControlMessage
  dsimp only
  split
  · exact .next h
  · refine .next ?_
    rw [State.emit_memWf]
    split
    · exact h
    · exact h

theorem execDbgGo_wf {s : State} (h : s.memWf = true) : Result.Wf (execDbgGo s) := by
  unfold execDbgGo
  dsimp only
  split
  · exact .next h
  split
  · exact .next h
  · exact .next h

theorem execLifeCycleFuse_wf {s : State} (l : LifeCycle) (b : Bool) (h : s.memWf = true) : Result.Wf (execLifeCycleFuse l b s) := by
  unfold execLifeCycleFuse
  refine .next ?_
  split
  · exact h
  · exact h

/-! ### Debug stops -/

theorem State.undoEntry_memWf (s : State) (n : Nat) (j : JEntry) (h : s.memWf = true) : (s.undoEntry n j).memWf = true := by
  obtain ⟨h1, g⟩ := (State.memWf_iff s).mp h
  refine (State.memWf_iff _).mpr ⟨?_, g⟩
  dsimp only [State.undoEntry]
  split
  · exact Mem.mark_wf _ _ _ _ (Mem.store_wf _ _ _ _ (Mem.mark_wf _ _ _ _ h1))
  · exact Mem.store_wf _ _ _ _ (Mem.mark_wf _ _ _ _ h1)

theorem State.undoJournal_memWf (s : State) (p : Nat) (h : s.memWf = true) : (s.undoJournal p).memWf = true :=
  State.foldl_memWf _ _ _ h fun t e ht => t.undoEntry_memWf _ _ ht

theorem execDebugStop_wf {s : State} (p : Fin 4) (h : s.memWf = true) : Result.Wf (execDebugStop p s) := by
  have hdrain := s.onCores_memWf p (fun _ co => co.afterDrain) h fun _ _ hv => hv
  unfold execDebugStop
  dsimp only
  split
  · exact .next h
  split
  · exact .next h
  split
  · exact .next h
  split
  · have hundo := State.undoJournal_memWf _ p hdrain
    refine .next (State.rerun_memWf _ _ _ _ ?_)
    rw [State.sedReplay_memWf, State.onPart_memWf]
    exact hundo
  · exact .next (State.releaseSystem_memWf _ hdrain)

theorem execDstop_wf {s : State} (p : Fin 4) (h : s.memWf = true) : Result.Wf (execDstop p s) := by
  unfold execDstop
  dsimp only
  split
  · exact .next h
  split
  · exact .next (by simpa using h)
  · exact .next h
  · exact .next h
  · exact .next h

theorem execDcont_wf {s : State} (p : Fin 4) (h : s.memWf = true) : Result.Wf (execDcont p s) := by
  unfold execDcont
  dsimp only
  split
  · split
    · exact .next h
    · exact .next h
  · exact .next h

/-! ### Power and temperature -/

@[simp] theorem State.sedPower_memWf (s : State) (w e u : Nat) : (s.sedPower w e u).memWf = s.memWf := rfl

@[simp] theorem State.overEnds_memWf (s : State) (w : Nat) : (s.overEnds w).memWf = s.memWf := by
  unfold State.overEnds
  split
  · dsimp only
    split <;> rfl
  · rfl

theorem execPowerSample_wf {s : State} (w : Nat) (m : Fin 1000) (h : s.memWf = true) : Result.Wf (execPowerSample w m s) := by
  unfold execPowerSample
  have hsample : (s.sample (1000 * w + m.val)).memWf = true := h
  dsimp only
  generalize s.sample (1000 * w + m.val) = t at hsample ⊢
  have hover : State.memWf (if 1000 * t.mod.limit < 1000 * w + m.val then
      t.onMod fun m => { m with overFrom := some (m.overFrom.getD t.now) } else t.overEnds w) = true := by
    split
    · exact hsample
    · simpa using hsample
  generalize (if 1000 * t.mod.limit < 1000 * w + m.val then
      t.onMod fun m => { m with overFrom := some (m.overFrom.getD t.now) } else t.overEnds w) = u at hover ⊢
  refine .ite _ (.next ?_) (.ite _ (.next ?_) (.next ?_))
  · rw [State.sedPower_memWf, State.onMod_memWf, State.onMod_memWf]
    exact hover
  · rw [State.sedPower_memWf, State.onMod_memWf, State.onMod_memWf]
    exact hover
  · rw [State.onMod_memWf]
    exact hover

@[simp] theorem State.sedThermal_memWf (s : State) (d : Diode) (t e : Nat) : (s.sedThermal d t e).memWf = s.memWf := rfl

theorem ite_memWf (b : Prop) [Decidable b] {t u : State} (ht : t.memWf = true) (hu : u.memWf = true) :
    (if b then t else u).memWf = true := by
  split
  · exact ht
  · exact hu

theorem State.reportDiode_memWf (s : State) (d : Diode) (t : Nat) (a b : Bool × Bool × Bool) (h : s.memWf = true) :
    (s.reportDiode d t a b).memWf = true := by
  have h1 := ite_memWf (a.1 = b.1) h (u := s.sedThermal d t (if b.1 then 0 else 1)) h
  unfold State.reportDiode
  generalize (if a.1 = b.1 then s else s.sedThermal d t (if b.1 then 0 else 1)) = v at h1 ⊢
  have h2 := ite_memWf (a.2.1 = b.2.1) h1 (u := v.sedThermal d t (if b.2.1 then 2 else 3)) h1
  dsimp only
  generalize (if a.2.1 = b.2.1 then v else v.sedThermal d t (if b.2.1 then 2 else 3)) = w at h2 ⊢
  have h3 := ite_memWf (a.2.1 && !b.2.1) (t := w.onPart d.part fun x => { x with throtClear := w.now }) h2 h2
  exact ite_memWf _ h3 h3

theorem State.pollCore_memWf (s : State) (i : Fin 96) (t : Nat) (h : s.memWf = true) : (s.pollCore i t).memWf = true :=
  State.reportDiode_memWf _ _ _ _ _ h

theorem State.pollBase_memWf (s : State) (i : Fin 48) (t : Nat) (h : s.memWf = true) : (s.pollBase i t).memWf = true :=
  State.reportDiode_memWf _ _ _ _ _ h

theorem State.freezePart_memWf (s : State) (p : Nat) (h : s.memWf = true) : (s.freezePart p).memWf = true := by
  unfold State.freezePart
  dsimp only
  split
  · exact h
  · exact h
  · exact h
  · simpa using h
  · exact h
  · exact h

theorem State.shutDown_memWf (s : State) (h : s.memWf = true) : s.shutDown.memWf = true := by
  have hf : ((range' 0 4).foldl (fun (s : State) p => if s.mod.partOf p = p then s.freezePart p else s) s).memWf = true :=
    State.foldl_memWf _ _ _ h fun t p ht => ite_memWf _ (t.freezePart_memWf p ht) ht
  unfold State.shutDown
  dsimp only
  rw [State.schedule_memWf, State.onMod_memWf, State.flashCopy_memWf, State.sedModule_memWf]
  exact hf

theorem State.powerDown_memWf (s : State) (h : s.memWf = true) : s.powerDown.memWf = true := by
  obtain ⟨-, -, -, g4, -⟩ := (State.memWf_iff _).mp State.reset_memWf
  obtain ⟨-, h2, h3, -, h5⟩ := (State.memWf_iff _).mp h
  exact (State.memWf_iff _).mpr ⟨rfl, h2, h3, g4, h5⟩

theorem execThermalPoll_wf {s : State} (c b : List Nat) (h : s.memWf = true) : Result.Wf (execThermalPoll c b s) := by
  unfold execThermalPoll
  have h0 : (s.onMod fun m => { m with coreTemp := (c ++ List.replicate 96 0).take 96, baseTemp := (b ++ List.replicate 48 0).take 48 }).memWf
      = true := h
  generalize (s.onMod fun m => { m with
    coreTemp := (c ++ List.replicate 96 0).take 96, baseTemp := (b ++ List.replicate 48 0).take 48 }) = t at h0 ⊢
  have h1 : ((place 0 t.mod.coreTemp).foldl (fun (s : State) x => s.pollCore (Fin.ofNat 96 x.1) x.2) t).memWf = true :=
    State.foldl_memWf _ _ _ h0 fun u x hu => u.pollCore_memWf _ _ hu
  dsimp only
  generalize (place 0 t.mod.coreTemp).foldl (fun (s : State) x => s.pollCore (Fin.ofNat 96 x.1) x.2) t = u at h1 ⊢
  have h2 : ((place 0 u.mod.baseTemp).foldl (fun (s : State) x => s.pollBase (Fin.ofNat 48 x.1) x.2) u).memWf = true :=
    State.foldl_memWf _ _ _ h1 fun u x hu => u.pollBase_memWf _ _ hu
  exact .next (ite_memWf _ (State.shutDown_memWf _ h2) h2)

theorem execHbmTempRead_wf {s : State} (cs : List Nat) (h : s.memWf = true) : Result.Wf (execHbmTempRead cs s) :=
  .next (State.foldl_memWf _ _ (s.onMod fun m => { m with hbmCode := Vector.ofFn fun i => min 2 (nth cs i.val 0) }) h
    fun t p ht => ite_memWf _ ht ht)

/-! ### Undervolting, heartbeats, the flash, telemetry -/

theorem State.stepDomain_memWf (s : State) (d : Nat) (h : s.memWf = true) : (s.stepDomain d).memWf = true := by
  unfold State.stepDomain
  dsimp only
  exact ite_memWf _ h (ite_memWf _ h (ite_memWf _ h h))

theorem execUndervoltStep_wf {s : State} (h : s.memWf = true) : Result.Wf (execUndervoltStep s) :=
  .next (State.foldl_memWf State.stepDomain (List.range 16) s h fun t d ht => t.stepDomain_memWf d ht)

theorem State.writeUvEn_memWf (s : State) (v : W64) (h : s.memWf = true) : (s.writeUvEn v).memWf = true :=
  State.foldl_memWf _ _ (s.onMod fun m => { m with uvEn := v.setWidth 16 }) h fun t d ht => ite_memWf _ ht ht

theorem execUvEnWrite_wf {s : State} (v : W64) (h : s.memWf = true) : Result.Wf (execUvEnWrite v s) := .next (s.writeUvEn_memWf v h)

theorem execFirmwareHeartbeat_wf {s : State} (h : s.memWf = true) : Result.Wf (execFirmwareHeartbeat s) := by
  unfold execFirmwareHeartbeat
  have ht := ((s.onMod fun m => { m with hbCnt := m.hbCnt + 1, hbAt := s.now }).trace_memWf).trans h
  generalize (s.onMod fun m => { m with hbCnt := m.hbCnt + 1, hbAt := s.now }).trace = t at ht ⊢
  exact .next (ite_memWf _ ht ht)

theorem execHeartbeatLoss_wf {s : State} (h : s.memWf = true) : Result.Wf (execHeartbeatLoss s) := by
  unfold execHeartbeatLoss
  split
  · exact .next h
  · exact .next (State.restart_memWf _ (by simpa using h))

theorem execFlashCopy_wf {s : State} (h : s.memWf = true) : Result.Wf (execFlashCopy s) := by
  unfold execFlashCopy
  split
  · exact .next (s.powerDown_memWf h)
  split
  · exact .next h
  dsimp only
  split
  · exact .next (by simpa using h)
  split
  · exact .next h
  · exact .next h

theorem State.selectTelemetry_memWf (s : State) (v : W64) : (s.selectTelemetry v).memWf = s.memWf := rfl
theorem State.selectSediment_memWf (s : State) (v : W64) : (s.selectSediment v).memWf = s.memWf := rfl

/-! ### PLDM and links -/

theorem State.pldm2_wf {s : State} (c n : Nat) (d : List Byte) (h : s.memWf = true) : Result.Wf (s.pldm2 c n d) := .next h

theorem execGetsensorreading_wf {s : State} (i : Nat) (h : s.memWf = true) : Result.Wf (execGetsensorreading i s) := by
  unfold execGetsensorreading
  split
  · exact .next h
  · exact .next h

theorem execGetnumericeffectervalue_wf {s : State} (i : Nat) (h : s.memWf = true) : Result.Wf (execGetnumericeffectervalue i s) := by
  unfold execGetnumericeffectervalue
  split
  · exact .next h
  · exact .next h

theorem execSetnumericeffectervalue_wf {s : State} (i v : Nat) (h : s.memWf = true) : Result.Wf (execSetnumericeffectervalue i v s) := by
  unfold execSetnumericeffectervalue
  split
  · exact .next h
  split
  · exact .next h
  split
  · exact .next h
  split
  · exact .next h
  · exact .next h

theorem execPollforplatformeventmessage_wf {s : State} (h : s.memWf = true) : Result.Wf (execPollforplatformeventmessage s) := by
  unfold execPollforplatformeventmessage
  split
  · exact .next h
  · exact .next h

theorem execGetpdr_wf {s : State} (r : Nat) (h : s.memWf = true) : Result.Wf (execGetpdr r s) := by
  unfold execGetpdr
  split
  · exact .next h
  · exact .next h

theorem execPldmBaseRequest_wf {s : State} (q : PldmBase) (h : s.memWf = true) : Result.Wf (execPldmBaseRequest q s) := by
  unfold execPldmBaseRequest
  split
  · exact .next h
  · exact .next h
  · exact .next h
  · exact .next h
  · exact .next h

theorem execLinkRetrain_wf {s : State} (p : Nat) (h : s.memWf = true) : Result.Wf (execLinkRetrain p s) := .next h
theorem execLinkCorrectedBlocks_wf {s : State} (p n : Nat) (h : s.memWf = true) : Result.Wf (execLinkCorrectedBlocks p n s) := .next h

end Sys2Proof.Machine
end

section
/-! PROOF. Every step keeps every memory in canonical form (O60): launches, the decode service, the host port. -/

namespace Sys2Proof.Machine

@[simp] theorem State.onQueue_memWf (s : State) (p n : Nat) (f : Queue → Queue) : (s.onQueue p n f).memWf = s.memWf := rfl
@[simp] theorem State.sedLaunch_memWf (s : State) (p e q r : Nat) (t : W64) : (s.sedLaunch p e q r t).memWf = s.memWf := rfl
@[simp] theorem State.sedDecode_memWf (s : State) (p n e : Nat) : (s.sedDecode p n e).memWf = s.memWf := rfl

theorem State.writePieces_memWf (x : Source) (hs : List (Home × Nat)) (s : State) (bs : List (Option Byte)) (h : s.memWf = true) :
    (s.writePieces x hs bs).memWf = true := by
  induction hs generalizing s bs with
  | nil => exact h
  | cons p hs ih =>
    obtain ⟨a, n⟩ := p
    exact ih _ _ (s.arrive_memWf _ h)

/-! ### Queues -/

@[simp] theorem State.fetchHead_memWf (s : State) (p n : Nat) : (s.fetchHead p n).memWf = s.memWf := by
  unfold State.fetchHead
  dsimp only
  split <;> rfl

theorem State.ring_memWf (s : State) (p n : Nat) (t : BitVec 32) (h : s.memWf = true) : (s.ring p n t).memWf = true := by
  unfold State.ring
  dsimp only
  refine ite_memWf _ h (ite_memWf _ (ite_memWf _ h ?_) ?_)
  · simpa using h
  · simpa using h

@[simp] theorem State.queueControl_memWf (s : State) (p n : Nat) (a b c : Bool) : (s.queueControl p n a b c).memWf = s.memWf := by
  unfold State.queueControl
  simp

theorem execRecordFetch_wf {s : State} (p : Fin 4) (q : Fin 64) (h : s.memWf = true) : Result.Wf (execRecordFetch p q s) := by
  unfold execRecordFetch
  extract_lets x
  split
  · exact .next h
  split
  · exact .next (by simpa using h)
  split
  · split
    · exact .next (by simpa using h)
    · exact .next h
  split
  · exact .next (by simpa using h)
  · extract_lets t
    have ht : t.memWf = true := h
    refine .next ?_
    rw [State.tryLaunch_memWf]
    exact ite_memWf _ (by simpa using ht) ht

theorem execLaunchGateEvaluation_wf {s : State} (p : Fin 4) (q : Fin 64) (h : s.memWf = true) :
    Result.Wf (execLaunchGateEvaluation p q s) := by
  unfold execLaunchGateEvaluation
  extract_lets x
  split
  · exact .next h
  split
  · exact .next h
  split
  · split
    · exact .next (by simpa using h)
    · exact .next (by simpa using h)
  · split
    · exact .next (by simpa using h)
    · exact .next (by simpa using h)
    · exact .next (by simpa using h)

/-! ### The launch unit -/

@[simp] theorem State.refuseLaunch_memWf (s : State) (p n : Nat) (l : Launch) (e : Option LoadErr) :
    (s.refuseLaunch p n l e).memWf = s.memWf := by
  unfold State.refuseLaunch
  cases e <;> simp

theorem Core.forJob_memWf (c : Core) (b : Bool) (h : c.memWf = true) : (c.forJob b).memWf = true := by
  obtain ⟨-, -, -, -, -, h6⟩ := (Core.memWf_iff c).mp h
  exact (Core.memWf_iff _).mpr ⟨rfl, rfl, rfl, rfl, rfl, h6⟩

theorem State.copyArgs_memWf (s : State) (p : Nat) (x : Sel) (bs : List Byte) (h : s.memWf = true) : (s.copyArgs p x bs).memWf = true :=
  State.foldl_memWf _ _ _ h fun t y ht => t.setCore_memWf _ _ ht (Core.bufStore_memWf _ _ _ (t.core_memWf _ ht))

theorem State.startJob_memWf (s : State) (p n : Nat) (l : Launch) (t : PTable) (bs : List Byte) (g : Nat × Nat × Nat)
    (h : s.memWf = true) : (s.startJob p n l t bs g).memWf = true := by
  unfold State.startJob
  extract_lets j x m s1 s2 s3 s4
  have h1 : s1.memWf = true := h
  have h2 : s2.memWf = true := (State.onQueue_memWf ..).trans h1
  have h3 : s3.memWf = true := s2.onCores_memWf p _ h2 fun c v hv => v.forJob_memWf _ hv
  have h4 : s4.memWf = true := (State.onPart_memWf ..).trans h3
  clear_value s4
  rw [State.fetchHead_memWf]
  refine State.step7_memWf _ _ _ ?_
  rw [State.sedLaunch_memWf]
  exact State.copyArgs_memWf _ _ _ _ h4

theorem State.startLaunch_memWf (s : State) (p : Nat) (es : List Candidate) (c : Candidate) (l : Launch) (h : s.memWf = true) :
    (s.startLaunch p es c l).memWf = true := by
  unfold State.startLaunch
  extract_lets n
  split
  · simpa using h
  split
  · simpa using h
  split
  · split
    · simpa using h
    · exact State.startJob_memWf _ _ _ _ _ _ _ h
  · simpa using h

theorem State.resumeHeld_memWf (s : State) (p : Nat) (h : s.memWf = true) : (s.resumeHeld p).memWf = true := by
  unfold State.resumeHeld
  extract_lets x
  split
  · exact h
  · exact h

theorem execLaunchStart_wf {s : State} (p : Fin 4) (h : s.memWf = true) : Result.Wf (execLaunchStart p s) := by
  unfold execLaunchStart
  extract_lets t x es
  have ht : t.memWf = true := State.foldl_memWf _ _ _ h fun u n hu => (State.fetchHead_memWf ..).trans hu
  clear_value t
  split
  · split
    · exact .next ht
    · refine .next ?_
      split
      · exact State.startLaunch_memWf _ _ _ _ _ ht
      · exact State.resumeHeld_memWf _ _ ht
  · split
    · exact .next (ite_memWf _ ht ht)
    · exact .next ht

/-! ### Completion -/

theorem State.finishJob_memWf (s : State) (p : Nat) (j : Job) (c : Option (Nat × Nat)) (h : s.memWf = true) :
    (s.finishJob p j c).memWf = true := by
  unfold State.finishJob
  extract_lets s1 s2 s3 s4
  have h2 : s2.memWf = true := by
    cases c with
    | none => exact h
    | some c => exact (State.sedFault_memWf ..).trans h
  rw [State.tryLaunch_memWf]
  exact ite_memWf _ ((State.interrupt_memWf ..).trans h2) h2

theorem execJobCompletion_wf {s : State} (p : Fin 4) (n : Nat) (h : s.memWf = true) : Result.Wf (execJobCompletion p n s) := by
  unfold execJobCompletion
  split
  · exact .next h
  split
  · exact .next h
  split
  · exact .next (s.finishJob_memWf _ _ _ h)
  split
  · exact .next (s.finishJob_memWf _ _ _ h)
  · exact .next h

theorem execCompletionSignalPerformed_wf {s : State} (p : Fin 4) (n : Nat) (h : s.memWf = true) :
    Result.Wf (execCompletionSignalPerformed p n s) := by
  unfold execCompletionSignalPerformed
  split
  · exact .next h
  split
  · exact .next h
  split
  · exact .next h
  split
  · exact .next (s.finishJob_memWf _ _ _ h)
  · extract_lets t u
    have ht : t.memWf = true := s.homeWrite_memWf _ _ _ h
    have hu : u.memWf = true := by
      dsimp only [u]
      split
      · exact ht
      · exact ht
    exact .next (State.finishJob_memWf _ _ _ _ hu)

/-! ### The decode service -/

theorem State.devStore_memWf (s : State) (p a : Nat) (bs : List Byte) (h : s.memWf = true) : (s.devStore p a bs).memWf = true := by
  unfold State.devStore
  split
  · exact s.writePieces_memWf _ _ _ h
  · exact h

theorem State.deliverTokens_memWf (s : State) (p : Nat) (i : ServiceItem) (b : List Byte) (ds : List Deliver) (h : s.memWf = true) :
    (s.deliverTokens p i b ds).memWf = true := by
  unfold State.deliverTokens
  extract_lets was ring
  split
  · rename_i cap vec head tail _
    extract_lets room now s1 s2 s3 b' is_ s4
    have h1 : s1.memWf = true := State.foldl_memWf _ _ _ h fun t x ht => t.devStore_memWf _ _ _ ht
    clear_value s1
    have h2 : s2.memWf = true := ite_memWf _ h1 (s1.devStore_memWf _ _ _ h1)
    clear_value s2
    have h3 : s3.memWf = true := ite_memWf _ h2 ((State.interrupt_memWf ..).trans h2)
    clear_value s3
    have h4 : s4.memWf = true := s3.devStore_memWf _ _ _ h3
    clear_value s4
    exact ite_memWf _ h4 ((State.sedDecode_memWf ..).trans h4)
  · rw [State.sedDecode_memWf]
    exact s.devStore_memWf _ _ _ h

theorem State.serveSlot_memWf (s : State) (p : Nat) (i : ServiceItem) (v : Nat) (h : s.memWf = true) :
    (s.serveSlot p i v).memWf = true := by
  unfold State.serveSlot
  split
  · exact h
  extract_lets fl c n old
  split
  · exact h
  split
  · exact s.deliverTokens_memWf _ _ _ _ h
  split
  · exact h
  · exact s.deliverTokens_memWf _ _ _ _ h

theorem execDecodeService_wf {s : State} (p : Fin 4) (is : List ServiceItem) (a b : Nat) (h : s.memWf = true) :
    Result.Wf (execDecodeService p is a b s) := by
  unfold execDecodeService
  split
  · exact .next h
  split
  · exact .next h
  extract_lets t
  have ht : t.memWf = true := State.foldl_memWf _ _ _ h fun u i hu => u.serveSlot_memWf _ _ _ hu
  exact .next (t.devStore_memWf _ _ _ ht)

/-! ### Registers -/

theorem State.writeMode_memWf (s : State) (v : W64) (h : s.memWf = true) : (s.writeMode v).memWf = true := by
  unfold State.writeMode
  extract_lets
  exact ite_memWf _ h h

theorem State.writeKey_memWf (s : State) (p : Nat) (w : Fin 4) (v : W64) (h : s.memWf = true) : (s.writeKey p w v).memWf = true :=
  ite_memWf _ h h

theorem State.writeTicket_memWf (s : State) (p : Nat) (v : W64) (h : s.memWf = true) : (s.writeTicket p v).memWf = true := by
  unfold State.writeTicket
  extract_lets
  exact ite_memWf _ h ((State.ticketWrite_memWf ..).trans h)

theorem State.writeQueue_memWf (s : State) (p n o : Nat) (v : W64) (h : s.memWf = true) : (s.writeQueue p n o v).memWf = true := by
  unfold State.writeQueue
  split
  · exact h
  · exact h
  · exact s.ring_memWf _ _ _ h
  · simpa using h
  · exact h

theorem State.writeDebug_memWf (s : State) (p o : Nat) (v : W64) (h : s.memWf = true) : (s.writeDebug p o v).memWf = true := by
  unfold State.writeDebug
  extract_lets
  exact ite_memWf _ (ite_memWf _ h h) (ite_memWf _ (ite_memWf _ h h) (ite_memWf _ (ite_memWf _ h h) (ite_memWf _ (ite_memWf _ h h) h)))

theorem State.writePart_memWf (s : State) (p o : Nat) (v : W64) (b : Bool) (h : s.memWf = true) : (s.writePart p o v b).memWf = true := by
  unfold State.writePart
  extract_lets n s1 t
  split
  · exact h
  · split
    · exact s.abandon_memWf p h
    · exact s.retry_memWf p h
    · exact s.replayPhase_memWf p h
    · exact h
  · have h1 : s1.memWf = true := h
    rw [State.tryLaunch_memWf]
    exact ite_memWf _ h1 h1
  · simpa using h
  · exact ite_memWf _ h h
  · exact h
  · exact h
  · have ht : t.memWf = true := ite_memWf _ (s.invalidate_memWf _ _ h) h
    exact ite_memWf _ (t.invalidate_memWf _ _ ht) ht
  · exact h
  · exact h
  · exact h
  · exact h
  · exact s.writeDebug_memWf _ _ _ h

theorem State.writeMsix_memWf (s : State) (n o : Nat) (v : W64) (h : s.memWf = true) : (s.writeMsix n o v).memWf = true := by
  unfold State.writeMsix
  extract_lets i k old new t
  have ht : t.memWf = true := h
  exact ite_memWf _ ((State.interrupt_mem ..).trans ht) ht

theorem execDebugSwitch_wf {s : State} (p : Fin 4) (a b : Bool) (h : s.memWf = true) :
    Result.Wf (match (if a then execDstop p s else .next s) with
      | .next t => if b then execDcont p t else .next t
      | r => r) := by
  have hr : Result.Wf (if a then execDstop p s else .next s) := .ite _ (execDstop_wf p h) (.next h)
  split
  · rename_i t ht
    exact .ite _ (execDcont_wf p (hr.of_next t ht)) (.next (hr.of_next t ht))
  · exact hr

theorem State.writeBlock_wf {s : State} (q o : Nat) (v : W64) (b : Bool) (h : s.memWf = true) : Result.Wf (s.writeBlock q o v b) := by
  unfold State.writeBlock
  extract_lets p t
  refine .ite _ (.next h) (.ite _ (.next h) (.ite _ (.next (s.writeMsix_memWf _ _ _ h)) (.ite _ (.next h) (.ite _
    (.next (ite_memWf _ (s.writeQueue_memWf _ _ _ _ h) h)) (.ite _ (.next (s.writeKey_memWf _ _ _ h)) (.ite _
    (.next (s.writeTicket_memWf _ _ h)) (.ite _ (.next (ite_memWf _ (s.writeMode_memWf _ h) h)) (.ite _ ?_ (.ite _ ?_ ?_)))))))))
  · exact .ite _ (execDumpStart_wf p h) (.next h)
  · exact .ite _ (.next h) (execDebugSwitch_wf p _ _ h)
  · exact .next (s.writePart_memWf _ _ _ _ h)

theorem State.writeLimit_memWf (s : State) (o : Nat) (v : W64) (h : s.memWf = true) : (s.writeLimit o v).memWf = true := by
  unfold State.writeLimit
  split
  · exact ite_memWf _ h (s.setLimit_memWf _ _ h)
  · exact h

theorem State.writeModule_wf {s : State} (o : Nat) (v : W64) (h : s.memWf = true) : Result.Wf (s.writeModule o v) := by
  unfold State.writeModule
  refine .ite _ (.next (ite_memWf _ h h)) (.ite _ (.next (s.writeMsix_memWf _ _ _ h)) ?_)
  split
  · exact .next (s.writeMode_memWf _ h)
  · exact .next h
  · exact .next h
  · exact .ite _ (execDbgGo_wf h) (.next h)
  · exact .ite _ (execRecGo_wf h) (.next h)
  · exact .next h
  · exact .next h
  · exact .next h
  · exact .next h
  · exact .next h
  · exact .next (s.writeUvEn_memWf _ h)
  · exact .next h
  · exact .next h
  · exact .next h
  · exact .next (s.writeLimit_memWf _ _ h)

theorem execRegisterWrite_wf {s : State} (f : Fin 5) (o : Nat) (v : W64) (h : s.memWf = true) : Result.Wf (execRegisterWrite f o v s) := by
  unfold execRegisterWrite
  refine .ite _ (.next h) (.ite _ ?_ (.ite _ (.next h) ?_))
  · split
    · exact s.writeModule_wf _ _ h
    · exact .next h
  · split
    · exact s.writeModule_wf _ _ h
    · exact s.writeBlock_wf _ _ _ _ h
    · exact .next h

/-! ### The aperture and the AB windows -/

theorem execHostApertureWrite_wf {s : State} (f : Fin 5) (o : Nat) (d : List Byte) (b : Bool) (h : s.memWf = true) :
    Result.Wf (execHostApertureWrite f o d b s) := by
  unfold execHostApertureWrite
  split
  · exact .next h
  split
  · exact .next (s.writePieces_memWf _ _ _ h)
  · exact .next h

theorem execHostApertureRead_wf {s : State} (f : Fin 5) (o n : Nat) (h : s.memWf = true) : Result.Wf (execHostApertureRead f o n s) := by
  unfold execHostApertureRead
  split
  · exact .next h
  · exact .next h

theorem execHostAbWrite_wf {s : State} (f : Fin 5) (o : Nat) (d : List Byte) (b : Bool) (h : s.memWf = true) :
    Result.Wf (execHostAbWrite f o d b s) := by
  unfold execHostAbWrite
  split
  · exact .next h
  · extract_lets bs
    exact .next (ite_memWf _ (s.retryPosted_memWf _ h) (ite_memWf _ h (s.arrive_memWf _ h)))

theorem execHostAbRead_wf {s : State} (f : Fin 5) (o n : Nat) (h : s.memWf = true) : Result.Wf (execHostAbRead f o n s) := by
  unfold execHostAbRead
  split
  · exact .next h
  split
  · exact .next h
  extract_lets k
  split
  · exact .next (s.hostWait_memWf _ _ _ h)
  · exact .next h

end Sys2Proof.Machine
end

section
/-! PROOF. Every step keeps every memory in canonical form (O60): instructions, what is due, steps. -/

namespace Sys2Proof.Machine

/-- A word keeps its frame, and with it the form. -/
theorem exec_word_wf {i : Instr} {s : State} {w : Nat} (hw : encode i = some w) (h : s.memWf = true) : Result.Wf (exec i s) := by
  refine ⟨fun t ht => ?_⟩
  by_cases hi : ∀ fr path x, i ≠ .xAlign fr path x
  · exact ((exec_frames hw hi).of_next t ht).keeps.wf h
  · simp only [ne_eq, Classical.not_forall, Classical.not_not] at hi
    obtain ⟨fr, path, x, rfl⟩ := hi
    obtain ⟨p, hq, hshape⟩ := execXAlign_shape fr path x s
    obtain rfl := Host.Outcome.next.inj (hshape.symm.trans ht)
    have hissue := (s.issue_frame (g := false) p hq.frame).keeps.wf h
    rcases s.issueThen_cases p fun t => (t.torusPort t.slot.core t.src path).emit (.alignBeat t.slot.core path) with e | ⟨-, e⟩
    · rw [e]; exact hissue
    · rw [e]; exact State.torusPort_memWf _ _ _ _ hissue

theorem execQueueEnable_wf {s : State} (p : Fin 4) (q : Fin 64) (b : Bool) (h : s.memWf = true) : Result.Wf (execQueueEnable p q b s) :=
  .next (by rw [State.queueControl_memWf]; exact h)
theorem execQueueResume_wf {s : State} (p : Fin 4) (q : Fin 64) (b : Bool) (h : s.memWf = true) : Result.Wf (execQueueResume p q b s) :=
  .next (by rw [State.queueControl_memWf]; exact h)
theorem execQueueSkip_wf {s : State} (p : Fin 4) (q : Fin 64) (b : Bool) (h : s.memWf = true) : Result.Wf (execQueueSkip p q b s) :=
  .next (by rw [State.queueControl_memWf]; exact h)

theorem execGetVersion_wf {s : State} (h : s.memWf = true) : Result.Wf (execGetVersion s) := s.spdm_wf _ _ _ _ h
theorem execGetCapabilities_wf {s : State} (h : s.memWf = true) : Result.Wf (execGetCapabilities s) := s.spdm_wf _ _ _ _ h
theorem execNegotiateAlgorithms_wf {s : State} (h : s.memWf = true) : Result.Wf (execNegotiateAlgorithms s) := s.spdm_wf _ _ _ _ h
theorem execGetDigests_wf {s : State} (h : s.memWf = true) : Result.Wf (execGetDigests s) := s.spdm_wf _ _ _ _ h
theorem execGetCertificate_wf {s : State} (q : List Byte) (h : s.memWf = true) : Result.Wf (execGetCertificate q s) :=
  s.spdm_wf _ _ _ _ h
theorem execChallenge_wf {s : State} (q : List Byte) (h : s.memWf = true) : Result.Wf (execChallenge q s) := s.spdm_wf _ _ _ _ h

/-- What has no encoding is an event. -/
theorem exec_event_wf {i : Instr} {s : State} (hw : encode i = none) (h : s.memWf = true) : Result.Wf (exec i s) := by
  cases i with
  | resultLand => exact execResultLand_wf h
  | elasticStall => exact execElasticStall_wf h
  | macRowEntry => exact execMacRowEntry_wf h
  | drainWrite => exact execDrainWrite_wf h
  | bandWakeComplete => exact execBandWakeComplete_wf h
  | lBeatLand => exact execLBeatLand_wf h
  | wBeatHomeWrite => exact execWBeatHomeWrite_wf h
  | linkBeatDelivery => exact execLinkBeatDelivery_wf h
  | filterRecordLanding => exact execFilterRecordLanding_wf h
  | loopExit => exact execLoopExit_wf h
  | untimetabledWritePerformed => exact execUntimetabledWritePerformed_wf _ _ h
  | acknowledgement => exact execAcknowledgement_wf _ _ h
  | putCompletion => exact execPutCompletion_wf _ _ h
  | xsigTranslation => exact execXsigTranslation_wf _ _ h
  | inboundWrite => exact execInboundWrite_wf _ _ _ _ h
  | inboundRead => exact .next h
  | writeNotification => exact execWriteNotification_wf _ h
  | lastSignOff => exact execLastSignOff_wf _ h
  | replayMarkExchange => exact execReplayMarkExchange_wf _ _ h
  | gateEvaluation => exact execGateEvaluation_wf _ h
  | alignmentReadiness => exact execAlignmentReadiness_wf _ _ _ _ _ h
  | startWave => exact execStartWave_wf _ _ _ h
  | phaseStart => exact execPhaseStart_wf _ h
  | refreshSlot => exact execRefreshSlot_wf _ h
  | gateWatchdogExpiry => exact execGateWatchdogExpiry_wf _ h
  | sequencerProgress => exact execSequencerProgress_wf _ h
  | heartbeatCheck => exact execHeartbeatCheck_wf _ h
  | abortMessage => exact execAbortMessage_wf _ h
  | faultCapture => exact execFaultCapture_wf _ h
  | uncorrectableError => exact execUncorrectableError_wf _ _ _ h
  | correctedError => exact execCorrectedError_wf _ _ _ h
  | abandon => exact execAbandon_wf _ h
  | retry => exact execRetry_wf _ h
  | replay => exact execReplay_wf _ h
  | dieWake => exact execDieWake_wf _ _ h
  | debugStop => exact execDebugStop_wf _ h
  | landingBufferArrival => exact execLandingBufferArrival_wf _ _ h
  | registerWrite => exact execRegisterWrite_wf _ _ _ h
  | modeWrite => exact .next (s.writeMode_memWf _ h)
  | rngKeyWrite => exact .next (s.writeKey_memWf _ _ _ h)
  | tktValWrite => exact .next (s.writeTicket_memWf _ _ h)
  | hostApertureWrite => exact execHostApertureWrite_wf _ _ _ _ h
  | hostApertureRead => exact execHostApertureRead_wf _ _ _ h
  | hostAbWrite => exact execHostAbWrite_wf _ _ _ _ h
  | hostAbRead => exact execHostAbRead_wf _ _ _ h
  | doorbell => exact .next (s.ring_memWf _ _ _ h)
  | queueEnable => exact execQueueEnable_wf _ _ _ h
  | queueResume => exact execQueueResume_wf _ _ _ h
  | queueSkip => exact execQueueSkip_wf _ _ _ h
  | recordFetch => exact execRecordFetch_wf _ _ h
  | launchGateEvaluation => exact execLaunchGateEvaluation_wf _ _ h
  | launchStart p =>
    rw [exec]
    exact execLaunchStart_wf p h
  | jobCompletion => exact execJobCompletion_wf _ _ h
  | completionSignalPerformed => exact execCompletionSignalPerformed_wf _ _ h
  | preemptResume => exact execPreemptResume_wf _ h
  | decodeService => exact execDecodeService_wf _ _ _ _ h
  | invalidateOne => exact execInvalidateOne_wf _ h
  | invalidateAll => exact execInvalidateAll_wf _ h
  | dumpStart => exact execDumpStart_wf _ h
  | powerGood => exact execPowerGood_wf h
  | startupDone => exact execStartupDone_wf h
  | recGo => exact execRecGo_wf h
  | getVersion => exact execGetVersion_wf h
  | getCapabilities => exact execGetCapabilities_wf h
  | negotiateAlgorithms => exact execNegotiateAlgorithms_wf h
  | getDigests => exact execGetDigests_wf h
  | getCertificate => exact execGetCertificate_wf _ h
  | challenge => exact execChallenge_wf _ h
  | getMeasurements => exact execGetMeasurements_wf _ _ h
  | dbgGo => exact execDbgGo_wf h
  | dstop => exact execDstop_wf _ h
  | dcont => exact execDcont_wf _ h
  | getpdr => exact execGetpdr_wf _ h
  | getsensorreading => exact execGetsensorreading_wf _ h
  | getnumericeffectervalue => exact execGetnumericeffectervalue_wf _ h
  | setnumericeffectervalue => exact execSetnumericeffectervalue_wf _ _ h
  | pollforplatformeventmessage => exact execPollforplatformeventmessage_wf h
  | powerSample => exact execPowerSample_wf _ _ h
  | thermalPoll => exact execThermalPoll_wf _ _ h
  | hbmTempRead => exact execHbmTempRead_wf _ h
  | undervoltStep => exact execUndervoltStep_wf h
  | uvEnWrite => exact execUvEnWrite_wf _ h
  | firmwareHeartbeat => exact execFirmwareHeartbeat_wf h
  | heartbeatLoss => exact execHeartbeatLoss_wf h
  | flashCopy => exact execFlashCopy_wf h
  | sedimentSelect => exact .next ((s.selectSediment_memWf _).trans h)
  | telemetrySelect => exact .next ((s.selectTelemetry_memWf _).trans h)
  | pldmBaseRequest => exact execPldmBaseRequest_wf _ h
  | mctpControlMessage => exact execMctpControlMessage_wf _ h
  | lifeCycleFuse => exact execLifeCycleFuse_wf _ _ h
  | linkRetrain => exact execLinkRetrain_wf _ h
  | linkCorrectedBlocks => exact execLinkCorrectedBlocks_wf _ _ h
  | winErrClear | preemptRequest | dumpComplete | ccntClear | spdmUnsupportedRequest | pcieConfigRequest
  | pldmUnsupportedRequest => exact .next h
  | bypass | idcode | sample | preload | extest | clamp | highz => exact .next ((State.onMod_memWf ..).trans h)
  | yGate _ _ x | yGateclr _ x | yExport _ x | mFeed _ _ x | vRot _ _ _ x | wTile _ _ x | xSend _ _ x | xRecv _ _ x | gStep _ _ x => cases x <;> cases hw
  | _ => cases hw

theorem exec_wf (i : Instr) {s : State} (h : s.memWf = true) : Result.Wf (exec i s) := by
  cases hw : encode i with
  | some w => exact exec_word_wf hw h
  | none => exact exec_event_wf hw h

/-! ### Steps -/

/-- What is due next, in a state in form. -/
structure Todo.Wf (d : Todo) : Prop where
  of_run : ∀ i t, d = .run i t → t.memWf = true
  of_go : ∀ t, d = .go t → t.memWf = true

theorem Todo.Wf.run {i : Instr} {t : State} (h : t.memWf = true) : Todo.Wf (.run i t) :=
  ⟨fun _ _ e => by obtain ⟨-, rfl⟩ := Todo.run.inj e; exact h, fun _ e => (by cases e)⟩

theorem Todo.Wf.go {t : State} (h : t.memWf = true) : Todo.Wf (.go t) :=
  ⟨fun _ _ e => (by cases e), fun _ e => by obtain rfl := Todo.go.inj e; exact h⟩

theorem Todo.Wf.dead : Todo.Wf .dead := ⟨fun _ _ e => (by cases e), fun _ e => by cases e⟩

theorem Todo.Wf.ite (b : Prop) [Decidable b] {c d : Todo} (hc : c.Wf) (hd : d.Wf) : Todo.Wf (if b then c else d) := by
  split
  · exact hc
  · exact hd

theorem State.advance_memWf (s : State) (n : Nat) (h : s.memWf = true) : (s.advance n).memWf = true := by
  obtain ⟨h1, h2, h3, h4, -⟩ := (State.memWf_iff s).mp h
  exact (State.memWf_iff _).mpr ⟨h1, h2, h3, h4, fun u hu => by cases hu⟩

theorem State.debugFreeze_memWf (s : State) (c : Fin 96) (e : Eng) (h : s.memWf = true) : (s.debugFreeze c e).memWf = true := by
  have hu := s.undoTick_memWf c h
  unfold State.debugFreeze
  exact ite_memWf _ hu ((State.tellGroup_memWf ..).trans hu)

theorem State.tickTodo_wf (s : State) (p : Nat) (h : s.memWf = true) : Todo.Wf (s.tickTodo p) := by
  unfold State.tickTodo
  refine .ite _ (.go h) ?_
  split
  · exact .run h
  split
  · exact .go (s.unmatchedFault_memWf _ _ h)
  split
  · exact .go (s.overflowFault_memWf _ h)
  split
  · refine .ite _ (.go (s.debugFreeze_memWf _ _ h)) ?_
    have hw (c : Nat) (e : Fin 8) (x : QEntry) := s.atWord_memWf c e x h
    split
    · exact .run (hw ..)
    · exact .go (State.trap_memWf _ _ (hw ..))
  split
  · exact .run h
  · exact .go (s.endTick_memWf p h)

theorem State.takeEvent_wf (s : State) (i : Instr) (h : s.memWf = true) : Todo.Wf (s.takeEvent i) := .ite _ (.run h) (.go h)

theorem State.todo_wf (s : State) (h : s.memWf = true) : Todo.Wf s.todo := by
  have hgo (n : Nat) : Todo.Wf (.go (s.advance n)) := .go (s.advance_memWf n h)
  have htake (es : List Ev) (i : Instr) : Todo.Wf ({ s with agenda := es }.takeEvent i) := State.takeEvent_wf _ _ h
  unfold State.todo
  split
  · exact .ite _ (s.tickTodo_wf _ h) (hgo _)
  · exact .ite _ (.ite _ (s.tickTodo_wf _ h) (hgo _)) (.ite _ (htake _ _) (hgo _))
  · exact .ite _ (hgo _) (htake _ _)
  · exact .ite _ (hgo _) .dead

/-- Settles O60: a step is an instruction in a state in form, or a passage to one; words keep their frame, and events change memories
through stores alone. -/
theorem memWfInvariant : Obligations.MemWfInvariant := by
  unfold Obligations.MemWfInvariant
  intro s t h hstep
  have htodo := s.todo_wf h
  unfold step at hstep
  split at hstep
  · rename_i i u hu
    exact (exec_wf i (htodo.of_run i u hu)).of_next t hstep
  · rename_i u hu
    obtain rfl := Host.Outcome.next.inj hstep
    exact htodo.of_go _ hu
  · cases hstep

end Sys2Proof.Machine
end

section
/-! PROOF. What lands with its effects (O44). -/

namespace Sys2Proof.Machine

@[simp] theorem State.setCore_setCore (s : State) (c : Nat) (v w : Core) : (s.setCore c v).setCore c w = s.setCore c w := by
  simp [State.setCore, Vector.set_set]

/-! ### The item that is due -/

theorem State.takeItem_eq {s : State} {x : Pend} {rest : List Pend} (h : (s.core s.slot.core).pend = x :: rest) :
    s.takeItem = some (x, s.setCore s.slot.core { s.core s.slot.core with pend := rest }) := by
  unfold State.takeItem
  dsimp only
  rw [h]

/-! ### Effects that land together -/

section
variable {s : State} {c : Fin 96} {x : Src} {back : Pend} {es : List Effect}

theorem State.landEffects_clash (h : ∃ k, k ∈ (s.core c).effectsKeys es ∧ k ∈ (s.core c).landed) :
    s.landEffects c x back es = s.lateFault c x ⟨0x07, 57, 0, 1⟩ := by
  unfold State.landEffects
  dsimp only
  rw [if_pos (by simpa using h)]

theorem State.landEffects_apart (h : ∀ k, k ∈ (s.core c).effectsKeys es → k ∉ (s.core c).landed) :
    s.landEffects c x back es = match firstOf (es.map (s.landDev c x)) with
      | some t =>
        if x.elastic then
          { s.setCore c { s.core c with pend := back :: (s.core c).pend, stalled := some ⟨x.eng, 48, []⟩ } with fresh := s.fresh + 1 }
        else s.lateFault c x t
      | none =>
        let co : Core := { s.core c with landed := (s.core c).effectsKeys es ++ (s.core c).landed }
        (s.setCore c (co.digestChunks x.eng (co.landChunks s.fresh es))).landAll c x es := by
  unfold State.landEffects
  dsimp only
  refine (if_neg (by simpa using h)).trans ?_
  rfl

end

/-- What the landing of some effects leaves, as O44 gives it, where the item has left the list of its core. -/
def Lands (s : State) (x : Pend) (rest : List Pend) (es : List Effect) (r : Result) : Prop :=
  let c := s.slot.core
  let co : Core := { s.core c with pend := rest }
  let t := s.setCore c co
  let keys := co.effectsKeys es
  let lacks := firstOf (es.map (t.landDev c x.src))
  ((∃ k, k ∈ keys ∧ k ∈ co.landed) → r = .next (t.lateFault c x.src ⟨0x07, 57, 0, 1⟩))
  ∧ ((∀ k, k ∈ keys → k ∉ co.landed) →
    (lacks = none → r = .next ((s.setCore c (Core.digestChunks { co with landed := keys ++ co.landed } x.src.eng
      (Core.landChunks { co with landed := keys ++ co.landed } s.fresh es))).landAll c x.src es))
    ∧ (∀ f, lacks = some f → x.src.elastic = false → r = .next (t.lateFault c x.src f))
    ∧ (∀ f, lacks = some f → x.src.elastic = true → r = .next { s.setCore c { co with
        pend := x :: rest, stalled := some ⟨x.src.eng, 48, []⟩ } with fresh := s.fresh + 1 }))

theorem lands_of_landEffects (s : State) (x : Pend) (rest : List Pend) (es : List Effect) (r : Result)
    (h : r = .next ((s.setCore s.slot.core { s.core s.slot.core with pend := rest }).landEffects s.slot.core x.src x es)) :
    Lands s x rest es r := by
  subst h
  unfold Lands
  dsimp only
  generalize ht : s.setCore s.slot.core { s.core s.slot.core with pend := rest } = t
  have hco : t.core s.slot.core = { s.core s.slot.core with pend := rest } := by
    rw [← ht]
    exact State.core_setCore_self ..
  have hput (v : Core) : t.setCore s.slot.core v = s.setCore s.slot.core v := by
    rw [← ht]
    exact State.setCore_setCore ..
  have hfresh : t.fresh = s.fresh := by
    rw [← ht]
    rfl
  refine ⟨fun hclash => ?_, fun hapart => ?_⟩
  · rw [State.landEffects_clash (by rw [hco]; exact hclash)]
  · rw [State.landEffects_apart (by rw [hco]; exact hapart), hco, hfresh]
    refine ⟨fun hn => ?_, fun f hf he => ?_, fun f hf he => ?_⟩
    · simp only [hn, hput]
    · simp only [hf, he, Bool.false_eq_true, if_false]
    · simp only [hf, he, if_true, hput]

/-- A push that finds its ring full. -/
theorem State.landDev_full {s : State} {c : Fin 96} {x : Src} {q : Fin 32} {entry : Option (List (Option Byte))} {tag : BitVec 16}
    (h : ((s.core c).regs.ring q).count = ((s.core c).regs.ring q).depth) :
    s.landDev c x (.push q entry tag) = some ⟨0x05, 0x100 + q.val, 0, 0⟩ := by
  simp [State.landDev, Core.roomDev, failIf, h]

/-- A late fault, where no abort is under way, is the one recorded, and its core stops. -/
theorem State.lateFault_first (s : State) (c : Fin 96) (x : Src) (t : Trap) (h : (s.part (s.partOf c)).abort = none) :
    (∃ a, ((s.lateFault c x t).part (s.partOf c)).abort = some a
      ∧ a.info = ⟨t.code, lateClass t.code, some c.val, some x, t.detail, t.addr, []⟩)
    ∧ ((s.lateFault c x t).core c).halted = true := by
  have hp (v : Core) : (s.setCore c v).partOf c = s.partOf c := rfl
  refine ⟨?_, ?_⟩
  · unfold State.lateFault State.stopWord
    dsimp only
    rw [hp, State.beginAbort_part, State.part_setPart_self]
    exact ⟨_, (Part.faulted_fresh _ _ _ _ (by exact h)).1, rfl⟩
  · unfold State.lateFault State.stopWord
    dsimp only
    rw [State.beginAbort_core, State.setPart_core, State.core_setCore_self]

/-- Settles O44: the three items land alike; a push into a full ring finds no room. -/
theorem landingEvents : Obligations.LandingEvents := by
  unfold Obligations.LandingEvents
  intro s x rest
  dsimp only
  intro hpend
  have htake := State.takeItem_eq hpend
  refine ⟨fun es hact => ?_, fun es hact => ?_, fun f hact => ?_, fun q entry tag hact he hl hfull habort => ?_⟩
  · refine lands_of_landEffects s x rest es (execResultLand s) ?_
    unfold execResultLand
    rw [htake]
    simp only [hact]
    rfl
  · refine lands_of_landEffects s x rest es (execLBeatLand s) ?_
    unfold execLBeatLand
    rw [htake]
    simp only [hact]
    rfl
  · refine lands_of_landEffects s x rest _ (execFilterRecordLanding s) ?_
    unfold execFilterRecordLanding
    rw [htake]
    simp only [hact]
    rfl
  · let t := s.setCore s.slot.core { s.core s.slot.core with pend := rest }
    have hco : t.core s.slot.core = { s.core s.slot.core with pend := rest } := State.core_setCore_self ..
    have hdev : t.landDev s.slot.core x.src (.push q entry tag) = some ⟨0x05, 0x100 + q.val, 0, 0⟩ :=
      State.landDev_full (by rw [hco]; exact hfull)
    obtain ⟨a, b⟩ := t.lateFault_first s.slot.core x.src ⟨0x05, 0x100 + q.val, 0, 0⟩ habort
    obtain ⟨a, ha, hinfo⟩ := a
    refine ⟨t.lateFault s.slot.core x.src ⟨0x05, 0x100 + q.val, 0, 0⟩, a, ?_, ha, hinfo, b⟩
    have hland := lands_of_landEffects s x rest [.push q entry tag] (execResultLand s) (by
      unfold execResultLand
      rw [htake]
      simp only [hact]
      rfl)
    refine (hland.2 fun k _ => ?_).2.1 _ ?_ he
    · simp [hl]
    · exact (congrArg (fun d => firstOf [d]) hdev).trans rfl

end Sys2Proof.Machine
end

section
/-! PROOF. What a store into a memory with poison leaves in the units it touches. -/

namespace Sys2Proof.Machine

/-! ### Lists of bytes at their addresses -/

theorem mem_place_ge {α : Type} (bs : List α) (a : Nat) : ∀ w ∈ place a bs, a ≤ w.1 ∧ w.1 < a + bs.length ∧ w.2 ∈ bs := by
  induction bs generalizing a with
  | nil => intro w hw; cases hw
  | cons b bs ih =>
    intro w hw
    rcases List.mem_cons.mp hw with rfl | hw
    · simp
    · obtain ⟨h1, h2, h3⟩ := ih (a + 1) w hw
      simp only [List.length_cons]
      exact ⟨by omega, by omega, List.mem_cons_of_mem _ h3⟩

theorem mem_place_of_lt {α : Type} (bs : List α) (a i : Nat) (h : i < bs.length) : (a + i, bs[i]) ∈ place a bs := by
  induction bs generalizing a i with
  | nil => cases h
  | cons b bs ih =>
    cases i with
    | zero => exact List.mem_cons_self ..
    | succ i =>
      have := ih (a + 1) i (Nat.lt_of_succ_lt_succ h)
      rw [Nat.add_right_comm] at this
      exact List.mem_cons_of_mem _ this

theorem map_range'_eq {α : Type} (f : Nat → α) (bs : List α) (a : Nat) (h : ∀ i (hi : i < bs.length), f (a + i) = bs[i]) :
    (range' a bs.length).map f = bs := by
  induction bs generalizing a with
  | nil => rfl
  | cons b bs ih =>
    have h0 : f a = b := h 0 (Nat.zero_lt_succ _)
    have ht := ih (a + 1) fun i hi => by
      have := h (i + 1) (Nat.succ_lt_succ hi)
      rw [Nat.add_right_comm]
      exact this
    show f a :: (range' (a + 1) bs.length).map f = b :: bs
    rw [h0, ht]

/-- The byte that some writes leave at an address where `v` stands. -/
def wroteAt (ws : List BW) (x : Nat) (v : Byte) : Byte := ws.foldl (fun v w => if w.1 = x then w.2.getD v else v) v

theorem wroteAt_absent (ws : List BW) (x : Nat) (v : Byte) (h : ∀ w ∈ ws, w.1 ≠ x) : wroteAt ws x v = v := by
  induction ws generalizing v with
  | nil => rfl
  | cons w ws ih =>
    show wroteAt ws x (if w.1 = x then w.2.getD v else v) = v
    rw [if_neg (h w (List.mem_cons_self ..))]
    exact ih v fun w hw => h w (List.mem_cons_of_mem _ hw)

theorem wroteAt_place (bs : List (Option Byte)) (a i : Nat) (v b : Byte) (h : i < bs.length) (hb : bs[i] = some b) :
    wroteAt (place a bs) (a + i) v = b := by
  induction bs generalizing a i v with
  | nil => cases h
  | cons c bs ih =>
    cases i with
    | zero =>
      have hc : c = some b := hb
      subst hc
      show wroteAt (place (a + 1) bs) a (if a = a then b else v) = b
      rw [if_pos rfl]
      exact wroteAt_absent _ _ _ fun w hw => by have := (mem_place_ge _ _ w hw).1; omega
    | succ i =>
      show wroteAt (place (a + 1) bs) (a + (i + 1)) (if a = a + (i + 1) then c.getD v else v) = b
      rw [if_neg (by omega), show a + (i + 1) = a + 1 + i by omega]
      exact ih (a + 1) i v (Nat.lt_of_succ_lt_succ h) hb

/-- The writes of a unit leave in it what all the writes leave. -/
theorem wroteAt_filter (ws : List BW) (u n x : Nat) (v : Byte) (hx : x / u = n) :
    wroteAt (ws.filter fun w => w.1 / u = n) x v = wroteAt ws x v := by
  induction ws generalizing v with
  | nil => rfl
  | cons w ws ih =>
    by_cases hw : w.1 / u = n
    · rw [List.filter_cons_of_pos (by simpa using hw)]
      exact ih _
    · rw [List.filter_cons_of_neg (by simpa using hw), ih]
      have hne : w.1 ≠ x := fun e => hw (e ▸ hx)
      show wroteAt ws x v = wroteAt ws x (if w.1 = x then w.2.getD v else v)
      rw [if_neg hne]

/-! ### Units -/

theorem mem_setAdd_iff (s : List Nat) (x y : Nat) : y ∈ setAdd s x ↔ y = x ∨ y ∈ s := by
  refine ⟨mem_setAdd s x y, fun h => ?_⟩
  induction s with
  | nil => simpa [setAdd] using h
  | cons k s ih =>
    unfold setAdd
    split
    · simpa using h
    split
    · rename_i e
      subst e
      simpa using h
    · rcases h with rfl | h
      · exact List.mem_cons_of_mem _ (ih (.inl rfl))
      · rcases List.mem_cons.mp h with rfl | h
        · exact List.mem_cons_self ..
        · exact List.mem_cons_of_mem _ (ih (.inr h))

theorem mem_unitsOf_iff (u : Nat) (ws : List BW) (n : Nat) : n ∈ unitsOf u ws ↔ ∃ w ∈ ws, w.1 / u = n := by
  induction ws with
  | nil => simp [unitsOf]
  | cons w ws ih =>
    obtain ⟨a, b⟩ := w
    simp only [unitsOf, mem_setAdd_iff, ih, List.mem_cons, exists_eq_or_imp]
    exact or_congr_left eq_comm

theorem unitsOf_sorted (u : Nat) (ws : List BW) : setSorted (unitsOf u ws) = true := by
  induction ws with
  | nil => rfl
  | cons w ws ih => exact setAdd_sorted _ _ ih

theorem Mem.putAll_wrote (ws : List BW) (m : Mem) (x : Nat) (h : m.wf = true) : (m.putAll ws).byte x = wroteAt ws x (m.byte x) := by
  induction ws generalizing m with
  | nil => rfl
  | cons w ws ih =>
    obtain ⟨a, _ | b⟩ := w
    · show (m.putAll ws).byte x = wroteAt ws x (if a = x then m.byte x else m.byte x)
      rw [ite_self]
      exact ih m h
    · show ((m.put a b).putAll ws).byte x = wroteAt ws x (if a = x then b else m.byte x)
      rw [ih _ (m.put_wf a b h), m.byte_put a x b h]
      simp only [eq_comm]

/-- A unit zeroed reads zero. -/
theorem Mem.zeroUnit_own (u n : Nat) (m : Mem) (x : Nat) (hx : x / u = n) : (m.zeroUnit u n).byte x = 0 := by
  have key (l : SMap Byte) : mapGet (l.filter fun c => decide (c.1 / u ≠ n)) x = none := by
    induction l with
    | nil => rfl
    | cons d l ih =>
      obtain ⟨k, w⟩ := d
      by_cases hk : k / u = n
      · rw [List.filter_cons_of_neg (by simp [hk])]
        exact ih
      · rw [List.filter_cons_of_pos (by simp [hk])]
        have hne : x ≠ k := fun e => hk (e ▸ hx)
        simp only [mapGet, hne, if_false, ih, ite_self]
  unfold Mem.byte Mem.zeroUnit
  simp only [key]
  rfl

/-- What a store leaves at an address of a unit it touches, given what stood there and whether the unit was poisoned. -/
def storedAt (u : Nat) (ws : List BW) (x : Nat) (p : Bool) (v : Byte) : Option Byte :=
  if ws.any (fun w => decide (w.1 / u = x / u) && w.2.isNone) then none else some (wroteAt ws x (if p then 0 else v))

theorem Mem.poisoned_congr (dp : Bool) (u : Nat) (m : Mem) (a b : Nat) (h : a / u = b / u) : m.poisoned dp u a = m.poisoned dp u b := by
  unfold Mem.poisoned
  rw [h]

/-- A unit marked reads by its mark. -/
theorem Mem.get_mark_own (dp : Bool) (u : Nat) (m : Mem) (x : Nat) (p : Bool) (h : m.wf = true) :
    (m.mark dp (x / u) p).get dp u x = if p then none else some (m.byte x) := by
  unfold Mem.get
  rw [Mem.mark_byte]
  simp only [Mem.mark_poisoned _ _ _ _ _ _ h, if_true]

/-- A store into one unit. -/
theorem Mem.storeUnit_own (dp : Bool) (u : Nat) (ws : List BW) (m : Mem) (x : Nat) (hu : 0 < u) (h : m.wf = true) :
    (m.storeUnit dp u ws (x / u)).get dp u x = storedAt u ws x (m.poisoned dp u x) (m.byte x) := by
  have hz := Mem.zeroUnit_wf u (x / u) m h
  have hp : m.poisoned dp u (x / u * u) = m.poisoned dp u x := Mem.poisoned_congr _ _ _ _ _ (Nat.mul_div_cancel _ hu)
  have hany : (ws.filter fun w => w.1 / u = x / u).any (fun w => w.2.isNone)
      = ws.any fun w => decide (w.1 / u = x / u) && w.2.isNone := List.any_filter ..
  unfold Mem.storeUnit storedAt
  simp only [hany, hp]
  split
  · exact Mem.get_mark_own _ _ _ _ _ hz
  · cases m.poisoned dp u x with
    | true =>
      rw [if_pos rfl, Mem.get_mark_own _ _ _ _ _ (Mem.putAll_wf _ _ hz), Mem.putAll_wrote _ _ _ hz, wroteAt_filter _ _ _ _ _ rfl,
        Mem.zeroUnit_own _ _ _ _ rfl, if_pos rfl]
      rfl
    | false =>
      rw [if_neg Bool.false_ne_true, if_neg Bool.false_ne_true, Mem.get_mark_own _ _ _ _ _ (Mem.putAll_wf _ _ h), Mem.putAll_wrote _ _ _ h, wroteAt_filter _ _ _ _ _ rfl]
      rfl

/-- A store leaves in a unit it touches what its writes there leave. -/
theorem Mem.store_own (dp : Bool) (u : Nat) (m : Mem) (ws : List BW) (x : Nat) (hu : 0 < u) (h : m.wf = true)
    (hx : x / u ∈ unitsOf u ws) : (m.store dp u ws).get dp u x = storedAt u ws x (m.poisoned dp u x) (m.byte x) := by
  have hs := unitsOf_sorted u ws
  unfold Mem.store
  generalize unitsOf u ws = us at hx hs
  induction us generalizing m with
  | nil => cases hx
  | cons n us ih =>
    obtain ⟨habove, hs⟩ := (setSorted_cons n us).mp hs
    have hwf := Mem.storeUnit_wf dp u ws m n h
    rcases List.mem_cons.mp hx with rfl | hx
    · have hrest : ∀ (us : List Nat) (m : Mem), m.wf = true → x / u ∉ us →
          (us.foldl (Mem.storeUnit dp u ws) m).get dp u x = m.get dp u x := by
        intro us
        induction us with
        | nil => intro m _ _; rfl
        | cons k us ih =>
          intro m hm hn
          obtain ⟨hb, hp⟩ := Mem.storeUnit_get dp u ws m k x hm fun e => hn (e ▸ List.mem_cons_self ..)
          refine (ih _ (Mem.storeUnit_wf dp u ws m k hm) fun hk => hn (List.mem_cons_of_mem _ hk)).trans ?_
          unfold Mem.get
          rw [hb, hp]
      refine (hrest us _ hwf fun hm => ?_).trans (Mem.storeUnit_own dp u ws m x hu h)
      exact Nat.lt_irrefl _ (habove _ hm)
    · have hne : x / u ≠ n := fun e => Nat.lt_irrefl _ (e ▸ habove _ hx)
      obtain ⟨hb, hp⟩ := Mem.storeUnit_get dp u ws m n x h hne
      rw [← hb, ← hp]
      exact ih _ hwf hx hs

/-- A unit that a store does not touch reads as before. -/
theorem Mem.get_store_other (dp : Bool) (u : Nat) (m : Mem) (ws : List BW) (x : Nat) (h : m.wf = true)
    (hx : ∀ w ∈ ws, w.1 / u ≠ x / u) : (m.store dp u ws).get dp u x = m.get dp u x := by
  obtain ⟨hb, hp⟩ := Mem.store_get dp u m ws x h fun hm => by
    obtain ⟨w, hw, e⟩ := (mem_unitsOf_iff u ws _).mp hm
    exact hx w hw e
  unfold Mem.get
  rw [hb, hp]

/-- Whole bytes that a store writes one after another are read back. -/
theorem Mem.get_store_place (dp : Bool) (u : Nat) (m : Mem) (bs : List (Option Byte)) (a i : Nat) (hu : 0 < u) (h : m.wf = true)
    (hbs : ∀ y, y ∈ bs → y ≠ none) (hi : i < bs.length) : (m.store dp u (place a bs)).get dp u (a + i) = bs[i] := by
  have hmem := mem_place_of_lt bs a i hi
  rw [Mem.store_own dp u m _ _ hu h ((mem_unitsOf_iff u _ _).mpr ⟨_, hmem, rfl⟩)]
  unfold storedAt
  rw [if_neg]
  · obtain ⟨b, hb⟩ := Option.ne_none_iff_exists'.mp (hbs _ (List.getElem_mem hi))
    rw [wroteAt_place bs a i _ b hi hb, hb]
  · simp only [List.any_eq_true, Bool.and_eq_true, not_exists, not_and]
    intro w hw _ hn
    exact hbs _ (mem_place_ge bs a w hw).2.2 (Option.isNone_iff_eq_none.mp hn)

theorem Mem.read_store_place (dp : Bool) (u : Nat) (m : Mem) (bs : List (Option Byte)) (a : Nat) (hu : 0 < u) (h : m.wf = true)
    (hbs : ∀ y, y ∈ bs → y ≠ none) : (m.store dp u (place a bs)).read dp u a bs.length = bs :=
  map_range'_eq _ _ _ fun i hi => Mem.get_store_place dp u m bs a i hu h hbs hi

end Sys2Proof.Machine
end

section
/-! PROOF. What each landing leaves in its core, register by register and memory by memory. -/

namespace Sys2Proof.Machine

/-! ### Registers -/

theorem Regs.setS_only (r : Regs) (n : Fin 32) (v : Option W64) : r.setS n v = { r with s := (r.setS n v).s } := by
  unfold Regs.setS
  split <;> rfl

theorem Regs.setP_only (r : Regs) (n : Fin 16) (v : PReg) : r.setP n v = { r with p := (r.setP n v).p } := by
  unfold Regs.setP
  split <;> rfl

theorem AReg.field_setField (a : AReg) (f g : AField) (v : BitVec 32) : (a.setField f v).field g = if g = f then v else a.field g := by
  cases f <;> cases g <;> rfl

theorem vector_get_set {α : Type} {n : Nat} (xs : Vector α n) (i j : Fin n) (v : α) :
    (xs.set i v)[j] = if j = i then v else xs[j] := by
  simp only [Fin.getElem_fin, Vector.getElem_set, Fin.ext_iff, eq_comm]

/-! ### Queue control words -/

theorem setHalf_parts (w : BitVec 128) (hi : Bool) (v : W64) :
    (setHalf w hi v).toNat / 2 ^ 64 = (if hi then v.toNat else w.toNat / 2 ^ 64)
    ∧ (setHalf w hi v).toNat % 2 ^ 64 = (if hi then w.toNat % 2 ^ 64 else (v &&& 0xFFFF3FFF03FFFFFF).toNat) := by
  have hw := w.isLt
  have hv := v.isLt
  have hm := (v &&& 0xFFFF3FFF03FFFFFF).isLt
  unfold setHalf
  generalize w.toNat = a at hw ⊢
  generalize (v &&& 0xFFFF3FFF03FFFFFF).toNat = b at hm ⊢
  generalize v.toNat = d at hv ⊢
  cases hi with
  | true =>
    simp only [if_true, BitVec.toNat_ofNat]
    omega
  | false =>
    simp only [Bool.false_eq_true, if_false, BitVec.toNat_ofNat]
    omega

theorem ringOf_count_lt (w : BitVec 128) : (ringOf w).count < 65536 := Nat.mod_lt _ (by decide)
theorem ringOf_tail_lt (w : BitVec 128) : (ringOf w).tail < 65536 := Nat.mod_lt _ (by decide)
theorem ringOf_head_lt (w : BitVec 128) : (ringOf w).head < 65536 := Nat.mod_lt _ (by decide)
theorem ringOf_depth_lt (w : BitVec 128) : (ringOf w).depth < 65536 := Nat.mod_lt _ (by decide)

/-- The upper half of a control word put together. -/
theorem ringPut_toNat (w : BitVec 128) (r : Ring) (hh : r.head < 65536) (ht : r.tail < 65536) (hc : r.count < 65536) :
    (ringPut w r).toNat = w.toNat % 2 ^ 64 + 2 ^ 64 * r.head + 2 ^ 80 * r.tail + 2 ^ 96 * r.count + 2 ^ 112 * r.rtag.toNat := by
  have hr := r.rtag.isLt
  unfold ringPut
  generalize r.rtag.toNat = x at hr ⊢
  generalize w.toNat = a
  rw [BitVec.toNat_ofNat]
  omega

/-- What a control word says after its tag, count, tail and head are replaced. -/
theorem ringOf_ringPut (w : BitVec 128) (r : Ring) (hh : r.head < 65536) (ht : r.tail < 65536) (hc : r.count < 65536) :
    ringOf (ringPut w r) = { ringOf w with rtag := r.rtag, count := r.count, tail := r.tail, head := r.head } := by
  have hn := ringPut_toNat w r hh ht hc
  have hr := r.rtag.isLt
  have hx : BitVec.ofNat 16 ((ringPut w r).toNat / 2 ^ 112 % 2 ^ 16) = r.rtag := by
    apply BitVec.eq_of_toNat_eq
    rw [hn, BitVec.toNat_ofNat]
    generalize r.rtag.toNat = x at hr ⊢
    generalize w.toNat = a
    omega
  unfold ringOf
  simp only [fld, Ring.mk.injEq]
  refine ⟨hx, ?_⟩
  rw [hn]
  generalize r.rtag.toNat = x at hr ⊢
  generalize w.toNat = a
  refine ⟨?_, ?_, ?_, ?_, ?_, ?_, ?_⟩ <;> omega

theorem ringOf_ringPushed (w : BitVec 128) (tag : Option (BitVec 16)) (hc : (ringOf w).count < (ringOf w).depth)
    (ht : (ringOf w).tail < (ringOf w).depth) : ringOf (ringPushed w tag) = { ringOf w with
      rtag := tag.getD (ringOf w).rtag, tail := ((ringOf w).tail + 1) % (ringOf w).depth, count := (ringOf w).count + 1 } := by
  have hd := ringOf_depth_lt w
  have hmax : max 1 (ringOf w).depth = (ringOf w).depth := by omega
  unfold ringPushed
  dsimp only
  rw [hmax]
  refine ringOf_ringPut w _ (ringOf_head_lt w) ?_ ?_
  · exact Nat.lt_trans (Nat.mod_lt _ (by omega)) hd
  · show (ringOf w).count + 1 < 65536
    omega

theorem ringOf_ringPopped (w : BitVec 128) (n : Nat) (hh : (ringOf w).head < (ringOf w).depth) : ringOf (ringPopped w n) = { ringOf w with
      head := ((ringOf w).head + n) % (ringOf w).depth, count := (ringOf w).count - n } := by
  have hd := ringOf_depth_lt w
  have hc := ringOf_count_lt w
  have hmax : max 1 (ringOf w).depth = (ringOf w).depth := by omega
  unfold ringPopped
  dsimp only
  rw [hmax]
  refine ringOf_ringPut w _ ?_ (ringOf_tail_lt w) ?_
  · exact Nat.lt_trans (Nat.mod_lt _ (by omega)) hd
  · show (ringOf w).count - n < 65536
    omega

theorem Regs.ring_ringPush (r : Regs) (q : Fin 32) (tag : Option (BitVec 16)) : (r.ringPush q tag).ring q = ringOf (ringPushed r.q[q] tag) := by
  unfold Regs.ring Regs.ringPush
  dsimp only
  rw [vector_get_set, if_pos rfl]

theorem Regs.ring_ringPop (r : Regs) (q : Fin 32) (n : Nat) : (r.ringPop q n).ring q = ringOf (ringPopped r.q[q] n) := by
  unfold Regs.ring Regs.ringPop
  dsimp only
  rw [vector_get_set, if_pos rfl]

/-! ### MRF slots -/

theorem mapGet_putSlot_other (f : Nat) (m : SMap W36) (w : SlotWrite) (k : Nat) (h : mapSorted m = true) (hk : w.key ≠ k) :
    mapGet (putSlot f m w) k = mapGet m k := by
  have hne : k ≠ w.key := fun e => hk e.symm
  unfold putSlot
  split
  · split
    · rfl
    · rw [mapGet_mapSet _ _ _ _ h, if_neg hne]
  · split
    · rw [mapGet_mapDel _ _ _ h, if_neg hne]
    · rw [mapGet_mapSet _ _ _ _ h, if_neg hne]

theorem mapGet_putSlots_other (f : Nat) (ws : List SlotWrite) (m : SMap W36) (k : Nat) (h : mapSorted m = true)
    (hk : ∀ w, w ∈ ws → w.key ≠ k) : mapGet (ws.foldl (putSlot f) m) k = mapGet m k := by
  induction ws generalizing m with
  | nil => rfl
  | cons w ws ih =>
    exact (ih _ (putSlot_sorted f m w h) fun v hv => hk v (List.mem_cons_of_mem _ hv)).trans
      (mapGet_putSlot_other f m w k h (hk w (List.mem_cons_self ..)))

/-- What a write leaves in its slot; the bits of a poisoned slot that stay are a free value (assumption 1). -/
def SlotWrite.after (f : Nat) (w : SlotWrite) : Option W36 → Option W36
  | none => if w.poison || w.keep then none
    else some (((Config.underPoison (f + w.key)).setWidth 36 &&& ~~~w.mask) ||| (w.bits &&& w.mask))
  | some old => if w.poison then none else some ((old &&& ~~~w.mask) ||| (w.bits &&& w.mask))

theorem mapGet_putSlot_own (f : Nat) (m : SMap W36) (w : SlotWrite) (h : mapSorted m = true) :
    mapGet (putSlot f m w) w.key = w.after f (mapGet m w.key) := by
  unfold putSlot
  cases hm : mapGet m w.key with
  | none =>
    dsimp only [SlotWrite.after]
    split
    · exact hm
    · rw [mapGet_mapSet _ _ _ _ h, if_pos rfl]
  | some old =>
    dsimp only [SlotWrite.after]
    split
    · rw [mapGet_mapDel _ _ _ h, if_pos rfl]
    · rw [mapGet_mapSet _ _ _ _ h, if_pos rfl]

/-- A slot is what its one write among several leaves there. -/
theorem mapGet_putSlots_own (f : Nat) (ws : List SlotWrite) (m : SMap W36) (h : mapSorted m = true) (hnd : (ws.map (·.key)).Nodup)
    (w : SlotWrite) (hw : w ∈ ws) : mapGet (ws.foldl (putSlot f) m) w.key = w.after f (mapGet m w.key) := by
  induction ws generalizing m with
  | nil => cases hw
  | cons v ws ih =>
    rw [List.map_cons, List.nodup_cons] at hnd
    obtain ⟨hv, hnd⟩ := hnd
    have hs := putSlot_sorted f m v h
    rcases List.mem_cons.mp hw with rfl | hw
    · refine (mapGet_putSlots_other f ws _ _ hs fun u hu e => hv ?_).trans (mapGet_putSlot_own f m w h)
      rw [← e]
      exact List.mem_map_of_mem hu
    · have hne : v.key ≠ w.key := fun e => hv (by rw [e]; exact List.mem_map_of_mem hw)
      rw [List.foldl_cons, ih _ hs hnd hw, mapGet_putSlot_other f m v w.key h hne]

/-- The bits that a write names are in its slot. -/
theorem masked_or (x bits mask : W36) : ((x &&& ~~~mask) ||| (bits &&& mask)) &&& mask = bits &&& mask := by
  ext i
  simp only [BitVec.getElem_and, BitVec.getElem_or, BitVec.getElem_not]
  cases x[i] <;> cases mask[i] <;> cases bits[i] <;> rfl

theorem slots_spec (f : Nat) (ws : List SlotWrite) (m : SMap W36) (h : mapSorted m = true) (hnd : (ws.map (·.key)).Nodup)
    (w : SlotWrite) (hw : w ∈ ws) :
    let new := mapGet (ws.foldl (putSlot f) m) w.key
    (w.poison = true → new = none)
    ∧ (w.poison = false → ∀ old, mapGet m w.key = some old → new = some ((old &&& ~~~w.mask) ||| (w.bits &&& w.mask)))
    ∧ (w.poison = false → mapGet m w.key = none →
      (w.keep = true → new = none) ∧ (w.keep = false → ∃ v, new = some v ∧ v &&& w.mask = w.bits &&& w.mask)) := by
  dsimp only
  rw [mapGet_putSlots_own f ws m h hnd w hw]
  refine ⟨fun hp => ?_, fun hp old ho => ?_, fun hp hn => ⟨fun hk => ?_, fun hk => ?_⟩⟩
  · cases mapGet m w.key <;> simp [SlotWrite.after, hp]
  · simp [SlotWrite.after, hp, ho]
  · simp [SlotWrite.after, hp, hn, hk]
  · rw [hn]
    simp only [SlotWrite.after, hp, hk, Bool.or_self, Bool.false_eq_true, if_false, Option.some.injEq, exists_eq_left']
    exact masked_or ..

/-! ### Bits set in AB -/

theorem orBits_get (ws : List (Nat × Byte)) (m : Mem) (a : Nat) (h : m.wf = true) :
    (orBits m ws).get true 64 a = (m.get true 64 a).map fun v => (ws.filter fun w => w.1 == a).foldl (fun v w => v ||| w.2) v := by
  induction ws generalizing m with
  | nil =>
    show m.get true 64 a = (m.get true 64 a).map fun v => v
    rw [Option.map_id']
  | cons w ws ih =>
    obtain ⟨k, b⟩ := w
    have hput : (m.put k (m.byte k ||| b)).get true 64 a = (m.get true 64 a).map fun v => if k = a then v ||| b else v := by
      unfold Mem.get
      rw [Mem.put_poisoned, Mem.byte_put _ _ _ _ h]
      split
      · rfl
      · by_cases e : k = a
        · subst e
          simp
        · simp [e, Ne.symm e]
    unfold orBits
    split
    · rename_i hk
      rw [ih m h]
      by_cases e : k = a
      · subst e
        have : m.get true 64 k = none := by rw [Mem.get, if_pos hk]
        rw [this]
        rfl
      · simp [e]
    · rw [ih _ (m.put_wf _ _ h), hput]
      by_cases e : k = a
      · subst e
        simp [Option.map_map, Function.comp_def]
      · simp [e]

/-! ### GM -/

theorem mapGet_mapPut_other {α : Type} [DecidableEq α] (d : α) (m : SMap α) (x y : Nat) (v : α) (h : mapSorted m = true) (hy : y ≠ x) :
    mapGet (mapPut d m x v) y = mapGet m y := by
  unfold mapPut
  split
  · rw [mapGet_mapDel _ _ _ h, if_neg hy]
  · rw [mapGet_mapSet _ _ _ _ h, if_neg hy]

theorem GM.giveNode_nodes (g : GM) (n m : Nat) (h : mapSorted g.nodes = true) :
    (g.giveNode n).node m = if m = n then (if g.free = 0 then 0x4000 else g.head) else g.node m := by
  unfold GM.giveNode GM.setNode GM.node
  dsimp only
  generalize (if g.free = 0 then 0x4000 else g.head) = v
  by_cases e : m = n
  · subst e
    rw [mapGet_mapPut _ _ _ _ _ h, if_pos rfl]
  · rw [if_neg e, mapGet_mapPut_other _ _ _ _ _ h e]

end Sys2Proof.Machine
end

section
/-! PROOF. What each landing leaves (O45). -/

namespace Sys2Proof.Machine

/-- Whether an effect acts on its core alone, and without a check. -/
def Effect.inCore : Effect → Bool
  | .home _ _ | .banks _ _ | .raise _ _ _ | .alignCheck _ _ | .ctx _ (.bind _) => false
  | _ => true

theorem State.landOne_inCore (s : State) (c : Fin 96) (x : Src) (e : Effect) (h : e.inCore = true) :
    s.landOne c x e = { s.setCore c ((s.core c).land s.fresh e) with fresh := s.fresh + 1 } := by
  unfold State.landOne
  split
  · cases h
  · cases h
  · cases h
  · cases h
  · cases h
  · rfl

theorem State.core_landOne (s : State) (c : Fin 96) (x : Src) (e : Effect) (h : e.inCore = true) :
    (s.landOne c x e).core c = (s.core c).land s.fresh e := by
  rw [s.landOne_inCore c x e h]
  exact State.core_setCore_self ..

theorem State.core_landOne_bind (s : State) (c : Fin 96) (x : Src) (n : Fin 64) (v : GCtx)
    (h : (s.core c).gm.queue.length + (if ((s.core c).gm.ctx[n]).bound then ((s.core c).gm.ctx[n]).ptrs else []).length ≤ 4096) :
    (s.landOne c x (.ctx n (.bind v))).core c = (s.core c).land s.fresh (.ctx n (.bind v)) := by
  unfold State.landOne
  dsimp only
  rw [if_neg, State.core_setCore_self]
  cases hb : ((s.core c).gm.ctx[n]).bound with
  | false => simp
  | true =>
    rw [hb, if_pos rfl] at h
    simpa using h

/-! ### Stores into buffers -/

theorem Buf.unit_pos (b : Buf) : 0 < b.unit := by cases b <;> decide

theorem Core.buf_bufStore (c : Core) (b : Buf) (ws : List BW) (hb : b ≠ .gm) :
    (c.bufStore b ws).buf b = (c.buf b).store true b.unit ws := by
  cases b with
  | gm => exact absurd rfl hb
  | ab | wb | sdm => rfl

theorem Core.bufRead_one (c : Core) (b : Buf) (a : Nat) : c.bufRead b a 1 = [(c.buf b).get true b.unit a] := rfl

theorem Core.bufRead_store_other (c : Core) (b : Buf) (ws : List BW) (a : Nat) (hb : b ≠ .gm) (h : (c.buf b).wf = true)
    (hw : ∀ w, w ∈ ws → w.1 / b.unit ≠ a / b.unit) : (c.bufStore b ws).bufRead b a 1 = c.bufRead b a 1 := by
  rw [Core.bufRead_one, Core.bufRead_one, c.buf_bufStore b ws hb, Mem.get_store_other _ _ _ _ _ h hw]

theorem Core.bufRead_store_own (c : Core) (b : Buf) (a a' : Nat) (v : Option Byte) (hb : b ≠ .gm) (h : (c.buf b).wf = true)
    (ha : a' / b.unit = a / b.unit) : (c.bufStore b [(a, v)]).bufRead b a' 1
      = [storedAt b.unit [(a, v)] a' ((c.buf b).poisoned true b.unit a') ((c.buf b).byte a')] := by
  rw [Core.bufRead_one, c.buf_bufStore b _ hb, Mem.store_own _ _ _ _ _ b.unit_pos h]
  exact (mem_unitsOf_iff ..).mpr ⟨_, List.mem_singleton_self _, ha.symm⟩

/-- A whole byte stored alone in its unit: itself, and what stood beside it, zero where the unit was poisoned. -/
theorem Core.bufRead_store_byte (c : Core) (b : Buf) (a a' : Nat) (v : Byte) (hb : b ≠ .gm) (h : (c.buf b).wf = true)
    (ha : a' / b.unit = a / b.unit) : (c.bufStore b [(a, some v)]).bufRead b a' 1
      = [some (if a' = a then v else ((c.bufRead b a' 1).head?.join).getD 0)] := by
  rw [c.bufRead_store_own b a a' _ hb h ha, Core.bufRead_one]
  unfold storedAt Mem.get wroteAt
  simp only [List.any_cons, Option.isNone_some, Bool.and_false, List.any_nil, Bool.or_self, Bool.false_eq_true, if_false,
    List.foldl_cons, List.foldl_nil, Option.getD_some, List.head?_cons, Option.join_some, @eq_comm _ a a']
  cases (c.buf b).poisoned true b.unit a' <;> rfl

theorem Core.bufRead_store_poison (c : Core) (b : Buf) (a a' : Nat) (hb : b ≠ .gm) (h : (c.buf b).wf = true)
    (ha : a' / b.unit = a / b.unit) : (c.bufStore b [(a, none)]).bufRead b a' 1 = [none] := by
  rw [c.bufRead_store_own b a a' _ hb h ha]
  simp [storedAt, ha]

/-! ### Rings -/

theorem Ring.buffer_ne_gm {r : Ring} {b : Buf} (h : r.buffer = some b) : b ≠ .gm := by
  unfold Ring.buffer at h
  split at h
  · cases h; decide
  · cases h; decide
  · cases h; decide
  · cases h

theorem Core.bufStore_regs (c : Core) (b : Buf) (ws : List BW) : (c.bufStore b ws).regs = c.regs := by cases b <;> rfl

/-- An entry pushed. -/
theorem Core.land_push_entry (c : Core) (f : Nat) (q : Fin 32) (bs : List (Option Byte)) (tag : BitVec 16) (b : Buf)
    (h : (c.regs.ring q).buffer = some b) : c.land f (.push q (some bs) tag)
      = { c.bufStore b (place ((c.regs.ring q).addr (c.regs.ring q).tail) bs) with regs := c.regs.ringPush q (some tag) } := by
  unfold Core.land
  simp only [h]
  rfl

theorem Regs.ringPush_only (r : Regs) (q : Fin 32) (tag : Option (BitVec 16)) :
    r.ringPush q tag = { r with q := (r.ringPush q tag).q } := rfl

/-! ### Nodes -/

theorem Core.land_nodesBack_append (c : Core) (f g : Nat) (ns ms : List Nat) :
    c.land f (.nodesBack (ns ++ ms)) = (c.land f (.nodesBack ns)).land g (.nodesBack ms) := by
  show { c with gm := (ns ++ ms).foldl GM.giveNode c.gm } = { c with gm := ms.foldl GM.giveNode (ns.foldl GM.giveNode c.gm) }
  rw [List.foldl_append]

theorem vector_get_set_ofNat (xs : Vector Core 96) (c : Fin 96) (v : Core) : (xs.set c v)[Fin.ofNat 96 c] = v := by
  rw [vector_get_set, if_pos (Fin.ofNat_val_eq_self c)]

/-! ### Writes in device memory -/

theorem State.journalOne_off {s : State} {p : Nat} (g : Nat) (h : (s.part p).journals = false) : s.journalOne p g = s := by
  unfold State.journalOne
  dsimp only
  rw [if_pos (by rw [h]; rfl)]

theorem State.journalise_off {s : State} {p : Nat} (gs : List Nat) (h : (s.part p).journals = false) : s.journalise p gs = s := by
  unfold State.journalise
  induction gs with
  | nil => rfl
  | cons g gs ih => rw [List.foldl_cons, State.journalOne_off g h, ih]

@[simp] theorem State.notify_hbm (s : State) (h : Home) (n : Nat) : (s.notify h n).hbm = s.hbm := by
  unfold State.notify
  split
  · exact foldl_keeps (fun t : State => t.hbm = s.hbm) _ _ _ rfl fun t _ ht => ht
  · rfl

@[simp] theorem State.notify_cores (s : State) (h : Home) (n : Nat) : (s.notify h n).cores = s.cores := by
  unfold State.notify
  split
  · exact foldl_keeps (fun t : State => t.cores = s.cores) _ _ _ rfl fun t _ ht => ht
  · rfl

/-- A write of a word in device memory, where no journal is kept. -/
theorem State.homeWrite_hbm_quiet {s : State} {c : Nat} (pa : Nat) (bs : List (Option Byte))
    (h : (s.part (s.partOf c)).journals = false) :
    (s.homeWrite (s.timed c) (.hbm pa) bs).cores = s.cores ∧ (s.homeWrite (s.timed c) (.hbm pa) bs).hbm
      = s.hbm.store false 64 ((place pa bs).filter fun w => decide (w.1 < Config.hbmBytes)) := by
  unfold State.homeWrite State.timed
  dsimp only
  rw [State.journalise_off _ h, State.notify_hbm, State.notify_cores]
  exact ⟨rfl, rfl⟩

theorem filter_place_within (pa n : Nat) (bs : List (Option Byte)) (h : pa + bs.length ≤ n) :
    (place pa bs).filter (fun w => decide (w.1 < n)) = place pa bs := by
  refine List.filter_eq_self.mpr fun w hw => ?_
  have := mem_place_ge bs pa w hw
  simpa using by omega

theorem State.homeByte_hbm (s : State) (pa : Nat) :
    s.homeByte (.hbm pa) = if pa < Config.hbmBytes then s.hbm.get false 64 pa else none := rfl

theorem State.homeRead_hbm (s : State) (pa n : Nat) : s.homeRead (.hbm pa) n = (range' 0 n).map fun i => s.homeByte (.hbm (pa + i)) := rfl

/-- Settles O45: each effect by what it leaves in its core; buffers and device memory by what a store leaves in a unit. -/
theorem landedEffects : Obligations.LandedEffects := by
  unfold Obligations.LandedEffects
  intro s c x co hco
  subst hco
  dsimp only
  have hland (e : Effect) (h : e.inCore = true) := s.core_landOne c x e h
  refine ⟨fun n m v => ?_, fun n v => ?_, fun n m v => ?_, fun n v => ?_, fun n v => ?_, fun n f g v => ⟨?_, ?_, fun m hm => ?_⟩,
    fun n o => ?_, fun f => ?_, fun reg m v => ?_, fun f n => ?_, fun n v => ?_, fun n m => ?_, fun m => ?_, fun n v => ?_,
    fun v => ?_, fun v => ?_, fun n hi v => ⟨?_, ?_, ?_, fun m hm => ?_⟩, fun q tag => ⟨?_, fun hc ht => ?_⟩, fun q tag bs b hb hc ht => ?_,
    fun q n => ⟨?_, fun hn hh => ?_⟩, fun ws => ⟨?_, fun hs => ⟨fun k hk => ?_, fun hnd w hw => ?_⟩⟩, fun m => ?_, fun ws => ⟨?_, fun hw a => ?_⟩,
    fun n u hu => ?_, fun n v hlen => ?_, fun n hs hn => ?_, fun ns ms => ?_, fun ws => ?_, fun ws => ?_, fun ws => ?_,
    fun b hb hw => ⟨fun ws a ha => ?_, fun a v a' ha => ?_, fun a a' ha => ?_⟩, fun hw hj pa bs => ?_⟩
  · rw [hland _ rfl]; exact Regs.getS_setS ..
  · rw [hland _ rfl]; exact congrArg (fun r => { s.core c with regs := r }) (Regs.setS_only ..)
  · rw [hland _ rfl]; exact Regs.getP_setP ..
  · rw [hland _ rfl]; exact congrArg (fun r => { s.core c with regs := r }) (Regs.setP_only ..)
  · rw [hland _ rfl]; rfl
  · rw [hland _ rfl]; rfl
  · rw [hland _ rfl]
    show (((s.core c).regs.a.set n _)[n]).field g = _
    rw [vector_get_set, if_pos rfl, AReg.field_setField]
  · rw [hland _ rfl]
    show ((s.core c).regs.a.set n _)[m] = _
    rw [vector_get_set, if_neg hm]
  · rw [hland _ rfl]; rfl
  · rw [hland _ rfl]; rfl
  · rw [hland _ rfl]; cases reg <;> rfl
  · rw [hland _ rfl]; rfl
  · rw [hland _ rfl]; rfl
  · rw [hland _ rfl]
    show (Vector.ofFn _ : Vector (BitVec 16) 32)[n.val] = _
    rw [Vector.getElem_ofFn]
  · rw [hland _ rfl]; rfl
  · rw [hland _ rfl]; rfl
  · rw [hland _ rfl]; rfl
  · rw [hland _ rfl]; rfl
  · rw [hland _ rfl]; rfl
  · rw [hland _ rfl]
    show (((s.core c).regs.q.set n _)[n]).toNat / _ = _
    rw [vector_get_set, if_pos rfl]
    exact (setHalf_parts ..).1
  · rw [hland _ rfl]
    show (((s.core c).regs.q.set n _)[n]).toNat % _ = _
    rw [vector_get_set, if_pos rfl]
    exact (setHalf_parts ..).2
  · rw [hland _ rfl]
    show ((s.core c).regs.q.set n _)[m] = _
    rw [vector_get_set, if_neg hm]
  · rw [hland _ rfl]; rfl
  · rw [hland _ rfl]
    exact ((s.core c).regs.ring_ringPush q none).trans (ringOf_ringPushed _ none hc ht)
  · rw [hland _ rfl, Core.land_push_entry _ _ _ _ _ b hb]
    refine ⟨((s.core c).regs.ring_ringPush q (some tag)).trans (ringOf_ringPushed _ _ hc ht), fun m hm => ?_, rfl, fun hw hbs => ?_⟩
    · show ((s.core c).regs.q.set q _)[m] = _
      rw [vector_get_set, if_neg hm]
    · have hbuf := (s.core c).buf_bufStore b (place (((s.core c).regs.ring q).addr ((s.core c).regs.ring q).tail) bs) (Ring.buffer_ne_gm hb)
      have hread := Mem.read_store_place true b.unit ((s.core c).buf b) bs (((s.core c).regs.ring q).addr ((s.core c).regs.ring q).tail)
        b.unit_pos hw hbs
      rw [← hbuf] at hread
      cases b <;> exact hread
  · rw [hland _ rfl]; rfl
  · rw [hland _ rfl]
    exact ((s.core c).regs.ring_ringPop q n).trans (ringOf_ringPopped _ n hh)
  · rw [hland _ rfl]; rfl
  · rw [hland _ rfl]
    exact mapGet_putSlots_other _ _ _ _ hs hk
  · rw [hland _ rfl]
    exact slots_spec _ _ _ hs hnd w hw
  · rw [hland _ rfl]; rfl
  · rw [hland _ rfl]; rfl
  · rw [hland _ rfl]
    exact congrArg (fun v => [v]) (orBits_get ws _ a hw)
  · cases u with
    | bind v => exact absurd rfl (hu v)
    | _ => rw [hland _ rfl]; rfl
  · rw [s.core_landOne_bind c x n v hlen]
    show { s.core c with gm := (s.core c).gm.landCtx n (.bind v) } = _
    unfold GM.landCtx
    dsimp only
    cases ((s.core c).gm.ctx[n]).bound with
    | true => rfl
    | false =>
      simp only [Bool.false_eq_true, if_false, List.append_nil]
  · rw [hland _ rfl]
    exact ⟨rfl, rfl, rfl, rfl, rfl, rfl, fun m => GM.giveNode_nodes _ n m hs⟩
  · rw [hland _ rfl, State.core_landOne _ _ _ _ rfl]
    have hcore (v : Core) : State.core { s with cores := s.cores.set c v } c = v := vector_get_set_ofNat s.cores c v
    rw [hcore, hland _ rfl]
    exact Core.land_nodesBack_append ..
  · rw [hland _ rfl]; rfl
  · rw [hland _ rfl]; rfl
  · rw [hland _ rfl]; rfl
  · rw [hland _ rfl]; exact Core.bufRead_store_other _ b ws a hb hw ha
  · rw [hland _ rfl]; exact Core.bufRead_store_byte _ b a a' v hb hw ha
  · rw [hland _ rfl]; exact Core.bufRead_store_poison _ b a a' hb hw ha
  · obtain ⟨hcores, hmem⟩ := State.homeWrite_hbm_quiet (s := s) (c := c) pa bs hj
    refine ⟨hcores, fun hbs hlen => ?_, fun a ha => ?_⟩
    · show (s.homeWrite (s.timed c) (.hbm pa) bs).homeRead (.hbm pa) bs.length = bs
      rw [State.homeRead_hbm]
      refine map_range'_eq _ _ _ fun i hi => ?_
      rw [Nat.zero_add, State.homeByte_hbm, if_pos (by omega), hmem, filter_place_within _ _ _ hlen]
      exact Mem.get_store_place _ _ _ _ _ _ (by decide) hw hbs hi
    · show (s.homeWrite (s.timed c) (.hbm pa) bs).homeByte (.hbm a) = s.homeByte (.hbm a)
      rw [State.homeByte_hbm, State.homeByte_hbm, hmem, Mem.get_store_other _ _ _ _ _ hw fun w hw => ?_]
      obtain ⟨h1, h2, -⟩ := mem_place_ge bs pa w (List.mem_filter.mp hw).1
      have := ha (w.1 - pa) (by omega)
      rwa [Nat.add_sub_cancel' h1] at this

end Sys2Proof.Machine
end

section
/-! PROOF. Untimetabled operations, atomics, signals and inbound writes (O47). -/

namespace Sys2Proof.Machine

/-! ### The memories outside the cores, which faults leave alone -/

/-- Device, host and peer memory. -/
def State.mems (s : State) : Mem × SMap Byte × SMap (Option Byte) := (s.hbm, s.host, s.peer)

theorem State.mems_iff (s t : State) : s.mems = t.mems ↔ s.hbm = t.hbm ∧ s.host = t.host ∧ s.peer = t.peer := by
  simp [State.mems]

@[simp] theorem State.setCore_mems (s : State) (c : Nat) (v : Core) : (s.setCore c v).mems = s.mems := rfl
@[simp] theorem State.setPart_mems (s : State) (p : Nat) (v : Part) : (s.setPart p v).mems = s.mems := rfl
@[simp] theorem State.schedule_mems (s : State) (n : Nat) (e : Instr) : (s.schedule n e).mems = s.mems := rfl
@[simp] theorem State.interrupt_mems (s : State) (p v : Nat) : (s.interrupt p v).mems = s.mems := by
  unfold State.interrupt State.msix; dsimp only; split <;> rfl
@[simp] theorem State.flashCopy_mems (s : State) : s.flashCopy.mems = s.mems := by
  unfold State.flashCopy; split <;> rfl
@[simp] theorem State.tellGroup_mems (s : State) (p : Nat) : (s.tellGroup p).mems = s.mems := by
  unfold State.tellGroup; split <;> rfl
@[simp] theorem State.sedFault_mems (s : State) (p : Nat) (f : FaultInfo) (n : Nat) : (s.sedFault p f n).mems = s.mems := rfl

@[simp] theorem State.noteFault_mems (s : State) (p : Nat) (f : FaultInfo) : (s.noteFault p f).mems = s.mems := by
  unfold State.noteFault
  dsimp only
  cases (s.part p).frec <;> split <;> simp

@[simp] theorem State.takeFault_mems (s : State) (p k : Nat) (f : FaultInfo) : (s.takeFault p k f).mems = s.mems := by
  unfold State.takeFault
  dsimp only
  split <;> simp

@[simp] theorem State.putRecord_mems (s : State) (p : Nat) (r : FaultRec) : (s.putRecord p r).mems = s.mems := by
  unfold State.putRecord
  dsimp only
  split <;> simp

@[simp] theorem State.slackFault_mems (s : State) (p n : Nat) (f : FaultInfo) (b : Bool) : (s.slackFault p n f b).mems = s.mems := by
  have hrec (t : State) : (t.recordFault p f n b).mems = t.mems := by
    unfold State.recordFault
    dsimp only
    rw [State.setPart_mems, State.putRecord_mems]
    rfl
  unfold State.slackFault State.stopJob
  dsimp only
  split
  · unfold State.stopQueue
    dsimp only
    rw [State.interrupt_mems, State.setPart_mems, hrec, State.noteFault_mems]
  · rw [hrec, State.noteFault_mems]

@[simp] theorem State.haltCore_mems (s : State) (c : Fin 96) : (s.haltCore c).mems = s.mems := by
  unfold State.haltCore
  split
  · dsimp only
    split <;> rfl
  · rfl

@[simp] theorem State.eventFault_mems (s : State) (p : Nat) (c : Option (Fin 96)) (f : FaultInfo) :
    (s.eventFault p c f).mems = s.mems := by
  have hfault (u : State) (hu : u.mems = s.mems) :
      State.mems (if (s.part p).abort.isNone then (u.takeFault p (s.eventTick p) f).tellGroup p
        else u.takeFault p (s.eventTick p) f) = s.mems := by
    split <;> simp [hu]
  have hhalt : State.mems (match c with | some c => s.haltCore c | none => s) = s.mems := by
    cases c
    · rfl
    · exact s.haltCore_mems _
  unfold State.eventFault
  dsimp only
  split
  · exact hfault _ hhalt
  · exact hfault _ hhalt
  · exact s.slackFault_mems ..
  · exact s.slackFault_mems ..

/-! ### The first fault that an event finds -/

/-- A core that an event's fault halts is halted; of its partition only the beats it has under way may go. -/
theorem State.haltCore_core (s : State) (c : Fin 96) : ((s.haltCore c).core c).halted = true := by
  unfold State.haltCore
  split
  · dsimp only
    split <;> rw [State.core_setCore_self] <;> rfl
  · rw [State.core_setCore_self]

theorem State.undoCore_abort (s : State) (c : Fin 96) (t p : Nat) : ((s.undoCore c t).part p).abort = (s.part p).abort := by
  let x := s.part (s.partOf c)
  have h : (s.undoCore c t).part p
      = (s.setPart (s.partOf c) { x with beats := x.beats.filter fun b => !(b.core == c.val && b.src.tick == t) }).part p := rfl
  rw [h, State.part_setPart]
  split
  next hp =>
    have : s.part p = s.part (s.partOf c) := by simp only [State.part, hp]
    rw [this]
  next => rfl

theorem State.haltCore_abort (s : State) (c : Fin 96) (p : Nat) : ((s.haltCore c).part p).abort = (s.part p).abort := by
  unfold State.haltCore
  split
  · dsimp only
    split
    · rw [State.setCore_part, State.undoCore_abort]
    · rfl
  · rfl

/-- The first fault that an event finds in a phase, of core c, is the one recorded, and halts the core (R341). -/
theorem State.eventFault_first (s : State) (p : Nat) (c : Fin 96) (f : FaultInfo)
    (hseq : (s.part p).seq = .phase) (h : (s.part p).abort = none) :
    ((s.eventFault p (some c) f).core c).halted = true ∧ ∃ a, ((s.eventFault p (some c) f).part p).abort = some a ∧ a.info = f := by
  have ht : s.eventFault p (some c) f = ((s.haltCore c).takeFault p (s.eventTick p) f).tellGroup p := by
    unfold State.eventFault
    rw [hseq]
    simp [h]
  rw [ht, State.core_congr (State.tellGroup_cores ..), State.core_congr (State.takeFault_frame ..).1,
    State.part_congr (State.tellGroup_parts ..), State.part_congr (State.takeFault_parts ..), State.part_setPart_self]
  have ha : ((s.haltCore c).part p).abort = none := (s.haltCore_abort c p).trans h
  exact ⟨s.haltCore_core c, _, (Part.faulted_fresh _ _ _ _ ha).1, rfl⟩

/-! ### What an operation does at its home -/

theorem leNat?_lt (bs : List (Option Byte)) : ∀ v, leNat? bs = some v → v < 2 ^ (8 * bs.length) := by
  induction bs with
  | nil => intro v h; injection h with h; subst h; exact Nat.one_pos
  | cons b bs ih =>
    intro v h
    cases b with
    | none => simp [leNat?] at h
    | some b =>
      obtain ⟨n, hn, rfl⟩ := Option.map_eq_some_iff.mp (by simpa only [leNat?] using h)
      have h1 := ih n hn
      have h2 := b.isLt
      rw [List.length_cons, Nat.mul_succ, Nat.add_comm, Nat.pow_add]
      omega

theorem length_range' (a n : Nat) : (range' a n).length = n := by
  induction n generalizing a with
  | zero => rfl
  | succ n ih => rw [range', List.length_cons, ih]

theorem State.homeRead_length (s : State) (h : Home) (n : Nat) : (s.homeRead h n).length = n := by
  rw [State.homeRead, List.length_map, length_range']

/-- A bit string of w bits is what its two's complement number stands for. -/
theorem ubits_sint (w : Nat) (x : Nat) (h : x < 2 ^ w) : ubits w (sint w x) = x := by
  unfold ubits sint
  rw [Nat.mod_eq_of_lt h]
  split
  · rw [← Int.natCast_emod, Int.toNat_natCast, Nat.mod_eq_of_lt h]
  · rw [Int.sub_emod_right, ← Int.natCast_emod, Int.toNat_natCast, Nat.mod_eq_of_lt h]

theorem ubits_min (w a b : Nat) (ha : a < 2 ^ w) (hb : b < 2 ^ w) :
    ubits w (min (sint w a) (sint w b)) = if sint w a ≤ sint w b then a else b := by
  by_cases h : sint w a ≤ sint w b
  · rw [if_pos h, Int.min_eq_left h, ubits_sint w a ha]
  · rw [if_neg h, Int.min_eq_right (by omega), ubits_sint w b hb]

theorem ubits_max (w a b : Nat) (ha : a < 2 ^ w) (hb : b < 2 ^ w) :
    ubits w (max (sint w a) (sint w b)) = if sint w b ≤ sint w a then a else b := by
  by_cases h : sint w b ≤ sint w a
  · rw [if_pos h, Int.max_eq_left h, ubits_sint w a ha]
  · rw [if_neg h, Int.max_eq_right (by omega), ubits_sint w b hb]

/-- A write at a home changes no core. -/
theorem State.journalOne_cores (s : State) (p g : Nat) : (s.journalOne p g).cores = s.cores := by
  unfold State.journalOne
  dsimp only
  split
  · rfl
  · split <;> rfl

theorem State.homeWrite_cores (s : State) (w : Writer) (h : Home) (bs : List (Option Byte)) : (s.homeWrite w h bs).cores = s.cores := by
  have hj (p : Nat) (gs : List Nat) : ∀ s : State, (s.journalise p gs).cores = s.cores := by
    induction gs with
    | nil => exact fun _ => rfl
    | cons g gs ih => exact fun s => (ih _).trans (s.journalOne_cores p g)
  unfold State.homeWrite
  cases h with
  | hbm pa =>
    dsimp only
    rw [State.notify_cores]
    cases w.phase
    · rfl
    · exact hj ..
  | host ba =>
    dsimp only
    split
    · rfl
    · rw [State.notify_cores]; rfl
  | peer x y z pa =>
    dsimp only
    split
    · rfl
    · rw [State.notify_cores]; rfl

@[simp] theorem State.performed_mems (s : State) (c : Fin 96) (o : OutOp) : (s.performed c o).mems = s.mems := rfl

/-- A signal's new object, in signed numbers. -/
theorem sigApply_eq (op : SigOp) (obj v : W64) : sigApply op obj v
    = if op = .set then v else if obj = 0x8000000000000000 then obj else match op with
      | .set => v
      | .add => obj + v
      | .or => obj ||| v
      | .max => if obj.toInt < v.toInt then v else obj := by
  cases op with
  | max => simp [sigApply, invalidSignal, BitVec.slt]
  | _ => rfl

/-- An atomic's new object (R219). -/
theorem amoApply_eq (op : AmoOp) (ty : AmoTy) (old a k : Nat) (ho : old < 2 ^ (8 * amoSize ty)) (ha : a < 2 ^ (8 * amoSize ty)) :
    let n := 8 * amoSize ty
    let F := if ty = .f64 then FFmt.f64 else FFmt.f32
    let float := ty == .f32 || ty == .f64
    amoApply op ty old a k = match op with
      | .add => if float then (F.add .rne false old a).1 else (old + a) % 2 ^ n
      | .min => if float then (F.minimum false old a).1 else if sint n old ≤ sint n a then old else a
      | .max => if float then (F.maximum false old a).1 else if sint n a ≤ sint n old then old else a
      | .and => old &&& a
      | .or => old ||| a
      | .xor => old ^^^ a
      | .swap => a
      | .cas => if old = k then a else old := by
  intro n F float
  cases op with
  | min => exact congrArg (fun r => if float = true then (F.minimum false old a).1 else r) (ubits_min n old a ho ha)
  | max => exact congrArg (fun r => if float = true then (F.maximum false old a).1 else r) (ubits_max n old a ho ha)
  | _ => rfl

/-- A signal at a home of this module or of the host. -/
theorem State.applyOp_sig {s : State} {core : Fin 96} {o : OutOp} {h : Home} {op : SigOp} {v : W64} {old : Nat} (hk : o.kind = .sig op v)
    (hh : ∀ x y z a, h ≠ .peer x y z a) (hold : leNat? (s.homeRead h 8) = some old) :
    s.applyOp core o h
      = (s.homeWrite (s.byOp core o) h ((leBytes 8 (sigApply op (BitVec.ofNat 64 old) v).toNat).map some)).performed core o := by
  unfold State.applyOp State.signalAt
  rw [hk]
  dsimp only
  rw [hold]
  cases h with
  | peer x y z a => exact absurd rfl (hh x y z a)
  | _ => rfl

/-- An atomic at its home: what it has written stands in the journal, and no core changes. -/
theorem State.applyOp_amo {s : State} {core : Fin 96} {o : OutOp} {h : Home} {op : AmoOp} {ty : AmoTy} {v k : W64} {old : Nat}
    (hk : o.kind = .amo op ty v k) (hold : leNat? (s.homeRead h (amoSize ty)) = some old) :
    ∃ t : State, s.applyOp core o h = t.performed core o ∧ t.cores = s.cores
      ∧ t.mems = (s.homeWrite (s.byOp core o) h ((leBytes (amoSize ty)
        (amoApply op ty old (v.toNat % 2 ^ (8 * amoSize ty)) (k.toNat % 2 ^ (8 * amoSize ty)))).map some)).mems := by
  unfold State.applyOp
  rw [hk]
  dsimp only
  rw [hold]
  refine ⟨_, rfl, ?_, ?_⟩
  · split <;> exact State.homeWrite_cores ..
  · split <;> rfl

/-- A poisoned home stays as it is, and the core stops, where a phase runs and no abort is under way (R220, R341). -/
theorem State.poisonedHome_spec (s : State) (core : Fin 96) (o : OutOp) : (s.poisonedHome core o).mems = s.mems
    ∧ ((s.part (s.partOf core)).seq = .phase → (s.part (s.partOf core)).abort = none →
      ((s.poisonedHome core o).core core).halted = true ∧ ∃ a, ((s.poisonedHome core o).part (s.partOf core)).abort = some a
        ∧ a.info = ⟨0x18, 1, some core, some o.src, 0, o.va / 64 * 64, []⟩) := by
  unfold State.poisonedHome State.strayFault
  exact ⟨State.eventFault_mems .., State.eventFault_first (s.performed core o) (s.partOf core) core _⟩

theorem State.applyOp_poisoned {s : State} {core : Fin 96} {o : OutOp} {h : Home} {n : Nat}
    (hk : (∃ aop ty v k, o.kind = .amo aop ty v k ∧ n = amoSize ty) ∨ (∃ sop v, o.kind = .sig sop v ∧ n = 8))
    (hold : leNat? (s.homeRead h n) = none) : s.applyOp core o h = s.poisonedHome core o := by
  unfold State.applyOp
  obtain ⟨aop, ty, v, k, hk, rfl⟩ | ⟨sop, v, hk, rfl⟩ := hk
  · rw [hk]
    dsimp only
    rw [hold]
  · rw [hk]
    dsimp only
    rw [hold]
    rfl

/-! ### An operation's path -/

theorem Core.op_id {c : Core} {id : Nat} {o : OutOp} (h : c.op id = some o) : o.id = id := by
  simpa using List.find?_some h

theorem Core.op_putOp {c : Core} {id : Nat} {o o' : OutOp} (h : c.op id = some o) (hid : o'.id = id) : (c.putOp o').op id = some o' := by
  change (c.outb.map fun x => if x.id = o'.id then o' else x).find? (fun o => o.id == id) = some o'
  replace h : c.outb.find? (fun o => o.id == id) = some o := h
  generalize c.outb = xs at h ⊢
  induction xs with
  | nil => simp at h
  | cons x xs ih =>
    rw [List.map_cons, List.find?_cons]
    rw [List.find?_cons] at h
    by_cases hx : x.id = id
    · simp [hx, hid]
    · have hx' : x.id ≠ o'.id := hid ▸ hx
      have hb : (x.id == id) = false := beq_eq_false_iff_ne.mpr hx
      rw [hb] at h
      rw [if_neg hx', hb]
      exact ih h

section
variable {s : State} {core : Fin 96} {id : Nat} {o : OutOp} (hop : (s.core core).op id = some o)
include hop

theorem exec_untimetabled_held (hst : o.st = .held) : exec (.untimetabledWritePerformed core id) s
    = .next (if s.maySend core o then (s.setCore core ((s.core core).putOp { o with st := .sent })).later core id
      else s.later core id) := by
  change execUntimetabledWritePerformed core id s = _
  simp only [execUntimetabledWritePerformed, hop, hst]

/-- An operation that is no put, at its home. -/
theorem exec_untimetabled_sent {h : Home} (hst : o.st = .sent) (hput : o.isPut = false) (hhome : o.home = some h) :
    exec (.untimetabledWritePerformed core id) s
    = .next (if !s.mayApply core o h then s.later core id
      else match s.homeTick core h with
        | some cycle => s.schedule cycle (.untimetabledWritePerformed core id)
        | none => match s.deferrer (s.sourceOf core) h 8 with
          | some q => s.deferTo q { src := s.sourceOf core, act := .op core h id }
          | none => s.applyOp core o h) := by
  change execUntimetabledWritePerformed core id s = _
  simp only [execUntimetabledWritePerformed, hop, hst, hhome]
  unfold OutOp.isPut at hput
  cases hk : o.kind with
  | put => rw [hk] at hput; exact nomatch hput
  | _ => rfl

theorem exec_acknowledgement (hst : o.st = .performed) : exec (.acknowledgement core id) s
    = .next (if o.isPut then (s.setCore core ((s.core core).putOp { o with st := .acked })).schedule s.now (.putCompletion core id)
      else (s.setCore core ((s.core core).dropOp id)).completeJobs (s.partOf core)) := by
  change execAcknowledgement core id s = _
  simp only [execAcknowledgement, hop, hst]
  cases o.isPut <;> rfl

theorem exec_putCompletion {sem : Fin 32} {r : List (List (Home × Nat) × List (Option Byte))} {k : Nat} (hst : o.st = .acked)
    (hk : o.kind = .put sem r k) (hagain : o.again = false) : exec (.putCompletion core id) s
    = .next ((s.setCore core { (s.core core).dropOp id with
        regs := { (s.core core).regs with sem := (s.core core).regs.sem.set sem (bump16 (s.core core).regs.sem[sem]) } }).completeJobs
          (s.partOf core)) := by
  change execPutCompletion core id s = _
  simp only [execPutCompletion, hop, hst, hk, hagain]
  rfl

theorem exec_xsigTranslation_peer {e : TEntry} {x y z a : Nat} (hst : o.st = .translating) (hva : o.va < 2 ^ 52)
    (he : s.translate (s.partOf core) o.va = .ok e) (hacc : Access.sig.lacks e = 0) (hat : e.at' o.va = .peer x y z a) :
    exec (.xsigTranslation core id) s = .next (((s.setPart (s.partOf core) ((s.part (s.partOf core)).load e false)).setCore core
      ((s.core core).putOp { o with st := .held, home := some (.peer x y z a) })).later core id) := by
  change execXsigTranslation core id s = _
  simp only [execXsigTranslation, hop, hst, he, hacc, hat, if_neg (Nat.not_le.mpr hva)]
  rfl

theorem exec_xsigTranslation_far (hst : o.st = .translating) (hva : 2 ^ 52 ≤ o.va) : exec (.xsigTranslation core id) s
    = .next ((s.setCore core ((s.core core).dropOp id)).strayFault core o.src ⟨0x22, 0, o.va, 1⟩) := by
  change execXsigTranslation core id s = _
  simp only [execXsigTranslation, hop, hst]
  rw [if_neg (by decide), if_pos hva]

end

/-! ### Writes that arrive -/

theorem Source.any_posted (l : List InWrite) (src : Source) : (l.any (·.src == src)) = true ↔ ∃ w, w ∈ l ∧ w.src = src := by
  simp [List.any_eq_true]

/-- A write of a source that has nothing waiting, which no bank keeps. -/
theorem State.arrive_alone {s : State} {w : InWrite} (hsrc : ∀ x, x ∈ s.mod.posted → x.src ≠ w.src) (hbank : s.waitsFor w = none) :
    s.arrive w = match s.deferrerOf w with
      | some p => s.deferTo p w
      | none => s.applyInbound w := by
  have : s.mod.posted.any (·.src == w.src) = false :=
    Bool.not_eq_true _ ▸ mt (Source.any_posted _ _).mp fun ⟨x, hx, hs⟩ => hsrc x hx hs
  unfold State.arrive
  rw [this, if_neg Bool.false_ne_true, State.takePosted, hbank]
  cases s.deferrerOf w <;> rfl

theorem State.arrive_behind {s : State} {w : InWrite} (h : ∃ x, x ∈ s.mod.posted ∧ x.src = w.src) :
    s.arrive w = { s with mod := { s.mod with posted := s.mod.posted ++ [w] } } := by
  unfold State.arrive
  rw [if_pos ((Source.any_posted _ _).mpr h)]

/-- A write of one piece, of a source that has nothing waiting: it is deferred where its piece is, or applied. -/
theorem State.arrive_free {s : State} {w : InWrite} {h : Home} {n : Nat} (hsrc : ∀ x, x ∈ s.mod.posted → x.src ≠ w.src)
    (hw : w.pieces = [(h, n)]) (hab : (match w.act with | .ab _ _ _ => true | _ => false) = false) :
    s.arrive w = match s.deferrer w.src h n w.mate with
      | some p => s.deferTo p w
      | none => s.applyInbound w := by
  have hbank : s.waitsFor w = none := by
    unfold State.waitsFor
    split
    · rename_i hact; rw [hact] at hab; exact nomatch hab
    · rfl
  have hdef : s.deferrerOf w = s.deferrer w.src h n w.mate := by
    unfold State.deferrerOf
    split
    · rename_i hact; rw [hact] at hab; exact nomatch hab
    · rw [hw, List.findSome?_cons, List.findSome?_nil]
      cases s.deferrer w.src h n w.mate <;> rfl
  rw [State.arrive_alone hsrc hbank, hdef]

/-- A signal's object after it; a poisoned one stays as it is. -/
theorem State.signalAt_none {s : State} {w : Writer} {h : Home} {op : SigOp} {v : W64} (hold : leNat? (s.homeRead h 8) = none) :
    s.signalAt w h op v = s := by
  unfold State.signalAt; rw [hold]

theorem State.signalAt_some {s : State} {w : Writer} {h : Home} {op : SigOp} {v : W64} {old : Nat}
    (hold : leNat? (s.homeRead h 8) = some old) :
    s.signalAt w h op v = s.homeWrite w h ((leBytes 8 (sigApply op (BitVec.ofNat 64 old) v).toNat).map some) := by
  unfold State.signalAt; rw [hold]

/-- Settles O47: an operation's path by its state, what it does at its home, and the arrival of writes. -/
theorem outboundAndInbound : Obligations.OutboundAndInbound := by
  unfold Obligations.OutboundAndInbound
  intro s core id o src pa n data mate beat
  dsimp only
  refine ⟨fun hop => ⟨?_, ?_, ?_, ?_, ?_, ?_, ?_, ?_, ?_⟩, ?_, ?_, rfl, ?_⟩
  · intro hst hsend
    rw [exec_untimetabled_held hop hst, hsend]
    rfl
  · intro hst hsend
    rw [exec_untimetabled_held hop hst, hsend]
    rfl
  · intro h hst hput hhome happ
    rw [exec_untimetabled_sent hop hst hput hhome, happ]
    rfl
  · intro h hst hput hhome happ
    rw [exec_untimetabled_sent hop hst hput hhome, happ, if_neg (by decide)]
    refine ⟨fun cycle hc => by rw [hc], fun hc => ?_⟩
    rw [hc]
    dsimp only
    refine ⟨fun hd => by rw [hd], fun q hd => by rw [hd], fun hd => ?_⟩
    rw [hd]
    dsimp only
    refine ⟨fun sop v old hk hh hold => ?_, fun aop ty v k old hk hold => ?_, fun n hk hold => ?_⟩
    · have hs := State.applyOp_sig (core := core) hk hh hold
      rw [sigApply_eq] at hs
      exact congrArg _ hs
    · obtain ⟨t, ht, hcores, hmems⟩ := State.applyOp_amo (core := core) (h := h) hk hold
      rw [amoApply_eq aop ty old _ _ (by simpa only [State.homeRead_length] using leNat?_lt _ _ hold)
        (Nat.mod_lt _ (Nat.two_pow_pos _))] at hmems
      obtain ⟨h1, h2, h3⟩ := (State.mems_iff _ _).mp hmems
      exact ⟨t, congrArg _ ht, h1, h2, h3, hcores⟩
    · obtain ⟨hm, hf⟩ := s.poisonedHome_spec core o
      obtain ⟨h1, h2, h3⟩ := (State.mems_iff _ _).mp hm
      rw [State.applyOp_poisoned hk hold]
      exact ⟨_, rfl, h1, h2, h3, hf⟩
  · intro hst hput
    rw [exec_acknowledgement hop hst, hput]
    rfl
  · intro hst hput
    rw [exec_acknowledgement hop hst, hput]
    rfl
  · intro sem r k hst hk hagain
    exact exec_putCompletion hop hst hk hagain
  · intro e x y z a hst hva he hacc hat
    refine ⟨_, exec_xsigTranslation_peer hop hst hva he hacc hat, ?_⟩
    change ((State.setCore _ _ _).core core).op id = _
    rw [State.core_setCore_self]
    have hid : o.id = id := Core.op_id hop
    exact Core.op_putOp hop hid
  · intro hst hva
    exact exec_xsigTranslation_far hop hst hva
  · intro poisoned sop v
    have hlen : (if poisoned = true then List.replicate data.length none else data.map some).length = data.length := by
      cases poisoned <;> simp
    refine ⟨fun hsrc => ?_, fun hsrc => ?_⟩
    · refine ⟨fun hd => ?_, fun p hd => ?_, fun p hd => ?_, fun hd => ⟨fun hold => ?_, fun old hold => ?_⟩⟩
      · exact congrArg _ ((State.arrive_free hsrc rfl rfl).trans (by rw [hlen, hd]; rfl))
      · exact congrArg _ ((State.arrive_free hsrc rfl rfl).trans (by rw [hlen, hd]))
      · exact congrArg _ ((State.arrive_free hsrc rfl rfl).trans (by rw [hd]))
      · refine congrArg _ ((State.arrive_free hsrc rfl rfl).trans ?_)
        rw [hd]
        exact State.signalAt_none hold
      · refine congrArg _ ((State.arrive_free hsrc rfl rfl).trans ?_)
        rw [hd]
        exact State.signalAt_some hold
    · exact ⟨congrArg _ (State.arrive_behind (by exact hsrc)), congrArg _ (State.arrive_behind (by exact hsrc))⟩
  · intro q h hsys
    unfold State.guards State.ofPhase
    cases h <;> simp [hsys]
  · intro hbad
    change execLandingBufferArrival core beat s = _
    simp only [execLandingBufferArrival, hbad]
    rfl

end Sys2Proof.Machine
end

section
/-! PROOF. What the sequencer's operations leave: the agenda, the watchdog, a fault of the slack window, the bank. -/

namespace Sys2Proof.Machine

/-! ### The agenda -/

theorem mem_insertEv (e x : Ev) (l : List Ev) : x ∈ insertEv e l ↔ x = e ∨ x ∈ l := by
  induction l with
  | nil => simp [insertEv]
  | cons y ys ih =>
    rw [insertEv]
    split
    · rw [List.mem_cons]
    · rw [List.mem_cons, ih, List.mem_cons]
      exact or_left_comm

theorem find?_insertEv_other {P : Ev → Bool} {e : Ev} (h : P e = false) (l : List Ev) : (insertEv e l).find? P = l.find? P := by
  induction l with
  | nil => simp [insertEv, h]
  | cons y ys ih =>
    rw [insertEv]
    split
    · rw [List.find?_cons, h]
    · rw [List.find?_cons, List.find?_cons, ih]

theorem find?_insertEv_only {P : Ev → Bool} {e : Ev} (h : P e = true) {l : List Ev} (hl : l.find? P = none) :
    (insertEv e l).find? P = some e := by
  induction l with
  | nil => simp [insertEv, h]
  | cons y ys ih =>
    rw [List.find?_cons] at hl
    cases hy : P y with
    | true => rw [hy] at hl; exact nomatch hl
    | false =>
      rw [hy] at hl
      rw [insertEv]
      split
      · rw [List.find?_cons, h]
      · rw [List.find?_cons, hy]
        exact ih hl

theorem State.mem_schedule (s : State) (n : Nat) (e : Instr) : ∃ x, x ∈ (s.schedule n e).agenda ∧ x.ev = e ∧ x.cycle = max n s.now :=
  ⟨⟨max n s.now, s.evSeq, e⟩, (mem_insertEv _ _ _).mpr (Or.inl rfl), rfl, rfl⟩

theorem State.mem_schedule_of_mem {s : State} {n : Nat} {e : Instr} {x : Ev} (h : x ∈ s.agenda) : x ∈ (s.schedule n e).agenda :=
  (mem_insertEv _ _ _).mpr (Or.inr h)

theorem State.mem_cancel_of_mem {s : State} {f : Instr → Bool} {x : Ev} (h : x ∈ s.agenda) (hf : f x.ev = false) :
    x ∈ (s.cancel f).agenda := by
  refine List.mem_filter.mpr ⟨h, ?_⟩
  rw [hf]
  rfl

/-! ### The end of an evaluation that is due -/

theorem State.evalDue_congr {s t : State} (h : s.agenda = t.agenda) (p : Nat) : s.evalDue p = t.evalDue p := by
  unfold State.evalDue; rw [h]

theorem State.evalDue_schedule_other (s : State) (p n : Nat) (e : Instr) (h : e ≠ .gateEvaluation (Fin.ofNat 4 p)) :
    (s.schedule n e).evalDue p = s.evalDue p := by
  unfold State.evalDue
  exact congrArg _ (find?_insertEv_other (P := fun x : Ev => x.ev == .gateEvaluation (Fin.ofNat 4 p)) (beq_eq_false_iff_ne.mpr h) _)

theorem State.evalDue_cancel_other (s : State) (p : Nat) (f : Instr → Bool) (h : f (.gateEvaluation (Fin.ofNat 4 p)) = false) :
    (s.cancel f).evalDue p = s.evalDue p := by
  unfold State.evalDue State.cancel
  dsimp only
  rw [List.find?_filter]
  congr 2
  funext e
  cases he : e.ev == Instr.gateEvaluation (Fin.ofNat 4 p) with
  | false => simp
  | true => rw [eq_of_beq he, h]; rfl

/-- An evaluation that takes the place of those due. -/
theorem State.evalDue_replaced (s : State) (p n : Nat) (h : s.now ≤ n) :
    ((s.cancel (· == .gateEvaluation (Fin.ofNat 4 p))).schedule n (.gateEvaluation (Fin.ofNat 4 p))).evalDue p = some n := by
  have hnone : (s.cancel (· == .gateEvaluation (Fin.ofNat 4 p))).agenda.find?
      (fun e => e.ev == .gateEvaluation (Fin.ofNat 4 p)) = none := by
    refine List.find?_eq_none.mpr fun x hx => ?_
    have := (List.mem_filter.mp hx).2
    simpa using this
  unfold State.evalDue
  change ((insertEv _ _).find? _).map _ = _
  rw [find?_insertEv_only (P := fun x : Ev => x.ev == .gateEvaluation (Fin.ofNat 4 p)) (beq_self_eq_true _) hnone, Option.map_some]
  exact congrArg some (Nat.max_eq_left h)

/-! ### A fault of the slack window -/

theorem State.putRecord_part {s : State} {p : Nat} {r : FaultRec} (h : (s.part p).frec = none) :
    ((s.putRecord p r).part p).frec = some r := by
  unfold State.putRecord
  dsimp only
  rw [h]
  dsimp only
  rw [State.part_congr (State.interrupt_parts ..), State.part_setPart_self]

/-- Where no record waits for the driver, a fault of the slack window is the one recorded, and stops the partition. -/
theorem State.slackFault_fresh {s : State} {p : Nat} (n : Nat) (f : FaultInfo) (b : Bool) (h : (s.part p).frec = none) :
    ((s.slackFault p n f b).part p).seq = .stopped
    ∧ ∃ r, ((s.slackFault p n f b).part p).frec = some r ∧ r.info = f ∧ r.step = n := by
  have hn : ((s.noteFault p f).part p).frec = none := by
    rw [State.part_congr (s.noteFault_parts p f), State.part_setPart_self]
    simp [Part.noted, h]
  have hrec : (((s.noteFault p f).recordFault p f n b).part p).seq = .stopped
      ∧ ∃ r, (((s.noteFault p f).recordFault p f n b).part p).frec = some r ∧ r.info = f ∧ r.step = n := by
    unfold State.recordFault
    dsimp only
    rw [State.part_setPart_self]
    exact ⟨rfl, _, State.putRecord_part (by exact hn), rfl, rfl⟩
  unfold State.slackFault State.stopJob
  dsimp only
  split
  · unfold State.stopQueue
    dsimp only
    rw [State.part_congr (State.interrupt_parts ..), State.part_setPart_self]
    exact hrec
  · exact hrec

/-! ### What changes of one partition leave of another -/

section
variable {p q : Nat} (hpq : Fin.ofNat 4 q ≠ Fin.ofNat 4 p)
include hpq

theorem State.setPart_other (s : State) (x : Part) : (s.setPart q x).part p = s.part p := by
  rw [State.part_setPart, if_neg hpq]

theorem State.noteFault_other (s : State) (f : FaultInfo) : (s.noteFault q f).part p = s.part p := by
  rw [State.part_congr (s.noteFault_parts q f), State.setPart_other hpq]

theorem State.slackFault_other (s : State) (n : Nat) (f : FaultInfo) (b : Bool) : (s.slackFault q n f b).part p = s.part p := by
  have hput (t : State) (r : FaultRec) : (t.putRecord q r).part p = t.part p := by
    unfold State.putRecord
    dsimp only
    split
    · rfl
    · rw [State.part_congr (State.interrupt_parts ..), State.setPart_other hpq]
  have hrec (t : State) : (t.recordFault q f n b).part p = t.part p := by
    unfold State.recordFault
    dsimp only
    rw [State.setPart_other hpq, hput]
    rfl
  unfold State.slackFault State.stopJob
  dsimp only
  split
  · unfold State.stopQueue
    dsimp only
    rw [State.part_congr (State.interrupt_parts ..), State.setPart_other hpq, hrec, State.noteFault_other hpq]
  · rw [hrec, State.noteFault_other hpq]

end

/-! ### The watchdog -/

@[simp] theorem State.armDog_parts (s : State) (p : Nat) : (s.armDog p).parts = s.parts := by
  unfold State.armDog; dsimp only; split <;> rfl
@[simp] theorem State.armDog_cores (s : State) (p : Nat) : (s.armDog p).cores = s.cores := by
  unfold State.armDog; dsimp only; split <;> rfl
@[simp] theorem State.armDog_mems (s : State) (p : Nat) : (s.armDog p).mems = s.mems := by
  unfold State.armDog; dsimp only; split <;> rfl
@[simp] theorem State.armDog_hbm (s : State) (p : Nat) : (s.armDog p).hbm = s.hbm := by
  unfold State.armDog; dsimp only; split <;> rfl
@[simp] theorem State.armDog_now (s : State) (p : Nat) : (s.armDog p).now = s.now := by
  unfold State.armDog; dsimp only; split <;> rfl
@[simp] theorem State.armDog_part (s : State) (p q : Nat) : (s.armDog p).part q = s.part q := State.part_congr (s.armDog_parts p) q

theorem State.mem_armDog {s : State} {p : Nat} {x : Ev} (h : x ∈ s.agenda) (hx : x.ev ≠ .gateWatchdogExpiry (Fin.ofNat 4 p)) :
    x ∈ (s.armDog p).agenda := by
  have hc : x ∈ (s.cancel (· == .gateWatchdogExpiry (Fin.ofNat 4 p))).agenda :=
    State.mem_cancel_of_mem h (beq_eq_false_iff_ne.mpr hx)
  unfold State.armDog
  dsimp only
  split
  · exact State.mem_schedule_of_mem hc
  · exact hc

/-- A partition whose watchdog is told at a cycle to count or not. -/
def Part.watched (x : Part) (on : Bool) (c : Nat) : Part :=
  match on, x.wdFrom with
  | true, none => { x with wdFrom := some c }
  | false, some d => { x with wdFrom := none, wd := x.wd + (c - d) }
  | _, _ => x

theorem State.watch_part (s : State) (p : Nat) (on : Bool) (c : Nat) : (s.watch p on c).part p = (s.part p).watched on c := by
  unfold State.watch Part.watched
  dsimp only
  cases on <;> cases (s.part p).wdFrom <;> simp

theorem State.watch_frame (s : State) (p : Nat) (on : Bool) (c : Nat) : (s.watch p on c).cores = s.cores
    ∧ (s.watch p on c).hbm = s.hbm ∧ (s.watch p on c).now = s.now := by
  unfold State.watch
  dsimp only
  cases on <;> cases (s.part p).wdFrom <;> simp

theorem Part.watched_wdFrom (x : Part) (on : Bool) (c : Nat) : (x.watched on c).wdFrom.isSome = on := by
  unfold Part.watched
  cases on <;> cases h : x.wdFrom <;> simp [h]

/-- Of a partition the watch changes what the watchdog has counted only. -/
theorem Part.watched_only (x : Part) (on : Bool) (c : Nat) :
    ∃ d n, x.watched on c = { x with wdFrom := d, wd := n } := by
  unfold Part.watched
  cases on <;> cases h : x.wdFrom
  · exact ⟨_, _, rfl⟩
  · exact ⟨_, _, rfl⟩
  · exact ⟨_, _, rfl⟩
  · exact ⟨_, _, rfl⟩

/-! ### The bank, and writes of the hub -/

theorem State.notify_parts (s : State) (h : Home) (n : Nat) : (s.notify h n).parts = s.parts ∧ (s.notify h n).now = s.now
    ∧ (s.notify h n).mod = s.mod := by
  unfold State.notify
  split
  · exact foldl_keeps (fun t : State => t.parts = s.parts ∧ t.now = s.now ∧ t.mod = s.mod) _ _ _ ⟨rfl, rfl, rfl⟩ fun t _ ht => ht
  · exact ⟨rfl, rfl, rfl⟩

theorem State.homeWrite_hub (s : State) (h : Home) (bs : List (Option Byte)) : (s.homeWrite .hub h bs).parts = s.parts
    ∧ (s.homeWrite .hub h bs).now = s.now ∧ (s.homeWrite .hub h bs).mod = s.mod := by
  unfold State.homeWrite
  cases h <;> exact State.notify_parts ..

/-- A change of cores one after another. -/
theorem State.foldl_onCores (f : State → Nat → Core) (l : List Nat) (s : State) :
    (l.foldl (fun (t : State) c => t.setCore c (f t c)) s).parts = s.parts
    ∧ (l.foldl (fun (t : State) c => t.setCore c (f t c)) s).mems = s.mems
    ∧ (l.foldl (fun (t : State) c => t.setCore c (f t c)) s).now = s.now
    ∧ (l.foldl (fun (t : State) c => t.setCore c (f t c)) s).mod = s.mod
    ∧ (l.foldl (fun (t : State) c => t.setCore c (f t c)) s).agenda = s.agenda :=
  foldl_keeps (fun t : State => t.parts = s.parts ∧ t.mems = s.mems ∧ t.now = s.now ∧ t.mod = s.mod ∧ t.agenda = s.agenda) _ _ _
    ⟨rfl, rfl, rfl, rfl, rfl⟩ fun _ _ ht => ht

theorem State.onCores_frame (s : State) (p : Nat) (f : Nat → Core → Core) : (s.onCores p f).parts = s.parts
    ∧ (s.onCores p f).mems = s.mems ∧ (s.onCores p f).now = s.now ∧ (s.onCores p f).mod = s.mod ∧ (s.onCores p f).agenda = s.agenda :=
  State.foldl_onCores (fun t c => f c (t.core c)) ..

theorem State.saveBanks_frame (s : State) (p n : Nat) : (s.saveBanks p n).parts = s.parts ∧ (s.saveBanks p n).mems = s.mems
    ∧ (s.saveBanks p n).now = s.now ∧ (s.saveBanks p n).mod = s.mod ∧ (s.saveBanks p n).agenda = s.agenda :=
  State.foldl_onCores (fun t c => { t.core c with bank := some ((t.core c).context (n - 16 - stagger c - (t.core c).lag)) }) ..

theorem State.restoreBanks_frame (s : State) (p : Nat) (b : Bool) : (s.restoreBanks p b).parts = s.parts
    ∧ (s.restoreBanks p b).mems = s.mems ∧ (s.restoreBanks p b).now = s.now := by
  refine foldl_keeps (fun t : State => t.parts = s.parts ∧ t.mems = s.mems ∧ t.now = s.now) _ _ _ ⟨rfl, rfl, rfl⟩ fun t c ht => ?_
  dsimp only
  split <;> exact ht

theorem State.writeContexts_frame (s : State) (p base : Nat) (ctx : Nat → Option Ctx) (decls : List GateDecl) :
    (s.writeContexts p base ctx decls).parts = s.parts ∧ (s.writeContexts p base ctx decls).now = s.now
    ∧ (s.writeContexts p base ctx decls).mod = s.mod := by
  have hparts (ps : List (Nat × List Byte)) (pa : Nat) (t : State) :
      (t.writeParts pa ps).parts = t.parts ∧ (t.writeParts pa ps).now = t.now ∧ (t.writeParts pa ps).mod = t.mod :=
    foldl_keeps (fun u : State => u.parts = t.parts ∧ u.now = t.now ∧ u.mod = t.mod) _ _ _ ⟨rfl, rfl, rfl⟩ fun u x hu => by
      obtain ⟨h1, h2, h3⟩ := u.homeWrite_hub (.hbm (pa + x.1)) (x.2.map some)
      exact ⟨h1.trans hu.1, h2.trans hu.2.1, h3.trans hu.2.2⟩
  refine foldl_keeps (fun t : State => t.parts = s.parts ∧ t.now = s.now ∧ t.mod = s.mod) _ _ _ ⟨rfl, rfl, rfl⟩ fun t x ht => ?_
  dsimp only
  split
  all_goals
    refine ⟨(hparts _ _ _).1.trans ht.1, (hparts _ _ _).2.1.trans ht.2.1, (hparts _ _ _).2.2.trans ht.2.2⟩

theorem State.spill_frame (s : State) (p : Nat) (live : List (Buf × Nat × Nat)) : (s.spill p live).parts = s.parts := by
  refine foldl_keeps (fun t : State => t.parts = s.parts) _ _ _ rfl fun t x ht => ?_
  refine Eq.trans ?_ ht
  unfold State.spillCore
  dsimp only
  rw [State.setCore_parts]
  refine foldl_keeps (fun u : State => u.parts = t.parts) _ _ _ ?_ fun u y hu => (State.homeWrite_hub ..).1.trans hu
  exact (State.homeWrite_hub ..).1.trans (State.homeWrite_hub ..).1

/-- The bank of a held job is cleared: it is held in the save area then. -/
theorem State.clearBank_held {s : State} {p : Nat} (h : (s.part p).held = 1) :
    (s.clearBank p).2 = s.saveCycles p ∧ ((s.clearBank p).1.part p) = { s.part p with held := 2 } ∧ (s.clearBank p).1.now = s.now := by
  unfold State.clearBank
  dsimp only
  rw [if_pos h]
  obtain ⟨h1, h2, -⟩ := s.writeContexts_frame p (s.part p).sbase (fun c => (s.core c).bank)
    ((((s.part p).heldJob.bind Job.entry).map (·.gates)).getD [])
  refine ⟨rfl, ?_, h2⟩
  change (State.setPart _ _ _).part p = _
  rw [State.part_setPart_self, State.part_congr h1]

theorem State.clearBank_free {s : State} {p : Nat} (h : (s.part p).held ≠ 1) : s.clearBank p = (s, 0) := by
  unfold State.clearBank
  exact if_neg h

end Sys2Proof.Machine
end

section
/-! PROOF. The events of the phase sequencer (O48). -/

namespace Sys2Proof.Machine

section
variable {s : State} {p : Fin 4}

/-! ### A step of the slack window by its number -/

theorem exec_eval_step3 (h : (s.part p).seq = .slack 3) : exec (.gateEvaluation p) s = .next (s.step3 p) := by
  change execGateEvaluation p s = _
  simp only [execGateEvaluation, h]

theorem exec_eval_step4 (h : (s.part p).seq = .slack 4) : exec (.gateEvaluation p) s = .next (s.step4 p) := by
  change execGateEvaluation p s = _
  simp only [execGateEvaluation, h]

theorem exec_eval_step5 (h : (s.part p).seq = .slack 5) :
    exec (.gateEvaluation p) s = .next (if (s.part p).expired then s.dogStop p else s.evaluate p) := by
  change execGateEvaluation p s = _
  simp only [execGateEvaluation, h]

/-- Each step of the slack window where the watchdog has not expired. -/
theorem exec_eval_slack {n : Nat} (h : (s.part p).seq = .slack n) (hexp : (s.part p).expired = false) :
    ∃ t, exec (.gateEvaluation p) s = .next t
      ∧ (n = 3 → t = s.step3 p) ∧ (n = 4 → t = s.step4 p) ∧ (n = 5 → t = s.evaluate p) ∧ (n = 6 → t = s.hold p)
      ∧ (n = 7 → t = s.end7 p) ∧ (n = 8 → t = s.end8 p)
      ∧ (n = 9 → (s.part p).announced = false → t = s.step9 p) ∧ (n = 9 → (s.part p).announced = true → t = s) := by
  change ∃ t, execGateEvaluation p s = .next t ∧ _
  match n, h with
  | 3, h => exact ⟨_, exec_eval_step3 h, by simp⟩
  | 4, h => exact ⟨_, exec_eval_step4 h, by simp⟩
  | 5, h => exact ⟨_, exec_eval_step5 h, by simp [hexp]⟩
  | 6, h => exact ⟨s.hold p, by simp only [execGateEvaluation, h], by simp⟩
  | 7, h => exact ⟨s.end7 p, by simp only [execGateEvaluation, h], by simp⟩
  | 8, h => exact ⟨s.end8 p, by simp only [execGateEvaluation, h], by simp⟩
  | 9, h =>
    refine ⟨if (s.part p).announced then s else s.step9 p, by simp [execGateEvaluation, h, hexp], ?_⟩
    cases (s.part p).announced <;> simp
  | 0, h => exact ⟨s, by simp only [execGateEvaluation, h], by simp⟩
  | 1, h => exact ⟨s, by simp only [execGateEvaluation, h], by simp⟩
  | 2, h => exact ⟨s, by simp only [execGateEvaluation, h], by simp⟩
  | n + 10, h => exact ⟨s, by simp only [execGateEvaluation, h], by simp⟩

/-! ### Steps 3 and 4 -/

@[simp] theorem State.onPart_part (s : State) (p : Nat) (f : Part → Part) : (s.onPart p f).part p = f (s.part p) :=
  State.part_setPart_self ..
@[simp] theorem State.stepDone_part (s : State) (p : Nat) : (s.stepDone p).part p = { s.part p with progress := (s.part p).progress + 1 } :=
  State.part_setPart_self ..
theorem State.goOn_part (s : State) (p n c : Nat) : (s.goOn p n c).part p = { s.part p with seq := .slack n } :=
  State.part_setPart_self ..

theorem State.mem_goOn (s : State) (p n c : Nat) : ∃ e, e ∈ (s.goOn p n c).agenda ∧ e.ev = .gateEvaluation (Fin.ofNat 4 p)
    ∧ e.cycle = max c s.now := State.mem_schedule ..

/-- A phase that a marked, replayable job runs again (R312). -/
theorem State.step3_again {j : Job} (hj : (s.part p).job = some j) (hm : j.marked = true)
    (hr : (j.entry.map (·.replayable)).getD false = true) (hn : j.replays < 2) :
    (s.step3 p).part p = { s.part p with
      progress := (s.part p).progress + 1, wd := 0, wdFrom := none, next := some ⟨j.phase, j.pidx, j.infl, j.z, j.q, true⟩
      seq := .slack 7, job := some { j with replays := j.replays + 1, marked := false } }
    ∧ (s.step3 p).hbm = s.hbm := by
  have hu (u : State) (hu : u.part p
      = { s.part p with job := some { j with replays := j.replays + 1 }, progress := (s.part p).progress + 1 }) (hm : u.hbm = s.hbm) :
      (u.rerun p false 0).part p = { s.part p with
        progress := (s.part p).progress + 1, wd := 0, wdFrom := none, next := some ⟨j.phase, j.pidx, j.infl, j.z, j.q, true⟩
        seq := .slack 7, job := some { j with replays := j.replays + 1, marked := false } }
      ∧ (u.rerun p false 0).hbm = s.hbm := by
    obtain ⟨h1, h2, -⟩ := u.restoreBanks_frame p false
    unfold State.rerun
    rw [hu]
    refine ⟨?_, (congrArg Prod.fst h2).trans hm⟩
    dsimp only
    rw [State.goOn_part, State.onPart_part, State.part_congr h1, hu]
  have hc : (j.marked && (j.entry.map (·.replayable)).getD false && decide (j.replays < 2)) = true := by simp [hm, hr, hn]
  unfold State.step3
  rw [hj]
  dsimp only
  rw [if_pos hc]
  refine hu _ ?_ rfl
  have hrec (n m : Nat) (f : Part → Part) : ((s.onPart p f).sedReplay p n m).part p = f (s.part p) := State.onPart_part ..
  rw [State.stepDone_part, hrec]

/-- The successor that step 4 looks up (R310). -/
def State.successor (s : State) (p : Nat) (j : Job) : Nat := (j.entry.map fun e => nth e.succ (s.exports p).2 0xFFFF).getD 0xFFFF

theorem State.step4_job {j : Job} (hj : (s.part p).job = some j) : s.step4 p
    = if s.successor p j = 0xFFFF then ((s.onPart p fun x => { x with next := none }).stepDone p).step5 p false
      else match (j.table.phases[s.successor p j]?).bind fun e => e.infls.findIdx? fun i => decide ((s.exports p).1 ≤ i.bound) with
        | some i => ((s.onPart p fun x => { x with
            next := some ⟨j.phase + 1, s.successor p j, i, (s.exports p).1, (s.exports p).2, false⟩ }).stepDone p).step5 p false
        | none => s.slackFault p 4 (slackInfo 0x28 ((s.exports p).1 + (s.exports p).2 * 2 ^ 32) 0 none []) false := by
  unfold State.step4
  rw [hj]
  rfl

theorem findIdx?_first {α : Type} (P : α → Bool) (is js : List α) (i : α) (his : ∀ k, k ∈ is → P k = false) (hi : P i = true) :
    (is ++ i :: js).findIdx? P = some is.length := by
  induction is with
  | nil =>
    rw [List.nil_append, List.findIdx?_cons, hi]
    rfl
  | cons k is ih =>
    rw [List.cons_append, List.findIdx?_cons, his k List.mem_cons_self, ih fun k hk => his k (List.mem_cons_of_mem _ hk)]
    rfl

/-! ### Gates -/

theorem condHolds_iff (n : Nat) (v w : W64) : condHolds n v w = true ↔ (match n with
    | 0 => v = w
    | 1 => v ≠ w
    | 2 => w.toInt ≤ v.toInt
    | _ => v.toInt < w.toInt) := by
  unfold condHolds
  split <;> simp [BitVec.sle, BitVec.slt]

/-- A registration on an object in HBM is judged by what stands there. -/
theorem State.judge_hbm {c : Nat} {g : GateReg} {d : GateDecl} {a : Nat} (hsem : g.sem = false) (hd : (s.endedGates p)[g.n]? = some d)
    (ha : mapGet (s.part p).gateHomes g.n = some (.hbm a)) :
    s.judge p (c, g) = s.judgeObject d.addr g.n (.hbm a) d.cond (g.value.getD d.value) d.idle := by
  unfold State.judge
  dsimp only
  rw [hsem, hd, ha]
  rfl

theorem State.judgeObject_value {va n cond : Nat} {h : Home} {w : W64} {idle : Bool} {v : Nat} (hv : leNat? (s.homeRead h 8) = some v)
    (hok : BitVec.ofNat 64 v ≠ invalidSignal) :
    s.judgeObject va n h cond w idle = .holds ↔ condHolds cond (BitVec.ofNat 64 v) w = true := by
  unfold State.judgeObject
  rw [hv]
  dsimp only
  rw [if_neg hok]
  split
  next hc => exact ⟨fun _ => hc, fun _ => rfl⟩
  next hc => exact ⟨fun e => (nomatch e), fun e => absurd e hc⟩

theorem State.judgeObject_invalid {va n cond : Nat} {h : Home} {w : W64} {idle : Bool} {v : Nat} (hv : leNat? (s.homeRead h 8) = some v)
    (hok : BitVec.ofNat 64 v = invalidSignal) :
    s.judgeObject va n h cond w idle = .fault (slackInfo 0x29 n va none []) := by
  unfold State.judgeObject
  rw [hv]
  exact if_pos hok

theorem State.judgeObject_poisoned {va n cond : Nat} {h : Home} {w : W64} {idle : Bool} (hv : leNat? (s.homeRead h 8) = none) :
    s.judgeObject va n h cond w idle = .fault (slackInfo 0x18 n (va / 64 * 64) none []) := by
  unfold State.judgeObject
  rw [hv]

theorem State.judge_sem {c : Nat} {g : GateReg} (h : g.sem = true) : s.judge p (c, g) = .holds
    ↔ (g.value.getD 0).toNat ≤ ((s.core c).regs.sem[(Fin.ofNat 32 g.n)]).toNat := by
  unfold State.judge
  dsimp only
  rw [h, if_pos rfl]
  split
  next hc => exact ⟨fun _ => hc, fun _ => rfl⟩
  next hc => exact ⟨fun e => (nomatch e), fun e => absurd e hc⟩

/-! ### The end of an evaluation (R265) -/

/-- The fault that a verdict is. -/
def Verdict.fault? : Verdict → Option FaultInfo
  | .fault f => some f
  | _ => none

theorem Verdict.fault?_eq_some (v : Verdict) (f : FaultInfo) : v.fault? = some f ↔ v = .fault f := by
  cases v <;> simp [Verdict.fault?]

theorem Verdict.fault?_eq_none (v : Verdict) : v.fault? = none ↔ ∀ f, v ≠ .fault f := by
  cases v <;> simp [Verdict.fault?]

/-- The fault that the registrations are judged to have, in their order. -/
def State.gateFault (s : State) (p : Nat) : Option FaultInfo := ((s.registrations p).map (s.judge p)).findSome? Verdict.fault?

theorem State.gateFault_first {rs ts : List (Nat × GateReg)} {r : Nat × GateReg} {f : FaultInfo} (h : s.registrations p = rs ++ r :: ts)
    (hrs : ∀ r' f', r' ∈ rs → s.judge p r' ≠ .fault f') (hr : s.judge p r = .fault f) : s.gateFault p = some f := by
  unfold State.gateFault
  rw [h, List.map_append, List.findSome?_append, List.map_cons, List.findSome?_cons, hr]
  have : (rs.map (s.judge p)).findSome? Verdict.fault? = none := by
    refine List.findSome?_eq_none_iff.mpr fun v hv => ?_
    obtain ⟨r', hr', rfl⟩ := List.mem_map.mp hv
    exact (Verdict.fault?_eq_none _).mpr fun f' => hrs r' f' hr'
  rw [this]
  rfl

theorem State.gateFault_none (h : ∀ r f, r ∈ s.registrations p → s.judge p r ≠ .fault f) : s.gateFault p = none := by
  refine List.findSome?_eq_none_iff.mpr fun v hv => ?_
  obtain ⟨r', hr', rfl⟩ := List.mem_map.mp hv
  exact (Verdict.fault?_eq_none _).mpr fun f' => h r' f' hr'

theorem State.evaluate_fault {f : FaultInfo} (h : s.gateFault p = some f) :
    ∃ u : State, s.evaluate p = u.slackFault p 5 f false ∧ u.parts = s.parts := by
  unfold State.evaluate
  dsimp only
  split
  next g hg =>
    have : some g = some f := hg.symm.trans h
    injection this with this
    subst this
    exact ⟨_, rfl, rfl⟩
  next hg => exact absurd (h.symm.trans hg) (fun e => nomatch e)

/-- The evaluation in which every gate holds is noted, with the first of them. -/
def State.gatesNoted (s : State) (p : Nat) : State :=
  match s.registrations p with
  | r :: _ => s.sedGate p r.2.n 0 (s.now - (s.part p).from5)
  | [] => s

theorem State.gatesNoted_frame (s : State) (p : Nat) :
    (s.gatesNoted p).parts = s.parts ∧ (s.gatesNoted p).cores = s.cores ∧ (s.gatesNoted p).hbm = s.hbm := by
  unfold State.gatesNoted
  split <;> exact ⟨rfl, rfl, rfl⟩

theorem State.evaluate_free (h : s.gateFault p = none) : s.evaluate p
    = if ((s.registrations p).map (s.judge p)).all (· == .holds) then
        (((s.gatesNoted p).watch p false (s.gatesNoted p).now).stepDone p).step6 p
      else ((s.noteRemote p (s.registrations p)).watch p (((s.registrations p).map (s.judge p)).any (· == .waits false))
        s.now).nextEvaluation p := by
  unfold State.evaluate
  dsimp only
  split
  next g hg => exact absurd (h.symm.trans hg) (fun e => nomatch e)
  next hg => rfl

theorem State.evaluate_holds (h : ∀ r, r ∈ s.registrations p → s.judge p r = .holds) : ∃ u : State, s.evaluate p = u.step6 p
    ∧ (u.part p).wdFrom = none ∧ (u.part p).next = (s.part p).next ∧ (u.part p).progress = (s.part p).progress + 1
    ∧ u.cores = s.cores ∧ u.hbm = s.hbm := by
  have hall : ((s.registrations p).map (s.judge p)).all (· == .holds) = true := by
    refine List.all_eq_true.mpr fun v hv => ?_
    obtain ⟨r, hr, rfl⟩ := List.mem_map.mp hv
    rw [h r hr]
    rfl
  rw [State.evaluate_free (State.gateFault_none fun r f hr => by rw [h r hr]; exact fun e => nomatch e), if_pos hall]
  obtain ⟨h1, h2, h3⟩ := s.gatesNoted_frame p
  obtain ⟨w1, w2, -⟩ := State.watch_frame (s.gatesNoted p) p false (s.gatesNoted p).now
  refine ⟨_, rfl, ?_⟩
  rw [State.stepDone_part, State.watch_part, State.part_congr h1]
  obtain ⟨d, n, hw⟩ := (s.part p).watched_only false (s.gatesNoted p).now
  have hd : d = none := by
    have := (s.part p).watched_wdFrom false (s.gatesNoted p).now
    rw [hw] at this
    simpa using this
  rw [hw]
  exact ⟨hd, rfl, rfl, w1.trans h2, w2.trans h3⟩

theorem State.noteRemote_frame (s : State) (p : Nat) (rs : List (Nat × GateReg)) : (s.noteRemote p rs).cores = s.cores
    ∧ (s.noteRemote p rs).hbm = s.hbm ∧ (s.noteRemote p rs).now = s.now
    ∧ ∃ l, (s.noteRemote p rs).part p = { s.part p with remoteOk := l } := by
  unfold State.noteRemote
  split
  · exact ⟨rfl, rfl, rfl, _, State.onPart_part ..⟩
  · exact ⟨rfl, rfl, rfl, _, rfl⟩

/-- An evaluation that finds no fault and a gate that waits: the next one (R265). -/
theorem State.evaluate_waits (h : ∀ r f, r ∈ s.registrations p → s.judge p r ≠ .fault f)
    (hw : ∃ r, r ∈ s.registrations p ∧ s.judge p r ≠ .holds) :
    let periodic := (s.part p).from5 + 256 * ((s.now - 16 - (s.part p).from5) / 256 + 1)
    let t := s.evaluate p
    (t.part p).seq = .slack 5 ∧ t.cores = s.cores ∧ t.hbm = s.hbm ∧ (t.part p).evalAgain = false
      ∧ (∃ e, e ∈ t.agenda ∧ e.ev = .gateEvaluation (Fin.ofNat 4 p)
        ∧ e.cycle = (if (s.part p).evalAgain = true then s.now else max s.now periodic) + 16)
      ∧ ((t.part p).wdFrom.isSome = true ↔ ∃ r, r ∈ s.registrations p ∧ s.judge p r = .waits false) := by
  have hall : ¬ ((s.registrations p).map (s.judge p)).all (· == .holds) = true := by
    obtain ⟨r, hr, hn⟩ := hw
    intro ha
    exact hn (eq_of_beq (List.all_eq_true.mp ha _ (List.mem_map_of_mem hr)))
  intro periodic t
  have ht : t = ((s.noteRemote p (s.registrations p)).watch p (((s.registrations p).map (s.judge p)).any (· == .waits false))
        s.now).nextEvaluation p :=
    (State.evaluate_free (State.gateFault_none h)).trans (if_neg hall)
  obtain ⟨h1, h2, h3, l, h4⟩ := s.noteRemote_frame p (s.registrations p)
  generalize s.noteRemote p (s.registrations p) = u at ht h1 h2 h3 h4
  generalize hon : ((s.registrations p).map (s.judge p)).any (· == .waits false) = on at ht
  obtain ⟨w1, w2, w3⟩ := u.watch_frame p on s.now
  have w4 := u.watch_part p on s.now
  have hdog := (u.part p).watched_wdFrom on s.now
  obtain ⟨d, n, hx⟩ := (u.part p).watched_only on s.now
  rw [hx] at w4 hdog
  rw [h4] at w4
  have hstart : s.now ≤ (if (s.part p).evalAgain = true then s.now else max s.now periodic) + 16 := by
    split
    · exact Nat.le_add_right ..
    · exact Nat.le_trans (Nat.le_max_left ..) (Nat.le_add_right ..)
  generalize u.watch p on s.now = v at ht w1 w2 w3 w4
  have hnow : v.now = s.now := w3.trans h3
  rw [ht]
  unfold State.nextEvaluation
  dsimp only
  rw [State.goOn_part, State.part_setPart_self, w4, hnow]
  refine ⟨rfl, w1.trans h1, w2.trans h2, rfl, ?_, ?_⟩
  · obtain ⟨e, he, hev, hcyc⟩ := State.mem_goOn (v.setPart p _) p 5 ((if (s.part p).evalAgain = true then s.now
      else max s.now periodic) + 16)
    exact ⟨e, he, hev, hcyc.trans (Nat.max_eq_left (hnow ▸ hstart))⟩
  · have : on = true ↔ ∃ r, r ∈ s.registrations p ∧ s.judge p r = .waits false := by
      rw [← hon, List.any_map, List.any_eq_true]
      exact exists_congr fun r => and_congr_right fun _ => beq_iff_eq
    rw [← this, ← hdog]

end

end Sys2Proof.Machine
end

section
/-! PROOF. The barriers of a system phase and the start of a phase (O48). -/

namespace Sys2Proof.Machine

/-! ### What waits at step 9 -/

theorem State.wakeHeld_parts (s : State) : s.wakeHeld.parts = s.parts := by
  refine foldl_keeps (fun t : State => t.parts = s.parts) _ _ _ rfl fun t q ht => ?_
  split
  · exact ht
  · exact ht

/-- Partitions that step 9 takes up leave the others as they are. -/
theorem State.step9_other {p q : Nat} (hpq : Fin.ofNat 4 q ≠ Fin.ofNat 4 p) (s : State) : (s.step9 q).part p = s.part p := by
  have hon (s : State) (f : Part → Part) : (s.onPart q f).part p = s.part p := State.setPart_other hpq ..
  have hwatch (s : State) (b : Bool) (n : Nat) : (s.watch q b n).part p = s.part p := by
    unfold State.watch
    dsimp only
    split
    · rw [State.armDog_part, State.setPart_other hpq]
    · rw [State.armDog_part, State.setPart_other hpq]
    · rfl
  have halign (s : State) : (s.alignGroup q).part p = s.part p := by
    unfold State.alignGroup
    dsimp only
    split
    · split
      · rfl
      · split
        · unfold State.stopGroup
          rw [State.part_congr (State.wakeHeld_parts _), State.slackFault_other hpq, hon]
          rfl
        · rfl
    · rfl
  have hdone (s : State) : (s.stepDone q).part p = s.part p := hon s _
  have hten (s : State) (n : Nat) : (s.step10 q n).part p = s.part p := by
    unfold State.step10
    rw [State.schedule_part, hon]
  have hhear (s : State) : (s.hearStop q).part p = s.part p := by
    unfold State.hearStop
    rw [State.slackFault_other hpq]
    change (s.onPart q fun x => { x with readyRanks := [], groupStopped := false }).part p = _
    rw [hon]
  have hemit (s : State) (o : Output) : (s.emit o).part p = s.part p := rfl
  unfold State.step9
  split
  · rw [hten, hdone]
  · dsimp only
    split
    · rw [hhear, hon]
    · split
      · exact hon _ _
      · split
        · rw [halign]
          split
          · rw [hwatch, hemit, hon, hon]
          · rw [hemit, hon, hon]
        · exact hon _ _

/-- A partition that does not wait at step 9 stays as it is where those that wait there go on. -/
theorem State.releaseSystem_part {s : State} {p : Nat} (h : (s.part p).seq ≠ .slack 9) : s.releaseSystem.part p = s.part p := by
  refine foldl_keeps (fun t : State => t.part p = s.part p) _ _ _ rfl fun t q ht => ?_
  split
  next hq =>
    have hpq : Fin.ofNat 4 q ≠ Fin.ofNat 4 p := fun e => by
      have hqp : t.part q = t.part p := by simp only [State.part, e]
      rw [hqp, ht] at hq
      have := (Bool.and_eq_true _ _ ▸ hq).1
      exact h (eq_of_beq this)
    exact (State.step9_other hpq t).trans ht
  next => exact ht

section
variable {s : State} {p : Fin 4}

/-! ### The last sign-off, the replay marks, the start wave -/

theorem exec_lastSignOff_aborted (hseq : (s.part p).seq = .signing) (h : (s.part p).abort.isSome = true) :
    exec (.lastSignOff p) s = .next (s.schedule s.now (.faultCapture p)) := by
  change execLastSignOff p s = _
  simp [execLastSignOff, hseq, h]

theorem exec_lastSignOff_busy (hseq : (s.part p).seq = .signing) (h : (s.part p).abort = none) (hd : s.drained p = false) :
    exec (.lastSignOff p) s = .next (s.schedule (max (s.now + 1) (s.part p).base) (.lastSignOff p)) := by
  change execLastSignOff p s = _
  simp [execLastSignOff, hseq, h, hd]

/-- The partition whose sign-offs are complete. -/
def State.signedOff (s : State) (p : Nat) : State :=
  (s.sediment 0x01 p 0xFF false (leBytes 4 (((s.part p).job.map (·.phase)).getD 0) ++ leBytes 2 (((s.part p).job.map (·.pidx)).getD 0)
    ++ [BitVec.ofNat 8 (((s.part p).job.map (·.infl)).getD 0), BitVec.ofNat 8 ((s.part p).cad - 1)])).onPart p
    fun x => { x with seq := .slack 1, soff := s.now + 384 }

theorem exec_lastSignOff_drained (hseq : (s.part p).seq = .signing) (h : (s.part p).abort = none) (hd : s.drained p = true)
    (hm : (s.part p).dmodeOn = 0) : ∃ u : State, exec (.lastSignOff p) s = .next ((u.step1 p).step2 p).releaseSystem
      ∧ (u.part p).soff = s.now + 384 ∧ (u.part p).seq = .slack 1 ∧ u.cores = s.cores ∧ u.hbm = s.hbm := by
  have h1 : ((s.part p).seq != .signing) = false := by rw [hseq]; rfl
  have h2 : (s.part p).abort.isSome = false := by rw [h]; rfl
  have h3 : ((s.part p).seq == .debug true) = false := by rw [hseq]; rfl
  refine ⟨s.signedOff p, ?_, congrArg Part.soff (State.onPart_part ..), congrArg Part.seq (State.onPart_part ..), rfl, rfl⟩
  change execLastSignOff p s = _
  unfold execLastSignOff
  have hlog : (if (s.part p).dmodeOn = 1 then s.logDigests p else if (s.part p).dmodeOn = 2 then s.compareDigests p else s) = s := by
    rw [hm]
    exact (if_neg (by decide)).trans (if_neg (by decide))
  dsimp only
  rw [hlog, h1, h2, hd, h3]
  exact congrArg _ rfl

theorem exec_replayMarkExchange {j : Job} {marked : Bool} (hseq : (s.part p).seq = .slack 2) (hj : (s.part p).job = some j) :
    exec (.replayMarkExchange p marked) s
      = .next (((s.setPart p { s.part p with job := some { j with marked := j.marked || marked } }).stepDone p).goOn p 3
        (max s.now ((s.part p).soff - 384 + 320 * j.hops))) := by
  change execReplayMarkExchange p marked s = _
  unfold execReplayMarkExchange
  dsimp only
  rw [hj]
  exact if_pos (beq_iff_eq.mpr hseq)

theorem exec_startWave {j : Job} {cad hops : Nat} (hseq : (s.part p).seq = .slack 9) (hj : (s.part p).job = some j)
    (hexp : (s.part p).expired = false) : exec (.startWave p cad hops) s
      = .next ((((s.watch p false s.now).onPart p fun y => { y with wave := some cad }).stepDone p).step10 p
        (s.now + 256 + 320 * (j.hops - hops))) := by
  change execStartWave p cad hops s = _
  simp only [execStartWave, hseq, hj, hexp]
  rfl

/-! ### The group's readiness (R315) -/

theorem exec_alignmentReadiness {j : Job} {rank pidx infl cad : Nat} (hj : (s.part p).job = some j) (hr : j.rank = 0)
    (hnew : ∀ r, r ∈ (s.part p).readyRanks → r.1 ≠ rank) : exec (.alignmentReadiness p rank pidx infl cad) s
      = .next ((s.setPart p { s.part p with readyRanks := (s.part p).readyRanks ++ [(rank, pidx, infl, cad)] }).alignGroup p) := by
  change execAlignmentReadiness p rank pidx infl cad s = _
  unfold execAlignmentReadiness
  dsimp only
  have h1 : (s.part p).readyRanks.any (fun r => r.1 == rank) = false := by
    refine List.any_eq_false.mpr fun r hr' => ?_
    simpa using hnew r hr'
  refine if_neg ?_
  rw [h1, hj]
  simp [hr]

/-- The root waits for the rest of its group. -/
theorem State.alignGroup_early {j : Job} (hj : (s.part p).job = some j) (h : (s.part p).readyRanks.length < j.members) :
    s.alignGroup p = s := by
  unfold State.alignGroup
  dsimp only
  rw [hj]
  split
  next j' x hj' hx =>
    injection hj' with hj'
    subst hj'
    exact if_pos (by simp [h])
  next => rfl

/-- The root, once its group is ready: the start wave, or the stop of the group. -/
theorem State.alignGroup_ready {j : Job} {x : Sel} (hj : (s.part p).job = some j) (hx : (s.part p).next = some x) (hr : j.rank = 0)
    (hseq : (s.part p).seq = .slack 9) (hexp : (s.part p).expired = false) (hroot : ∃ r, r ∈ (s.part p).readyRanks ∧ r.1 = 0)
    (h : j.members ≤ (s.part p).readyRanks.length) : s.alignGroup p
    = if (s.part p).readyRanks.any fun r => r.2.1 != x.pidx || r.2.2.1 != x.infl then s.stopGroup p 0x28 (x.z + x.q * 2 ^ 32)
      else (s.emit (.startWave p ((((s.part p).readyRanks).map fun r => r.2.2.2).foldl max 1) 0)).schedule s.now
        (.startWave (Fin.ofNat 4 p) ((((s.part p).readyRanks).map fun r => r.2.2.2).foldl max 1) 0) := by
  have hann : (s.part p).announced = true := by
    unfold Part.announced
    rw [hj]
    obtain ⟨r, hm, h0⟩ := hroot
    exact List.any_eq_true.mpr ⟨r, hm, beq_iff_eq.mpr (h0.trans hr.symm)⟩
  unfold State.alignGroup
  dsimp only
  rw [hj, hx]
  exact if_neg (by simp [hseq, hexp, hr, hann, h])

theorem State.stopGroup_fresh {code detail : Nat} (h : (s.part p).frec = none) :
    ((s.stopGroup p code detail).part p).seq = .stopped
    ∧ ∃ r, ((s.stopGroup p code detail).part p).frec = some r ∧ r.info = slackInfo code detail 0 none [] ∧ r.step = 9 := by
  unfold State.stopGroup
  rw [State.part_congr (State.wakeHeld_parts _)]
  refine State.slackFault_fresh _ _ _ ?_
  rw [State.onPart_part]
  exact h

end

end Sys2Proof.Machine
end

section
/-! PROOF. The start of a phase, write notifications and the gate watchdog (O48). -/

namespace Sys2Proof.Machine

/-! ### The start of a phase -/

theorem State.requeue_part (s : State) (p : Nat) :
    (s.requeue p).now = s.now ∧ (s.requeue p).part p = { s.part p with queues := ((s.requeue p).part p).queues } := by
  unfold State.requeue
  split
  · dsimp only
    split
    · rw [State.tryLaunch, State.schedule_part, State.onPart_part]
      exact ⟨rfl, rfl⟩
    · exact ⟨rfl, rfl⟩
  · exact ⟨rfl, rfl⟩

theorem State.loadImages_frame (s : State) (p : Nat) (j : Job) (x : Sel) :
    (s.loadImages p j x).1.parts = s.parts ∧ (s.loadImages p j x).1.now = s.now := by
  obtain ⟨h1, -, h3, -⟩ := s.onCores_frame p fun c co =>
    match (s.takersOf p x).find? fun t => t.1 == c with
    | some t => co.loadHalf (j.imageKey t.2.1) (j.imageOf t.2.1)
    | none => co
  exact ⟨h1, h3⟩

/-- A partition whose phase begins at a cadence, its ticks counted from a cycle. -/
structure Part.Begun (x : Part) (cad base : Nat) : Prop where
  seq : x.seq = .phase
  k : x.k = 0
  cad : x.cad = cad
  base : x.base = base
  abort : x.abort = none

section
variable {s : State} {p : Fin 4}

/-- A phase starts: its tick 0 falls 64 cycles on (R311). -/
theorem exec_phaseStart {j : Job} {x : Sel} (hseq : (s.part p).seq = .slack 10) (hj : (s.part p).job = some j)
    (hx : (s.part p).next = some x) (hstop : (s.part p).dstopReq = false)
    (hsnap : (((s.part p).dmode == 1 || (s.part p).dmode == 2) && !(s.part p).snap && !s.nextSystem p) = false) :
    ∃ t, exec (.phaseStart p) s = .next t ∧ t.now = s.now ∧ (t.part p).seq = .phase ∧ (t.part p).k = 0
      ∧ (t.part p).cad = (s.part p).wave.getD (s.cadenceOf p) ∧ (t.part p).base = s.now + 64 - 16 * (t.part p).cad
      ∧ (t.part p).abort = none := by
  change ∃ t, execPhaseStart p s = .next t ∧ _
  unfold execPhaseStart
  extract_lets part cad th
  split
  next j' x' h1 h2 h3 =>
    extract_lets j₁ ts consts flight s1 s2 s2' s3 s4 s5
    rw [if_neg (by rw [hsnap]; exact Bool.false_ne_true)]
    have hs1 : s1.now = s.now := (s.onCores_frame p _).2.2.1
    have hs2 : s2.now = s.now ∧ (s2.part p).Begun cad (s.now + 64 - 16 * cad) := by
      unfold s2
      rw [State.part_setPart_self]
      exact ⟨hs1, rfl, rfl, rfl, rfl, if_neg (by rw [hstop]; exact Bool.false_ne_true)⟩
    clear_value s2
    have hs3 : s3.now = s.now ∧ (s3.part p).Begun cad (s.now + 64 - 16 * cad) := by
      have : s2' = s2 := if_neg (by rw [hstop]; exact Bool.false_ne_true)
      unfold s3
      rw [this]
      exact hs2
    clear_value s3
    have hs4 : s4.now = s.now ∧ (s4.part p).Begun cad (s.now + 64 - 16 * cad) := by
      unfold s4
      split
      · obtain ⟨hp, hn⟩ := s3.loadImages_frame p j₁ _
        refine ⟨hn.trans hs3.1, ?_⟩
        rw [State.onPart_part, State.part_congr hp]
        obtain ⟨b1, b2, b3, b4, b5⟩ := hs3.2
        exact ⟨b1, b2, b3, b4, b5⟩
      · exact hs3
    clear_value s4
    obtain ⟨hn, hp⟩ := s4.requeue_part p
    have hp5 : s5.part p = (s4.requeue p).part p := rfl
    rw [hp] at hp5
    have hn5 : s5.now = s4.now := hn
    clear_value s5
    refine ⟨_, rfl, hn5.trans hs4.1, ?_⟩
    rw [State.schedule_part, State.schedule_part, hp5]
    obtain ⟨b1, b2, b3, b4, b5⟩ := hs4.2
    exact ⟨b1, b2, b3, b4.trans (by rw [← b3]), b5⟩
  next h => exact absurd hx (h j x hseq hj)

/-- A debug mode chosen after step 7: the snapshot is taken, and the start follows (R369). -/
theorem exec_phaseStart_late {j : Job} {x : Sel} (hseq : (s.part p).seq = .slack 10) (hj : (s.part p).job = some j)
    (hx : (s.part p).next = some x)
    (hsnap : (((s.part p).dmode == 1 || (s.part p).dmode == 2) && !(s.part p).snap && !s.nextSystem p) = true) :
    exec (.phaseStart p) s = .next (s.lateSnapshot p j) := by
  change execPhaseStart p s = _
  unfold execPhaseStart
  extract_lets part cad th
  split
  next j' x' h1 h2 h3 =>
    have : j = j' := Option.some.inj (hj.symm.trans h2)
    rw [if_pos hsnap, this]
  next h => exact absurd hx (h j x hseq hj)

theorem State.lateSnapshot_spec (j : Job) : (((s.lateSnapshot p j).part p).seq = (s.part p).seq)
    ∧ ((s.lateSnapshot p j).part p).snap = true ∧ ((s.lateSnapshot p j).part p).next = (s.part p).next
    ∧ ∃ e, e ∈ (s.lateSnapshot p j).agenda ∧ e.ev = .phaseStart p ∧ s.now ≤ e.cycle := by
  have hclear : (s.clearBank p).1.now = s.now ∧ ((s.clearBank p).1.part p).seq = (s.part p).seq
      ∧ ((s.clearBank p).1.part p).next = (s.part p).next := by
    by_cases h : (s.part p).held = 1
    · obtain ⟨-, h2, h3⟩ := State.clearBank_held h
      rw [h2]
      exact ⟨h3, rfl, rfl⟩
    · rw [State.clearBank_free h]
      exact ⟨rfl, rfl, rfl⟩
  obtain ⟨c1, c2, c3⟩ := hclear
  obtain ⟨h1, -, h3, -⟩ := (s.clearBank p).1.saveBanks_frame p 16
  have hpart : (s.lateSnapshot p j).part p = { (s.clearBank p).1.part p with snap := true } := by
    unfold State.lateSnapshot
    dsimp only
    rw [State.schedule_part, State.onPart_part, State.part_congr h1]
  rw [hpart]
  refine ⟨c2, rfl, c3, ?_⟩
  obtain ⟨e, he, hev, hc⟩ := State.mem_schedule (((s.clearBank p).1.saveBanks p 16).onPart p fun x => { x with snap := true })
    (s.now + (s.clearBank p).2 + exchangeCycles j.launch.detect) (.phaseStart (Fin.ofNat 4 p))
  refine ⟨e, he, hev.trans (congrArg _ (Fin.ext (Nat.mod_eq_of_lt p.isLt))), ?_⟩
  omega

/-! ### While a phase runs -/

theorem exec_refreshSlot_idle (h : (s.part p).seq ≠ .phase) : exec (.refreshSlot p) s = .next s := by
  change execRefreshSlot p s = _
  unfold execRefreshSlot
  exact if_pos (bne_iff_ne.mpr h)

theorem exec_refreshSlot_phase (h : (s.part p).seq = .phase) : ∃ t, exec (.refreshSlot p) s = .next t ∧ t.cores = s.cores
    ∧ t.parts = s.parts ∧ t.hbm = s.hbm := by
  change ∃ t, execRefreshSlot p s = .next t ∧ _
  unfold execRefreshSlot
  dsimp only
  rw [if_neg (by rw [h]; decide)]
  exact ⟨_, rfl, rfl, rfl, rfl⟩

theorem exec_sequencerProgress (h : (s.part p).seq = .phase ∨ (s.part p).seq = .signing) : exec (.sequencerProgress p) s
    = .next ((s.setPart p { s.part p with progress := (s.part p).progress + 1 }).schedule (s.now + 4096) (.sequencerProgress p)) := by
  change execSequencerProgress p s = _
  unfold execSequencerProgress
  obtain h | h := h
  · rw [h]; rfl
  · rw [h]; rfl

end

end Sys2Proof.Machine
end

section
/-! PROOF. Write notifications and the gate watchdog; O48. -/

namespace Sys2Proof.Machine

/-- What one step of a fold brings about, and all its steps keep, holds at its end. -/
theorem foldl_reaches {α β : Type} (P Q : α → Prop) (f : α → β → α) (l : List β) (x : β) (hx : x ∈ l) (a : α) (hQ : Q a)
    (hkeep : ∀ a b, Q a → Q (f a b)) (hP : ∀ a b, P a → P (f a b)) (hreach : ∀ a, Q a → P (f a x)) : P (l.foldl f a) := by
  obtain ⟨l1, l2, rfl⟩ := List.append_of_mem hx
  rw [List.foldl_append, List.foldl_cons]
  exact foldl_keeps P f l2 _ (hreach _ (foldl_keeps Q f l1 a hQ hkeep)) hP

/-! ### Write notifications -/

/-- What a notification of another partition's gates leaves of partition p, and of all memories. -/
structure State.Leaves (p : Nat) (s t : State) : Prop where
  part : t.part p = s.part p
  due : t.evalDue p = s.evalDue p
  now : t.now = s.now
  cores : t.cores = s.cores
  hbm : t.hbm = s.hbm

theorem State.Leaves.refl (p : Nat) (s : State) : State.Leaves p s s := ⟨rfl, rfl, rfl, rfl, rfl⟩

theorem State.Leaves.trans {p : Nat} {s t u : State} (h : State.Leaves p s t) (g : State.Leaves p t u) : State.Leaves p s u :=
  ⟨g.part.trans h.part, g.due.trans h.due, g.now.trans h.now, g.cores.trans h.cores, g.hbm.trans h.hbm⟩

theorem State.evalLaunch_leaves (s : State) (p q n c : Nat) : State.Leaves p s (s.evalLaunch q n c) := by
  unfold State.evalLaunch
  dsimp only
  split
  · exact State.Leaves.refl p s
  · refine ⟨rfl, ?_, rfl, rfl, rfl⟩
    have hne : Instr.launchGateEvaluation (Fin.ofNat 4 q) (Fin.ofNat 64 n) ≠ .gateEvaluation (Fin.ofNat 4 p) := fun e => nomatch e
    rw [State.evalDue_schedule_other _ _ _ _ hne, State.evalDue_cancel_other]
    exact beq_eq_false_iff_ne.mpr hne.symm

theorem State.notifyQueues_leaves (s : State) (p q : Nat) (h : Home) : State.Leaves p s (s.notifyQueues q h) :=
  foldl_keeps (State.Leaves p s) _ _ _ (State.Leaves.refl p s) fun t _ ht => ht.trans (t.evalLaunch_leaves p q _ _)

theorem State.notifyPart_other {p q : Nat} (hpq : Fin.ofNat 4 q ≠ Fin.ofNat 4 p) (s : State) (h : Home) :
    State.Leaves p s (s.notifyPart q h) := by
  have hev : (Instr.gateEvaluation (Fin.ofNat 4 q)) ≠ .gateEvaluation (Fin.ofNat 4 p) := fun e => by
    injection e with e
    exact hpq e
  have hset (x : Part) : State.Leaves p s (s.setPart q x) := ⟨State.setPart_other hpq s x, rfl, rfl, rfl, rfl⟩
  unfold State.notifyPart
  dsimp only
  split
  · split
    · split
      · refine (hset _).trans ⟨rfl, ?_, rfl, rfl, rfl⟩
        rw [State.evalDue_schedule_other _ _ _ _ hev, State.evalDue_cancel_other]
        exact beq_eq_false_iff_ne.mpr hev.symm
      · exact hset _
    · exact State.Leaves.refl p s
  · exact State.Leaves.refl p s

/-- No gate of the partition on the line: nothing of its gates changes. -/
theorem State.notifyPart_none {s : State} {p q : Nat} {h : Home} (hg : (s.part q).gateHomes.any (fun g => sameLine g.2 h) = false) :
    State.Leaves p s (s.notifyPart q h) := by
  unfold State.notifyPart
  dsimp only
  rw [hg, Bool.and_false, if_neg Bool.false_ne_true]
  exact State.Leaves.refl p s

/-- The cycle at which the next evaluation is due, once a write has been notified at one of the gates. -/
theorem State.notifyPart_own {s : State} {p c : Nat} {h : Home} (hseq : (s.part p).seq = .slack 5) (hexp : (s.part p).expired = false)
    (hg : (s.part p).gateHomes.any (fun g => sameLine g.2 h) = true) (hc : s.evalDue p = some c) :
    let t := s.notifyPart p h
    t.now = s.now ∧ t.cores = s.cores ∧ t.hbm = s.hbm
      ∧ (s.now + 16 < c → t.evalDue p = some (s.now + 16) ∧ (t.part p).evalAgain = (s.part p).evalAgain)
      ∧ (c ≤ s.now + 16 → t.evalDue p = some c ∧ (t.part p).evalAgain = true) := by
  intro t
  have hcond : ((s.part p).seq == .slack 5 && !(s.part p).expired && (s.part p).gateHomes.any fun g => sameLine g.2 h) = true := by
    rw [hseq, hexp, hg]
    rfl
  have ht : t = if s.now + 16 < c then
        ((s.setPart p { s.part p with evalFull := false }).cancel (· == .gateEvaluation (Fin.ofNat 4 p))).schedule (s.now + 16)
          (.gateEvaluation (Fin.ofNat 4 p))
      else s.setPart p { s.part p with evalAgain := true } := by
    unfold t State.notifyPart
    dsimp only
    rw [if_pos hcond, hc]
  rw [ht]
  by_cases hlt : s.now + 16 < c
  · rw [if_pos hlt]
    refine ⟨rfl, rfl, rfl, fun _ => ⟨State.evalDue_replaced _ _ _ (by exact Nat.le_add_right ..), ?_⟩, fun h => absurd hlt (Nat.not_lt.mpr h)⟩
    have (x : Part) : (((s.setPart p x).cancel (· == .gateEvaluation (Fin.ofNat 4 p))).schedule (s.now + 16)
        (.gateEvaluation (Fin.ofNat 4 p))).part p = x := State.part_setPart_self ..
    rw [this]
  · rw [if_neg hlt]
    exact ⟨rfl, rfl, rfl, fun h => absurd h hlt, fun _ => ⟨hc, congrArg Part.evalAgain (State.part_setPart_self ..)⟩⟩

/-- The partitions, with those before and after one of them. -/
theorem range'_around (p : Fin 4) : ∃ l1 l2, range' 0 4 = l1 ++ p.val :: l2
    ∧ (∀ q, q ∈ l1 → Fin.ofNat 4 q ≠ Fin.ofNat 4 p.val) ∧ (∀ q, q ∈ l2 → Fin.ofNat 4 q ≠ Fin.ofNat 4 p.val) :=
  match p with
  | 0 => ⟨[], [1, 2, 3], rfl, by decide, by decide⟩
  | 1 => ⟨[0], [2, 3], rfl, by decide, by decide⟩
  | 2 => ⟨[0, 1], [3], rfl, by decide, by decide⟩
  | 3 => ⟨[0, 1, 2], [], rfl, by decide, by decide⟩

theorem State.notifyOthers {p : Nat} {h : Home} (l : List Nat) (hl : ∀ q, q ∈ l → Fin.ofNat 4 q ≠ Fin.ofNat 4 p) (s : State) :
    State.Leaves p s (l.foldl (fun (s : State) q => (s.notifyPart q h).notifyQueues q h) s) := by
  induction l generalizing s with
  | nil => exact State.Leaves.refl p s
  | cons q l ih =>
    exact ((State.notifyPart_other (hl q List.mem_cons_self) s h).trans (State.notifyQueues_leaves _ p q h)).trans
      (ih (fun q hq => hl q (List.mem_cons_of_mem _ hq)) _)

section
variable {s : State} {p : Fin 4}

theorem exec_writeNotification_gate {h : Home} {c : Nat} (hseq : (s.part p).seq = .slack 5) (hexp : (s.part p).expired = false)
    (hg : (s.part p).gateHomes.any (fun g => sameLine g.2 h) = true) (hc : s.evalDue p = some c) :
    ∃ t, exec (.writeNotification h) s = .next t ∧ t.cores = s.cores ∧ t.hbm = s.hbm
        ∧ (s.now + 16 < c → t.evalDue p = some (s.now + 16) ∧ (t.part p).evalAgain = (s.part p).evalAgain)
        ∧ (c ≤ s.now + 16 → t.evalDue p = some c ∧ (t.part p).evalAgain = true) := by
  obtain ⟨l1, l2, hl, h1, h2⟩ := range'_around p
  refine ⟨_, rfl, ?_⟩
  rw [hl, List.foldl_append, List.foldl_cons]
  have a := State.notifyOthers (h := h) l1 h1 s
  generalize l1.foldl (fun (s : State) q => (s.notifyPart q h).notifyQueues q h) s = u at a ⊢
  obtain ⟨b1, b2, b3, b4, b5⟩ := State.notifyPart_own (s := u) (p := p) (h := h) (c := c) (by rw [a.part]; exact hseq)
    (by rw [a.part]; exact hexp) (by rw [a.part]; exact hg) (a.due.trans hc)
  have d := (State.notifyQueues_leaves (u.notifyPart p h) p p h).trans (State.notifyOthers (h := h) l2 h2 _)
  rw [a.now] at b4 b5
  refine ⟨(d.cores.trans b2).trans a.cores, (d.hbm.trans b3).trans a.hbm, fun hlt => ?_, fun hle => ?_⟩
  · rw [d.due, d.part, ← a.part]
    exact b4 hlt
  · rw [d.due, d.part]
    exact b5 hle

theorem exec_writeNotification_away {h : Home} (hg : (s.part p).gateHomes.any (fun g => sameLine g.2 h) = false) :
    ∃ t, exec (.writeNotification h) s = .next t ∧ t.part p = s.part p ∧ t.evalDue p = s.evalDue p := by
  refine ⟨_, rfl, ?_⟩
  have := foldl_keeps (State.Leaves p s) (fun (s : State) q => (s.notifyPart q h).notifyQueues q h) (range' 0 4) s
    (State.Leaves.refl _ s) fun t q ht => by
    refine State.Leaves.trans (t := t.notifyPart q h) (ht.trans ?_) (State.notifyQueues_leaves _ p q h)
    by_cases hq : Fin.ofNat 4 q = Fin.ofNat 4 p.val
    · refine State.notifyPart_none ?_
      have : t.part q = s.part p := by
        rw [← ht.part]
        simp only [State.part, hq]
      rw [this]
      exact hg
    · exact State.notifyPart_other hq t h
  exact ⟨this.part, this.due⟩

/-! ### Launch gates that a write notifies (R333) -/

/-- Whether the evaluation of a launch gate ends by a cycle. -/
def State.LaunchDue (p : Fin 4) (n : Fin 64) (c : Nat) (s : State) : Prop :=
  ∃ e, e ∈ s.agenda ∧ e.ev = .launchGateEvaluation p n ∧ e.cycle ≤ c

theorem State.evalLaunch_keeps (q m : Nat) {n : Fin 64} {c : Nat} (hnow : s.now ≤ c) (h : s.LaunchDue p n c) :
    (s.evalLaunch q m c).LaunchDue p n c := by
  obtain ⟨e, he, hev, hc⟩ := h
  unfold State.evalLaunch
  dsimp only
  split
  · exact ⟨e, he, hev, hc⟩
  · by_cases hsame : Instr.launchGateEvaluation (Fin.ofNat 4 q) (Fin.ofNat 64 m) = .launchGateEvaluation p n
    · obtain ⟨x, hx, hxe, hxc⟩ := State.mem_schedule (s.cancel (· == .launchGateEvaluation (Fin.ofNat 4 q) (Fin.ofNat 64 m))) c
        (.launchGateEvaluation (Fin.ofNat 4 q) (Fin.ofNat 64 m))
      exact ⟨x, hx, hxe.trans hsame, Nat.le_trans (Nat.le_of_eq hxc) (Nat.max_le.mpr ⟨Nat.le_refl c, hnow⟩)⟩
    · refine ⟨e, State.mem_schedule_of_mem (State.mem_cancel_of_mem he ?_), hev, hc⟩
      rw [hev]
      exact beq_eq_false_iff_ne.mpr (Ne.symm hsame)

theorem State.evalLaunch_own {n : Fin 64} {c : Nat} (hnow : s.now ≤ c) : (s.evalLaunch p n c).LaunchDue p n c := by
  have hp : Fin.ofNat 4 p.val = p := Fin.ext (Nat.mod_eq_of_lt p.isLt)
  have hn : Fin.ofNat 64 n.val = n := Fin.ext (Nat.mod_eq_of_lt n.isLt)
  unfold State.evalLaunch
  rw [hp, hn]
  dsimp only
  split
  next h =>
    obtain ⟨e, he, hq⟩ := List.any_eq_true.mp h
    obtain ⟨h1, h2⟩ := (Bool.and_eq_true _ _).mp hq
    exact ⟨e, he, eq_of_beq h1, of_decide_eq_true h2⟩
  next h =>
    obtain ⟨x, hx, hxe, hxc⟩ := State.mem_schedule (s.cancel (· == .launchGateEvaluation p n)) c (.launchGateEvaluation p n)
    exact ⟨x, hx, hxe, Nat.le_trans (Nat.le_of_eq hxc) (Nat.max_le.mpr ⟨Nat.le_refl c, hnow⟩)⟩

theorem State.notifyPart_keeps (q : Nat) {n : Fin 64} {c : Nat} {h : Home} (hd : s.LaunchDue p n c) :
    (s.notifyPart q h).LaunchDue p n c := by
  obtain ⟨e, he, hev, hc⟩ := hd
  have hne : (e.ev == .gateEvaluation (Fin.ofNat 4 q)) = false := by
    rw [hev]
    exact beq_eq_false_iff_ne.mpr fun e => nomatch e
  unfold State.notifyPart
  dsimp only
  split
  · split
    · split
      · exact ⟨e, State.mem_schedule_of_mem (State.mem_cancel_of_mem (f := (· == .gateEvaluation (Fin.ofNat 4 q))) he hne), hev, hc⟩
      · exact ⟨e, he, hev, hc⟩
    · exact ⟨e, he, hev, hc⟩
  · exact ⟨e, he, hev, hc⟩

theorem State.notifyPart_queues (s : State) (p q : Nat) (h : Home) :
    ((s.notifyPart q h).part p).queues = (s.part p).queues ∧ (s.notifyPart q h).now = s.now := by
  have hset (x : Part) (hx : x.queues = (s.part q).queues) : ((s.setPart q x).part p).queues = (s.part p).queues := by
    rw [State.part_setPart]
    split
    next hq =>
      have : s.part q = s.part p := by simp only [State.part, hq]
      rw [hx, this]
    next => rfl
  unfold State.notifyPart
  dsimp only
  split
  · split
    · split
      · exact ⟨hset _ rfl, rfl⟩
      · exact ⟨hset _ rfl, rfl⟩
    · exact ⟨rfl, rfl⟩
  · exact ⟨rfl, rfl⟩

/-- A queue whose gate waits is among those of its partition. -/
theorem Part.gatedQueues_mem {x : Part} {n : Fin 64} {h : Home} (hw : x.queues[n].gateWaits = true)
    (hh : x.queues[n].gateHome = some h) : (n.val, h) ∈ x.gatedQueues := by
  refine List.mem_filterMap.mpr ⟨(n.val, x.queues[n]), ?_, ?_⟩
  · have := mem_place_of_lt x.queues.toList 0 n.val (by simp)
    simpa using this
  · rw [if_pos hw, hh]
    rfl

theorem State.evalLaunch_now (s : State) (q m c : Nat) : (s.evalLaunch q m c).now = s.now := (s.evalLaunch_leaves 0 q m c).now

theorem State.notifyQueues_keeps (q : Nat) {n : Fin 64} {h : Home} (hd : s.LaunchDue p n (s.now + 16)) :
    (s.notifyQueues q h).LaunchDue p n (s.now + 16) := by
  refine (foldl_keeps (fun t : State => t.now = s.now ∧ t.LaunchDue p n (s.now + 16)) _ _ _ ⟨rfl, hd⟩ fun t g ht => ?_).2
  refine ⟨(t.evalLaunch_now q g.1 _).trans ht.1, ?_⟩
  obtain ⟨hn, hd⟩ := ht
  rw [← hn] at hd ⊢
  exact State.evalLaunch_keeps q g.1 (Nat.le_add_right ..) hd

theorem State.notifyQueues_own {n : Fin 64} {a b : Nat} (hw : (s.part p).queues[n].gateWaits = true)
    (hh : (s.part p).queues[n].gateHome = some (.hbm a)) (hline : a / 64 = b / 64) :
    (s.notifyQueues p (.hbm b)).LaunchDue p n (s.now + 16) := by
  have hm : (n.val, Home.hbm a) ∈ (s.part p).gatedQueues.filter fun g => sameLine g.2 (.hbm b) :=
    List.mem_filter.mpr ⟨Part.gatedQueues_mem hw hh, by simp [sameLine, hline]⟩
  refine (foldl_reaches (fun t : State => t.now = s.now ∧ t.LaunchDue p n (s.now + 16)) (fun t => t.now = s.now) _ _ _ hm s rfl
    (fun t g ht => (t.evalLaunch_now p g.1 _).trans ht) (fun t g ht => ?_) (fun t ht => ?_)).2
  · refine ⟨(t.evalLaunch_now p g.1 _).trans ht.1, ?_⟩
    obtain ⟨hn, hd⟩ := ht
    rw [← hn] at hd ⊢
    exact State.evalLaunch_keeps p g.1 (Nat.le_add_right ..) hd
  · refine ⟨(t.evalLaunch_now p n _).trans ht, ?_⟩
    rw [← ht]
    exact State.evalLaunch_own (Nat.le_add_right ..)

theorem fin4_mem (p : Fin 4) : p.val ∈ range' 0 4 := by decide +revert

theorem exec_writeNotification_launch {n : Fin 64} {a b : Nat} (hw : (s.part p).queues[n].gateWaits = true)
    (hh : (s.part p).queues[n].gateHome = some (.hbm a)) (hline : a / 64 = b / 64) :
    ∃ t, exec (.writeNotification (.hbm b)) s = .next t ∧ t.LaunchDue p n (s.now + 16) := by
  refine ⟨_, rfl, ?_⟩
  have hkeep (t : State) (q : Nat) (ht : t.now = s.now ∧ (t.part p).queues = (s.part p).queues) :
      ((t.notifyPart q (.hbm b)).notifyQueues q (.hbm b)).now = s.now
      ∧ (((t.notifyPart q (.hbm b)).notifyQueues q (.hbm b)).part p).queues = (s.part p).queues := by
    obtain ⟨h1, h2⟩ := State.notifyPart_queues t p q (.hbm b)
    have h := State.notifyQueues_leaves (t.notifyPart q (.hbm b)) p q (.hbm b)
    exact ⟨(h.now.trans h2).trans ht.1, ((congrArg Part.queues h.part).trans h1).trans ht.2⟩
  refine (foldl_reaches (fun t : State => (t.now = s.now ∧ (t.part p).queues = (s.part p).queues) ∧ t.LaunchDue p n (s.now + 16))
    (fun t => t.now = s.now ∧ (t.part p).queues = (s.part p).queues) _ _ p.val (fin4_mem p) s ⟨rfl, rfl⟩ hkeep ?_ ?_).2
  · intro t q ht
    refine ⟨hkeep t q ht.1, ?_⟩
    have hn : (t.notifyPart q (.hbm b)).now = s.now := (State.notifyPart_queues t p q _).2.trans ht.1.1
    rw [← hn] at ht ⊢
    exact State.notifyQueues_keeps q (State.notifyPart_keeps q ht.2)
  · intro t ht
    refine ⟨hkeep t p ht, ?_⟩
    obtain ⟨h1, h2⟩ := State.notifyPart_queues t p p (.hbm b)
    have hq := h1.trans ht.2
    rw [← h2.trans ht.1]
    exact State.notifyQueues_own (by rw [hq]; exact hw) (by rw [hq]; exact hh) hline

end

end Sys2Proof.Machine
end

section
/-! PROOF. The gate watchdog, and O48. -/

namespace Sys2Proof.Machine

section
variable {s : State} {p : Fin 4}

/-! ### The sequencer's watchdog (R345, R349) -/

/-- The rest of an expiry: code 0x2A, recorded at the step in which the partition waits. -/
theorem State.dogStop_fresh {n : Nat} (hn : n = 5 ∨ n = 9) (hseq : (s.part p).seq = .slack n) (h : (s.part p).frec = none) :
    ((s.dogStop p).part p).seq = .stopped
    ∧ ∃ r, ((s.dogStop p).part p).frec = some r ∧ (r.info.code = 0x2A ∧ r.info.cls = 2) ∧ r.step = n := by
  have hfrec : ((((s.saveBanks p 16).onPart p fun x => { x with expired := false, readyRanks := [] }).part p)).frec = none := by
    rw [State.onPart_part, State.part_congr (s.saveBanks_frame p 16).1]
    exact h
  obtain rfl | rfl := hn
  · unfold State.dogStop
    dsimp only
    split
    next h9 => exact absurd (hseq.symm.trans h9) (by decide)
    next =>
      have hf : ((State.flashCopy (State.sedGate ((s.saveBanks p 16).onPart p fun x => { x with expired := false, readyRanks := [] })
          p (s.lateGate p) 2 (s.now - (s.part p).from5))).part p).frec = none := by
        rw [State.part_congr (State.flashCopy_parts _)]
        exact hfrec
      obtain ⟨h1, r, h2, h3, h4⟩ := State.slackFault_fresh 5 (slackInfo 0x2A (dogDetail (s.lateGate p) (s.part p).wd) 0 none []) true hf
      exact ⟨h1, r, h2, by rw [h3]; exact ⟨rfl, rfl⟩, h4⟩
  · unfold State.dogStop
    dsimp only
    split
    next =>
      have hf : ((State.emit (State.flashCopy ((s.saveBanks p 16).onPart p fun x => { x with expired := false, readyRanks := [] }))
          (.abortTorus p)).part p).frec = none := by
        have (t : State) (o : Output) : (t.emit o).part p = t.part p := rfl
        rw [this, State.part_congr (State.flashCopy_parts _)]
        exact hfrec
      obtain ⟨h1, r, h2, h3, h4⟩ := State.slackFault_fresh 9 (slackInfo 0x2A (dogDetail 0 (s.part p).wd) 0 none []) true hf
      rw [State.releaseSystem_part (by rw [h1]; decide)]
      exact ⟨h1, r, h2, by rw [h3]; exact ⟨rfl, rfl⟩, h4⟩
    next h9 => exact absurd hseq h9

/-- The partition whose watchdog has expired, with what it has counted. -/
def State.dogCounted (s : State) (p : Nat) : State :=
  (s.onPart p fun x => { x with wdFrom := none, wd := (s.part p).waited s.now }).cancel (· == .gateEvaluation (Fin.ofNat 4 p))

/-- The end of an expiry at step n, once the bank is free. -/
def State.dogHalt (s : State) (p n : Nat) : State :=
  if ((s.dogCounted p).clearBank p).2 = 0 then ((s.dogCounted p).clearBank p).1.dogStop p
  else (((s.dogCounted p).clearBank p).1.onPart p fun x => { x with expired := true }).goOn p n
    (s.now + ((s.dogCounted p).clearBank p).2)

theorem State.dogCounted_part (s : State) (p : Nat) :
    (s.dogCounted p).part p = { s.part p with wdFrom := none, wd := (s.part p).waited s.now } := by
  have (t : State) (f : Instr → Bool) : (t.cancel f).part p = t.part p := rfl
  rw [State.dogCounted, this, State.onPart_part]

theorem State.dogPhase_gates (hseq : (s.part p).seq = .slack 5) : s.dogPhase p
    = if s.evalDue p == some s.now then s
      else if (s.part p).pend && s.preemptible p && (s.part p).sval && (s.part p).pval then
        (s.cancel (· == .gateEvaluation (Fin.ofNat 4 p))).preempt p
      else s.dogHalt p 5 := by
  unfold State.dogPhase
  dsimp only
  split
  next => rfl
  next h => exact absurd (hseq.symm.trans h) (by decide)
  next h _ => exact absurd hseq h

theorem State.dogPhase_group (hseq : (s.part p).seq = .slack 9) : s.dogPhase p = s.dogHalt p 9 := by
  unfold State.dogPhase
  dsimp only
  split
  next h => exact absurd (hseq.symm.trans h) (by decide)
  next => rfl
  next _ h => exact absurd hseq h

theorem State.dogHalt_fresh {n : Nat} (hn : n = 5 ∨ n = 9) (hseq : (s.part p).seq = .slack n) (hheld : (s.part p).held ≠ 1)
    (h : (s.part p).frec = none) : ((s.dogHalt p n).part p).seq = .stopped
    ∧ ∃ r, ((s.dogHalt p n).part p).frec = some r ∧ (r.info.code = 0x2A ∧ r.info.cls = 2) ∧ r.step = n := by
  have hp := s.dogCounted_part p
  have hc : (s.dogCounted p).clearBank p = (s.dogCounted p, 0) := State.clearBank_free (by rw [hp]; exact hheld)
  unfold State.dogHalt
  rw [hc, if_pos rfl]
  exact State.dogStop_fresh hn (by rw [hp]; exact hseq) (by rw [hp]; exact h)

theorem State.saveCycles_congr {t : State} (hm : t.mod = s.mod) (hb : (t.part p).sbase = (s.part p).sbase) :
    t.saveCycles p = s.saveCycles p := by
  unfold State.saveCycles State.copyCycles State.coresOf
  rw [hm, hb]

/-- A bank that is held is cleared first, and the stop comes after. -/
theorem State.dogHalt_held {n : Nat} (hheld : (s.part p).held = 1) (hcyc : 0 < s.saveCycles p) :
    ((s.dogHalt p n).part p).seq = .slack n ∧ ((s.dogHalt p n).part p).expired = true ∧ ((s.dogHalt p n).part p).held = 2
      ∧ ∃ e, e ∈ (s.dogHalt p n).agenda ∧ e.ev = .gateEvaluation p ∧ e.cycle = s.now + s.saveCycles p := by
  have hp := s.dogCounted_part p
  obtain ⟨h1, h2, h3⟩ := State.clearBank_held (s := s.dogCounted p) (p := p) (by rw [hp]; exact hheld)
  rw [State.saveCycles_congr (s := s) (t := s.dogCounted p) rfl (by rw [hp])] at h1
  unfold State.dogHalt
  rw [h1, if_neg (Nat.ne_of_gt hcyc), State.goOn_part, State.onPart_part, h2]
  refine ⟨rfl, rfl, rfl, ?_⟩
  obtain ⟨e, he, hev, hc⟩ := State.mem_goOn (((s.dogCounted p).clearBank p).1.onPart p fun x => { x with expired := true }) p n
    (s.now + s.saveCycles p)
  refine ⟨e, he, hev.trans (congrArg _ (Fin.ext (Nat.mod_eq_of_lt p.isLt))), hc.trans (Nat.max_eq_left ?_)⟩
  have : ((((s.dogCounted p).clearBank p).1.onPart p fun x => { x with expired := true })).now = s.now := h3
  rw [this]
  exact Nat.le_add_right ..

/-- A request that is taken spills the live-in bytes, and holds the job once that is done (R313, R347). -/
theorem State.preempt_part (h : s.preemptible p = true) : ((s.preempt p).part p).seq = .slack 6 ∧ ((s.preempt p).part p).pend = false := by
  unfold State.preempt
  unfold State.preemptible at h
  split
  next j x hj hx =>
    dsimp only
    rw [State.goOn_part, State.onPart_part]
    exact ⟨rfl, rfl⟩
  next hno =>
    split at h
    next j x hj hx => exact absurd hx (hno j x hj)
    next => exact nomatch h

/-! ### The watchdog's event -/

theorem State.dogQueues_idle (h : ∀ n : Fin 64, (s.part p).queues[n].gateWaits = false) : s.dogQueues p = s := by
  refine foldl_keeps (fun t : State => t = s) _ _ _ rfl fun t n ht => ?_
  rw [ht]
  dsimp only
  rw [h (Fin.ofNat 64 n), Bool.false_and, Bool.false_and, Bool.false_and, if_neg Bool.false_ne_true]

theorem exec_dog (h : ∀ n : Fin 64, (s.part p).queues[n].gateWaits = false) : exec (.gateWatchdogExpiry p) s
    = .next ((if (s.part p).wdFrom.isSome && decide ((s.part p).wdCycles ≤ (s.part p).waited s.now) then s.dogPhase p else s).armDog p) := by
  change execGateWatchdogExpiry p s = _
  unfold execGateWatchdogExpiry
  dsimp only
  rw [State.dogQueues_idle h]

theorem exec_dog_counting (h : ∀ n : Fin 64, (s.part p).queues[n].gateWaits = false) {c : Nat} (hc : (s.part p).wdFrom = some c)
    (hlate : (s.part p).wdCycles ≤ (s.part p).wd + (s.now - c)) : exec (.gateWatchdogExpiry p) s = .next ((s.dogPhase p).armDog p) := by
  have hw : (s.part p).wdCycles ≤ (s.part p).waited s.now := by
    unfold Part.waited
    rw [hc]
    exact hlate
  rw [exec_dog h, hc, decide_eq_true hw]
  rfl

/-! ### The watchdog of a launch gate (R333, R345) -/

/-- A head record that stops its queue: the queue's state and error, the other queues as they were. -/
theorem State.queueFault_part (n err : Nat) (at_ : Nat × Nat × Nat × Bool × Bool) (f : FaultInfo) :
    ∃ q : Queue, ((s.queueFault p n err at_ f).part p).queues = (s.part p).queues.set (Fin.ofNat 64 n) q
      ∧ q.qstate = 2 ∧ q.err = err ∧ ((s.queueFault p n err at_ f).part p).wdFrom = (s.part p).wdFrom := by
  have hnote : ((s.noteFault p f).part p) = (s.part p).noted := by
    rw [State.part_congr (s.noteFault_parts p f), State.part_setPart_self]
  have hput (t : State) (r : FaultRec) : ((t.putRecord p r).part p).queues = (t.part p).queues
      ∧ ((t.putRecord p r).part p).wdFrom = (t.part p).wdFrom := by
    unfold State.putRecord
    dsimp only
    split
    · exact ⟨rfl, rfl⟩
    · rw [State.part_congr (State.interrupt_parts ..), State.part_setPart_self]
      exact ⟨rfl, rfl⟩
  unfold State.queueFault
  extract_lets q
  dsimp only
  unfold State.stopQueue
  dsimp only
  rw [State.part_congr (State.interrupt_parts ..), State.part_setPart_self]
  refine ⟨_, congrArg (Vector.set · _ _ _) ((hput _ _).1.trans (by rw [hnote]; rfl)), rfl, rfl, (hput _ _).2.trans (by rw [hnote]; rfl)⟩

/-- A queue of the partition that a launch gate's watchdog has stopped, the last that waited. -/
def State.LaunchStopped (p : Fin 4) (n : Fin 64) (s : State) : Prop :=
  (s.part p).queues[n].qstate = 2 ∧ (s.part p).queues[n].err = 5 ∧ (s.part p).wdFrom = none
    ∧ ∀ m : Fin 64, (s.part p).queues[m].gateWaits = false

theorem Queue.gateWaits_stopped {q : Queue} (h : q.qstate = 2) : q.gateWaits = false := by
  unfold Queue.gateWaits
  split
  · rw [h]
    simp
  · rfl

/-- The watchdog of one queue's launch gate. -/
def State.dogQueue (s : State) (p n : Nat) : State :=
  let x := s.part p
  let q := x.queues[(Fin.ofNat 64 n)]
  let late := s.now - q.gateFrom.getD s.now
  let busy := s.agenda.any fun e => e.ev == .launchGateEvaluation (Fin.ofNat 4 p) (Fin.ofNat 64 n) && e.cycle == s.now
  if q.gateWaits && q.gateFrom.isSome && decide (x.wdCycles ≤ late) && !busy then
    s.flashCopy.queueFault p n 5 (0, 0, 0, false, false) (slackInfo 0x2A (dogDetail 0 late) 0 none [])
  else s

theorem State.dogQueues_eq (s : State) (p : Nat) : s.dogQueues p = (range' 0 64).foldl (fun t n => t.dogQueue p n) s := rfl

theorem State.dogQueue_idle {n : Nat} (h : (s.part p).queues[(Fin.ofNat 64 n)].gateWaits = false) : s.dogQueue p n = s := by
  unfold State.dogQueue
  dsimp only
  rw [h, Bool.false_and, Bool.false_and, Bool.false_and, if_neg Bool.false_ne_true]

theorem State.dogQueue_late {n c : Nat} (hw : (s.part p).queues[(Fin.ofNat 64 n)].gateWaits = true)
    (hfrom : (s.part p).queues[(Fin.ofNat 64 n)].gateFrom = some c) (hlate : (s.part p).wdCycles ≤ s.now - c)
    (hbusy : ∀ e, e ∈ s.agenda → e.ev = .launchGateEvaluation (Fin.ofNat 4 p) (Fin.ofNat 64 n) → e.cycle ≠ s.now) : s.dogQueue p n
    = s.flashCopy.queueFault p n 5 (0, 0, 0, false, false) (slackInfo 0x2A (dogDetail 0 (s.now - c)) 0 none []) := by
  have hb : (s.agenda.any fun e => e.ev == .launchGateEvaluation (Fin.ofNat 4 p) (Fin.ofNat 64 n) && e.cycle == s.now) = false := by
    refine List.any_eq_false.mpr fun e he => ?_
    simpa using hbusy e he
  unfold State.dogQueue
  dsimp only
  rw [hfrom]
  exact if_pos (by rw [hw, hb, Option.getD_some, decide_eq_true hlate]; rfl)

theorem fin64_mem (n : Fin 64) : n.val ∈ range' 0 64 := by decide +revert

/-- The one queue whose launch gate waits stops once its watchdog has expired. -/
theorem State.dogQueue_launch (m : Nat) {c : Nat}
    (hother : ∀ i : Fin 64, i ≠ Fin.ofNat 64 m → (s.part p).queues[i].gateWaits = false)
    (hw : (s.part p).queues[(Fin.ofNat 64 m)].gateWaits = true) (hfrom : (s.part p).queues[(Fin.ofNat 64 m)].gateFrom = some c)
    (hlate : (s.part p).wdCycles ≤ s.now - c)
    (hbusy : ∀ e, e ∈ s.agenda → e.ev = .launchGateEvaluation p (Fin.ofNat 64 m) → e.cycle ≠ s.now) (hdog : (s.part p).wdFrom = none) :
    (s.dogQueue p m).LaunchStopped p (Fin.ofNat 64 m) := by
  have hp : Fin.ofNat 4 p.val = p := Fin.ext (Nat.mod_eq_of_lt p.isLt)
  rw [State.dogQueue_late hw hfrom hlate (by rw [hp]; exact hbusy)]
  obtain ⟨q, h1, h2, h3, h4⟩ := State.queueFault_part (s := s.flashCopy) (p := p) m 5 (0, 0, 0, false, false)
    (slackInfo 0x2A (dogDetail 0 (s.now - c)) 0 none [])
  have hset (i : Fin 64) : ((s.part p).queues.set (Fin.ofNat 64 m) q)[i] = if Fin.ofNat 64 m = i then q else (s.part p).queues[i] := by
    exact (Vector.getElem_set ..).trans (by simp only [Fin.ext_iff]; rfl)
  have hpart : s.flashCopy.part p = s.part p := State.part_congr (State.flashCopy_parts s) p
  rw [hpart] at h1 h4
  unfold State.LaunchStopped
  rw [h1, h4]
  refine ⟨?_, ?_, hdog, fun i => ?_⟩
  · rw [hset, if_pos rfl]
    exact h2
  · rw [hset, if_pos rfl]
    exact h3
  · rw [hset]
    split
    · exact Queue.gateWaits_stopped h2
    next hm => exact hother i (Ne.symm hm)

theorem State.dogQueues_launch {n : Fin 64} {c : Nat} (hother : ∀ m : Fin 64, m ≠ n → (s.part p).queues[m].gateWaits = false)
    (hw : (s.part p).queues[n].gateWaits = true) (hfrom : (s.part p).queues[n].gateFrom = some c)
    (hlate : (s.part p).wdCycles ≤ s.now - c)
    (hbusy : ∀ e, e ∈ s.agenda → e.ev = .launchGateEvaluation p n → e.cycle ≠ s.now) (hdog : (s.part p).wdFrom = none) :
    (s.dogQueues p).LaunchStopped p n := by
  have hkeep (t : State) (m : Nat) (ht : t.LaunchStopped p n) : (t.dogQueue p m).LaunchStopped p n := by
    rw [State.dogQueue_idle (ht.2.2.2 _)]
    exact ht
  have hown (m : Nat) (hm : Fin.ofNat 64 m = n) : (s.dogQueue p m).LaunchStopped p n := by
    subst hm
    exact State.dogQueue_launch m hother hw hfrom hlate hbusy hdog
  refine foldl_reaches (State.LaunchStopped p n) (fun t => t = s ∨ t.LaunchStopped p n) (fun t m => t.dogQueue p m) _ n.val (fin64_mem n) s
    (Or.inl rfl) (fun t m ht => ?_) hkeep (fun t ht => ?_)
  · obtain rfl | ht := ht
    · by_cases hm : Fin.ofNat 64 m = n
      · exact Or.inr (hown m hm)
      · exact Or.inl (State.dogQueue_idle (hother _ hm))
    · exact Or.inr (hkeep t m ht)
  · obtain rfl | ht := ht
    · exact hown n (Fin.ext (Nat.mod_eq_of_lt n.isLt))
    · exact hkeep t n ht

theorem exec_dog_launch {n : Fin 64} (h : (s.dogQueues p).LaunchStopped p n) : ∃ t, exec (.gateWatchdogExpiry p) s = .next t
    ∧ (t.part p).queues[n].qstate = 2 ∧ (t.part p).queues[n].err = 5 := by
  obtain ⟨h1, h2, h3, -⟩ := h
  refine ⟨(s.dogQueues p).armDog p, ?_, ?_, ?_⟩
  · change execGateWatchdogExpiry p s = _
    unfold execGateWatchdogExpiry
    dsimp only
    rw [h3]
    rfl
  · rw [State.armDog_part]
    exact h1
  · rw [State.armDog_part]
    exact h2

end

end Sys2Proof.Machine
end

section
/-! PROOF. O48. -/

namespace Sys2Proof.Machine

section
variable {s : State} {p : Fin 4}

/-- Step 4, by the successor that the phase's entry names (R310). -/
theorem exec_eval_select {j : Job} (hseq : (s.part p).seq = .slack 4) (hj : (s.part p).job = some j) :
    (s.successor p j = 0xFFFF → ∃ u : State, exec (.gateEvaluation p) s = .next (u.step5 p false) ∧ (u.part p).next = none
      ∧ u.cores = s.cores ∧ u.hbm = s.hbm)
    ∧ (∀ e is i js, s.successor p j ≠ 0xFFFF → j.table.phases[s.successor p j]? = some e → e.infls = is ++ i :: js →
      (∀ k, k ∈ is → k.bound < (s.exports p).1) → (s.exports p).1 ≤ i.bound →
      ∃ u : State, exec (.gateEvaluation p) s = .next (u.step5 p false) ∧ u.cores = s.cores ∧ u.hbm = s.hbm
        ∧ (u.part p).next = some ⟨j.phase + 1, s.successor p j, is.length, (s.exports p).1, (s.exports p).2, false⟩)
    ∧ (∀ e, s.successor p j ≠ 0xFFFF → j.table.phases[s.successor p j]? = some e → (∀ k, k ∈ e.infls → k.bound < (s.exports p).1) →
      exec (.gateEvaluation p) s
        = .next (s.slackFault p 4 (slackInfo 0x28 ((s.exports p).1 + (s.exports p).2 * 2 ^ 32) 0 none []) false)) := by
  rw [exec_eval_step4 hseq, State.step4_job hj]
  refine ⟨fun hn => ?_, fun e is i js hn he hinf his hi => ?_, fun e hn he hall => ?_⟩
  · rw [if_pos hn]
    refine ⟨_, rfl, ?_, rfl, rfl⟩
    rw [State.stepDone_part, State.onPart_part]
  · have hf : e.infls.findIdx? (fun i => decide ((s.exports p).1 ≤ i.bound)) = some is.length := by
      rw [hinf]
      exact findIdx?_first _ _ _ _ (fun k hk => decide_eq_false (Nat.not_le.mpr (his k hk))) (decide_eq_true hi)
    rw [if_neg hn, he, Option.bind_some, hf]
    refine ⟨_, rfl, rfl, rfl, ?_⟩
    rw [State.stepDone_part, State.onPart_part]
  · have hf : e.infls.findIdx? (fun i => decide ((s.exports p).1 ≤ i.bound)) = none :=
      List.findIdx?_eq_none_iff.mpr fun k hk => decide_eq_false (Nat.not_le.mpr (hall k hk))
    rw [if_neg hn, he, Option.bind_some, hf]

end

/-- Settles O48: the sequencer's events, each in the step in which it waits for it. -/
theorem sequencerEvents : Obligations.SequencerEvents := by
  unfold Obligations.SequencerEvents
  intro s p marked rank pidx infl cad hops j x h
  dsimp only
  refine ⟨fun n hn hexp => exec_eval_slack hn hexp, ?_, fun hseq hj => ?_, ?_, fun c g hg => State.judge_sem hg, fun hseq hexp => ?_,
    exec_lastSignOff_aborted, exec_lastSignOff_busy, exec_lastSignOff_drained, exec_replayMarkExchange, fun hj hr hnew => ?_, exec_startWave,
    fun hseq hj hx hstop hsnap => ?_, fun hseq hj hx hmode hsnap hsys => ?_, exec_refreshSlot_idle, exec_refreshSlot_phase,
    exec_sequencerProgress, ?_, ?_, ?_, fun hq => ?_, ?_, ?_⟩
  · intro hseq hj hm hr hn
    obtain ⟨h1, h2⟩ := State.step3_again hj hm hr hn
    refine ⟨_, exec_eval_step3 hseq, ?_⟩
    rw [h1]
    exact ⟨rfl, rfl, rfl, h2⟩
  · obtain ⟨h1, h2, h3⟩ := exec_eval_select hseq hj
    refine ⟨h1, h2, fun e hn he hall hfrec => ?_⟩
    obtain ⟨g1, r, g2, g3, g4⟩ := State.slackFault_fresh 4 (slackInfo 0x28 ((s.exports p).1 + (s.exports p).2 * 2 ^ 32) 0 none [])
      false hfrec
    exact ⟨_, h3 e hn he hall, g1, r, g2, by rw [g3]; exact ⟨rfl, rfl, rfl⟩, g4⟩
  · intro c g d a v hsem hd ha
    rw [State.judge_hbm hsem hd ha]
    refine ⟨fun hv hok => (State.judgeObject_value hv hok).trans (condHolds_iff _ _ _), fun hv hinv => ?_, fun hv => ?_⟩
    · exact ⟨_, State.judgeObject_invalid hv hinv, rfl, rfl⟩
    · exact ⟨_, State.judgeObject_poisoned hv, rfl, rfl⟩
  · have hexec : exec (.gateEvaluation p) s = .next (s.evaluate p) := by
      rw [exec_eval_step5 hseq, hexp]
      rfl
    rw [hexec]
    refine ⟨fun hall => ?_, fun rs r ts f hr hrs hf hfrec => ?_, fun hno hw => ?_⟩
    · obtain ⟨u, hu, h1⟩ := State.evaluate_holds hall
      exact ⟨u, congrArg _ hu, h1⟩
    · obtain ⟨u, hu, hp⟩ := State.evaluate_fault (State.gateFault_first hr hrs hf)
      obtain ⟨g1, q, g2, g3, g4⟩ := State.slackFault_fresh (s := u) (p := p) 5 f false (by rw [State.part_congr hp]; exact hfrec)
      rw [hu]
      exact ⟨_, rfl, g1, q, g2, g3, g4⟩
    · have := State.evaluate_waits hno hw
      rw [show Fin.ofNat 4 p.val = p from Fin.ext (Nat.mod_eq_of_lt p.isLt)] at this
      exact ⟨_, rfl, this⟩
  · rw [exec_alignmentReadiness hj hr hnew]
    have hu : (s.setPart p { s.part p with readyRanks := (s.part p).readyRanks ++ [(rank, pidx, infl, cad)] }).part p
      = { s.part p with readyRanks := (s.part p).readyRanks ++ [(rank, pidx, infl, cad)] } := State.part_setPart_self ..
    have hnow : (s.setPart p { s.part p with readyRanks := (s.part p).readyRanks ++ [(rank, pidx, infl, cad)] }).now = s.now := rfl
    generalize s.setPart p { s.part p with readyRanks := (s.part p).readyRanks ++ [(rank, pidx, infl, cad)] } = u at hu hnow ⊢
    refine ⟨fun hlt => ?_, fun hle hseq hexp hx hroot => ?_⟩
    · rw [State.alignGroup_early (s := u) (by rw [hu]; exact hj) (by rw [hu]; exact hlt)]
    · have hready := State.alignGroup_ready (s := u) (p := p) (by rw [hu]; exact hj) (by rw [hu]; exact hx) hr (by rw [hu]; exact hseq)
        (by rw [hu]; exact hexp) (by rw [hu]; obtain ⟨r, h1, h2⟩ := hroot; exact ⟨r, List.mem_append_left _ h1, h2⟩)
        (by rw [hu]; exact hle)
      rw [hu] at hready
      refine ⟨fun hall => ?_, fun hsome hfrec => ?_⟩
      · have hsame : ((s.part p).readyRanks ++ [(rank, pidx, infl, cad)]).any (fun r => r.2.1 != x.pidx || r.2.2.1 != x.infl) = false := by
          refine List.any_eq_false.mpr fun r hr => ?_
          simp [hall r hr]
        rw [hready, if_neg (by rw [hsame]; exact Bool.false_ne_true), hnow,
          show Fin.ofNat 4 p.val = p from Fin.ext (Nat.mod_eq_of_lt p.isLt)]
      · have hdiff : ((s.part p).readyRanks ++ [(rank, pidx, infl, cad)]).any (fun r => r.2.1 != x.pidx || r.2.2.1 != x.infl) = true := by
          obtain ⟨r, hr, hne⟩ := hsome
          refine List.any_eq_true.mpr ⟨r, hr, ?_⟩
          simpa using hne
        rw [hready, if_pos hdiff]
        obtain ⟨g1, r, g2, g3, g4⟩ := State.stopGroup_fresh (s := u) (p := p) (code := 0x28) (detail := x.z + x.q * 2 ^ 32)
          (by rw [hu]; exact hfrec)
        exact ⟨_, rfl, g1, r, g2, by rw [g3]; rfl, g4⟩
  · refine exec_phaseStart hseq hj hx hstop ?_
    obtain ⟨h1, h2⟩ | h1 | h1 := hsnap
    · rw [beq_eq_false_iff_ne.mpr h1, beq_eq_false_iff_ne.mpr h2]
      rfl
    · simp [h1]
    · simp [h1]
  · have hcond : (((s.part p).dmode == 1 || (s.part p).dmode == 2) && !(s.part p).snap && !s.nextSystem p) = true := by
      obtain h1 | h1 := hmode <;> simp [h1, hsnap, hsys]
    obtain ⟨h1, h2, h3, h4⟩ := State.lateSnapshot_spec (s := s) (p := p) j
    exact ⟨_, exec_phaseStart_late hseq hj hx hcond, h1.trans hseq, h2, h3, h4⟩
  · intro g a b c hh hseq hexp hg ha hline hc
    subst hh
    refine exec_writeNotification_gate hseq hexp (List.any_eq_true.mpr ⟨g, hg, ?_⟩) hc
    rw [ha]
    exact beq_iff_eq.mpr hline
  · intro b hh hno
    subst hh
    refine exec_writeNotification_away (List.any_eq_false.mpr fun g hg => ?_)
    cases hhome : g.2 with
    | hbm a => simpa [sameLine] using hno g a hg hhome
    | _ => simp [sameLine]
  · intro n a b hh hw hg hline
    subst hh
    exact exec_writeNotification_launch hw hg hline
  · refine ⟨fun hnone => ?_, fun c hc hlate hseq => ⟨fun hdue => ?_, fun hdue => ⟨fun hpend hpre hsval hpval => ?_, fun hpend hheld hfrec => ?_,
      fun hpend hheld hcyc => ?_⟩⟩, fun c hc hlate hseq hheld hfrec => ?_⟩
    · rw [exec_dog hq, hnone]
      exact ⟨_, rfl, State.armDog_parts .., State.armDog_cores ..⟩
    · rw [exec_dog_counting hq hc hlate, State.dogPhase_gates hseq, if_pos (beq_iff_eq.mpr hdue)]
      exact ⟨_, rfl, State.armDog_parts .., State.armDog_cores ..⟩
    · rw [exec_dog_counting hq hc hlate, State.dogPhase_gates hseq, if_neg (mt beq_iff_eq.mp hdue),
        if_pos (by rw [hpend, hpre, hsval, hpval]; rfl)]
      refine ⟨_, rfl, ?_⟩
      rw [State.armDog_part]
      exact State.preempt_part (s := s.cancel _) hpre
    · rw [exec_dog_counting hq hc hlate, State.dogPhase_gates hseq, if_neg (mt beq_iff_eq.mp hdue), if_neg (by rw [hpend]; simp)]
      obtain ⟨h1, r, h2, h3, h4⟩ := State.dogHalt_fresh (Or.inl rfl) hseq hheld hfrec
      refine ⟨_, rfl, ?_⟩
      rw [State.armDog_part]
      exact ⟨h1, r, h2, h3, h4⟩
    · rw [exec_dog_counting hq hc hlate, State.dogPhase_gates hseq, if_neg (mt beq_iff_eq.mp hdue), if_neg (by rw [hpend]; simp)]
      obtain ⟨h1, h2, h3, e, he, hev, hcyc⟩ := State.dogHalt_held (n := 5) hheld hcyc
      refine ⟨_, rfl, ?_⟩
      rw [State.armDog_part]
      exact ⟨h1, h2, h3, e, State.mem_armDog he (by rw [hev]; exact fun e => nomatch e), hev, hcyc⟩
    · rw [exec_dog_counting hq hc hlate, State.dogPhase_group hseq]
      obtain ⟨h1, r, h2, h3, h4⟩ := State.dogHalt_fresh (Or.inr rfl) hseq hheld hfrec
      refine ⟨_, rfl, ?_⟩
      rw [State.armDog_part]
      exact ⟨h1, r, h2, h3.1, h4⟩
  · intro hseq hexp hfrec
    obtain ⟨h1, r, h2, h3, h4⟩ := State.dogStop_fresh (Or.inl rfl) hseq hfrec
    refine ⟨s.dogStop p, ?_, h1, r, h2, h3.1, h4⟩
    rw [exec_eval_step5 hseq, hexp]
    rfl
  · intro n c hother hw hfrom hlate hbusy hdog
    exact exec_dog_launch (State.dogQueues_launch hother hw hfrom hlate hbusy hdog)

end Sys2Proof.Machine
end

section
/-! PROOF. A dump of a partition whose state register reads 2 while its phase runs (O50). -/

namespace Sys2Proof.Machine

/-- A job with an empty table. -/
def bareJob : Job where
  id := 1
  queue := 0
  ridx := 0
  launch := ⟨0, false, 0, false, false, false, false, false, 0, 0, 0, 0, 0, 0, 0, 0, 0, 0, 0⟩
  table := ⟨[], 0, 1, []⟩
  pidx := 0
  infl := 0
  phase := 0
  z := 0
  q := 0
  marked := false
  replays := 0
  start := 0
  rank := 0
  members := 1
  hops := 0
  done := false
  csigHome := none

/-- Partition 0 runs a phase, and its state register reads 2: it is noted to have stopped by a fault. -/
def failedPhase : State := State.reset.onPart 0 fun x => { x with seq := .phase, job := some bareJob, failed := true }

/-- A dump of a partition whose state register reads 2 starts, whatever its sequencer does. -/
theorem exec_dumpStart_stopped {s : State} {p : Fin 4} (hbusy : (s.part p).dbusy = false) (hcode : (s.part p).stateCode = 2) :
    ∃ t, exec (.dumpStart p) s = .next t ∧ (t.part p).dbusy = true := by
  change ∃ t, execDumpStart p s = .next t ∧ _
  unfold execDumpStart
  extract_lets x
  have hgo : (x.dbusy || !(x.stateCode == 0 || x.stateCode == 2)) = false := by
    unfold x
    rw [hbusy, hcode]
    rfl
  rw [hgo, if_neg Bool.false_ne_true]
  split
  extract_lets live s1
  refine ⟨_, rfl, ?_⟩
  rw [State.schedule_part, State.onPart_part]

/-- Refutes O50: its last clause lets no dump start while a phase runs, but the state register, which a dump is judged by, reads 2 in
a phase whose partition is still noted as stopped by a fault. -/
theorem not_faultAndDebugEvents : ¬ Obligations.FaultAndDebugEvents := by
  unfold Obligations.FaultAndDebugEvents
  intro h
  have hall := h failedPhase 0 0 0 bareJob ⟨0, 0, 0, 0, 0, false⟩ ⟨noFault, 0, 0, 0, false⟩
    ⟨0, noFault, false, false, false, 0, 0, 0, 0, 0, 0, 0, 0, 0, 0, 0, false⟩
  obtain ⟨-, -, -, -, -, -, -, -, -, -, -, -, -, -, -, -, -, -, -, -, -, -, -, -, -, -, -, -, -, -, -, -, hstay⟩ := hall
  have hidle : (failedPhase.part 0).dbusy = false := by decide +kernel
  obtain ⟨t, ht, hbusy⟩ := exec_dumpStart_stopped (p := 0) hidle (by decide +kernel)
  have hsame : failedPhase = t := Host.Outcome.next.inj ((hstay (by decide +kernel) (by decide +kernel)).symm.trans ht)
  rw [← hsame] at hbusy
  exact absurd (hidle.symm.trans hbusy) Bool.false_ne_true

end Sys2Proof.Machine
end

section
/-! PROOF. The registers and windows of the host port (O51). -/

namespace Sys2Proof.Machine

/-! ### Where a write leads -/

theorem Module.presents_iff (m : Module) : m.presents = true ↔ m.stage = 5 ∧ m.recovery = false := by
  simp [Module.presents]

theorem Module.presents_not {m : Module} (h : ¬ (m.stage = 5 ∧ m.recovery = false)) : m.presents = false := by
  rw [← Bool.not_eq_true, m.presents_iff]
  exact h

theorem bar0_succ (p : Fin 4) (off : Nat) : bar0 p.succ off = if off < 0x100000 then .quarter p off false else .nowhere := by
  have : p.succ ≠ 0 := Fin.succ_ne_zero p
  unfold bar0
  rw [if_neg this]
  rfl

theorem quarterOfFn_succ (p : Fin 4) : quarterOfFn p.succ = some p.val := by
  unfold quarterOfFn
  rw [if_neg (Fin.succ_ne_zero p)]
  rfl

/-- The meaning of an event is a state: it neither faults nor is refused. -/
def Result.Ends (r : Result) : Prop := ∃ t, r = .next t

theorem Result.ends_next (t : State) : Result.Ends (.next t) := ⟨t, rfl⟩

theorem Result.ends_ite {c : Prop} [Decidable c] {a b : Result} (ha : Result.Ends a) (hb : Result.Ends b) :
    Result.Ends (if c then a else b) := by
  split
  · exact ha
  · exact hb

theorem execDstop_ends (p : Fin 4) (s : State) : Result.Ends (execDstop p s) := by
  unfold execDstop
  refine Result.ends_ite (Result.ends_next _) ?_
  split <;> exact Result.ends_next _

theorem execDcont_ends (p : Fin 4) (s : State) : Result.Ends (execDcont p s) := by
  unfold execDcont
  dsimp only
  split
  · exact Result.ends_ite (Result.ends_next _) (Result.ends_next _)
  · exact Result.ends_next _

theorem execDumpStart_ends (p : Fin 4) (s : State) : Result.Ends (execDumpStart p s) := by
  unfold execDumpStart
  refine Result.ends_ite (Result.ends_next _) ?_
  split
  exact Result.ends_next _

theorem execDbgGo_ends (s : State) : Result.Ends (execDbgGo s) :=
  Result.ends_ite (Result.ends_next _) (Result.ends_ite (Result.ends_next _) (Result.ends_next _))

theorem execRecGo_ends (s : State) : Result.Ends (execRecGo s) :=
  Result.ends_ite (Result.ends_next _) (Result.ends_ite (Result.ends_next _) (Result.ends_next _))

theorem State.writeModule_ends (s : State) (off : Nat) (v : W64) : Result.Ends (s.writeModule off v) := by
  unfold State.writeModule
  refine Result.ends_ite (Result.ends_next _) (Result.ends_ite (Result.ends_next _) ?_)
  split
  case h_4 => exact Result.ends_ite (execDbgGo_ends s) (Result.ends_next _)
  case h_5 => exact Result.ends_ite (execRecGo_ends s) (Result.ends_next _)
  all_goals exact Result.ends_next _

theorem State.writeBlock_ends (s : State) (q off : Nat) (v : W64) (pf : Bool) : Result.Ends (s.writeBlock q off v pf) := by
  have hrun : Result.Ends (match (if bitOf v 0 then execDstop (Fin.ofNat 4 q) s else .next s : Result) with
      | .next t => if bitOf v 1 then execDcont (Fin.ofNat 4 q) t else .next t
      | r => r) := by
    obtain ⟨t, ht⟩ : Result.Ends (if bitOf v 0 then execDstop (Fin.ofNat 4 q) s else .next s) :=
      Result.ends_ite (execDstop_ends _ s) (Result.ends_next _)
    rw [ht]
    exact Result.ends_ite (execDcont_ends _ t) (Result.ends_next _)
  unfold State.writeBlock
  iterate 8 refine Result.ends_ite (Result.ends_next _) ?_
  refine Result.ends_ite (Result.ends_ite (execDumpStart_ends _ _) (Result.ends_next _)) ?_
  exact Result.ends_ite (Result.ends_ite (Result.ends_next _) hrun) (Result.ends_next _)

/-- Every register write comes to an end. -/
theorem execRegisterWrite_ends (s : State) (fn : Fin 5) (off : Nat) (v : W64) : Result.Ends (execRegisterWrite fn off v s) := by
  unfold execRegisterWrite
  refine Result.ends_ite (Result.ends_next _) (Result.ends_ite ?_ (Result.ends_ite (Result.ends_next _) ?_))
  · split
    · exact s.writeModule_ends _ v
    · exact Result.ends_next _
  · split
    · exact s.writeModule_ends _ v
    · exact s.writeBlock_ends _ _ v _
    · exact Result.ends_next _

end Sys2Proof.Machine
end

section
/-! PROOF. Registers of a partition and of the module; the aperture and the AB windows; O51. -/

namespace Sys2Proof.Machine

/-! ### The mode, the key, the tickets -/

theorem State.writeMode_free {s : State} {v : W64} (hv : fld v.toNat 1 0 < 3)
    (h : ∀ q : Fin 4, (s.parts[q]).started = false ∧ (∀ n : Fin 64, ((s.parts[q]).queues[n]).enable = false) ∧ s.mod.qavail[q] = true) :
    s.writeMode v = { s with mod := { s.mod with qpp := fld v.toNat 1 0 } } := by
  have hbusy : (s.parts.toList.any fun x => x.started || x.queues.toList.any (·.enable)) = false := by
    refine List.any_eq_false.mpr fun x hx => ?_
    obtain ⟨q, hq, rfl⟩ := Vector.mem_iff_getElem.mp (Vector.mem_toList_iff.mp hx)
    obtain ⟨h1, h2, -⟩ := h ⟨q, hq⟩
    have h3 : (s.parts[q].queues.toList.any (·.enable)) = false := by
      refine List.any_eq_false.mpr fun y hy => ?_
      obtain ⟨n, hn, rfl⟩ := Vector.mem_iff_getElem.mp (Vector.mem_toList_iff.mp hy)
      exact Bool.not_eq_true _ ▸ h2 ⟨n, hn⟩
    have h1' : s.parts[q].started = false := h1
    rw [h1', h3]
    decide
  have havail : (s.mod.qavail.toList.all id) = true := by
    refine List.all_eq_true.mpr fun x hx => ?_
    obtain ⟨q, hq, rfl⟩ := Vector.mem_iff_getElem.mp (Vector.mem_toList_iff.mp hx)
    exact (h ⟨q, hq⟩).2.2
  exact if_pos ⟨hv, hbusy, havail⟩

theorem State.writeMode_busy {s : State} {p : Fin 4} {v : W64} (h : (s.part p).started = true) : s.writeMode v = s := by
  have hbusy : (s.parts.toList.any fun x => x.started || x.queues.toList.any (·.enable)) = true := by
    refine List.any_eq_true.mpr ⟨s.part p, ?_, by rw [h]; rfl⟩
    exact Vector.mem_toList_iff.mpr (Vector.getElem_mem ..)
  refine if_neg ?_
  rintro ⟨-, hfree, -⟩
  exact absurd (hbusy.symm.trans hfree) (by decide)

theorem Part.keyWrite_eq (x : Part) (word : Fin 4) (v : W64) : x.keyWrite word v
    = { x with rngStage := x.rngStage.set word v, rngKey := if word = 3 then x.rngStage.set word v else x.rngKey } := by
  unfold Part.keyWrite
  dsimp only
  split <;> rfl

/-! ### Register writes by their offsets -/

section
variable {s : State} {v : W64}

theorem execRegisterWrite_early {fn : Fin 5} {off : Nat} (h : s.mod.stage < 5) (hr : s.mod.recovery = false) :
    execRegisterWrite fn off v s = .next s := by
  unfold execRegisterWrite
  rw [hr, if_neg Bool.false_ne_true, if_pos h, ite_self]

/-- In recovery the functions of the quarters have no registers. -/
theorem execRegisterWrite_recovery {p : Fin 4} {off : Nat} (hr : s.mod.recovery = true) : execRegisterWrite p.succ off v s = .next s := by
  unfold execRegisterWrite
  rw [hr, if_pos rfl, bar0_succ]
  split
  · rfl
  · split
    next o h => split at h <;> exact nomatch h
    next => rfl

theorem execRegisterWrite_module {off : Nat} (h8 : off % 8 = 0) (hoff : off < 0x100000) (hs : s.mod.stage = 5)
    (hr : s.mod.recovery = false) : execRegisterWrite 0 off v s = s.writeModule off v := by
  have hb : bar0 0 off = .module off := (if_pos rfl).trans (if_pos (Or.inl hoff))
  unfold execRegisterWrite
  rw [if_neg (Classical.not_not.mpr h8), hr, if_neg Bool.false_ne_true, hs, if_neg (Nat.lt_irrefl 5), hb]

theorem execRegisterWrite_quarter {p : Fin 4} {off : Nat} (h8 : off % 8 = 0) (hoff : off < 0x100000) (hs : s.mod.stage = 5)
    (hr : s.mod.recovery = false) : execRegisterWrite p.succ off v s = s.writeBlock p off v false := by
  unfold execRegisterWrite
  rw [if_neg (Classical.not_not.mpr h8), hr, if_neg Bool.false_ne_true, hs, if_neg (Nat.lt_irrefl 5), bar0_succ, if_pos hoff]

/-- A window of a quarter's aperture. -/
theorem State.writeBlock_window {q off i : Nat} {pf : Bool} (hlo : 0x400 ≤ off) (hhi : off < 0x600) (hi : (off - 0x400) / 8 = i) :
    s.writeBlock q off v pf
      = .next (s.onPart q fun x => { x with win := x.win.set (Fin.ofNat 64 i) (v &&& 0x800FFFFFC0000000) }) := by
  subst hi
  exact if_pos ⟨hlo, hhi⟩

theorem execRegisterWrite_window {p word : Fin 4} (hs : s.mod.stage = 5) (hr : s.mod.recovery = false) :
    execRegisterWrite p.succ (0x400 + 8 * word.val) v s = .next (s.setPart p { s.part p with
      win := (s.part p).win.set (Fin.ofNat 64 word.val) (v &&& 0x800FFFFFC0000000) }) := by
  have hw := word.isLt
  rw [execRegisterWrite_quarter (by omega) (by omega) hs hr]
  exact State.writeBlock_window (by omega) (by omega) (by omega)

/-! ### The MSI-X tables -/

theorem State.msix_frame (s : State) (fn k : Nat) : (s.msix fn k).mod.msixTable = s.mod.msixTable ∧ (s.msix fn k).cores = s.cores
    ∧ (s.msix fn k).parts = s.parts ∧ (s.msix fn k).hbm = s.hbm := by
  unfold State.msix
  dsimp only
  split <;> exact ⟨rfl, rfl, rfl, rfl⟩

theorem Module.readMsix_low {m : Module} {fn off : Nat} (hpba : inPba off = false) (h16 : off % 16 = 0) :
    m.readMsix fn off = fld (m.msixTable[(Fin.ofNat 5 fn)])[(Fin.ofNat 16 (off % 0x100 / 16))].toNat 63 0 := by
  unfold Module.readMsix
  rw [hpba, if_neg Bool.false_ne_true]
  exact if_pos h16

/-- The table entry with its low half written. -/
theorem fld_entry_low (e : Nat) (v : W64) : fld (BitVec.ofNat 128 (fld e 127 64 * 2 ^ 64 + v.toNat)).toNat 63 0 = v.toNat := by
  have hv := v.isLt
  have he : fld e 127 64 < 2 ^ 64 := Nat.mod_lt _ (Nat.two_pow_pos _)
  rw [BitVec.toNat_ofNat, Nat.mod_eq_of_lt (by omega)]
  unfold fld
  omega

theorem State.writeMsix_spec {fn off : Nat} (hpba : inPba off = false) (h16 : off % 16 = 0) :
    (s.writeMsix fn off v).mod.readMsix fn off = v.toNat ∧ (s.writeMsix fn off v).cores = s.cores
      ∧ (s.writeMsix fn off v).parts = s.parts ∧ (s.writeMsix fn off v).hbm = s.hbm := by
  have hset (new : BitVec 128) (T : Vector (Vector (BitVec 128) 16) 5) (i : Fin 5) (k : Fin 16) :
      ((T.set i (T[i].set k new))[i])[k] = new := by simp
  unfold State.writeMsix
  extract_lets i k old new t
  have hnew : new = BitVec.ofNat 128 (fld old 127 64 * 2 ^ 64 + v.toNat) := if_pos h16
  have htable : t.mod.msixTable = s.mod.msixTable.set i ((s.mod.msixTable[i]).set (Fin.ofNat 16 k) new) := rfl
  have hread (u : State) (hu : u.mod.msixTable = t.mod.msixTable) : u.mod.readMsix fn off = v.toNat := by
    rw [Module.readMsix_low hpba h16, hu, htable]
    exact (congrArg (fun e : BitVec 128 => fld e.toNat 63 0) (hset new _ i _)).trans (by rw [hnew]; exact fld_entry_low old v)
  split
  · obtain ⟨h1, h2, h3, h4⟩ := State.msix_frame (t.onMod fun m =>
      { m with msixPend := m.msixPend.set i (m.msixPend[i] &&& ~~~ (BitVec.ofNat 16 (2 ^ k))) }) fn k
    exact ⟨hread _ h1, h2, h3, h4⟩
  · exact ⟨hread t rfl, rfl, rfl, rfl⟩

/-- An entry of the module's MSI-X table is read back. -/
theorem execRegisterWrite_msix {k : Fin 16} (hs : s.mod.stage = 5) (hr : s.mod.recovery = false) :
    ∃ t, execRegisterWrite 0 (0x20000 + 16 * k.val) v s = .next t ∧ t.mod.readMsix 0 (0x20000 + 16 * k.val) = v.toNat
      ∧ t.cores = s.cores ∧ t.parts = s.parts ∧ t.hbm = s.hbm := by
  have hk := k.isLt
  have hm : inMsix (0x20000 + 16 * k.val) = true := decide_eq_true (by omega)
  rw [execRegisterWrite_module (by omega) (by omega) hs hr]
  refine ⟨s.writeMsix 0 (0x20000 + 16 * k.val) v, ?_, State.writeMsix_spec (decide_eq_false (by omega)) (by omega)⟩
  unfold State.writeModule
  rw [if_neg (by omega), hm, if_pos rfl]

end

/-! ### The AB windows (R266, R286) -/

section
variable {s : State} {fn : Fin 5} {off c a : Nat} {data : List Byte} {bad : Bool}

/-- The bytes that a host write carries, by its poison bit. -/
def hostBytes (bad : Bool) (data : List Byte) : List (Option Byte) := if bad then List.replicate data.length none else data.map some

theorem hostBytes_length (bad : Bool) (data : List Byte) : (hostBytes bad data).length = data.length := by
  unfold hostBytes
  cases bad <;> simp

/-- A write inside AB is a posted write of its function. -/
theorem exec_hostAbWrite (hp : s.mod.presents = true) (hb : bar4 fn off = some (c, a)) (hin : a + data.length ≤ Config.abBytes)
    (hlen : 0 < data.length) : exec (.hostAbWrite fn off data bad) s
      = .next (s.arrive { src := .fn fn, act := .ab c a (hostBytes bad data) }) := by
  have hdata : data.isEmpty = false := by
    cases data with
    | nil => exact absurd hlen (Nat.lt_irrefl 0)
    | cons => rfl
  have hlen' := hostBytes_length bad data
  have htake : (hostBytes bad data).take (Config.abBytes - a) = hostBytes bad data := List.take_of_length_le (by omega)
  have hbytes : (hostBytes bad data).isEmpty = false := by
    rw [← Bool.not_eq_true, List.isEmpty_iff_length_eq_zero]
    omega
  change execHostAbWrite fn off data bad s = _
  unfold execHostAbWrite
  rw [hp, if_pos rfl, hb]
  change Host.Outcome.next (if data.isEmpty = true then s.retryPosted fn
    else if ((hostBytes bad data).take (Config.abBytes - a)).isEmpty = true then s
      else s.arrive { src := .fn fn, act := .ab c a ((hostBytes bad data).take (Config.abBytes - a)) }) = _
  rw [htake, hdata, hbytes, if_neg Bool.false_ne_true, if_neg Bool.false_ne_true]

theorem exec_hostAbWrite_again (hp : s.mod.presents = true) (hb : bar4 fn off = some (c, a)) :
    exec (.hostAbWrite fn off [] bad) s = .next (s.retryPosted fn) := by
  change execHostAbWrite fn off [] bad s = _
  unfold execHostAbWrite
  rw [hp, if_pos rfl, hb]
  rfl

theorem exec_hostAbRead (hp : s.mod.presents = true) (hb : bar4 fn off = some (c, a)) {n : Nat} (hin : a + n ≤ Config.abBytes) (hn : 0 < n) :
    exec (.hostAbRead fn off n) s = .next (match s.hostWaits c a n with
      | some b => s.hostWait c b (.hostAbRead fn off n)
      | none => s.complete ((s.core c).bufRead .ab a n)) := by
  have hk : min n (Config.abBytes - a) = n := Nat.min_eq_left (by omega)
  change execHostAbRead fn off n s = _
  unfold execHostAbRead
  rw [hp, if_neg (by decide), hb]
  dsimp only
  rw [hk, if_neg (Nat.ne_of_gt hn), Nat.sub_self, List.replicate_zero, List.append_nil]
  cases s.hostWaits c a n <;> rfl

/-- A posted write into AB of a function that has nothing waiting. -/
theorem State.arrive_ab {bs : List (Option Byte)} (hsrc : ∀ x, x ∈ s.mod.posted → x.src ≠ .fn fn) :
    s.arrive { src := .fn fn, act := .ab c a bs }
    = match (range' 0 4).find? fun p => (s.part p).holds (.fn fn) with
      | some q => s.deferTo q { src := .fn fn, act := .ab c a bs }
      | none => match s.hostWaits c a bs.length with
        | none => s.setCore c ((s.core c).bufStore .ab (place a bs))
        | some b => State.hostWait { s with mod := { s.mod with posted := s.mod.posted ++ [{ src := .fn fn, act := .ab c a bs }] } }
            c b (.hostAbWrite fn 0 [] false) := by
  have hany : (s.mod.posted.any fun x => x.src == Source.fn fn) = false :=
    Bool.not_eq_true _ ▸ mt (Source.any_posted _ _).mp fun ⟨x, hx, hs⟩ => hsrc x hx hs
  unfold State.arrive
  dsimp only
  rw [hany, if_neg Bool.false_ne_true, State.takePosted]
  change (match (range' 0 4).find? (fun p => (s.part p).holds (.fn fn)), (s.hostWaits c a bs.length).map (fun b => (c, b)) with
    | some p, _ => _
    | none, none => _
    | none, some (c, b) => _ : State) = _
  cases (range' 0 4).find? (fun p => (s.part p).holds (.fn fn)) with
  | some q => rfl
  | none => cases s.hostWaits c a bs.length <;> rfl

end

end Sys2Proof.Machine
end

section
/-! PROOF. O51. -/

namespace Sys2Proof.Machine

section
variable {s : State} {p : Fin 4}

/-! ### The aperture (R325) -/

theorem exec_hostApertureWrite_ok {off : Nat} {data : List Byte} {bad : Bool} {ps : List (Home × Nat)} (hp : s.mod.presents = true)
    (ha : s.aperture p .store off data.length = some ps) : exec (.hostApertureWrite p.succ off data bad) s
      = .next (s.writePieces (.fn p.succ) ps (hostBytes bad data)) := by
  change execHostApertureWrite p.succ off data bad s = _
  unfold execHostApertureWrite
  rw [hp, if_pos rfl, quarterOfFn_succ]
  dsimp only
  rw [ha]
  rfl

theorem exec_hostApertureWrite_none {off : Nat} {data : List Byte} {bad : Bool} (hp : s.mod.presents = true)
    (ha : s.aperture p .store off data.length = none) : exec (.hostApertureWrite p.succ off data bad) s
      = .next (s.setPart p { s.part p with winErr := (s.part p).winErr + 1 }) := by
  change execHostApertureWrite p.succ off data bad s = _
  unfold execHostApertureWrite
  rw [hp, if_pos rfl, quarterOfFn_succ]
  dsimp only
  rw [ha]
  rfl

theorem exec_hostApertureRead_ok {off n : Nat} {ps : List (Home × Nat)} (hp : s.mod.presents = true)
    (ha : s.aperture p .load off n = some ps) : exec (.hostApertureRead p.succ off n) s = .next (s.complete (s.homeReads ps)) := by
  change execHostApertureRead p.succ off n s = _
  unfold execHostApertureRead
  rw [hp, if_pos rfl, quarterOfFn_succ, Option.bind_some, ha]

theorem exec_hostApertureRead_none {off n : Nat} (ha : s.aperture p .load off n = none) :
    exec (.hostApertureRead p.succ off n) s = .next (s.emit .unsupportedRequest) := by
  change execHostApertureRead p.succ off n s = _
  unfold execHostApertureRead
  cases s.mod.presents
  · rfl
  · rw [if_pos rfl, quarterOfFn_succ, Option.bind_some, ha]

/-- Where the port presents nothing, an access by a function goes nowhere. -/
theorem exec_host_absent {fn : Fin 5} {off n : Nat} {data : List Byte} {bad : Bool} (hp : s.mod.presents = false) :
    exec (.hostApertureWrite fn off data bad) s = .next s ∧ exec (.hostAbWrite fn off data bad) s = .next s
      ∧ exec (.hostApertureRead fn off n) s = .next (s.emit .unsupportedRequest)
      ∧ exec (.hostAbRead fn off n) s = .next (s.emit .unsupportedRequest) := by
  refine ⟨?_, ?_, ?_, ?_⟩
  · change execHostApertureWrite fn off data bad s = _
    unfold execHostApertureWrite
    rw [hp]
    rfl
  · change execHostAbWrite fn off data bad s = _
    unfold execHostAbWrite
    rw [hp]
    rfl
  · change execHostApertureRead fn off n s = _
    unfold execHostApertureRead
    rw [hp]
    rfl
  · change execHostAbRead fn off n s = _
    unfold execHostAbRead
    rw [hp]
    rfl

/-! ### The lowest partition that has a property -/

theorem find?_partition_none {P : Nat → Bool} (h : ∀ q, q < 4 → P q = false) : (range' 0 4).find? P = none := by
  refine List.find?_eq_none.mpr fun q hq => ?_
  have := (range'_mem 4 0 q hq).2
  rw [h q (by omega)]
  exact Bool.false_ne_true

theorem find?_partition_first {P : Nat → Bool} {q : Nat} (hq : q < 4) (hown : P q = true) (hlow : ∀ k, k < q → P k = false) :
    (range' 0 4).find? P = some q := by
  change [0, 1, 2, 3].find? P = some q
  match q, hq with
  | 0, _ => rw [List.find?_cons, hown]
  | 1, _ => rw [List.find?_cons, hlow 0 (by decide), List.find?_cons, hown]
  | 2, _ => rw [List.find?_cons, hlow 0 (by decide), List.find?_cons, hlow 1 (by decide), List.find?_cons, hown]
  | 3, _ =>
    rw [List.find?_cons, hlow 0 (by decide), List.find?_cons, hlow 1 (by decide), List.find?_cons, hlow 2 (by decide), List.find?_cons, hown]

/-! ### What the port does not present is not taken up -/

/-- A register of a quarter, as the driver writes it. -/
def isQuarterWrite : Instr → Bool
  | .doorbell .. | .queueEnable .. | .queueResume .. | .queueSkip .. | .rngKeyWrite .. | .tktValWrite .. | .winErrClear _
  | .abandon _ | .retry _ | .replay _ | .preemptRequest _ | .invalidateOne _ | .invalidateAll _ | .ccntClear _ | .dumpStart _
  | .dstop _ | .dcont _ => true
  | _ => false

theorem State.takesUp_quarter {i : Instr} (hi : isQuarterWrite i = true) (hp : s.mod.presents = false) : s.takesUp i = false := by
  unfold State.takesUp
  unfold isQuarterWrite at hi
  split at hi
  case h_18 => exact nomatch hi
  all_goals
    split
    · rfl
    · exact hp

theorem step_not_presented {i : Instr} {e : Ev} {es : List Ev} (hi : isQuarterWrite i = true) (hp : s.mod.presents = false)
    (hf : s.firstTick = none) (ha : s.agenda = e :: es) (he : e.ev = i) (hc : e.cycle ≤ s.now) : step s = .next { s with agenda := es } := by
  have ht : s.todo = .go { s with agenda := es } := by
    unfold State.todo
    rw [hf, ha]
    dsimp only
    rw [if_neg (Nat.not_lt.mpr hc), he, State.takeEvent, State.takesUp_quarter (s := { s with agenda := es }) hi hp]
    rfl
  unfold step
  rw [ht]

/-- No domain has an offset: none steps back where margining is disabled. -/
theorem State.writeUvEn_flat {v : W64} (h : s.mod.uvOff = Vector.replicate 16 0) :
    s.writeUvEn v = { s with mod := { s.mod with uvEn := v.setWidth 16 } } := by
  refine foldl_keeps (fun t : State => t = { s with mod := { s.mod with uvEn := v.setWidth 16 } }) _ _ _ rfl fun t d ht => ?_
  subst ht
  refine if_neg ?_
  have : (s.mod.uvOff)[(Fin.ofNat 16 d)] = 0 := by rw [h]; exact Vector.getElem_replicate ..
  dsimp only
  rw [this]
  simp

end

/-- Settles O51: each register and window by where it leads. -/
theorem hostPortEvents : Obligations.HostPortEvents := by
  unfold Obligations.HostPortEvents
  intro s p word v fn off n data bad
  dsimp only
  refine ⟨fun hm h => congrArg _ (State.writeMode_free hm h), fun h => congrArg _ (State.writeMode_busy h), fun h => ?_, fun h => ?_, fun h => ?_,
    fun h => ⟨fun hout => ?_, fun hin => ?_⟩, rfl, execRegisterWrite_ends s fn off v, execRegisterWrite_early, fun hs hr => ⟨?_, ?_⟩,
    execRegisterWrite_recovery, fun k hpr => execRegisterWrite_msix hpr.1 hpr.2, fun hpr => exec_host_absent (Module.presents_not hpr),
    ?_, ?_, fun ps hpr => exec_hostApertureWrite_ok ((Module.presents_iff _).mpr hpr),
    fun hpr => exec_hostApertureWrite_none ((Module.presents_iff _).mpr hpr),
    fun ps hpr => exec_hostApertureRead_ok ((Module.presents_iff _).mpr hpr), exec_hostApertureRead_none, fun hpr hb => ?_,
    fun c a hpr hb hin hlen hin' hn => ?_, fun i e es q tail on hpr hi => ?_, rfl, rfl, fun h => congrArg _ (State.writeUvEn_flat h)⟩
  · refine congrArg _ ((if_neg (by rw [h]; exact Bool.false_ne_true)).trans ?_)
    exact congrArg (s.setPart p) (Part.keyWrite_eq ..)
  · exact congrArg _ (if_pos h)
  · exact congrArg _ (if_pos h)
  · refine congrArg _ ((if_neg (by rw [h]; exact Bool.false_ne_true)).trans (if_neg ?_))
    omega
  · exact congrArg _ ((if_neg (by rw [h]; exact Bool.false_ne_true)).trans (if_pos hin))
  · exact execRegisterWrite_module (by decide) (by decide) hs hr
  · exact execRegisterWrite_window hs hr
  · change execHostApertureWrite 0 off data bad s = _
    unfold execHostApertureWrite
    cases s.mod.presents <;> rfl
  · change execHostApertureRead 0 off n s = _
    unfold execHostApertureRead
    cases s.mod.presents <;> rfl
  · change execHostAbWrite fn off data bad s = _
    unfold execHostAbWrite
    rw [(Module.presents_iff _).mpr hpr, if_pos rfl, hb]
  · have hp := (Module.presents_iff _).mpr hpr
    have hw := exec_hostAbWrite (bad := bad) hp hb hin hlen
    have hlen' := hostBytes_length bad data
    change exec (.hostAbWrite fn off data bad) s = _ at hw
    refine ⟨fun hfirst hno => ⟨fun hwait => ?_, fun b hwait => ?_⟩, fun hfirst q hq hown hlow => ?_, fun hbehind => ?_,
      exec_hostAbWrite_again hp hb, fun hwait => ?_, fun b hwait => ?_⟩
    · rw [hw, State.arrive_ab hfirst, find?_partition_none hno]
      dsimp only
      rw [hlen', hwait]
      rfl
    · rw [hw, State.arrive_ab hfirst, find?_partition_none hno]
      dsimp only
      rw [hlen', hwait]
      rfl
    · rw [hw, State.arrive_ab hfirst, find?_partition_first hq hown hlow]
      rfl
    · have hsrc : ∃ w, w ∈ s.mod.posted ∧ w.src = .fn fn :=
        Classical.byContradiction fun hno => hbehind fun w hw hs => hno ⟨w, hw, hs⟩
      exact hw.trans (congrArg _ (State.arrive_behind (by exact hsrc)))
    · rw [exec_hostAbRead hp hb hin' hn, hwait]
      rfl
    · rw [exec_hostAbRead hp hb hin' hn, hwait]
      rfl
  · refine step_not_presented (i := i) ?_ (Module.presents_not hpr)
    exact List.all_eq_true.mp (by rfl) i hi

end Sys2Proof.Machine
end

section
/-! PROOF. Launch queues, head records, launch gates and launches (O52). -/

namespace Sys2Proof.Machine

section
variable {s : State} {p : Fin 4} {n : Fin 64}

/-! ### A queue changed or stopped -/

/-- One queue of a partition replaced. -/
def State.putQueue (s : State) (p : Fin 4) (n : Fin 64) (q : Queue) : State :=
  s.setPart p { s.part p with queues := (s.part p).queues.set n q }

theorem fin64_ofNat (n : Fin 64) : Fin.ofNat 64 n.val = n := Fin.ext (Nat.mod_eq_of_lt n.isLt)

theorem fin4_ofNat (p : Fin 4) : Fin.ofNat 4 p.val = p := Fin.ext (Nat.mod_eq_of_lt p.isLt)

theorem State.queue_eq (s : State) (p : Fin 4) (n : Fin 64) : s.queue p n = (s.part p).queues[n] := by
  unfold State.queue
  simp only [fin64_ofNat]

theorem State.onQueue_eq (s : State) (p : Fin 4) (n : Fin 64) (f : Queue → Queue) :
    s.onQueue p n f = s.putQueue p n (f (s.part p).queues[n]) := by
  unfold State.onQueue State.onPart State.putQueue
  simp only [fin64_ofNat]

/-- A queue that has stopped with an error, its record and the launch unit's counts as they were. -/
structure State.QueueStopped (s t : State) (p : Fin 4) (n : Fin 64) (err : Nat) : Prop where
  qstate : ((t.part p).queues[n]).qstate = 2
  err : ((t.part p).queues[n]).err = err
  tail : ((t.part p).queues[n]).tail = ((s.part p).queues[n]).tail
  head : ((t.part p).queues[n]).head = ((s.part p).queues[n]).head
  aging : (t.part p).aging = (s.part p).aging
  served : (t.part p).served = (s.part p).served

/-- The stop of a queue in a state whose partition has the queues and counts of s. -/
theorem State.stopQueue_stopped {t : State} (err fidx : Nat) (hq : (t.part p).queues = (s.part p).queues)
    (ha : (t.part p).aging = (s.part p).aging) (hs : (t.part p).served = (s.part p).served) :
    s.QueueStopped (t.stopQueue p n err fidx) p n err := by
  have hp : (t.stopQueue p n err fidx).part p = { t.part p with
      queues := (t.part p).queues.set n { (t.part p).queues[n] with qstate := 2, err := err, fidx := fidx % 65536 } } := by
    unfold State.stopQueue
    dsimp only
    rw [State.part_congr (State.interrupt_parts ..), State.part_setPart_self]
    simp only [fin64_ofNat]
  have hset (q : Queue) : ((t.part p).queues.set n q)[n] = q := Vector.getElem_set_self ..
  constructor
  all_goals rw [hp]
  · exact congrArg Queue.qstate (hset _)
  · exact congrArg Queue.err (hset _)
  · exact (congrArg Queue.tail (hset _)).trans (by rw [hq])
  · exact (congrArg Queue.head (hset _)).trans (by rw [hq])
  · exact ha
  · exact hs

theorem State.queueFault_stopped {t : State} (err : Nat) (at_ : Nat × Nat × Nat × Bool × Bool) (f : FaultInfo)
    (hp : t.part p = s.part p) : s.QueueStopped (t.queueFault p n err at_ f) p n err := by
  have hnote : ((t.noteFault p f).part p) = (s.part p).noted := by
    rw [State.part_congr (t.noteFault_parts p f), State.part_setPart_self, hp]
  have hput (u : State) (r : FaultRec) : ((u.putRecord p r).part p).queues = (u.part p).queues
      ∧ ((u.putRecord p r).part p).aging = (u.part p).aging ∧ ((u.putRecord p r).part p).served = (u.part p).served := by
    unfold State.putRecord
    dsimp only
    split
    · exact ⟨rfl, rfl, rfl⟩
    · rw [State.part_congr (State.interrupt_parts ..), State.part_setPart_self]
      exact ⟨rfl, rfl, rfl⟩
  unfold State.queueFault
  extract_lets q
  dsimp only
  obtain ⟨h1, h2, h3⟩ := hput (t.noteFault p f) { t.recordFor p (q.head1.map fun l =>
    { l.asJob n q.head t.now with pidx := at_.2.1, infl := at_.2.2.1 }) f 0 at_.1 false true with
      replayable := at_.2.2.2.1, system := at_.2.2.2.2 }
  rw [hnote] at h1 h2 h3
  exact State.stopQueue_stopped err q.head h1 h2 h3

/-! ### Doorbells and control words (R328, R329) -/

theorem exec_doorbell_same {tail : BitVec 32} (h : tail.toNat = ((s.part p).queues[n]).tail) : exec (.doorbell p n tail) s = .next s := by
  change Host.Outcome.next (s.ring p n tail) = _
  unfold State.ring
  dsimp only
  rw [State.queue_eq, if_pos h]

theorem exec_doorbell_far {tail : BitVec 32} (h : tail.toNat ≠ ((s.part p).queues[n]).tail)
    (hfar : ((s.part p).queues[n]).entries < (tail.toNat + 2 ^ 32 - ((s.part p).queues[n]).head) % 2 ^ 32)
    (hq : ((s.part p).queues[n]).qstate ≠ 2) : ∃ t, exec (.doorbell p n tail) s = .next t ∧ s.QueueStopped t p n 4 := by
  refine ⟨_, rfl, ?_⟩
  unfold State.ring
  dsimp only
  rw [State.queue_eq, if_neg h, if_pos hfar, if_neg hq]
  exact State.stopQueue_stopped _ _ rfl rfl rfl

theorem exec_doorbell_near {tail : BitVec 32} (h : tail.toNat ≠ ((s.part p).queues[n]).tail)
    (hfar : (tail.toNat + 2 ^ 32 - ((s.part p).queues[n]).head) % 2 ^ 32 ≤ ((s.part p).queues[n]).entries) :
    exec (.doorbell p n tail) s
      = .next ((s.putQueue p n { (s.part p).queues[n] with tail := tail.toNat }).fetchHead p n) := by
  change Host.Outcome.next (s.ring p n tail) = _
  unfold State.ring
  dsimp only
  rw [State.queue_eq, if_neg h, if_neg (Nat.not_lt.mpr hfar), State.onQueue_eq]

theorem exec_queueEnable_on (h : ((s.part p).queues[n]).qstate ≠ 2) : exec (.queueEnable p n true) s
    = .next (((s.putQueue p n { (s.part p).queues[n] with enable := true, qstate := 1 }).fetchHead p n).tryLaunch p) := by
  change Host.Outcome.next (s.queueControl p n true false false) = _
  unfold State.queueControl
  dsimp only
  rw [State.onQueue_eq, if_neg h]
  rfl

theorem exec_queueResume_stopped {on : Bool} (h : ((s.part p).queues[n]).qstate = 2) : exec (.queueResume p n on) s
    = .next (((s.putQueue p n { ((s.part p).queues[n]).forget with
        enable := on, qstate := if on then 1 else 0, err := 0, fidx := 0 }).fetchHead p n).tryLaunch p) := by
  change Host.Outcome.next (s.queueControl p n on true false) = _
  unfold State.queueControl
  dsimp only
  rw [State.onQueue_eq, if_pos h]
  rfl

theorem exec_queueSkip_stopped {on : Bool} (h : ((s.part p).queues[n]).qstate = 2) : exec (.queueSkip p n on) s
    = .next (((s.putQueue p n { ((s.part p).queues[n]).forget with
        enable := on, qstate := if on then 1 else 0, err := 0, fidx := 0
        head := (((s.part p).queues[n]).head + 1) % 2 ^ 32 }).fetchHead p n).tryLaunch p) := by
  change Host.Outcome.next (s.queueControl p n on false true) = _
  unfold State.queueControl
  dsimp only
  rw [State.onQueue_eq, if_pos h]
  rfl

/-! ### Head records (R331) -/

theorem exec_recordFetch_read (hq : ((s.part p).queues[n]).qstate = 1)
    (hne : ((s.part p).queues[n]).head ≠ ((s.part p).queues[n]).tail) (hh : ((s.part p).queues[n]).head1 = none) :
    exec (.recordFetch p n) s = match s.headRecord p ((s.part p).queues[n]) with
      | none => .next (s.stopQueue p n 6 ((s.part p).queues[n]).head)
      | some b =>
        if u b 0 4 = ((s.part p).queues[n]).head ∧ u b 124 4 = crc32c (b.take 124) then
          (match parseRecord b with
            | none => .next (s.stopQueue p n 2 ((s.part p).queues[n]).head)
            | some l => .next ((if l.gated then (s.putQueue p n { ((s.part p).queues[n]).forget with head1 := some l }).evalLaunch p n s.now
              else s.putQueue p n { ((s.part p).queues[n]).forget with head1 := some l }).tryLaunch p))
        else if 8 ≤ ((s.part p).queues[n]).fetches then .next (s.stopQueue p n 1 ((s.part p).queues[n]).head)
        else .next ((s.putQueue p n { (s.part p).queues[n] with fetches := ((s.part p).queues[n]).fetches + 1 }).schedule
          (s.now + 800) (.recordFetch p n)) := by
  have hgo : ¬ (((s.part p).queues[n]).qstate ≠ 1 ∨ ((s.part p).queues[n]).head = ((s.part p).queues[n]).tail
      ∨ ((s.part p).queues[n]).head1.isSome = true) := by
    rintro (h | h | h)
    · exact h hq
    · exact hne h
    · rw [hh] at h
      exact Bool.false_ne_true h
  change execRecordFetch p n s = _
  unfold execRecordFetch
  dsimp only
  rw [State.queue_eq, if_neg hgo]
  cases s.headRecord p ((s.part p).queues[n]) with
  | none => rfl
  | some b =>
    dsimp only
    by_cases hgood : u b 0 4 = ((s.part p).queues[n]).head ∧ u b 124 4 = crc32c (b.take 124)
    · rw [if_pos hgood, if_neg (by rw [not_or, Classical.not_not, Classical.not_not]; exact hgood)]
      cases parseRecord b with
      | none => rfl
      | some l =>
        dsimp only
        rw [State.onQueue_eq]
        rfl
    · rw [if_neg hgood, if_pos (by rw [← Classical.not_and_iff_not_or_not]; exact hgood), State.onQueue_eq]

/-! ### Launch gates (R333) -/

theorem leNat?_leBytes (k v : Nat) (h : v < 2 ^ (8 * k)) : leNat? ((leBytes k v).map some) = some v := by
  induction k generalizing v with
  | zero => simp_all [leBytes, leNat?]
  | succ k ih =>
    have hk : v / 256 < 2 ^ (8 * k) := by
      rw [Nat.mul_succ, Nat.pow_add] at h
      omega
    rw [leBytes, List.map_cons, leNat?, ih _ hk, Option.map_some, BitVec.toNat_ofNat]
    exact congrArg some (Nat.mod_add_div v 256)

/-- A launch gate whose object's home is known is judged by what stands there. -/
theorem exec_launchGate {l : Launch} {h : Home} (hl : ((s.part p).queues[n]).head1 = some l) (hgated : l.gated = true)
    (hok : ((s.part p).queues[n]).gateOk = false) (hq : ((s.part p).queues[n]).qstate = 1)
    (hh : ((s.part p).queues[n]).gateHome = some h) : exec (.launchGateEvaluation p n) s
      = match s.judgeObject l.gsig 0 h l.gcond l.gval false with
        | .fault f => .next (s.queueFault p n 5 (0, 0, 0, false, false) f)
        | .holds => .next (((s.putQueue p n { (s.part p).queues[n] with gateOk := true }).armDog p).tryLaunch p)
        | .waits _ => .next (s.evalLaunch p n (((s.part p).queues[n]).gateFrom.getD s.now
          + 256 * ((s.now - 16 - ((s.part p).queues[n]).gateFrom.getD s.now) / 256 + 1) + 16)) := by
  have hw : ((s.part p).queues[n]).gateWaits = true := by
    unfold Queue.gateWaits
    rw [hl]
    dsimp only
    rw [hgated, hok, hq]
    rfl
  change execLaunchGateEvaluation p n s = _
  unfold execLaunchGateEvaluation
  dsimp only
  rw [State.queue_eq, hl]
  dsimp only
  rw [hw, hh, if_neg (by decide)]
  dsimp only
  cases s.judgeObject l.gsig 0 h l.gcond l.gval false with
  | fault f => rfl
  | holds =>
    have hput := s.onQueue_eq p n fun x => { x with gateOk := true }
    rw [hl, hh] at hput
    exact congrArg (fun t : State => Host.Outcome.next ((t.armDog p).tryLaunch p)) hput
  | waits i => rfl

/-! ### Completion (R334) -/

theorem exec_jobCompletion_plain {j : Job} (hj : (s.part p).ended.find? (fun k => k.id == j.id) = some j) (hd : j.done = false)
    (hc : j.launch.csig = 0)
    (hacked : ∀ c, c ∈ s.coresOf p → ∀ o, o ∈ (s.core c).outb → o.job = j.id → o.st = .acked) :
    exec (.jobCompletion p j.id) s = .next (s.finishJob p j none) := by
  have hopen : (s.coresOf p).any (fun c => (s.core c).outb.any fun o => o.job == j.id && o.st != .acked) = false := by
    refine List.any_eq_false.mpr fun c hcm => ?_
    rw [List.any_eq_true]
    rintro ⟨o, ho, h⟩
    obtain ⟨h1, h2⟩ := (Bool.and_eq_true _ _).mp h
    exact bne_iff_ne.mp h2 (hacked c hcm o ho (eq_of_beq h1))
  change execJobCompletion p j.id s = _
  unfold execJobCompletion
  rw [hj]
  dsimp only
  rw [hd, hopen, if_neg (by decide), if_pos hc]

/-- One is taken from an object, unless it is invalid. -/
theorem sigApply_minus_one {v : Nat} (h : v < 2 ^ 64) : (sigApply .add (BitVec.ofNat 64 v) (BitVec.allOnes 64)).toNat
    = if v = 0x8000000000000000 then 0x8000000000000000 else (v + 2 ^ 64 - 1) % 2 ^ 64 := by
  unfold sigApply invalidSignal
  by_cases hv : v = 0x8000000000000000
  · subst hv
    rfl
  · have : BitVec.ofNat 64 v ≠ 0x8000000000000000 := fun e => by
      have := congrArg BitVec.toNat e
      rw [BitVec.toNat_ofNat, Nat.mod_eq_of_lt h] at this
      exact hv this
    rw [if_neg hv]
    dsimp only
    rw [if_neg this, BitVec.toNat_add, BitVec.toNat_ofNat, BitVec.toNat_allOnes, Nat.mod_eq_of_lt h,
      Nat.add_sub_assoc (by decide)]

theorem exec_completionSignal {j : Job} {pa v : Nat} (hj : (s.part p).ended.find? (fun k => k.id == j.id) = some j)
    (hh : j.csigHome = some (.hbm pa)) (hno : ∀ q : Nat, q < 4 → (s.part q).holds (.part p) = false)
    (hd : s.deferrer (.part p) (.hbm pa) 8 = none) (hv : v < 2 ^ 64) (hread : s.homeRead (.hbm pa) 8 = (leBytes 8 v).map some) :
    exec (.completionSignalPerformed p j.id) s = .next ((s.homeWrite .hub (.hbm pa) ((leBytes 8
      (if v = 0x8000000000000000 then 0x8000000000000000 else (v + 2 ^ 64 - 1) % 2 ^ 64)).map some)).finishJob p j none) := by
  have hheld : (range' 0 4).any (fun q => (s.part q).holds (.part p)) = false := by
    refine List.any_eq_false.mpr fun q hq => ?_
    rw [hno q (by have := (range'_mem 4 0 q hq).2; omega)]
    exact Bool.false_ne_true
  change execCompletionSignalPerformed p j.id s = _
  unfold execCompletionSignalPerformed
  rw [hj]
  dsimp only
  rw [hh]
  dsimp only
  rw [hheld, hd, if_neg (by decide), hread, leNat?_leBytes 8 v hv]
  dsimp only
  rw [sigApply_minus_one hv]

end

end Sys2Proof.Machine
end

section
/-! PROOF. What the launch unit does with the eligible records (O52). -/

namespace Sys2Proof.Machine

section
variable {s : State} {p : Fin 4} {n : Fin 64}

/-- The hub's fetches of the head records of every queue. -/
def State.fetchHeads (s : State) (p : Nat) : State := (range' 0 64).foldl (fun (s : State) n => s.fetchHead p n) s

theorem State.fetchHead_frame (s : State) (p n : Nat) : (s.fetchHead p n).parts = s.parts ∧ (s.fetchHead p n).cores = s.cores
    ∧ (s.fetchHead p n).hbm = s.hbm ∧ (s.fetchHead p n).mod = s.mod := by
  unfold State.fetchHead
  dsimp only
  split <;> exact ⟨rfl, rfl, rfl, rfl⟩

theorem State.fetchHeads_frame (s : State) (p : Nat) : (s.fetchHeads p).parts = s.parts ∧ (s.fetchHeads p).cores = s.cores
    ∧ (s.fetchHeads p).hbm = s.hbm ∧ (s.fetchHeads p).mod = s.mod := by
  refine foldl_keeps (fun t : State => t.parts = s.parts ∧ t.cores = s.cores ∧ t.hbm = s.hbm ∧ t.mod = s.mod) _ _ _
    ⟨rfl, rfl, rfl, rfl⟩ fun t m ht => ?_
  obtain ⟨h1, h2, h3, h4⟩ := ht
  obtain ⟨k1, k2, k3, k4⟩ := t.fetchHead_frame p m
  exact ⟨k1.trans h1, k2.trans h2, k3.trans h3, k4.trans h4⟩

theorem State.available_congr {u : State} (hm : u.mod = s.mod) (p : Nat) : u.available p = s.available p := by
  unfold State.available
  rw [hm]

theorem State.canLaunch_congr {u : State} (hp : u.parts = s.parts) (hm : u.mod = s.mod) (p : Nat) : u.canLaunch p = s.canLaunch p := by
  unfold State.canLaunch State.tested
  dsimp only
  rw [hm, State.part_congr hp]
  simp only [State.part_congr hp]

/-- An idle partition serves the record that the launch unit picks. -/
theorem exec_launchStart (h : s.canLaunch p = true) : exec (.launchStart p) s = match (s.part p).pick (s.part p).eligible with
    | none => .next (s.fetchHeads p)
    | some c => .next (match c.2.2 with
      | some l => ((s.fetchHeads p).startLaunch p (s.part p).eligible c l).tryLaunch p
      | none => ((s.fetchHeads p).setPart p ((s.part p).serve (s.part p).eligible c)).resumeHeld p) := by
  obtain ⟨hparts, -, -, hmod⟩ := s.fetchHeads_frame p
  have hpart := State.part_congr hparts p
  have hcan : (s.fetchHeads p).canLaunch p = true := (State.canLaunch_congr hparts hmod p).trans h
  change execLaunchStart p s = _
  unfold execLaunchStart
  extract_lets u x es
  have hu : u = s.fetchHeads p := rfl
  have hx : x = s.part p := hpart
  have hes : es = (s.part p).eligible := congrArg Part.eligible hx
  clear_value es x u
  rw [hu, hx, hes]
  refine (if_pos hcan).trans ?_
  cases (s.part p).pick (s.part p).eligible <;> rfl

theorem State.QueueStopped.of_parts {t t' : State} {err : Nat} (h : s.QueueStopped t p n err) (hp : t'.parts = t.parts) :
    s.QueueStopped t' p n err := by
  obtain ⟨h1, h2, h3, h4, h5, h6⟩ := h
  have hpart := State.part_congr hp p
  constructor
  all_goals rw [hpart]
  all_goals assumption

theorem State.refuseLaunch_stopped {u : State} (hu : u.parts = s.parts) (l : Launch) (e : Option LoadErr) :
    s.QueueStopped ((u.refuseLaunch p n l e).tryLaunch p) p n 3 := by
  have hpart := State.part_congr hu p
  unfold State.refuseLaunch
  dsimp only
  cases e with
  | none =>
    have hstop : s.QueueStopped (u.stopQueue p n 3 (u.queue p n).head) p n 3 :=
      State.stopQueue_stopped 3 _ (congrArg Part.queues hpart) (congrArg Part.aging hpart) (congrArg Part.served hpart)
    exact hstop.of_parts rfl
  | some e =>
    have hstop := State.queueFault_stopped 3 (e.image % 65536 * 65536 + e.word % 65536, e.pidx, e.infl, e.replayable, e.system)
      ⟨e.code, 3, none, e.src.map fun (x : Src) => { x with widx := e.image % 65536 * 65536 + e.word % 65536 }, e.detail, e.addr,
        e.ext⟩ hpart (n := n)
    exact hstop.of_parts rfl

theorem State.startLaunch_unavailable {u : State} {es : List Candidate} {lvl : Nat} {l : Launch} (h : u.available p = false) :
    u.startLaunch p es (lvl, n.val, some l) l = u.refuseLaunch p n l none := by
  unfold State.startLaunch
  dsimp only
  rw [h]
  exact if_pos rfl

theorem State.startLaunch_refused {u : State} {es : List Candidate} {lvl : Nat} {l : Launch} {e : LoadErr} (h : u.available p = true)
    (he : u.readLaunch p l = .error e) : u.startLaunch p es (lvl, n.val, some l) l = u.refuseLaunch p n l (some e) := by
  unfold State.startLaunch
  dsimp only
  rw [h, he]
  exact if_neg (by decide)

theorem State.startLaunch_loaded {u : State} {es : List Candidate} {lvl : Nat} {l : Launch} {t : PTable} {a g : List Byte}
    {w : Nat × Nat × Nat} (h : u.available p = true) (ht : u.readLaunch p l = .ok (t, a, g)) (hg : parseGroup g = some w)
    (hsys : l.system = true → t.phases.any (·.system) = true) : u.startLaunch p es (lvl, n.val, some l) l
      = (u.setPart p ((u.part p).serve es (lvl, n.val, some l))).startJob p n l t a w := by
  have hok : (l.system && !t.phases.any (·.system)) = false := by
    cases hl : l.system with
    | false => rfl
    | true => rw [hsys hl]; rfl
  unfold State.startLaunch
  dsimp only
  rw [h, ht]
  rw [if_neg (by decide)]
  dsimp only
  rw [hg]
  dsimp only
  rw [hok]
  exact if_neg (by decide)

end

end Sys2Proof.Machine
end

section
/-! PROOF. Fields of a slot object, and what the commit of a verdict leaves in them (R251, R321; O52). -/

namespace Sys2Proof.Machine

/-! ### Fields of byte lists -/

theorem patch_length {b v : List Byte} {off : Nat} (h : off + v.length ≤ b.length) : (patch b off v).length = b.length := by
  unfold patch
  simp only [List.length_append, List.length_take, List.length_drop]
  omega

theorem patch_getElem? {b v : List Byte} {off : Nat} (h : off + v.length ≤ b.length) (i : Nat) :
    (patch b off v)[i]? = if i < off then b[i]? else if i < off + v.length then v[i - off]? else b[i]? := by
  have hoff : (b.take off).length = off := List.length_take_of_le (by omega)
  unfold patch
  rw [List.append_assoc, List.getElem?_append, hoff]
  split
  next hi => exact List.getElem?_take_of_lt hi
  next hi =>
    rw [List.getElem?_append]
    by_cases hi' : i - off < v.length
    · rw [if_pos hi', if_pos (by omega)]
    · rw [if_neg hi', if_neg (by omega), List.getElem?_drop]
      congr 1
      omega

theorem slice_getElem? {b : List Byte} {lo n : Nat} (i : Nat) : (slice b lo n)[i]? = if i < n then b[lo + i]? else none := by
  unfold slice
  rw [List.getElem?_take, List.getElem?_drop]

/-- A field apart from the bytes that are put in is as it was. -/
theorem u_patch_apart {b v : List Byte} {off lo n : Nat} (h : off + v.length ≤ b.length) (hd : lo + n ≤ off ∨ off + v.length ≤ lo) :
    u (patch b off v) lo n = u b lo n := by
  refine congrArg leNat (List.ext_getElem? fun i => ?_)
  rw [slice_getElem?, slice_getElem?]
  split
  · rw [patch_getElem? h]
    split
    · rfl
    · exact if_neg (by omega)
  · rfl

/-- The bytes that are put in are read back. -/
theorem u_patch_same {b v : List Byte} {off : Nat} (h : off + v.length ≤ b.length) : u (patch b off v) off v.length = leNat v := by
  refine congrArg leNat (List.ext_getElem? fun i => ?_)
  rw [slice_getElem?]
  split
  · rw [patch_getElem? h, if_neg (by omega), if_pos (by omega), Nat.add_sub_cancel_left]
  next hi => exact (List.getElem?_eq_none (by omega)).symm

theorem leNat_leBytes (k : Nat) {v : Nat} (h : v < 2 ^ (8 * k)) : leNat (leBytes k v) = v := by
  induction k generalizing v with
  | zero => simp_all [leBytes, leNat]
  | succ k ih =>
    have hk : v / 256 < 2 ^ (8 * k) := by
      rw [Nat.mul_succ, Nat.pow_add] at h
      omega
    rw [leBytes, leNat, ih hk, BitVec.toNat_ofNat]
    exact Nat.mod_add_div v 256

theorem leNat_lt (b : List Byte) : leNat b < 2 ^ (8 * b.length) := by
  induction b with
  | nil => exact Nat.one_pos
  | cons x b ih =>
    have := x.isLt
    rw [leNat, List.length_cons, Nat.mul_succ, Nat.pow_add]
    omega

theorem u_lt (b : List Byte) (lo n : Nat) : u b lo n < 2 ^ (8 * n) :=
  Nat.lt_of_lt_of_le (leNat_lt _) (Nat.pow_le_pow_right (by decide) (Nat.mul_le_mul_left 8 (List.length_take_le n (b.drop lo))))

/-- A number put in a field is read back. -/
theorem u_patch_leBytes {b : List Byte} {off k v : Nat} (h : off + k ≤ b.length) (hv : v < 2 ^ (8 * k)) :
    u (patch b off (leBytes k v)) off k = v := by
  have hl := leBytes_length k v
  have := u_patch_same (b := b) (v := leBytes k v) (off := off) (by omega)
  rw [hl] at this
  exact this.trans (leNat_leBytes k hv)

/-- A byte put in is read back. -/
theorem u_patch_byte {b : List Byte} {off : Nat} {v : Byte} (h : off + 1 ≤ b.length) : u (patch b off [v]) off 1 = v.toNat :=
  (u_patch_same h).trans (Nat.add_zero _)

/-! ### The history of a slot object -/

/-- Ids joined to the history of a slot object, the first of them at position c (R251). -/
def joinHistory (c k : Nat) (ids : List Nat) (b : List Byte) : List Byte :=
  (place k ids).foldl (fun (b : List Byte) x => patch b (64 + 4 * ((c + x.1) % 64)) (leBytes 4 x.2)) b

theorem joinHistory_cons (c k i : Nat) (ids : List Nat) (b : List Byte) : joinHistory c k (i :: ids) b
    = joinHistory c (k + 1) ids (patch b (64 + 4 * ((c + k) % 64)) (leBytes 4 i)) := rfl

section
variable {c k : Nat} {ids : List Nat} {b : List Byte}

theorem joinHistory_length (h : b.length = 512) : (joinHistory c k ids b).length = 512 := by
  induction ids generalizing k b with
  | nil => exact h
  | cons i ids ih => exact ih ((patch_length (by rw [leBytes_length]; omega)).trans h)

/-- What is not of the history stays. -/
theorem u_joinHistory_outside {lo n : Nat} (h : b.length = 512) (hd : lo + n ≤ 64 ∨ 320 ≤ lo) :
    u (joinHistory c k ids b) lo n = u b lo n := by
  induction ids generalizing k b with
  | nil => rfl
  | cons i ids ih =>
    have hfit : 64 + 4 * ((c + k) % 64) + (leBytes 4 i).length ≤ b.length := by rw [leBytes_length]; omega
    rw [joinHistory_cons, ih ((patch_length hfit).trans h)]
    exact u_patch_apart hfit (by rw [leBytes_length]; omega)

/-- A position of the history that none of the ids takes stays. -/
theorem u_joinHistory_other {j : Nat} (h : b.length = 512) (hd : ∀ i, i < ids.length → (c + (k + i)) % 64 ≠ j % 64) :
    u (joinHistory c k ids b) (64 + 4 * (j % 64)) 4 = u b (64 + 4 * (j % 64)) 4 := by
  induction ids generalizing k b with
  | nil => rfl
  | cons i ids ih =>
    have hfit : 64 + 4 * ((c + k) % 64) + (leBytes 4 i).length ≤ b.length := by rw [leBytes_length]; omega
    have h0 := hd 0 (Nat.zero_lt_succ _)
    rw [joinHistory_cons, ih ((patch_length hfit).trans h) fun m hm => by
      have := hd (m + 1) (Nat.succ_lt_succ hm)
      rwa [show k + 1 + m = k + (m + 1) by omega]]
    exact u_patch_apart hfit (by rw [leBytes_length]; rw [Nat.add_zero] at h0; omega)

/-- Each id stands at its position of the history. -/
theorem u_joinHistory_at {i : Nat} (h : b.length = 512) (hlen : ids.length ≤ 64) (hi : i < ids.length) (hid : ids[i] < 2 ^ 32) :
    u (joinHistory c k ids b) (64 + 4 * ((c + (k + i)) % 64)) 4 = ids[i] := by
  induction ids generalizing k b i with
  | nil => cases hi
  | cons x ids ih =>
    have hfit : 64 + 4 * ((c + k) % 64) + 4 ≤ b.length := by omega
    have hl : (patch b (64 + 4 * ((c + k) % 64)) (leBytes 4 x)).length = 512 :=
      (patch_length (by rw [leBytes_length]; exact hfit)).trans h
    rw [List.length_cons] at hlen hi
    rw [joinHistory_cons]
    cases i with
    | zero =>
      rw [Nat.add_zero, u_joinHistory_other hl fun m hm => by omega]
      exact u_patch_leBytes hfit hid
    | succ i =>
      rw [show k + (i + 1) = k + 1 + i by omega]
      exact ih hl (by omega) (by omega) hid

end

end Sys2Proof.Machine
end

section
/-! PROOF. What the decode service commits and delivers (R321, R336, R337; O52). -/

namespace Sys2Proof.Machine

/-! ### The slot object after the verdict -/

/-- The ticket and the counts of a slot object. -/
def putCounts (b : List Byte) (ticket : W64) (c : Nat) : List Byte :=
  patch (patch (patch b 32 (leBytes 8 ticket.toNat)) 40 (leBytes 4 c)) 44 (leBytes 4 c)

/-- The overlay of a slot object, its first id and the number of drafts. -/
def putOverlay (b ov : List Byte) (n : Byte) (a g : Nat) : List Byte :=
  let b := patch (patch b 384 ov) 62 [n]
  if a < 3 then patch (patch b 384 (leBytes 4 g)) 62 [1] else patch b 62 [0]

section
variable {b v : List Byte} {off k lo m : Nat}

/-- A field of a slot object leaves its length. -/
theorem patch_slot (h : b.length = 512) (hv : v.length = k) (hk : off + k ≤ 512) : (patch b off v).length = 512 :=
  (patch_length (by rw [hv, h]; exact hk)).trans h

/-- A field of a slot object leaves the others. -/
theorem u_patch_slot (h : b.length = 512) (hv : v.length = k) (hk : off + k ≤ 512) (hd : lo + m ≤ off ∨ off + k ≤ lo) :
    u (patch b off v) lo m = u b lo m :=
  u_patch_apart (by rw [hv, h]; exact hk) (by rw [hv]; exact hd)

section
variable {ticket : W64} {c : Nat} (h : b.length = 512)
include h

theorem ticket_length : (patch b 32 (leBytes 8 ticket.toNat)).length = 512 := patch_slot h (leBytes_length ..) (by decide)

theorem first_length : (patch (patch b 32 (leBytes 8 ticket.toNat)) 40 (leBytes 4 c)).length = 512 :=
  patch_slot (ticket_length h) (leBytes_length ..) (by decide)

theorem putCounts_length : (putCounts b ticket c).length = 512 := patch_slot (first_length h) (leBytes_length ..) (by decide)

theorem u_putCounts_other (hd : lo + m ≤ 32 ∨ 48 ≤ lo) : u (putCounts b ticket c) lo m = u b lo m := by
  refine (u_patch_slot (first_length h) (leBytes_length ..) (by decide) (by omega)).trans ?_
  refine (u_patch_slot (ticket_length h) (leBytes_length ..) (by decide) (by omega)).trans ?_
  exact u_patch_slot h (leBytes_length ..) (by decide) (by omega)

theorem u_putCounts_ticket : u (putCounts b ticket c) 32 8 = ticket.toNat := by
  refine (u_patch_slot (first_length h) (leBytes_length ..) (by decide) (by decide)).trans ?_
  refine (u_patch_slot (ticket_length h) (leBytes_length ..) (by decide) (by decide)).trans ?_
  exact u_patch_leBytes (by rw [h]; decide) ticket.isLt

theorem u_putCounts_first (hc : c < 2 ^ 32) : u (putCounts b ticket c) 40 4 = c := by
  refine (u_patch_slot (first_length h) (leBytes_length ..) (by decide) (by decide)).trans ?_
  exact u_patch_leBytes (by rw [ticket_length h]; decide) hc

theorem u_putCounts_second (hc : c < 2 ^ 32) : u (putCounts b ticket c) 44 4 = c :=
  u_patch_leBytes (by rw [first_length h]; decide) hc

end

section
variable {ov : List Byte} {n : Byte} {a g : Nat} (h : b.length = 512) (hov : ov.length = 64)
include h hov

theorem moved_length : (patch (patch b 384 ov) 62 [n]).length = 512 :=
  patch_slot (patch_slot h hov (by decide)) (List.length_singleton ..) (by decide)

theorem greedy_length : (patch (patch (patch b 384 ov) 62 [n]) 384 (leBytes 4 g)).length = 512 :=
  patch_slot (moved_length h hov) (leBytes_length ..) (by decide)

theorem putOverlay_length : (putOverlay b ov n a g).length = 512 := by
  unfold putOverlay
  dsimp only
  split
  · exact patch_slot (greedy_length h hov) (List.length_singleton ..) (by decide)
  · exact patch_slot (moved_length h hov) (List.length_singleton ..) (by decide)

theorem u_putOverlay_other (hd : lo + m ≤ 62 ∨ (63 ≤ lo ∧ lo + m ≤ 384)) : u (putOverlay b ov n a g) lo m = u b lo m := by
  have hmoved : u (patch (patch b 384 ov) 62 [n]) lo m = u b lo m :=
    (u_patch_slot (patch_slot h hov (by decide)) (List.length_singleton ..) (by decide) (by omega)).trans
      (u_patch_slot h hov (by decide) (by omega))
  refine Eq.trans ?_ hmoved
  unfold putOverlay
  dsimp only
  split
  · refine (u_patch_slot (greedy_length h hov) (List.length_singleton ..) (by decide) (by omega)).trans ?_
    exact u_patch_slot (moved_length h hov) (leBytes_length ..) (by decide) (by omega)
  · exact u_patch_slot (moved_length h hov) (List.length_singleton ..) (by decide) (by omega)

theorem u_putOverlay_greedy (ha : a < 3) (hg : g < 2 ^ 32) :
    u (putOverlay b ov n a g) 384 4 = g ∧ u (putOverlay b ov n a g) 62 1 = 1 := by
  unfold putOverlay
  dsimp only
  rw [if_pos ha]
  refine ⟨?_, u_patch_byte (by rw [greedy_length h hov]; decide)⟩
  refine (u_patch_slot (greedy_length h hov) (List.length_singleton ..) (by decide) (by decide)).trans ?_
  exact u_patch_leBytes (by rw [moved_length h hov]; decide) hg

theorem u_putOverlay_none (ha : 3 ≤ a) : u (putOverlay b ov n a g) 62 1 = 0 := by
  unfold putOverlay
  dsimp only
  rw [if_neg (Nat.not_lt.mpr ha)]
  exact u_patch_byte (by rw [moved_length h hov]; decide)

end

/-- The object of a commit in its parts: history, counts, overlay. -/
theorem commitSlot_object (b : List Byte) (a g : Nat) (ticket : W64) : (commitSlot b a g ticket).1
    = putOverlay (putCounts (joinHistory (u b 44 4) 0 (tokensAt b 384 a) b) ticket ((u b 44 4 + a) % 2 ^ 32))
        ((overlay b).drop (4 * a) ++ (overlay b).take (4 * a)) (BitVec.ofNat 8 (u b 62 1 - a)) a g := by
  rfl

end

/-! ### What a commit leaves -/

theorem range'_map_range (k n : Nat) : range' k n = (List.range n).map fun i => k + i := by
  induction n generalizing k with
  | zero => rfl
  | succ n ih =>
    rw [List.range_succ_eq_map, List.map_cons, List.map_map, range', ih]
    refine congrArg (k :: ·) (List.map_congr_left fun i _ => ?_)
    exact (Nat.add_assoc k 1 i).trans (congrArg (k + ·) (Nat.add_comm 1 i))

theorem place_map_range {α : Type} (f : Nat → α) (c n k : Nat) :
    place (c + k) ((range' k n).map f) = (range' k n).map fun i => (c + i, f i) := by
  induction n generalizing k with
  | zero => rfl
  | succ n ih => exact congrArg ((c + k, f k) :: ·) (ih (k + 1))

theorem tokensAt_length (b : List Byte) (off n : Nat) : (tokensAt b off n).length = n := by
  unfold tokensAt
  rw [List.length_map, length_range']

theorem tokensAt_getElem (b : List Byte) (off n i : Nat) (h : i < (tokensAt b off n).length) :
    (tokensAt b off n)[i] = u b (off + 4 * i) 4 := by
  unfold tokensAt
  simp only [range'_map_range, List.map_map, List.getElem_map, List.getElem_range, Function.comp_apply, Nat.zero_add]

section
variable {b : List Byte} {a g : Nat} {ticket : W64}

theorem commitSlot_delivers : (commitSlot b a g ticket).2
    = (List.range a).map fun i => (u b (384 + 4 * i) 4, u b 44 4 + i, false) := by
  change (place (u b 44 4) (tokensAt b 384 a)).map (fun x => (x.2, x.1, false)) = _
  unfold tokensAt
  have := place_map_range (fun i => u b (384 + 4 * i) 4) (u b 44 4) a 0
  rw [Nat.add_zero] at this
  rw [this, range'_map_range, List.map_map, List.map_map]
  refine List.map_congr_left fun i _ => ?_
  simp only [Function.comp_apply, Nat.zero_add]

section
variable (h : b.length = 512) (ha : a ≤ 4)
include h ha

theorem movedOverlay_length : ((overlay b).drop (4 * a) ++ (overlay b).take (4 * a)).length = 64 := by
  have : (overlay b).length = 64 := by
    unfold overlay slice
    rw [List.length_take, List.length_drop, h]
    rfl
  rw [List.length_append, List.length_drop, List.length_take, this]
  omega

theorem commitSlot_length : (commitSlot b a g ticket).1.length = 512 := by
  rw [commitSlot_object]
  exact putOverlay_length (putCounts_length (joinHistory_length h)) (movedOverlay_length h ha)

/-- What is neither ticket, count, history, overlay nor number of drafts stays. -/
theorem u_commitSlot_other {lo m : Nat} (hd : 48 ≤ lo ∧ lo + m ≤ 62) : u (commitSlot b a g ticket).1 lo m = u b lo m := by
  rw [commitSlot_object, u_putOverlay_other (putCounts_length (joinHistory_length h)) (movedOverlay_length h ha) (by omega),
    u_putCounts_other (joinHistory_length h) (by omega), u_joinHistory_outside h (by omega)]

theorem commitSlot_history {i : Nat} (hi : i < a) :
    u (commitSlot b a g ticket).1 (64 + 4 * ((u b 44 4 + i) % 64)) 4 = u b (384 + 4 * i) 4 := by
  rw [commitSlot_object, u_putOverlay_other (putCounts_length (joinHistory_length h)) (movedOverlay_length h ha) (by omega),
    u_putCounts_other (joinHistory_length h) (by omega)]
  have hlen := tokensAt_length b 384 a
  have hget := tokensAt_getElem b 384 a i (by omega)
  have := u_joinHistory_at (c := u b 44 4) (k := 0) (ids := tokensAt b 384 a) (i := i) h (by omega) (by omega)
    (by rw [hget]; exact u_lt b _ 4)
  rwa [hget, Nat.zero_add] at this

theorem commitSlot_ticket : u (commitSlot b a g ticket).1 32 8 = ticket.toNat := by
  rw [commitSlot_object, u_putOverlay_other (putCounts_length (joinHistory_length h)) (movedOverlay_length h ha) (by decide),
    u_putCounts_ticket (joinHistory_length h)]

theorem commitSlot_counts : u (commitSlot b a g ticket).1 40 4 = (u b 44 4 + a) % 2 ^ 32
    ∧ u (commitSlot b a g ticket).1 44 4 = (u b 44 4 + a) % 2 ^ 32 := by
  have hc : (u b 44 4 + a) % 2 ^ 32 < 2 ^ 32 := Nat.mod_lt _ (by decide)
  have hov := movedOverlay_length h ha
  have hl := joinHistory_length h (c := u b 44 4) (k := 0) (ids := tokensAt b 384 a)
  rw [commitSlot_object, u_putOverlay_other (putCounts_length hl) hov (by decide),
    u_putOverlay_other (putCounts_length hl) hov (by decide)]
  exact ⟨u_putCounts_first hl hc, u_putCounts_second hl hc⟩

theorem commitSlot_greedy (h3 : a < 3) (hg : g < 2 ^ 32) :
    u (commitSlot b a g ticket).1 384 4 = g ∧ u (commitSlot b a g ticket).1 62 1 = 1 := by
  rw [commitSlot_object]
  exact u_putOverlay_greedy (putCounts_length (joinHistory_length h)) (movedOverlay_length h ha) h3 hg

theorem commitSlot_none (h3 : 3 ≤ a) : u (commitSlot b a g ticket).1 62 1 = 0 := by
  rw [commitSlot_object]
  exact u_putOverlay_none (putCounts_length (joinHistory_length h)) (movedOverlay_length h ha) h3

end

end

end Sys2Proof.Machine
end

section
/-! PROOF. The decode service at the service gate, and the events of launches (O52). -/

namespace Sys2Proof.Machine

section
variable {s : State} {p : Fin 4} {svo vb : Nat}

/-! ### The decode service (R321, R336, R337) -/

theorem exec_decodeService_elsewhere {items : List ServiceItem} (h : (s.part p).job = none ∨ s.atService p svo = false) :
    exec (.decodeService p items svo vb) s = .next s := by
  change execDecodeService p items svo vb s = _
  unfold execDecodeService
  cases hj : (s.part p).job with
  | none => rfl
  | some j =>
    have : s.atService p svo = false := h.resolve_left (by rw [hj]; exact fun e => nomatch e)
    dsimp only
    rw [this]
    exact if_pos rfl

/-- At the service gate the slots are served and the signal object is set. -/
theorem exec_decodeService_at {items : List ServiceItem} {j : Job} (hj : (s.part p).job = some j) (h : s.atService p svo = true) :
    exec (.decodeService p items svo vb) s
      = .next ((((place 0 items).mergeSort fun a b => decide (a.2.slot ≤ b.2.slot)).foldl
          (fun (s : State) i => s.serveSlot p i.2 (vb + 4096 * i.1)) s).devStore p svo (leBytes 8 (j.phase + 1))) := by
  change execDecodeService p items svo vb s = _
  unfold execDecodeService
  rw [hj]
  dsimp only
  rw [h]
  exact if_neg (by decide)

theorem State.serveSlot_unreadable {i : ServiceItem} {verdict : Nat} (h : s.devBytes p i.slotAddr 512 = none) :
    s.serveSlot p i verdict = s := by
  unfold State.serveSlot
  rw [h]

theorem State.serveSlots_unreadable (l : List (Nat × ServiceItem)) (h : ∀ x, x ∈ l → s.devBytes p x.2.slotAddr 512 = none) :
    l.foldl (fun (s : State) i => s.serveSlot p i.2 (vb + 4096 * i.1)) s = s := by
  induction l with
  | nil => rfl
  | cons x l ih =>
    rw [List.foldl_cons, State.serveSlot_unreadable (h x List.mem_cons_self)]
    exact ih fun y hy => h y (List.mem_cons_of_mem _ hy)

/-- A slot with nothing left to deliver is not parked. -/
theorem spillSlot_unparked {b : List Byte} (h : b.length = 512) (hfl : u b 60 1 % 4 = 1) :
    u (spillSlot b [] false) 60 1 / 2 % 2 = 0 := by
  have h1 : (patch b 320 []).length = 512 := patch_slot h rfl (by decide)
  have h2 : (patch (patch b 320 []) 61 [BitVec.ofNat 8 0]).length = 512 := patch_slot h1 rfl (by decide)
  have hf : u (patch b 320 []) 60 1 = u b 60 1 := u_patch_slot h rfl (by decide) (by decide)
  change u (patch (patch (patch b 320 []) 61 [BitVec.ofNat 8 0]) 60 [BitVec.ofNat 8 (u b 60 1 % 2 + 2 * 0 + 0)]) 60 1 / 2 % 2 = 0
  rw [u_patch_byte (by rw [h2]; decide), BitVec.toNat_ofNat]
  omega

/-- Tokens for which the ring has room are put there, and the object is unparked as it was. -/
theorem State.deliverTokens_room {i : ServiceItem} {b r : List Byte} {ds : List Deliver} {cap head tail : Nat}
    (hr : s.devBytes p (u b 48 8) 64 = some r) (hring : s.deliveryRing p (u b 48 8) r = some (cap, 0, head, tail))
    (h : b.length = 512) (hfl : u b 60 1 % 4 = 1) (hroom : ds.length ≤ cap - (tail + 2 ^ 64 - head) % 2 ^ 64) (hds : ds ≠ []) :
    s.deliverTokens p i b ds
      = (((place 0 ds).foldl (fun (s : State) x =>
          s.devStore p (u b 48 8 + 64 + 16 * ((tail + x.1) % cap)) (deliveryEntry i.slot x.2)) s).devStore p (u b 48 8 + 16)
            (leBytes 8 ((tail + ds.length) % 2 ^ 64))).devStore p i.slotAddr (spillSlot b [] false) := by
  have hwas : u b 60 1 / 2 % 2 = 0 := by omega
  have hne : ds.isEmpty = false := by
    cases ds with
    | nil => exact absurd rfl hds
    | cons => rfl
  unfold State.deliverTokens
  dsimp only
  rw [hr, Option.bind_some, hring]
  dsimp only
  rw [List.take_of_length_le hroom, List.drop_eq_nil_of_le hroom, spillSlot_unparked h hfl, hwas, if_pos rfl, hne]
  rfl

/-- A slot that is not parked, with an empty spill area, commits its verdict and delivers it. -/
theorem State.serveSlot_commits {i : ServiceItem} {b v : List Byte} {verdict : Nat} (hb : s.devBytes p i.slotAddr 512 = some b)
    (hv : s.devBytes p verdict 3088 = some v) (hfl : u b 60 1 % 4 = 1) (hn : u b 61 1 = 0) :
    s.serveSlot p i verdict = s.deliverTokens p i
      (commitSlot b (min 4 (u v 3072 4)) (u v (1024 * min 4 (u v 3072 4) + 16) 4) ((mapGet s.mod.tickets i.slot).getD 0)).1
      (commitSlot b (min 4 (u v 3072 4)) (u v (1024 * min 4 (u v 3072 4) + 16) 4) ((mapGet s.mod.tickets i.slot).getD 0)).2 := by
  unfold State.serveSlot
  rw [hb]
  dsimp only
  rw [if_neg (by omega), if_neg (by omega), hv]
  dsimp only
  rw [hn, Nat.min_zero, show tokensAt b 320 0 = [] from rfl, place, List.map_nil, List.nil_append]

/-- A batch of one slot. -/
theorem serveSlots_single (i : ServiceItem) : ((place 0 [i]).mergeSort fun a b => decide (a.2.slot ≤ b.2.slot)).foldl
    (fun (s : State) i => s.serveSlot p i.2 (vb + 4096 * i.1)) s = s.serveSlot p i vb := by
  rw [show place 0 [i] = [(0, i)] from rfl, List.mergeSort_singleton, List.foldl_cons, List.foldl_nil]
  dsimp only
  rw [Nat.mul_zero, Nat.add_zero]

end

/-- Settles O52, clause by clause from what the doorbells, the hub, the launch unit and the decode service do. -/
theorem launchEvents : Obligations.LaunchEvents := by
  unfold Obligations.LaunchEvents
  intro s p n tail enable l j svo vb part q on far stopped
  have hstop {i : Instr} {t : State} {err : Nat} (he : exec i s = .next t) (h : s.QueueStopped t p n err) : stopped i err :=
    ⟨t, he, h.qstate, h.err, h.tail, h.head, h.aging, h.served⟩
  have hstopQ (err : Nat) : s.QueueStopped (s.stopQueue p n err q.head) p n err := State.stopQueue_stopped _ _ rfl rfl rfl
  refine ⟨exec_doorbell_same, fun h hfar hq => ?_, exec_doorbell_near, exec_queueEnable_on, exec_queueResume_stopped,
    exec_queueSkip_stopped, fun hq hne hh => ?_, fun h v hl hg hok hq hh hv hread => ?_, fun hcan => ?_, exec_jobCompletion_plain,
    fun pa v hj hh hno hd hv hread => ?_, fun items => exec_decodeService_elsewhere, fun items hj hat hnone => ?_, ?_, ?_⟩
  · obtain ⟨t, ht, hs⟩ := exec_doorbell_far h hfar hq
    exact hstop ht hs
  · have hrun := exec_recordFetch_read hq hne hh
    refine ⟨fun hloc hno => ?_, fun hnone => ?_, fun b hb => ?_⟩
    · have hnone : s.headRecord p q = none := by
        unfold State.headRecord
        dsimp only
        rw [hloc, hno]
        rfl
      rw [hnone] at hrun
      exact hstop hrun (hstopQ 6)
    · rw [hnone] at hrun
      exact hstop hrun (hstopQ 6)
    · intro good
      rw [hb] at hrun
      dsimp only at hrun
      refine ⟨fun hbad h8 => ?_, fun hbad h8 => ?_, fun hgood hnone => ?_, fun hgood hsome => ?_⟩
      · rw [if_neg hbad, if_pos h8] at hrun
        exact hstop hrun (hstopQ 1)
      · rw [if_neg hbad, if_neg (Nat.not_le.mpr h8)] at hrun
        exact hrun
      · rw [if_pos hgood, hnone] at hrun
        exact hstop hrun (hstopQ 2)
      · rw [if_pos hgood, hsome] at hrun
        exact hrun
  · have hrun := exec_launchGate hl hg hok hq hh
    have hval : leNat? (s.homeRead h 8) = some v := by rw [hread]; exact leNat?_leBytes 8 v hv
    refine ⟨fun hvalid hc => ?_, fun hinv => ?_⟩
    · rw [(State.judgeObject_value hval hvalid).mpr hc] at hrun
      exact hrun
    · rw [State.judgeObject_invalid hval hinv] at hrun
      exact hstop hrun (State.queueFault_stopped 5 _ _ rfl)
  · obtain ⟨hparts, hcores, hhbm, hmod⟩ := s.fetchHeads_frame p
    have hrun := exec_launchStart hcan
    refine ⟨s.fetchHeads p, hparts, hcores, hhbm, fun hnone => ?_, fun lvl hpick => ?_⟩
    · rw [hnone] at hrun
      exact hrun
    · rw [hpick] at hrun
      dsimp only at hrun
      have hav := State.available_congr hmod p
      refine ⟨fun hno => ?_, fun e hyes he => ?_, fun t a g w hyes ht hg hsys => ?_⟩
      · rw [State.startLaunch_unavailable (hav.trans hno)] at hrun
        exact hstop hrun (State.refuseLaunch_stopped hparts l none)
      · rw [State.startLaunch_refused (hav.trans hyes) he] at hrun
        exact hstop hrun (State.refuseLaunch_stopped hparts l (some e))
      · rw [State.startLaunch_loaded (hav.trans hyes) ht hg hsys, State.part_congr hparts] at hrun
        exact hrun
  · have hrun := exec_completionSignal hj hh hno hd hv hread
    refine ⟨fun hne => ?_, fun heq => ?_⟩
    · rw [if_neg hne] at hrun
      exact hrun
    · rw [if_pos heq] at hrun
      exact hrun
  · rw [exec_decodeService_at hj hat, State.serveSlots_unreadable]
    intro x hx
    exact hnone x.2 (mem_place_ge items 0 x (List.mem_mergeSort.mp hx)).2.2
  · intro i b v r cap head tail hj hat hb hv hr hring hlen hfl hn a ring
    have ha4 : a ≤ 4 := Nat.min_le_left ..
    rcases hc : commitSlot b a (u v (1024 * a + 16) 4) ((mapGet s.mod.tickets i.slot).getD 0) with ⟨b', ds⟩
    intro hroom hpos put
    have hb' : b' = (commitSlot b a (u v (1024 * a + 16) 4) ((mapGet s.mod.tickets i.slot).getD 0)).1 := by rw [hc]
    have hds : ds = (commitSlot b a (u v (1024 * a + 16) 4) ((mapGet s.mod.tickets i.slot).getD 0)).2 := by rw [hc]
    have hl : ds.length = a := by rw [hds, commitSlot_delivers, List.length_map, List.length_range]
    have hring48 : u b' 48 8 = ring := by rw [hb']; exact u_commitSlot_other hlen ha4 (by decide)
    have hfl' : u b' 60 1 % 4 = 1 := by rw [hb', u_commitSlot_other hlen ha4 (by decide)]; exact hfl
    rw [exec_decodeService_at hj hat, serveSlots_single, State.serveSlot_commits hb hv hfl hn]
    change Host.Outcome.next ((s.deliverTokens p i (commitSlot b a _ _).1 (commitSlot b a _ _).2).devStore _ _ _) = _
    rw [← hb', ← hds, State.deliverTokens_room (by rw [hring48]; exact hr) (by rw [hring48]; exact hring)
      (by rw [hb']; exact commitSlot_length hlen ha4) hfl' (by rw [hl]; exact hroom)
      (by rintro rfl; exact absurd hl (by simp; omega)), hring48, hl]
  · intro b a g k hlen ha hg
    rcases hc : commitSlot b a g k with ⟨b', ds⟩
    have hb' : b' = (commitSlot b a g k).1 := by rw [hc]
    have hds : ds = (commitSlot b a g k).2 := by rw [hc]
    rw [hb', hds]
    obtain ⟨h40, h44⟩ := commitSlot_counts hlen ha (g := g) (ticket := k)
    exact ⟨commitSlot_delivers, fun i hi => commitSlot_history hlen ha hi, commitSlot_ticket hlen ha, h40, h44,
      fun h3 => commitSlot_greedy hlen ha h3 hg, commitSlot_none hlen ha⟩

end Sys2Proof.Machine
end

section
/-! PROOF. Start-up, a die that wakes, and recovery (R360, R362; O53). -/

namespace Sys2Proof.Machine

/-! ### Measurement -/

theorem Module.measure_mr (m : Module) (i : Fin 8) (b : List Byte) : ∃ mr, m.measure i b = { m with mr := mr } := ⟨_, rfl⟩

theorem Module.boot_mr (m : Module) (k : Nat) : ∃ mr, m.boot k = { m with mr := mr } := by
  unfold Module.boot
  dsimp only
  split <;> exact ⟨_, rfl⟩

/-- Measuring the images changes the measurement registers alone. -/
theorem Module.boots_mr (l : List Nat) (m : Module) : ∃ mr, l.foldl Module.boot m = { m with mr := mr } := by
  refine foldl_keeps (fun x : Module => ∃ mr, x = { m with mr := mr }) Module.boot l m ⟨m.mr, rfl⟩ fun x k hx => ?_
  obtain ⟨mr, rfl⟩ := hx
  exact Module.boot_mr _ k

/-- Which kinds load is a matter of the flash copies. -/
theorem Module.loads_congr {m m' : Module} (h : m'.rescued = m.rescued) (k : Nat) : m'.loads k = m.loads k := by
  unfold Module.loads Module.image
  rw [h]

/-! ### A die that is woken -/

/-- What the waking of dies leaves: everything but the agenda, to which it adds. -/
structure State.Waking (s t : State) : Prop where
  mod : t.mod = s.mod
  cores : t.cores = s.cores
  parts : t.parts = s.parts
  hbm : t.hbm = s.hbm
  now : t.now = s.now
  pgood : t.pgood = s.pgood
  agenda : ∀ e, e ∈ s.agenda → e ∈ t.agenda

theorem State.Waking.refl (s : State) : s.Waking s := ⟨rfl, rfl, rfl, rfl, rfl, rfl, fun _ h => h⟩

theorem State.Waking.trans {s t v : State} (h : s.Waking t) (g : t.Waking v) : s.Waking v :=
  ⟨g.mod.trans h.mod, g.cores.trans h.cores, g.parts.trans h.parts, g.hbm.trans h.hbm, g.now.trans h.now, g.pgood.trans h.pgood,
    fun e he => g.agenda e (h.agenda e he)⟩

theorem State.schedule_waking (s : State) (n : Nat) (e : Instr) : s.Waking (s.schedule n e) :=
  ⟨rfl, rfl, rfl, rfl, rfl, rfl, fun _ h => State.mem_schedule_of_mem h⟩

theorem State.wakeDie_waking (s : State) (d c : Nat) : s.Waking (s.wakeDie d c) :=
  foldl_keeps s.Waking _ _ _ ⟨rfl, rfl, rfl, rfl, rfl, rfl, fun _ h => h⟩ fun t i h => h.trans (t.schedule_waking _ _)

/-- The first core of a die is woken at the cycle given. -/
theorem State.wakeDie_first (s : State) (d c : Nat) (h : s.now ≤ c) :
    ∃ e b, e ∈ (s.wakeDie d c).agenda ∧ e.ev = .dieWake (Fin.ofNat 8 d) (0, b) ∧ e.cycle = c := by
  unfold State.wakeDie
  refine foldl_reaches (fun t : State => ∃ e b, e ∈ t.agenda ∧ e.ev = .dieWake (Fin.ofNat 8 d) (0, b) ∧ e.cycle = c)
    (fun t => t.now = s.now) _ _ 0 List.mem_cons_self _ rfl (fun t i ht => ht) (fun t i ht => ?_) fun t ht => ?_
  · obtain ⟨e, b, he, hev, hcyc⟩ := ht
    exact ⟨e, b, State.mem_schedule_of_mem he, hev, hcyc⟩
  · obtain ⟨e, he, hev, hcyc⟩ := t.mem_schedule (c + 400000 * 0) (.dieWake (Fin.ofNat 8 d)
      (Fin.ofNat 12 0, Config.failsTest t.fresh (12 * d + 0)))
    refine ⟨e, _, he, hev, hcyc.trans ?_⟩
    rw [ht, Nat.mul_zero, Nat.add_zero]
    exact Nat.max_eq_left h

/-! ### Start-up -/

/-- A module that starts: recovery where a kind does not load, else its dies wake and start-up is done in time. -/
def State.StartsAt (now : Nat) (t : State) : Prop :=
  t.mod.stage = 2 ∧ (t.mod.recovery = false ↔ ∀ k, k < 4 → t.mod.loads k = true)
    ∧ (t.mod.recovery = false → (∃ e, e ∈ t.agenda ∧ e.ev = .startupDone ∧ e.cycle = now + 336000000)
      ∧ ∀ d : Fin 8, ∃ e b, e ∈ t.agenda ∧ e.ev = .dieWake d (0, b) ∧ e.cycle = now + 72000000 + 32000000 * d.val)

/-- What a start leaves beside its own events. -/
structure State.Started (s : State) (keep : Module) (t : State) : Prop where
  life : t.mod.life = s.mod.life
  rescued : t.mod.rescued = s.mod.rescued
  sed : t.mod.sed = keep.sed
  hbm : t.hbm = s.hbm
  now : t.now = s.now
  pgood : t.pgood = s.pgood
  cores : t.cores = Vector.replicate 96 Core.reset
  starts : State.StartsAt s.now t

/-- The dies wake one after another, and the end of start-up is due. -/
def State.wakeAll (t : State) : State :=
  ((List.range 8).foldl (fun (t : State) d => t.wakeDie d (t.now + msec (90 + 40 * d))) t).schedule
    (((List.range 8).foldl (fun (t : State) d => t.wakeDie d (t.now + msec (90 + 40 * d))) t).now + msec 420) .startupDone

theorem State.wakeDies_waking (t : State) :
    t.Waking ((List.range 8).foldl (fun (t : State) d => t.wakeDie d (t.now + msec (90 + 40 * d))) t) :=
  foldl_keeps t.Waking _ _ _ (State.Waking.refl t) fun v d h => h.trans (v.wakeDie_waking _ _)

theorem State.wakeAll_waking (t : State) : t.Waking t.wakeAll := t.wakeDies_waking.trans (State.schedule_waking _ _ _)

theorem State.wakeAll_done (t : State) : ∃ e, e ∈ t.wakeAll.agenda ∧ e.ev = .startupDone ∧ e.cycle = t.now + 336000000 := by
  unfold State.wakeAll
  have hnow := t.wakeDies_waking.now
  generalize (List.range 8).foldl (fun (t : State) d => t.wakeDie d (t.now + msec (90 + 40 * d))) t = v at hnow ⊢
  obtain ⟨e, he, hev, hcyc⟩ := v.mem_schedule (v.now + msec 420) .startupDone
  refine ⟨e, he, hev, hcyc.trans ?_⟩
  rw [hnow]
  exact Nat.max_eq_left (Nat.le_add_right _ _)

theorem State.wakeAll_die (t : State) (d : Fin 8) :
    ∃ e b, e ∈ t.wakeAll.agenda ∧ e.ev = .dieWake d (0, b) ∧ e.cycle = t.now + 72000000 + 32000000 * d.val := by
  have hdie : ∃ e b, e ∈ ((List.range 8).foldl (fun (t : State) d => t.wakeDie d (t.now + msec (90 + 40 * d))) t).agenda
      ∧ e.ev = .dieWake d (0, b) ∧ e.cycle = t.now + 72000000 + 32000000 * d.val := by
    refine foldl_reaches (fun v : State => ∃ e b, e ∈ v.agenda ∧ e.ev = .dieWake d (0, b)
        ∧ e.cycle = t.now + 72000000 + 32000000 * d.val) (fun v => v.now = t.now) _ _ d.val (List.mem_range.mpr d.isLt) _ rfl
      (fun v i hv => (v.wakeDie_waking _ _).now.trans hv) (fun v i hv => ?_) fun v hv => ?_
    · obtain ⟨e, b, he, hev, hcyc⟩ := hv
      exact ⟨e, b, (v.wakeDie_waking _ _).agenda e he, hev, hcyc⟩
    · obtain ⟨e, b, he, hev, hcyc⟩ := v.wakeDie_first d.val (v.now + msec (90 + 40 * d.val)) (Nat.le_add_right _ _)
      refine ⟨e, b, he, hev.trans ?_, hcyc.trans ?_⟩
      · rw [show Fin.ofNat 8 d.val = d from Fin.ext (Nat.mod_eq_of_lt d.isLt)]
      · rw [hv]
        unfold msec
        omega
  obtain ⟨e, b, he, hev, hcyc⟩ := hdie
  exact ⟨e, b, State.mem_schedule_of_mem he, hev, hcyc⟩

/-- The state after the measurements of a start, before any event of it. -/
def State.measured (s : State) (m : Module) (good : Bool) : State :=
  { State.reset with
    mod := { m with stage := 2, recovery := !good }
    hbm := s.hbm, host := s.host, peer := s.peer, now := s.now, pgood := s.pgood
    agenda := s.agenda.filter (fun e => !isOwn e.ev), evSeq := s.evSeq, outputs := s.outputs, fresh := s.fresh + 1 }

theorem State.startUp_eq (s : State) (keep : Module) : ∃ mr, s.startUp keep
    = let m := { keep with life := s.mod.life, rescued := s.mod.rescued, jtag := .idcode, nonce := Config.random s.fresh, mr := mr }
      let t := s.measured m ((List.range 4).all m.loads)
      if (List.range 4).all m.loads then t.wakeAll else t := by
  obtain ⟨mr, hmr⟩ := Module.boots_mr (List.range 4)
    { keep with life := s.mod.life, rescued := s.mod.rescued, jtag := .idcode, nonce := Config.random s.fresh }
  unfold State.startUp
  extract_lets m0 m1 m2 good t0
  obtain ⟨mr', hmr'⟩ := m1.measure_mr 4 m1.lifeBytes
  have hm2 : m2 = { keep with
      life := s.mod.life, rescued := s.mod.rescued, jtag := .idcode, nonce := Config.random s.fresh, mr := mr' } := by
    change m1.measure 4 m1.lifeBytes = _
    rw [hmr']
    change { m1 with mr := mr' } = _
    rw [show m1 = _ from hmr]
  refine ⟨mr', ?_⟩
  rw [← hm2]
  rfl

theorem State.startUp_started (s : State) (keep : Module) : s.Started keep (s.startUp keep) := by
  obtain ⟨mr, hrun⟩ := s.startUp_eq keep
  rw [hrun]
  generalize hm : { keep with
    life := s.mod.life, rescued := s.mod.rescued, jtag := .idcode, nonce := Config.random s.fresh, mr := mr } = m
  have hlife : m.life = s.mod.life := by rw [← hm]
  have hresc : m.rescued = s.mod.rescued := by rw [← hm]
  have hsed : m.sed = keep.sed := by rw [← hm]
  dsimp only
  generalize hgood : (List.range 4).all m.loads = good
  have hall : (!good) = false ↔ ∀ k, k < 4 → (s.measured m good).mod.loads k = true := by
    rw [Bool.not_eq_false', ← hgood, List.all_eq_true]
    exact ⟨fun h k hk => h k (List.mem_range.mpr hk), fun h k hk => h k (List.mem_range.mp hk)⟩
  cases good with
  | false =>
    exact ⟨hlife, hresc, hsed, rfl, rfl, rfl, rfl, rfl, hall, fun h => nomatch h⟩
  | true =>
    obtain ⟨wmod, wcores, -, whbm, wnow, wpgood, -⟩ := (s.measured m true).wakeAll_waking
    refine ⟨?_, ?_, ?_, whbm, wnow, wpgood, wcores, ?_, ?_, fun _ => ⟨State.wakeAll_done _, State.wakeAll_die _⟩⟩
    all_goals rw [if_pos rfl, wmod]
    · exact hlife
    · exact hresc
    · exact hsed
    · rfl
    · exact hall

end Sys2Proof.Machine
end

section
/-! PROOF. The events of start-up and recovery (R360, R362; O53). -/

namespace Sys2Proof.Machine

section
variable {s : State}

theorem State.StartsAt.of_eq {now : Nat} {t t' : State} (h : State.StartsAt now t) (hstage : t'.mod.stage = t.mod.stage)
    (hrec : t'.mod.recovery = t.mod.recovery) (hresc : t'.mod.rescued = t.mod.rescued) (hag : t'.agenda = t.agenda) :
    State.StartsAt now t' := by
  unfold State.StartsAt at h ⊢
  rw [hstage, hrec, hag]
  simp only [Module.loads_congr hresc]
  exact h

/-- The state in which start-up begins at power good. -/
def State.poweredUp (s : State) : State :=
  { s with pgood := s.now }.startUp { Module.reset with flash := s.mod.flash, flashed := s.mod.flashed }

theorem exec_powerGood : ∃ t, exec .powerGood s = .next t ∧ t.pgood = s.now ∧ t.now = s.now ∧ t.mod.sed.length = 1
    ∧ t.mod.life = s.mod.life ∧ t.mod.rescued = s.mod.rescued ∧ t.hbm = s.hbm ∧ (∀ d : Fin 96, t.cores[d] = Core.reset)
    ∧ State.StartsAt s.now t := by
  have h := State.startUp_started { s with pgood := s.now } { Module.reset with flash := s.mod.flash, flashed := s.mod.flashed }
  have hrun : exec .powerGood s = .next (s.poweredUp.sedModule 0 false) := rfl
  change State.Started _ _ s.poweredUp at h
  generalize s.poweredUp = t at h hrun
  obtain ⟨hlife, hresc, hsed, hhbm, hnow, hpgood, hcores, hstarts⟩ := h
  refine ⟨_, hrun, hpgood, hnow, ?_, hlife, hresc, hhbm, fun d => ?_, hstarts.of_eq rfl rfl rfl rfl⟩
  · change ((_ :: t.mod.sed).take 4096).length = 1
    rw [hsed]
    rfl
  · change t.cores[d] = Core.reset
    rw [hcores]
    exact Vector.getElem_replicate _

/-! ### A die that wakes -/

theorem fin8_ofNat (k : Fin 8) : Fin.ofNat 8 k.val = k := Fin.ext (Nat.mod_eq_of_lt k.isLt)

/-- The quarters as they are reported once start-up is done. -/
def Module.reported (m : Module) : Module := if m.stage = 5 then { m with qavail := m.goodQuarters } else m

theorem Module.reported_frame (m : Module) : m.reported.powered = m.powered ∧ m.reported.fenced = m.fenced
    ∧ m.reported.stage = m.stage := by
  unfold Module.reported
  split <;> exact ⟨rfl, rfl, rfl⟩

theorem exec_dieWake (die : Fin 8) (core : Fin 12) (fails : Bool) : ∃ t, exec (.dieWake die (core, fails)) s = .next t
    ∧ t.mod.powered[die] = true
    ∧ (∀ d : Fin 96, d.val = 12 * die.val + core.val → t.cores[d] = (s.cores[d]).afterTest ∧ t.mod.fenced[d] = fails)
    ∧ (∀ d : Fin 96, d.val ≠ 12 * die.val + core.val → t.cores[d] = s.cores[d] ∧ t.mod.fenced[d] = s.mod.fenced[d])
    ∧ t.hbm = (if s.mod.stage ≤ 3 ∧ 12 * die.val + core.val = 0 then Mem.empty else s.hbm)
    ∧ ((12 * die.val + core.val) % 24 = 23 → (t.part ((12 * die.val + core.val) / 24)).tested = true)
    ∧ (s.mod.stage ≤ 3 → 12 * die.val + core.val = 95 → t.mod.stage = 4) := by
  have hrun : exec (.dieWake die (core, fails)) s = execDieWake die (core, fails) s := rfl
  rw [hrun]
  unfold execDieWake
  extract_lets s1 c s2 s3 s4 p s5
  have hc : c = 12 * die.val + core.val := rfl
  have hc96 : c < 96 := by omega
  obtain ⟨h1cores, h1mod, h1hbm⟩ : s1.cores = s.cores ∧ s1.mod = { s.mod with stage := if s.mod.stage < 3 then 3 else s.mod.stage }
      ∧ s1.hbm = s.hbm := by
    change (if _ then _ else _ : State).cores = _ ∧ (if _ then _ else _ : State).mod = _ ∧ (if _ then _ else _ : State).hbm = _
    by_cases h : s.mod.stage < 3
    · simp only [if_pos h]
      exact ⟨rfl, rfl, rfl⟩
    · simp only [if_neg h]
      exact ⟨trivial, trivial, trivial⟩
  have h3iff : s1.mod.stage = 3 ↔ s.mod.stage ≤ 3 := by
    rw [h1mod]
    dsimp only
    split <;> omega
  obtain ⟨h2cores, h2mod, h2hbm⟩ : s2.cores = s.cores ∧ s2.mod = s1.mod
      ∧ s2.hbm = if s.mod.stage ≤ 3 ∧ c = 0 then Mem.empty else s.hbm := by
    change (if _ then _ else _ : State).cores = _ ∧ (if _ then _ else _ : State).mod = _ ∧ (if _ then _ else _ : State).hbm = _
    simp only [h3iff]
    by_cases h : s.mod.stage ≤ 3 ∧ c = 0
    · simp only [if_pos h]
      exact ⟨h1cores, trivial, trivial⟩
    · simp only [if_neg h]
      exact ⟨h1cores, trivial, h1hbm⟩
  have h3cores : s3.cores = s.cores.set (Fin.ofNat 96 c) (s2.core c).afterTest := 
    congrArg (fun x : Vector Core 96 => x.set (Fin.ofNat 96 c) (s2.core c).afterTest) h2cores
  have h3core : s2.core c = s.core c := State.core_congr h2cores c
  rw [h3core] at h3cores
  have h3stage : s3.mod.stage = s1.mod.stage := by
    change s2.mod.stage = _
    rw [h2mod]
  have h3powered : s3.mod.powered[die] = true := Vector.getElem_set_self ..
  have h3fenced : s3.mod.fenced = s.mod.fenced.set (Fin.ofNat 96 c) fails := by
    change s2.mod.fenced.set _ _ = _
    rw [h2mod, h1mod]
  obtain ⟨h4cores, h4hbm, h4powered, h4fenced, h4stage⟩ : s4.cores = s3.cores ∧ s4.hbm = s3.hbm ∧ s4.mod.powered = s3.mod.powered
      ∧ s4.mod.fenced = s3.mod.fenced ∧ (s.mod.stage ≤ 3 → c = 95 → s4.mod.stage = 4) := by
    change (if _ then _ else _ : State).cores = _ ∧ (if _ then _ else _ : State).hbm = _ ∧ (if _ then _ else _ : State).mod.powered = _
      ∧ (if _ then _ else _ : State).mod.fenced = _ ∧ (_ → _ → (if _ then _ else _ : State).mod.stage = _)
    by_cases h : s3.mod.stage = 3 ∧ c = 95
    · simp only [if_pos h]
      exact ⟨rfl, rfl, rfl, rfl, fun _ _ => rfl⟩
    · simp only [if_neg h]
      exact ⟨trivial, trivial, trivial, trivial, fun h1 h2 => absurd ⟨h3stage.trans (h3iff.mpr h1), h2⟩ h⟩
  obtain ⟨h5cores, h5hbm, h5powered, h5fenced, h5stage, h5tested⟩ : s5.cores = s4.cores ∧ s5.hbm = s4.hbm
      ∧ s5.mod.powered = s4.mod.powered ∧ s5.mod.fenced = s4.mod.fenced ∧ s5.mod.stage = s4.mod.stage
      ∧ (c % 24 = 23 → (s5.part (c / 24)).tested = true) := by
    change (if _ then _ else _ : State).cores = _ ∧ (if _ then _ else _ : State).hbm = _ ∧ (if _ then _ else _ : State).mod.powered = _
      ∧ (if _ then _ else _ : State).mod.fenced = _ ∧ (if _ then _ else _ : State).mod.stage = _
      ∧ (_ → ((if _ then _ else _ : State).part _).tested = _)
    by_cases h : c % 24 = 23
    · simp only [if_pos h]
      have htested : (((s4.onPart (quarterOf c) fun x => { x with tested := true }).part (c / 24))).tested = true := by
        change ((s4.setPart (c / 24) _).part (c / 24)).tested = true
        rw [State.part_setPart_self]
      obtain ⟨hpow, hfen, hst⟩ := s4.mod.reported_frame
      exact ⟨rfl, rfl, hpow, hfen, hst, fun _ => htested⟩
    · simp only [if_neg h]
      exact ⟨trivial, trivial, trivial, trivial, trivial, fun h' => absurd h' h⟩
  have hcores : s5.cores = s.cores.set (Fin.ofNat 96 c) (s.core c).afterTest := (h5cores.trans h4cores).trans h3cores
  have hfenced : s5.mod.fenced = s.mod.fenced.set (Fin.ofNat 96 c) fails := (h5fenced.trans h4fenced).trans h3fenced
  refine ⟨_, rfl, ?_, fun d hd => ?_, fun d hd => ?_, ?_, h5tested, fun h1 h2 => h5stage.trans (h4stage h1 h2)⟩
  · change s5.mod.powered[die] = true
    rw [h5powered, h4powered]
    exact h3powered
  · have hd' : Fin.ofNat 96 c = d := Fin.ext ((Nat.mod_eq_of_lt hc96).trans hd.symm)
    change s5.cores[d] = _ ∧ s5.mod.fenced[d] = _
    have hcore : s.core c = s.cores[d] := by
      unfold State.core
      simp only [hd']
    rw [hcores, hfenced, hcore, vector_get_set, vector_get_set, if_pos hd'.symm, if_pos hd'.symm]
    exact ⟨rfl, rfl⟩
  · have hd' : d ≠ Fin.ofNat 96 c := fun e => hd ((congrArg Fin.val e).trans (Nat.mod_eq_of_lt hc96))
    change s5.cores[d] = _ ∧ s5.mod.fenced[d] = _
    rw [hcores, hfenced, vector_get_set, vector_get_set, if_neg hd', if_neg hd']
    exact ⟨rfl, rfl⟩
  · change s5.hbm = _
    rw [h5hbm, h4hbm]
    exact h2hbm

/-! ### The end of start-up -/

theorem fin96_ofNat (c : Fin 96) : Fin.ofNat 96 c.val = c := Fin.ext (Nat.mod_eq_of_lt c.isLt)

theorem mem_range'_of {a n x : Nat} (h1 : a ≤ x) (h2 : x < a + n) : x ∈ range' a n := by
  rw [range'_map_range]
  exact List.mem_map.mpr ⟨x - a, List.mem_range.mpr (by omega), by omega⟩

theorem goodQuarters_iff (m : Module) (q : Fin 4) :
    m.goodQuarters[q] = true ↔ ∀ c : Fin 96, c.val / 24 = q.val → m.fenced[c] = false := by
  unfold Module.goodQuarters
  rw [Fin.getElem_fin, Vector.getElem_ofFn, List.all_eq_true]
  dsimp only
  constructor
  · intro h c hc
    have := h c.val (mem_range'_of (by omega) (by omega))
    simp only [fin96_ofNat, Bool.not_eq_true'] at this
    exact this
  · intro h c hc
    obtain ⟨h1, h2⟩ := range'_mem 24 (24 * q.val) c hc
    rw [h (Fin.ofNat 96 c) (by
      have : (Fin.ofNat 96 c).val = c := Nat.mod_eq_of_lt (by omega)
      omega)]
    rfl

/-- The module with its quarters reported and the host port open. -/
def State.opened (s : State) : State :=
  (s.onMod fun m => { m with stage := 5, qavail := m.goodQuarters, hbAt := s.now }).sedModule 1 false

/-- The checks that the firmware makes from then on. -/
def State.checked (s : State) : State :=
  let s := (List.range 4).foldl (fun (s : State) p => s.schedule (s.now + msec 1) (.heartbeatCheck (Fin.ofNat 4 p))) s
  ((s.schedule (s.now + msec 1) .firmwareHeartbeat).schedule (s.now + msec 100) .heartbeatLoss).schedule
    (s.now + msec 10000) .undervoltStep

theorem State.checked_mod (s : State) : s.checked.mod = s.mod := by
  unfold State.checked
  dsimp only
  rw [State.schedule_mod, State.schedule_mod, State.schedule_mod]
  exact foldl_keeps (fun t : State => t.mod = s.mod) _ _ _ rfl fun t p h => h

theorem exec_startupDone : ∃ t, exec .startupDone s = .next t ∧ t.mod.stage = 5
    ∧ ∀ q : Fin 4, t.mod.qavail[q] = true ↔ ∀ c : Fin 96, c.val / 24 = q.val → s.mod.fenced[c] = false := by
  have hrun : exec .startupDone s = .next s.opened.checked := rfl
  have hstage : s.opened.mod.stage = 5 := rfl
  have hqavail : s.opened.mod.qavail = s.mod.goodQuarters := rfl
  refine ⟨_, hrun, ?_, fun q => ?_⟩
  · rw [State.checked_mod]
    exact hstage
  · simp only [State.checked_mod, hqavail]
    exact goodQuarters_iff s.mod q

/-! ### Recovery -/

theorem exec_recGo_idle (h : s.mod.recovery = false) : exec .recGo s = .next s := by
  change execRecGo s = _
  unfold execRecGo
  rw [h]
  exact if_pos rfl

/-- The first kind without an accepted copy. -/
theorem find_first {f : Nat → Bool} {k : Nat} (hk : k < 4) (hf : f k = true) (hlow : ∀ i, i < k → f i = false) :
    ((List.range 4).find? f).getD 0 = k := by
  have : (List.range 4).find? f = some k := List.find?_range_eq_some.mpr
    ⟨hf, List.mem_range.mpr hk, fun i hi => by rw [hlow i hi]; rfl⟩
  rw [this]
  rfl

theorem mapGet_mapSet_own {α : Type} (m : SMap α) (k : Nat) (v : α) : mapGet (mapSet m k v) k = some v := by
  induction m with
  | nil =>
    unfold mapSet mapGet
    rw [if_neg (Nat.lt_irrefl k), if_pos rfl]
  | cons c m ih =>
    obtain ⟨x, w⟩ := c
    unfold mapSet
    split
    · unfold mapGet
      rw [if_neg (Nat.lt_irrefl k), if_pos rfl]
    next hlt =>
      split
      next heq =>
        subst heq
        unfold mapGet
        rw [if_neg (Nat.lt_irrefl k), if_pos rfl]
      next hne =>
        unfold mapGet
        rw [if_neg hlt, if_neg hne]
        exact ih

/-- The candidate in recovery is judged as an image of the first kind that does not load. -/
theorem exec_recGo {k : Fin 8} (hk : k.val < 4) (hrec : s.mod.recovery = true) (hno : s.mod.loads k = false)
    (hlow : ∀ i, i < k.val → s.mod.loads i = true) : exec .recGo s
      = if imageGood k s.mod.candidate then .next (({ s with mod := { s.mod.measure k (imageBody s.mod.candidate) with
          rescued := mapSet s.mod.rescued k s.mod.candidate } } : State).restart)
        else .next { s with mod := s.mod.measure k (imageBody s.mod.candidate) } := by
  have hkind : ((List.range 4).find? fun k => !s.mod.loads k).getD 0 = k.val :=
    find_first hk (by rw [hno]; rfl) fun i hi => by rw [hlow i hi]; rfl
  change execRecGo s = _
  unfold execRecGo
  rw [hrec, if_neg (by decide)]
  dsimp only
  rw [hkind, fin8_ofNat]
  rfl

theorem exec_recGo_rejected {k : Fin 8} (hk : k.val < 4) (hrec : s.mod.recovery = true) (hno : s.mod.loads k = false)
    (hlow : ∀ i, i < k.val → s.mod.loads i = true) (hbad : imageGood k s.mod.candidate = false) :
    exec .recGo s = .next { s with mod := s.mod.measure k (imageBody s.mod.candidate) } := by
  rw [exec_recGo hk hrec hno hlow, hbad]
  exact if_neg Bool.false_ne_true

theorem State.restart_started (s : State) : s.Started s.mod.restarted s.restart := s.startUp_started _

theorem exec_recGo_accepted {k : Fin 8} (hk : k.val < 4) (hrec : s.mod.recovery = true) (hno : s.mod.loads k = false)
    (hlow : ∀ i, i < k.val → s.mod.loads i = true) (hgood : imageGood k s.mod.candidate = true) :
    ∃ t, exec .recGo s = .next t ∧ t.mod.rescued = mapSet s.mod.rescued k s.mod.candidate ∧ t.mod.loads k = true
      ∧ State.StartsAt s.now t := by
  rw [exec_recGo hk hrec hno hlow, hgood, if_pos rfl]
  have hresc0 : ({ s.mod.measure k (imageBody s.mod.candidate) with
    rescued := mapSet s.mod.rescued k s.mod.candidate } : Module).rescued = mapSet s.mod.rescued k s.mod.candidate := rfl
  generalize { s.mod.measure k (imageBody s.mod.candidate) with rescued := mapSet s.mod.rescued k s.mod.candidate } = m at hresc0
  obtain ⟨-, hresc, -, -, -, -, -, hstarts⟩ := State.restart_started { s with mod := m }
  have hresc' := hresc.trans hresc0
  refine ⟨_, rfl, hresc', ?_, hstarts⟩
  unfold Module.loads Module.image
  rw [hresc', mapGet_mapSet_own, Option.getD_some, hgood]
  rfl

end

end Sys2Proof.Machine
end

section
/-! PROOF. Attestation, management messages, debug unlock, boundary scan and fuses (R7, R363 to R367; O53). -/

namespace Sys2Proof.Machine

section
variable {s : State}

/-- A state with the module and the count of free values replaced. -/
def State.withMod (s : State) (m : Module) : State := { s with fresh := s.fresh + 1, mod := m }

/-! ### The SPDM responder (R7, R363, R364) -/

theorem State.spdm_answers (h : s.mod.spdmAnswers = true) (req resp : Nat) (reply : List Byte → List Byte)
    (keep : List Byte → Module → Module) : s.spdm req resp reply keep
      = .next ((s.withMod (keep (reply (Config.standardReply s.fresh)) s.mod)).emit (.spdm resp (reply (Config.standardReply s.fresh)))) := by
  unfold State.spdm
  rw [if_pos h]
  rfl

theorem State.spdm_refuses (h : s.mod.spdmAnswers = false) (req resp : Nat) (reply : List Byte → List Byte)
    (keep : List Byte → Module → Module) : s.spdm req resp reply keep = .next (s.emit (.spdmUnsupported req)) := by
  unfold State.spdm
  rw [h]
  exact if_neg Bool.false_ne_true

theorem spdmAnswers_of {m : Module} (h : m.life = .provisioned ∨ m.life = .field) : m.spdmAnswers = true := by
  unfold Module.spdmAnswers
  rcases h with h | h <;> rw [h] <;> rfl

theorem spdmAnswers_not {m : Module} (h : m.life = .manufacture ∨ m.life = .returned) : m.spdmAnswers = false := by
  unfold Module.spdmAnswers
  rcases h with h | h <;> rw [h] <;> rfl

/-- The device's identity key. -/
def identityKey : DsaKey :=
  dsaKeygen (shake256 (Config.uds ++ [70, 65, 56, 32, 105, 100, 101, 110, 116, 105, 116, 121]) 32)

/-- What the identity key signs of a transcript, with the random string at hand. -/
def State.signed (s : State) (challenge : Bool) (b : List Byte) : List Byte :=
  dsaSign identityKey (spdmSigned challenge b) (leBytes 32 (Config.random s.fresh).toNat)

theorem State.spdmSignature_eq (h : s.mod.spdmAnswers = true) (challenge : Bool) (b : List Byte) :
    s.spdmSignature challenge b = s.signed challenge b := by
  have hid : s.mod.identity = some identityKey := if_pos h
  unfold State.spdmSignature
  rw [hid]
  rfl

theorem certificateThere_iff (req : List Byte) :
    certificateThere req = true ↔ u req 2 1 % 16 = 0 ∧ u req 4 2 < Config.certificate.length := by
  unfold certificateThere
  rw [Bool.and_eq_true, beq_iff_eq, decide_eq_true_eq]

/-- The part of the certificate that a request asks for. -/
def certificatePart (req : List Byte) : List Byte :=
  let rest := Config.certificate.drop (u req 4 2)
  let part := rest.take (u req 6 2)
  [0x13, 0x02, 0, 0] ++ leBytes 2 part.length ++ leBytes 2 (rest.length - part.length) ++ part

theorem certificateReply_there {req : List Byte} (h : certificateThere req = true) : certificateReply req = certificatePart req := by
  unfold certificateReply
  rw [h]
  exact if_pos rfl

theorem certificateReply_not {req : List Byte} (h : certificateThere req = false) : certificateReply req = [0x13, 0x7F, 0x01, 0x00] := by
  unfold certificateReply
  rw [h]
  exact if_neg Bool.false_ne_true

/-- An index that is measured. -/
theorem exec_getMeasurements {i : Nat} (hi : i < 9 ∨ i = 0xFF) (sign : Option (List Byte)) : exec (.getMeasurements i sign) s
    = s.spdm 0xE0 0x60 (fun r => if sign.isSome then s.mod.measurements i r ++ s.spdmSignature false (s.mod.spdmVca ++ s.mod.spdmMeas
          ++ measurementsRequest i sign ++ s.mod.measurements i r) else s.mod.measurements i r)
        fun a m => { m with spdmMeas := if sign.isSome then [] else m.spdmMeas ++ measurementsRequest i sign ++ a } := by
  have hno : ¬ (9 ≤ i ∧ i < 0xFF) := by omega
  change execGetMeasurements i sign s = _
  unfold execGetMeasurements
  dsimp only
  rw [if_neg hno]

section
variable (h : s.mod.spdmAnswers = true)
include h

theorem exec_getVersion : exec .getVersion s = .next ((s.withMod { s.mod with
      spdmVca := [0x10, 0x84, 0, 0] ++ [0x10, 0x04, 0, 0, 0, 1, 0x00, 0x13], spdmCerts := [], spdmMeas := [] }).emit
    (.spdm 0x04 [0x10, 0x04, 0, 0, 0, 1, 0x00, 0x13])) := by
  change execGetVersion s = _
  unfold execGetVersion
  exact State.spdm_answers h _ _ _ _

theorem exec_getCapabilities : exec .getCapabilities s = .next ((s.withMod { s.mod with
      spdmVca := s.mod.spdmVca ++ Config.spdmRequest s.fresh ++ capabilitiesReply (Config.standardReply s.fresh) }).emit
    (.spdm 0x61 (capabilitiesReply (Config.standardReply s.fresh)))) := by
  change execGetCapabilities s = _
  unfold execGetCapabilities
  exact State.spdm_answers h _ _ _ _

theorem exec_negotiateAlgorithms : exec .negotiateAlgorithms s = .next ((s.withMod { s.mod with
      spdmVca := s.mod.spdmVca ++ Config.spdmRequest s.fresh ++ algorithmsReply (Config.standardReply s.fresh) }).emit
    (.spdm 0x63 (algorithmsReply (Config.standardReply s.fresh)))) := by
  change execNegotiateAlgorithms s = _
  unfold execNegotiateAlgorithms
  exact State.spdm_answers h _ _ _ _

theorem exec_getDigests : exec .getDigests s = .next ((s.withMod { s.mod with
      spdmCerts := s.mod.spdmCerts ++ [0x13, 0x81, 0, 0] ++ digestsReply }).emit (.spdm 0x01 digestsReply)) := by
  change execGetDigests s = _
  unfold execGetDigests
  exact State.spdm_answers h _ _ _ _

theorem exec_getCertificate_there {req : List Byte} (ht : certificateThere req = true) : exec (.getCertificate req) s
    = .next ((s.withMod { s.mod with spdmCerts := s.mod.spdmCerts ++ req ++ certificatePart req }).emit
        (.spdm 0x02 (certificatePart req))) := by
  change execGetCertificate req s = _
  unfold execGetCertificate
  rw [State.spdm_answers h, ht, certificateReply_there ht]
  rfl

theorem exec_getCertificate_not {req : List Byte} (ht : certificateThere req = false) : exec (.getCertificate req) s
    = .next ((s.withMod { s.mod with spdmCerts := s.mod.spdmCerts ++ req ++ [0x13, 0x7F, 0x01, 0x00] }).emit
        (.spdm 0x7F [0x13, 0x7F, 0x01, 0x00])) := by
  change execGetCertificate req s = _
  unfold execGetCertificate
  rw [State.spdm_answers h, ht, certificateReply_not ht]
  rfl

theorem exec_challenge (req : List Byte) : exec (.challenge req) s
    = .next ((s.withMod { s.mod with spdmCerts := [], spdmMeas := [] }).emit (.spdm 0x03 (Config.standardReply s.fresh
        ++ s.signed true (s.mod.spdmVca ++ s.mod.spdmCerts ++ req ++ Config.standardReply s.fresh)))) := by
  change execChallenge req s = _
  unfold execChallenge
  rw [State.spdm_answers h, State.spdmSignature_eq h]

theorem exec_getMeasurements_unsigned {i : Nat} (hi : i < 9 ∨ i = 0xFF) : exec (.getMeasurements i none) s
    = .next ((s.withMod { s.mod with
          spdmMeas := s.mod.spdmMeas ++ measurementsRequest i none ++ s.mod.measurements i (Config.standardReply s.fresh) }).emit
        (.spdm 0x60 (s.mod.measurements i (Config.standardReply s.fresh)))) := by
  rw [exec_getMeasurements hi]
  exact State.spdm_answers h _ _ _ _

theorem exec_getMeasurements_signed {i : Nat} (hi : i < 9 ∨ i = 0xFF) (req : List Byte) : exec (.getMeasurements i (some req)) s
    = .next ((s.withMod { s.mod with spdmMeas := [] }).emit (.spdm 0x60 (s.mod.measurements i (Config.standardReply s.fresh)
        ++ s.signed false (s.mod.spdmVca ++ s.mod.spdmMeas ++ measurementsRequest i (some req)
          ++ s.mod.measurements i (Config.standardReply s.fresh))))) := by
  rw [exec_getMeasurements hi, ← State.spdmSignature_eq h]
  exact State.spdm_answers h _ _ _ _

theorem exec_getMeasurements_none {i : Nat} (h9 : 9 ≤ i) (hff : i < 0xFF) (sign : Option (List Byte)) :
    exec (.getMeasurements i sign) s = .next ((s.withMod s.mod).emit (.spdm 0x7F [0x13, 0x7F, 0x01, 0x00])) := by
  change execGetMeasurements i sign s = _
  unfold execGetMeasurements
  dsimp only
  rw [if_pos ⟨h9, hff⟩]
  exact State.spdm_answers h _ _ _ _

end

section
variable (h : s.mod.spdmAnswers = false)
include h

/-- Where the life-cycle state forbids an answer, every request is unsupported. -/
theorem exec_versions_refused : exec .getVersion s = .next (s.emit (.spdmUnsupported 0x84))
    ∧ exec .getCapabilities s = .next (s.emit (.spdmUnsupported 0xE1))
    ∧ exec .negotiateAlgorithms s = .next (s.emit (.spdmUnsupported 0xE3)) := by
  change execGetVersion s = _ ∧ execGetCapabilities s = _ ∧ execNegotiateAlgorithms s = _
  unfold execGetVersion execGetCapabilities execNegotiateAlgorithms
  exact ⟨State.spdm_refuses h _ _ _ _, State.spdm_refuses h _ _ _ _, State.spdm_refuses h _ _ _ _⟩

theorem exec_certificates_refused (req : List Byte) : exec .getDigests s = .next (s.emit (.spdmUnsupported 0x81))
    ∧ exec (.getCertificate req) s = .next (s.emit (.spdmUnsupported 0x82))
    ∧ exec (.challenge req) s = .next (s.emit (.spdmUnsupported 0x83)) := by
  change execGetDigests s = _ ∧ execGetCertificate req s = _ ∧ execChallenge req s = _
  unfold execGetDigests execGetCertificate execChallenge
  exact ⟨State.spdm_refuses h _ _ _ _, State.spdm_refuses h _ _ _ _, State.spdm_refuses h _ _ _ _⟩

theorem exec_getMeasurements_refused (i : Nat) (sign : Option (List Byte)) :
    exec (.getMeasurements i sign) s = .next (s.emit (.spdmUnsupported 0xE0)) := by
  change execGetMeasurements i sign s = _
  unfold execGetMeasurements
  dsimp only
  split <;> exact State.spdm_refuses h _ _ _ _

end

/-! ### Management messages (R7, R366) -/

theorem u_cons_zero (c : Byte) (d : List Byte) : u (c :: d) 0 1 = c.toNat := by
  change c.toNat + 256 * leNat ((d.take 0)) = _
  rw [List.take_zero]
  exact Nat.add_zero _

theorem exec_mctp_sink {c : Byte} {d : List Byte} (h : c.toNat = Config.sinkCommand ∧ s.fwFeatures.getLsbD 2 = true) :
    exec (.mctpControlMessage (c :: d)) s = .next (s.emit (.traceSink s.mod.sink)) := by
  change execMctpControlMessage (c :: d) s = _
  unfold execMctpControlMessage
  dsimp only
  rw [u_cons_zero]
  exact if_pos h

/-- The reply to a control message, and the endpoint ID that it leaves. -/
theorem exec_mctp {c : Byte} {d : List Byte} (h : ¬ (c.toNat = Config.sinkCommand ∧ s.fwFeatures.getLsbD 2 = true)) :
    exec (.mctpControlMessage (c :: d)) s = .next ((s.withMod (if c.toNat = 1 ∧ d.length = 2 then
        { s.mod with eid := (s.mod.newEid d).getD s.mod.eid } else s.mod)).emit
      (.mctp c.toNat (s.mod.mctpReply c.toNat d (Config.standardReply s.fresh)))) := by
  change execMctpControlMessage (c :: d) s = _
  unfold execMctpControlMessage
  dsimp only
  rw [u_cons_zero, if_neg h]
  have hlen : (c :: d).length = 3 ↔ d.length = 2 := by
    rw [List.length_cons]
    omega
  simp only [hlen]
  unfold State.standard
  dsimp only
  by_cases h1 : c.toNat = 1 ∧ d.length = 2
  · rw [if_pos h1, if_pos h1]
    rfl
  · rw [if_neg h1, if_neg h1]
    rfl

/-- A message that does not set the endpoint ID. -/
theorem exec_mctp_other {c : Byte} {d : List Byte} (h : ¬ (c.toNat = Config.sinkCommand ∧ s.fwFeatures.getLsbD 2 = true))
    (h1 : c ≠ 1) : exec (.mctpControlMessage (c :: d)) s
      = .next ((s.withMod s.mod).emit (.mctp c.toNat (s.mod.mctpReply c.toNat d (Config.standardReply s.fresh)))) := by
  rw [exec_mctp h, if_neg fun e => h1 (BitVec.eq_of_toNat_eq e.1)]

theorem newEid_set {m : Module} {a e : Byte} (ha : a.toNat % 4 < 2) (h8 : 8 ≤ e.toNat) (h255 : e.toNat < 255) :
    m.newEid [a, e] = some e := by
  have h1 : u [a, e] 1 1 = e.toNat := Nat.add_zero _
  have h0 : u [a, e] 0 1 = a.toNat := Nat.add_zero _
  unfold Module.newEid
  rw [h1, h0]
  dsimp only
  have h01 : a.toNat % 4 = 0 ∨ a.toNat % 4 = 1 := by omega
  rcases h01 with h | h <;> simp only [h, h8, h255, and_self, if_true, BitVec.ofNat_toNat, BitVec.setWidth_eq]

theorem mctpReply_types (m : Module) (t : Byte) (r : List Byte) : m.mctpReply 4 [t] r
    = if t = 0xFF ∨ t = 0 ∨ t = 1 ∨ t = 5 then [0, 1] ++ (padTo 4 r).take 4 else [0x80] := by
  have h0 : u [t] 0 1 = t.toNat := Nat.add_zero _
  have hmem : [0xFF, 0, 1, 5].contains (u [t] 0 1) = true ↔ t = 0xFF ∨ t = 0 ∨ t = 1 ∨ t = 5 := by
    rw [h0]
    revert t
    decide
  change (if [t].length ≠ 1 then [3] else if [0xFF, 0, 1, 5].contains (u [t] 0 1) = true then [0, 1] ++ (padTo 4 r).take 4
    else [0x80]) = _
  rw [if_neg (fun h => h rfl)]
  exact ite_congr (propext hmem) (fun _ => rfl) (fun _ => rfl)

theorem mctpReply_other (m : Module) (n : Nat) (d r : List Byte) (h1 : n ≠ 1) (h2 : n ≠ 2) (h4 : n ≠ 4) (h5 : n ≠ 5) :
    m.mctpReply n d r = [5] := by
  unfold Module.mctpReply
  split
  · exact absurd rfl h1
  · exact absurd rfl h2
  · exact absurd rfl h4
  · exact absurd rfl h5
  · rfl

end

end Sys2Proof.Machine
end

section
/-! PROOF. Debug unlock, and start-up and trust together (O53). -/

namespace Sys2Proof.Machine

section
variable {s : State}

/-! ### Debug unlock (R365, R366) -/

/-- The token at the address given, as the module reads it. -/
def State.token (s : State) : List Byte := (s.homeRead (.host s.mod.dbgTok.toNat) 3437).map fun x => x.getD 0

/-- The module with a fresh nonce. -/
def State.renonced (s : State) : Module := { s.mod with nonce := Config.random s.fresh }

theorem exec_dbgGo_unreadable (h : ¬ (s.mod.dbgTok.toNat % 8 = 0 ∧ Config.hostCompletes s.now s.mod.dbgTok.toNat = true)) :
    exec .dbgGo s = .next (s.withMod { s.renonced with dbgRes := 6 }) := by
  have hno : s.mod.dbgTok.toNat % 8 ≠ 0 ∨ Config.hostCompletes s.now s.mod.dbgTok.toNat = false := by
    rw [← Bool.not_eq_true, ← Classical.not_and_iff_not_or_not]
    exact h
  change execDbgGo s = _
  unfold execDbgGo
  exact if_pos hno

theorem exec_dbgGo_read (h : s.mod.dbgTok.toNat % 8 = 0 ∧ Config.hostCompletes s.now s.mod.dbgTok.toNat = true) :
    exec .dbgGo s = if s.mod.tokenCheck s.token ≠ 0 then
        .next (s.withMod { s.renonced with dbgRes := BitVec.ofNat 8 (s.mod.tokenCheck s.token) })
      else .next (s.withMod (
        let m := { s.renonced with dbgRes := 0 }.measure 5 s.token
        if u s.token 6 1 = 0 then { m with openPart := m.openPart ||| BitVec.ofNat 4 (u s.token 8 1) }
        else { m with openFw := m.openFw ||| BitVec.ofNat 4 (u s.token 8 1) })) := by
  have hno : ¬ (s.mod.dbgTok.toNat % 8 ≠ 0 ∨ Config.hostCompletes s.now s.mod.dbgTok.toNat = false) := by
    rw [← Bool.not_eq_true, ← Classical.not_and_iff_not_or_not, Classical.not_not]
    exact h
  change execDbgGo s = _
  unfold execDbgGo
  exact if_neg hno

theorem exec_dbgGo_accepted (h : s.mod.dbgTok.toNat % 8 = 0 ∧ Config.hostCompletes s.now s.mod.dbgTok.toNat = true)
    (hok : s.mod.tokenCheck s.token = 0) : exec .dbgGo s = .next (s.withMod { s.renonced with
      dbgRes := 0, mr := s.mod.mr.set 5 (shake256 (s.mod.mr[5] ++ shake256 s.token 64) 64)
      openPart := if u s.token 6 1 = 0 then s.mod.openPart ||| BitVec.ofNat 4 (u s.token 8 1) else s.mod.openPart
      openFw := if u s.token 6 1 = 0 then s.mod.openFw else s.mod.openFw ||| BitVec.ofNat 4 (u s.token 8 1) }) := by
  rw [exec_dbgGo_read h, if_neg (Classical.not_not.mpr hok)]
  dsimp only
  by_cases hp : u s.token 6 1 = 0
  · rw [if_pos hp, if_pos hp, if_pos hp]
    rfl
  · rw [if_neg hp, if_neg hp, if_neg hp]
    rfl

/-- A token that passes every check. -/
theorem tokenCheck_zero {m : Module} {b : List Byte} (h : m.tokenCheck b = 0) : u b 0 4 = 0x444B5431 ∧ u b 4 2 = 1
    ∧ u b 80 32 = m.nonce.toNat ∧ keyVerifies false (b.take 128) (b.drop 128) = true
    ∧ ∃ k, m.identity = some k ∧ slice b 16 64 = shake256 k.pk 64 := by
  unfold Module.tokenCheck at h
  split at h
  · exact absurd h (by decide)
  next h1 =>
    split at h
    · exact absurd h (by decide)
    next h2 =>
      split at h
      · exact absurd h (by decide)
      next h3 =>
        split at h
        · exact absurd h (by decide)
        next h4 =>
          split at h
          · exact absurd h (by decide)
          next h5 =>
            rw [not_or, Classical.not_not, Classical.not_not] at h1
            rw [Bool.not_eq_true, Bool.not_eq_false'] at h5
            obtain ⟨k, hk, hpk⟩ := Option.map_eq_some_iff.mp (Classical.not_not.mp h3).symm
            exact ⟨h1.1, h1.2, Classical.not_not.mp h4, h5, k, hk, hpk.symm⟩

/-! ### Boundary scan and fuses (R364) -/

theorem scanOpen_iff (m : Module) :
    m.scanOpen = true ↔ m.life ≠ .field ∨ m.openPart.getLsbD 3 = true ∨ m.openFw.getLsbD 3 = true := by
  unfold Module.scanOpen
  rw [Bool.or_eq_true, bne_iff_ne, BitVec.getLsbD_or, Bool.or_eq_true]

theorem State.scan_eq (j : Jtag) : s.scan j = .next { s with mod := { s.mod with
    jtag := if s.mod.life ≠ .field ∨ s.mod.openPart.getLsbD 3 = true ∨ s.mod.openFw.getLsbD 3 = true then j else .bypass } } := by
  unfold State.scan State.onMod
  simp only [scanOpen_iff]

theorem exec_lifeCycleFuse (state : LifeCycle) (token : Bool) : exec (.lifeCycleFuse state token) s
    = .next (if lifeNo state = lifeNo s.mod.life + 1 ∧ (state = .returned → token = true) then
        { s with mod := { s.mod with life := state } } else s) := by
  have hiff : (lifeNo state = lifeNo s.mod.life + 1 ∧ (state ≠ .returned ∨ token = true))
      ↔ (lifeNo state = lifeNo s.mod.life + 1 ∧ (state = .returned → token = true)) := by
    rw [Decidable.imp_iff_not_or]
  change Host.Outcome.next (if lifeNo state = lifeNo s.mod.life + 1 ∧ (state ≠ .returned ∨ token = true) then _ else _) = _
  exact congrArg Host.Outcome.next (ite_congr (propext hiff) (fun _ => rfl) (fun _ => rfl))

theorem exec_pcieConfigRequest : exec .pcieConfigRequest s = .next (s.emit
    (if s.mod.stage < 5 ∧ s.mod.recovery = false then .requestRetry else .configDone s.mod.portCaps)) := by
  have hiff : (decide (s.mod.stage < 5) && !s.mod.recovery) = true ↔ s.mod.stage < 5 ∧ s.mod.recovery = false := by
    rw [Bool.and_eq_true, decide_eq_true_eq, Bool.not_eq_true']
  change Host.Outcome.next (s.emit (if (decide (s.mod.stage < 5) && !s.mod.recovery) = true then _ else _)) = _
  exact congrArg (fun o => Host.Outcome.next (s.emit o)) (ite_congr (propext hiff) (fun _ => rfl) (fun _ => rfl))

end

/-- Settles O53: start-up and recovery by what each event leaves of the module, the SPDM responder by whether the life-cycle state
lets it answer, and debug unlock by the checks of a token. -/
theorem startupAndTrustEvents : Obligations.StartupAndTrustEvents := by
  unfold Obligations.StartupAndTrustEvents
  intro s die core fails token req state n m r c at_ said refused scans starts
  refine ⟨exec_powerGood, exec_dieWake die core fails, exec_startupDone, exec_recGo_idle, fun k hk hrec hno hlow =>
    ⟨exec_recGo_rejected hk hrec hno hlow, exec_recGo_accepted hk hrec hno hlow⟩, exec_pcieConfigRequest, ⟨rfl, rfl, rfl, rfl⟩,
    fun hlife => ?_, fun hlife => ?_, rfl, fun c d => ?_, ?_, rfl, rfl, State.scan_eq _, State.scan_eq _, State.scan_eq _,
    State.scan_eq _, State.scan_eq _, exec_lifeCycleFuse state token⟩
  · intro version a signed asked
    have hans := spdmAnswers_of hlife
    refine ⟨exec_getVersion hans, exec_getCapabilities hans, exec_negotiateAlgorithms hans, exec_getDigests hans, ⟨fun h0 hlt => ?_, fun hno => ?_⟩, exec_challenge hans req, fun i hi =>
      ⟨exec_getMeasurements_unsigned hans hi, exec_getMeasurements_signed hans hi req⟩, fun h9 hff =>
      ⟨exec_getMeasurements_none hans h9 hff none, exec_getMeasurements_none hans h9 hff (some req)⟩⟩
    · exact exec_getCertificate_there hans ((certificateThere_iff req).mpr ⟨h0, hlt⟩)
    · refine exec_getCertificate_not hans (Bool.eq_false_iff.mpr fun e => ?_)
      obtain ⟨h0, hlt⟩ := (certificateThere_iff req).mp e
      exact hno.elim (fun h => h h0) (fun h => absurd hlt (Nat.not_lt.mpr h))
  · have hans := spdmAnswers_not hlife
    obtain ⟨h1, h2, h3⟩ := exec_versions_refused hans
    obtain ⟨h4, h5, h6⟩ := exec_certificates_refused hans req
    exact ⟨h1, h2, h3, h4, h5, h6,
      exec_getMeasurements_refused hans n none, exec_getMeasurements_refused hans n (some req)⟩
  · intro i reads
    refine ⟨exec_mctp_sink, fun hno => ⟨⟨_, exec_mctp hno⟩, fun a e hc hd ha h8 h255 => ?_, fun hc => ?_, fun t hc hd =>
      ⟨fun ht => ?_, fun h1 h2 h3 h4 => ?_⟩, fun hc => ?_, fun h1 h2 h4 h5 => ?_⟩⟩
    · subst hc hd
      have hrun := exec_mctp (d := [a, e]) hno
      have hnew := newEid_set (m := s.mod) ha h8 h255
      have hreply : s.mod.mctpReply 1 [a, e] r = [0, 0, e, 0] := by
        change (if [a, e].length ≠ 2 then [3] else match s.mod.newEid [a, e] with
          | some e => [0, 0, e, 0]
          | none => [2]) = _
        rw [hnew]
        rfl
      rw [if_pos ⟨rfl, rfl⟩, hnew] at hrun
      refine hrun.trans ?_
      change Host.Outcome.next ((at_ { m with eid := e }).emit (.mctp 1 (s.mod.mctpReply 1 [a, e] r))) = _
      rw [hreply]
    · subst hc
      exact exec_mctp_other hno (by decide)
    · subst hc hd
      refine (exec_mctp_other hno (by decide)).trans ?_
      change Host.Outcome.next ((at_ m).emit (.mctp 4 (s.mod.mctpReply 4 [t] r))) = _
      rw [mctpReply_types, if_pos ht]
    · subst hc hd
      refine (exec_mctp_other hno (by decide)).trans ?_
      change Host.Outcome.next ((at_ m).emit (.mctp 4 (s.mod.mctpReply 4 [t] r))) = _
      rw [mctpReply_types, if_neg (by simp only [h1, h2, h3, h4, or_self, not_false_eq_true])]
    · subst hc
      exact exec_mctp_other hno (by decide)
    · have hne {k : Byte} (h : c ≠ k) : c.toNat ≠ k.toNat := fun e => h (BitVec.eq_of_toNat_eq e)
      refine (exec_mctp_other hno h1).trans ?_
      rw [mctpReply_other s.mod c.toNat d _ (hne h1) (hne h2) (hne h4) (hne h5)]
      rfl
  · intro m' b readable f
    exact ⟨exec_dbgGo_unreadable, fun hr hbad => (exec_dbgGo_read hr).trans (if_pos hbad), exec_dbgGo_accepted, tokenCheck_zero⟩

end Sys2Proof.Machine
end

section
/-! PROOF. Power samples, and the diodes with the shutdown of a thermal trip (R373, R375, R378; O54). -/

namespace Sys2Proof.Machine

section
variable {s : State}

/-! ### Power samples (R373, R374) -/

/-- What the entries about power leave of the module. -/
structure State.PowerKept (s t : State) : Prop where
  p100 : t.mod.p100 = s.mod.p100
  p1ms : t.mod.p1ms = s.mod.p1ms
  samples : t.mod.samples = s.mod.samples
  cpow : t.mod.cpow = s.mod.cpow
  riseAt : t.mod.riseAt = s.mod.riseAt
  now : t.now = s.now

theorem State.overEnds_kept (s : State) (watts : Nat) : s.PowerKept (s.overEnds watts) := by
  unfold State.overEnds
  split
  · dsimp only
    split <;> exact ⟨rfl, rfl, rfl, rfl, rfl, rfl⟩
  · exact ⟨rfl, rfl, rfl, rfl, rfl, rfl⟩

/-- The samples of the last millisecond. -/
def Module.sampled (m : Module) (mw : Nat) : List Nat := (mw :: m.samples).take 10

/-- The rise of the power cadence, its fall, or neither. -/
def State.stepPower (s : State) (watts : Nat) (rise fall : Bool) : State :=
  if rise then (s.onMod fun m => { m with cpow := m.cpow + 1, cpowAt := some s.now, riseAt := some s.now }).sedPower watts 0 0
  else if fall then (s.onMod fun m => { m with cpow := m.cpow - 1, cpowAt := some s.now }).sedPower watts 1 0
  else s

theorem State.stepPower_samples (watts : Nat) (rise fall : Bool) : (s.stepPower watts rise fall).mod.p100 = s.mod.p100
    ∧ (s.stepPower watts rise fall).mod.p1ms = s.mod.p1ms ∧ (s.stepPower watts rise fall).mod.samples = s.mod.samples := by
  cases rise <;> cases fall <;> exact ⟨rfl, rfl, rfl⟩

/-- Whether the power cadence rises on a sample. -/
def Module.rises (m : Module) (mw now : Nat) : Bool :=
  decide (1000 * m.limit < mw ∧ m.cpow < 4 ∧ (match m.riseAt with | some c => decide (c + msec 1 ≤ now) | none => true) = true)

/-- Whether the power cadence may fall. -/
def Module.falls (m : Module) (now : Nat) : Bool :=
  decide (1 < m.cpow ∧ (match if m.lowPower then some (m.lowFrom.getD now) else none with
    | some c => decide (max c (m.cpowAt.getD 0) + msec 10 ≤ now)
    | none => false) = true)

/-- The module with a sample joined to those of the last millisecond. -/
def State.sampledMod (s : State) (mw : Nat) : Module := (s.sample mw).mod

/-- A power sample: the sample joins those of the last millisecond, then the cadence steps. -/
theorem exec_powerSample_eq (watts : Nat) (milli : Fin 1000) : ∃ v, exec (.powerSample watts milli) s
      = .next (v.stepPower watts ((s.sampledMod (1000 * watts + milli.val)).rises (1000 * watts + milli.val) s.now)
          ((s.sampledMod (1000 * watts + milli.val)).falls s.now))
    ∧ (s.sample (1000 * watts + milli.val)).PowerKept v := by
  change ∃ v, execPowerSample watts milli s = _ ∧ _
  unfold execPowerSample
  extract_lets mw s1 m s2 low s3 rested quiet
  have hkept : s1.PowerKept s2 := by
    change s1.PowerKept (if _ then _ else _)
    split
    · exact ⟨rfl, rfl, rfl, rfl, rfl, rfl⟩
    · exact s1.overEnds_kept watts
  have hnow : s3.now = s.now := hkept.now
  have hrises : m.rises mw s.now = decide (1000 * m.limit < mw ∧ m.cpow < 4 ∧ rested = true) :=
    (congrArg (m.rises mw) hnow.symm).trans rfl
  have hfalls : m.falls s.now = decide (1 < m.cpow ∧ quiet = true) := (congrArg m.falls hnow.symm).trans rfl
  refine ⟨s3, ?_, hkept.p100, hkept.p1ms, hkept.samples, hkept.cpow, hkept.riseAt, hkept.now⟩
  change _ = Host.Outcome.next (s3.stepPower watts (m.rises mw s.now) (m.falls s.now))
  unfold State.stepPower
  rw [hrises, hfalls]
  by_cases hr : 1000 * m.limit < mw ∧ m.cpow < 4 ∧ rested = true
  · rw [if_pos hr, decide_eq_true hr]
    rfl
  · rw [if_neg hr, decide_eq_false hr]
    by_cases hf : 1 < m.cpow ∧ quiet = true
    · rw [if_pos hf, decide_eq_true hf]
      rfl
    · rw [if_neg hf, decide_eq_false hf]
      rfl

theorem sampled_length (m : Module) (mw : Nat) : 0 < (m.sampled mw).length := by
  unfold Module.sampled
  rw [List.length_take, List.length_cons]
  omega

theorem exec_powerSample (watts : Nat) (milli : Fin 1000) :
    let m := s.mod
    let limit := max 800 (min 2200 m.pwrLim.toNat)
    let mw := 1000 * watts + milli.val
    let last := m.sampled mw
    ∃ t, exec (.powerSample watts milli) s = .next t ∧ t.mod.p100 = BitVec.ofNat 16 watts ∧ t.mod.samples = last
      ∧ t.mod.p1ms = BitVec.ofNat 16 (last.sum / (1000 * last.length))
      ∧ (1000 * limit < mw → m.cpow < 4 → m.riseAt = none → t.mod.cpow = m.cpow + 1 ∧ t.mod.riseAt = some s.now)
      ∧ (mw ≤ 1000 * limit → 9000 * limit * last.length < 10 * last.sum → t.mod.cpow = m.cpow)
      ∧ (∀ c, mw ≤ 1000 * limit → 10 * last.sum ≤ 9000 * limit * last.length → m.lowFrom = some c → 1 < m.cpow →
        max c (m.cpowAt.getD 0) + 8000000 ≤ s.now → t.mod.cpow = m.cpow - 1 ∧ t.mod.cpowAt = some s.now) := by
  intro m limit mw last
  obtain ⟨v, hrun, hkept⟩ := exec_powerSample_eq (s := s) watts milli
  obtain ⟨hp100, hp1ms, hsamples, hcpow, hrise, hnow⟩ := hkept
  have hlen : 0 < last.length := sampled_length m mw
  have hmax : max 1 last.length = last.length := Nat.max_eq_right hlen
  have hlow : (s.sampledMod mw).lowPower = decide (10 * last.sum ≤ 9000 * limit * last.length) := rfl
  have hnorise : mw ≤ 1000 * limit → (s.sampledMod mw).rises mw s.now = false := fun h => by
    unfold Module.rises
    exact decide_eq_false fun e => absurd e.1 (Nat.not_lt.mpr h)
  obtain ⟨h1, h2, h3⟩ := v.stepPower_samples watts ((s.sampledMod mw).rises mw s.now) ((s.sampledMod mw).falls s.now)
  refine ⟨_, hrun, (h1.trans hp100).trans ?_, (h3.trans hsamples).trans rfl, (h2.trans hp1ms).trans ?_, fun hover h4 hnone => ?_,
    fun hle hhigh => ?_, fun c hle hlo hc h1' hrest => ?_⟩
  · change BitVec.ofNat 16 ((1000 * watts + milli.val) / 1000) = _
    rw [Nat.mul_add_div (by decide), Nat.div_eq_of_lt milli.isLt]
    rfl
  · change BitVec.ofNat 16 (last.sum / (1000 * max 1 last.length)) = _
    rw [hmax]
  · have hyes : (s.sampledMod mw).rises mw s.now = true := by
      unfold Module.rises
      refine decide_eq_true ⟨hover, h4, ?_⟩
      rw [show (s.sampledMod mw).riseAt = none from hnone]
    change (v.stepPower watts ((s.sampledMod mw).rises mw s.now) _).mod.cpow = _ ∧ (v.stepPower watts ((s.sampledMod mw).rises mw s.now) _).mod.riseAt = _
    rw [hyes]
    exact ⟨congrArg (· + 1) hcpow, congrArg some hnow⟩
  · have hnofall : (s.sampledMod mw).falls s.now = false := by
      unfold Module.falls
      rw [hlow, decide_eq_false (Nat.not_le.mpr hhigh), if_neg Bool.false_ne_true]
      exact decide_eq_false fun e => Bool.false_ne_true e.2
    change (v.stepPower watts ((s.sampledMod mw).rises mw s.now) ((s.sampledMod mw).falls s.now)).mod.cpow = _
    rw [hnorise hle, hnofall]
    exact hcpow
  · have hfall : (s.sampledMod mw).falls s.now = true := by
      unfold Module.falls
      rw [hlow, decide_eq_true hlo, if_pos rfl, show (s.sampledMod mw).lowFrom = some c from hc]
      exact decide_eq_true ⟨h1', decide_eq_true hrest⟩
    change (v.stepPower watts ((s.sampledMod mw).rises mw s.now) ((s.sampledMod mw).falls s.now)).mod.cpow = _
      ∧ (v.stepPower watts ((s.sampledMod mw).rises mw s.now) ((s.sampledMod mw).falls s.now)).mod.cpowAt = _
    rw [hnorise hle, hfall]
    exact ⟨congrArg (· - 1) hcpow, congrArg some hnow⟩

end

end Sys2Proof.Machine
end

section
/-! PROOF. The diodes, and the shutdown of a thermal trip (R375, R378; O54). -/

namespace Sys2Proof.Machine

/-! ### What a poll leaves -/

/-- What the reading of diodes leaves: readings, the state of the shutdown, and of each partition what decides how it stops. -/
structure State.Polled (s t : State) : Prop where
  coreTemp : t.mod.coreTemp = s.mod.coreTemp
  tripped : t.mod.tripped = s.mod.tripped
  qpp : t.mod.qpp = s.mod.qpp
  now : t.now = s.now
  part : ∀ p, ∃ c, t.part p = { s.part p with throtClear := c }

theorem State.Polled.refl (s : State) : s.Polled s := ⟨rfl, rfl, rfl, rfl, fun _ => ⟨_, rfl⟩⟩

theorem State.Polled.trans {s t v : State} (h : s.Polled t) (g : t.Polled v) : s.Polled v := by
  refine ⟨g.coreTemp.trans h.coreTemp, g.tripped.trans h.tripped, g.qpp.trans h.qpp, g.now.trans h.now, fun p => ?_⟩
  obtain ⟨c, hc⟩ := h.part p
  obtain ⟨d, hd⟩ := g.part p
  exact ⟨d, by rw [hd, hc]⟩

theorem State.sedThermal_polled (s : State) (d : Diode) (t e : Nat) : s.Polled (s.sedThermal d t e) :=
  ⟨rfl, rfl, rfl, rfl, fun _ => ⟨_, rfl⟩⟩

/-- A throttle threshold that clears is remembered. -/
theorem State.clearThrottle_polled (s : State) (q : Nat) : s.Polled (s.onPart q fun x => { x with throtClear := s.now }) := by
  refine ⟨rfl, rfl, rfl, rfl, fun p => ?_⟩
  change ∃ c, (s.setPart q { s.part q with throtClear := s.now }).part p = _
  rw [State.part_setPart]
  split
  next h => exact ⟨s.now, by rw [show s.part q = s.part p from congrArg (fun i : Fin 4 => s.parts[i]) h]⟩
  · exact ⟨_, rfl⟩

theorem State.Polled.ite {s t v : State} {c : Prop} [Decidable c] (ht : s.Polled t) (hv : s.Polled v) :
    s.Polled (if c then t else v) := by
  split
  · exact ht
  · exact hv

theorem State.reportDiode_polled (s : State) (d : Diode) (t : Nat) (was is_ : Bool × Bool × Bool) :
    s.Polled (s.reportDiode d t was is_) := by
  unfold State.reportDiode
  extract_lets s1 s2 s3
  have h1 : s.Polled s1 := .ite (.refl s) (s.sedThermal_polled _ _ _)
  have h2 : s.Polled s2 := h1.trans (.ite (.refl s1) (s1.sedThermal_polled _ _ _))
  have h3 : s.Polled s3 := h2.trans (.ite (s2.clearThrottle_polled _) (.refl s2))
  exact h3.trans (.ite (s3.sedThermal_polled _ _ _) (.refl s3))

theorem State.pollCore_polled (s : State) (i : Fin 96) (t : Nat) : s.Polled (s.pollCore i t) := by
  unfold State.pollCore
  dsimp only
  refine State.Polled.trans ?_ (State.reportDiode_polled _ _ _ _ _)
  exact ⟨rfl, rfl, rfl, rfl, fun _ => ⟨_, rfl⟩⟩

theorem State.pollBase_polled (s : State) (i : Fin 48) (t : Nat) : s.Polled (s.pollBase i t) := by
  unfold State.pollBase
  dsimp only
  refine State.Polled.trans ?_ (State.reportDiode_polled _ _ _ _ _)
  exact ⟨rfl, rfl, rfl, rfl, fun _ => ⟨_, rfl⟩⟩

/-- The state with every diode read. -/
def State.polled (s : State) (core base : List Nat) : State :=
  let s := s.onMod fun m => { m with coreTemp := (core ++ List.replicate 96 0).take 96, baseTemp := (base ++ List.replicate 48 0).take 48 }
  let s := (place 0 s.mod.coreTemp).foldl (fun (s : State) x => s.pollCore (Fin.ofNat 96 x.1) x.2) s
  (place 0 s.mod.baseTemp).foldl (fun (s : State) x => s.pollBase (Fin.ofNat 48 x.1) x.2) s

theorem State.polled_polled (s : State) (core base : List Nat) :
    (s.onMod fun m => { m with coreTemp := (core ++ List.replicate 96 0).take 96, baseTemp := (base ++ List.replicate 48 0).take 48 }).Polled
      (s.polled core base) := by
  unfold State.polled
  extract_lets s1 s2
  have h2 : s1.Polled s2 := foldl_keeps s1.Polled _ _ _ (.refl s1) fun v x h => h.trans (v.pollCore_polled _ _)
  exact h2.trans (foldl_keeps s2.Polled _ _ _ (.refl s2) fun v x h => h.trans (v.pollBase_polled _ _))

/-! ### The shutdown -/

/-- A partition that freezes leaves the module, the time and the other partitions. -/
theorem State.freezePart_frame (s : State) (q : Nat) : (s.freezePart q).mod = s.mod ∧ (s.freezePart q).now = s.now
    ∧ ∀ p, Fin.ofNat 4 q ≠ Fin.ofNat 4 p → (s.freezePart q).part p = s.part p := by
  unfold State.freezePart
  dsimp only
  split
  · exact ⟨rfl, rfl, fun _ _ => rfl⟩
  · exact ⟨rfl, rfl, fun _ _ => rfl⟩
  · exact ⟨rfl, rfl, fun _ _ => rfl⟩
  · refine ⟨State.tellGroup_mod .., State.tellGroup_now .., fun p h => ?_⟩
    rw [State.part_congr (State.tellGroup_parts ..), State.setPart_other h]
  · exact ⟨rfl, rfl, fun p h => State.setPart_other h ..⟩
  · exact ⟨rfl, rfl, fun p h => State.setPart_other h ..⟩

/-- A phase that runs begins its stop at the tick that runs. -/
theorem State.freezePart_phase {s : State} {p : Nat} (hseq : (s.part p).seq = .phase) (hab : (s.part p).abort = none) :
    ((s.freezePart p).part p).abort = some ((s.part p).abortAt (s.eventTick p) s.now noFault true) := by
  unfold State.freezePart
  dsimp only
  simp only [hseq, hab]
  rw [State.part_congr (State.tellGroup_parts ..), State.part_setPart_self]

/-- The partitions as a shutdown freezes them. -/
def State.frozen (s : State) : State :=
  (range' 0 4).foldl (fun (s : State) p => if s.mod.partOf p = p then s.freezePart p else s) s

theorem State.frozen_mod (s : State) : s.frozen.mod = s.mod := by
  refine foldl_keeps (fun t : State => t.mod = s.mod) _ _ _ rfl fun t q h => ?_
  split
  · exact (t.freezePart_frame q).1.trans h
  · exact h

theorem State.frozen_now (s : State) : s.frozen.now = s.now := by
  refine foldl_keeps (fun t : State => t.now = s.now) _ _ _ rfl fun t q h => ?_
  split
  · exact (t.freezePart_frame q).2.1.trans h
  · exact h

/-- The freezing of other partitions leaves partition p. -/
theorem State.freezeOthers (s : State) (p : Nat) (l : List Nat) (h : ∀ q, q ∈ l → Fin.ofNat 4 q ≠ Fin.ofNat 4 p) :
    (l.foldl (fun (s : State) p => if s.mod.partOf p = p then s.freezePart p else s) s).part p = s.part p
    ∧ (l.foldl (fun (s : State) p => if s.mod.partOf p = p then s.freezePart p else s) s).now = s.now
    ∧ (l.foldl (fun (s : State) p => if s.mod.partOf p = p then s.freezePart p else s) s).mod = s.mod := by
  induction l generalizing s with
  | nil => exact ⟨rfl, rfl, rfl⟩
  | cons q l ih =>
    obtain ⟨hmod, hnow, hpart⟩ := s.freezePart_frame q
    obtain ⟨h1, h2, h3⟩ := ih (if s.mod.partOf q = q then s.freezePart q else s) fun x hx => h x (List.mem_cons_of_mem _ hx)
    rw [List.foldl_cons, h1, h2, h3]
    split
    · exact ⟨hpart p (h q List.mem_cons_self), hnow, hmod⟩
    · exact ⟨rfl, rfl, rfl⟩

theorem State.frozen_phase {s : State} {p : Fin 4} (hp : s.mod.partOf p = p.val) (hseq : (s.part p).seq = .phase)
    (hab : (s.part p).abort = none) :
    (s.frozen.part p).abort = some ((s.part p).abortAt (s.eventTick p) s.now noFault true) := by
  obtain ⟨l1, l2, hl, h1, h2⟩ := range'_around p
  obtain ⟨hpart, hnow, hmod⟩ := s.freezeOthers p l1 h1
  unfold State.frozen
  rw [hl, List.foldl_append, List.foldl_cons]
  generalize l1.foldl (fun (s : State) p => if s.mod.partOf p = p then s.freezePart p else s) s = v at hpart hnow hmod
  rw [(State.freezeOthers _ p l2 h2).1, hmod, if_pos hp, State.freezePart_phase (by rw [hpart]; exact hseq) (by rw [hpart]; exact hab)]
  unfold State.eventTick
  rw [hpart, hnow]

/-! ### A poll -/

theorem State.flashCopy_diodes (s : State) : s.flashCopy.mod.coreTemp = s.mod.coreTemp
    ∧ s.flashCopy.mod.coreSet = s.mod.coreSet ∧ s.flashCopy.mod.baseSet = s.mod.baseSet := by
  unfold State.flashCopy
  split <;> exact ⟨rfl, rfl, rfl⟩

/-- The entry of a shutdown, on its way to flash. -/
def State.recorded (s : State) : State := (s.sedModule 3 true).flashCopy

theorem State.recorded_frame (s : State) : s.recorded.now = s.now ∧ s.recorded.parts = s.parts
    ∧ s.recorded.mod.coreTemp = s.mod.coreTemp ∧ s.recorded.mod.coreSet = s.mod.coreSet ∧ s.recorded.mod.baseSet = s.mod.baseSet := by
  obtain ⟨htemp, hcore, hbase⟩ := (s.sedModule 3 true).flashCopy_diodes
  exact ⟨State.flashCopy_now _, State.flashCopy_parts _, htemp, hcore, hbase⟩

/-- What the shutdown leaves of the module and of the partitions. -/
theorem State.shutDown_frame (s : State) : s.shutDown.mod.tripped = true ∧ s.shutDown.mod.offAt = some (s.now + 800000)
    ∧ s.shutDown.mod.coreTemp = s.mod.coreTemp ∧ s.shutDown.mod.tripping = s.mod.tripping ∧ s.shutDown.parts = s.frozen.parts := by
  obtain ⟨hnow, hparts, htemp, hcore, hbase⟩ := s.frozen.recorded_frame
  rw [s.frozen_mod] at htemp hcore hbase
  rw [s.frozen_now] at hnow
  have hrun : s.shutDown = (s.frozen.recorded.onMod fun m => { m with tripped := true, offAt := some (s.frozen.recorded.now + msec 1) }).schedule
      (s.frozen.recorded.now + msec 1) .flashCopy := rfl
  rw [hrun]
  generalize s.frozen.recorded = v at hnow hparts htemp hcore hbase
  refine ⟨rfl, ?_, htemp, ?_, hparts⟩
  · change some (v.now + msec 1) = _
    rw [hnow, show msec 1 = 800000 by decide]
  · change (v.mod.coreSet.toList.any _ || v.mod.baseSet.toList.any _) = _
    rw [hcore, hbase]
    rfl

theorem exec_thermalPoll {s : State} (p : Fin 4) (core base : List Nat) : ∃ t, exec (.thermalPoll core base) s = .next t
    ∧ t.mod.coreTemp = (core ++ List.replicate 96 0).take 96
    ∧ (t.mod.tripping = true → s.mod.tripped = false → t.mod.tripped = true ∧ t.mod.offAt = some (s.now + 800000)
      ∧ (s.mod.partOf p = p.val → (s.part p).seq = .phase → (s.part p).abort = none →
        (t.part p).abort = some ⟨⟨0, 1, none, none, 0, 0, []⟩, s.eventTick p, s.now,
          s.eventTick p + cdiv 24 (max 1 (s.part p).cad), true⟩)) := by
  obtain ⟨htemp, htripped, hqpp, hnow, hpart⟩ := s.polled_polled core base
  have hrun : exec (.thermalPoll core base) s = .next (if (s.polled core base).mod.tripping && !(s.polled core base).mod.tripped then
      (s.polled core base).shutDown else s.polled core base) := rfl
  generalize s.polled core base = v at htemp htripped hqpp hnow hpart hrun
  obtain ⟨h1, h2, h3, h4, h5⟩ := v.shutDown_frame
  refine ⟨_, hrun, ?_, fun ht hno => ?_⟩
  · split
    · exact h3.trans htemp
    · exact htemp
  · have hvno : v.mod.tripped = false := htripped.trans hno
    have hcond : (v.mod.tripping && !v.mod.tripped) = true := by
      rw [hvno, Bool.not_false, Bool.and_true]
      refine Classical.byContradiction fun hv => ?_
      rw [if_neg (by rw [Bool.and_eq_true]; exact fun e => hv e.1)] at ht
      exact hv ht
    rw [if_pos hcond]
    refine ⟨h1, h2.trans (congrArg (fun n => some (n + 800000)) hnow), fun hp hseq hab => ?_⟩
    obtain ⟨c, hc⟩ := hpart p
    have hc : v.part p = { s.part p with throtClear := c } := hc
    have hvp : v.mod.partOf p = p.val := by
      unfold Module.partOf Module.quarters at hp ⊢
      rw [hqpp]
      exact hp
    rw [State.part_congr h5, State.frozen_phase hvp (by rw [hc]; exact hseq) (by rw [hc]; exact hab)]
    have htick : v.eventTick p = s.eventTick p := by
      unfold State.eventTick
      rw [hc, show v.now = s.now from hnow]
    rw [htick, hc, show v.now = s.now from hnow]
    rfl

end Sys2Proof.Machine
end

section
/-! PROOF. Stack temperatures, undervolting, heartbeats and the copies to flash (R376, R379, R382, R383; O54). -/

namespace Sys2Proof.Machine

section
variable {s : State}

/-! ### Stack temperatures -/

theorem exec_hbmTempRead (codes : List Nat) : ∃ t, exec (.hbmTempRead codes) s = .next t
    ∧ (∀ i : Fin 12, t.mod.hbmCode[i] = min 2 (nth codes i.val 0)) ∧ t.parts = s.parts := by
  obtain ⟨hcode, hparts⟩ := foldl_keeps (fun t : State => t.mod.hbmCode = Vector.ofFn (fun i : Fin 12 => min 2 (nth codes i.val 0))
    ∧ t.parts = s.parts) (fun (s : State) p => if s.mod.partOf p = p ∧ !(s.part p).started then s.setRefresh p (s.part p).cad else s)
    (range' 0 4) (s.onMod fun m => { m with hbmCode := Vector.ofFn fun i => min 2 (nth codes i.val 0) }) ⟨rfl, rfl⟩
    fun t p h => by
      split
      · exact h
      · exact h
  refine ⟨_, rfl, fun i => ?_, hparts⟩
  rw [Fin.getElem_fin]
  simp only [hcode, Vector.getElem_ofFn]

/-! ### Undervolting -/

/-- The offset of a domain after a step. -/
def Module.steppedOffset (m : Module) (i : Fin 16) : Nat :=
  if !m.uvEn.getLsbD i.val || m.uvDis.getLsbD i.val then m.uvOff[i]
  else if m.uvErr[i] = 0 ∧ m.uvOff[i] < m.uvLimit then m.uvOff[i] + 1
  else if 4 ≤ m.uvErr[i] ∧ 0 < m.uvOff[i] then m.uvOff[i] - 1
  else m.uvOff[i]

/-- A step of one domain changes its offset alone. -/
theorem State.stepDomain_mod (s : State) (d : Nat) : (s.stepDomain d).mod.uvEn = s.mod.uvEn ∧ (s.stepDomain d).mod.uvDis = s.mod.uvDis
    ∧ (s.stepDomain d).mod.uvErr = s.mod.uvErr ∧ (s.stepDomain d).mod.uvLim = s.mod.uvLim
    ∧ ∃ v, (s.stepDomain d).mod.uvOff = s.mod.uvOff.set (Fin.ofNat 16 d) v := by
  have hsame : ∃ v, s.mod.uvOff = s.mod.uvOff.set (Fin.ofNat 16 d) v := ⟨_, (Vector.set_getElem_self _).symm⟩
  unfold State.stepDomain
  dsimp only
  split
  · exact ⟨rfl, rfl, rfl, rfl, hsame⟩
  · split
    · exact ⟨rfl, rfl, rfl, rfl, _, rfl⟩
    · split
      · exact ⟨rfl, rfl, rfl, rfl, _, rfl⟩
      · exact ⟨rfl, rfl, rfl, rfl, hsame⟩

theorem fin16_ofNat (i : Fin 16) : Fin.ofNat 16 i.val = i := Fin.ext (Nat.mod_eq_of_lt i.isLt)

theorem State.stepDomain_own (s : State) (i : Fin 16) : (s.stepDomain i).mod.uvOff[i] = s.mod.steppedOffset i := by
  unfold State.stepDomain Module.steppedOffset
  dsimp only
  simp only [fin16_ofNat]
  split
  · rfl
  · split
    · exact congrArg (fun j : Fin 16 => (s.mod.uvOff.set j (s.mod.uvOff[i] + 1))[i]) (fin16_ofNat i) |>.trans (Vector.getElem_set_self ..)
    · split
      · exact congrArg (fun j : Fin 16 => (s.mod.uvOff.set j (s.mod.uvOff[i] - 1))[i]) (fin16_ofNat i) |>.trans (Vector.getElem_set_self ..)
      · rfl

/-- The registers of undervolting that a step does not change. -/
structure Module.SameDomain (m m' : Module) (i : Fin 16) : Prop where
  en : m'.uvEn = m.uvEn
  dis : m'.uvDis = m.uvDis
  err : m'.uvErr = m.uvErr
  lim : m'.uvLim = m.uvLim
  off : m'.uvOff[i] = m.uvOff[i]

theorem State.stepOthers (s : State) (i : Fin 16) (l : List Nat) (h : ∀ d, d ∈ l → Fin.ofNat 16 d ≠ i) :
    s.mod.SameDomain (l.foldl State.stepDomain s).mod i := by
  induction l generalizing s with
  | nil => exact ⟨rfl, rfl, rfl, rfl, rfl⟩
  | cons d l ih =>
    obtain ⟨h1, h2, h3, h4, v, h5⟩ := s.stepDomain_mod d
    obtain ⟨k1, k2, k3, k4, k5⟩ := ih (s.stepDomain d) fun x hx => h x (List.mem_cons_of_mem _ hx)
    refine ⟨k1.trans h1, k2.trans h2, k3.trans h3, k4.trans h4, k5.trans ?_⟩
    rw [h5, vector_get_set, if_neg (h d List.mem_cons_self).symm]

theorem range16_around (i : Fin 16) : ∃ l1 l2, List.range 16 = l1 ++ i.val :: l2
    ∧ (∀ d, d ∈ l1 → Fin.ofNat 16 d ≠ i) ∧ (∀ d, d ∈ l2 → Fin.ofNat 16 d ≠ i) := by
  obtain ⟨l1, l2, hl⟩ := List.append_of_mem (List.mem_range.mpr i.isLt)
  have hnd : (l1 ++ i.val :: l2).Nodup := hl ▸ List.nodup_range
  have hlt : ∀ d, d ∈ l1 ++ i.val :: l2 → d < 16 := fun d hd => List.mem_range.mp (hl ▸ hd)
  have hof : ∀ d, d < 16 → Fin.ofNat 16 d = i → d = i.val := fun d hd e => by
    have := congrArg Fin.val e
    rwa [Fin.val_ofNat, Nat.mod_eq_of_lt hd] at this
  obtain ⟨-, h2, hdis⟩ := List.nodup_append.mp hnd
  refine ⟨l1, l2, hl, fun d hd e => ?_, fun d hd e => ?_⟩
  · exact hdis d hd i.val List.mem_cons_self (hof d (hlt d (List.mem_append_left _ hd)) e)
  · have := hof d (hlt d (List.mem_append_right _ (List.mem_cons_of_mem _ hd))) e
    exact (List.nodup_cons.mp h2).1 (this ▸ hd)

theorem State.stepDomains_off (s : State) (i : Fin 16) :
    ((List.range 16).foldl State.stepDomain s).mod.uvOff[i] = s.mod.steppedOffset i := by
  obtain ⟨l1, l2, hl, h1, h2⟩ := range16_around i
  obtain ⟨hen, hdis, herr, hlim, hoff⟩ := s.stepOthers i l1 h1
  rw [hl, List.foldl_append, List.foldl_cons, (State.stepOthers _ i l2 h2).off, State.stepDomain_own]
  unfold Module.steppedOffset Module.uvLimit
  rw [hen, hdis, herr, hlim, hoff]

theorem exec_undervoltStep : ∃ t, exec .undervoltStep s = .next t ∧ t.mod.uvErr = Vector.replicate 16 0
    ∧ ∀ i : Fin 16, t.mod.uvOff[i] = s.mod.steppedOffset i := by
  refine ⟨_, rfl, rfl, fun i => ?_⟩
  exact s.stepDomains_off i

theorem steppedOffset_still {m : Module} {i : Fin 16} (h : m.uvEn.getLsbD i.val = false ∨ m.uvDis.getLsbD i.val = true) :
    m.steppedOffset i = m.uvOff[i] := by
  refine if_pos ?_
  rw [Bool.or_eq_true, Bool.not_eq_true']
  exact h

theorem steppedOffset_up {m : Module} {i : Fin 16} (hen : m.uvEn.getLsbD i.val = true) (hdis : m.uvDis.getLsbD i.val = false)
    (herr : m.uvErr[i] = 0) (hoff : m.uvOff[i] < min 12 m.uvLim.toNat) : m.steppedOffset i = m.uvOff[i] + 1 := by
  unfold Module.steppedOffset
  rw [hen, hdis, if_neg (by decide)]
  exact if_pos ⟨herr, hoff⟩

theorem steppedOffset_down {m : Module} {i : Fin 16} (hen : m.uvEn.getLsbD i.val = true) (hdis : m.uvDis.getLsbD i.val = false)
    (herr : 4 ≤ m.uvErr[i]) (hoff : 0 < m.uvOff[i]) : m.steppedOffset i = m.uvOff[i] - 1 := by
  unfold Module.steppedOffset
  rw [hen, hdis, if_neg (by decide), if_neg fun e => by rw [e.1] at herr; exact absurd herr (by decide)]
  exact if_pos ⟨herr, hoff⟩

/-! ### Heartbeats -/

/-- The state after the increment and the trace of a heartbeat. -/
def State.beaten (s : State) : State := (s.onMod fun m => { m with hbCnt := m.hbCnt + 1, hbAt := s.now }).trace

/-- The module with words appended to its trace sink. -/
def Module.traced (m : Module) (w : List Byte) : Module :=
  let t := m.sink ++ w
  { m with sink := t.drop (t.length - 65536) }

/-- A module with another trace sink. -/
def Module.withSink (m : Module) (t : List Byte) : Module := { m with sink := t }

theorem Module.withSink_frame (m : Module) (t : List Byte) : (m.withSink t).hbCnt = m.hbCnt ∧ (m.withSink t).hbAt = m.hbAt
    ∧ (m.withSink t).sink = t := ⟨rfl, rfl, rfl⟩

/-- The module with words appended to its trace sink, of which the last 64 KiB stay. -/
theorem Module.traced_frame (m : Module) (w : List Byte) : (m.traced w).hbCnt = m.hbCnt ∧ (m.traced w).hbAt = m.hbAt
    ∧ (m.traced w).sink = (m.sink ++ w).drop ((m.sink ++ w).length - 65536) :=
  m.withSink_frame ((m.sink ++ w).drop ((m.sink ++ w).length - 65536))

theorem State.trace_on (h : s.fwFeatures.getLsbD 2 = true) :
    s.trace = { s with fresh := s.fresh + 1, mod := s.mod.traced (Config.firmwareTrace s.fresh) } := if_pos h

theorem State.trace_off (h : s.fwFeatures.getLsbD 2 = false) : s.trace = s := by
  unfold State.trace
  rw [h]
  exact if_neg Bool.false_ne_true

/-- The module after the increment of a heartbeat. -/
def State.counted (s : State) : State := s.onMod fun m => { m with hbCnt := m.hbCnt + 1, hbAt := s.now }

theorem State.beaten_frame (s : State) : s.beaten.mod.hbCnt = s.mod.hbCnt + 1 ∧ s.beaten.mod.hbAt = s.now ∧ s.beaten.now = s.now
    ∧ (s.fwFeatures.getLsbD 2 = false → s.beaten.mod.sink = s.mod.sink ∧ s.beaten.fresh = s.fresh)
    ∧ (s.fwFeatures.getLsbD 2 = true → s.beaten.mod.sink = (s.mod.sink ++ Config.firmwareTrace s.fresh).drop
      ((s.mod.sink ++ Config.firmwareTrace s.fresh).length - 65536)) := by
  have hbeat : s.beaten = s.counted.trace := rfl
  have hfeat : s.counted.fwFeatures = s.fwFeatures := rfl
  have hcnt : s.counted.mod.hbCnt = s.mod.hbCnt + 1 := rfl
  have hat : s.counted.mod.hbAt = s.now := rfl
  have hnow : s.counted.now = s.now := rfl
  have hsink : s.counted.mod.sink = s.mod.sink := rfl
  have hfresh : s.counted.fresh = s.fresh := rfl
  rw [hbeat, ← hfeat, ← hsink, ← hfresh]
  generalize s.counted = v at hcnt hat hnow
  cases hv : v.fwFeatures.getLsbD 2 with
  | false =>
    rw [State.trace_off hv]
    exact ⟨hcnt, hat, hnow, fun _ => ⟨rfl, rfl⟩, fun h => nomatch h⟩
  | true =>
    rw [State.trace_on hv]
    dsimp only
    obtain ⟨h1, h2, h3⟩ := v.mod.traced_frame (Config.firmwareTrace v.fresh)
    rw [h1, h2, h3]
    exact ⟨hcnt, hat, hnow, fun h => (nomatch h), fun _ => rfl⟩

theorem exec_firmwareHeartbeat : ∃ t, exec .firmwareHeartbeat s = .next t ∧ t.mod = s.beaten.mod
    ∧ (∃ e, e ∈ t.agenda ∧ e.ev = .heartbeatLoss)
    ∧ (∀ e, e ∈ t.agenda → e.ev = .heartbeatLoss → e.cycle = s.now + 80000000)
    ∧ (Config.firmwareRuns s.beaten.fresh = true → ∃ e, e ∈ t.agenda ∧ e.ev = .firmwareHeartbeat ∧ e.cycle = s.now + 800000) := by
  obtain ⟨-, -, hnow, -⟩ := s.beaten_frame
  have hrun : exec .firmwareHeartbeat s = .next (
      let t := (s.beaten.cancel fun i => i == .heartbeatLoss).schedule (s.beaten.now + msec 100) .heartbeatLoss
      if Config.firmwareRuns s.beaten.fresh then ({ t with fresh := t.fresh + 1 }).schedule (s.beaten.now + msec 1) .firmwareHeartbeat
      else { t with fresh := t.fresh + 1 }) := rfl
  rw [hrun]
  generalize s.beaten = v at hnow
  have hms : msec 100 = 80000000 := by decide
  have hms1 : msec 1 = 800000 := by decide
  obtain ⟨e0, he0, hev0, -⟩ := State.mem_schedule (v.cancel fun i => i == .heartbeatLoss) (v.now + msec 100) .heartbeatLoss
  have honly : ∀ e, e ∈ ((v.cancel fun i => i == .heartbeatLoss).schedule (v.now + msec 100) .heartbeatLoss).agenda →
      e.ev = .heartbeatLoss → e.cycle = s.now + 80000000 := fun e he hev => by
    rcases (mem_insertEv _ _ _).mp he with h | h
    · rw [h]
      change max (v.now + msec 100) v.now = _
      rw [hnow, hms]
      exact Nat.max_eq_left (Nat.le_add_right _ _)
    · have := (List.mem_filter.mp h).2
      rw [hev] at this
      exact absurd this (by decide)
  refine ⟨_, rfl, ?_, ?_, fun e he hev => ?_, fun hgo => ?_⟩
  · dsimp only
    split <;> rfl
  · dsimp only
    split
    · exact ⟨e0, State.mem_schedule_of_mem he0, hev0⟩
    · exact ⟨e0, he0, hev0⟩
  · dsimp only at he
    split at he
    · rcases (mem_insertEv _ _ _).mp he with h | h
      · rw [h] at hev
        exact nomatch hev
      · exact honly e h hev
    · exact honly e he hev
  · dsimp only
    rw [if_pos hgo]
    obtain ⟨e, he, hev, hcyc⟩ := State.mem_schedule ({ (v.cancel fun i => i == .heartbeatLoss).schedule (v.now + msec 100) .heartbeatLoss with
      fresh := ((v.cancel fun i => i == .heartbeatLoss).schedule (v.now + msec 100) .heartbeatLoss).fresh + 1 })
      (v.now + msec 1) .firmwareHeartbeat
    refine ⟨e, he, hev, hcyc.trans ?_⟩
    change max (v.now + msec 1) v.now = _
    rw [hnow, hms1]
    exact Nat.max_eq_left (Nat.le_add_right _ _)

theorem exec_heartbeatLoss_early (h : s.now < s.mod.hbAt + 80000000) : exec .heartbeatLoss s = .next s := by
  change execHeartbeatLoss s = _
  unfold execHeartbeatLoss
  rw [show msec 100 = 80000000 by decide]
  exact if_pos h

theorem State.startUp_parts (s : State) (keep : Module) : (s.startUp keep).parts = Vector.replicate 4 Part.reset := by
  obtain ⟨mr, hrun⟩ := s.startUp_eq keep
  rw [hrun]
  dsimp only
  split
  · exact (State.wakeAll_waking _).parts
  · rfl

theorem exec_heartbeatLoss_late (h : s.mod.hbAt + 80000000 ≤ s.now) :
    ∃ t, exec .heartbeatLoss s = .next t ∧ t.mod.stage = 2 ∧ ∀ p : Fin 4, (t.parts[p]).job = none := by
  have hrun : exec .heartbeatLoss s = .next ((s.sedModule 2 true).flashCopy.restart) := by
    change execHeartbeatLoss s = _
    unfold execHeartbeatLoss
    rw [show msec 100 = 80000000 by decide]
    exact if_neg (Nat.not_lt.mpr h)
  generalize (s.sedModule 2 true).flashCopy = v at hrun
  obtain ⟨hstage, -, -⟩ := (State.restart_started v).starts
  refine ⟨_, hrun, hstage, fun p => ?_⟩
  have hparts : v.restart.parts = Vector.replicate 4 Part.reset := v.startUp_parts _
  rw [hparts, Fin.getElem_fin, Vector.getElem_replicate]
  rfl

/-! ### The copies to flash -/

theorem exec_flashCopy_off {c : Nat} (h : s.mod.offAt = some c) (hc : c ≤ s.now) : exec .flashCopy s = .next s.powerDown := by
  have : s.diesOff = true := by
    unfold State.diesOff
    rw [h]
    exact decide_eq_true hc
  change execFlashCopy s = _
  unfold execFlashCopy
  exact if_pos this

/-- The module with the copy under way in its slot. -/
def Module.copied (m : Module) : Module :=
  { m with flash := mapSet m.flash (m.flashed % 128) m.flashSnap, flashed := m.flashed + 1, flashBusy := false, flashSnap := [] }

theorem exec_flashCopy_on (h : s.mod.offAt = none) : exec .flashCopy s = if s.mod.flashBusy = false then .next s
    else if 0 < s.mod.flashWait then
      .next (State.flashCopy { s with mod := { s.mod.copied with flashWait := s.mod.flashWait - 1 } })
    else if s.mod.tripped = true then .next { s with mod := { s.mod.copied with hubPower := false } }
    else .next { s with mod := s.mod.copied } := by
  have hoff : s.diesOff = false := by
    unfold State.diesOff
    rw [h]
  change execFlashCopy s = _
  unfold execFlashCopy
  rw [hoff, if_neg Bool.false_ne_true]
  cases s.mod.flashBusy <;> rfl

/-- The next copy that waits begins. -/
theorem State.flashCopy_begins (h : s.mod.flashBusy = false) : s.flashCopy.mod.flashBusy = true
    ∧ s.flashCopy.mod.flashWait = s.mod.flashWait ∧ s.flashCopy.mod.flashed = s.mod.flashed ∧ s.flashCopy.mod.flash = s.mod.flash := by
  unfold State.flashCopy
  rw [h]
  exact ⟨rfl, rfl, rfl, rfl⟩

end

end Sys2Proof.Machine
end

section
/-! PROOF. PLDM and the links, and the events of the fleet (R229, R381, R384; O54). -/

namespace Sys2Proof.Machine

section
variable {s : State}

/-! ### PLDM -/

theorem exec_getsensorreading_some {id x : Nat} (h : s.sensor id = some x) :
    exec (.getsensorreading id) s = .next (s.emit (.pldm 2 0x11 0 (leBytes 4 x))) := by
  change execGetsensorreading id s = _
  unfold execGetsensorreading
  rw [h]
  exact rfl

theorem exec_getsensorreading_none {id : Nat} (h : s.sensor id = none) :
    exec (.getsensorreading id) s = .next (s.emit (.pldm 2 0x11 0x80 [])) := by
  change execGetsensorreading id s = _
  unfold execGetsensorreading
  rw [h]
  exact rfl

theorem exec_getnumericeffectervalue_some {id x : Nat} (h : s.effecter id = some x) :
    exec (.getnumericeffectervalue id) s = .next (s.emit (.pldm 2 0x32 0 (leBytes 4 x))) := by
  change execGetnumericeffectervalue id s = _
  unfold execGetnumericeffectervalue
  rw [h]
  exact rfl

theorem exec_getnumericeffectervalue_none {id : Nat} (h : s.effecter id = none) :
    exec (.getnumericeffectervalue id) s = .next (s.emit (.pldm 2 0x32 0x80 [])) := by
  change execGetnumericeffectervalue id s = _
  unfold execGetnumericeffectervalue
  rw [h]
  exact rfl

theorem exec_setEffecter_limit {v : Nat} (h : v < 4096) : exec (.setnumericeffectervalue 1 v) s
    = .next ({ s with mod := { s.mod with pwrLim := BitVec.ofNat 12 v } }.emit (.pldm 2 0x31 0 [])) :=
  if_pos ⟨rfl, h⟩

theorem exec_setEffecter_cadence {id v : Nat} (h2 : 2 ≤ id) (h6 : id < 6) (h1 : 1 ≤ v) (h4 : v ≤ 4) :
    exec (.setnumericeffectervalue id v) s
      = .next ({ s with mod := { s.mod with cmin := setCmin s.mod.cmin (id - 2) (v - 1) } }.emit (.pldm 2 0x31 0 [])) := by
  change execSetnumericeffectervalue id v s = _
  unfold execSetnumericeffectervalue
  rw [if_neg (by omega), if_pos ⟨h2, h6, h1, h4⟩]
  rfl

theorem exec_setEffecter_source {v : Nat} (h : v < 2) : exec (.setnumericeffectervalue 6 v) s
    = .next ({ s with mod := { s.mod with tsrc := v == 1 } }.emit (.pldm 2 0x31 0 [])) := by
  change execSetnumericeffectervalue 6 v s = _
  unfold execSetnumericeffectervalue
  rw [if_neg (by omega), if_neg (by omega), if_pos ⟨rfl, h⟩]
  rfl

theorem exec_setEffecter_none {id v : Nat} (h : 6 < id) :
    exec (.setnumericeffectervalue id v) s = .next (s.emit (.pldm 2 0x31 0x80 [])) := by
  change execSetnumericeffectervalue id v s = _
  unfold execSetnumericeffectervalue
  rw [if_neg (by omega), if_neg (by omega), if_neg (by omega), if_neg (by omega)]
  rfl

theorem exec_pollEvents_none (h : s.mod.pldmEvents = []) :
    exec .pollforplatformeventmessage s = .next (s.emit (.pldm 2 0x0B 0 [])) := by
  change execPollforplatformeventmessage s = _
  unfold execPollforplatformeventmessage
  rw [h]
  exact rfl

theorem exec_pollEvents_first {a e : Nat} {es : List (Nat × Nat)} (h : s.mod.pldmEvents = (a, e) :: es) :
    exec .pollforplatformeventmessage s
      = .next ({ s with mod := { s.mod with pldmEvents := es } }.emit (.pldm 2 0x0B 0 (leBytes 2 a ++ [BitVec.ofNat 8 e]))) := by
  change execPollforplatformeventmessage s = _
  unfold execPollforplatformeventmessage
  rw [h]
  exact rfl

theorem exec_getpdr_sensor {id : Nat} (h : (s.sensor id).isSome = true) : exec (.getpdr id) s
    = .next ({ s with fresh := s.fresh + 1 }.emit (.pldm 2 0x51 0 (Config.standardReply s.fresh ++ s.pdrThresholds id))) := by
  change execGetpdr id s = _
  unfold execGetpdr
  rw [h, Bool.true_or, if_pos rfl]
  exact rfl

theorem exec_pldmBase_commands (data : List Byte) : exec (.pldmBaseRequest ⟨5, data⟩) s
    = .next (s.emit (if u data 0 1 = 0 ∨ u data 0 1 = 2 then .pldm 0 5 0 (bitBytes 32 (pldmCommands (u data 0 1)))
      else .pldm 0 5 0x83 [])) := rfl

theorem exec_pldmBase_other {cmd : Nat} (data : List Byte) (h : cmd = 0 ∨ cmd = 3 ∨ 6 ≤ cmd) : exec (.pldmBaseRequest ⟨cmd, data⟩) s
    = .next ({ s with fresh := s.fresh + 1 }.emit (.pldm 0 cmd 0 (Config.standardReply s.fresh))) := by
  change execPldmBaseRequest ⟨cmd, data⟩ s = _
  unfold execPldmBaseRequest
  dsimp only
  split
  · omega
  · omega
  · omega
  · omega
  · rfl

/-! ### Links -/

theorem exec_linkCorrectedBlocks (port count : Nat) : ∃ t, exec (.linkCorrectedBlocks port count) s = .next t ∧ ∀ i : Fin 6,
    t.mod.linkBlocks[i] = if i.val = port then s.mod.linkBlocks[i] + count else s.mod.linkBlocks[i] := by
  refine ⟨_, rfl, fun i => ?_⟩
  change (if port < 6 then _ else _ : Module).linkBlocks[i] = _
  by_cases h : port < 6
  · have hi : i = Fin.ofNat 6 port ↔ i.val = port := by
      rw [Fin.ext_iff, Fin.val_ofNat, Nat.mod_eq_of_lt h]
    rw [if_pos h]
    change (s.mod.linkBlocks.set (Fin.ofNat 6 port) (s.mod.linkBlocks[Fin.ofNat 6 port] + count))[i] = _
    rw [vector_get_set]
    by_cases he : i = Fin.ofNat 6 port
    · rw [if_pos he, if_pos (hi.mp he)]
      subst he
      rfl
    · rw [if_neg he, if_neg fun e => he (hi.mpr e)]
  · rw [if_neg h, if_neg (by omega)]
    rfl

end

/-- Settles O54: the events of the fleet, each by what its lemma says that it leaves. -/
theorem fleetEvents : Obligations.FleetEvents := by
  unfold Obligations.FleetEvents
  intro s p watts id v port count cmd ty core base codes data milli m limit tells sets mw last replies
  obtain ⟨tv, hv, hverr, hvoff⟩ := exec_undervoltStep (s := s)
  obtain ⟨tf, hf, hfmod, hfloss, hfonly, hfnext⟩ := exec_firmwareHeartbeat (s := s)
  obtain ⟨hcnt, hat, -, hoff, hon⟩ := s.beaten_frame
  refine ⟨exec_powerSample watts milli, exec_thermalPoll p core base, exec_hbmTempRead codes,
    ⟨tv, hv, hverr, fun d => ⟨fun h => (hvoff d).trans (steppedOffset_still h), fun hen hdis =>
      ⟨fun herr ho => (hvoff d).trans (steppedOffset_up hen hdis herr ho),
        fun herr ho => (hvoff d).trans (steppedOffset_down hen hdis herr ho)⟩⟩⟩,
    ⟨tf, hf, by rw [hfmod, hcnt], by rw [hfmod, hat], hfloss, hfonly, fun h => ⟨by rw [hfmod, (hoff h).1], fun hgo => hfnext (by
      rw [(hoff h).2]
      exact hgo)⟩, fun h => by rw [hfmod]; exact hon h⟩,
    exec_heartbeatLoss_early, exec_heartbeatLoss_late, fun c hc hle => ?_, fun hno hbusy hwait => ?_, fun hno hbusy hwait htrip => ?_,
    fun hno hbusy hwait htrip => ?_, fun hno hbusy => ?_, fun x => exec_getsensorreading_some, exec_getsensorreading_none,
    fun x => exec_getnumericeffectervalue_some, exec_getnumericeffectervalue_none, exec_setEffecter_limit, exec_setEffecter_cadence,
    exec_setEffecter_source, exec_setEffecter_none, exec_pollEvents_none, fun a e es => exec_pollEvents_first, exec_getpdr_sensor,
    fun h => ?_, fun h => ?_, fun h => ?_, fun h h0 => ?_, fun h h2 => ?_, fun h h0 h2 => ?_, exec_pldmBase_other data, rfl,
    ⟨_, rfl, rfl, rfl⟩, exec_linkCorrectedBlocks port count⟩
  · refine ⟨_, exec_flashCopy_off hc hle, rfl, rfl, fun d => ?_, rfl, rfl⟩
    exact Vector.getElem_replicate _
  · have hrun := exec_flashCopy_on hno
    rw [if_neg (by rw [hbusy]; decide), if_pos hwait] at hrun
    obtain ⟨h1, h2, h3, h4⟩ := State.flashCopy_begins (s := { s with mod := { s.mod.copied with flashWait := s.mod.flashWait - 1 } }) rfl
    exact ⟨_, hrun, h2, h1, h3, h4⟩
  · have hrun := exec_flashCopy_on hno
    rw [if_neg (by rw [hbusy]; decide), if_neg (by rw [hwait]; decide), if_neg (by rw [htrip]; decide)] at hrun
    exact hrun
  · have hrun := exec_flashCopy_on hno
    rw [if_neg (by rw [hbusy]; decide), if_neg (by rw [hwait]; decide), if_pos htrip] at hrun
    exact ⟨_, hrun, rfl⟩
  · have hrun := exec_flashCopy_on hno
    rw [if_pos hbusy] at hrun
    exact hrun
  · subst h
    rfl
  · subst h
    rfl
  · subst h
    rfl
  · subst h
    exact (exec_pldmBase_commands data).trans (by rw [if_pos (Or.inl h0), h0]; rfl)
  · subst h
    exact (exec_pldmBase_commands data).trans (by rw [if_pos (Or.inr h2), h2]; rfl)
  · subst h
    exact (exec_pldmBase_commands data).trans (by rw [if_neg (not_or.mpr ⟨h0, h2⟩)])

end Sys2Proof.Machine
end

section
/-! PROOF. What a row of a mac word leaves for its drain (R146, R147; O46). -/

namespace Sys2Proof.Machine

/-! ### One column of a row -/

/-- The code of a weight cell; none where it is poisoned. -/
def weightCode (rows : SMap (List (Option Byte))) (n q : Nat) : Option Nat := (mapGet rows q).bind (code9 · n)

/-- The product of two codes: of one mantissa each, or of two. -/
def codeProduct (s5 : Bool) (a b : Nat) : Int :=
  if s5 then (s5Pair a).1 * (s5Pair b).1 + (s5Pair a).2 * (s5Pair b).2 else sint 9 a * sint 9 b

/-- One cell joins the sum of a column. -/
def colStep (s5 : Bool) (rows : SMap (List (Option Byte))) (n : Nat) (acc : Int × Bool × Bool) (x : Nat × Nat) : Int × Bool × Bool :=
  match weightCode rows n x.1 with
  | none => (acc.1, true, acc.2.2)
  | some w => (acc.1 + codeProduct s5 x.2 w, acc.2.1, acc.2.2 || (s5 && (decide (440 < x.2) || decide (440 < w))))

theorem colSum_eq (s5 : Bool) (acts : List (Nat × Nat)) (rows : SMap (List (Option Byte))) (n : Nat) :
    colSum s5 acts rows n = acts.foldl (colStep s5 rows n) (0, false, false) := by
  unfold colSum
  refine congrArg (fun f => acts.foldl f (0, false, false)) (funext fun acc => funext fun x => ?_)
  unfold colStep weightCode codeProduct mants
  cases (mapGet rows x.1).bind fun bs => code9 bs n with
  | none => rfl
  | some w =>
    cases s5 with
    | false =>
      dsimp only
      rw [if_neg Bool.false_ne_true, if_neg Bool.false_ne_true, if_neg Bool.false_ne_true]
      dsimp only
      rw [Int.mul_zero, Int.add_zero]
    | true =>
      dsimp only
      rw [if_pos rfl, if_pos rfl, if_pos rfl, Int.add_assoc]

section
variable {s5 : Bool} {rows : SMap (List (Option Byte))} {n : Nat} {code : Nat → Nat}

/-- A column is poisoned exactly where one of its cells is. -/
theorem colFold_bad (ks : List Nat) (acc : Int × Bool × Bool) :
    ((ks.map fun k => (k, code k)).foldl (colStep s5 rows n) acc).2.1 = true
      ↔ acc.2.1 = true ∨ ∃ q, q ∈ ks ∧ weightCode rows n q = none := by
  induction ks generalizing acc with
  | nil => simp
  | cons k ks ih =>
    rw [List.map_cons, List.foldl_cons, ih]
    cases hk : weightCode rows n k with
    | none =>
      have hbad : (colStep s5 rows n acc (k, code k)).2.1 = true := by
        unfold colStep
        rw [hk]
      exact iff_of_true (Or.inl hbad) (Or.inr ⟨k, List.mem_cons_self, hk⟩)
    | some w =>
      have hsame : (colStep s5 rows n acc (k, code k)).2.1 = acc.2.1 := by
        unfold colStep
        rw [hk]
      rw [hsame]
      refine or_congr_right ⟨fun ⟨q, hq, h⟩ => ⟨q, List.mem_cons_of_mem _ hq, h⟩, fun ⟨q, hq, h⟩ => ?_⟩
      rcases List.mem_cons.mp hq with rfl | hq
      · rw [hk] at h
        exact nomatch h
      · exact ⟨q, hq, h⟩

/-- A column without a poisoned cell adds up its products, and notes a reserved code. -/
theorem colFold_good (ks : List Nat) (acc : Int × Bool × Bool) (h : ∀ q, q ∈ ks → weightCode rows n q ≠ none) :
    ((ks.map fun k => (k, code k)).foldl (colStep s5 rows n) acc).1
        = acc.1 + (ks.map fun q => codeProduct s5 (code q) ((weightCode rows n q).getD 0)).sum
      ∧ (((ks.map fun k => (k, code k)).foldl (colStep s5 rows n) acc).2.2 = true
        ↔ acc.2.2 = true ∨ (s5 = true ∧ ∃ q, q ∈ ks ∧ (440 < code q ∨ 440 < (weightCode rows n q).getD 0))) := by
  induction ks generalizing acc with
  | nil => simp
  | cons k ks ih =>
    obtain ⟨h1, h2⟩ := ih (colStep s5 rows n acc (k, code k)) fun q hq => h q (List.mem_cons_of_mem _ hq)
    obtain ⟨w, hw⟩ := Option.ne_none_iff_exists'.mp (h k List.mem_cons_self)
    have hsum : (colStep s5 rows n acc (k, code k)).1 = acc.1 + codeProduct s5 (code k) w := by
      unfold colStep
      rw [hw]
    have hrsv : (colStep s5 rows n acc (k, code k)).2.2 = true ↔ acc.2.2 = true ∨ (s5 = true ∧ (440 < code k ∨ 440 < w)) := by
      unfold colStep
      rw [hw]
      simp only [Bool.or_eq_true, Bool.and_eq_true, decide_eq_true_eq]
    rw [List.map_cons, List.foldl_cons, h1, h2, hsum, hrsv, List.map_cons, List.sum_cons, hw, Option.getD_some, Int.add_assoc]
    refine ⟨rfl, ?_⟩
    rw [or_assoc, ← and_or_left]
    refine or_congr_right (and_congr_right fun _ => ⟨?_, ?_⟩)
    · rintro (hk | ⟨q, hq, hc⟩)
      · exact ⟨k, List.mem_cons_self, by rw [hw]; exact hk⟩
      · exact ⟨q, List.mem_cons_of_mem _ hq, hc⟩
    · rintro ⟨q, hq, hc⟩
      rcases List.mem_cons.mp hq with rfl | hq
      · rw [hw] at hc
        exact Or.inl hc
      · exact Or.inr ⟨q, hq, hc⟩

end

/-! ### The lanes of a row -/

/-- The column sum of a lane. -/
def laneSum (r : RowJob) (w : WSet) (ent : List (Option Byte)) (n : Nat) : Int × Bool × Bool :=
  colSum r.s5 ((shapeRows r.shape).map fun k => (k, (code9 ent k).getD 0)) w.rows n

/-- Lane n of a row. -/
def laneOf (r : RowJob) (w : WSet) (ent : List (Option Byte)) (n : Nat) : Int × Int × Bool × Bool × Bool :=
  match nth w.exps n none with
  | none => (0, 0, true, false, false)
  | some (ew, _) =>
    if ent.any Option.isNone then (0, 0, true, false, false)
    else ((laneSum r w ent n).1, (blockExp ent : Int) + ew.toNat - 2 * blockBias r.s5, (laneSum r w ent n).2.1,
      blockExp ent == 255 || ew.toNat == 255, (laneSum r w ent n).2.2)

theorem rowLanes_eq (r : RowJob) (w : WSet) (ent : List (Option Byte)) : rowLanes r w ent = (range' 0 256).map (laneOf r w ent) := by
  unfold rowLanes
  dsimp only
  refine List.map_congr_left fun n _ => ?_
  unfold laneOf laneSum
  cases nth w.exps n none <;> rfl

theorem rowLanes_length (r : RowJob) (w : WSet) (ent : List (Option Byte)) : (rowLanes r w ent).length = 256 := by
  rw [rowLanes_eq, List.length_map, length_range']

theorem rowLanes_getElem? (r : RowJob) (w : WSet) (ent : List (Option Byte)) {n : Nat} (h : n < 256) :
    (rowLanes r w ent)[n]? = some (laneOf r w ent n) := by
  rw [rowLanes_eq, range'_map_range, List.map_map, List.getElem?_map, List.getElem?_range h]
  exact congrArg (fun k => some (laneOf r w ent k)) (Nat.zero_add n)

section
variable {r : RowJob} {w : WSet} {ent : List (Option Byte)} {n : Nat}

theorem any_isNone_iff {α : Type} (l : List (Option α)) : l.any Option.isNone = true ↔ none ∈ l := by
  rw [List.any_eq_true]
  constructor
  · rintro ⟨x, hx, h⟩
    rwa [Option.isNone_iff_eq_none.mp h] at hx
  · intro h
    exact ⟨none, h, rfl⟩

theorem laneOf_bad (h : none ∈ ent ∨ nth w.exps n none = none) : (laneOf r w ent n).2.2.1 = true := by
  unfold laneOf
  rcases h with h | h
  · cases nth w.exps n none with
    | none => rfl
    | some e =>
      dsimp only
      rw [if_pos ((any_isNone_iff ent).mpr h)]
  · rw [h]

theorem laneOf_whole {ew kw : Byte} (hent : none ∉ ent) (hexp : nth w.exps n none = some (ew, kw)) : laneOf r w ent n
    = ((laneSum r w ent n).1, (blockExp ent : Int) + ew.toNat - (if r.s5 then 260 else 268), (laneSum r w ent n).2.1,
      blockExp ent == 255 || ew.toNat == 255, (laneSum r w ent n).2.2) := by
  have hbias : 2 * blockBias r.s5 = if r.s5 then 260 else 268 := by
    unfold blockBias
    cases r.s5 <;> rfl
  have hno : ¬ ent.any Option.isNone = true := fun e => hent ((any_isNone_iff ent).mp e)
  unfold laneOf
  rw [hexp]
  dsimp only
  rw [if_neg hno, hbias]

theorem laneSum_bad : (laneSum r w ent n).2.1 = true ↔ ∃ q, q ∈ shapeRows r.shape ∧ (mapGet w.rows q).bind (code9 · n) = none := by
  unfold laneSum
  rw [colSum_eq]
  exact (colFold_bad _ _).trans (or_iff_right Bool.false_ne_true)

theorem laneSum_good (h : (laneSum r w ent n).2.1 = false) :
    ((laneSum r w ent n).2.2 = true ↔ r.s5 = true ∧ ∃ q, q ∈ shapeRows r.shape
        ∧ (440 < (code9 ent q).getD 0 ∨ 440 < ((mapGet w.rows q).bind (code9 · n)).getD 0))
      ∧ (laneSum r w ent n).1 = ((shapeRows r.shape).map fun q =>
        codeProduct r.s5 ((code9 ent q).getD 0) (((mapGet w.rows q).bind (code9 · n)).getD 0)).sum := by
  have hall : ∀ q, q ∈ shapeRows r.shape → weightCode w.rows n q ≠ none := fun q hq e => by
    have := laneSum_bad (ent := ent).mpr ⟨q, hq, e⟩
    rw [h] at this
    exact nomatch this
  obtain ⟨h1, h2⟩ := colFold_good (s5 := r.s5) (code := fun k => (code9 ent k).getD 0) (shapeRows r.shape) (0, false, false) hall
  unfold laneSum
  rw [colSum_eq]
  exact ⟨h2.trans (or_iff_right Bool.false_ne_true), h1.trans (Int.zero_add _)⟩

end

end Sys2Proof.Machine
end

section
/-! PROOF. The entry of a row into the array (R146, R147, R150; O46). -/

namespace Sys2Proof.Machine

theorem mem_insertPend_iff (x : Pend) (ps : List Pend) (y : Pend) : y ∈ insertPend x ps ↔ y = x ∨ y ∈ ps := by
  induction ps with
  | nil => simp [insertPend]
  | cons p ps ih =>
    unfold insertPend
    split
    · exact List.mem_cons
    · rw [List.mem_cons, List.mem_cons, ih]
      exact or_left_comm

section
variable {co : Core} {x : Src} {tick ord : Nat} {a : Act}

theorem Core.mem_due : ∃ y, y ∈ (co.due x tick ord a).pend ∧ y.tick = tick ∧ y.src = x ∧ y.act = a :=
  ⟨_, (mem_insertPend_iff _ _ _).mpr (.inl rfl), rfl, rfl, rfl⟩

theorem Core.mem_due_of_mem {y : Pend} (h : y ∈ co.pend) : y ∈ (co.due x tick ord a).pend := (mem_insertPend_iff _ _ _).mpr (.inr h)

end

/-! ### What a row leaves in its core -/

/-- The pops of a row. -/
def RowJob.pops (r : RowJob) : List Effect := (if r.peek then [] else [.popped r.qa 1]) ++ (if r.sparse then [.popped r.qb 1] else [])

/-- The core after the pops of a row are due. -/
def Core.rowPops (co : Core) (x : Pend) (r : RowJob) : Core :=
  if r.pops.isEmpty then co else co.due x.src (x.tick + 1) 0 (.land r.pops)

/-- The core after the drain of a row is due. -/
def Core.rowDrain (co : Core) (x : Pend) (r : RowJob) (d : DrainJob) : Core :=
  if r.on && r.dm != .nd then co.due x.src (x.tick + 260) 1 (.drain d) else co

/-- The core with the bands of a row held. -/
def Core.rowHold (co : Core) (x : Pend) (r : RowJob) : Core :=
  if r.on then { co with holds := (x.tick + 515, r.shape) :: co.holds.filter fun h => decide (x.tick ≤ h.1) } else co

/-- The place of a row in its tile. -/
def Core.rowPos (co : Core) (r : RowJob) : Nat :=
  if r.sparse then (leNat? ((co.entry (co.regs.ring r.qb) (co.regs.ring r.qb).head).take 1)).getD 0 else r.i

/-- The core after a row has entered from entry k of its ring. -/
def Core.rowEntered (co : Core) (x : Pend) (r : RowJob) (k : Nat) : Core :=
  ((co.rowPops x r).rowDrain x r
    ⟨r, co.rowPos r, 0, rowLanes r (co.wset r.set) (co.entry (co.regs.ring r.qa) k)⟩).rowHold x r

section
variable {s : State} {x : Pend} {r : RowJob} {co : Core}

theorem State.rowEnter_enters {k : Nat} (hc : s.core s.slot.core = co) (htrap : co.rowTrap r = none)
    (hk : rowEntry (co.regs.ring r.qa) r.peek r.feed r.i = some k) : s.rowEnter x r
      = if r.i = 0 then s.setCore s.slot.core (co.rowEntered x r k)
        else (s.setCore s.slot.core (co.rowEntered x r k)).claimNow s.slot.core x.src (abBanks ((co.regs.ring r.qa).addr k) 5) := by
  unfold State.rowEnter
  dsimp only
  rw [hc]
  simp only [htrap, hk, Option.getD_some]
  rfl

/-- A row that cannot enter stops its core, or waits for an entry in elastic mode. -/
theorem State.rowEnter_trapped {f : Trap} (hc : s.core s.slot.core = co) (htrap : co.rowTrap r = some f) : s.rowEnter x r
    = if f.code = 0x05 ∧ x.src.elastic then s.setCore s.slot.core { co with pend := x :: co.pend, stalled := some ⟨.M, 48, []⟩ }
      else s.lateFault s.slot.core x.src f := by
  unfold State.rowEnter
  dsimp only
  rw [hc]
  simp only [htrap]

/-- What the entry of a row leaves as it was. -/
theorem Core.rowEntered_frame (co : Core) (x : Pend) (r : RowJob) (k : Nat) : (co.rowEntered x r k).mrf = co.mrf
    ∧ (co.rowEntered x r k).regs = co.regs ∧ (co.rowEntered x r k).ab = co.ab := by
  have hp : (co.rowPops x r).mrf = co.mrf ∧ (co.rowPops x r).regs = co.regs ∧ (co.rowPops x r).ab = co.ab := by
    unfold Core.rowPops
    split <;> exact ⟨rfl, rfl, rfl⟩
  have hd (v : Core) (d : DrainJob) : (v.rowDrain x r d).mrf = v.mrf ∧ (v.rowDrain x r d).regs = v.regs ∧ (v.rowDrain x r d).ab = v.ab := by
    unfold Core.rowDrain
    split <;> exact ⟨rfl, rfl, rfl⟩
  have hh (v : Core) : (v.rowHold x r).mrf = v.mrf ∧ (v.rowHold x r).regs = v.regs ∧ (v.rowHold x r).ab = v.ab := by
    unfold Core.rowHold
    split <;> exact ⟨rfl, rfl, rfl⟩
  obtain ⟨h1, h2, h3⟩ := hp
  obtain ⟨d1, d2, d3⟩ := hd (co.rowPops x r) ⟨r, co.rowPos r, 0, rowLanes r (co.wset r.set) (co.entry (co.regs.ring r.qa) k)⟩
  obtain ⟨e1, e2, e3⟩ := hh ((co.rowPops x r).rowDrain x r
    ⟨r, co.rowPos r, 0, rowLanes r (co.wset r.set) (co.entry (co.regs.ring r.qa) k)⟩)
  exact ⟨(e1.trans d1).trans h1, (e2.trans d2).trans h2, (e3.trans d3).trans h3⟩

theorem Core.rowHold_pend (v : Core) : (v.rowHold x r).pend = v.pend := by
  unfold Core.rowHold
  split <;> rfl

theorem Core.rowHold_holds (v : Core) (h : r.on = true) : (x.tick + 515, r.shape) ∈ (v.rowHold x r).holds := by
  unfold Core.rowHold
  rw [if_pos h]
  exact List.mem_cons_self

theorem Core.rowDrain_mem (v : Core) (d : DrainJob) {y : Pend} (h : y ∈ v.pend) : y ∈ (v.rowDrain x r d).pend := by
  unfold Core.rowDrain
  split
  · exact Core.mem_due_of_mem h
  · exact h

/-- The pops of a row land a tick later. -/
theorem Core.rowEntered_pops {k : Nat} (h : r.pops ≠ []) :
    ∃ y, y ∈ (co.rowEntered x r k).pend ∧ y.tick = x.tick + 1 ∧ y.src = x.src ∧ y.act = .land r.pops := by
  obtain ⟨y, hy, h1, h2, h3⟩ := Core.mem_due (co := co) (x := x.src) (tick := x.tick + 1) (ord := 0) (a := .land r.pops)
  have hpops : y ∈ (co.rowPops x r).pend := by
    unfold Core.rowPops
    rw [if_neg (by rw [List.isEmpty_iff]; exact h)]
    exact hy
  refine ⟨y, ?_, h1, h2, h3⟩
  unfold Core.rowEntered
  rw [Core.rowHold_pend]
  exact Core.rowDrain_mem _ _ hpops

/-- A row without pops and without a drain leaves nothing pending. -/
theorem Core.rowEntered_quiet {k : Nat} (hp : r.pops = []) (hd : r.on = false ∨ r.dm = .nd) : (co.rowEntered x r k).pend = co.pend := by
  have hno : (r.on && r.dm != .nd) = false := by
    rcases hd with h | h <;> rw [h]
    · rfl
    · exact Bool.and_false _
  unfold Core.rowEntered
  rw [Core.rowHold_pend]
  unfold Core.rowDrain Core.rowPops
  rw [hno, hp, if_neg Bool.false_ne_true]
  rfl

/-- The drain of a row begins 260 ticks later, with its lanes. -/
theorem Core.rowEntered_drain {k : Nat} (hon : r.on = true) (hdm : r.dm ≠ .nd) : ∃ y, y ∈ (co.rowEntered x r k).pend
    ∧ y.tick = x.tick + 260 ∧ y.src = x.src
    ∧ y.act = .drain ⟨r, co.rowPos r, 0, rowLanes r (co.wset r.set) (co.entry (co.regs.ring r.qa) k)⟩ := by
  have hyes : (r.on && r.dm != .nd) = true := by
    rw [hon, Bool.true_and]
    exact bne_iff_ne.mpr hdm
  unfold Core.rowEntered
  rw [Core.rowHold_pend]
  unfold Core.rowDrain
  rw [if_pos hyes]
  exact Core.mem_due

end

end Sys2Proof.Machine
end

section
/-! PROOF. The drain of one lane: the slots it names and what it writes there (R99, R147, R148; O46). -/

namespace Sys2Proof.Machine

/-! ### The slots of a lane -/

/-- The slot of a lane at place k of its row, or of its column. -/
def laneSlot (r : RowJob) (c k : Nat) : Nat :=
  if r.dm = .x72 ∨ r.col = true then slotKey r.tile c ((r.idx + k) % 256) else slotKey r.tile ((r.idx + k) % 256) c

/-- The slot that a lane drains into, the first of its pair. -/
def laneLow (r : RowJob) (pos c : Nat) : Nat := if r.dm = .x72 then laneSlot r c (2 * pos) else laneSlot r c pos

/-- The second of its pair, which is the first where it drains into one slot. -/
def laneHigh (r : RowJob) (pos c : Nat) : Nat := if r.dm = .x72 then laneSlot r c (2 * pos + 1) else laneLow r pos c

theorem drainDest_eq (r : RowJob) (pos c : Nat) : drainDest r pos c = (laneLow r pos c, laneHigh r pos c) := by
  unfold drainDest laneHigh laneLow laneSlot
  cases hdm : r.dm with
  | x72 => simp [Nat.add_assoc]
  | _ =>
    cases hcol : r.col <;> simp

theorem slotKey_column_ne {tile row a b : Nat} (ha : a < 256) (hb : b < 256) (h : a ≠ b) : slotKey tile row a ≠ slotKey tile row b := by
  unfold slotKey
  omega

theorem laneLow_ne_laneHigh {r : RowJob} {pos c : Nat} (h : r.dm = .x72) : laneLow r pos c ≠ laneHigh r pos c := by
  unfold laneHigh laneLow laneSlot
  rw [if_pos h, if_pos h, if_pos (Or.inl h), if_pos (Or.inl h)]
  exact slotKey_column_ne (Nat.mod_lt _ (by decide)) (Nat.mod_lt _ (by decide)) (by omega)

theorem laneHigh_eq {r : RowJob} {pos c : Nat} (h : r.dm ≠ .x72) : laneHigh r pos c = laneLow r pos c := if_neg h

/-! ### What is written there -/

/-- The writes of a value into the slot of a lane, or into its pair. -/
def drainPut (r : RowJob) (pos c : Nat) (v : Option Nat) : List SlotWrite :=
  if r.dm = .x72 then [slotPut (laneLow r pos c) (v.map (· % 2 ^ 36)), slotPut (laneHigh r pos c) (v.map (· / 2 ^ 36))]
  else [slotPut (laneLow r pos c) v]

/-- What a whole-slot write leaves in its slot. -/
theorem slotPut_after (f key : Nat) (v : Option Nat) (o : Option W36) : (slotPut key v).after f o = v.map (BitVec.ofNat 36) := by
  cases v with
  | none => cases o <;> rfl
  | some v =>
    have hall (y : W36) : y &&& ~~~BitVec.allOnes 36 ||| BitVec.ofNat 36 v &&& BitVec.allOnes 36 = BitVec.ofNat 36 v := by
      rw [BitVec.not_allOnes, BitVec.and_zero, BitVec.zero_or, BitVec.and_allOnes]
    cases o <;> exact congrArg some (hall _)

section
variable {r : RowJob} {pos c f : Nat} {m : SMap W36} (h : mapSorted m = true)
include h

theorem drainPut_low (v : Option Nat) : mapGet ((drainPut r pos c v).foldl (putSlot f) m) (laneLow r pos c)
    = v.map fun v => BitVec.ofNat 36 (if r.dm = .x72 then v % 2 ^ 36 else v) := by
  unfold drainPut
  by_cases hdm : r.dm = .x72
  · rw [if_pos hdm]
    have hown := mapGet_putSlots_own f [slotPut (laneLow r pos c) (v.map (· % 2 ^ 36)), slotPut (laneHigh r pos c) (v.map (· / 2 ^ 36))] m h
      (List.nodup_cons.mpr ⟨fun e => laneLow_ne_laneHigh hdm (List.mem_singleton.mp e), List.pairwise_singleton ..⟩) _ List.mem_cons_self
    rw [slotPut_after] at hown
    refine hown.trans ?_
    simp only [hdm, if_true, Option.map_map]
    rfl
  · rw [if_neg hdm]
    have hown := mapGet_putSlots_own f [slotPut (laneLow r pos c) v] m h (List.pairwise_singleton ..) _ List.mem_cons_self
    rw [slotPut_after] at hown
    refine hown.trans ?_
    simp only [hdm, if_false]

theorem drainPut_high (hdm : r.dm = .x72) (v : Option Nat) : mapGet ((drainPut r pos c v).foldl (putSlot f) m) (laneHigh r pos c)
    = v.map fun v => BitVec.ofNat 36 (v / 2 ^ 36) := by
  unfold drainPut
  rw [if_pos hdm]
  have hown := mapGet_putSlots_own f [slotPut (laneLow r pos c) (v.map (· % 2 ^ 36)), slotPut (laneHigh r pos c) (v.map (· / 2 ^ 36))] m h
    (List.nodup_cons.mpr ⟨fun e => laneLow_ne_laneHigh hdm (List.mem_singleton.mp e), List.pairwise_singleton ..⟩) _
    (List.mem_cons_of_mem _ List.mem_cons_self)
  rw [slotPut_after] at hown
  refine hown.trans ?_
  rw [Option.map_map]
  rfl

/-- No other slot is written. -/
theorem drainPut_other (v : Option Nat) {k : Nat} (hl : k ≠ laneLow r pos c) (hh : k ≠ laneHigh r pos c) :
    mapGet ((drainPut r pos c v).foldl (putSlot f) m) k = mapGet m k := by
  refine mapGet_putSlots_other f _ m k h fun w hw => ?_
  unfold drainPut at hw
  split at hw
  · rcases List.mem_cons.mp hw with rfl | hw
    · exact hl.symm
    · rw [List.mem_singleton.mp hw]
      exact hh.symm
  · rw [List.mem_singleton.mp hw]
    exact hl.symm

end

/-! ### The operand and the value of a lane -/

/-- What stands in a slot that a lane drains into, or zero where the tile is set. -/
def slotOld (m : SMap W36) (r : RowJob) (k : Nat) : Option W36 := if r.init then some 0 else mapGet m k

/-- The value that a lane leaves, and its flags, by its mode. -/
def drainValue (r : RowJob) (S P : Int) (nf rsv : Bool) (o : Nat) : Nat × Flags :=
  let inv : Flags := (if nf then fInvalid else 0) ||| (if rsv then fInvalid else 0)
  match r.dm with
  | .x72 => if nf then (x72Nan, inv) else ((drainX72 o S P r.beta).1, (drainX72 o S P r.beta).2 ||| inv)
  | .f32 => if nf then (FFmt.f32.dnan, inv)
    else ((drainF32 (modeOfCtl r.rnd.toNat) (o % 2 ^ 32) S P).1, (drainF32 (modeOfCtl r.rnd.toNat) (o % 2 ^ 32) S P).2 ||| inv)
  | _ => ((drainS36 o (if nf then 0 else S)).1, (drainS36 o (if nf then 0 else S)).2 ||| inv)

/-- The operand of a lane: its slot, or its pair; none where it is poisoned. -/
def drainOld (m : SMap W36) (r : RowJob) (pos c : Nat) : Option Nat :=
  if r.init then some 0
  else match mapGet m (laneLow r pos c), (if r.dm = .x72 then mapGet m (laneHigh r pos c) else some 0) with
    | some a, some b => some (a.toNat + 2 ^ 36 * b.toNat)
    | _, _ => none

section
variable {m : SMap W36} {d : DrainJob} {S P : Int} {bad nf rsv : Bool}

theorem drainLane_eq (hlane : d.lanes[d.c]? = some (S, P, bad, nf, rsv)) : drainLane m d = match if bad then none else drainOld m d.row d.pos d.c with
    | some o => (drainPut d.row d.pos d.c (some (drainValue d.row S P nf rsv o).1), (drainValue d.row S P nf rsv o).2)
    | none => (drainPut d.row d.pos d.c none, 0) := by
  have hnth : nth d.lanes d.c (0, 0, true, false, false) = (S, P, bad, nf, rsv) := by
    unfold nth
    rw [hlane]
    rfl
  unfold drainLane
  dsimp only
  rw [drainDest_eq, hnth]
  dsimp only
  change (match bad, drainOld m d.row d.pos d.c with
    | true, _ => _
    | false, none => _
    | false, some o => _) = _
  cases bad with
  | true => rfl
  | false =>
    rw [if_neg Bool.false_ne_true]
    cases drainOld m d.row d.pos d.c with
    | none => rfl
    | some o =>
      unfold drainValue drainPut
      dsimp only
      cases d.row.dm with
      | x72 => cases nf <;> simp
      | f32 => cases nf <;> simp
      | nd => simp
      | s36 => simp

end

end Sys2Proof.Machine
end

section
/-! PROOF. The value that a lane leaves under each mode (R99, R148; O46). -/

namespace Sys2Proof.Machine

theorem ofNat_ubits (n : Nat) (z : Int) : BitVec.ofNat n (ubits n z) = BitVec.ofInt n z := by
  refine BitVec.eq_of_toNat_eq ?_
  rw [BitVec.toNat_ofNat, BitVec.toNat_ofInt, Nat.mod_eq_of_lt (ubits_lt n z)]
  rfl

theorem sint_toNat {n : Nat} (hn : 0 < n) (a : BitVec n) : sint n a.toNat = a.toInt := by
  obtain ⟨m, rfl⟩ := Nat.exists_eq_succ_of_ne_zero (Nat.ne_of_gt hn)
  have hlt := a.isLt
  unfold sint
  rw [BitVec.toInt_eq_toNat_cond, Nat.mod_eq_of_lt hlt, Nat.succ_sub_one]
  refine ite_congr (propext ?_) (fun _ => rfl) (fun _ => rfl)
  rw [Nat.pow_succ]
  omega

/-- The saturated sum under S36, and its overflow. -/
theorem drainS36_spec (a : W36) (S : Int) : BitVec.ofNat 36 (drainS36 a.toNat S).1
      = BitVec.ofInt 36 (max (-(2 ^ 35)) (min (2 ^ 35 - 1) (a.toInt + S)))
    ∧ (drainS36 a.toNat S).2 = if -(2 ^ 35) ≤ a.toInt + S ∧ a.toInt + S < 2 ^ 35 then 0 else fOverflow := by
  unfold drainS36
  dsimp only
  rw [sint_toNat (by decide), ofNat_ubits]
  generalize a.toInt + S = z
  have hsat : satS 36 z = max (-(2 ^ 35)) (min (2 ^ 35 - 1) z) := rfl
  refine ⟨congrArg _ hsat, ite_congr (propext ?_) (fun _ => rfl) (fun _ => rfl)⟩
  rw [hsat]
  omega

theorem append_toNat (a b : W36) : (b ++ a).toNat = a.toNat + 2 ^ 36 * b.toNat := by
  rw [BitVec.toNat_append, ← Nat.shiftLeft_add_eq_or_of_lt a.isLt, Nat.shiftLeft_eq]
  omega

/-- The two slots of a pair. -/
theorem pair_slots (v : Nat) : BitVec.ofNat 36 (v % 2 ^ 36) = (BitVec.ofNat 72 v).setWidth 36
    ∧ BitVec.ofNat 36 (v / 2 ^ 36) = (BitVec.ofNat 72 v >>> 36).setWidth 36 := by
  constructor <;> refine BitVec.eq_of_toNat_eq ?_
  · rw [BitVec.toNat_ofNat, BitVec.toNat_setWidth, BitVec.toNat_ofNat]
    omega
  · rw [BitVec.toNat_ofNat, BitVec.toNat_setWidth, BitVec.toNat_ushiftRight, BitVec.toNat_ofNat, Nat.shiftRight_eq_div_pow]
    omega

/-- The pair under X72: the block scaled to the base exponent joins it; a pair that is no number stays. -/
theorem drainX72_spec (a b : W36) (S P beta : Int) : BitVec.ofNat 72 (drainX72 (a.toNat + 2 ^ 36 * b.toNat) S P beta).1
    = if b ++ a = BitVec.ofNat 72 (2 ^ 71) then b ++ a
      else BitVec.ofInt 72 (max (-(2 ^ 71 - 1)) (min (2 ^ 71 - 1) ((b ++ a).toInt
        + if 0 ≤ P - beta then S * 2 ^ (P - beta).toNat else S / (2 ^ (-(P - beta)).toNat : Nat)))) := by
  rw [← append_toNat]
  generalize b ++ a = pair
  have hnan : pair.toNat = x72Nan ↔ pair = BitVec.ofNat 72 (2 ^ 71) := BitVec.toNat_inj (y := BitVec.ofNat 72 (2 ^ 71))
  unfold drainX72
  by_cases h : pair = BitVec.ofNat 72 (2 ^ 71)
  · rw [if_pos (hnan.mpr h), if_pos h]
    exact BitVec.ofNat_toNat ..
  · rw [if_neg (mt hnan.mp h), if_neg h]
    dsimp only
    rw [sint_toNat (by decide)]
    generalize pair.toInt + _ = z
    have hmax : x72Max = 2 ^ 71 - 1 := rfl
    rw [hmax]
    split
    · rw [ofNat_ubits]
      congr 1
      omega
    · split
      · rw [ofNat_ubits]
        congr 1
        omega
      · rw [ofNat_ubits]
        congr 1
        omega

/-! ### The operand and the outcome of a lane -/

section
variable {m : SMap W36} {d : DrainJob} {S P : Int} {bad nf rsv : Bool}

theorem drainOld_some {r : RowJob} {pos c : Nat} {a b : W36} (ha : slotOld m r (laneLow r pos c) = some a)
    (hb : slotOld m r (laneHigh r pos c) = some b) :
    drainOld m r pos c = some (if r.dm = .x72 then a.toNat + 2 ^ 36 * b.toNat else a.toNat) := by
  unfold slotOld at ha hb
  unfold drainOld
  cases hinit : r.init with
  | true =>
    simp only [hinit, if_true, Option.some.injEq] at ha hb
    subst ha hb
    simp
  | false =>
    simp only [hinit, Bool.false_eq_true, if_false] at ha hb
    simp only [Bool.false_eq_true, if_false, ha]
    by_cases hdm : r.dm = .x72
    · simp only [hdm, if_true, hb]
    · simp only [hdm, if_false]
      rfl

theorem drainOld_none {r : RowJob} {pos c : Nat} (h : slotOld m r (laneLow r pos c) = none ∨ slotOld m r (laneHigh r pos c) = none) :
    drainOld m r pos c = none := by
  unfold slotOld at h
  unfold drainOld
  cases hinit : r.init with
  | true => simp [hinit] at h
  | false =>
    simp only [hinit, Bool.false_eq_true, if_false] at h
    simp only [Bool.false_eq_true, if_false]
    by_cases hdm : r.dm = .x72
    · simp only [hdm, if_true]
      rcases h with h | h
      · simp only [h]
      · cases mapGet m (laneLow r pos c) <;> simp only [h]
    · have hlow : mapGet m (laneLow r pos c) = none := by
        rw [laneHigh_eq hdm] at h
        exact h.elim id id
      simp only [hlow]

/-- A lane with a poisoned operand leaves poison, and no flag. -/
theorem drainLane_lost (hlane : d.lanes[d.c]? = some (S, P, bad, nf, rsv))
    (h : bad = true ∨ slotOld m d.row (laneLow d.row d.pos d.c) = none ∨ slotOld m d.row (laneHigh d.row d.pos d.c) = none) :
    drainLane m d = (drainPut d.row d.pos d.c none, 0) := by
  rw [drainLane_eq hlane]
  rcases h with rfl | h
  · rfl
  · rw [drainOld_none h]
    rw [ite_self]

/-- A lane with whole operands leaves the value of its mode. -/
theorem drainLane_whole {a b : W36} (hlane : d.lanes[d.c]? = some (S, P, bad, nf, rsv)) (hbad : bad = false)
    (ha : slotOld m d.row (laneLow d.row d.pos d.c) = some a) (hb : slotOld m d.row (laneHigh d.row d.pos d.c) = some b) :
    let v := drainValue d.row S P nf rsv (if d.row.dm = .x72 then a.toNat + 2 ^ 36 * b.toNat else a.toNat)
    drainLane m d = (drainPut d.row d.pos d.c (some v.1), v.2) := by
  rw [drainLane_eq hlane, hbad, if_neg Bool.false_ne_true, drainOld_some ha hb]

end

section
variable {r : RowJob} {S P : Int} {nf rsv : Bool} {o : Nat}

theorem drainValue_s36 (h : r.dm = .s36) : drainValue r S P nf rsv o = ((drainS36 o (if nf then 0 else S)).1,
    (drainS36 o (if nf then 0 else S)).2 ||| ((if nf then fInvalid else 0) ||| (if rsv then fInvalid else 0))) := by
  simp only [drainValue, h]

theorem drainValue_x72 (h : r.dm = .x72) :
    (drainValue r S P nf rsv o).1 = if nf then x72Nan else (drainX72 o S P r.beta).1 := by
  simp only [drainValue, h]
  split <;> rfl

theorem drainValue_f32 (h : r.dm = .f32) :
    (drainValue r S P nf rsv o).1 = if nf then FFmt.f32.dnan else (drainF32 (modeOfCtl r.rnd.toNat) (o % 2 ^ 32) S P).1 := by
  simp only [drainValue, h]
  split <;> rfl

end

end Sys2Proof.Machine
end

section
/-! PROOF. One lane drains: its landing, its flags and the lane after it (R99, R147; O46). -/

namespace Sys2Proof.Machine

/-- What the landing of slots leaves in its core. -/
def Core.slotsLanded (co : Core) (fresh : Nat) (x : Src) (ws : List SlotWrite) : Core :=
  ((({ co with landed := co.effectsKeys [.slots ws] ++ co.landed } : Core).digestChunks x.eng
    (({ co with landed := co.effectsKeys [.slots ws] ++ co.landed } : Core).landChunks fresh [.slots ws])).land fresh (.slots ws))

theorem Core.slotsLanded_mrf (co : Core) (fresh : Nat) (x : Src) (ws : List SlotWrite) :
    (co.slotsLanded fresh x ws).mrf = ws.foldl (putSlot fresh) co.mrf := rfl

theorem State.landEffects_slots {s : State} {c : Fin 96} {x : Src} {back : Pend} {ws : List SlotWrite}
    (h : ∀ k, k ∈ (s.core c).effectsKeys [.slots ws] → k ∉ (s.core c).landed) : s.landEffects c x back [.slots ws]
      = { s.setCore c ((s.core c).slotsLanded s.fresh x ws) with fresh := s.fresh + 1 } := by
  have hfree : firstOf ([Effect.slots ws].map (s.landDev c x)) = none := rfl
  rw [State.landEffects_apart h, hfree]
  dsimp only
  unfold State.landAll State.landAll
  rw [ite_self]
  unfold State.landOne
  dsimp only
  rw [State.core_setCore_self, State.setCore_setCore]
  rfl

/-- The core with the flags of a lane due in its tick, and the next lane a tick later. -/
def Core.laneAfter (co : Core) (x : Pend) (d : DrainJob) (f : Flags) : Core :=
  let v := if f = 0 then co else co.due x.src x.tick 2 (.land [.orFlags f])
  if d.c < 255 then v.due x.src (x.tick + 1) 1 (.drain { d with c := d.c + 1 }) else v

section
variable {co : Core} {x : Pend} {d : DrainJob} {f : Flags}

theorem Core.laneAfter_frame : (co.laneAfter x d f).mrf = co.mrf ∧ (co.laneAfter x d f).regs = co.regs
    ∧ (co.laneAfter x d f).landed = co.landed := by
  unfold Core.laneAfter
  dsimp only
  split <;> split <;> exact ⟨rfl, rfl, rfl⟩

theorem Core.laneAfter_next (h : d.c < 255) :
    ∃ y, y ∈ (co.laneAfter x d f).pend ∧ y.tick = x.tick + 1 ∧ y.src = x.src ∧ y.act = .drain { d with c := d.c + 1 } := by
  unfold Core.laneAfter
  dsimp only
  rw [if_pos h]
  exact Core.mem_due

theorem Core.laneAfter_flags (h : f ≠ 0) :
    ∃ y, y ∈ (co.laneAfter x d f).pend ∧ y.tick = x.tick ∧ y.act = .land [.orFlags f] := by
  obtain ⟨y, hy, htick, hsrc, hact⟩ := Core.mem_due (co := co) (x := x.src) (tick := x.tick) (ord := 2) (a := .land [.orFlags f])
  refine ⟨y, ?_, htick, hact⟩
  unfold Core.laneAfter
  dsimp only
  rw [if_neg h]
  split
  · exact Core.mem_due_of_mem hy
  · exact hy

end

/-- Where no other lane drains in the tick, all that is due stays. -/
theorem dropDrains_none {t : Nat} {x : Src} {ps : List Pend} (h : drainsDue t x ps = []) : dropDrains t x ps = ps := by
  unfold dropDrains
  refine List.filter_eq_self.mpr fun p hp => ?_
  induction ps with
  | nil => exact nomatch hp
  | cons q ps ih =>
    unfold drainsDue at h
    cases hact : p.act with
    | drain d =>
      dsimp only
      rcases List.mem_cons.mp hp with rfl | hp
      · simp only [hact] at h
        split at h
        · exact nomatch h
        · next hne =>
          rw [Bool.not_eq_true', Bool.and_eq_false_iff, beq_eq_false_iff_ne, beq_eq_false_iff_ne]
          exact Classical.not_and_iff_not_or_not.mp hne
      · have hrest : drainsDue t x ps = [] := by
          split at h
          · split at h
            · exact nomatch h
            · exact h
          · exact h
        have := ih hrest hp
        rwa [hact] at this
    | _ => rfl

section
variable {s : State} {x : Pend} {d : DrainJob} {co : Core}

/-- One lane drains, where no other does. -/
theorem State.drainTick_alone (hco : s.core s.slot.core = co) (hdue : drainsDue x.tick x.src co.pend = [])
    (htrap : drainTrap co.mrf [d] (drainLane co.mrf d).2 = none) (hapart : ∀ k, k ∈ co.effectsKeys [.slots (drainLane co.mrf d).1] → k ∉ co.landed) :
    s.drainTick x d = { s.setCore s.slot.core ((co.laneAfter x d (drainLane co.mrf d).2).slotsLanded s.fresh x.src (drainLane co.mrf d).1)
      with fresh := s.fresh + 1 } := by
  have hsame : ({ co with pend := dropDrains x.tick x.src co.pend } : Core) = co := by
    rw [dropDrains_none hdue]
  have hflags : orAll (([d].map (drainLane co.mrf)).map Prod.snd) = (drainLane co.mrf d).2 := BitVec.or_zero
  have hws : ([d].map (drainLane co.mrf)).flatMap Prod.fst = (drainLane co.mrf d).1 := List.append_nil _
  have hafter : (s.setCore s.slot.core (co.laneAfter x d (drainLane co.mrf d).2)).core s.slot.core
      = co.laneAfter x d (drainLane co.mrf d).2 := State.core_setCore_self ..
  unfold State.drainTick
  dsimp only
  rw [hco, hdue, hsame]
  rw [hflags, htrap, hws]
  change (s.setCore s.slot.core (co.laneAfter x d (drainLane co.mrf d).2)).landEffects s.slot.core x.src x _ = _
  rw [State.landEffects_slots, hafter, State.setCore_setCore]
  · rfl
  · rw [hafter]
    obtain ⟨hm, hr, hl⟩ := Core.laneAfter_frame (co := co) (x := x) (d := d) (f := (drainLane co.mrf d).2)
    rw [hl]
    exact hapart

end

end Sys2Proof.Machine
end

section
/-! PROOF. The slots after one lane has drained, under each mode (R99, R148; O46). -/

namespace Sys2Proof.Machine

/-- What stands in slot k once the writes of a lane have landed. -/
def laneNew (f : Nat) (m : SMap W36) (d : DrainJob) (k : Nat) : Option W36 := mapGet ((drainLane m d).1.foldl (putSlot f) m) k

section
variable {f : Nat} {m : SMap W36} {d : DrainJob} {S P : Int} {bad nf rsv : Bool}
  (hs : mapSorted m = true) (hlane : d.lanes[d.c]? = some (S, P, bad, nf, rsv))
include hlane

theorem drainLane_put : ∃ v, (drainLane m d).1 = drainPut d.row d.pos d.c v := by
  rw [drainLane_eq hlane]
  cases (if bad then none else drainOld m d.row d.pos d.c) with
  | none => exact ⟨_, rfl⟩
  | some o => exact ⟨_, rfl⟩

include hs

theorem laneNew_other {k : Nat} (hl : k ≠ laneLow d.row d.pos d.c) (hh : k ≠ laneHigh d.row d.pos d.c) :
    laneNew f m d k = mapGet m k := by
  obtain ⟨v, hv⟩ := drainLane_put (m := m) hlane
  unfold laneNew
  rw [hv]
  exact drainPut_other hs v hl hh

theorem laneNew_lost
    (h : bad = true ∨ slotOld m d.row (laneLow d.row d.pos d.c) = none ∨ slotOld m d.row (laneHigh d.row d.pos d.c) = none) :
    laneNew f m d (laneLow d.row d.pos d.c) = none ∧ laneNew f m d (laneHigh d.row d.pos d.c) = none := by
  have hlow : laneNew f m d (laneLow d.row d.pos d.c) = none := by
    unfold laneNew
    rw [drainLane_lost hlane h]
    exact drainPut_low hs none
  refine ⟨hlow, ?_⟩
  by_cases hdm : d.row.dm = .x72
  · unfold laneNew
    rw [drainLane_lost hlane h]
    exact drainPut_high hs hdm none
  · rwa [laneHigh_eq hdm]

variable {a b : W36} (hbad : bad = false) (ha : slotOld m d.row (laneLow d.row d.pos d.c) = some a)
  (hb : slotOld m d.row (laneHigh d.row d.pos d.c) = some b)
include hbad ha hb

/-- A lane that drains into one slot leaves its value there. -/
theorem laneNew_single (hdm : d.row.dm ≠ .x72) : laneNew f m d (laneLow d.row d.pos d.c)
    = some (BitVec.ofNat 36 (drainValue d.row S P nf rsv a.toNat).1) := by
  have hwhole := drainLane_whole hlane hbad ha hb
  dsimp only at hwhole
  rw [if_neg hdm] at hwhole
  unfold laneNew
  rw [hwhole, drainPut_low hs, Option.map_some, if_neg hdm]

theorem laneNew_s36 (hdm : d.row.dm = .s36) : let z := a.toInt + (if nf then 0 else S)
    laneNew f m d (laneLow d.row d.pos d.c) = some (BitVec.ofInt 36 (max (-(2 ^ 35)) (min (2 ^ 35 - 1) z)))
      ∧ (drainLane m d).2 = (if -(2 ^ 35) ≤ z ∧ z < 2 ^ 35 then 0 else fOverflow)
        ||| (if nf then fInvalid else 0) ||| (if rsv then fInvalid else 0) := by
  have hne : d.row.dm ≠ .x72 := by
    rw [hdm]
    decide
  have hwhole := drainLane_whole hlane hbad ha hb
  dsimp only at hwhole
  rw [if_neg hne, drainValue_s36 hdm] at hwhole
  obtain ⟨hval, hflag⟩ := drainS36_spec a (if nf then 0 else S)
  refine ⟨?_, ?_⟩
  · rw [laneNew_single hs hlane hbad ha hb hne, drainValue_s36 hdm, hval]
  · rw [hwhole, hflag, BitVec.or_assoc]

theorem laneNew_x72 (hdm : d.row.dm = .x72) : let e := P - d.row.beta
    let lim : Int := 2 ^ 71 - 1
    let z := (b ++ a).toInt + (if 0 ≤ e then S * 2 ^ e.toNat else S / (2 ^ (-e).toNat : Nat))
    let pair : BitVec 72 := if nf then BitVec.ofNat 72 (2 ^ 71) else if b ++ a = BitVec.ofNat 72 (2 ^ 71) then b ++ a
      else BitVec.ofInt 72 (max (-lim) (min lim z))
    laneNew f m d (laneLow d.row d.pos d.c) = some (pair.setWidth 36)
      ∧ laneNew f m d (laneHigh d.row d.pos d.c) = some ((pair >>> 36).setWidth 36) := by
  intro e lim z pair
  have hwhole := drainLane_whole hlane hbad ha hb
  dsimp only at hwhole
  rw [if_pos hdm] at hwhole
  have hpair : BitVec.ofNat 72 (drainValue d.row S P nf rsv (a.toNat + 2 ^ 36 * b.toNat)).1 = pair := by
    rw [drainValue_x72 hdm]
    cases nf with
    | true => rfl
    | false => exact drainX72_spec a b S P d.row.beta
  generalize drainValue d.row S P nf rsv (a.toNat + 2 ^ 36 * b.toNat) = v at hwhole hpair
  obtain ⟨hlow, hhigh⟩ := pair_slots v.1
  rw [hpair] at hlow hhigh
  unfold laneNew
  rw [hwhole, drainPut_low hs, drainPut_high hs hdm, Option.map_some, Option.map_some, if_pos hdm, ← hlow, ← hhigh]
  exact ⟨rfl, rfl⟩

theorem laneNew_f32_nan (hdm : d.row.dm = .f32) (hnf : nf = true) :
    laneNew f m d (laneLow d.row d.pos d.c) = some (BitVec.ofNat 36 FFmt.f32.dnan) := by
  rw [laneNew_single hs hlane hbad ha hb (by rw [hdm]; decide), drainValue_f32 hdm, if_pos hnf]

theorem laneNew_f32 (hdm : d.row.dm = .f32) (hnf : nf = false) : laneNew f m d (laneLow d.row d.pos d.c)
    = some (BitVec.ofNat 36 (drainF32 (modeOfCtl d.row.rnd.toNat) (a.toNat % 2 ^ 32) S P).1) := by
  rw [laneNew_single hs hlane hbad ha hb (by rw [hdm]; decide), drainValue_f32 hdm, if_neg (by rw [hnf]; exact Bool.false_ne_true)]

end

end Sys2Proof.Machine
end

section
/-! PROOF. The other items that are due in a core (O46). -/

namespace Sys2Proof.Machine

/-- What a row leaves of column n for its drain: the exponent, the marks and the sum. -/
theorem rowLanes_spec (r : RowJob) (w : WSet) (ent : List (Option Byte)) {n : Nat} (hn : n < 256) :
    ∃ S P bad nf rsv, (rowLanes r w ent)[n]? = some (S, P, bad, nf, rsv)
      ∧ (none ∈ ent ∨ nth w.exps n none = none → bad = true)
      ∧ ∀ ew kw, none ∉ ent → nth w.exps n none = some (ew, kw) →
        (bad = true ↔ ∃ q, q ∈ shapeRows r.shape ∧ (mapGet w.rows q).bind (code9 · n) = none)
        ∧ P = (blockExp ent : Int) + ew.toNat - (if r.s5 then 260 else 268)
        ∧ (nf = true ↔ blockExp ent = 255 ∨ ew.toNat = 255)
        ∧ (bad = false → (rsv = true ↔ r.s5 = true ∧ ∃ q, q ∈ shapeRows r.shape
          ∧ (440 < (code9 ent q).getD 0 ∨ 440 < ((mapGet w.rows q).bind (code9 · n)).getD 0)))
        ∧ (bad = false → S = ((shapeRows r.shape).map fun q =>
            codeProduct r.s5 ((code9 ent q).getD 0) (((mapGet w.rows q).bind (code9 · n)).getD 0)).sum) := by
  obtain ⟨S, P, bad, nf, rsv, hl⟩ : ∃ S P bad nf rsv, laneOf r w ent n = (S, P, bad, nf, rsv) := ⟨_, _, _, _, _, rfl⟩
  refine ⟨S, P, bad, nf, rsv, (rowLanes_getElem? r w ent hn).trans (congrArg some hl), fun h => ?_, fun ew kw hent hexp => ?_⟩
  · have hb := laneOf_bad (r := r) h
    rwa [hl] at hb
  · rw [laneOf_whole hent hexp, Prod.mk.injEq, Prod.mk.injEq, Prod.mk.injEq, Prod.mk.injEq] at hl
    obtain ⟨rfl, rfl, rfl, rfl, rfl⟩ := hl
    refine ⟨laneSum_bad, rfl, ?_, fun h => (laneSum_good h).1, fun h => (laneSum_good h).2⟩
    rw [Bool.or_eq_true, beq_iff_eq, beq_iff_eq]

section
variable {s : State} {x : Pend} {rest : List Pend}

/-- A frozen tick: the beats that have not come to their home yet come a tick later, and the core counts the stall. -/
theorem elasticStall_exec {o : Owed} (h : (s.core s.slot.core).stalled = some o) :
    let part := s.part (s.partOf s.slot.core)
    let k := s.core s.slot.core
    exec .elasticStall s = .next ((s.setPart (s.partOf s.slot.core) { part with beats := part.beats.map fun b =>
        if b.core = s.slot.core.val ∧ part.k ≤ b.home then { b with home := b.home + 1 } else b }).setCore s.slot.core
      { k.countStall (engNo o.eng) o.col with
        stalled := none, froze := true, lag := k.lag + 1, frozen := k.frozen + 1, used := k.claims.map (·.res) ++ o.res }) := by
  dsimp only
  show execElasticStall s = _
  unfold execElasticStall
  dsimp only
  simp only [h]

theorem Core.countStall_own (k : Core) (row col : Nat) : mapGet (k.countStall row col).stalls (stallKey row col)
    = some (min 0xFFFFFFFF ((mapGet k.stalls (stallKey row col)).getD 0 + 1)) := mapGet_mapSet_own ..

section
variable {t : State} (htake : s.takeItem = some (x, t))
include htake

theorem macRowEntry_exec {r : RowJob} (hact : x.act = .row r) : exec .macRowEntry s = .next (t.rowEnter x r) := by
  show execMacRowEntry s = _
  unfold execMacRowEntry
  simp only [htake, hact]

theorem drainWrite_exec {d : DrainJob} (hact : x.act = .drain d) : exec .drainWrite s = .next (t.drainTick x d) := by
  show execDrainWrite s = _
  unfold execDrainWrite
  simp only [htake, hact]

theorem bandWakeComplete_exec {m : BitVec 4} (hact : x.act = .wake m) : exec .bandWakeComplete s
    = .next (t.setCore t.slot.core { t.core t.slot.core with waking := (t.core t.slot.core).waking &&& ~~~m }) := by
  show execBandWakeComplete s = _
  unfold execBandWakeComplete
  simp only [htake, hact]

theorem loopExit_exec {depth widx : Nat} (hact : x.act = .loopExit depth widx) :
    let v := t.core t.slot.core
    let e := (v.exits + 1) % 2 ^ 32
    exec .loopExit s = .next (t.setCore t.slot.core { v with
      running := v.running.filter fun r => !(r.depth == depth && r.t0 == x.src.tick)
      exits := e
      profile := (⟨v.regs.ctl.phase.toNat, widx, x.tick - 1, e, v.frozen, v.stalls⟩ :: v.profile).take 8 }) := by
  intro v e
  show execLoopExit s = _
  unfold execLoopExit
  simp only [htake, hact]
  rfl

section
variable {d : Nat} {path : Path} {peer j : Nat} {r : RecvJob} {on : Bool} (hact : x.act = .link d path peer j r on)
include hact

theorem linkBeatDelivery_found {a : Bool × LinkBeat} (ha : (t.core t.slot.core).arrivals.find? (isBeat d path peer j) = some a) :
    exec .linkBeatDelivery s = .next (t.deliver x path d peer j r on a.2) := by
  show execLinkBeatDelivery s = _
  unfold execLinkBeatDelivery
  simp only [htake, hact, ha]

theorem linkBeatDelivery_missing (hn : (t.core t.slot.core).arrivals.find? (isBeat d path peer j) = none) :
    exec .linkBeatDelivery s
      = .next (t.lateFault t.slot.core x.src ⟨0x09, linkDetail (if path.isTorus then 7 else 1) (pathNo path) peer, 0, 1⟩) := by
  show execLinkBeatDelivery s = _
  unfold execLinkBeatDelivery
  simp only [htake, hact, hn]

end

/-- One lane drains, where no other does: what its core holds then, and that nothing else changes. -/
theorem drainWrite_alone {d : DrainJob} {co : Core} (hact : x.act = .drain d) (hco : t.core t.slot.core = co)
    (hdue : drainsDue x.tick x.src co.pend = []) (htrap : drainTrap co.mrf [d] (drainLane co.mrf d).2 = none)
    (hapart : ∀ k, k ∈ co.effectsKeys [.slots (drainLane co.mrf d).1] → k ∉ co.landed) :
    ∃ u, exec .drainWrite s = .next u ∧ u.hbm = t.hbm ∧ u.parts = t.parts ∧ (∀ e : Fin 96, e ≠ t.slot.core → u.core e = t.core e)
      ∧ (u.core t.slot.core).regs = co.regs ∧ (∀ k, mapGet (u.core t.slot.core).mrf k = laneNew t.fresh co.mrf d k)
      ∧ (u.core t.slot.core).pend = (co.laneAfter x d (drainLane co.mrf d).2).pend := by
  obtain ⟨hmrf, hregs, -⟩ := Core.laneAfter_frame (co := co) (x := x) (d := d) (f := (drainLane co.mrf d).2)
  have hexec := drainWrite_exec htake hact
  rw [State.drainTick_alone hco hdue htrap hapart] at hexec
  refine ⟨_, hexec, rfl, rfl, fun e he => State.core_set_ne _ _ _ _ he, ?_⟩
  rw [show ({ t.setCore t.slot.core ((co.laneAfter x d (drainLane co.mrf d).2).slotsLanded t.fresh x.src (drainLane co.mrf d).1) with
    fresh := t.fresh + 1 } : State).core t.slot.core = _ from State.core_setCore_self ..]
  refine ⟨hregs, fun k => ?_, rfl⟩
  unfold laneNew
  rw [Core.slotsLanded_mrf, hmrf]

end

/-- A beat as it waits for its turn at its home. -/
def HomeOp.waits (op : HomeOp) (c : Fin 96) (h : Home) (bs : List (Option Byte)) : InAct :=
  match op with
  | .write => .write h bs
  | .acc a rnd => .acc c h a rnd bs

section
variable {t v : State} {h : Home} {bs : List (Option Byte)} {op : HomeOp} (htake : s.takeItem = some (x, t)) (hact : x.act = .home h bs op)
  (hv : t.setCore t.slot.core ((t.core t.slot.core).digestChunks x.src.eng
    (byteChunks (cdiv (t.homeBytes h bs op).1.length 8) (t.homeBytes h bs op).1)) = v)
include htake hact hv

theorem wBeatHomeWrite_now (hd : v.deferrer (v.sourceOf t.slot.core) h bs.length = none) : exec .wBeatHomeWrite s
    = .next ((v.flagsNow t.slot.core x (t.homeBytes h bs op).2).homeWrite (v.timed t.slot.core) h (t.homeBytes h bs op).1) := by
  show execWBeatHomeWrite s = _
  unfold execWBeatHomeWrite
  simp only [htake, hact, hv, hd]

theorem wBeatHomeWrite_deferred {q : Nat} (hd : v.deferrer (v.sourceOf t.slot.core) h bs.length = some q) : exec .wBeatHomeWrite s
    = .next (v.deferTo q { src := v.sourceOf t.slot.core, issued := some (v.issuedAt t.slot.core x.src.tick),
                           act := op.waits t.slot.core h bs }) := by
  show execWBeatHomeWrite s = _
  unfold execWBeatHomeWrite
  simp only [htake, hact, hv, hd]
  cases op <;> rfl

end

end

/-- Settles O46: a row enters as `State.rowEnter_enters` gives it, and leaves the sums of `rowLanes_spec`; a lane drains as
`State.drainTick_alone` gives it, and leaves the values of its mode; the other items are their own equations. -/
theorem coreItemEvents : Obligations.CoreItemEvents := by
  unfold Obligations.CoreItemEvents
  intro s x rest c co t
  refine ⟨fun hpend => ?_, fun o ho => ?_⟩
  · have htake : s.takeItem = some (x, t) := State.takeItem_eq hpend
    have hco : t.core t.slot.core = co := State.core_setCore_self ..
    refine ⟨fun r hact => ?_, fun r k hact htrap hk => ?_, fun d hact => ?_, fun d S P bad nf rsv hact hlane hdue htrap hwf hapart => ?_,
      fun m hact => ?_, fun depth widx hact => ?_, fun h bs op hact => ?_, fun d path peer j r on hact => ?_⟩
    · have hexec := macRowEntry_exec htake hact
      refine ⟨hexec, fun f hf hstop => ?_, fun f hf hcode hel => ?_⟩
      · rw [State.rowEnter_trapped hco hf, if_neg] at hexec
        · exact hexec
        · rintro ⟨hcode, hel⟩
          rcases hstop with h | h
          · exact h hcode
          · rw [hel] at h
            exact nomatch h
      · rw [State.rowEnter_trapped hco hf, if_pos ⟨hcode, hel⟩] at hexec
        exact hexec.trans (congrArg Host.Outcome.next (State.setCore_setCore ..))
    · intro ra ent w pops pos
      have hexec := macRowEntry_exec htake hact
      rw [State.rowEnter_enters hco htrap hk] at hexec
      have hv : (t.setCore c (co.rowEntered x r k)).core c = co.rowEntered x r k := State.core_setCore_self ..
      obtain ⟨hmrf, hregs, hab⟩ := co.rowEntered_frame x r k
      refine ⟨t.setCore c (co.rowEntered x r k), hexec, rfl, rfl, fun d hd => ?_, ?_⟩
      · exact (State.core_set_ne _ _ _ _ hd).trans (State.core_set_ne _ _ _ _ hd)
      · rw [hv]
        refine ⟨hmrf, hregs, hab, Core.rowEntered_pops, fun hon => Core.rowHold_holds _ hon, Core.rowEntered_quiet, fun hon hdm => ?_⟩
        obtain ⟨y, hy, htick, hsrc, hdrain⟩ := Core.rowEntered_drain (co := co) (x := x) (k := k) hon hdm
        exact ⟨y, _, hy, htick, hsrc, hdrain, rowLanes_length .., fun n hn => rowLanes_spec r w ent hn⟩
    · exact drainWrite_exec htake hact
    · intro r at_ ka kb old lost new lim
      have hsorted : mapSorted co.mrf = true := by
        obtain ⟨-, -, -, -, hm, -⟩ := (Core.memWf_iff _).mp (State.core_memWf s c hwf)
        exact hm
      obtain ⟨u, hexec, hhbm, hparts, hcores, hregs, hnew, hpends⟩ := drainWrite_alone htake hact hco hdue htrap hapart
      replace hnew : ∀ k, new u k = laneNew t.fresh co.mrf d k := hnew
      replace hpends : (u.core c).pend = (co.laneAfter x d (drainLane co.mrf d).2).pend := hpends
      refine ⟨u, hexec, hhbm, hparts, fun e he => (hcores e he).trans (State.core_set_ne _ _ _ _ he), hregs, fun k hl hh => ?_,
        fun hlast => ?_, fun hlost => ?_, fun hf => ?_, fun hlost a b ha hb => ?_⟩
      · rw [hnew]
        exact laneNew_other hsorted hlane hl hh
      · rw [hpends]
        exact Core.laneAfter_next hlast
      · rw [hnew, hnew]
        exact laneNew_lost hsorted hlane hlost
      · rw [hpends]
        exact Core.laneAfter_flags hf
      · have hbad : bad = false := Bool.eq_false_iff.mpr fun h => hlost (.inl h)
        rw [hnew, hnew]
        exact ⟨laneNew_s36 hsorted hlane hbad ha hb, laneNew_x72 hsorted hlane hbad ha hb,
          laneNew_f32_nan hsorted hlane hbad ha hb, laneNew_f32 hsorted hlane hbad ha hb⟩
    · have hexec := bandWakeComplete_exec htake hact
      rw [hco] at hexec
      exact hexec.trans (congrArg Host.Outcome.next (State.setCore_setCore ..))
    · have hexec := loopExit_exec htake hact
      rw [hco] at hexec
      exact hexec.trans (congrArg Host.Outcome.next (State.setCore_setCore ..))
    · intro out t'
      have hput : t.setCore t.slot.core ((t.core t.slot.core).digestChunks x.src.eng (byteChunks (cdiv out.1.length 8) out.1)) = t' := by
        rw [hco]
        exact State.setCore_setCore ..
      exact ⟨fun hd => wBeatHomeWrite_now (t := t) htake hact hput hd, fun q hd => wBeatHomeWrite_deferred (t := t) htake hact hput hd⟩
    · exact ⟨fun a ha => linkBeatDelivery_found htake hact (by rw [hco]; exact ha),
        fun hn => linkBeatDelivery_missing htake hact (by rw [hco]; exact hn)⟩
  · intro k part
    refine ⟨_, elasticStall_exec ho, rfl, rfl, fun d hd => ?_, State.core_setCore_self .., ?_, ?_⟩
    · exact State.core_set_ne _ _ _ _ hd
    · rw [State.core_setCore_self]
      exact Core.countStall_own ..
    · exact State.part_setPart_self ..

end Sys2Proof.Machine
end
